-- ==== Sys2Proof/Word.lean ====
section
/-! DEFINITION. The byte of the port frames and the fixed bounds that the manual's numbers share. -/

namespace Sys2Proof

/-- One byte of a port transaction or frame (Chapter 13). -/
abbrev Byte := BitVec 8

/-- The upper bound of P, PA, PB and of every 32-bit unsigned figure (R12, R13). -/
abbrev topOfPosition : Nat := 4294967295

end Sys2Proof
end

