-- ==== Sys2Proof/Syntax.lean ====
section
/-! DEFINITION. The commands: one constructor for each row of spec/opcode_table.json, with the operands its rule
names. A request row carries its port and the fields of its payload (Chapter 13) as the numbers sent: whether a
number or a code is in range is judged by the owning block (R196), so no field is narrowed here. -/

namespace Sys2Proof

/-- The two encoders, which are also the two sources of P (R13). -/
inductive Encoder where
  | a
  | b
  deriving DecidableEq, Repr

/-- The two phase lines of an encoder (R4). -/
inductive Phase where
  | one
  | two
  deriving DecidableEq, Repr

/-- The three station ports: L line controller, I inspection station, O operator station (R171). -/
inductive Port where
  | l
  | i
  | o
  deriving DecidableEq, Repr

/-- The select of a transaction: the port it is asserted at, and whether that was before the port's last change of state
(R172, log entry 4). -/
structure Select where
  port : Port
  early : Bool
  deriving DecidableEq, Repr

/-- The levels on the six input lines, `true` for high (R194, step 1 of the end of warm-up). -/
structure InputLevels where
  a1 : Bool
  a2 : Bool
  b1 : Bool
  b2 : Bool
  mark : Bool
  splice : Bool
  deriving DecidableEq, Repr

/-- The six station offsets, in units from the measuring roll (R1). -/
structure Geometry where
  c : Int
  e : Int
  m : Int
  k : Int
  s : Int
  w : Int
  deriving DecidableEq, Repr

/-- The figures SET-CALIBRATION carries for one encoder (R8); `filter` is the filter code of 13.3. -/
structure CalibrationFields where
  circumference : Nat
  counts : Nat
  filter : Nat
  deriving DecidableEq, Repr

/-- The nine settings SET-MOTION carries (R32); `gate` is the G code of 13.3. -/
structure MotionFields where
  gate : Nat
  decel : Nat
  reaction : Nat
  tolerance : Nat
  overrun : Nat
  timeout : Nat
  silence : Nat
  check : Nat
  slip : Nat
  deriving DecidableEq, Repr

/-- The fields of a DEFECT request (13.4). -/
structure DefectFields where
  tag : Nat
  cls : Nat
  severity : Nat
  xs : Nat
  xe : Nat
  length : Nat
  age : Nat
  deriving DecidableEq, Repr

/-- The fields of a JOB-START request in the order of 13.4; `classes` is the stop-class word (bit n for class n). -/
structure JobFields where
  job : Nat
  targetPresent : Nat
  target : Nat
  spliceLimit : Nat
  enforce : Nat
  classes : Nat
  severity : Nat
  stopOnDefect : Nat
  stopOffset : Int
  holdOnCritical : Nat
  tracking : Nat
  expected : Nat
  window : Nat
  lossCount : Nat
  stopOnLoss : Nat
  align : Nat
  cutOffset : Int
  deriving DecidableEq, Repr

/-- The commands of the part, in the order of spec/opcode_table.json. -/
inductive Instr where
  /-- RESETN recognised low, power-up or a supply drop (R194). -/
  | reset
  /-- RESETN high for 24 cycles with the supply in range (R194). -/
  | resetRelease
  /-- The end of warm-up, with the levels then present on the input lines (R194). -/
  | endOfWarmUp (levels : InputLevels)
  /-- The end of a 1 ms interval (R193). -/
  | interval
  /-- The close of the running gate (R25). -/
  | gateClose
  /-- The motion timer at 0 (R35). -/
  | noMotion
  /-- An accepted edge on one phase line of one encoder (R4, R11). -/
  | count (enc : Encoder) (phase : Phase)
  /-- Both phases of one encoder change at one sampling instant (R5). -/
  | illegalTransition (enc : Encoder)
  /-- An accepted MARK change in the chosen edge direction (R7, R120). -/
  | markArrival
  /-- An accepted SPLICE change in the chosen edge direction (R7, R64). -/
  | spliceArrival
  /-- An owed pulse begins on STROBE (R23). -/
  | strobePulse
  /-- The 2 µs high level of a STROBE pulse ends (R23). -/
  | strobePulseEnd
  /-- A SEND transaction: its select, the whole bytes after the transaction byte, and whether select was released inside a
  further byte (R172 to R174). -/
  | send (p : Select) (bytes : List Byte) (cut : Bool)
  /-- A FETCH transaction: its select, and how many bytes were clocked out after the status byte (R172, R177). -/
  | fetch (p : Select) (clocked : Nat)
  /-- A void transaction: its select, its first byte, if that was whole, and the bytes clocked after it (R172). -/
  | voidTransaction (p : Select) (first : Option Byte) (clocked : Nat)
  | setGeometry (p : Port) (g : Geometry)
  | setCalibration (p : Port) (fa fb : CalibrationFields)
  | setSensors (p : Port) (markFilter markEdge spliceFilter spliceEdge : Nat)
  | setTrim (p : Port) (enc : Nat) (trim : Int)
  | selectSource (p : Port) (source : Nat)
  | setStrobe (p : Port) (q : Nat)
  | setMotion (p : Port) (m : MotionFields)
  | lineState (p : Port) (report : Nat)
  | loadPlan (p : Port) (plan : Nat) (knives : List Nat)
  | defect (p : Port) (d : DefectFields)
  | laneStatus (p : Port) (job set lane status : Nat)
  | releaseSet (p : Port) (job set : Nat)
  | readSet (p : Port) (job set firstLane : Nat)
  | readLane (p : Port) (job set lane list start : Nat)
  | cutOpen (p : Port)
  | spliceMade (p : Port) (firstLane lastLane : Nat) (records : List Nat)
  | cutCancel (p : Port)
  | addStop (p : Port) (form length : Nat)
  | cancelStop (p : Port) (entry : Nat)
  | setTarget (p : Port) (length : Nat)
  | readStops (p : Port) (start : Nat)
  | jobStart (p : Port) (j : JobFields)
  | jobEnd (p : Port)
  | setStart (p : Port)
  | setClose (p : Port)
  | readStatus (p : Port)
  | readQueue (p : Port) (start : Nat)
  | readCounters (p : Port)
  | readEvents (p : Port)
  | ackEvents (p : Port) (kinds : List Nat)
  | setAlerts (p : Port) (master : Nat) (kinds : List Nat)
  deriving DecidableEq, Repr

end Sys2Proof
end

