-- ==== Sys2Proof/Decode.lean ====
section
/-! DEFINITION. The reading of a table word. spec/opcode_table.json gives none of its 46 rows any bits ("fields" is
empty in every row and no row has a fixed pattern), so no word spells a command. The request frames of Chapter 13
are another matter: they are read by Machine/Frames.lean. -/

namespace Sys2Proof

/-- The command that a word of the table's bits spells: none, since no row gives bits (log entry 6). -/
def decodeTableWord (_nbits _w : Nat) : Option Instr := none

end Sys2Proof
end

