-- ==== Sys2Proof/Config.lean ====
section
/-! DEFINITION. The free values: what the manual leaves open. They have no body, so no proof can lean on one. -/

namespace Sys2Proof

/-- The value a reply field of `width` bytes carries for a figure that does not fit it. Chapter 13 fixes the
widths and says nothing of such a figure (a pulled-through count above 255 in the SPLICE-MADE reply of 13.3, a
stop target beyond 40 bits after repeated cut shifts, R136). The second argument is the figure. Log entry 14. -/
opaque Config.wideField : Nat → Int → Nat

/-- Whether NO-MOTION is taken before the gate close when one 1 ms interval makes both due and no command
orders them: R35 allows either order. The argument counts the choices made. Log entry 12. -/
opaque Config.noMotionFirst : Nat → Bool

end Sys2Proof
end

