-- ==== Sys2Proof/Machine/State.lean ====
section
/-! DEFINITION. Every piece of state the manual gives the part, as plain data, and its values after reset.
Positions, lengths and counts are whole numbers (R10, R12 hold them in exact integers); where a rule gives a bound
or a wrap, the operation that changes the value applies it. -/

namespace Sys2Proof.Machine

/-! ## Shared shapes -/

/-- One item for each of the three ports or stations. -/
structure ByPort (α : Type) where
  l : α
  i : α
  o : α
  deriving DecidableEq, Repr

/-- A direction of travel (R26, R120). -/
inductive Direction where
  | forward
  | reverse
  deriving DecidableEq, Repr

/-- Defect severity, MINOR below MAJOR below CRITICAL (R55). -/
inductive Severity where
  | minor
  | major
  | critical
  deriving DecidableEq, Repr

/-! ## Time base (Chapter 12) -/

/-- The warm-up count: 0 to 4 intervals, or ENDED (R194). -/
inductive WarmUp where
  | counting (n : Nat)
  | ended
  deriving DecidableEq, Repr

structure TimeBase where
  /-- RESETN is recognised low: the part is held in reset (R194). -/
  inReset : Bool
  /-- Clock cycles within the current interval, 0 to 23,999 (R193). -/
  cycle : Nat
  warmUp : WarmUp
  deriving DecidableEq, Repr

/-! ## Sensor inputs (Chapter 1) -/

/-- The input side of one encoder (R3 to R5). -/
structure EncoderInput where
  /-- The filter time in clock cycles (R3, R193). -/
  filter : Nat
  /-- The accepted levels of the two phase lines, the quadrature state (R4). -/
  level1 : Bool
  level2 : Bool
  /-- The glitch counter (R5). -/
  glitches : Nat
  /-- ENCODER-GLITCH has been posted for this encoder in the running gate (R5). -/
  glitchPosted : Bool
  deriving DecidableEq, Repr

/-- The edge choice of the MARK and SPLICE lines (R6). -/
inductive Edge where
  | rising
  | falling
  deriving DecidableEq, Repr

/-- The MARK or the SPLICE line (R6). -/
structure LineInput where
  /-- The filter time in clock cycles (R6, R193). -/
  filter : Nat
  edge : Edge
  /-- The accepted level. -/
  level : Bool
  deriving DecidableEq, Repr

structure Inputs where
  /-- The levels present on the six input pins. -/
  pins : InputLevels
  encA : EncoderInput
  encB : EncoderInput
  mark : LineInput
  splice : LineInput
  deriving DecidableEq, Repr

/-! ## Length counter and strobe divider (Chapter 1) -/

/-- What the length counter holds for one encoder (R8 to R12, R16). N and D are computed from C, K and T. -/
structure Measure where
  circumference : Nat
  counts : Nat
  trim : Int
  /-- The remainder rX, a fraction of a unit scaled by D (R10). -/
  remainder : Nat
  /-- The shadow position PX (R10). -/
  position : Nat
  /-- The ALIVE or SILENT mark (R16). -/
  silent : Bool
  /-- The silence distance (R16). -/
  silence : Nat
  deriving DecidableEq, Repr

/-- The bases of an open slip span (R20). -/
structure SlipSpan where
  pa0 : Nat
  pb0 : Nat
  deriving DecidableEq, Repr

structure LengthCounter where
  a : Measure
  b : Measure
  /-- The web position P (R13). -/
  p : Nat
  /-- The active source (R13). -/
  active : Encoder
  /-- The open slip span, or none (R20). -/
  span : Option SlipSpan
  lastDeviation : Int
  slipCount : Nat
  deriving DecidableEq, Repr

/-- The strobe divider and the STROBE output (R22, R23). -/
structure Strobe where
  interval : Nat
  count : Nat
  owed : Nat
  /-- STROBE is high. -/
  high : Bool
  /-- Clock cycles for which STROBE has held its level, up to the 48 of 2 µs. -/
  held : Nat
  deriving DecidableEq, Repr

/-! ## Motion monitor (Chapter 2) -/

/-- The nine motion settings (R32), the gate period in ms. -/
structure MotionSettings where
  gate : Nat
  decel : Nat
  reaction : Nat
  tolerance : Nat
  overrun : Nat
  timeout : Nat
  silence : Nat
  check : Nat
  slip : Nat
  deriving DecidableEq, Repr

/-- The speed ring, oldest delta first (R26). -/
structure Ring where
  d1 : Int
  d2 : Int
  d3 : Int
  d4 : Int
  deriving DecidableEq, Repr

/-- The reported line state (R34). -/
inductive LineReport where
  | stopped
  | running
  | jogging
  deriving DecidableEq, Repr

structure Motion where
  settings : MotionSettings
  /-- The next gate period, or none (R33). -/
  nextGate : Option Nat
  baseline : Nat
  gateClock : Nat
  ring : Ring
  speed : Nat
  direction : Direction
  /-- The overspeed mark is IN (R27). -/
  overspeed : Bool
  standstill : Bool
  /-- The braking distance S (R30). -/
  braking : Nat
  report : LineReport
  /-- The motion check is OPEN (R34). -/
  checkOpen : Bool
  timer : Nat
  /-- The motion timer is counting (R34, R35). -/
  timerOn : Bool
  deriving DecidableEq, Repr

/-! ## Knife plan table (Chapter 3) -/

/-- A knife plan: id and knife positions (R39). -/
structure Plan where
  id : Nat
  knives : List Nat
  deriving DecidableEq, Repr

/-- The two slots (R41). -/
structure PlanTable where
  active : Option Plan
  staged : Option Plan
  deriving DecidableEq, Repr

/-! ## Path queue (Chapter 4) -/

/-- The kind of a record with the fields only a DEFECT holds (R55). -/
inductive RecordKind where
  | defect (tag cls : Nat) (severity : Severity)
  | sensedSplice
  | repairSplice
  deriving DecidableEq, Repr

/-- The fields every record holds, in the queue and in the record register (R55, R81). -/
structure RecordBody where
  number : Nat
  kind : RecordKind
  xs : Nat
  xe : Nat
  length : Nat
  /-- The web mark W of the leading edge. -/
  web : Int
  deriving DecidableEq, Repr

/-- What resolution stores in a record (R48, R51). -/
structure LaneRange where
  first : Nat
  last : Nat
  plan : Nat
  deriving DecidableEq, Repr

/-- A path record; `slit = none` is the state UPSTREAM (R55). -/
structure PathRecord where
  body : RecordBody
  slit : Option LaneRange
  stopId : Option Nat
  /-- The running number of the record's joining, which orders records of equal web mark (R57). -/
  joined : Nat
  deriving DecidableEq, Repr

/-- The six flow counters (R73). -/
structure Flow where
  taken : Nat
  returned : Nat
  delivered : Nat
  trimmed : Nat
  removed : Nat
  unmapped : Nat
  deriving DecidableEq, Repr

structure PathQueue where
  records : List PathRecord
  nextNumber : Nat
  nextJoin : Nat
  /-- The splice high mark, or none (R64). -/
  highMark : Option Int
  flow : Flow
  /-- The queue's change count (R181). -/
  changes : Nat
  deriving DecidableEq, Repr

/-! ## Roll map (Chapter 5) -/

/-- A defect entry of a lane (R81). -/
structure DefectEntry where
  record : Nat
  tag : Nat
  cls : Nat
  severity : Severity
  length : Nat
  position : Int
  offset : Nat
  oldPlan : Bool
  /-- WOUND, or UNWOUND when false (R91). -/
  wound : Bool
  deriving DecidableEq, Repr

/-- The kind of a splice entry (R81). -/
inductive SpliceKind where
  | sensed
  | repair
  deriving DecidableEq, Repr

/-- A splice entry of a lane (R81), with the old-plan flag that every entry carries (R52, R85). -/
structure SpliceEntry where
  record : Nat
  kind : SpliceKind
  position : Int
  oldPlan : Bool
  /-- WOUND, or UNWOUND when false (R91). -/
  wound : Bool
  deriving DecidableEq, Repr

/-- The cause of a HOLD that the part set (R80). -/
inductive HoldCause where
  | spliceLimit
  | critical
  deriving DecidableEq, Repr

/-- A lane's status; the cause is held only while the status is HOLD (R80). -/
inductive LaneStatus where
  | good
  | hold (cause : Option HoldCause)
  | reject
  deriving DecidableEq, Repr

/-- A lane record (R80). -/
structure LaneRecord where
  number : Nat
  width : Nat
  defects : List DefectEntry
  splices : List SpliceEntry
  defectOverflow : Nat
  spliceOverflow : Nat
  status : LaneStatus
  edits : Nat
  deriving DecidableEq, Repr

/-- A set record (R79). The released mark is the slot form `Slot.released`. -/
structure SetRecord where
  job : Nat
  number : Nat
  plan : Nat
  knives : List Nat
  start : Nat
  target : Option Nat
  closedLength : Option Nat
  mapIncomplete : Bool
  lengthFallback : Bool
  /-- MIXED-PLAN with its mixed length, or clear (R47). -/
  mixed : Option Nat
  trimTally : Nat
  unplacedTally : Nat
  removedTally : Nat
  repeatTally : Nat
  markFaultTally : Nat
  lanes : List LaneRecord
  deriving DecidableEq, Repr

/-- A set slot (R78): FREE without a record, WINDING, CLOSED, or FREE with the record of a released set. -/
inductive Slot where
  | empty
  | winding (r : SetRecord)
  | closed (r : SetRecord)
  | released (r : SetRecord)
  deriving DecidableEq, Repr

/-- An item of the record register: the record as it left the path queue (R81). -/
structure RegisterItem where
  body : RecordBody
  lanes : LaneRange
  deriving DecidableEq, Repr

structure RollMap where
  slots : Vector Slot 4
  /-- Slot numbers 1 to 4, oldest close first (R98). -/
  closeList : List Nat
  /-- The record register, in the order of delivery (R81, R97). -/
  register : List RegisterItem
  mapsLost : Nat
  deriving DecidableEq, Repr

/-! ## Mark tracker (Chapter 7) -/

/-- The tracking settings (R118). With tracking off the other six are held as sent and not judged. -/
structure TrackingSettings where
  tracking : Bool
  expected : Nat
  window : Nat
  lossCount : Nat
  stopOnLoss : Nat
  align : Nat
  cutOffset : Int
  deriving DecidableEq, Repr

/-- What the tracker holds while it has a mark to measure from (R119). -/
structure MarkLock where
  wlast : Int
  wacc : Int
  rm : Nat
  /-- The consecutive missed count. -/
  missed : Nat
  deriving DecidableEq, Repr

/-- The tracker state (R119). In UNLOCKED Wlast, Wacc and Rm are absent and the missed count is 0. -/
inductive TrackerState where
  | unlocked
  | locked (l : MarkLock)
  | lost (l : MarkLock)
  deriving DecidableEq, Repr

structure MarkTracker where
  state : TrackerState
  settings : TrackingSettings
  /-- The travel sense (R120). -/
  sense : Direction
  good : Nat
  extra : Nat
  rescanned : Nat
  missed : Nat
  losses : Nat
  deriving DecidableEq, Repr

/-! ## Stop planner (Chapter 8) -/

/-- The five kinds of stop entry (R136). -/
inductive StopKind where
  | operator
  | setEnd
  | spliceLimit
  | markLost
  | defect
  deriving DecidableEq, Repr

/-- Where an entry came from (R136). -/
inductive StopOrigin where
  | internal
  | portL
  | portO
  deriving DecidableEq, Repr

/-- An entry's reference (R136). -/
inductive StopRef where
  | nothing
  | record (n : Nat)
  | set (n : Nat)
  deriving DecidableEq, Repr

/-- A stop entry (R136). -/
structure StopEntry where
  id : Nat
  kind : StopKind
  origin : StopOrigin
  ref : StopRef
  web : Int
  station : Int
  target : Int
  insertion : Nat
  /-- ACTIVE, or WAITING when false. -/
  active : Bool
  late : Bool
  shortfall : Nat
  overrun : Bool
  deriving DecidableEq, Repr

/-- The outcome of a completed stop (R148). -/
inductive StopOutcome where
  | onTarget
  | short
  | over
  deriving DecidableEq, Repr

/-- The last stop record (R150). -/
structure LastStop where
  id : Nat
  kind : StopKind
  target : Int
  p : Nat
  error : Int
  outcome : StopOutcome
  late : Bool
  shortfall : Nat
  deriving DecidableEq, Repr

structure StopPlanner where
  entries : List StopEntry
  nextId : Nat
  insertions : Nat
  lastStop : Option LastStop
  /-- The list's change count (R182). -/
  changes : Nat
  deriving DecidableEq, Repr

/-! ## Job controller (Chapter 9) -/

/-- The job state (R158). Popen is present exactly in CUT-OPEN (R105). -/
inductive JobState where
  | noJob
  | ready
  | winding
  | cutOpen (popen : Nat)
  deriving DecidableEq, Repr

/-- The job parameters that the job controller holds (R160); the mark tracker holds the tracking settings. -/
structure JobParams where
  number : Nat
  target : Option Nat
  spliceLimit : Nat
  enforce : Bool
  /-- The stop-class set, bit n for class n (13.4). -/
  classes : Nat
  stopSeverity : Severity
  stopOnDefect : Bool
  stopOffset : Int
  holdOnCritical : Bool
  deriving DecidableEq, Repr

structure JobController where
  state : JobState
  params : JobParams
  setCounter : Nat
  deriving DecidableEq, Repr

/-! ## Station ports (Chapter 10) -/

/-- The port state (R171). -/
inductive PortState where
  | starting
  | ready
  | working
  | reply
  deriving DecidableEq, Repr

structure PortRegs where
  state : PortState
  /-- The port state that a transaction has noted whose select was asserted before the port's last change of state
  (R172, log entry 4). -/
  noted : PortState
  /-- The receive buffer: the frame of the request being worked on (R173). -/
  received : List Byte
  /-- The dispatched request that a WORKING port holds for its owning block (R175). -/
  request : Option Instr
  /-- The reply buffer (R176). -/
  reply : List Byte
  /-- The discarded-frame counter (R178). -/
  discarded : Nat
  /-- The bytes clocked out on SDO in the port's last transaction, the status byte first (R172, R177). -/
  sdo : List Byte
  deriving DecidableEq, Repr

/-! ## Alert controller (Chapter 11) -/

/-- The 24 event kinds, in the order of the table of 11.1. -/
inductive EventKind where
  | encoderASilent
  | positionLimit
  | noMotion
  | stopOverrun
  | mapLost
  | stopRequested
  | stopLate
  | stopReached
  | stopDropped
  | standstillReached
  | motion
  | overspeed
  | slip
  | encoderGlitch
  | encoderBSilent
  | queueFull
  | defectDropped
  | laneHold
  | markFault
  | markLost
  | markRelock
  | setStarted
  | setClosed
  | planActivated
  deriving DecidableEq, Repr

/-- A station record (11, R186 to R191). -/
structure Station where
  /-- The master enable. -/
  master : Bool
  /-- The enable set, routine kinds in the order of 11.1. -/
  enabled : List EventKind
  /-- The pending set, each kind once with its count, in the order of 11.1. -/
  pending : List (EventKind × Nat)
  /-- The alert line is asserted. -/
  line : Bool
  deriving DecidableEq, Repr

/-! ## The whole part -/

/-- The state of the part and the queue of waiting commands. -/
structure State where
  time : TimeBase
  inputs : Inputs
  geometry : Geometry
  length : LengthCounter
  strobe : Strobe
  motion : Motion
  plans : PlanTable
  queue : PathQueue
  roll : RollMap
  tracker : MarkTracker
  stops : StopPlanner
  job : JobController
  ports : ByPort PortRegs
  alerts : ByPort Station
  /-- The model's own: how many free choices have been read (log entry 12). -/
  free : Nat
  /-- The model's own: the commands that wait, first in, first out. -/
  pending : List Instr
  deriving DecidableEq, Repr

/-- Why a step stops with a fault. The part has no fault: every refused request is answered (R176) and every
error is an event or a counter, so this type has no constructor and no step can end in one (safe). -/
inductive Fault : Type
  deriving DecidableEq, Repr

/-- Why a command is refused by the model. -/
inductive Refusal where
  /-- A command that has no meaning in the model yet. No arm of `exec` answers with it. Safe: nothing is proved
  of a command that is refused. -/
  | notModelled (mnemonic : String)
  deriving DecidableEq, Repr

/-! ## Reset values -/

/-- All three stations or ports alike. -/
def ByPort.all {α : Type} (x : α) : ByPort α := { l := x, i := x, o := x }

/-- No level is known before the end of warm-up: low is a DESIGN CHOICE (log entry 9). -/
def lowLevels : InputLevels :=
  { a1 := false, a2 := false, b1 := false, b2 := false, mark := false, splice := false }

def EncoderInput.reset : EncoderInput :=
  { filter := 0, level1 := false, level2 := false, glitches := 0, glitchPosted := false }

def LineInput.reset : LineInput := { filter := 0, edge := .rising, level := false }

def Inputs.reset : Inputs :=
  { pins := lowLevels, encA := .reset, encB := .reset, mark := .reset, splice := .reset }

/-- The reset geometry (R1). -/
def resetGeometry : Geometry :=
  { c := -15000, e := -12000, m := -8000, k := 6000, s := 14000, w := 35000 }

/-- One encoder after reset (R8, R10, R16). -/
def Measure.reset : Measure :=
  { circumference := 500000, counts := 10000, trim := 0, remainder := 0, position := 0, silent := false, silence := 0 }

def LengthCounter.reset : LengthCounter :=
  { a := .reset, b := .reset, p := 0, active := .a, span := none, lastDeviation := 0, slipCount := 0 }

/-- The divider after reset (R22). STROBE has been low for long: `held` at 48 is a DESIGN CHOICE (log entry 10). -/
def Strobe.reset : Strobe := { interval := 100, count := 0, owed := 0, high := false, held := 48 }

/-- The motion settings after reset (R32). -/
def MotionSettings.reset : MotionSettings :=
  { gate := 20, decel := 500, reaction := 100, tolerance := 50, overrun := 20000, timeout := 2000,
    silence := 5000, check := 100000, slip := 5000 }

/-- The motion monitor after reset (R37). -/
def Motion.reset : Motion :=
  { settings := .reset, nextGate := none, baseline := 0, gateClock := 0,
    ring := { d1 := 0, d2 := 0, d3 := 0, d4 := 0 }, speed := 0, direction := .forward, overspeed := false,
    standstill := true, braking := 0, report := .stopped, checkOpen := false, timer := 0, timerOn := false }

def Flow.zero : Flow :=
  { taken := 0, returned := 0, delivered := 0, trimmed := 0, removed := 0, unmapped := 0 }

/-- The path queue after reset (R77). -/
def PathQueue.reset : PathQueue :=
  { records := [], nextNumber := 1, nextJoin := 0, highMark := none, flow := .zero, changes := 0 }

/-- The roll map after reset (R104). -/
def RollMap.reset : RollMap :=
  { slots := Vector.replicate 4 .empty, closeList := [], register := [], mapsLost := 0 }

/-- Tracking is off after reset (R118); the six other settings at 0 are a DESIGN CHOICE (log entry 11). -/
def TrackingSettings.reset : TrackingSettings :=
  { tracking := false, expected := 0, window := 0, lossCount := 0, stopOnLoss := 0, align := 0, cutOffset := 0 }

/-- The mark tracker after reset (R130). -/
def MarkTracker.reset : MarkTracker :=
  { state := .unlocked, settings := .reset, sense := .forward, good := 0, extra := 0, rescanned := 0, missed := 0,
    losses := 0 }

/-- The stop planner after reset (R157). -/
def StopPlanner.reset : StopPlanner :=
  { entries := [], nextId := 1, insertions := 0, lastStop := none, changes := 0 }

/-- The job parameters after reset (R160). -/
def JobParams.reset : JobParams :=
  { number := 0, target := none, spliceLimit := 8, enforce := false, classes := 0, stopSeverity := .critical,
    stopOnDefect := false, stopOffset := 0, holdOnCritical := false }

/-- The job controller after reset (R158, R160, R164). -/
def JobController.reset : JobController := { state := .noJob, params := .reset, setCounter := 0 }

/-- A port after reset (R171, R178). -/
def PortRegs.reset : PortRegs :=
  { state := .starting, noted := .starting, received := [], request := none, reply := [], discarded := 0, sdo := [] }

/-- A station record after reset (R191). -/
def Station.reset : Station := { master := false, enabled := [], pending := [], line := false }

/-- The machine right after reset is taken: the part held in reset, every block at its reset values (R194). -/
def State.reset : State :=
  { time := { inReset := true, cycle := 0, warmUp := .counting 0 }
    inputs := .reset
    geometry := resetGeometry
    length := .reset
    strobe := .reset
    motion := .reset
    plans := { active := none, staged := none }
    queue := .reset
    roll := .reset
    tracker := .reset
    stops := .reset
    job := .reset
    ports := .all .reset
    alerts := .all .reset
    free := 0
    pending := [] }

end Sys2Proof.Machine
end

