-- ==== Sys2Proof/Machine/Ops.lean ====
section
/-! DEFINITION. Counters, and the reads of State that every block shares. -/

namespace Sys2Proof.Machine

/-! ## Counters -/

/-- A counter that holds at `cap` (R5, R21, R79, R128, R178, R186). -/
def holdAt (cap n : Nat) : Nat := min n cap

/-- A 16-bit counter that returns to 0 after 65,535, raised by `k` (R80, R181, R182). -/
def wrap16 (n k : Nat) : Nat := (n + k) % 65536

/-- A flow counter that returns to 0 after 4,294,967,295, raised by `k` (R73). -/
def wrap32 (n k : Nat) : Nat := (n + k) % 4294967296

/-- The value after `n` in a numbering 1 to `top` that starts again at 1 (R56, R137, R164). -/
def nextInCycle (top n : Nat) : Nat := if n < top then n + 1 else 1

/-- The number itself, passed over to the following one for as long as it is in use, `fuel` times at most
(R56, R137). As many steps as numbers in use are enough. -/
def nextFree (top : Nat) (used : List Nat) : Nat → Nat → Nat
  | 0, n => n
  | fuel + 1, n => if n ∈ used then nextFree top used fuel (nextInCycle top n) else n

/-- `a ÷ b` rounded up (R30, R131). -/
def ceilDiv (a b : Nat) : Nat := (a + b - 1) / b

/-! ## One item for each port -/

def ByPort.get {α : Type} (b : ByPort α) : Port → α
  | .l => b.l
  | .i => b.i
  | .o => b.o

def ByPort.set {α : Type} (b : ByPort α) (p : Port) (x : α) : ByPort α :=
  match p with
  | .l => { b with l := x }
  | .i => { b with i := x }
  | .o => { b with o := x }

def ByPort.map {α β : Type} (f : α → β) (b : ByPort α) : ByPort β := { l := f b.l, i := f b.i, o := f b.o }

/-! ## Reads that several blocks make -/

/-- The inputs are watched and every block runs: warm-up has ended and the part is not in reset (R3, R6, R194). -/
def State.running (s : State) : Bool := !s.time.inReset && decide (s.time.warmUp = .ended)

/-- The web position P (R13). -/
def State.p (s : State) : Nat := s.length.p

/-- A cut is open (R105). -/
def JobState.isCutOpen : JobState → Bool
  | .cutOpen _ => true
  | _ => false

/-- The job state is WINDING or CUT-OPEN, so that a slot is WINDING (R78, R158). -/
def JobState.setOpen : JobState → Bool
  | .winding => true
  | .cutOpen _ => true
  | _ => false

/-- The rank of a severity: MINOR below MAJOR below CRITICAL (R55); also its code (13.3). -/
def Severity.rank : Severity → Nat
  | .minor => 1
  | .major => 2
  | .critical => 3

end Sys2Proof.Machine
end

