-- ==== Sys2Proof/Machine/Flags.lean ====
section
/-! DEFINITION. Events and alert lines (Chapter 11): the kinds, the three pending sets, and the decision of each
alert line. -/

namespace Sys2Proof.Machine

/-- The 24 kinds in the order of the table of 11.1. -/
def EventKind.all : List EventKind :=
  [.encoderASilent, .positionLimit, .noMotion, .stopOverrun, .mapLost, .stopRequested, .stopLate, .stopReached,
   .stopDropped, .standstillReached, .motion, .overspeed, .slip, .encoderGlitch, .encoderBSilent, .queueFull,
   .defectDropped, .laneHold, .markFault, .markLost, .markRelock, .setStarted, .setClosed, .planActivated]

/-- The event code: 01h to 18h in the order of 11.1 (13.3). -/
def EventKind.code (k : EventKind) : Nat := EventKind.all.idxOf k + 1

/-- The kind of an event code, if there is one (13.3). -/
def EventKind.ofCode (c : Nat) : Option EventKind := if c = 0 then none else EventKind.all[c - 1]?

/-- The five urgent kinds (R185 and the table of 11.1). -/
def EventKind.urgent : EventKind → Bool
  | .encoderASilent | .positionLimit | .noMotion | .stopOverrun | .mapLost => true
  | _ => false

/-- A post joins the pending set with a count of 1, or raises the count, which stays at 255 (R186). -/
def bumpPending (k : EventKind) : List (EventKind × Nat) → List (EventKind × Nat)
  | [] => [(k, 1)]
  | (j, n) :: rest =>
    if j = k then (j, holdAt 255 (n + 1)) :: rest
    else if k.code < j.code then (k, 1) :: (j, n) :: rest
    else (j, n) :: bumpPending k rest

/-- The alert line: asserted while an urgent kind is pending, or while the master enable is on and an enabled
kind is pending (R187). -/
def Station.lineOf (st : Station) : Bool :=
  st.pending.any fun e => e.1.urgent || (st.master && decide (e.1 ∈ st.enabled))

/-- The line is decided anew (R187). -/
def Station.decideLine (st : Station) : Station := { st with line := st.lineOf }

/-- One post at one station record (R186). -/
def Station.post (k : EventKind) (st : Station) : Station :=
  Station.decideLine { st with pending := bumpPending k st.pending }

/-- A post reaches all three station records at once (R186, R192). -/
def State.post (k : EventKind) (s : State) : State := { s with alerts := s.alerts.map (Station.post k) }

/-- Several posts of one event, in the order its rule gives. -/
def State.postAll (ks : List EventKind) (s : State) : State := ks.foldl (fun s k => s.post k) s

/-- A post made when a condition holds. -/
def State.postIf (c : Bool) (k : EventKind) (s : State) : State := if c then s.post k else s

end Sys2Proof.Machine
end

