-- ==== Sys2Proof/Machine/Operands.lean ====
section
/-! DEFINITION. The fields of frames (Chapter 13): numbers as bytes, the coded values of 13.3, the reply statuses,
and the bytes of a reply. -/

namespace Sys2Proof.Machine

/-! ## Numbers as bytes, most significant byte first (13.1) -/

/-- The low `n` bytes of a number, most significant first. -/
def bytesOf : Nat → Nat → List Byte
  | 0, _ => []
  | n + 1, v => BitVec.ofNat 8 (v / 256 ^ n) :: bytesOf n v

/-- An unsigned reply field of `n` bytes. A figure that does not fit is a free value (log entry 14). -/
def fieldU (n v : Nat) : List Byte :=
  if v < 256 ^ n then bytesOf n v else bytesOf n (Config.wideField n v)

/-- A signed reply field of `n` bytes, two's complement. A figure that does not fit is a free value. -/
def fieldS (n : Nat) (v : Int) : List Byte :=
  if -(256 ^ n : Int) ≤ 2 * v ∧ 2 * v < (256 ^ n : Int) then bytesOf n (v % (256 ^ n : Int)).toNat
  else bytesOf n (Config.wideField n v)

/-- The unsigned number that bytes spell. -/
def valueOf (bs : List Byte) : Nat := bs.foldl (fun a b => a * 256 + b.toNat) 0

/-- The signed number that bytes spell. -/
def signedOf (bs : List Byte) : Int :=
  if 256 ^ bs.length ≤ 2 * valueOf bs then (valueOf bs : Int) - (256 ^ bs.length : Int) else valueOf bs

/-- The unsigned field of `n` bytes at an offset of a payload. -/
def readU (bs : List Byte) (off n : Nat) : Nat := valueOf ((bs.drop off).take n)

/-- The signed field of `n` bytes at an offset of a payload. -/
def readS (bs : List Byte) (off n : Nat) : Int := signedOf ((bs.drop off).take n)

/-- `count` unsigned fields of `n` bytes each from an offset on. -/
def readList (bs : List Byte) (off n : Nat) : Nat → List Nat
  | 0 => []
  | count + 1 => readU bs off n :: readList bs (off + n) n count

/-! ## Coded values (13.3) -/

/-- An encoder filter code as a filter time in clock cycles: 0, 0.25, 0.5, 1, 2 µs (R3, R193). -/
def encoderFilter? (code : Nat) : Option Nat := [0, 6, 12, 24, 48][code]?

/-- A MARK or SPLICE filter code as a filter time in clock cycles: 0, 50, 100, 200, 500 µs (R6, R193). -/
def lineFilter? (code : Nat) : Option Nat := [0, 1200, 2400, 4800, 12000][code]?

/-- A gate period code: 5, 10, 20, 50 ms. -/
def gatePeriod? (code : Nat) : Option Nat := [5, 10, 20, 50][code]?

def edge? : Nat → Option Edge
  | 0 => some .rising
  | 1 => some .falling
  | _ => none

def encoder? : Nat → Option Encoder
  | 0 => some .a
  | 1 => some .b
  | _ => none

def lineReport? : Nat → Option LineReport
  | 0 => some .stopped
  | 1 => some .running
  | 2 => some .jogging
  | _ => none

def LineReport.code : LineReport → Nat
  | .stopped => 0
  | .running => 1
  | .jogging => 2

def severity? : Nat → Option Severity
  | 1 => some .minor
  | 2 => some .major
  | 3 => some .critical
  | _ => none

/-- An on-or-off value: 0 off, 1 on. -/
def onOff? : Nat → Option Bool
  | 0 => some false
  | 1 => some true
  | _ => none

/-- The code of a flag or on-or-off value. -/
def flagCode (b : Bool) : Nat := if b then 1 else 0

/-- The three lane statuses a request can name (R90); the named HOLD has no cause. -/
inductive NamedStatus where
  | good
  | hold
  | reject
  deriving DecidableEq, Repr

def namedStatus? : Nat → Option NamedStatus
  | 0 => some .good
  | 1 => some .hold
  | 2 => some .reject
  | _ => none

/-! ## Replies (R176, 13.2) -/

/-- The reply statuses (R176). -/
inductive Status where
  | done
  | wrongState
  | notPermitted
  | outOfRange
  | listFull
  | duplicate
  | notStandstill
  | stopActive
  | notFound
  | frameError
  | unknownKind
  deriving DecidableEq, Repr

/-- The status codes of 13.2; 05h is not used. -/
def Status.code : Status → Nat
  | .done => 0x00
  | .wrongState => 0x01
  | .notPermitted => 0x02
  | .outOfRange => 0x03
  | .listFull => 0x04
  | .duplicate => 0x06
  | .notStandstill => 0x07
  | .stopActive => 0x08
  | .notFound => 0x09
  | .frameError => 0x0A
  | .unknownKind => 0x0B

/-- What an owning block answers (R175, R176). -/
structure Reply where
  status : Status
  payload : List Byte
  deriving DecidableEq, Repr

/-- A DONE reply with its payload. -/
def Reply.done (payload : List Byte) : Reply := { status := .done, payload := payload }

/-- A reply with any other status carries no payload (R176). -/
def Reply.refused (st : Status) : Reply := { status := st, payload := [] }

/-- What taking a request leaves: the part and the reply made (R175). -/
abbrev Taken := State × Reply

/-- A refusal changes nothing (R176). -/
def State.refuse (s : State) (st : Status) : Taken := (s, .refused st)

/-- The sum of a frame's bytes modulo 256 (10.3). -/
def frameSum (bs : List Byte) : Byte := bs.foldr (· + ·) 0

/-- A frame's bytes followed by the check byte that makes the sum a multiple of 256 (10.3, R176). -/
def withCheck (bs : List Byte) : List Byte := bs ++ [-(frameSum bs)]

/-- The reply frame: status, kind echoed, payload length, payload, check byte (R176). -/
def replyFrame (kind : Byte) (r : Reply) : List Byte :=
  withCheck (BitVec.ofNat 8 r.status.code :: kind :: BitVec.ofNat 8 r.payload.length :: r.payload)

end Sys2Proof.Machine
end

