-- ==== Sys2Proof/Machine/KnifePlan.lean ====
section
/-! DEFINITION. The knife plan table (Chapter 3): the checks of a plan, the lane lookup, loading and swapping. -/

namespace Sys2Proof.Machine

/-- Each position exceeds the one before it by at least 100 (R39). -/
def knivesApart : List Nat → Bool
  | x :: y :: rest => decide (x + 100 ≤ y) && knivesApart (y :: rest)
  | _ => true

/-- The checks of R42: id 1 to 65,535, 2 to 25 positions, each 0 to 30,000, each at least 100 beyond the last. -/
def planAllowed (plan : Nat) (knives : List Nat) : Bool :=
  decide (1 ≤ plan ∧ plan ≤ 65535) && decide (2 ≤ knives.length ∧ knives.length ≤ 25) &&
  knives.all (fun x => decide (x ≤ 30000)) && knivesApart knives

/-- The lane count n − 1 of a knife list (R39). -/
def laneCount (knives : List Nat) : Nat := knives.length - 1

/-- The lane that contains a position p of the slit web: the lane i with x(i − 1) ≤ p < x(i), which is the index
of the first knife beyond p (R40). -/
def laneAt (knives : List Nat) (p : Nat) : Nat := knives.findIdx (fun x => decide (p < x))

/-- The answer of a lane lookup (R48). -/
inductive Lookup where
  | trim
  | lanes (r : LaneRange)
  deriving DecidableEq, Repr

/-- The lanes of an extent xs to xe under the ACTIVE plan (R48); with the ACTIVE slot empty the answer is TRIM
(R49). -/
def lookupLanes (active : Option Plan) (xs xe : Nat) : Lookup :=
  match active with
  | none => .trim
  | some plan =>
    let x0 := plan.knives.headD 0
    let xl := plan.knives.getLastD 0
    if xe < x0 ∨ xl ≤ xs then .trim
    else .lanes { first := laneAt plan.knives (max xs x0), last := laneAt plan.knives (min xe (xl - 1)),
                  plan := plan.id }

/-- The id a slot shows: 0 for an empty slot (R41). -/
def planId : Option Plan → Nat
  | none => 0
  | some p => p.id

/-- The new plan is the ACTIVE plan's id with another knife list (R43). -/
def clashesWithActive (t : PlanTable) (plan : Nat) (knives : List Nat) : Bool :=
  match t.active with
  | none => false
  | some a => decide (a.id = plan) && decide (a.knives ≠ knives)

/-- LOAD-PLAN at the knife plan table (R42 to R44). -/
def takeLoadPlan (plan : Nat) (knives : List Nat) (s : State) : Taken :=
  if planAllowed plan knives = false then s.refuse .outOfRange
  else if clashesWithActive s.plans plan knives then s.refuse .duplicate
  else
    ({ s with plans := { s.plans with staged := some { id := plan, knives := knives } } },
     .done (fieldU 2 plan ++ fieldU 1 (laneCount knives)))

/-- The table after the swap of a set start: a STAGED plan becomes ACTIVE, an empty STAGED slot leaves the ACTIVE
plan (R46). -/
def PlanTable.swap (t : PlanTable) : PlanTable :=
  match t.staged with
  | none => t
  | some p => { active := some p, staged := none }

end Sys2Proof.Machine
end

