-- ==== Sys2Proof/Machine/StopPlanner.lean ====
section
/-! DEFINITION. The stop planner (Chapter 8): the list and its order, insertion and arbitration, removal,
evaluation, activation, completion and sweep. -/

namespace Sys2Proof.Machine

/-- The part with another stop planner state. -/
def State.withStops (s : State) (pl : StopPlanner) : State := { s with stops := pl }

/-- The part with another path queue. -/
def State.withQueue (s : State) (q : PathQueue) : State := { s with queue := q }

/-! ## The list -/

/-- The priority, fixed by kind (R136). -/
def StopKind.priority : StopKind → Nat
  | .operator => 4
  | .setEnd => 3
  | .spliceLimit => 2
  | .markLost => 2
  | .defect => 1

/-- `a` stands before `b`: lower target, or equal target and lower insertion number (R135). -/
def StopEntry.before (a b : StopEntry) : Bool :=
  decide (a.target < b.target ∨ (a.target = b.target ∧ a.insertion < b.insertion))

/-- An entry put at its place in target order (R135). -/
def placeStop (e : StopEntry) : List StopEntry → List StopEntry
  | [] => [e]
  | x :: rest => if e.before x then e :: x :: rest else x :: placeStop e rest

/-- A list put back into target order, entries of equal target by insertion number (R112, R135, R154). -/
def sortStops (l : List StopEntry) : List StopEntry := l.foldr placeStop []

/-- The ACTIVE entry, if there is one (R135). -/
def StopPlanner.activeEntry (pl : StopPlanner) : Option StopEntry := pl.entries.find? (·.active)

/-- The head: the ACTIVE entry if there is one, otherwise the first entry (R135). -/
def StopPlanner.head (pl : StopPlanner) : Option StopEntry := pl.activeEntry.or pl.entries.head?

/-- The SET-END entry, of which the list holds at most one (R135). -/
def StopPlanner.setEnd (pl : StopPlanner) : Option StopEntry :=
  pl.entries.find? (fun e => decide (e.kind = .setEnd))

/-- The STOP output: asserted while the list holds an ACTIVE entry (R146). -/
def State.stopAsserted (s : State) : Bool := s.stops.entries.any (·.active)

/-- The list's change count rises by `k` (R182). -/
def StopPlanner.changed (pl : StopPlanner) (k : Nat) : StopPlanner := { pl with changes := wrap16 pl.changes k }

/-- An entry takes the place of the one with its id, at the same place in the list. -/
def replaceStop (e : StopEntry) (l : List StopEntry) : List StopEntry :=
  l.map (fun x => if x.id = e.id then e else x)

/-! ## The stop entry ids that path records hold (R72) -/

/-- The queue's change count rises by `k` (R181). -/
def PathQueue.changed (q : PathQueue) (k : Nat) : PathQueue := { q with changes := wrap16 q.changes k }

/-- The record with a number takes a stop entry id (R63, R66, R140 step 3). -/
def storeStopId (number id : Nat) (s : State) : State :=
  if s.queue.records.any (fun r => decide (r.body.number = number)) then
    s.withQueue (PathQueue.changed { s.queue with records := s.queue.records.map (fun r =>
      if r.body.number = number then { r with stopId := some id } else r) } 1)
  else s

/-- The record with a number gives up a stop entry id, if it is still held and still holds that id (R72, R142). -/
def clearStopId (number id : Nat) (s : State) : State :=
  if s.queue.records.any (fun r => decide (r.body.number = number ∧ r.stopId = some id)) then
    s.withQueue (PathQueue.changed { s.queue with records := s.queue.records.map (fun r =>
      if r.body.number = number ∧ r.stopId = some id then { r with stopId := none } else r) } 1)
  else s

/-! ## Removal (R142) -/

/-- An entry leaves the list for whatever cause, and its record gives up the id (R142). STOP follows the list
(R146). The evaluation that R142 lets follow is the caller's. -/
def removeStop (e : StopEntry) (s : State) : State :=
  let s' := s.withStops (StopPlanner.changed
    { s.stops with entries := s.stops.entries.filter (fun x => decide (x.id ≠ e.id)) } 1)
  match e.ref with
  | .record n => clearStopId n e.id s'
  | _ => s'

/-! ## Activation, overrun and completion -/

/-- The distance to go, target − P, signed (R144). -/
def State.remaining (s : State) (e : StopEntry) : Int := e.target - s.p

/-- The activation test of R144. -/
def State.activates (s : State) (e : StopEntry) : Bool :=
  decide ((s.motion.direction = .forward ∧ s.remaining e ≤ s.motion.braking) ∨
          (s.motion.standstill = true ∧ s.remaining e ≤ 0))

/-- A head as its activation leaves it: ACTIVE, with its shortfall, and LATE when that is positive (R144). -/
def State.activated (s : State) (e : StopEntry) : StopEntry :=
  { e with active := true, shortfall := (s.motion.braking - s.remaining e).toNat,
           late := e.late || decide (0 < s.motion.braking - s.remaining e) }

/-- The activation of the head, with STOP-REQUESTED and, when late, STOP-LATE (R144). -/
def activateStop (e : StopEntry) (s : State) : State :=
  let s' := s.withStops
    (StopPlanner.changed { s.stops with entries := replaceStop (s.activated e) s.stops.entries } 1)
  (s'.post .stopRequested).postIf (decide (0 < s.motion.braking - s.remaining e)) .stopLate

/-- The overrun test of an ACTIVE entry (R151). -/
def overrunTest (e : StopEntry) (s : State) : State :=
  if e.target + s.motion.settings.overrun < s.p ∧ e.overrun = false then
    (s.withStops (StopPlanner.changed
      { s.stops with entries := replaceStop { e with overrun := true } s.stops.entries } 1)).post .stopOverrun
  else s

/-- The outcome of a stop by its error and the tolerance (R148). -/
def stopOutcome (tolerance : Nat) (error : Int) : StopOutcome :=
  if error < -(tolerance : Int) then .short else if (tolerance : Int) < error then .over else .onTarget

/-- The last stop record that the completion of an entry writes (R148, R150). -/
def State.stopRecord (s : State) (e : StopEntry) (late : Bool) (shortfall : Nat) : LastStop :=
  { id := e.id, kind := e.kind, target := e.target, p := s.p, error := (s.p : Int) - e.target,
    outcome := stopOutcome s.motion.settings.tolerance ((s.p : Int) - e.target), late := late,
    shortfall := shortfall }

/-- A completion: the last stop record is written, the entry leaves the list and STOP-REACHED is posted (R148). -/
def completeStop (e : StopEntry) (late : Bool) (shortfall : Nat) (s : State) : State :=
  let s' := s.withStops { s.stops with lastStop := some (s.stopRecord e late shortfall) }
  (removeStop e s').post .stopReached

/-- A WAITING entry in reach: its target lies at or below P + tolerance (R149). -/
def State.inReach (s : State) (e : StopEntry) : Bool :=
  !e.active && decide (e.target ≤ (s.p : Int) + s.motion.settings.tolerance)

/-- The sweep after a completion: the WAITING entries in reach are completed one at a time, in list order, each
with LATE clear and a shortfall of 0 (R149). -/
def sweepStops : Nat → State → State
  | 0, s => s
  | fuel + 1, s =>
    match s.stops.entries.find? s.inReach with
    | none => s
    | some e => sweepStops fuel (completeStop e false 0 s)

/-- A completion and its sweep (R148, R149). -/
def completeAndSweep (e : StopEntry) (s : State) : State :=
  sweepStops s.stops.entries.length (completeStop e e.late e.shortfall s)

/-- The passes of an evaluation (R143). Each pass that starts again has taken an entry out, so as many passes as
there are entries, and one more, are enough. -/
def evaluatePasses : Nat → State → State
  | 0, s => s
  | fuel + 1, s =>
    match s.stops.activeEntry with
    | some e =>
      if s.motion.standstill then evaluatePasses fuel (completeAndSweep e s) else overrunTest e s
    | none =>
      match s.stops.entries.head? with
      | none => s
      | some h =>
        if s.activates h then
          if s.motion.standstill then evaluatePasses fuel (completeAndSweep (s.activated h) (activateStop h s))
          else activateStop h s
        else s

/-- An evaluation: none is made while a cut is open (R143). -/
def evaluate (s : State) : State :=
  if s.job.state.isCutOpen then s else evaluatePasses (s.stops.entries.length + 1) s

/-! ## Cancellation -/

/-- A cancellation: the entry with the id leaves the list, if it is there, and the planner evaluates (R142). -/
def cancelStopId (id : Nat) (s : State) : State :=
  match s.stops.entries.find? (fun e => decide (e.id = id)) with
  | none => s
  | some e => evaluate (removeStop e s)

/-- A record that leaves by trim or removal has its entry cancelled, if it holds an id (R50, R71, R72). -/
def cancelRecordStop (r : PathRecord) (s : State) : State :=
  match r.stopId with
  | none => s
  | some id => cancelStopId id s

/-- The cancellation of every entry with the closing set's number as reference, one evaluation after all (R155). -/
def cancelSetStops (number : Nat) (s : State) : State :=
  let gone := s.stops.entries.filter (fun e => decide (e.ref = .set number))
  evaluate (gone.foldl (fun s e => removeStop e s) s)

/-- The list is emptied, without an event or an evaluation (R142, R156). -/
def emptyStops (s : State) : State :=
  s.withStops (StopPlanner.changed { s.stops with entries := [] } s.stops.entries.length)

/-! ## Insertion and arbitration -/

/-- What a block or station asks of the planner (the table of 8.2). -/
structure StopOffer where
  kind : StopKind
  origin : StopOrigin
  ref : StopRef
  web : Int
  station : Int
  target : Int
  deriving DecidableEq, Repr

/-- The id the next insertion gives: the next entry id, passed over ids in use (R137). -/
def StopPlanner.freshId (pl : StopPlanner) : Nat :=
  nextFree 255 (pl.entries.map (·.id)) pl.entries.length pl.nextId

/-- The entry an offer becomes (R140 step 1). -/
def StopOffer.entry (o : StopOffer) (id insertion : Nat) : StopEntry :=
  { id := id, kind := o.kind, origin := o.origin, ref := o.ref, web := o.web, station := o.station,
    target := o.target, insertion := insertion, active := false, late := false, shortfall := 0, overrun := false }

/-- The insertion of R140: id and insertion number, its place, the id handed to the record, the evaluation. DESIGN CHOICE,
unsafe (log entry 32): the next insertion number is the counter's value before its rise, so the first entry after reset has
the number 0. -/
def insertStop (o : StopOffer) (s : State) : State × Nat :=
  let id := s.stops.freshId
  let s1 := s.withStops (StopPlanner.changed
    { s.stops with entries := placeStop (o.entry id s.stops.insertions) s.stops.entries,
                   nextId := nextInCycle 255 id, insertions := s.stops.insertions + 1 } 1)
  let s2 := match o.ref with
    | .record n => storeStopId n id s1
    | _ => s1
  (evaluate s2, id)

/-- Of the WAITING entries below a priority: the lowest priority, then the greatest target, then the last in the
list (R141). -/
def victimOf (priority : Nat) (l : List StopEntry) : Option StopEntry :=
  (l.filter (fun e => !e.active && decide (e.kind.priority < priority))).foldl
    (fun best e =>
      match best with
      | none => some e
      | some b =>
        if e.kind.priority < b.kind.priority ∨ (e.kind.priority = b.kind.priority ∧ b.target ≤ e.target) then some e
        else some b)
    none

/-- An offer: inserted in a list with room, arbitrated in a full one; `none` when it is refused (R140, R141).
An eviction is a removal, so the planner evaluates after it (R142) and again after the insertion. -/
def offerStop (o : StopOffer) (s : State) : State × Option Nat :=
  if s.stops.entries.length < 16 then
    let r := insertStop o s
    (r.1, some r.2)
  else
    match victimOf o.kind.priority s.stops.entries with
    | some v =>
      let r := insertStop o (evaluate ((removeStop v s).post .stopDropped))
      (r.1, some r.2)
    | none => (s.postIf (decide (o.origin = .internal)) .stopDropped, none)

/-- The id of a placed entry, or 0 (the replies of R62 and R165). -/
def idOrZero : Option Nat → Nat
  | none => 0
  | some id => id

/-! ## A change of target -/

/-- An entry takes a new web mark and target, a fresh insertion number and its new place, and keeps its id; then
the planner evaluates (R153 step 3, R154). The fresh number is the counter's value before its rise (log entry 32). -/
def retargetStop (e : StopEntry) (web target : Int) (s : State) : State :=
  let e' := { e with web := web, target := target, insertion := s.stops.insertions }
  evaluate (s.withStops (StopPlanner.changed
    { s.stops with entries := placeStop e' (s.stops.entries.filter (fun x => decide (x.id ≠ e.id))),
                   insertions := s.stops.insertions + 1 } 1))

/-- An entry that the cut shift reaches: W + s ≤ Popen, or a roll-length target (R112). -/
def StopEntry.reachedByCut (popen : Nat) (table : Int) (e : StopEntry) : Bool :=
  decide (e.web + table ≤ popen) || (match e.ref with | .set _ => true | _ => false)

/-- The cut shift of the stop list; insertion numbers are kept and the list is put back in order (R112). -/
def shiftStops (popen cut : Nat) (s : State) : State :=
  let reached := s.stops.entries.filter (StopEntry.reachedByCut popen s.geometry.s)
  s.withStops (StopPlanner.changed
    { s.stops with entries := sortStops (s.stops.entries.map (fun e =>
        if e.reachedByCut popen s.geometry.s then { e with web := e.web + cut, target := e.target + cut } else e)) }
    (if cut = 0 then 0 else reached.length))

end Sys2Proof.Machine
end

