-- ==== Sys2Proof/Machine/RollMap.lean ====
section
/-! DEFINITION. The roll map (Chapter 5): slots, naming of sets, delivery into lanes, lane status, the winding
test, set start and set close. -/

namespace Sys2Proof.Machine

/-! ## Slots -/

/-- The record a slot holds (R78). -/
def Slot.record? : Slot → Option SetRecord
  | .empty => none
  | .winding r => some r
  | .closed r => some r
  | .released r => some r

/-- The record of a WINDING slot. -/
def Slot.winding? : Slot → Option SetRecord
  | .winding r => some r
  | _ => none

/-- The slot with a number from 1 to 4. -/
def RollMap.slot (m : RollMap) (n : Nat) : Slot := m.slots.toList.getD (n - 1) .empty

def RollMap.setSlot (m : RollMap) (n : Nat) (x : Slot) : RollMap :=
  { m with slots := m.slots.setIfInBounds (n - 1) x }

/-- The number of the WINDING slot (R78). -/
def RollMap.windingNumber (m : RollMap) : Option Nat :=
  (m.slots.toList.findIdx? (fun x => x.winding?.isSome)).map (· + 1)

/-- The winding set (R78). -/
def RollMap.windingSet (m : RollMap) : Option SetRecord := m.slots.toList.findSome? Slot.winding?

/-- A change of the winding set's record; nothing where no slot is WINDING. -/
def RollMap.mapWinding (f : SetRecord → SetRecord) (m : RollMap) : RollMap :=
  { m with slots := m.slots.map (fun x => match x with | .winding r => .winding (f r) | other => other) }

def State.mapWinding (f : SetRecord → SetRecord) (s : State) : State := { s with roll := s.roll.mapWinding f }

/-- The winding set is marked MAP-INCOMPLETE (R60, R65, R71, R94). -/
def markIncomplete (s : State) : State := s.mapWinding (fun r => { r with mapIncomplete := true })

/-- QUEUE-FULL and the mark it leaves on the winding set (R60, R65, R71). -/
def queueFull (s : State) : State := markIncomplete (s.post .queueFull)

/-- The removed tally of the winding set rises by 1 (R113, R114). -/
def countRemoved (s : State) : State :=
  s.mapWinding (fun r => { r with removedTally := holdAt 65535 (r.removedTally + 1) })

/-- The roll length of a set that winds: the larger of 0 and P − setStart (R93). -/
def rollLength (p start : Nat) : Nat := p - start

/-- The place of a slot in the close list, 1 for the oldest, 0 when it is not in it (R98). -/
def RollMap.closeOrder (m : RollMap) (n : Nat) : Nat :=
  match m.closeList.idxOf? n with
  | none => 0
  | some i => i + 1

/-! ## Naming a set (R84) -/

/-- The slot holds the record of that job and set. -/
def Slot.isSet (job set : Nat) (x : Slot) : Bool :=
  match x.record? with
  | none => false
  | some r => decide (r.job = job ∧ r.number = set)

/-- The slot number a request names, or the status that answers it: set 0 is the winding set; a pair held by more
than one slot names the WINDING one, otherwise the latest in the close list (R84). -/
def RollMap.find (m : RollMap) (job set : Nat) : Except Status Nat :=
  if 9999 < set then .error .outOfRange
  else if set = 0 then
    match m.windingNumber with
    | none => .error .notFound
    | some n => .ok n
  else
    match m.windingNumber.filter (fun n => (m.slot n).isSet job set),
          (m.closeList.filter (fun n => (m.slot n).isSet job set)).getLast? with
    | some n, _ => .ok n
    | none, some n => .ok n
    | none, none => .error .notFound

/-- The slot state code: 0 FREE, 1 WINDING, 2 CLOSED (13.6). -/
def Slot.code : Slot → Nat
  | .winding _ => 1
  | .closed _ => 2
  | _ => 0

/-! ## Lane lists -/

/-- A defect entry put in roll-position order, after entries of equal position (R80). -/
def placeDefect (e : DefectEntry) : List DefectEntry → List DefectEntry
  | [] => [e]
  | x :: rest => if e.position < x.position then e :: x :: rest else x :: placeDefect e rest

/-- A splice entry put in roll-position order, after entries of equal position (R80). -/
def placeSplice (e : SpliceEntry) : List SpliceEntry → List SpliceEntry
  | [] => [e]
  | x :: rest => if e.position < x.position then e :: x :: rest else x :: placeSplice e rest

/-- The least severity held in a defect list (R86). -/
def leastSeverity (l : List DefectEntry) : Nat := l.foldl (fun m e => min m e.severity.rank) 4

/-- The index of the entry of a severity with the greatest roll position, the last of equal ones (R86). -/
def overflowVictim (rank : Nat) (l : List DefectEntry) : Option (Nat × DefectEntry) :=
  (l.zipIdx.filter (fun e => decide (e.1.severity.rank = rank))).foldl
    (fun best e =>
      match best with
      | none => some (e.2, e.1)
      | some b => if b.2.position ≤ e.1.position then some (e.2, e.1) else some b)
    none

/-- The edit count of a lane rises by `k`, returning to 0 after 65,535 (R80). -/
def LaneRecord.edited (lane : LaneRecord) (k : Nat) : LaneRecord := { lane with edits := wrap16 lane.edits k }

/-- The result of offering an entry to a lane's list: the lane, whether the entry was inserted, and the record
whose entry was removed for it. -/
structure LaneOffer where
  lane : LaneRecord
  inserted : Bool
  evicted : Option Nat
  posts : List EventKind
  deriving DecidableEq, Repr

/-- A defect entry offered to its list: inserted where there is room, otherwise an overflow (R85, R86). -/
def LaneRecord.offerDefect (lane : LaneRecord) (e : DefectEntry) : LaneOffer :=
  if lane.defects.length < 32 then
    { lane := LaneRecord.edited { lane with defects := placeDefect e lane.defects } 1, inserted := true,
      evicted := none, posts := [] }
  else
    let full := { lane with defectOverflow := holdAt 65535 (lane.defectOverflow + 1) }
    match overflowVictim (leastSeverity lane.defects) lane.defects with
    | some v =>
      if leastSeverity lane.defects < e.severity.rank then
        { lane := LaneRecord.edited { full with defects := placeDefect e (lane.defects.eraseIdx v.1) } 2,
          inserted := true, evicted := some v.2.record, posts := [.defectDropped] }
      else { lane := full, inserted := false, evicted := none, posts := [.defectDropped] }
    | none => { lane := full, inserted := false, evicted := none, posts := [.defectDropped] }

/-- A splice entry offered to its list: a full list drops it and counts the overflow (R85, R87). -/
def LaneRecord.offerSplice (lane : LaneRecord) (e : SpliceEntry) : LaneOffer :=
  if lane.splices.length < 8 then
    { lane := LaneRecord.edited { lane with splices := placeSplice e lane.splices } 1, inserted := true,
      evicted := none, posts := [] }
  else
    { lane := { lane with spliceOverflow := holdAt 65535 (lane.spliceOverflow + 1) }, inserted := false,
      evicted := none, posts := [] }

/-- A lane's splice count for the limit: its entries of either kind and its overflow count (R66, R89). -/
def LaneRecord.spliceCount (lane : LaneRecord) : Nat := lane.splices.length + lane.spliceOverflow

/-- A GOOD lane goes HOLD with a cause and LANE-HOLD is posted; any other status stands (R88, R89). -/
def LaneOffer.holdIf (o : LaneOffer) (c : Bool) (cause : HoldCause) : LaneOffer :=
  if c && decide (o.lane.status = .good) then
    { o with lane := { o.lane with status := .hold (some cause) }, posts := o.posts ++ [.laneHold] }
  else o

/-! ## Delivery (R85) -/

/-- What a delivery works on: the winding set's record, the register and the events to post. -/
structure Delivery where
  set : SetRecord
  register : List RegisterItem
  posts : List EventKind
  deriving DecidableEq, Repr

/-- Some lane of the set holds an entry of the record. -/
def SetRecord.holds (r : SetRecord) (number : Nat) : Bool :=
  r.lanes.any (fun lane => lane.defects.any (fun e => decide (e.record = number)) ||
                           lane.splices.any (fun e => decide (e.record = number)))

/-- The defect entry a record gives in a lane: roll position W + w − setStart, the old-plan flag, WOUND, and the
offset xs less the left knife of the lane, held at 0 (R52, R54, R85). -/
def defectEntryOf (w : Int) (set : SetRecord) (it : RegisterItem) (lane tag cls : Nat) (sev : Severity) :
    DefectEntry :=
  { record := it.body.number, tag := tag, cls := cls, severity := sev, length := it.body.length,
    position := it.body.web + w - set.start, offset := it.body.xs - set.knives.getD (lane - 1) 0,
    oldPlan := decide (it.lanes.plan ≠ set.plan), wound := true }

/-- The splice entry a record gives: the old-plan flag as a defect entry has it, and no offset (R52, R54, R85). -/
def spliceEntryOf (w : Int) (set : SetRecord) (it : RegisterItem) (kind : SpliceKind) : SpliceEntry :=
  { record := it.body.number, kind := kind, position := it.body.web + w - set.start,
    oldPlan := decide (it.lanes.plan ≠ set.plan), wound := true }

/-- A record's entry offered to one lane, and the status test that follows (R85 to R89). -/
def offerToLane (w : Int) (job : JobParams) (set : SetRecord) (it : RegisterItem) (lane : LaneRecord) : LaneOffer :=
  match it.body.kind with
  | .defect tag cls sev =>
    (lane.offerDefect (defectEntryOf w set it lane.number tag cls sev)).holdIf
      (job.holdOnCritical && decide (sev = .critical)) .critical
  | .sensedSplice =>
    let o := lane.offerSplice (spliceEntryOf w set it .sensed)
    o.holdIf (decide (job.spliceLimit < o.lane.spliceCount)) .spliceLimit
  | .repairSplice =>
    let o := lane.offerSplice (spliceEntryOf w set it .repair)
    o.holdIf (decide (job.spliceLimit < o.lane.spliceCount)) .spliceLimit

/-- One lane number of a record's range: unplaced above the lane count (R53), otherwise entered, with the
register item made at the record's first entry and the item of an evicted record dropped with its last (R81, R86). -/
def enterLane (w : Int) (job : JobParams) (it : RegisterItem) (d : Delivery) (n : Nat) : Delivery :=
  match d.set.lanes[n - 1]? with
  | none => { d with set := { d.set with unplacedTally := holdAt 65535 (d.set.unplacedTally + 1) } }
  | some lane =>
    let o := offerToLane w job d.set it lane
    let set := { d.set with lanes := d.set.lanes.set (n - 1) o.lane }
    let kept := match o.evicted with
      | none => d.register
      | some v => if set.holds v then d.register else d.register.filter (fun x => decide (x.body.number ≠ v))
    let register :=
      if o.inserted && !kept.any (fun x => decide (x.body.number = it.body.number)) then kept ++ [it] else kept
    { set := set, register := register, posts := d.posts ++ o.posts }

/-- The lane numbers of a range in ascending order. -/
def LaneRange.numbers (r : LaneRange) : List Nat := (List.range (r.last + 1 - r.first)).map (· + r.first)

/-- A record handed to the roll map at the nip is entered into the winding set (R85). -/
def deliverToRoll (it : RegisterItem) (set : SetRecord) (s : State) : State :=
  let d := it.lanes.numbers.foldl (enterLane s.geometry.w s.job.params it)
    { set := set, register := s.roll.register, posts := [] }
  State.postAll d.posts
    { s with roll := { (s.roll.mapWinding (fun _ => d.set)) with register := d.register } }

/-! ## Winding and unwinding (R91, R92) -/

/-- The wound flag of a record's entries against a P: WOUND while W + w ≤ P (R91). -/
def flagNow (register : List RegisterItem) (w : Int) (p : Nat) (record : Nat) (old : Bool) : Bool :=
  match register.find? (fun x => decide (x.body.number = record)) with
  | none => old
  | some it => decide (it.body.web + w ≤ p)

/-- The test of one lane; each change of a flag raises the edit count (R91). -/
def LaneRecord.windingTest (register : List RegisterItem) (w : Int) (p : Nat) (lane : LaneRecord) : LaneRecord :=
  LaneRecord.edited
    { lane with
      defects := lane.defects.map (fun e => { e with wound := flagNow register w p e.record e.wound })
      splices := lane.splices.map (fun e => { e with wound := flagNow register w p e.record e.wound }) }
    (lane.defects.countP (fun e => flagNow register w p e.record e.wound != e.wound) +
     lane.splices.countP (fun e => flagNow register w p e.record e.wound != e.wound))

/-- Every entry of the winding set tested once against P (R91, R92). -/
def windingTest (s : State) : State :=
  s.mapWinding (fun r =>
    { r with lanes := r.lanes.map (LaneRecord.windingTest s.roll.register s.geometry.w s.p) })

/-! ## Entries taken out of the lanes -/

/-- A lane without the entries a test picks; each removal raises the edit count (R80). -/
def LaneRecord.without (defectOut : DefectEntry → Bool) (spliceOut : SpliceEntry → Bool) (lane : LaneRecord) :
    LaneRecord :=
  LaneRecord.edited
    { lane with defects := lane.defects.filter (fun e => !defectOut e)
                splices := lane.splices.filter (fun e => !spliceOut e) }
    (lane.defects.countP defectOut + lane.splices.countP spliceOut)

/-- Some entry of the record in the set is UNWOUND; all entries of one record share the flag (R91). -/
def SetRecord.isUnwound (r : SetRecord) (number : Nat) : Bool :=
  r.lanes.any (fun lane => lane.defects.any (fun e => decide (e.record = number) && !e.wound) ||
                           lane.splices.any (fun e => decide (e.record = number) && !e.wound))

/-- An UNWOUND record's entries leave the lanes, its item leaves the register and the removed tally rises (R113,
R114). -/
def removeFromRoll (number : Nat) (s : State) : State :=
  countRemoved
    { s with roll :=
      { (s.roll.mapWinding (fun r => { r with lanes := r.lanes.map (LaneRecord.without
            (fun e => decide (e.record = number)) (fun e => decide (e.record = number))) })) with
        register := s.roll.register.filter (fun x => decide (x.body.number ≠ number)) } }

/-- The number of UNWOUND entries of a set (R101). -/
def SetRecord.unwoundCount (r : SetRecord) : Nat :=
  (r.lanes.map (fun lane => lane.defects.countP (fun e => !e.wound) + lane.splices.countP (fun e => !e.wound))).sum

/-! ## Set start (R82, R83) -/

/-- The slot of a new set and whether taking it loses an unreleased map: a FREE slot without a record, else the
released set closed longest ago, else the oldest CLOSED set (R82). -/
def RollMap.chooseSlot (m : RollMap) : Nat × Bool :=
  match m.slots.toList.findIdx? (fun x => decide (x = .empty)) with
  | some i => (i + 1, false)
  | none =>
    match m.closeList.find? (fun n => match m.slot n with | .released _ => true | _ => false) with
    | some n => (n, false)
    | none => (m.closeList.headD 1, true)

/-- A lane record at set start (R80). -/
def LaneRecord.fresh (number width : Nat) : LaneRecord :=
  { number := number, width := width, defects := [], splices := [], defectOverflow := 0, spliceOverflow := 0,
    status := .good, edits := 0 }

/-- One lane record for each lane of a knife list (R46, R80). -/
def freshLanes (knives : List Nat) : List LaneRecord :=
  (List.range (laneCount knives)).map (fun i => .fresh (i + 1) (knives.getD (i + 1) 0 - knives.getD i 0))

/-- The MIXED-PLAN decision: the set's plan id differs from the id that was ACTIVE before the swap, if there was
one; the mixed length is w − k (R47, R165 step 1). -/
def mixedPlan (g : Geometry) (before after : Option Plan) : Option Nat :=
  match before, after with
  | some a, some b => if a.id = b.id then none else some (g.w - g.k).toNat
  | _, _ => none

/-- The record of a set at its start (R83); `old` and `s.plans.active` are the ACTIVE plan before and after the
swap. -/
def newSetRecord (number : Nat) (old : Option Plan) (s : State) : SetRecord :=
  let knives := (s.plans.active.map (·.knives)).getD []
  { job := s.job.params.number, number := number, plan := planId s.plans.active, knives := knives,
    start := s.p, target := s.job.params.target, closedLength := none, mapIncomplete := false,
    lengthFallback := decide (s.length.active = .b), mixed := mixedPlan s.geometry old s.plans.active,
    trimTally := 0, unplacedTally := 0, removedTally := 0, repeatTally := 0, markFaultTally := 0,
    lanes := freshLanes knives }

/-- The slot choice: the slot leaves the close list, and a takeover of an unreleased set posts MAP-LOST and
counts it (R82, R103). -/
def takeSlot (s : State) : State × Nat :=
  let choice := s.roll.chooseSlot
  let roll := { s.roll with closeList := s.roll.closeList.filter (fun n => decide (n ≠ choice.1)) }
  if choice.2 then
    ({ s with roll := { roll with mapsLost := holdAt 65535 (roll.mapsLost + 1) } }.post .mapLost, choice.1)
  else ({ s with roll := roll }, choice.1)

/-! ## Set close (R96, R97) -/

/-- A register item put in ascending order of web mark, behind items of equal web mark (R97). -/
def placeItem (it : RegisterItem) : List RegisterItem → List RegisterItem
  | [] => [it]
  | x :: rest => if it.body.web < x.body.web then it :: x :: rest else x :: placeItem it rest

/-- The items of a register whose records are UNWOUND in a set, in the order of their return: ascending web mark,
equal ones in the order of delivery (R97). -/
def returnOrder (register : List RegisterItem) (set : SetRecord) : List RegisterItem :=
  (register.filter (fun x => set.isUnwound x.body.number)).foldl (fun acc x => placeItem x acc) []

/-- The record of a set as its close leaves it: closed length, and no UNWOUND entry (R96). -/
def SetRecord.close (p : Nat) (r : SetRecord) : SetRecord :=
  { r with closedLength := some (rollLength p r.start)
           lanes := r.lanes.map (LaneRecord.without (fun e => !e.wound) (fun e => !e.wound)) }

/-- The slot becomes CLOSED and joins the end of the close list, and the register is emptied (R96, R98). -/
def RollMap.closeSlot (m : RollMap) (n : Nat) (r : SetRecord) : RollMap :=
  { (m.setSlot n (.closed r)) with closeList := m.closeList ++ [n], register := [] }

/-! ## Requests to the roll map -/

/-- A lane status as a LANE-STATUS request leaves it, and whether LANE-HOLD is posted (the table of R90). -/
def LaneStatus.named (old : LaneStatus) : NamedStatus → LaneStatus × Bool
  | .good => (.good, false)
  | .reject => (.reject, false)
  | .hold =>
    match old with
    | .hold cause => (.hold cause, false)
    | _ => (.hold none, true)

/-- The slot with its record's lane given a status. -/
def Slot.mapRecord (f : SetRecord → SetRecord) : Slot → Slot
  | .empty => .empty
  | .winding r => .winding (f r)
  | .closed r => .closed (f r)
  | .released r => .released (f r)

/-- LANE-STATUS at the roll map (R90). -/
def takeLaneStatus (job set lane status : Nat) (s : State) : Taken :=
  match namedStatus? status with
  | none => s.refuse .outOfRange
  | some named =>
    match s.roll.find job set with
    | .error st => s.refuse st
    | .ok n =>
      match s.roll.slot n with
      | .empty => s.refuse .notFound
      | .released _ => s.refuse .wrongState
      | .winding r | .closed r =>
        match (if lane = 0 then none else r.lanes[lane - 1]?) with
        | none => s.refuse .outOfRange
        | some rec =>
          let after := rec.status.named named
          (State.postIf after.2 .laneHold
            { s with roll := s.roll.setSlot n ((s.roll.slot n).mapRecord (fun r =>
                { r with lanes := r.lanes.set (lane - 1) { rec with status := after.1 } })) },
           .done [])

/-- RELEASE-SET at the roll map (R99). -/
def takeReleaseSet (job set : Nat) (s : State) : Taken :=
  match s.roll.find job set with
  | .error st => s.refuse st
  | .ok n =>
    match s.roll.slot n with
    | .closed r => ({ s with roll := s.roll.setSlot n (.released r) }, .done [])
    | .empty => s.refuse .notFound
    | .winding _ | .released _ => s.refuse .wrongState

end Sys2Proof.Machine
end

