-- ==== Sys2Proof/Machine/PathQueue.lean ====
section
/-! DEFINITION. The path queue (Chapter 4): joining and leaving, numbering, resolution at the knife line, delivery
at the nip, defect intake, splice detection and the return of records at set close. -/

namespace Sys2Proof.Machine

/-! ## Order, joining and leaving -/

/-- `a` stands before `b`: lower web mark, or equal web mark and joined earlier (R57). -/
def PathRecord.before (a b : PathRecord) : Bool :=
  decide (a.body.web < b.body.web ∨ (a.body.web = b.body.web ∧ a.joined < b.joined))

/-- A record put at its place in web order (R57). -/
def placeRecord (r : PathRecord) : List PathRecord → List PathRecord
  | [] => [r]
  | x :: rest => if r.before x then r :: x :: rest else x :: placeRecord r rest

/-- The queue put back into web order, equal web marks in the order of joining (R57, R110). -/
def sortRecords (l : List PathRecord) : List PathRecord := l.foldr placeRecord []

/-- The queue has no room (R57). -/
def PathQueue.full (q : PathQueue) : Bool := decide (64 ≤ q.records.length)

/-- A record joins the queue at its place and holds no stop entry id yet (R57). -/
def PathQueue.join (q : PathQueue) (body : RecordBody) (slit : Option LaneRange) : PathQueue :=
  PathQueue.changed
    { q with records := placeRecord { body := body, slit := slit, stopId := none, joined := q.nextJoin } q.records
             nextJoin := q.nextJoin + 1 } 1

/-- A record leaves the queue and those behind it close up (R57). -/
def PathQueue.leave (q : PathQueue) (r : PathRecord) : PathQueue :=
  PathQueue.changed { q with records := q.records.filter (fun x => decide (x.joined ≠ r.joined)) } 1

/-- One flow counter changed (R73). -/
def State.countFlow (f : Flow → Flow) (s : State) : State := s.withQueue { s.queue with flow := f s.queue.flow }

def Flow.addTaken (n : Nat) (f : Flow) : Flow := { f with taken := wrap32 f.taken n }
def Flow.addReturned (n : Nat) (f : Flow) : Flow := { f with returned := wrap32 f.returned n }
def Flow.addDelivered (n : Nat) (f : Flow) : Flow := { f with delivered := wrap32 f.delivered n }
def Flow.addTrimmed (n : Nat) (f : Flow) : Flow := { f with trimmed := wrap32 f.trimmed n }
def Flow.addRemoved (n : Nat) (f : Flow) : Flow := { f with removed := wrap32 f.removed n }
def Flow.addUnmapped (n : Nat) (f : Flow) : Flow := { f with unmapped := wrap32 f.unmapped n }

/-! ## Numbers and tags in use -/

/-- The record numbers held by entries of a set (R56). -/
def SetRecord.entryNumbers (r : SetRecord) : List Nat :=
  r.lanes.flatMap (fun lane => lane.defects.map (·.record) ++ lane.splices.map (·.record))

/-- The record numbers in use: in the queue, and in the lanes of the winding set (R56). -/
def State.usedNumbers (s : State) : List Nat :=
  s.queue.records.map (·.body.number) ++ (s.roll.windingSet.map SetRecord.entryNumbers).getD []

/-- The number the next record gets (R56). -/
def State.freshNumber (s : State) : Nat :=
  nextFree 65535 s.usedNumbers s.usedNumbers.length s.queue.nextNumber

/-- The record holds a source tag (R59). -/
def RecordKind.hasTag (tag : Nat) : RecordKind → Bool
  | .defect t _ _ => decide (t = tag)
  | _ => false

/-- A tag is live: held by a DEFECT record in the queue or by a defect entry of the winding set (R59). -/
def State.tagLive (s : State) (tag : Nat) : Bool :=
  s.queue.records.any (fun r => r.body.kind.hasTag tag) ||
  (match s.roll.windingSet with
   | none => false
   | some set => set.lanes.any (fun lane => lane.defects.any (fun e => decide (e.tag = tag))))

/-- A new record joins with the next record number and the taken counter rises (R56, R62, R65, R71). -/
def enterRecord (kind : RecordKind) (xs xe length : Nat) (web : Int) (slit : Option LaneRange) (s : State) :
    State × Nat :=
  let number := s.freshNumber
  let q := s.queue.join { number := number, kind := kind, xs := xs, xe := xe, length := length, web := web } slit
  (State.countFlow (Flow.addTaken 1) (s.withQueue { q with nextNumber := nextInCycle 65535 number }), number)

/-! ## Knife-line resolution (R67) -/

/-- A record that the lookup answers with TRIM leaves the queue: the trimmed counter and the winding set's trim
tally rise, and its stop entry is cancelled (R50). -/
def trimRecord (r : PathRecord) (s : State) : State :=
  cancelRecordStop r
    (State.mapWinding (fun set => { set with trimTally := holdAt 65535 (set.trimTally + 1) })
      (State.countFlow (Flow.addTrimmed 1) (s.withQueue (s.queue.leave r))))

/-- A record takes its lane range and plan id and becomes SLIT (R48, R51). -/
def slitRecord (r : PathRecord) (range : LaneRange) (s : State) : State :=
  s.withQueue (PathQueue.changed { s.queue with records := s.queue.records.map (fun x =>
    if x.joined = r.joined then { x with slit := some range } else x) } 1)

/-- One record resolved under the ACTIVE plan (R67). -/
def resolveRecord (r : PathRecord) (s : State) : State :=
  match lookupLanes s.plans.active r.body.xs r.body.xe with
  | .trim => trimRecord r s
  | .lanes range => slitRecord r range s

/-- An UPSTREAM record whose point has reached the knife line: W + k ≤ P (R67). -/
def State.dueAtKnives (s : State) (r : PathRecord) : Bool :=
  r.slit.isNone && decide (r.body.web + s.geometry.k ≤ s.p)

/-- Every due record resolved, in queue order. Each resolution leaves one UPSTREAM record fewer. -/
def resolvePasses : Nat → State → State
  | 0, s => s
  | fuel + 1, s =>
    match s.queue.records.find? s.dueAtKnives with
    | none => s
    | some r => resolvePasses fuel (resolveRecord r s)

/-- The resolutions of a change of P or of an entry (R67). -/
def resolveDue (s : State) : State := resolvePasses s.queue.records.length s

/-! ## Nip delivery (R68) -/

/-- A SLIT record whose point has reached the nip: W + w ≤ P (R68). -/
def State.dueAtNip (s : State) (r : PathRecord) : Bool :=
  r.slit.isSome && decide (r.body.web + s.geometry.w ≤ s.p)

/-- One record taken out at the nip: delivered into the winding set, or discarded as unmapped (R68). -/
def deliverRecord (r : PathRecord) (s : State) : State :=
  let s' := s.withQueue (s.queue.leave r)
  match s.roll.windingSet, r.slit with
  | some set, some lanes => deliverToRoll { body := r.body, lanes := lanes } set (s'.countFlow (Flow.addDelivered 1))
  | _, _ => s'.countFlow (Flow.addUnmapped 1)

/-- Every due record taken out, in queue order. -/
def deliverPasses : Nat → State → State
  | 0, s => s
  | fuel + 1, s =>
    match s.queue.records.find? s.dueAtNip with
    | none => s
    | some r => deliverPasses fuel (deliverRecord r s)

/-- The deliveries of a change of P, of an entry or of the end of a cut; none is made while a cut is open (R68,
R69). -/
def deliverDue (s : State) : State :=
  if s.job.state.isCutOpen then s else deliverPasses s.queue.records.length s

/-! ## Defect intake (R58 to R63) -/

/-- The ranges of R58; the severity is one of the three. -/
def defectInRange (d : DefectFields) : Bool :=
  decide (1 ≤ d.tag ∧ d.tag ≤ 65535) && decide (1 ≤ d.cls ∧ d.cls ≤ 15) && decide (d.xs ≤ 30000 ∧ d.xe ≤ 30000) &&
  decide (d.xs ≤ d.xe) && decide (1 ≤ d.length ∧ d.length ≤ 65535)

/-- The web mark of a taken defect: P0 − c, with P0 = P less the age, held at 0 (R61). -/
def defectWeb (s : State) (age : Nat) : Int := ((s.p - age : Nat) : Int) - s.geometry.c

/-- The record causes a stop under the job parameters (R63). -/
def JobParams.stopsOn (j : JobParams) (cls : Nat) (sev : Severity) : Bool :=
  j.stopOnDefect && j.classes.testBit cls && decide (j.stopSeverity.rank ≤ sev.rank)

/-- The DEFECT stop entry a record requests: target W + s + the job's stop offset (R63). -/
def defectOffer (s : State) (number : Nat) (web : Int) : StopOffer :=
  { kind := .defect, origin := .internal, ref := .record number, web := web, station := s.geometry.s,
    target := web + s.geometry.s + s.job.params.stopOffset }

/-- The steps of R62 for a DEFECT request that passes every check of R58. -/
def intakeDefect (d : DefectFields) (sev : Severity) (s : State) : Taken :=
  let web := defectWeb s d.age
  let entered := enterRecord (.defect d.tag d.cls sev) d.xs d.xe d.length web none s
  let number := entered.2
  let s2 := if web + s.geometry.k ≤ s.p then resolveDue entered.1 else entered.1
  if s2.queue.records.any (fun r => decide (r.body.number = number)) then
    let placed := if s.job.params.stopsOn d.cls sev then offerStop (defectOffer s number web) s2 else (s2, none)
    let s4 := if web + s.geometry.w ≤ s.p then deliverDue placed.1 else placed.1
    (s4, .done (fieldU 2 number ++ fieldU 1 (idOrZero placed.2)))
  else (s2, .done (fieldU 2 number ++ fieldU 1 0))

/-- DEFECT at the path queue: the checks of R58 in order, then the steps of R62. A full queue refuses the request even where
the table of R59 says "taken", after a SET-CLOSE that discarded the tag's record for a full queue (log entry 33). -/
def takeDefect (d : DefectFields) (s : State) : Taken :=
  if s.job.state = .noJob then s.refuse .wrongState
  else
    match severity? d.severity with
    | none => s.refuse .outOfRange
    | some sev =>
      if defectInRange d = false then s.refuse .outOfRange
      else if s.tagLive d.tag then s.refuse .duplicate
      else if s.queue.full then (queueFull s, .refused .listFull)
      else intakeDefect d sev s

/-! ## Splice detection (R64 to R66) -/

/-- A SENSED-SPLICE record of the queue that will fall into a lane (R66). -/
def PathRecord.sensedInLane (lane : Nat) (r : PathRecord) : Bool :=
  decide (r.body.kind = .sensedSplice) &&
  (match r.slit with
   | none => true
   | some range => decide (range.first ≤ lane ∧ lane ≤ range.last))

/-- Some lane of the winding set goes over the splice limit, the new record counted among the queue's (R66). -/
def overSpliceLimit (s : State) : Bool :=
  match s.roll.windingSet with
  | none => false
  | some set => set.lanes.any (fun lane =>
      decide (s.job.params.spliceLimit <
        lane.spliceCount + s.queue.records.countP (PathRecord.sensedInLane lane.number)))

/-- The SPLICE-LIMIT stop entry: target W + w (R66). -/
def spliceLimitOffer (s : State) (number : Nat) (web : Int) : StopOffer :=
  { kind := .spliceLimit, origin := .internal, ref := .record number, web := web, station := s.geometry.w,
    target := web + s.geometry.w }

/-- A splice within 1,000 units above the high mark, or at or below it, is a rescan (R64). -/
def isRescan (high : Option Int) (web : Int) : Bool :=
  match high with
  | none => false
  | some h => decide (web ≤ h + 1000)

/-- A splice arrival at the path queue (R64 to R66). -/
def spliceSeen (s : State) : State :=
  let web : Int := (s.p : Int) - s.geometry.e
  if s.job.state = .noJob then s
  else if isRescan s.queue.highMark web then s
  else
    let s1 := s.withQueue { s.queue with highMark := some web }
    if s.queue.full then queueFull s1
    else
      let entered := enterRecord .sensedSplice 0 30000 0 web none s1
      if s.job.params.enforce && overSpliceLimit entered.1 then
        (offerStop (spliceLimitOffer s entered.2 web) entered.1).1
      else entered.1

/-! ## Records returned at set close (R70) -/

/-- A record handed back joins the queue SLIT, or is discarded as unmapped with QUEUE-FULL when there is no room. -/
def returnRecord (s : State) (it : RegisterItem) : State :=
  let s1 := s.countFlow (Flow.addReturned 1)
  if s1.queue.full then (s1.countFlow (Flow.addUnmapped 1)).post .queueFull
  else s1.withQueue (s1.queue.join it.body (some it.lanes))

/-! ## Job start and job end -/

/-- The queue at JOB-START: counters 0, high mark cleared, the next record number kept (R75). -/
def PathQueue.startJob (q : PathQueue) : PathQueue := { q with flow := .zero, highMark := none }

/-- The queue at JOB-END: every record discarded as unmapped (R76). -/
def PathQueue.endJob (q : PathQueue) : PathQueue :=
  PathQueue.changed { q with records := [], flow := q.flow.addUnmapped q.records.length } q.records.length

end Sys2Proof.Machine
end

