-- ==== Sys2Proof/Machine/MarkTracker.lean ====
section
/-! DEFINITION. The mark tracker (Chapter 7): mark arrivals, missed marks and the flywheel, the loss, and the
repeat-aligned set end. -/

namespace Sys2Proof.Machine

def State.withTracker (s : State) (t : MarkTracker) : State := { s with tracker := t }

/-- The job aligns the set end: tracking on and alignment on (R118, R131). -/
def TrackingSettings.aligns (t : TrackingSettings) : Bool := t.tracking && decide (t.align = 1)

/-! ## The repeat-aligned set end (R131 to R133) -/

/-- The number of repeats from Wlast to the first boundary at or beyond the target-length point (R131 step 2). -/
def repeatsTo (wl wlast : Int) (rm : Nat) : Nat := if wl ≤ wlast then 0 else ceilDiv (wl - wlast).toNat rm

/-- The web mark of the aligned set end: the boundary plus the cut offset (R131). -/
def alignedWeb (w : Int) (t : TrackingSettings) (l : MarkLock) (start target : Nat) : Int :=
  l.wlast + (repeatsTo ((start : Int) + target - w) l.wlast l.rm : Int) * l.rm + t.cutOffset

/-- The web mark of a SET-END entry for a set start and target length: aligned when the job aligns and the tracker
is LOCKED, otherwise setStart + L − w (R132, R138). -/
def setEndWeb (s : State) (start target : Nat) : Int :=
  match s.tracker.state with
  | .locked l =>
    if s.tracker.settings.aligns then alignedWeb s.geometry.w s.tracker.settings l start target
    else (start : Int) + target - s.geometry.w
  | _ => (start : Int) + target - s.geometry.w

/-- At a GOOD mark or a relock of an aligned job, the target of a WAITING SET-END entry is recomputed from the
marks just set (R133). -/
def recomputeSetEnd (l : MarkLock) (s : State) : State :=
  if s.tracker.settings.aligns then
    match s.stops.setEnd, s.roll.windingSet with
    | some e, some set =>
      match e.active, set.target with
      | false, some target =>
        let web := alignedWeb s.geometry.w s.tracker.settings l set.start target
        retargetStop e web (web + s.geometry.w) s
      | _, _ => s
    | _, _ => s
  else s

/-! ## Tallies of the winding set (R127) -/

def countRepeat (s : State) : State :=
  s.mapWinding (fun r => { r with repeatTally := holdAt 65535 (r.repeatTally + 1) })

def countMarkFault (s : State) : State :=
  s.mapWinding (fun r => { r with markFaultTally := holdAt 65535 (r.markFaultTally + 1) })

/-! ## Missed marks (R124, R125) -/

/-- The MARK-LOST stop entry: the web is to stop at once, target P (R125). -/
def markLostOffer (s : State) : StopOffer :=
  { kind := .markLost, origin := .internal, ref := .nothing, web := s.p, station := 0, target := s.p }

/-- The tracker becomes LOST: MARK-LOST, the losses counter, and the stop the job may ask for (R125). -/
def loseTrack (l : MarkLock) (s : State) : State :=
  let s1 := (s.withTracker { s.tracker with state := .lost l, losses := holdAt 65535 (s.tracker.losses + 1) }).post
    .markLost
  if s.tracker.settings.stopOnLoss = 1 then (offerStop (markLostOffer s1) s1).1 else s1

/-- One missed mark: the flywheel, the counts, MARK-FAULT, and the loss at the loss count (R124). -/
def missMark (l : MarkLock) (s : State) : State :=
  let l' := { l with wlast := l.wlast + s.tracker.settings.expected, missed := l.missed + 1 }
  let s1 := s.withTracker { s.tracker with state := .locked l', missed := holdAt 65535 (s.tracker.missed + 1) }
  let s2 := (countMarkFault (countRepeat s1)).post .markFault
  if l'.missed = s.tracker.settings.lossCount then loseTrack l' s2 else s2

/-- P − m has come to the end of the window, Wlast + R + Wd (R124). -/
def windowPassed (l : MarkLock) (s : State) : Bool :=
  decide (l.wlast + s.tracker.settings.expected + s.tracker.settings.window ≤ (s.p : Int) - s.geometry.m)

/-- The missed marks of one change of P; the loss count of at most 15 bounds them. -/
def missedMarks : Nat → State → State
  | 0, s => s
  | fuel + 1, s =>
    match s.tracker.state with
    | .locked l => if windowPassed l s then missedMarks fuel (missMark l s) else s
    | _ => s

/-- A change of P at the tracker: the travel sense, and the window test when P has risen (R120, R124). -/
def trackChange (old : Nat) (s : State) : State :=
  if old < s.p then missedMarks 15 (s.withTracker { s.tracker with sense := .forward })
  else s.withTracker { s.tracker with sense := .reverse }

/-! ## Mark arrivals (R120 to R126) -/

/-- The measured repeat of a GOOD mark, held within 1 to 65,535 (R123 step 1). -/
def measuredRepeat (l : MarkLock) (wm : Int) : Nat :=
  max 1 (min 65535 (((wm - l.wacc) / ((l.missed : Int) + 1)).toNat))

/-- A GOOD mark (R123). -/
def goodMark (l : MarkLock) (wm : Int) (s : State) : State :=
  let l' : MarkLock := { wlast := wm, wacc := wm, rm := measuredRepeat l wm, missed := 0 }
  recomputeSetEnd l'
    (countRepeat (s.withTracker { s.tracker with state := .locked l', good := holdAt 65535 (s.tracker.good + 1) }))

/-- A relock from LOST, which keeps the measured repeat (R126). -/
def relockMark (l : MarkLock) (wm : Int) (s : State) : State :=
  let l' : MarkLock := { wlast := wm, wacc := wm, rm := l.rm, missed := 0 }
  recomputeSetEnd l'
    (countRepeat ((s.withTracker
      { s.tracker with state := .locked l', good := holdAt 65535 (s.tracker.good + 1) }).post .markRelock))

/-- A forward arrival in LOCKED, classed by its distance from Wlast (R122). A distance above R + Wd is not met:
the change of P before it has moved Wlast on; the model ignores such an arrival (log entry 17). -/
def classMark (l : MarkLock) (wm : Int) (s : State) : State :=
  let d := wm - l.wlast
  let r : Int := s.tracker.settings.expected
  let wd : Int := s.tracker.settings.window
  if d ≤ 0 then s.withTracker { s.tracker with rescanned := holdAt 65535 (s.tracker.rescanned + 1) }
  else if d < r - wd then
    (countMarkFault (s.withTracker { s.tracker with extra := holdAt 65535 (s.tracker.extra + 1) })).post .markFault
  else if d ≤ r + wd then goodMark l wm s
  else s

/-- The locking arrival in UNLOCKED (R121). -/
def lockMark (wm : Int) (s : State) : State :=
  let l : MarkLock := { wlast := wm, wacc := wm, rm := s.tracker.settings.expected, missed := 0 }
  s.withTracker { s.tracker with state := .locked l }

/-- A mark arrival at the tracker (R120). -/
def markSeen (s : State) : State :=
  let wm : Int := (s.p : Int) - s.geometry.m
  if s.job.state = .noJob ∨ s.tracker.settings.tracking = false ∨ s.tracker.sense = .reverse then s
  else
    match s.tracker.state with
    | .unlocked => lockMark wm s
    | .locked l => classMark l wm s
    | .lost l => relockMark l wm s

/-! ## Job start and job end (R129, R130) -/

/-- The tracker at JOB-START: the job's settings, UNLOCKED, counters 0, travel sense FORWARD (R129). -/
def trackerAtJobStart (settings : TrackingSettings) : MarkTracker :=
  { MarkTracker.reset with settings := settings }

/-- The tracker at JOB-END: UNLOCKED, settings and counters kept (R130). -/
def MarkTracker.endJob (t : MarkTracker) : MarkTracker := { t with state := .unlocked }

/-- The consecutive missed count, 0 in UNLOCKED (R119). -/
def TrackerState.missed : TrackerState → Nat
  | .unlocked => 0
  | .locked l => l.missed
  | .lost l => l.missed

/-- The measured repeat, read as 0 while absent (R128). -/
def TrackerState.repeatRead : TrackerState → Nat
  | .unlocked => 0
  | .locked l => l.rm
  | .lost l => l.rm

end Sys2Proof.Machine
end

