-- ==== Sys2Proof/Machine/LengthCounter.lean ====
section
/-! DEFINITION. Sensor inputs, length counter and strobe divider (Chapter 1): quadrature decoding, exact length,
the web position and its change, silence and fallback, the slip check, strobe units, and the chapter's requests. -/

namespace Sys2Proof.Machine

def State.withLength (s : State) (c : LengthCounter) : State := { s with length := c }
def State.withInputs (s : State) (i : Inputs) : State := { s with inputs := i }
def State.withStrobe (s : State) (d : Strobe) : State := { s with strobe := d }

/-! ## One item for each encoder -/

def LengthCounter.measure (c : LengthCounter) : Encoder → Measure
  | .a => c.a
  | .b => c.b

def LengthCounter.setMeasure (c : LengthCounter) (e : Encoder) (m : Measure) : LengthCounter :=
  match e with
  | .a => { c with a := m }
  | .b => { c with b := m }

def Inputs.encoder (i : Inputs) : Encoder → EncoderInput
  | .a => i.encA
  | .b => i.encB

def Inputs.setEncoder (i : Inputs) (e : Encoder) (x : EncoderInput) : Inputs :=
  match e with
  | .a => { i with encA := x }
  | .b => { i with encB := x }

def otherEncoder : Encoder → Encoder
  | .a => .b
  | .b => .a

/-! ## Quadrature (R4, R5) -/

/-- The direction of a step between two pairs of accepted levels (phase 1, phase 2): the table of R4. -/
def stepDirection : Bool × Bool → Bool × Bool → Option Direction
  | (false, false), (true, false) => some .forward
  | (true, false), (true, true) => some .forward
  | (true, true), (false, true) => some .forward
  | (false, true), (false, false) => some .forward
  | (false, false), (false, true) => some .reverse
  | (true, false), (false, false) => some .reverse
  | (true, true), (true, false) => some .reverse
  | (false, true), (true, true) => some .reverse
  | _, _ => none

/-- The input with one phase line's accepted level changed. -/
def EncoderInput.edge (x : EncoderInput) : Phase → EncoderInput
  | .one => { x with level1 := !x.level1 }
  | .two => { x with level2 := !x.level2 }

/-- The level present on a phase line, with the levels of one encoder taken from its input. -/
def pinsWith (pins : InputLevels) (e : Encoder) (x : EncoderInput) : InputLevels :=
  match e with
  | .a => { pins with a1 := x.level1, a2 := x.level2 }
  | .b => { pins with b1 := x.level1, b2 := x.level2 }

/-- The inputs with one encoder's accepted levels changed, the pins following. -/
def Inputs.accept (i : Inputs) (e : Encoder) (x : EncoderInput) : Inputs :=
  { (i.setEncoder e x) with pins := pinsWith i.pins e x }

/-- Both phases changed at one instant: the new pair is taken and the glitch counter rises (R5). -/
def EncoderInput.glitch (x : EncoderInput) : EncoderInput :=
  { x with level1 := !x.level1, level2 := !x.level2, glitches := holdAt 65535 (x.glitches + 1), glitchPosted := true }

/-- An illegal transition: no count; ENCODER-GLITCH at most once a gate (R5). -/
def glitchAt (e : Encoder) (s : State) : State :=
  let x := s.inputs.encoder e
  (s.withInputs (s.inputs.accept e x.glitch)).postIf (!x.glitchPosted) .encoderGlitch

/-! ## Exact length (R10 to R12) -/

/-- The numerator N = C × (1,000,000 + T) (R10). -/
def Measure.numerator (m : Measure) : Nat := m.circumference * ((1000000 : Int) + m.trim).toNat

/-- The divisor D = K × 100,000,000 (R10). -/
def Measure.divisor (m : Measure) : Nat := m.counts * 100000000

/-- A forward count: the encoder after it and the units gained, those refused at the top left out (R11, R12). -/
def Measure.forward (m : Measure) : Measure × Nat :=
  let raised := m.remainder + m.numerator
  let position := min (m.position + raised / m.divisor) topOfPosition
  ({ m with remainder := raised % m.divisor, position := position }, position - m.position)

/-- A reverse count: the encoder after it and the units lost. A count that would take the position below 0 leaves
it at 0 with a remainder of 0 (R11, R12). -/
def Measure.reverse (m : Measure) : Measure × Nat :=
  if m.numerator ≤ m.remainder then ({ m with remainder := m.remainder - m.numerator }, 0)
  else
    let units := ceilDiv (m.numerator - m.remainder) m.divisor
    if units ≤ m.position then
      ({ m with remainder := m.remainder + units * m.divisor - m.numerator, position := m.position - units }, units)
    else ({ m with remainder := 0, position := 0 }, m.position)

/-- A count of an encoder in a direction: the encoder after it and the units it moved (R11). -/
def Measure.step (m : Measure) : Direction → Measure × Nat
  | .forward => m.forward
  | .reverse => m.reverse

/-- P after units of the active source, held within 0 to 4,294,967,295 (R13). -/
def movedPosition (p units : Nat) : Direction → Nat
  | .forward => min (p + units) topOfPosition
  | .reverse => p - units

/-- A value has come to the top from below (R12). -/
def reachedTop (old new : Nat) : Bool := decide (old < topOfPosition ∧ new = topOfPosition)

/-! ## Silence, fallback and the slip span (R16 to R21) -/

/-- The slip check's running conditions: A active and both encoders ALIVE (R20). -/
def LengthCounter.slipRuns (c : LengthCounter) : Bool :=
  decide (c.active = .a) && !c.a.silent && !c.b.silent

/-- A span from the current PA and PB if the conditions hold, none otherwise (R20). -/
def LengthCounter.openSpan (c : LengthCounter) : LengthCounter :=
  { c with span := if c.slipRuns then some { pa0 := c.a.position, pb0 := c.b.position } else none }

/-- A count makes its encoder ALIVE with silence distance 0; a recovery opens a fresh span (R16, R19, R20). -/
def LengthCounter.heard (c : LengthCounter) (e : Encoder) : LengthCounter :=
  let m := c.measure e
  let c' := c.setMeasure e { m with silent := false, silence := 0 }
  if m.silent then c'.openSpan else c'

/-- Units of one encoder raise the other's silence distance (R16). -/
def LengthCounter.raiseSilence (c : LengthCounter) (e : Encoder) (units : Nat) : LengthCounter :=
  let m := c.measure e
  c.setMeasure e { m with silence := m.silence + units }

/-- A raise has brought an ALIVE encoder to the silence span (R16). -/
def LengthCounter.fallsSilent (c : LengthCounter) (e : Encoder) (units span : Nat) : Bool :=
  decide (0 < units) && !(c.measure e).silent && decide (span ≤ (c.measure e).silence)

/-- Encoder A falls silent: the source falls back to B, with the winding set marked, if A was active (R17). -/
def silenceA (s : State) : State :=
  let c := s.length
  let s1 := (s.withLength { c with a := { c.a with silent := true }, active := .b, span := none }).post
    .encoderASilent
  if c.active = .a then s1.mapWinding (fun r => { r with lengthFallback := true }) else s1

/-- Encoder B falls silent: the source stays and the slip check is suspended (R18). -/
def silenceB (s : State) : State :=
  let c := s.length
  (s.withLength { c with b := { c.b with silent := true }, span := none }).post .encoderBSilent

/-- An encoder falls silent (R17, R18). -/
def silenceOf : Encoder → State → State
  | .a => silenceA
  | .b => silenceB

/-- The deviation of a span in ppm, truncated toward zero and held within ±100,000,000 (R21). -/
def deviation (da db : Int) : Int :=
  max (-100000000) (min 100000000 (((db - da) * 1000000).tdiv da))

/-- The slip check after a forward count of A (R21). -/
def slipCheck (s : State) : State :=
  let c := s.length
  match c.span with
  | none => s
  | some sp =>
    let da : Int := (c.a.position : Int) - sp.pa0
    if (s.motion.settings.check : Int) ≤ da then
      let dev := deviation da ((c.b.position : Int) - sp.pb0)
      let exceeds : Bool := decide (s.motion.settings.slip < dev.natAbs)
      (s.withLength
        (LengthCounter.openSpan
          { c with lastDeviation := dev
                   slipCount := if exceeds then holdAt 65535 (c.slipCount + 1) else c.slipCount })).postIf exceeds .slip
    else s

/-- The slip check at a count of A: the comparison after a forward count, a restart after a reverse one (R20, R21). -/
def slipAtCount (e : Encoder) (d : Direction) (s : State) : State :=
  match e, d with
  | .a, .forward => slipCheck s
  | .a, .reverse => s.withLength s.length.openSpan
  | .b, _ => s

/-! ## Strobe units (R23) -/

/-- Forward units at the divider: each Q units owe a pulse, the surplus counts on, the owed count holds (R23). -/
def Strobe.addUnits (d : Strobe) (units : Nat) : Strobe :=
  { d with count := (d.count + units) % d.interval
           owed := holdAt 65535 (d.owed + (d.count + units) / d.interval) }

/-! ## The change of P (R14) -/

/-- A change of P handed to the blocks that act on P, in the order in which R14 lists them (log entry 13); the
motion monitor reads P at its gate close. -/
def changeOfP (old : Nat) (s : State) : State :=
  let s1 := trackChange old s
  let s2 := deliverDue (resolveDue s1)
  let s3 := if s2.job.state = .winding then windingTest s2 else s2
  let s4 := evaluate s3
  s4.withStrobe (s4.strobe.addUnits (s4.p - old))

/-- One count of an encoder in a direction, taken whole (R11 to R21). The source that moves P is the one active
when the count is taken (R17). -/
def applyCount (e : Encoder) (d : Direction) (s : State) : State :=
  let c := s.length.heard e
  let moved := (c.measure e).step d
  let p' := if c.active = e then movedPosition c.p moved.2 d else c.p
  let c1 := LengthCounter.raiseSilence { (c.setMeasure e moved.1) with p := p' } (otherEncoder e) moved.2
  let s1 := ((s.withLength c1).postIf (reachedTop (c.measure e).position moved.1.position) .positionLimit).postIf
    (reachedTop c.p p') .positionLimit
  let s2 := if c1.fallsSilent (otherEncoder e) moved.2 s.motion.settings.silence then silenceOf (otherEncoder e) s1
    else s1
  let s3 := slipAtCount e d s2
  if p' = c.p then s3 else changeOfP c.p s3

/-- An accepted edge on one phase line (R4): the pair of levels gives the direction. -/
def acceptEdge (e : Encoder) (ph : Phase) (s : State) : State :=
  let before := s.inputs.encoder e
  let after := before.edge ph
  let s1 := s.withInputs (s.inputs.accept e after)
  match stepDirection (before.level1, before.level2) (after.level1, after.level2) with
  | none => s1
  | some d => applyCount e d s1

/-! ## Events on the inputs -/

/-- COUNT (R4, R11): not watched in reset and warm-up (R3). -/
def execCount (e : Encoder) (ph : Phase) (s : State) : Host.Outcome State Fault Refusal :=
  .next (if s.running then acceptEdge e ph s else s)

/-- ILLEGAL_TRANSITION (R5): not watched in reset and warm-up (R3). -/
def execIllegalTransition (e : Encoder) (s : State) : Host.Outcome State Fault Refusal :=
  .next (if s.running then glitchAt e s else s)

/-- The level a line has after an accepted change in the direction of its edge choice (R7). -/
def Edge.level : Edge → Bool
  | .rising => true
  | .falling => false

/-- The inputs after an arrival on MARK (R7). -/
def Inputs.markArrived (i : Inputs) : Inputs :=
  { i with mark := { i.mark with level := i.mark.edge.level }, pins := { i.pins with mark := i.mark.edge.level } }

/-- The inputs after an arrival on SPLICE (R7). -/
def Inputs.spliceArrived (i : Inputs) : Inputs :=
  { i with splice := { i.splice with level := i.splice.edge.level }
           pins := { i.pins with splice := i.splice.edge.level } }

/-- MARK_ARRIVAL (R7, R120), stamped with P. -/
def execMarkArrival (s : State) : Host.Outcome State Fault Refusal :=
  .next (if s.running then markSeen (s.withInputs s.inputs.markArrived) else s)

/-- SPLICE_ARRIVAL (R7, R64), stamped with P. -/
def execSpliceArrival (s : State) : Host.Outcome State Fault Refusal :=
  .next (if s.running then spliceSeen (s.withInputs s.inputs.spliceArrived) else s)

/-! ## The strobe output (R23) -/

/-- An owed pulse can begin: STROBE is low and a pulse is owed (R23). -/
def Strobe.canBegin (d : Strobe) : Bool := !d.high && decide (0 < d.owed)

/-- A pulse begins and the owed count falls by 1 (R23). -/
def Strobe.begin (d : Strobe) : Strobe := { d with high := true, owed := d.owed - 1, held := 0 }

/-- A pulse ends (R23). -/
def Strobe.finish (d : Strobe) : Strobe := { d with high := false, held := 0 }

/-- STROBE_PULSE (R23): the command stands for the moment at which the low level has lasted 2 µs (log entry 2). -/
def execStrobePulse (s : State) : Host.Outcome State Fault Refusal :=
  .next (if s.running && s.strobe.canBegin then s.withStrobe s.strobe.begin else s)

/-- STROBE_PULSE_END (R23). -/
def execStrobePulseEnd (s : State) : Host.Outcome State Fault Refusal :=
  .next (if s.running && s.strobe.high then s.withStrobe s.strobe.finish else s)

/-! ## Requests of Chapter 1 -/

/-- An offset lies in −200,000 to +200,000 (R1). -/
def offsetInRange (x : Int) : Bool := decide (-200000 ≤ x ∧ x ≤ 200000)

/-- The checks of R1. -/
def geometryAllowed (g : Geometry) : Bool :=
  offsetInRange g.c && offsetInRange g.e && offsetInRange g.m && offsetInRange g.k && offsetInRange g.s &&
  offsetInRange g.w && decide (g.c < g.k ∧ g.e < g.k ∧ g.m < g.w ∧ g.k < g.s ∧ g.s < g.w ∧ 0 < g.s)

/-- SET-GEOMETRY at the length counter (R1). -/
def takeSetGeometry (g : Geometry) (s : State) : Taken :=
  if s.job.state ≠ .noJob then s.refuse .wrongState
  else if geometryAllowed g = false then s.refuse .outOfRange
  else ({ s with geometry := g }, .done [])

/-- The ranges of C and K (R8). -/
def calibrationInRange (f : CalibrationFields) : Bool :=
  decide (100000 ≤ f.circumference ∧ f.circumference ≤ 2000000) && decide (100 ≤ f.counts ∧ f.counts ≤ 80000)

/-- An encoder's figures replaced; the remainder is cleared when C or K differs (R8). -/
def Measure.calibrate (m : Measure) (f : CalibrationFields) : Measure :=
  { m with circumference := f.circumference, counts := f.counts
           remainder := if m.circumference = f.circumference ∧ m.counts = f.counts then m.remainder else 0 }

/-- SET-CALIBRATION at the length counter (R8). -/
def takeSetCalibration (fa fb : CalibrationFields) (s : State) : Taken :=
  if s.job.state ≠ .noJob then s.refuse .wrongState
  else if (calibrationInRange fa && calibrationInRange fb) = false then s.refuse .outOfRange
  else
    match encoderFilter? fa.filter, encoderFilter? fb.filter with
    | some ta, some tb =>
      ({ s with length := { s.length with a := s.length.a.calibrate fa, b := s.length.b.calibrate fb }
                inputs := { s.inputs with encA := { s.inputs.encA with filter := ta }
                                          encB := { s.inputs.encB with filter := tb } } }, .done [])
    | _, _ => s.refuse .outOfRange

/-- SET-SENSORS at the sensor inputs (R6). -/
def takeSetSensors (markFilter markEdge spliceFilter spliceEdge : Nat) (s : State) : Taken :=
  if s.job.state.setOpen then s.refuse .wrongState
  else
    match lineFilter? markFilter, edge? markEdge, lineFilter? spliceFilter, edge? spliceEdge with
    | some mf, some me, some sf, some se =>
      (s.withInputs { s.inputs with mark := { s.inputs.mark with filter := mf, edge := me }
                                    splice := { s.inputs.splice with filter := sf, edge := se } }, .done [])
    | _, _, _, _ => s.refuse .outOfRange

/-- SET-TRIM at the length counter (R9). -/
def takeSetTrim (enc : Nat) (trim : Int) (s : State) : Taken :=
  match encoder? enc with
  | none => s.refuse .outOfRange
  | some e =>
    if trim < -20000 ∨ 20000 < trim then s.refuse .outOfRange
    else (s.withLength (s.length.setMeasure e { (s.length.measure e) with trim := trim }), .done [])

/-- The length counter with a source selected: a change to A restarts the slip span, a change to B abandons it,
naming the active source changes nothing (R15, R20). -/
def LengthCounter.select (c : LengthCounter) (e : Encoder) : LengthCounter :=
  if c.active = e then c else LengthCounter.openSpan { c with active := e }

/-- SELECT-SOURCE at the length counter (R15). -/
def takeSelectSource (source : Nat) (s : State) : Taken :=
  match encoder? source with
  | none => s.refuse .outOfRange
  | some e =>
    if (s.length.measure e).silent then s.refuse .wrongState
    else if s.motion.standstill = false then s.refuse .notStandstill
    else (s.withLength (s.length.select e), .done [])

/-- SET-STROBE at the strobe divider (R22); a pulse under way is left to complete (R23). -/
def takeSetStrobe (q : Nat) (s : State) : Taken :=
  if q < 1 ∨ 1000 < q then s.refuse .outOfRange
  else (s.withStrobe { s.strobe with interval := q, count := 0, owed := 0 }, .done [])

/-! ## Job start (R24) -/

/-- One encoder at JOB-START: shadow position, remainder and silence distance 0 (R24). -/
def Measure.startJob (m : Measure) : Measure := { m with remainder := 0, position := 0, silence := 0 }

/-- The length counter at JOB-START (R24). -/
def LengthCounter.startJob (c : LengthCounter) : LengthCounter :=
  LengthCounter.openSpan { c with a := c.a.startJob, b := c.b.startJob, p := 0 }

/-- The strobe divider at JOB-START (R24). -/
def Strobe.startJob (d : Strobe) : Strobe := { d with count := 0, owed := 0 }

end Sys2Proof.Machine
end

