-- ==== Sys2Proof/Machine/Motion.lean ====
section
/-! DEFINITION. The motion monitor (Chapter 2): the gate close, braking distance, motion settings, line state and the
motion timer. -/

namespace Sys2Proof.Machine

def State.withMotion (s : State) (m : Motion) : State := { s with motion := m }

/-! ## The figures of a gate close -/

/-- The ring with a new delta, the oldest leaving it (R26). -/
def Ring.push (r : Ring) (d : Int) : Ring := { d1 := r.d2, d2 := r.d3, d3 := r.d4, d4 := d }

/-- Σ, the sum of the four deltas (R26). -/
def Ring.sum (r : Ring) : Int := r.d1 + r.d2 + r.d3 + r.d4

/-- All four deltas are 0 (R28). -/
def Ring.still (r : Ring) : Bool := decide (r.d1 = 0 ∧ r.d2 = 0 ∧ r.d3 = 0 ∧ r.d4 = 0)

/-- The computed speed |Σ| × 25 ÷ G, rounded down, before it is held at 20,000 (R27). -/
def rawSpeed (sum : Int) (gate : Nat) : Nat := sum.natAbs * 25 / gate

/-- S in motion: the braking term and the reaction term, each rounded up, the sum held at 4,294,967,295 (R30). -/
def brakingDistance (v a t : Nat) : Nat := min (ceilDiv (5 * (v * v)) a + ceilDiv (v * t) 100) topOfPosition

/-- STANDSTILL after a close, from its old value, the ring and the new delta (R28). -/
def standstillAfter (old : Bool) (ring : Ring) (delta : Int) : Bool :=
  if old then decide (delta = 0) else ring.still

/-- The motion timer's response to a close (R35): motion stops it; a standstill reached under RUNNING with the
check OPEN loads it and starts it. -/
def Motion.timerAfter (m : Motion) (standstill : Bool) : Nat × Bool :=
  if m.standstill && !standstill then (m.timer, false)
  else if !m.standstill && standstill && decide (m.report = .running) && m.checkOpen then
    (m.settings.timeout, true)
  else (m.timer, m.timerOn)

/-- The monitor after a gate close at a web position (R25 to R30, R33, R35). -/
def Motion.close (m : Motion) (p : Nat) : Motion :=
  let delta : Int := (p : Int) - m.baseline
  let ring := m.ring.push delta
  let raw := rawSpeed ring.sum m.settings.gate
  let speed := min raw 20000
  let still := standstillAfter m.standstill ring delta
  { settings := { m.settings with gate := m.nextGate.getD m.settings.gate }
    nextGate := none
    baseline := p
    gateClock := 0
    ring := ring
    speed := speed
    direction := if 0 ≤ ring.sum then .forward else .reverse
    overspeed := decide (20000 < raw)
    standstill := still
    braking := if still then 0 else brakingDistance speed m.settings.decel m.settings.reaction
    report := m.report
    checkOpen := m.checkOpen
    timer := (m.timerAfter still).1
    timerOn := (m.timerAfter still).2 }

/-- The events a close posts: OVERSPEED at the start of an excursion (R27), STANDSTILL-REACHED or MOTION at a change
of STANDSTILL (R28). -/
def closeEvents (before after : Motion) : List EventKind :=
  (if after.overspeed && !before.overspeed then [.overspeed] else []) ++
  (if after.standstill && !before.standstill then [.standstillReached] else []) ++
  (if before.standstill && !after.standstill then [.motion] else [])

/-- S, the direction or STANDSTILL differs from its value before the close (R29). -/
def motionHandedOn (before after : Motion) : Bool :=
  decide (before.braking ≠ after.braking ∨ before.direction ≠ after.direction ∨
          before.standstill ≠ after.standstill)

/-- Both encoders may post ENCODER-GLITCH again (R5, R25). -/
def Inputs.newGate (i : Inputs) : Inputs :=
  { i with encA := { i.encA with glitchPosted := false }, encB := { i.encB with glitchPosted := false } }

/-- A gate close, taken whole before anything is handed on (R29). -/
def closeGate (s : State) : State :=
  let m := s.motion.close s.p
  let s1 := State.postAll (closeEvents s.motion m) ((s.withMotion m).withInputs s.inputs.newGate)
  if motionHandedOn s.motion m then evaluate s1 else s1

/-- The gate clock has counted G intervals (R25); it does not run before warm-up has ended. -/
def State.gateDue (s : State) : Bool := s.running && decide (s.motion.settings.gate ≤ s.motion.gateClock)

/-- GATE_CLOSE (R25): taken when the gate clock has counted G intervals; before that no gate closes (log entry 2). -/
def execGateClose (s : State) : Host.Outcome State Fault Refusal :=
  .next (if s.gateDue then closeGate s else s)

/-! ## The motion timer (R35) -/

/-- The counting motion timer stands at 0 (R35). -/
def State.noMotionDue (s : State) : Bool := s.running && s.motion.timerOn && decide (s.motion.timer = 0)

/-- NO-MOTION: posted, the timer stops, the motion check becomes SPENT (R35). -/
def takeNoMotion (s : State) : State :=
  (s.withMotion { s.motion with timerOn := false, checkOpen := false }).post .noMotion

/-- NO_MOTION (R35): taken when the counting timer has come to 0 (log entry 2). -/
def execNoMotion (s : State) : Host.Outcome State Fault Refusal :=
  .next (if s.noMotionDue then takeNoMotion s else s)

/-! ## Requests of Chapter 2 -/

/-- The ranges of R32, the gate period aside. -/
def motionInRange (m : MotionFields) : Bool :=
  decide (50 ≤ m.decel ∧ m.decel ≤ 5000) && decide (m.reaction ≤ 1000) && decide (m.tolerance ≤ 5000) &&
  decide (100 ≤ m.overrun ∧ m.overrun ≤ 1000000) && decide (500 ≤ m.timeout ∧ m.timeout ≤ 10000) &&
  decide (1000 ≤ m.silence ∧ m.silence ≤ 100000) && decide (10000 ≤ m.check ∧ m.check ≤ 1000000) &&
  decide (100 ≤ m.slip ∧ m.slip ≤ 50000)

/-- The settings stored by SET-MOTION; a gate period that differs from G waits for the next close, one that equals G
clears a waiting one (R33). -/
def Motion.store (m : Motion) (f : MotionFields) (gate : Nat) : Motion :=
  { m with
    settings :=
      { gate := m.settings.gate, decel := f.decel, reaction := f.reaction, tolerance := f.tolerance,
        overrun := f.overrun, timeout := f.timeout, silence := f.silence, check := f.check, slip := f.slip }
    nextGate := if gate = m.settings.gate then none else some gate }

/-- SET-MOTION at the motion monitor (R32, R33). -/
def takeSetMotion (f : MotionFields) (s : State) : Taken :=
  if s.motion.standstill = false then s.refuse .notStandstill
  else
    match gatePeriod? f.gate with
    | none => s.refuse .outOfRange
    | some gate =>
      if motionInRange f = false then s.refuse .outOfRange
      else (s.withMotion (s.motion.store f gate), .done [])

/-- The monitor after a line state report (R34). DESIGN CHOICE, unsafe (log entry 31): a report taken between the interval that
brings the counting timer to 0 and the NO-MOTION step that this makes due stops or loads the timer, so that NO-MOTION is not
posted for it; R35 gives no order for the two. -/
def Motion.reported (m : Motion) (r : LineReport) : Motion :=
  match r with
  | .running =>
    if m.standstill then
      { m with report := .running, checkOpen := true, timer := m.settings.timeout, timerOn := true }
    else { m with report := .running, checkOpen := true, timerOn := false }
  | other => { m with report := other, checkOpen := false, timerOn := false }

/-- LINE-STATE at the motion monitor (R34). -/
def takeLineState (report : Nat) (s : State) : Taken :=
  match lineReport? report with
  | none => s.refuse .outOfRange
  | some r => (s.withMotion (s.motion.reported r), .done [])

end Sys2Proof.Machine
end

