-- ==== Sys2Proof/Machine/Cuts.lean ====
section
/-! DEFINITION. Cuts and repair splices (Chapter 6): opening a cut, the cut shift, the removals, the repair splice and
the end of a cut. -/

namespace Sys2Proof.Machine

def State.withJob (s : State) (j : JobController) : State := { s with job := j }

/-- The job state changed. -/
def State.toJobState (s : State) (j : JobState) : State := s.withJob { s.job with state := j }

/-- CUT-OPEN at the job controller (R106). -/
def takeCutOpen (s : State) : Taken :=
  if s.job.state ≠ .winding then s.refuse .wrongState
  else if s.motion.standstill = false then s.refuse .notStandstill
  else (s.toJobState (.cutOpen s.p), .done (fieldU 4 s.p))

/-! ## The classes of R108 step 1 -/

/-- On the held side: the point had reached the splice table when the cut opened, W + s ≤ Popen. -/
def onHeldSide (popen : Nat) (table web : Int) : Bool := decide (web + table ≤ popen)

/-- Pulled through: not on the held side, and W + s at or below P. -/
def isPulledThrough (popen p : Nat) (table web : Int) : Bool :=
  !onHeldSide popen table web && decide (web + table ≤ p)

/-! ## The cut shift (R110 to R112) -/

def RecordBody.shift (b : RecordBody) (cut : Nat) : RecordBody := { b with web := b.web + cut }

/-- The shift of the queue: held-side records rise by Lcut and the queue is put back in order (R110); a shift that
moves a web mark raises the change count by 1 (R181). -/
def PathQueue.shift (q : PathQueue) (popen cut : Nat) (table : Int) : PathQueue :=
  let held := fun (r : PathRecord) => onHeldSide popen table r.body.web
  PathQueue.changed
    { q with records := sortRecords (q.records.map (fun r => if held r then { r with body := r.body.shift cut } else r)) }
    (if cut ≠ 0 ∧ q.records.any held then 1 else 0)

/-- The shift of the roll map: setStart of the winding set, held at 4,294,967,295, and the held-side items of the
register (R110, R111). -/
def RollMap.shift (m : RollMap) (popen cut : Nat) (table : Int) : RollMap :=
  { (m.mapWinding (fun r => { r with start := min (r.start + cut) topOfPosition })) with
    register := m.register.map (fun it =>
      if onHeldSide popen table it.body.web then { it with body := it.body.shift cut } else it) }

/-- Step 2 of R108: the cut shift of the queue, setStart, the register and the stop list. -/
def cutShift (popen cut : Nat) (s : State) : State :=
  shiftStops popen cut
    { s with queue := s.queue.shift popen cut s.geometry.s, roll := s.roll.shift popen cut s.geometry.s }

/-! ## Removals (R113, R114) -/

/-- A record of the queue removed: the removed counter rises and its stop entry is cancelled, and the winding set's
removed tally rises (R71, R113). -/
def removeRecord (r : PathRecord) (s : State) : State :=
  countRemoved (cancelRecordStop r (State.countFlow (Flow.addRemoved 1) (s.withQueue (s.queue.leave r))))

/-- The register holds an item of that number whose entries are UNWOUND (R113). -/
def State.unwoundItem (s : State) (number : Nat) : Bool :=
  s.roll.register.any (fun it => decide (it.body.number = number)) &&
  (match s.roll.windingSet with
   | none => false
   | some set => set.isUnwound number)

/-- One named record: sought in the queue, then in the register; a WOUND or unknown one is left (R113). The second
part counts the records removed. -/
def removeNamed (acc : State × Nat) (number : Nat) : State × Nat :=
  match acc.1.queue.records.find? (fun r => decide (r.body.number = number)) with
  | some r => (removeRecord r acc.1, acc.2 + 1)
  | none => if acc.1.unwoundItem number then (removeFromRoll number acc.1, acc.2 + 1) else acc

/-- One record of the queue that was pulled through, if it is still there (R114). -/
def removePulled (acc : State × Nat) (r : PathRecord) : State × Nat :=
  match acc.1.queue.records.find? (fun x => decide (x.joined = r.joined)) with
  | some x => (removeRecord x acc.1, acc.2 + 1)
  | none => acc

/-- One register item that was pulled through, if it is still there and its entries are UNWOUND (R114). -/
def removePulledItem (acc : State × Nat) (it : RegisterItem) : State × Nat :=
  if acc.1.unwoundItem it.body.number then (removeFromRoll it.body.number acc.1, acc.2 + 1) else acc

/-! ## The repair splice (R71, R115) -/

/-- The REPAIR-SPLICE record at the table, W = P − s, SLIT with the lanes of the request and the ACTIVE plan's id; 0
when the queue is full. -/
def enterRepairSplice (first last : Nat) (s : State) : State × Nat :=
  if s.queue.full then (queueFull s, 0)
  else
    enterRecord .repairSplice 0 30000 0 ((s.p : Int) - s.geometry.s)
      (some { first := first, last := last, plan := planId s.plans.active }) s

/-! ## The end of a cut (R116) -/

/-- The four steps of R116: WINDING, one winding test, one delivery pass, one evaluation. -/
def endCut (s : State) : State := evaluate (deliverDue (windingTest (s.toJobState .winding)))

/-- The lane range and the list of a SPLICE-MADE (R108). -/
def spliceMadeInRange (laneTop first last : Nat) (records : List Nat) : Bool :=
  decide (1 ≤ first ∧ first ≤ laneTop ∧ first ≤ last ∧ last ≤ laneTop) && decide (records.length ≤ 4) &&
  records.all (fun n => decide (1 ≤ n ∧ n ≤ 65535))

/-- The steps of R108 for a SPLICE-MADE that passes its checks. -/
def makeSplice (popen first last : Nat) (records : List Nat) (s : State) : Taken :=
  let cut := s.p - popen
  let pulled := s.queue.records.filter (fun r => isPulledThrough popen s.p s.geometry.s r.body.web)
  let items := s.roll.register.filter (fun it => isPulledThrough popen s.p s.geometry.s it.body.web)
  let named := records.foldl removeNamed (cutShift popen cut s, 0)
  let gone := items.foldl removePulledItem (pulled.foldl removePulled (named.1, 0))
  let repair := enterRepairSplice first last gone.1
  (endCut repair.1, .done (fieldU 4 cut ++ fieldU 1 named.2 ++ fieldU 1 gone.2 ++ fieldU 2 repair.2))

/-- SPLICE-MADE at the job controller (R108). -/
def takeSpliceMade (first last : Nat) (records : List Nat) (s : State) : Taken :=
  match s.job.state with
  | .cutOpen popen =>
    let laneTop := ((s.roll.windingSet.map (fun r => r.lanes.length)).getD 0)
    if spliceMadeInRange laneTop first last records then makeSplice popen first last records s
    else s.refuse .outOfRange
  | _ => s.refuse .wrongState

/-- CUT-CANCEL at the job controller (R117). -/
def takeCutCancel (s : State) : Taken :=
  match s.job.state with
  | .cutOpen _ => (endCut s, .done [])
  | _ => s.refuse .wrongState

end Sys2Proof.Machine
end

