-- ==== Sys2Proof/Machine/Jobs.lean ====
section
/-! DEFINITION. Jobs and sets (Chapter 9): job start and end, set start and close, and the stop planner's requests that
depend on them (ADD-STOP, CANCEL-STOP, SET-TARGET). -/

namespace Sys2Proof.Machine

/-! ## JOB-START (R160 to R162) -/

/-- The target length of a request: absent, or present and in range; `none` when out of range (R161). -/
def jobTarget? (j : JobFields) : Option (Option Nat) :=
  match j.targetPresent with
  | 0 => some none
  | 1 => if 10000 ≤ j.target ∧ j.target ≤ 2000000000 then some (some j.target) else none
  | _ => none

/-- A signed offset within −10,000 to +10,000 (R118, R160). -/
def withinTenThousand (x : Int) : Bool := decide (-10000 ≤ x ∧ x ≤ 10000)

/-- The tracking settings with tracking on (R118). -/
def trackingInRange (j : JobFields) : Bool :=
  decide (500 ≤ j.expected ∧ j.expected ≤ 20000) && decide (5 ≤ j.window ∧ j.window ≤ j.expected / 4) &&
  decide (1 ≤ j.lossCount ∧ j.lossCount ≤ 15) && decide (j.stopOnLoss ≤ 1) && decide (j.align ≤ 1) &&
  withinTenThousand j.cutOffset

/-- The tracking settings a request carries, `none` when out of range; with tracking off the six others are held as
sent (R118). -/
def jobTracking? (j : JobFields) : Option TrackingSettings :=
  match onOff? j.tracking with
  | none => none
  | some on =>
    if on && !trackingInRange j then none
    else some { tracking := on, expected := j.expected, window := j.window, lossCount := j.lossCount,
                stopOnLoss := j.stopOnLoss, align := j.align, cutOffset := j.cutOffset }

/-- The ranges of the parameters that are plain numbers (R160, R161): job number, splice limit, stop-class set, stop
offset. -/
def jobNumbersInRange (j : JobFields) : Bool :=
  decide (1 ≤ j.job ∧ j.job ≤ 65535) && decide (j.spliceLimit ≤ 8) &&
  decide (j.classes < 65536) && !j.classes.testBit 0 && withinTenThousand j.stopOffset

/-- The job parameters a request carries, `none` when any is out of range (R161 step 2). -/
def jobParams? (j : JobFields) : Option JobParams :=
  match jobTarget? j, onOff? j.enforce, severity? j.severity, onOff? j.stopOnDefect, onOff? j.holdOnCritical with
  | some target, some enforce, some sev, some onDefect, some hold =>
    if jobNumbersInRange j then
      some { number := j.job, target := target, spliceLimit := j.spliceLimit, enforce := enforce, classes := j.classes,
             stopSeverity := sev, stopOnDefect := onDefect, stopOffset := j.stopOffset, holdOnCritical := hold }
    else none
  | _, _, _, _, _ => none

/-- The steps of R162. -/
def startJob (params : JobParams) (tracking : TrackingSettings) (s : State) : State :=
  let s1 := { s with
    job := { state := s.job.state, params := params, setCounter := 0 }
    length := s.length.startJob
    strobe := s.strobe.startJob
    motion := { s.motion with baseline := 0 }
    tracker := trackerAtJobStart tracking
    queue := s.queue.startJob }
  (emptyStops s1).toJobState .ready

/-- JOB-START at the job controller (R161, R162). -/
def takeJobStart (j : JobFields) (s : State) : Taken :=
  if s.job.state ≠ .noJob then s.refuse .wrongState
  else
    match jobParams? j, jobTracking? j with
    | some params, some tracking =>
      if s.plans.active.isNone && s.plans.staged.isNone then s.refuse .wrongState
      else if s.motion.standstill = false then s.refuse .notStandstill
      else (startJob params tracking s, .done (fieldU 2 params.number))
    | _, _ => s.refuse .outOfRange

/-! ## JOB-END (R163) -/

/-- The six flow counters as reply fields (13.3). -/
def flowFields (f : Flow) : List Byte :=
  fieldU 4 f.taken ++ fieldU 4 f.returned ++ fieldU 4 f.delivered ++ fieldU 4 f.trimmed ++ fieldU 4 f.removed ++
  fieldU 4 f.unmapped

/-- The steps of R163. -/
def endJob (s : State) : State :=
  let s1 := emptyStops (s.withQueue s.queue.endJob)
  (s1.withTracker s1.tracker.endJob).toJobState .noJob

/-- JOB-END at the job controller (R163). -/
def takeJobEnd (s : State) : Taken :=
  if s.job.state ≠ .ready then s.refuse .wrongState
  else (endJob s, .done (fieldU 2 s.job.params.number ++ flowFields (endJob s).queue.flow))

/-! ## SET-START (R164 to R166) -/

/-- The swap, with PLAN-ACTIVATED when a STAGED plan moved (R46). -/
def swapPlans (s : State) : State :=
  State.postIf s.plans.staged.isSome .planActivated { s with plans := s.plans.swap }

/-- The SET-END entry of a set (R132, R138). -/
def setEndOffer (s : State) (set start target : Nat) : StopOffer :=
  let web := setEndWeb s start target
  { kind := .setEnd, origin := .internal, ref := .set set, web := web, station := s.geometry.w,
    target := web + s.geometry.w }

/-- The SET-END entry placed at set start when the job has a target length (R138, R165 step 5). -/
def placeSetEnd (set start : Nat) (s : State) : State × Option Nat :=
  match s.job.params.target with
  | none => (s, none)
  | some target => offerStop (setEndOffer s set start target) s

/-- The steps of R165; the second part is the slot number and the SET-END entry id, or 0. -/
def startSet (s : State) : State × (Nat × Nat) :=
  let s1 := swapPlans s
  let slot := takeSlot s1
  let number := nextInCycle 9999 s.job.setCounter
  let s2 := slot.1.withJob { slot.1.job with setCounter := number }
  let s3 := { s2 with roll := s2.roll.setSlot slot.2 (.winding (newSetRecord number s.plans.active s2)) }
  let placed := placeSetEnd number s.p s3
  ((placed.1.toJobState .winding).post .setStarted, (slot.2, idOrZero placed.2))

/-- SET-START at the job controller (R165). -/
def takeSetStart (s : State) : Taken :=
  if s.job.state ≠ .ready then s.refuse .wrongState
  else if s.motion.standstill = false then s.refuse .notStandstill
  else
    let r := startSet s
    (r.1, .done (fieldU 2 s.job.params.number ++ fieldU 2 (nextInCycle 9999 s.job.setCounter) ++ fieldU 1 r.2.1 ++
      fieldU 2 (planId s.plans.swap.active) ++ fieldU 1 r.2.2))

/-! ## SET-CLOSE (R167) -/

/-- One record handed back, with the records handed back and those discarded counted (R97, R167). -/
def returnCounted (acc : State × (Nat × Nat)) (it : RegisterItem) : State × (Nat × Nat) :=
  (returnRecord acc.1 it, (acc.2.1 + 1, if acc.1.queue.full then acc.2.2 + 1 else acc.2.2))

/-- Steps 1 to 6 of R167 for the winding set in a slot, and SET-CLOSED; the second part is the number of records
returned and of those discarded. -/
def closeSet (slot : Nat) (set : SetRecord) (s : State) : State × (Nat × Nat) :=
  let s1 := s.mapWinding (SetRecord.close s.p)
  let back := (returnOrder s.roll.register set).foldl returnCounted (s1, (0, 0))
  let s3 := { back.1 with roll := back.1.roll.closeSlot slot (set.close s.p) }
  (((cancelSetStops set.number s3).toJobState .ready).post .setClosed, back.2)

/-- SET-CLOSE at the job controller (R167). The returned figure counts every record handed back, the discarded figure
those of them that found the queue full. -/
def takeSetClose (s : State) : Taken :=
  if s.job.state ≠ .winding then s.refuse .wrongState
  else if s.motion.standstill = false then s.refuse .notStandstill
  else
    match s.roll.windingNumber, s.roll.windingSet with
    | some slot, some set =>
      let r := closeSet slot set s
      (r.1, .done (fieldU 2 set.job ++ fieldU 2 set.number ++ fieldU 1 slot ++
        fieldU 4 (rollLength s.p set.start) ++ fieldU 2 r.2.1 ++ fieldU 2 r.2.2))
    | _, _ => s.refuse .wrongState

/-! ## Requests to the stop planner -/

/-- A LENGTH of ADD-STOP (R139). -/
def rollLengthInRange (length : Nat) : Bool := decide (1 ≤ length ∧ length ≤ 2000000000)

/-- The origin an OPERATOR entry takes from its port (R136, R179). ADD-STOP is not permitted on port I. -/
def originOf : Port → StopOrigin
  | .l => .portL
  | .i => .internal
  | .o => .portO

/-- The OPERATOR entry of the form NOW: target P (R139). -/
def nowOffer (p : Port) (s : State) : StopOffer :=
  { kind := .operator, origin := originOf p, ref := .nothing, web := s.p, station := 0, target := s.p }

/-- The OPERATOR entry of the form LENGTH: target setStart + length (R139). -/
def lengthOffer (p : Port) (length : Nat) (set : SetRecord) (s : State) : StopOffer :=
  { kind := .operator, origin := originOf p, ref := .set set.number, web := (set.start : Int) + length - s.geometry.w,
    station := s.geometry.w, target := (set.start : Int) + length }

/-- The reply to an offer from a station (R139). -/
def answerOffer (o : StopOffer) (s : State) : Taken :=
  match offerStop o s with
  | (s', some id) => (s', .done (fieldU 1 id ++ fieldS 5 o.target))
  | (s', none) => (s', .refused .listFull)

/-- ADD-STOP at the stop planner: form 0 NOW, 1 LENGTH (R139). -/
def takeAddStop (p : Port) (form length : Nat) (s : State) : Taken :=
  match form with
  | 0 => answerOffer (nowOffer p s) s
  | 1 =>
    if rollLengthInRange length = false then s.refuse .outOfRange
    else
      match s.roll.windingSet with
      | none => s.refuse .wrongState
      | some set => answerOffer (lengthOffer p length set s) s
  | _ => s.refuse .outOfRange

/-- CANCEL-STOP at the stop planner (R152). -/
def takeCancelStop (p : Port) (id : Nat) (s : State) : Taken :=
  if id < 1 ∨ 255 < id then s.refuse .outOfRange
  else
    match s.stops.entries.find? (fun e => decide (e.id = id)) with
    | none => s.refuse .notFound
    | some e =>
      if p = .o ∧ e.origin ≠ .portO then s.refuse .notPermitted
      else (evaluate (removeStop e s), .done [])

/-- A full list has no WAITING entry below the priority of SET-END (R153). -/
def setEndHasNoRoom (pl : StopPlanner) : Bool :=
  decide (16 ≤ pl.entries.length) && (victimOf StopKind.setEnd.priority pl.entries).isNone

/-- The job's and the winding set's target length become L (R153 step 1). -/
def State.withTarget (s : State) (length : Nat) : State :=
  State.mapWinding (fun r => { r with target := some length })
    (s.withJob { s.job with params := { s.job.params with target := some length } })

/-- SET-TARGET at the stop planner (R153). Where it inserts a SET-END entry, the evaluation of the insertion (R140 step 4)
is also that of R153 step 4: the planner evaluates once (log entry 34). -/
def takeSetTarget (length : Nat) (s : State) : Taken :=
  match s.job.state, s.roll.windingSet with
  | .winding, some set =>
    if length < 10000 ∨ 2000000000 < length then s.refuse .outOfRange
    else
      let s1 := s.withTarget length
      let o := setEndOffer s1 set.number set.start length
      match s.stops.setEnd with
      | some e =>
        if e.active then s.refuse .stopActive
        else (retargetStop e o.web o.target s1, .done (fieldU 1 e.id ++ fieldS 5 o.target))
      | none =>
        if setEndHasNoRoom s.stops then s.refuse .listFull else answerOffer o s1
  | _, _ => s.refuse .wrongState

end Sys2Proof.Machine
end

