-- ==== Sys2Proof/Machine/Replies.lean ====
section
/-! DEFINITION. The reads: READ-STATUS, READ-SET, READ-LANE, READ-QUEUE, READ-STOPS, READ-COUNTERS and READ-EVENTS, with
the byte layouts of Chapter 13, and the requests to the alert controller. -/

namespace Sys2Proof.Machine

/-! ## READ-STATUS (R180, 13.5) -/

/-- A flag as a bit of a flag byte (13.1). -/
def flagBit (n : Nat) (b : Bool) : Nat := if b then 2 ^ n else 0

/-- The job state code (13.5). -/
def JobState.code : JobState → Nat
  | .noJob => 0
  | .ready => 1
  | .winding => 2
  | .cutOpen _ => 3

/-- The tracker state code (13.5). -/
def TrackerState.code : TrackerState → Nat
  | .unlocked => 0
  | .locked _ => 1
  | .lost _ => 2

/-- The flags of 13.5, offset 10. -/
def statusFlags (s : State) : Nat :=
  flagBit 0 (decide (s.motion.direction = .reverse)) + flagBit 1 s.motion.standstill + flagBit 2 s.stopAsserted +
  flagBit 3 (decide (s.length.active = .b)) + flagBit 4 s.length.a.silent + flagBit 5 s.length.b.silent

/-- The head's id and state code: 0 none, 1 WAITING, 2 ACTIVE (13.5). -/
def headFields (pl : StopPlanner) : List Byte :=
  match pl.head with
  | none => fieldU 1 0 ++ fieldU 1 0
  | some e => fieldU 1 e.id ++ fieldU 1 (if e.active then 2 else 1)

/-- The roll length of the winding set, 0 when no slot is WINDING (R93, R180). -/
def State.rollLengthRead (s : State) : Nat :=
  match s.roll.windingSet with
  | none => 0
  | some r => rollLength s.p r.start

/-- The READ-STATUS payload (13.5). -/
def statusPayload (s : State) : List Byte :=
  fieldU 4 s.p ++ fieldU 2 s.motion.speed ++ fieldU 4 s.motion.braking ++ fieldU 1 (statusFlags s) ++
  fieldU 1 s.motion.report.code ++ fieldU 1 s.job.state.code ++ fieldU 2 s.job.params.number ++
  fieldU 2 s.job.setCounter ++ fieldU 4 s.rollLengthRead ++ fieldU 2 (planId s.plans.active) ++
  fieldU 2 (planId s.plans.staged) ++ fieldU 1 s.tracker.state.code ++ fieldU 1 s.stops.entries.length ++
  headFields s.stops

/-- READ-STATUS at the station ports (R180). -/
def takeReadStatus (s : State) : Taken := (s, .done (statusPayload s))

/-! ## READ-SET (R101, R197, 13.6) -/

/-- The status and hold cause codes of a lane (13.6). -/
def laneStatusFields : LaneStatus → List Byte
  | .good => fieldU 1 0 ++ fieldU 1 0
  | .hold none => fieldU 1 1 ++ fieldU 1 0
  | .hold (some .spliceLimit) => fieldU 1 1 ++ fieldU 1 1
  | .hold (some .critical) => fieldU 1 1 ++ fieldU 1 2
  | .reject => fieldU 1 2 ++ fieldU 1 0

/-- One lane record of a READ-SET reply, 12 bytes (13.6). -/
def laneFields (lane : LaneRecord) : List Byte :=
  fieldU 2 lane.width ++ laneStatusFields lane.status ++ fieldU 1 lane.defects.length ++ fieldU 2 lane.defectOverflow ++
  fieldU 1 lane.splices.length ++ fieldU 2 lane.spliceOverflow ++ fieldU 2 lane.edits

/-- The roll length of a WINDING set, the closed length otherwise (13.6). -/
def setLengthRead (p : Nat) (x : Slot) (r : SetRecord) : Nat :=
  match x with
  | .winding _ => rollLength p r.start
  | _ => r.closedLength.getD 0

/-- The marks of 13.6, offset 22. -/
def setMarks (x : Slot) (r : SetRecord) : Nat :=
  flagBit 0 (match x with | .released _ => true | _ => false) + flagBit 1 r.mapIncomplete +
  flagBit 2 r.lengthFallback + flagBit 3 r.mixed.isSome

/-- The lane records a reply returns: at most 12 from the first lane on (R197). -/
def lanesFrom (first : Nat) (r : SetRecord) : List LaneRecord := (r.lanes.drop (first - 1)).take 12

/-- The READ-SET payload (13.6). -/
def setPayload (p : Nat) (m : RollMap) (n : Nat) (x : Slot) (r : SetRecord) (first : Nat) : List Byte :=
  fieldU 1 n ++ fieldU 1 x.code ++ fieldU 1 (m.closeOrder n) ++ fieldU 2 r.job ++ fieldU 2 r.number ++ fieldU 2 r.plan ++
  fieldU 1 r.lanes.length ++ fieldU 4 r.start ++ fieldU 4 (r.target.getD 0) ++ fieldU 4 (setLengthRead p x r) ++
  fieldU 1 (setMarks x r) ++ fieldU 4 (r.mixed.getD 0) ++ fieldU 2 r.trimTally ++ fieldU 2 r.unplacedTally ++
  fieldU 2 r.removedTally ++ fieldU 2 r.repeatTally ++ fieldU 2 r.markFaultTally ++ fieldU 2 r.unwoundCount ++
  fieldU 1 first ++ fieldU 1 (lanesFrom first r).length ++ (lanesFrom first r).flatMap laneFields

/-- READ-SET at the roll map: the set is sought first, then the first lane is judged (R101, R197). -/
def takeReadSet (job set first : Nat) (s : State) : Taken :=
  match s.roll.find job set with
  | .error st => s.refuse st
  | .ok n =>
    match (s.roll.slot n).record? with
    | none => s.refuse .notFound
    | some r =>
      if first = 0 ∨ r.lanes.length < first then s.refuse .outOfRange
      else (s, .done (setPayload s.p s.roll n (s.roll.slot n) r first))

/-! ## READ-LANE (R102, 13.7) -/

/-- A defect entry, 16 bytes (13.7). -/
def defectFieldsOf (e : DefectEntry) : List Byte :=
  fieldU 2 e.record ++ fieldU 2 e.tag ++ fieldU 1 e.cls ++ fieldU 1 e.severity.rank ++ fieldU 2 e.length ++
  fieldS 5 e.position ++ fieldU 2 e.offset ++ fieldU 1 (flagBit 0 e.oldPlan + flagBit 1 (!e.wound))

/-- A splice entry, 9 bytes (13.7). Its old-plan flag is returned with it (R52), in bit 0 of the flags byte, where 13.7 has the
flag in a defect entry. DESIGN CHOICE, unsafe (log entry 30): the splice column of 13.7 names only bit 1. -/
def spliceFieldsOf (e : SpliceEntry) : List Byte :=
  fieldU 2 e.record ++ fieldU 1 (match e.kind with | .sensed => 0 | .repair => 1) ++ fieldS 5 e.position ++
  fieldU 1 (flagBit 0 e.oldPlan + flagBit 1 (!e.wound))

/-- One page of a list: at most `top` items from an index on. -/
def page {α : Type} (top start : Nat) (l : List α) : List α := (l.drop start).take top

/-- The payload of a READ-LANE page: edit count, list code, entries in the reply, entries remaining, entries (13.7). -/
def lanePage {α : Type} (lane : LaneRecord) (code start : Nat) (l : List α) (f : α → List Byte) : List Byte :=
  fieldU 2 lane.edits ++ fieldU 1 code ++ fieldU 1 (page 10 start l).length ++
  fieldU 1 (l.length - start - (page 10 start l).length) ++ (page 10 start l).flatMap f

/-- READ-LANE at the roll map: list 0 DEFECT, 1 SPLICE (R102). -/
def takeReadLane (job set lane list start : Nat) (s : State) : Taken :=
  if 1 < list then s.refuse .outOfRange
  else
    match s.roll.find job set with
    | .error st => s.refuse st
    | .ok n =>
      match (s.roll.slot n).record? with
      | none => s.refuse .notFound
      | some r =>
        match (if lane = 0 then none else r.lanes[lane - 1]?) with
        | none => s.refuse .outOfRange
        | some x =>
          if list = 0 then
            if x.defects.length < start then s.refuse .outOfRange
            else (s, .done (lanePage x 0 start x.defects defectFieldsOf))
          else if x.splices.length < start then s.refuse .outOfRange
          else (s, .done (lanePage x 1 start x.splices spliceFieldsOf))

/-! ## READ-QUEUE (R181, 13.9) -/

/-- The kind code of a record with its tag, class and severity, sent as 0 for a splice (13.9). -/
def kindFields : RecordKind → List Byte
  | .defect tag cls sev => fieldU 1 0 ++ fieldU 2 tag ++ fieldU 1 cls ++ fieldU 1 sev.rank
  | .sensedSplice => fieldU 1 1 ++ fieldU 2 0 ++ fieldU 1 0 ++ fieldU 1 0
  | .repairSplice => fieldU 1 2 ++ fieldU 2 0 ++ fieldU 1 0 ++ fieldU 1 0

/-- State, lanes and plan id, the latter sent as 0 for an UPSTREAM record (13.9). -/
def slitFields : Option LaneRange → List Byte
  | none => fieldU 1 0 ++ fieldU 1 0 ++ fieldU 1 0 ++ fieldU 2 0
  | some r => fieldU 1 1 ++ fieldU 1 r.first ++ fieldU 1 r.last ++ fieldU 2 r.plan

/-- A path record, 24 bytes (13.9). -/
def recordFields (r : PathRecord) : List Byte :=
  fieldU 2 r.body.number ++ kindFields r.body.kind ++ fieldU 2 r.body.xs ++ fieldU 2 r.body.xe ++ fieldU 2 r.body.length ++
  fieldS 5 r.body.web ++ slitFields r.slit ++ fieldU 1 (idOrZero r.stopId)

/-- The READ-QUEUE payload (13.9). -/
def queuePayload (q : PathQueue) (start : Nat) : List Byte :=
  fieldU 1 q.records.length ++ fieldU 2 q.changes ++ fieldU 1 (page 6 start q.records).length ++
  fieldU 1 (q.records.length - start - (page 6 start q.records).length) ++ (page 6 start q.records).flatMap recordFields

/-- READ-QUEUE at the path queue (R181). -/
def takeReadQueue (start : Nat) (s : State) : Taken :=
  if s.queue.records.length < start then s.refuse .outOfRange else (s, .done (queuePayload s.queue start))

/-! ## READ-STOPS (R182, 13.8) -/

def StopKind.code : StopKind → Nat
  | .operator => 0
  | .setEnd => 1
  | .spliceLimit => 2
  | .markLost => 3
  | .defect => 4

def StopOrigin.code : StopOrigin → Nat
  | .internal => 0
  | .portL => 1
  | .portO => 2

def StopOutcome.code : StopOutcome → Nat
  | .onTarget => 0
  | .short => 1
  | .over => 2

/-- The number a reference is sent as, 0 for none (13.8). -/
def StopRef.number : StopRef → Nat
  | .nothing => 0
  | .record n => n
  | .set n => n

/-- The last stop record with its presence byte; all 0 when absent (13.8, offsets 5 to 28). -/
def lastStopFields : Option LastStop → List Byte
  | none => List.replicate 24 0
  | some r =>
    fieldU 1 1 ++ fieldU 1 r.id ++ fieldU 1 r.kind.code ++ fieldS 5 r.target ++ fieldU 4 r.p ++ fieldS 5 r.error ++
    fieldU 1 r.outcome.code ++ fieldU 1 (flagCode r.late) ++ fieldS 5 r.shortfall

/-- A stop entry, 31 bytes; of the insertion number the low 32 bits are sent (13.8). -/
def stopFields (headId : Option Nat) (e : StopEntry) : List Byte :=
  fieldU 1 e.id ++ fieldU 1 e.kind.code ++ fieldU 1 e.kind.priority ++ fieldU 1 e.origin.code ++ fieldU 2 e.ref.number ++
  fieldS 5 e.web ++ fieldS 4 e.station ++ fieldS 5 e.target ++ fieldU 4 (e.insertion % 4294967296) ++
  fieldU 1 (flagCode e.active) ++
  fieldU 1 (flagBit 0 (decide (headId = some e.id)) + flagBit 1 e.late + flagBit 2 e.overrun) ++ fieldS 5 e.shortfall

/-- The READ-STOPS payload (13.8). -/
def stopsPayload (pl : StopPlanner) (start : Nat) : List Byte :=
  fieldU 1 pl.entries.length ++ fieldU 2 pl.changes ++ fieldU 1 (page 5 start pl.entries).length ++
  fieldU 1 (pl.entries.length - start - (page 5 start pl.entries).length) ++ lastStopFields pl.lastStop ++
  (page 5 start pl.entries).flatMap (stopFields (pl.head.map (·.id)))

/-- READ-STOPS at the stop planner (R182). -/
def takeReadStops (start : Nat) (s : State) : Taken :=
  if s.stops.entries.length < start then s.refuse .outOfRange else (s, .done (stopsPayload s.stops start))

/-! ## READ-COUNTERS (R183, 13.3) -/

/-- The READ-COUNTERS payload, in the order of R183 (13.3). -/
def countersPayload (s : State) : List Byte :=
  flowFields s.queue.flow ++ fieldU 1 s.queue.records.length ++ fieldU 2 s.inputs.encA.glitches ++
  fieldU 2 s.inputs.encB.glitches ++ fieldU 2 s.length.slipCount ++ fieldS 4 s.length.lastDeviation ++
  fieldU 2 s.roll.mapsLost ++ fieldU 2 s.tracker.good ++ fieldU 2 s.tracker.extra ++ fieldU 2 s.tracker.rescanned ++
  fieldU 2 s.tracker.missed ++ fieldU 2 s.tracker.losses ++ fieldU 2 s.tracker.state.repeatRead ++
  fieldU 1 s.tracker.state.missed ++ fieldU 2 s.ports.l.discarded ++ fieldU 2 s.ports.i.discarded ++
  fieldU 2 s.ports.o.discarded

/-- READ-COUNTERS at the station ports (R183). -/
def takeReadCounters (s : State) : Taken := (s, .done (countersPayload s))

/-! ## The alert controller's requests (R188 to R190) -/

/-- The enable set as a word with bit n set for event code n (13.3). -/
def enableWord (l : List EventKind) : Nat := (l.map (fun k => 2 ^ k.code)).sum

/-- The READ-EVENTS payload (13.3). -/
def eventsPayload (st : Station) : List Byte :=
  fieldU 1 (flagCode st.master) ++ fieldU 1 (flagCode st.line) ++ fieldU 4 (enableWord st.enabled) ++
  fieldU 1 st.pending.length ++ st.pending.flatMap (fun e => fieldU 1 e.1.code ++ fieldU 1 e.2)

/-- READ-EVENTS at the alert controller (R189). -/
def takeReadEvents (p : Port) (s : State) : Taken := (s, .done (eventsPayload (s.alerts.get p)))

/-- The kinds of a list of codes, `none` when the list is longer than 24 or holds a code outside the 24 (R188, R190,
R196). -/
def namedKinds? (codes : List Nat) : Option (List EventKind) :=
  if 24 < codes.length then none else codes.mapM EventKind.ofCode

/-- The pending set without the kinds named, and the line decided anew (R190). -/
def Station.acknowledge (kinds : List EventKind) (st : Station) : Station :=
  Station.decideLine { st with pending := st.pending.filter (fun e => decide (e.1 ∉ kinds)) }

/-- ACK-EVENTS at the alert controller (R190). -/
def takeAckEvents (p : Port) (codes : List Nat) (s : State) : Taken :=
  match namedKinds? codes with
  | none => s.refuse .outOfRange
  | some kinds => ({ s with alerts := s.alerts.set p ((s.alerts.get p).acknowledge kinds) }, .done [])

/-- Master enable and enable set replaced, urgent kinds left out, the line decided anew (R188). -/
def Station.enable (master : Bool) (kinds : List EventKind) (st : Station) : Station :=
  Station.decideLine
    { st with master := master, enabled := EventKind.all.filter (fun k => !k.urgent && decide (k ∈ kinds)) }

/-- SET-ALERTS at the alert controller (R188). -/
def takeSetAlerts (p : Port) (master : Nat) (codes : List Nat) (s : State) : Taken :=
  match onOff? master, namedKinds? codes with
  | some on, some kinds => ({ s with alerts := s.alerts.set p ((s.alerts.get p).enable on kinds) }, .done [])
  | _, _ => s.refuse .outOfRange

end Sys2Proof.Machine
end

