-- ==== Sys2Proof/WellFormed.lean ====
section
/-! DEFINITION. Which commands can reach the part: every field of a request fits the width that Chapter 13 gives
it, every counted list fits a payload of 200 bytes, and a void transaction does not begin with SEND or FETCH. -/

namespace Sys2Proof

/-- An unsigned field of `n` bytes (13.1). -/
abbrev fitsU (n v : Nat) : Prop := v < 256 ^ n

/-- A signed field of `n` bytes, two's complement (13.1). -/
abbrev fitsS (n : Nat) (v : Int) : Prop := -(256 ^ n : Int) ≤ 2 * v ∧ 2 * v < (256 ^ n : Int)

abbrev Geometry.WellFormed (g : Geometry) : Prop :=
  fitsS 4 g.c ∧ fitsS 4 g.e ∧ fitsS 4 g.m ∧ fitsS 4 g.k ∧ fitsS 4 g.s ∧ fitsS 4 g.w

abbrev CalibrationFields.WellFormed (f : CalibrationFields) : Prop :=
  fitsU 4 f.circumference ∧ fitsU 4 f.counts ∧ fitsU 1 f.filter

abbrev MotionFields.WellFormed (m : MotionFields) : Prop :=
  fitsU 1 m.gate ∧ fitsU 2 m.decel ∧ fitsU 2 m.reaction ∧ fitsU 2 m.tolerance ∧ fitsU 4 m.overrun ∧
  fitsU 2 m.timeout ∧ fitsU 4 m.silence ∧ fitsU 4 m.check ∧ fitsU 2 m.slip

abbrev DefectFields.WellFormed (d : DefectFields) : Prop :=
  fitsU 2 d.tag ∧ fitsU 1 d.cls ∧ fitsU 1 d.severity ∧ fitsU 2 d.xs ∧ fitsU 2 d.xe ∧ fitsU 2 d.length ∧
  fitsU 2 d.age

abbrev JobFields.WellFormed (j : JobFields) : Prop :=
  fitsU 2 j.job ∧ fitsU 1 j.targetPresent ∧ fitsU 4 j.target ∧ fitsU 1 j.spliceLimit ∧ fitsU 1 j.enforce ∧
  fitsU 2 j.classes ∧ fitsU 1 j.severity ∧ fitsU 1 j.stopOnDefect ∧ fitsS 4 j.stopOffset ∧
  fitsU 1 j.holdOnCritical ∧ fitsU 1 j.tracking ∧ fitsU 2 j.expected ∧ fitsU 2 j.window ∧ fitsU 1 j.lossCount ∧
  fitsU 1 j.stopOnLoss ∧ fitsU 1 j.align ∧ fitsS 4 j.cutOffset

/-- The transaction bytes SEND and FETCH (13.2). -/
abbrev sendByte : Byte := 0xA5
abbrev fetchByte : Byte := 0x3C

/-- The command can come from the pins and ports as Chapter 13 lays them out. -/
def Instr.WellFormed : Instr → Prop
  | .reset | .resetRelease | .endOfWarmUp _ | .interval | .gateClose | .noMotion => True
  | .count _ _ | .illegalTransition _ | .markArrival | .spliceArrival | .strobePulse | .strobePulseEnd => True
  | .send _ _ _ | .fetch _ _ => True
  | .voidTransaction _ first clocked =>
    first ≠ some sendByte ∧ first ≠ some fetchByte ∧ (first = none → clocked = 0)
  | .setGeometry _ g => g.WellFormed
  | .setCalibration _ fa fb => fa.WellFormed ∧ fb.WellFormed
  | .setSensors _ mf me sf se => fitsU 1 mf ∧ fitsU 1 me ∧ fitsU 1 sf ∧ fitsU 1 se
  | .setTrim _ enc t => fitsU 1 enc ∧ fitsS 4 t
  | .selectSource _ src => fitsU 1 src
  | .setStrobe _ q => fitsU 2 q
  | .setMotion _ m => m.WellFormed
  | .lineState _ r => fitsU 1 r
  | .loadPlan _ plan knives => fitsU 2 plan ∧ knives.length ≤ 98 ∧ ∀ x ∈ knives, fitsU 2 x
  | .defect _ d => d.WellFormed
  | .laneStatus _ job set lane status => fitsU 2 job ∧ fitsU 2 set ∧ fitsU 1 lane ∧ fitsU 1 status
  | .releaseSet _ job set => fitsU 2 job ∧ fitsU 2 set
  | .readSet _ job set first => fitsU 2 job ∧ fitsU 2 set ∧ fitsU 1 first
  | .readLane _ job set lane list start =>
    fitsU 2 job ∧ fitsU 2 set ∧ fitsU 1 lane ∧ fitsU 1 list ∧ fitsU 1 start
  | .cutOpen _ | .cutCancel _ | .jobEnd _ | .setStart _ | .setClose _ => True
  | .readStatus _ | .readCounters _ | .readEvents _ => True
  | .spliceMade _ first last nums =>
    fitsU 1 first ∧ fitsU 1 last ∧ nums.length ≤ 98 ∧ ∀ x ∈ nums, fitsU 2 x
  | .addStop _ form length => fitsU 1 form ∧ fitsU 4 length
  | .cancelStop _ entry => fitsU 1 entry
  | .setTarget _ length => fitsU 4 length
  | .readStops _ start | .readQueue _ start => fitsU 1 start
  | .jobStart _ j => j.WellFormed
  | .ackEvents _ kinds => kinds.length ≤ 199 ∧ ∀ x ∈ kinds, fitsU 1 x
  | .setAlerts _ master kinds => fitsU 1 master ∧ kinds.length ≤ 198 ∧ ∀ x ∈ kinds, fitsU 1 x

end Sys2Proof
end

