-- ==== Sys2Proof/Machine/Frames.lean ====
section
/-! DEFINITION. Request kinds and request frames (10.3, 10.4, Chapter 13): codes, permissions, the reading of a payload
into a command, and the frame that a command travels in. -/

namespace Sys2Proof.Machine

/-- The thirty-one request kinds, in the order of 13.3. -/
inductive Kind where
  | setGeometry
  | setCalibration
  | setSensors
  | setTrim
  | selectSource
  | setStrobe
  | setMotion
  | lineState
  | loadPlan
  | defect
  | laneStatus
  | releaseSet
  | readSet
  | readLane
  | cutOpen
  | spliceMade
  | cutCancel
  | addStop
  | cancelStop
  | setTarget
  | readStops
  | jobStart
  | jobEnd
  | setStart
  | setClose
  | readStatus
  | readQueue
  | readCounters
  | readEvents
  | ackEvents
  | setAlerts
  deriving DecidableEq, Repr

/-- The kinds in the order of 13.3. -/
def Kind.all : List Kind :=
  [.setGeometry, .setCalibration, .setSensors, .setTrim, .selectSource, .setStrobe, .setMotion, .lineState, .loadPlan,
   .defect, .laneStatus, .releaseSet, .readSet, .readLane, .cutOpen, .spliceMade, .cutCancel, .addStop, .cancelStop,
   .setTarget, .readStops, .jobStart, .jobEnd, .setStart, .setClose, .readStatus, .readQueue, .readCounters, .readEvents,
   .ackEvents, .setAlerts]

/-- The kind codes 01h to 1Fh (13.3). -/
def Kind.code (k : Kind) : Nat := Kind.all.idxOf k + 1

/-- The kind byte of a frame. -/
def Kind.byte (k : Kind) : Byte := BitVec.ofNat 8 k.code

/-- The kind of a kind byte, if it is one of 13.3. -/
def Kind.ofByte (b : Byte) : Option Kind := if b = 0 then none else Kind.all[b.toNat - 1]?

/-- The permissions by port (R179). -/
def Kind.permitted : Kind → Port → Bool
  | .setGeometry, p | .setCalibration, p | .setSensors, p | .setMotion, p | .loadPlan, p => decide (p = .l)
  | .jobStart, p | .jobEnd, p | .lineState, p | .selectSource, p | .releaseSet, p => decide (p = .l)
  | .setTrim, p | .setStart, p | .setClose, p | .setTarget, p | .addStop, p | .cancelStop, p => decide (p ≠ .i)
  | .defect, p | .setStrobe, p => decide (p = .i)
  | .cutOpen, p | .spliceMade, p | .cutCancel, p | .laneStatus, p => decide (p = .o)
  | .readStatus, _ | .readSet, _ | .readLane, _ | .readQueue, _ | .readStops, _ => true
  | .readCounters, _ | .readEvents, _ | .ackEvents, _ | .setAlerts, _ => true

/-! ## Reading a payload (13.3, 13.4) -/

/-- The command when the payload has the length its layout gives. -/
def whenLength (bs : List Byte) (n : Nat) (i : Instr) : Option Instr := if bs.length = n then some i else none

/-- The command when the payload is a fixed part with a count byte at its end and that many items of `width` bytes. -/
def whenCounted (bs : List Byte) (fixed width : Nat) (f : List Nat → Instr) : Option Instr :=
  if bs.length < fixed then none
  else if bs.length = fixed + width * readU bs (fixed - 1) 1 then
    some (f (readList bs fixed width (readU bs (fixed - 1) 1)))
  else none

/-- A calibration of one encoder at an offset (R8, 13.3). -/
def readCalibration (bs : List Byte) (off : Nat) : CalibrationFields :=
  { circumference := readU bs off 4, counts := readU bs (off + 4) 4, filter := readU bs (off + 8) 1 }

def readGeometry (bs : List Byte) : Geometry :=
  { c := readS bs 0 4, e := readS bs 4 4, m := readS bs 8 4, k := readS bs 12 4, s := readS bs 16 4,
    w := readS bs 20 4 }

def readMotion (bs : List Byte) : MotionFields :=
  { gate := readU bs 0 1, decel := readU bs 1 2, reaction := readU bs 3 2, tolerance := readU bs 5 2,
    overrun := readU bs 7 4, timeout := readU bs 11 2, silence := readU bs 13 4, check := readU bs 17 4,
    slip := readU bs 21 2 }

def readDefect (bs : List Byte) : DefectFields :=
  { tag := readU bs 0 2, cls := readU bs 2 1, severity := readU bs 3 1, xs := readU bs 4 2, xe := readU bs 6 2,
    length := readU bs 8 2, age := readU bs 10 2 }

def readJob (bs : List Byte) : JobFields :=
  { job := readU bs 0 2, targetPresent := readU bs 2 1, target := readU bs 3 4, spliceLimit := readU bs 7 1,
    enforce := readU bs 8 1, classes := readU bs 9 2, severity := readU bs 11 1, stopOnDefect := readU bs 12 1,
    stopOffset := readS bs 13 4, holdOnCritical := readU bs 17 1, tracking := readU bs 18 1,
    expected := readU bs 19 2, window := readU bs 21 2, lossCount := readU bs 23 1, stopOnLoss := readU bs 24 1,
    align := readU bs 25 1, cutOffset := readS bs 26 4 }

/-- The command a payload of a kind spells on a port; `none` when its length is not one the layout gives (R174, R196). -/
def readRequest (p : Port) (k : Kind) (bs : List Byte) : Option Instr :=
  match k with
  | .setGeometry => whenLength bs 24 (.setGeometry p (readGeometry bs))
  | .setCalibration => whenLength bs 18 (.setCalibration p (readCalibration bs 0) (readCalibration bs 9))
  | .setSensors => whenLength bs 4 (.setSensors p (readU bs 0 1) (readU bs 1 1) (readU bs 2 1) (readU bs 3 1))
  | .setTrim => whenLength bs 5 (.setTrim p (readU bs 0 1) (readS bs 1 4))
  | .selectSource => whenLength bs 1 (.selectSource p (readU bs 0 1))
  | .setStrobe => whenLength bs 2 (.setStrobe p (readU bs 0 2))
  | .setMotion => whenLength bs 23 (.setMotion p (readMotion bs))
  | .lineState => whenLength bs 1 (.lineState p (readU bs 0 1))
  | .loadPlan => whenCounted bs 3 2 (.loadPlan p (readU bs 0 2))
  | .defect => whenLength bs 12 (.defect p (readDefect bs))
  | .laneStatus => whenLength bs 6 (.laneStatus p (readU bs 0 2) (readU bs 2 2) (readU bs 4 1) (readU bs 5 1))
  | .releaseSet => whenLength bs 4 (.releaseSet p (readU bs 0 2) (readU bs 2 2))
  | .readSet => whenLength bs 5 (.readSet p (readU bs 0 2) (readU bs 2 2) (readU bs 4 1))
  | .readLane =>
    whenLength bs 7 (.readLane p (readU bs 0 2) (readU bs 2 2) (readU bs 4 1) (readU bs 5 1) (readU bs 6 1))
  | .cutOpen => whenLength bs 0 (.cutOpen p)
  | .spliceMade => whenCounted bs 3 2 (.spliceMade p (readU bs 0 1) (readU bs 1 1))
  | .cutCancel => whenLength bs 0 (.cutCancel p)
  | .addStop => whenLength bs 5 (.addStop p (readU bs 0 1) (readU bs 1 4))
  | .cancelStop => whenLength bs 1 (.cancelStop p (readU bs 0 1))
  | .setTarget => whenLength bs 4 (.setTarget p (readU bs 0 4))
  | .readStops => whenLength bs 1 (.readStops p (readU bs 0 1))
  | .jobStart => whenLength bs 30 (.jobStart p (readJob bs))
  | .jobEnd => whenLength bs 0 (.jobEnd p)
  | .setStart => whenLength bs 0 (.setStart p)
  | .setClose => whenLength bs 0 (.setClose p)
  | .readStatus => whenLength bs 0 (.readStatus p)
  | .readQueue => whenLength bs 1 (.readQueue p (readU bs 0 1))
  | .readCounters => whenLength bs 0 (.readCounters p)
  | .readEvents => whenLength bs 0 (.readEvents p)
  | .ackEvents => whenCounted bs 1 1 (.ackEvents p)
  | .setAlerts => whenCounted bs 2 1 (.setAlerts p (readU bs 0 1))

/-! ## The frame of a command -/

/-- A signed request field of `n` bytes, two's complement (13.1). -/
def signedBytes (n : Nat) (v : Int) : List Byte := bytesOf n (v % (256 ^ n : Int)).toNat

def calibrationBytes (f : CalibrationFields) : List Byte :=
  bytesOf 4 f.circumference ++ bytesOf 4 f.counts ++ bytesOf 1 f.filter

def geometryBytes (g : Geometry) : List Byte :=
  signedBytes 4 g.c ++ signedBytes 4 g.e ++ signedBytes 4 g.m ++ signedBytes 4 g.k ++ signedBytes 4 g.s ++
  signedBytes 4 g.w

def motionBytes (m : MotionFields) : List Byte :=
  bytesOf 1 m.gate ++ bytesOf 2 m.decel ++ bytesOf 2 m.reaction ++ bytesOf 2 m.tolerance ++ bytesOf 4 m.overrun ++
  bytesOf 2 m.timeout ++ bytesOf 4 m.silence ++ bytesOf 4 m.check ++ bytesOf 2 m.slip

def defectBytes (d : DefectFields) : List Byte :=
  bytesOf 2 d.tag ++ bytesOf 1 d.cls ++ bytesOf 1 d.severity ++ bytesOf 2 d.xs ++ bytesOf 2 d.xe ++ bytesOf 2 d.length ++
  bytesOf 2 d.age

def jobBytes (j : JobFields) : List Byte :=
  bytesOf 2 j.job ++ bytesOf 1 j.targetPresent ++ bytesOf 4 j.target ++ bytesOf 1 j.spliceLimit ++ bytesOf 1 j.enforce ++
  bytesOf 2 j.classes ++ bytesOf 1 j.severity ++ bytesOf 1 j.stopOnDefect ++ signedBytes 4 j.stopOffset ++
  bytesOf 1 j.holdOnCritical ++ bytesOf 1 j.tracking ++ bytesOf 2 j.expected ++ bytesOf 2 j.window ++
  bytesOf 1 j.lossCount ++ bytesOf 1 j.stopOnLoss ++ bytesOf 1 j.align ++ signedBytes 4 j.cutOffset

/-- A count byte and its items (13.3). -/
def countedBytes (width : Nat) (l : List Nat) : List Byte := bytesOf 1 l.length ++ l.flatMap (bytesOf width)

/-- A request command's port, kind and payload; `none` for a command that is no request. -/
def requestParts : Instr → Option (Port × Kind × List Byte)
  | .setGeometry p g => some (p, .setGeometry, geometryBytes g)
  | .setCalibration p fa fb => some (p, .setCalibration, calibrationBytes fa ++ calibrationBytes fb)
  | .setSensors p mf me sf se =>
    some (p, .setSensors, bytesOf 1 mf ++ bytesOf 1 me ++ bytesOf 1 sf ++ bytesOf 1 se)
  | .setTrim p enc t => some (p, .setTrim, bytesOf 1 enc ++ signedBytes 4 t)
  | .selectSource p x => some (p, .selectSource, bytesOf 1 x)
  | .setStrobe p q => some (p, .setStrobe, bytesOf 2 q)
  | .setMotion p m => some (p, .setMotion, motionBytes m)
  | .lineState p x => some (p, .lineState, bytesOf 1 x)
  | .loadPlan p plan knives => some (p, .loadPlan, bytesOf 2 plan ++ countedBytes 2 knives)
  | .defect p d => some (p, .defect, defectBytes d)
  | .laneStatus p job set lane st =>
    some (p, .laneStatus, bytesOf 2 job ++ bytesOf 2 set ++ bytesOf 1 lane ++ bytesOf 1 st)
  | .releaseSet p job set => some (p, .releaseSet, bytesOf 2 job ++ bytesOf 2 set)
  | .readSet p job set first => some (p, .readSet, bytesOf 2 job ++ bytesOf 2 set ++ bytesOf 1 first)
  | .readLane p job set lane list start =>
    some (p, .readLane, bytesOf 2 job ++ bytesOf 2 set ++ bytesOf 1 lane ++ bytesOf 1 list ++ bytesOf 1 start)
  | .cutOpen p => some (p, .cutOpen, [])
  | .spliceMade p first last nums =>
    some (p, .spliceMade, bytesOf 1 first ++ bytesOf 1 last ++ countedBytes 2 nums)
  | .cutCancel p => some (p, .cutCancel, [])
  | .addStop p form length => some (p, .addStop, bytesOf 1 form ++ bytesOf 4 length)
  | .cancelStop p id => some (p, .cancelStop, bytesOf 1 id)
  | .setTarget p length => some (p, .setTarget, bytesOf 4 length)
  | .readStops p start => some (p, .readStops, bytesOf 1 start)
  | .jobStart p j => some (p, .jobStart, jobBytes j)
  | .jobEnd p => some (p, .jobEnd, [])
  | .setStart p => some (p, .setStart, [])
  | .setClose p => some (p, .setClose, [])
  | .readStatus p => some (p, .readStatus, [])
  | .readQueue p start => some (p, .readQueue, bytesOf 1 start)
  | .readCounters p => some (p, .readCounters, [])
  | .readEvents p => some (p, .readEvents, [])
  | .ackEvents p kinds => some (p, .ackEvents, countedBytes 1 kinds)
  | .setAlerts p master kinds => some (p, .setAlerts, bytesOf 1 master ++ countedBytes 1 kinds)
  | .reset | .resetRelease | .endOfWarmUp _ | .interval | .gateClose | .noMotion => none
  | .count _ _ | .illegalTransition _ | .markArrival | .spliceArrival | .strobePulse | .strobePulseEnd => none
  | .send _ _ _ | .fetch _ _ | .voidTransaction _ _ _ => none

/-- The request frame of a kind and payload: kind, payload length, payload, check byte (10.3). -/
def requestFrame (k : Kind) (payload : List Byte) : List Byte :=
  withCheck (k.byte :: BitVec.ofNat 8 payload.length :: payload)

/-- The frame that carries a request command. -/
def frameOf (i : Instr) : Option (List Byte) := (requestParts i).map (fun r => requestFrame r.2.1 r.2.2)

/-! ## The port's own checks (R174) -/

/-- What the port makes of a frame received in READY: a command to dispatch, or the status it answers at once. -/
inductive FrameVerdict where
  | dispatch (i : Instr)
  | answer (st : Status)
  deriving DecidableEq, Repr

/-- The length check: at least 3 bytes, a length byte of at most 200, and 3 + the length byte received (R174). -/
def frameLengthOk (bs : List Byte) : Bool :=
  decide (3 ≤ bs.length) && decide (readU bs 1 1 ≤ 200) && decide (bs.length = 3 + readU bs 1 1)

/-- The payload of a frame of the right length (10.3). -/
def framePayload (bs : List Byte) : List Byte := (bs.drop 2).take (readU bs 1 1)

/-- The checks of R174 in their order, on the bytes received after the transaction byte; `cut` when select was released
inside a byte. -/
def checkFrame (p : Port) (bs : List Byte) (cut : Bool) : FrameVerdict :=
  if cut then .answer .frameError
  else if frameLengthOk bs = false then .answer .frameError
  else if frameSum bs ≠ 0 then .answer .frameError
  else
    match Kind.ofByte (bs.headD 0) with
    | none => .answer .unknownKind
    | some k =>
      if k.permitted p = false then .answer .notPermitted
      else
        match readRequest p k (framePayload bs) with
        | none => .answer .frameError
        | some i => .dispatch i

end Sys2Proof.Machine
end

