-- ==== Sys2Proof/Machine/TimeBase.lean ====
section
/-! DEFINITION. The time base (Chapter 12): reset, its release, the 1 ms interval, the end of warm-up, and the clock
cycle that an idle step runs. -/

namespace Sys2Proof.Machine

def State.withTime (s : State) (t : TimeBase) : State := { s with time := t }

/-! ## Reset (R194) -/

/-- Every block at its reset values, the part held in reset. The levels present on the input pins are the outside
world's and stay; the waiting commands stay, and so does the count of free choices, so that no free value is read
twice. -/
def resetPart (s : State) : State :=
  { State.reset with inputs := { Inputs.reset with pins := s.inputs.pins }, free := s.free, pending := s.pending }

/-- RESET (R194, R195). -/
def execReset (s : State) : Host.Outcome State Fault Refusal := .next (resetPart s)

/-- RESET_RELEASE (R194): the time base starts with cycle count 0 and warm-up count 0. Outside reset RESETN is high
already and nothing changes. -/
def execResetRelease (s : State) : Host.Outcome State Fault Refusal :=
  .next (if s.time.inReset then s.withTime { inReset := false, cycle := 0, warmUp := .counting 0 } else s)

/-! ## The end of warm-up (R194) -/

/-- The inputs take the levels present as their accepted levels, with no count and no arrival (R3, R6, R194 step 1). -/
def Inputs.takeLevels (i : Inputs) (v : InputLevels) : Inputs :=
  { pins := v
    encA := { i.encA with level1 := v.a1, level2 := v.a2, glitchPosted := false }
    encB := { i.encB with level1 := v.b1, level2 := v.b2, glitchPosted := false }
    mark := { i.mark with level := v.mark }
    splice := { i.splice with level := v.splice } }

/-- A port at the end of warm-up: READY with empty buffers (R171); a transaction already under way has noted the state before
(R172). -/
def PortRegs.wake (r : PortRegs) : PortRegs :=
  { r with state := .ready, noted := r.state, received := [], request := none, reply := [] }

/-- The steps of R194 at the end of warm-up. The gate clock begins with it, since it runs exactly after warm-up. -/
def endWarmUp (levels : InputLevels) (s : State) : State :=
  { s with
    time := { s.time with warmUp := .ended }
    inputs := s.inputs.takeLevels levels
    length := LengthCounter.openSpan s.length
    motion := { s.motion with gateClock := 0, baseline := 0 }
    ports := s.ports.map PortRegs.wake
    alerts := s.alerts.map Station.decideLine }

/-- The warm-up count has come to 4 (R194). -/
def State.warmUpDue (s : State) : Bool := !s.time.inReset && decide (s.time.warmUp = .counting 4)

/-- END_OF_WARM_UP (R194): taken when the warm-up count has come to 4 (log entry 2). -/
def execEndOfWarmUp (levels : InputLevels) (s : State) : Host.Outcome State Fault Refusal :=
  .next (if s.warmUpDue then endWarmUp levels s else s)

/-! ## Steps that are due (log entry 2) -/

/-- NO-MOTION if it is due. -/
def takeNoMotionIfDue (s : State) : State := if s.noMotionDue then takeNoMotion s else s

/-- The gate close if it is due. -/
def closeGateIfDue (s : State) : State := if s.gateDue then closeGate s else s

/-- Everything that is due is taken. Where NO-MOTION and a gate close are due together R35 allows either order: a free
value decides (log entry 12). -/
def takeDue (s : State) : State :=
  let s0 := if s.warmUpDue then endWarmUp s.inputs.pins s else s
  if s0.noMotionDue && s0.gateDue then
    let s1 := { s0 with free := s0.free + 1 }
    if Config.noMotionFirst s0.free then closeGateIfDue (takeNoMotionIfDue s1)
    else takeNoMotionIfDue (closeGateIfDue s1)
  else closeGateIfDue (takeNoMotionIfDue s0)

/-! ## The interval (R193) -/

/-- The warm-up count after an interval (R194). -/
def WarmUp.advance : WarmUp → WarmUp
  | .counting n => .counting (n + 1)
  | .ended => .ended

/-- The monitor after a 1 ms interval once warm-up has ended: the gate clock rises, a counting motion timer falls
(R25, R35). -/
def Motion.interval (m : Motion) : Motion :=
  { m with gateClock := m.gateClock + 1, timer := if m.timerOn then m.timer - 1 else m.timer }

/-- One interval ends and is handed to the blocks that count time. During warm-up the gate clock and the motion timer
are found not running and stopped (R193, R194). -/
def endInterval (s : State) : State :=
  { s with time := { s.time with cycle := 0, warmUp := s.time.warmUp.advance }
           motion := if s.running then s.motion.interval else s.motion }

/-- INTERVAL (R193). The time base does not run in reset. A step that an earlier interval made due is taken first, so
that no gate, timeout or end of warm-up is passed over (log entry 2). -/
def execInterval (s : State) : Host.Outcome State Fault Refusal :=
  .next (if s.time.inReset then s else endInterval (takeDue s))

/-! ## The clock cycle of an idle step (log entry 1) -/

/-- STROBE after one clock cycle: a pulse ends when its high level has lasted 48 cycles, and an owed pulse begins when
the low level has (R23, R193). -/
def Strobe.cycle (d : Strobe) : Strobe :=
  let d' := { d with held := min (d.held + 1) 48 }
  if d'.held < 48 then d'
  else if d'.high then d'.finish
  else if d'.canBegin then d'.begin
  else d'

/-- One cycle of the clock input (R193): the cycle count rises, the cycle that would take it to 24,000 ends an
interval, and the steps then due are taken. The part in reset does nothing. A request dispatched at a port is not taken by
a clock cycle: the port stays WORKING until the request row comes (R175; log entry 27). -/
def clockCycle (s : State) : State :=
  if s.time.inReset then s
  else
    let s0 := takeDue s
    let s1 := if s0.time.cycle + 1 < 24000 then s0.withTime { s0.time with cycle := s0.time.cycle + 1 }
      else endInterval s0
    takeDue (if s1.running then s1.withStrobe s1.strobe.cycle else s1)

end Sys2Proof.Machine
end

