-- ==== Sys2Proof/Machine/Ports.lean ====
section
/-! DEFINITION. The station ports (Chapter 10): the three transactions, dispatch and replies, and the taking of each
request at its owning block. -/

namespace Sys2Proof.Machine

def State.port (s : State) (p : Port) : PortRegs := s.ports.get p

def State.withPort (s : State) (p : Port) (r : PortRegs) : State := { s with ports := s.ports.set p r }

/-- The status byte of a port state (13.2). -/
def PortState.byte : PortState → Byte
  | .starting => 0x50
  | .ready => 0x51
  | .working => 0x52
  | .reply => 0x53

/-- The filler byte (13.2). -/
def filler : Byte := 0x00

/-- The status byte followed by filler (R172, R173, R177). -/
def statusAndFiller (st : PortState) (n : Nat) : List Byte := st.byte :: List.replicate n filler

/-- The discarded-frame counter rises and holds at 65,535 (R178); while the part is in reset it holds its reset value
(R194). -/
def PortRegs.discard (r : PortRegs) (inReset : Bool) : PortRegs :=
  { r with discarded := if inReset then r.discarded else holdAt 65535 (r.discarded + 1) }

/-- A port takes a dispatched request and becomes WORKING (R175). -/
def PortRegs.dispatch (r : PortRegs) (frame : List Byte) (i : Instr) : PortRegs :=
  { r with state := .working, received := frame, request := some i }

/-- A reply frame is written into the reply buffer and the port becomes REPLY (R174, R175). -/
def PortRegs.answer (r : PortRegs) (frame : List Byte) : PortRegs :=
  { r with state := .reply, received := [], request := none, reply := frame }

/-- The state that a transaction notes when its select is asserted: the port's own, or the one before the port's last change
of state where select was asserted before that change (R172, log entry 4). -/
def PortRegs.atSelect (r : PortRegs) (early : Bool) : PortState := if early then r.noted else r.state

/-- The release of select: the next transaction's select comes after it, so nothing but the state as it now stands can have
been noted (R172). -/
def PortRegs.release (r : PortRegs) : PortRegs := { r with noted := r.state }

/-! ## Transactions -/

/-- A SEND at a port in READY: the frame is checked and dispatched or answered, and the first byte is echoed (R173 to
R175). -/
def PortRegs.takeFrame (r : PortRegs) (p : Port) (bytes : List Byte) (cut : Bool) : PortRegs :=
  match checkFrame p bytes cut with
  | .dispatch i => r.dispatch bytes i
  | .answer st => r.answer (replyFrame (bytes.headD 0) (.refused st))

/-- A SEND at a port, judged on the port state noted at select (R172, R173). -/
def PortRegs.send (r : PortRegs) (inReset : Bool) (p : Select) (bytes : List Byte) (cut : Bool) : PortRegs :=
  let r' := { r with sdo := statusAndFiller (r.atSelect p.early) bytes.length }
  PortRegs.release (match r.atSelect p.early with
    | .ready => r'.takeFrame p.port bytes cut
    | _ => r'.discard inReset)

/-- SEND (R173). -/
def execSend (p : Select) (bytes : List Byte) (cut : Bool) (s : State) : Host.Outcome State Fault Refusal :=
  .next (s.withPort p.port ((s.port p.port).send s.time.inReset p bytes cut))

/-- A FETCH at a port, judged on the port state noted at select: in REPLY the reply from its first byte, then filler, and a
full read empties the buffer and makes the port READY; in any other state filler, whatever the port has become meanwhile
(R172, R177). -/
def PortRegs.fetch (r : PortRegs) (early : Bool) (clocked : Nat) : PortRegs :=
  PortRegs.release (match r.atSelect early with
    | .reply =>
      let r' := { r with sdo := PortState.byte .reply ::
        (r.reply.take clocked ++ List.replicate (clocked - r.reply.length) filler) }
      if r.reply.length ≤ clocked then { r' with state := .ready, reply := [] } else r'
    | st => { r with sdo := statusAndFiller st clocked })

/-- FETCH (R177). -/
def execFetch (p : Select) (clocked : Nat) (s : State) : Host.Outcome State Fault Refusal :=
  .next (s.withPort p.port ((s.port p.port).fetch p.early clocked))

/-- A void transaction at a port: counted, nothing else changes (R172). -/
def PortRegs.void (r : PortRegs) (inReset early : Bool) (clocked : Nat) : PortRegs :=
  PortRegs.release (PortRegs.discard { r with sdo := statusAndFiller (r.atSelect early) clocked } inReset)

/-- VOID_TRANSACTION (R172); its first byte reaches nothing. -/
def execVoidTransaction (p : Select) (_first : Option Byte) (clocked : Nat) (s : State) :
    Host.Outcome State Fault Refusal :=
  .next (s.withPort p.port ((s.port p.port).void s.time.inReset p.early clocked))

/-! ## A request taken by its owning block (R175; log entry 5) -/

/-- The owning block's reply is written into the port's reply buffer; a transaction already under way has noted WORKING
(R172, R175, R176). -/
def answerTaken (p : Port) (k : Kind) (t : Taken) : State :=
  t.1.withPort p { ((t.1.port p).answer (replyFrame k.byte t.2)) with noted := .working }

/-- A request command at a port. A WORKING port that holds this very request has it taken by its owning block, at this
command and at no idle step (R175 gives the block no time for it; log entry 27). At a READY port the command stands for the
whole passage: a frame of this request is sent, passes the port's checks unless the kind is not permitted there, and is
taken (log entry 5). At any other port state a frame is discarded and counted (R173). DESIGN CHOICE, unsafe (log entry 5): the
frame that a row stands for, taken, turned away or discarded, leaves the port's SDO bytes as they were, where a SEND clocks out
the status byte and filler (R172). -/
def serve (p : Port) (k : Kind) (i : Instr) (s : State) (taken : State → Taken) : State :=
  match (s.port p).state with
  | .working =>
    if (s.port p).request = some i then answerTaken p k (taken s)
    else s.withPort p ((s.port p).discard s.time.inReset).release
  | .ready =>
    if k.permitted p then answerTaken p k (taken s)
    else s.withPort p ((s.port p).answer (replyFrame k.byte (.refused .notPermitted))).release
  | _ => s.withPort p ((s.port p).discard s.time.inReset).release

end Sys2Proof.Machine
end

