-- ==== Sys2Proof/Machine/Requests.lean ====
section
/-! DEFINITION. The thirty-one request commands (10.9): each is served by its port and taken by its owning block. -/

namespace Sys2Proof.Machine

/-- SET_GEOMETRY (R1). -/
def execSetGeometry (p : Port) (g : Geometry) (s : State) : Host.Outcome State Fault Refusal :=
  .next (serve p .setGeometry (.setGeometry p g) s (takeSetGeometry g))

/-- SET_CALIBRATION (R8). -/
def execSetCalibration (p : Port) (fa fb : CalibrationFields) (s : State) : Host.Outcome State Fault Refusal :=
  .next (serve p .setCalibration (.setCalibration p fa fb) s (takeSetCalibration fa fb))

/-- SET_SENSORS (R6). -/
def execSetSensors (p : Port) (mf me sf se : Nat) (s : State) : Host.Outcome State Fault Refusal :=
  .next (serve p .setSensors (.setSensors p mf me sf se) s (takeSetSensors mf me sf se))

/-- SET_TRIM (R9). -/
def execSetTrim (p : Port) (enc : Nat) (trim : Int) (s : State) : Host.Outcome State Fault Refusal :=
  .next (serve p .setTrim (.setTrim p enc trim) s (takeSetTrim enc trim))

/-- SELECT_SOURCE (R15). -/
def execSelectSource (p : Port) (source : Nat) (s : State) : Host.Outcome State Fault Refusal :=
  .next (serve p .selectSource (.selectSource p source) s (takeSelectSource source))

/-- SET_STROBE (R22). -/
def execSetStrobe (p : Port) (q : Nat) (s : State) : Host.Outcome State Fault Refusal :=
  .next (serve p .setStrobe (.setStrobe p q) s (takeSetStrobe q))

/-- SET_MOTION (R32). -/
def execSetMotion (p : Port) (m : MotionFields) (s : State) : Host.Outcome State Fault Refusal :=
  .next (serve p .setMotion (.setMotion p m) s (takeSetMotion m))

/-- LINE_STATE (R34). -/
def execLineState (p : Port) (report : Nat) (s : State) : Host.Outcome State Fault Refusal :=
  .next (serve p .lineState (.lineState p report) s (takeLineState report))

/-- LOAD_PLAN (R42). -/
def execLoadPlan (p : Port) (plan : Nat) (knives : List Nat) (s : State) : Host.Outcome State Fault Refusal :=
  .next (serve p .loadPlan (.loadPlan p plan knives) s (takeLoadPlan plan knives))

/-- DEFECT (R58, R62). -/
def execDefect (p : Port) (d : DefectFields) (s : State) : Host.Outcome State Fault Refusal :=
  .next (serve p .defect (.defect p d) s (takeDefect d))

/-- LANE_STATUS (R90). -/
def execLaneStatus (p : Port) (job set lane status : Nat) (s : State) : Host.Outcome State Fault Refusal :=
  .next (serve p .laneStatus (.laneStatus p job set lane status) s (takeLaneStatus job set lane status))

/-- RELEASE_SET (R99). -/
def execReleaseSet (p : Port) (job set : Nat) (s : State) : Host.Outcome State Fault Refusal :=
  .next (serve p .releaseSet (.releaseSet p job set) s (takeReleaseSet job set))

/-- READ_SET (R101, R197). -/
def execReadSet (p : Port) (job set first : Nat) (s : State) : Host.Outcome State Fault Refusal :=
  .next (serve p .readSet (.readSet p job set first) s (takeReadSet job set first))

/-- READ_LANE (R102). -/
def execReadLane (p : Port) (job set lane list start : Nat) (s : State) : Host.Outcome State Fault Refusal :=
  .next (serve p .readLane (.readLane p job set lane list start) s (takeReadLane job set lane list start))

/-- CUT_OPEN (R106). -/
def execCutOpen (p : Port) (s : State) : Host.Outcome State Fault Refusal :=
  .next (serve p .cutOpen (.cutOpen p) s takeCutOpen)

/-- SPLICE_MADE (R108). -/
def execSpliceMade (p : Port) (first last : Nat) (records : List Nat) (s : State) :
    Host.Outcome State Fault Refusal :=
  .next (serve p .spliceMade (.spliceMade p first last records) s (takeSpliceMade first last records))

/-- CUT_CANCEL (R117). -/
def execCutCancel (p : Port) (s : State) : Host.Outcome State Fault Refusal :=
  .next (serve p .cutCancel (.cutCancel p) s takeCutCancel)

/-- ADD_STOP (R139). -/
def execAddStop (p : Port) (form length : Nat) (s : State) : Host.Outcome State Fault Refusal :=
  .next (serve p .addStop (.addStop p form length) s (takeAddStop p form length))

/-- CANCEL_STOP (R152). -/
def execCancelStop (p : Port) (entry : Nat) (s : State) : Host.Outcome State Fault Refusal :=
  .next (serve p .cancelStop (.cancelStop p entry) s (takeCancelStop p entry))

/-- SET_TARGET (R153). -/
def execSetTarget (p : Port) (length : Nat) (s : State) : Host.Outcome State Fault Refusal :=
  .next (serve p .setTarget (.setTarget p length) s (takeSetTarget length))

/-- READ_STOPS (R182). -/
def execReadStops (p : Port) (start : Nat) (s : State) : Host.Outcome State Fault Refusal :=
  .next (serve p .readStops (.readStops p start) s (takeReadStops start))

/-- JOB_START (R161). -/
def execJobStart (p : Port) (j : JobFields) (s : State) : Host.Outcome State Fault Refusal :=
  .next (serve p .jobStart (.jobStart p j) s (takeJobStart j))

/-- JOB_END (R163). -/
def execJobEnd (p : Port) (s : State) : Host.Outcome State Fault Refusal :=
  .next (serve p .jobEnd (.jobEnd p) s takeJobEnd)

/-- SET_START (R165). -/
def execSetStart (p : Port) (s : State) : Host.Outcome State Fault Refusal :=
  .next (serve p .setStart (.setStart p) s takeSetStart)

/-- SET_CLOSE (R167). -/
def execSetClose (p : Port) (s : State) : Host.Outcome State Fault Refusal :=
  .next (serve p .setClose (.setClose p) s takeSetClose)

/-- READ_STATUS (R180). -/
def execReadStatus (p : Port) (s : State) : Host.Outcome State Fault Refusal :=
  .next (serve p .readStatus (.readStatus p) s takeReadStatus)

/-- READ_QUEUE (R181). -/
def execReadQueue (p : Port) (start : Nat) (s : State) : Host.Outcome State Fault Refusal :=
  .next (serve p .readQueue (.readQueue p start) s (takeReadQueue start))

/-- READ_COUNTERS (R183). -/
def execReadCounters (p : Port) (s : State) : Host.Outcome State Fault Refusal :=
  .next (serve p .readCounters (.readCounters p) s takeReadCounters)

/-- READ_EVENTS (R189). -/
def execReadEvents (p : Port) (s : State) : Host.Outcome State Fault Refusal :=
  .next (serve p .readEvents (.readEvents p) s (takeReadEvents p))

/-- ACK_EVENTS (R190). -/
def execAckEvents (p : Port) (kinds : List Nat) (s : State) : Host.Outcome State Fault Refusal :=
  .next (serve p .ackEvents (.ackEvents p kinds) s (takeAckEvents p kinds))

/-- SET_ALERTS (R188). -/
def execSetAlerts (p : Port) (master : Nat) (kinds : List Nat) (s : State) : Host.Outcome State Fault Refusal :=
  .next (serve p .setAlerts (.setAlerts p master kinds) s (takeSetAlerts p master kinds))

end Sys2Proof.Machine
end

