-- ==== Sys2Proof/Machine/Dispatch.lean ====
section
/-! DEFINITION. The dispatch of commands: one arm for each row of spec/opcode_table.json, in the table's order. -/

namespace Sys2Proof.Machine

def exec (i : Instr) (s : State) : Host.Outcome State Fault Refusal :=
  match i with
  | .reset => Sys2Proof.Machine.execReset s
  | .resetRelease => Sys2Proof.Machine.execResetRelease s
  | .endOfWarmUp levels => Sys2Proof.Machine.execEndOfWarmUp levels s
  | .interval => Sys2Proof.Machine.execInterval s
  | .gateClose => Sys2Proof.Machine.execGateClose s
  | .noMotion => Sys2Proof.Machine.execNoMotion s
  | .count enc phase => Sys2Proof.Machine.execCount enc phase s
  | .illegalTransition enc => Sys2Proof.Machine.execIllegalTransition enc s
  | .markArrival => Sys2Proof.Machine.execMarkArrival s
  | .spliceArrival => Sys2Proof.Machine.execSpliceArrival s
  | .strobePulse => Sys2Proof.Machine.execStrobePulse s
  | .strobePulseEnd => Sys2Proof.Machine.execStrobePulseEnd s
  | .send p bytes cut => Sys2Proof.Machine.execSend p bytes cut s
  | .fetch p clocked => Sys2Proof.Machine.execFetch p clocked s
  | .voidTransaction p first clocked => Sys2Proof.Machine.execVoidTransaction p first clocked s
  | .setGeometry p g => Sys2Proof.Machine.execSetGeometry p g s
  | .setCalibration p fa fb => Sys2Proof.Machine.execSetCalibration p fa fb s
  | .setSensors p markFilter markEdge spliceFilter spliceEdge => Sys2Proof.Machine.execSetSensors p markFilter markEdge spliceFilter spliceEdge s
  | .setTrim p enc trim => Sys2Proof.Machine.execSetTrim p enc trim s
  | .selectSource p source => Sys2Proof.Machine.execSelectSource p source s
  | .setStrobe p q => Sys2Proof.Machine.execSetStrobe p q s
  | .setMotion p m => Sys2Proof.Machine.execSetMotion p m s
  | .lineState p report => Sys2Proof.Machine.execLineState p report s
  | .loadPlan p plan knives => Sys2Proof.Machine.execLoadPlan p plan knives s
  | .defect p d => Sys2Proof.Machine.execDefect p d s
  | .laneStatus p job set lane status => Sys2Proof.Machine.execLaneStatus p job set lane status s
  | .releaseSet p job set => Sys2Proof.Machine.execReleaseSet p job set s
  | .readSet p job set firstLane => Sys2Proof.Machine.execReadSet p job set firstLane s
  | .readLane p job set lane list start => Sys2Proof.Machine.execReadLane p job set lane list start s
  | .cutOpen p => Sys2Proof.Machine.execCutOpen p s
  | .spliceMade p firstLane lastLane records => Sys2Proof.Machine.execSpliceMade p firstLane lastLane records s
  | .cutCancel p => Sys2Proof.Machine.execCutCancel p s
  | .addStop p form length => Sys2Proof.Machine.execAddStop p form length s
  | .cancelStop p entry => Sys2Proof.Machine.execCancelStop p entry s
  | .setTarget p length => Sys2Proof.Machine.execSetTarget p length s
  | .readStops p start => Sys2Proof.Machine.execReadStops p start s
  | .jobStart p j => Sys2Proof.Machine.execJobStart p j s
  | .jobEnd p => Sys2Proof.Machine.execJobEnd p s
  | .setStart p => Sys2Proof.Machine.execSetStart p s
  | .setClose p => Sys2Proof.Machine.execSetClose p s
  | .readStatus p => Sys2Proof.Machine.execReadStatus p s
  | .readQueue p start => Sys2Proof.Machine.execReadQueue p start s
  | .readCounters p => Sys2Proof.Machine.execReadCounters p s
  | .readEvents p => Sys2Proof.Machine.execReadEvents p s
  | .ackEvents p kinds => Sys2Proof.Machine.execAckEvents p kinds s
  | .setAlerts p master kinds => Sys2Proof.Machine.execSetAlerts p master kinds s

end Sys2Proof.Machine
end

