-- ==== Sys2Proof/Machine/Step.lean ====
section
/-! DEFINITION. One step of the part: the command at the front of the queue is taken; with no command waiting the part
runs one cycle of its clock. -/

namespace Sys2Proof.Machine

/-- The command at the front of the queue, with the queue's rest behind it; on an empty queue one clock cycle
(R193; log entry 1). -/
def step (s : State) : Host.Outcome State Fault Refusal :=
  match s.pending with
  | [] => .next (clockCycle s)
  | c :: rest => exec c { s with pending := rest }

/-- The command a table word spells is put at the front of the queue; no word spells one (log entry 6). -/
def State.withFetchWord (s : State) (nbits w : Nat) : State :=
  match decodeTableWord nbits w with
  | none => s
  | some c => { s with pending := c :: s.pending }

end Sys2Proof.Machine
end

