-- ==== Sys2Proof/Machine/Outputs.lean ====
section
/-! DEFINITION. The levels of the output pins (R195), read from State: nothing else holds them. -/

namespace Sys2Proof.Machine

/-- A pin is driven low, driven high, or high impedance. -/
inductive PinLevel where
  | low
  | high
  | highImpedance
  deriving DecidableEq, Repr

/-- The outputs STOP and STROBE, and of each port the alert line and, its select released, the data out. -/
structure Outputs where
  stop : PinLevel
  strobe : PinLevel
  alert : ByPort PinLevel
  sdo : ByPort PinLevel
  deriving DecidableEq, Repr

/-- A pin that is driven either way. -/
def PinLevel.driven (b : Bool) : PinLevel := if b then .high else .low

/-- An alert line: asserted it is driven low, released it is high impedance. -/
def PinLevel.alert (b : Bool) : PinLevel := if b then .low else .highImpedance

/-- The levels that one byte puts on SDO, the most significant bit first (10.2). -/
def byteLevels (b : Byte) : List PinLevel := (List.range 8).map (fun i => .driven (b.getMsbD i))

/-- SDO while select is asserted, over the last transaction: the levels of its bytes, one for each bit. -/
def PortRegs.sdoLevels (r : PortRegs) : List PinLevel := r.sdo.flatMap byteLevels

/-- The table of R195: in reset and during warm-up every output is released; from the end of warm-up STOP follows the stop
planner, STROBE the divider and each alert line its station record. A transaction is one step and ends at the release of
select (log entry 4), so in every state SDO is high impedance; the levels of the last transaction are `sdoLevels`. -/
def State.outputs (s : State) : Outputs :=
  { stop := .driven (s.running && s.stopAsserted)
    strobe := .driven (s.running && s.strobe.high)
    alert := s.alerts.map (fun st => .alert (s.running && st.line))
    sdo := .all .highImpedance }

end Sys2Proof.Machine
end

