-- ==== Sys2Proof/Safety.lean ====
section
/-! DEFINITION. What the statements speak of: a request that reaches its block, the reply that answers it, the due
steps of the clock, and the invariants that every step keeps. -/

namespace Sys2Proof.Machine

/-! ## Requests and replies -/

/-- The request is permitted on its port, and the port is READY for it or holds it dispatched, so that its owning block
takes it (R173 to R175; log entry 5). -/
abbrev State.Takes (s : State) (p : Port) (k : Kind) (i : Instr) : Prop :=
  k.permitted p = true ∧
  ((s.port p).state = .ready ∨ ((s.port p).state = .working ∧ (s.port p).request = some i))

/-- A port with a reply in its reply buffer (R175): REPLY, nothing in the receive buffer and no request held, WORKING the state
that a transaction already under way has noted (R172). -/
def PortRegs.replied (r : PortRegs) (k : Kind) (st : Status) (payload : List Byte) : PortRegs :=
  { r with state := .reply, noted := .working, received := [], request := none,
           reply := replyFrame k.byte { status := st, payload := payload } }

/-- The part with a reply at one port, everything else as it is (R175, R176). -/
def State.replied (s : State) (p : Port) (k : Kind) (st : Status) (payload : List Byte) : State :=
  { s with ports := s.ports.set p ((s.port p).replied k st payload) }

/-- The part with one station record changed (R188, R190). -/
def State.withStation (s : State) (p : Port) (st : Station) : State := { s with alerts := s.alerts.set p st }

/-- The step is one of the clock's own: no gate close, timeout or end of warm-up is waiting to be taken. -/
abbrev State.NothingDue (s : State) : Prop :=
  s.gateDue = false ∧ s.noMotionDue = false ∧ s.warmUpDue = false

/-! ## The clock (R193, R194) -/

/-- A due gate close and a due NO-MOTION have been taken, each as its command takes it; with both due a free value decides which
is first (R35; log entry 12). -/
abbrev MotionDueTaken (s t : State) : Prop :=
  (s.gateDue = false → s.noMotionDue = false → t = s) ∧
  (s.gateDue = true → s.noMotionDue = false → exec .gateClose s = .next t) ∧
  (s.gateDue = false → s.noMotionDue = true → exec .noMotion s = .next t) ∧
  (s.gateDue = true → s.noMotionDue = true →
    let s' : State := { s with free := s.free + 1 }
    ∃ u : State,
      (Config.noMotionFirst s.free = true → exec .noMotion s' = .next u ∧ exec .gateClose u = .next t) ∧
      (Config.noMotionFirst s.free = false → exec .gateClose s' = .next u ∧ exec .noMotion u = .next t))

/-- What is due has been taken (log entry 2): the end of warm-up with the levels present on the pins, then what that leaves
due of the gate close and NO-MOTION. -/
abbrev DueTaken (s t : State) : Prop :=
  (s.warmUpDue = false → MotionDueTaken s t) ∧
  (s.warmUpDue = true → ∃ u : State, exec (.endOfWarmUp s.inputs.pins) s = .next u ∧ MotionDueTaken u t)

/-- The part at the end of a 1 ms interval (R193): the cycle count starts again, the warm-up count rises until warm-up has ended
(R194), and after that the gate clock rises and a counting motion timer falls (R25, R35). -/
def State.intervalEnded (s : State) : State :=
  { s with
    time := { s.time with cycle := 0
                          warmUp := match s.time.warmUp with
                            | .counting n => .counting (n + 1)
                            | .ended => .ended }
    motion := if s.time.inReset = false ∧ s.time.warmUp = .ended then
        { s.motion with gateClock := s.motion.gateClock + 1,
                        timer := if s.motion.timerOn then s.motion.timer - 1 else s.motion.timer }
      else s.motion }

/-- STROBE after one more cycle at its level: at the 48th a pulse ends, or an owed one begins (R23). -/
def Strobe.cycled (d : Strobe) : Strobe :=
  if d.held + 1 < 48 then { d with held := d.held + 1 }
  else if d.high then { d with high := false, held := 0 }
  else if 0 < d.owed then { d with high := true, owed := d.owed - 1, held := 0 }
  else { d with held := 48 }

/-- The part with its cycle count one higher, the cycle that takes it to 24,000 ending an interval (R193). -/
def State.cycleCounted (s : State) : State :=
  if s.time.cycle + 1 < 24000 then { s with time := { s.time with cycle := s.time.cycle + 1 } } else s.intervalEnded

/-- What the part answers to a command or, with no command, in a step. -/
def State.answerTo (s : State) : Option Instr → Host.Outcome State Fault Refusal
  | some c => exec c s
  | none => step s

/-! ## Codes of a frame (13.2, 13.3) -/

/-- The code of a reply status (13.2). -/
def Status.layoutCode : Status → Byte
  | .done => 0x00
  | .wrongState => 0x01
  | .notPermitted => 0x02
  | .outOfRange => 0x03
  | .listFull => 0x04
  | .duplicate => 0x06
  | .notStandstill => 0x07
  | .stopActive => 0x08
  | .notFound => 0x09
  | .frameError => 0x0A
  | .unknownKind => 0x0B

/-- The code of a request kind (13.3). -/
def Kind.layoutCode : Kind → Byte
  | .setGeometry => 0x01
  | .setCalibration => 0x02
  | .setSensors => 0x03
  | .setTrim => 0x04
  | .selectSource => 0x05
  | .setStrobe => 0x06
  | .setMotion => 0x07
  | .lineState => 0x08
  | .loadPlan => 0x09
  | .defect => 0x0A
  | .laneStatus => 0x0B
  | .releaseSet => 0x0C
  | .readSet => 0x0D
  | .readLane => 0x0E
  | .cutOpen => 0x0F
  | .spliceMade => 0x10
  | .cutCancel => 0x11
  | .addStop => 0x12
  | .cancelStop => 0x13
  | .setTarget => 0x14
  | .readStops => 0x15
  | .jobStart => 0x16
  | .jobEnd => 0x17
  | .setStart => 0x18
  | .setClose => 0x19
  | .readStatus => 0x1A
  | .readQueue => 0x1B
  | .readCounters => 0x1C
  | .readEvents => 0x1D
  | .ackEvents => 0x1E
  | .setAlerts => 0x1F

/-- A reply frame (R176): status, kind, payload length, payload and a check byte that makes the sum of all bytes a whole multiple
of 256. -/
abbrev IsReplyFrame (frame : List Byte) (st : Status) (kind : Byte) (payload : List Byte) : Prop :=
  frame.take (3 + payload.length) = st.layoutCode :: kind :: BitVec.ofNat 8 payload.length :: payload ∧
  frame.length = 4 + payload.length ∧ (frame.map BitVec.toNat).sum % 256 = 0

/-! ## Fields of a reply (13.1) -/

/-- The bytes hold an unsigned figure at an offset, when it is within the width of its field of `n` bytes; a figure that is not
is log entry 14. -/
abbrev holdsU (bytes : List Byte) (off n v : Nat) : Prop := v < 256 ^ n → readU bytes off n = v

/-- The bytes hold a signed figure at an offset, when it is within the width of its field of `n` bytes. -/
abbrev holdsS (bytes : List Byte) (off n : Nat) (v : Int) : Prop :=
  -(256 ^ n : Int) ≤ 2 * v → 2 * v < (256 ^ n : Int) → readS bytes off n = v

/-! ## Reply layouts (13.3, 13.6 to 13.9) -/

/-- A flag byte has a bit set exactly when a fact holds (13.1). -/
abbrev holdsFlag (bytes : List Byte) (off bit : Nat) (b : Bool) : Prop := (readU bytes off 1).testBit bit = b

/-- One lane record of a READ-SET reply (13.6). -/
abbrev HoldsLane (bytes : List Byte) (off : Nat) (x : LaneRecord) : Prop :=
  holdsU bytes off 2 x.width ∧
  readU bytes (off + 2) 1 = (match x.status with | .good => 0 | .hold _ => 1 | .reject => 2) ∧
  readU bytes (off + 3) 1 =
    (match x.status with | .hold (some .spliceLimit) => 1 | .hold (some .critical) => 2 | _ => 0) ∧
  holdsU bytes (off + 4) 1 x.defects.length ∧ holdsU bytes (off + 5) 2 x.defectOverflow ∧
  holdsU bytes (off + 7) 1 x.splices.length ∧ holdsU bytes (off + 8) 2 x.spliceOverflow ∧ holdsU bytes (off + 10) 2 x.edits

/-- The payload of READ-SET (R101, R197, 13.6) for the slot `n` and its record. -/
abbrev HoldsSet (bytes : List Byte) (n : Nat) (r : SetRecord) (first : Nat) (s : State) : Prop :=
  let count : Nat := min 12 (r.lanes.length - (first - 1))
  bytes.length = 41 + 12 * count ∧
  holdsU bytes 0 1 n ∧
  readU bytes 1 1 = (match s.roll.slot n with | .empty => 0 | .winding _ => 1 | .closed _ => 2 | .released _ => 0) ∧
  holdsU bytes 2 1 (if n ∈ s.roll.closeList then s.roll.closeList.idxOf n + 1 else 0) ∧
  holdsU bytes 3 2 r.job ∧ holdsU bytes 5 2 r.number ∧ holdsU bytes 7 2 r.plan ∧ holdsU bytes 9 1 r.lanes.length ∧
  holdsU bytes 10 4 r.start ∧ holdsU bytes 14 4 (r.target.getD 0) ∧
  holdsU bytes 18 4 (match s.roll.slot n with | .winding _ => s.length.p - r.start | _ => r.closedLength.getD 0) ∧
  holdsFlag bytes 22 0 (match s.roll.slot n with | .released _ => true | _ => false) ∧
  holdsFlag bytes 22 1 r.mapIncomplete ∧ holdsFlag bytes 22 2 r.lengthFallback ∧ holdsFlag bytes 22 3 r.mixed.isSome ∧
  holdsU bytes 23 4 (r.mixed.getD 0) ∧ holdsU bytes 27 2 r.trimTally ∧ holdsU bytes 29 2 r.unplacedTally ∧
  holdsU bytes 31 2 r.removedTally ∧ holdsU bytes 33 2 r.repeatTally ∧ holdsU bytes 35 2 r.markFaultTally ∧
  holdsU bytes 37 2 r.unwoundCount ∧ holdsU bytes 39 1 first ∧ readU bytes 40 1 = count ∧
  ∀ i < count, ∀ x ∈ r.lanes[first - 1 + i]?, HoldsLane bytes (41 + 12 * i) x

/-- A defect entry of a READ-LANE reply (13.7). -/
abbrev HoldsDefect (bytes : List Byte) (off : Nat) (e : DefectEntry) : Prop :=
  holdsU bytes off 2 e.record ∧ holdsU bytes (off + 2) 2 e.tag ∧ holdsU bytes (off + 4) 1 e.cls ∧
  readU bytes (off + 5) 1 = (match e.severity with | .minor => 1 | .major => 2 | .critical => 3) ∧
  holdsU bytes (off + 6) 2 e.length ∧ holdsS bytes (off + 8) 5 e.position ∧ holdsU bytes (off + 13) 2 e.offset ∧
  holdsFlag bytes (off + 15) 0 e.oldPlan ∧ holdsFlag bytes (off + 15) 1 (!e.wound)

/-- A splice entry of a READ-LANE reply (13.7): the flags byte holds the old-plan flag of R52 in bit 0 (log entry 30), UNWOUND in
bit 1, and 0 in every other bit (13.1). -/
abbrev HoldsSplice (bytes : List Byte) (off : Nat) (e : SpliceEntry) : Prop :=
  holdsU bytes off 2 e.record ∧ readU bytes (off + 2) 1 = (match e.kind with | .sensed => 0 | .repair => 1) ∧
  holdsS bytes (off + 3) 5 e.position ∧
  readU bytes (off + 8) 1 = (if e.oldPlan then 1 else 0) + (if e.wound then 0 else 2)

/-- The head of a READ-LANE payload: edit count, list, entries in the reply, entries remaining (R102, 13.7). -/
abbrev HoldsLanePage (bytes : List Byte) (x : LaneRecord) (list start length width : Nat) : Prop :=
  bytes.length = 5 + width * min 10 (length - start) ∧ holdsU bytes 0 2 x.edits ∧ readU bytes 2 1 = list ∧
  readU bytes 3 1 = min 10 (length - start) ∧ holdsU bytes 4 1 (length - start - 10)

/-- A path record of a READ-QUEUE reply; what is absent is sent as 0 (R55, 13.9). -/
abbrev HoldsRecord (bytes : List Byte) (off : Nat) (r : PathRecord) : Prop :=
  holdsU bytes off 2 r.body.number ∧
  readU bytes (off + 2) 1 = (match r.body.kind with | .defect _ _ _ => 0 | .sensedSplice => 1 | .repairSplice => 2) ∧
  holdsU bytes (off + 3) 2 (match r.body.kind with | .defect tag _ _ => tag | _ => 0) ∧
  holdsU bytes (off + 5) 1 (match r.body.kind with | .defect _ cls _ => cls | _ => 0) ∧
  readU bytes (off + 6) 1 =
    (match r.body.kind with | .defect _ _ .minor => 1 | .defect _ _ .major => 2 | .defect _ _ .critical => 3 | _ => 0) ∧
  holdsU bytes (off + 7) 2 r.body.xs ∧ holdsU bytes (off + 9) 2 r.body.xe ∧ holdsU bytes (off + 11) 2 r.body.length ∧
  holdsS bytes (off + 13) 5 r.body.web ∧ readU bytes (off + 18) 1 = (match r.slit with | none => 0 | some _ => 1) ∧
  holdsU bytes (off + 19) 1 (match r.slit with | none => 0 | some x => x.first) ∧
  holdsU bytes (off + 20) 1 (match r.slit with | none => 0 | some x => x.last) ∧
  holdsU bytes (off + 21) 2 (match r.slit with | none => 0 | some x => x.plan) ∧ holdsU bytes (off + 23) 1 (r.stopId.getD 0)

/-- The payload of READ-QUEUE (R181, 13.9). -/
abbrev HoldsQueue (bytes : List Byte) (start : Nat) (q : PathQueue) : Prop :=
  let count : Nat := min 6 (q.records.length - start)
  bytes.length = 5 + 24 * count ∧ holdsU bytes 0 1 q.records.length ∧ holdsU bytes 1 2 q.changes ∧
  readU bytes 3 1 = count ∧ holdsU bytes 4 1 (q.records.length - start - 6) ∧
  ∀ i < count, ∀ r ∈ q.records[start + i]?, HoldsRecord bytes (5 + 24 * i) r

/-- The codes of a stop entry's kind (13.8). -/
def StopKind.layoutCode : StopKind → Nat
  | .operator => 0
  | .setEnd => 1
  | .spliceLimit => 2
  | .markLost => 3
  | .defect => 4

/-- A stop entry of a READ-STOPS reply, with the mark of the head (R136, 13.8). -/
abbrev HoldsStop (bytes : List Byte) (off : Nat) (head : Bool) (e : StopEntry) : Prop :=
  holdsU bytes off 1 e.id ∧ readU bytes (off + 1) 1 = e.kind.layoutCode ∧
  readU bytes (off + 2) 1 =
    (match e.kind with | .operator => 4 | .setEnd => 3 | .spliceLimit => 2 | .markLost => 2 | .defect => 1) ∧
  readU bytes (off + 3) 1 = (match e.origin with | .internal => 0 | .portL => 1 | .portO => 2) ∧
  holdsU bytes (off + 4) 2 (match e.ref with | .nothing => 0 | .record n => n | .set n => n) ∧
  holdsS bytes (off + 6) 5 e.web ∧ holdsS bytes (off + 11) 4 e.station ∧ holdsS bytes (off + 15) 5 e.target ∧
  readU bytes (off + 20) 4 = e.insertion % 4294967296 ∧ readU bytes (off + 24) 1 = (if e.active then 1 else 0) ∧
  holdsFlag bytes (off + 25) 0 head ∧ holdsFlag bytes (off + 25) 1 e.late ∧ holdsFlag bytes (off + 25) 2 e.overrun ∧
  holdsS bytes (off + 26) 5 e.shortfall

/-- The last stop record of a READ-STOPS reply, all 0 when absent (R150, 13.8). -/
abbrev HoldsLastStop (bytes : List Byte) (o : Option LastStop) : Prop :=
  (o = none → (bytes.drop 5).take 24 = List.replicate 24 0x00) ∧
  (∀ r ∈ o, readU bytes 5 1 = 1 ∧ holdsU bytes 6 1 r.id ∧ readU bytes 7 1 = r.kind.layoutCode ∧
    holdsS bytes 8 5 r.target ∧ holdsU bytes 13 4 r.p ∧ holdsS bytes 17 5 r.error ∧
    readU bytes 22 1 = (match r.outcome with | .onTarget => 0 | .short => 1 | .over => 2) ∧
    readU bytes 23 1 = (if r.late then 1 else 0) ∧ holdsS bytes 24 5 r.shortfall)

/-- The payload of READ-STOPS (R182, 13.8); the entry marked as head is the one with the head's id. -/
abbrev HoldsStops (bytes : List Byte) (start : Nat) (pl : StopPlanner) : Prop :=
  let count : Nat := min 5 (pl.entries.length - start)
  bytes.length = 29 + 31 * count ∧ holdsU bytes 0 1 pl.entries.length ∧ holdsU bytes 1 2 pl.changes ∧
  readU bytes 3 1 = count ∧ holdsU bytes 4 1 (pl.entries.length - start - 5) ∧ HoldsLastStop bytes pl.lastStop ∧
  ∀ i < count, ∀ e ∈ pl.entries[start + i]?, HoldsStop bytes (29 + 31 * i) (decide (pl.head.map (·.id) = some e.id)) e

/-- The payload of READ-COUNTERS (R183, 13.3). -/
abbrev HoldsCounters (bytes : List Byte) (s : State) : Prop :=
  bytes.length = 56 ∧
  (holdsU bytes 0 4 s.queue.flow.taken ∧ holdsU bytes 4 4 s.queue.flow.returned ∧
    holdsU bytes 8 4 s.queue.flow.delivered ∧ holdsU bytes 12 4 s.queue.flow.trimmed ∧
    holdsU bytes 16 4 s.queue.flow.removed ∧ holdsU bytes 20 4 s.queue.flow.unmapped ∧
    holdsU bytes 24 1 s.queue.records.length) ∧
  (holdsU bytes 25 2 s.inputs.encA.glitches ∧ holdsU bytes 27 2 s.inputs.encB.glitches ∧
    holdsU bytes 29 2 s.length.slipCount ∧ holdsS bytes 31 4 s.length.lastDeviation ∧ holdsU bytes 35 2 s.roll.mapsLost) ∧
  (holdsU bytes 37 2 s.tracker.good ∧ holdsU bytes 39 2 s.tracker.extra ∧ holdsU bytes 41 2 s.tracker.rescanned ∧
    holdsU bytes 43 2 s.tracker.missed ∧ holdsU bytes 45 2 s.tracker.losses ∧
    holdsU bytes 47 2 (match s.tracker.state with | .unlocked => 0 | .locked l => l.rm | .lost l => l.rm) ∧
    holdsU bytes 49 1 (match s.tracker.state with | .unlocked => 0 | .locked l => l.missed | .lost l => l.missed)) ∧
  (holdsU bytes 50 2 s.ports.l.discarded ∧ holdsU bytes 52 2 s.ports.i.discarded ∧ holdsU bytes 54 2 s.ports.o.discarded)

/-- The payload of READ-EVENTS (R189, 13.3). -/
abbrev HoldsEvents (bytes : List Byte) (st : Station) : Prop :=
  bytes.length = 7 + 2 * st.pending.length ∧
  readU bytes 0 1 = (if st.master then 1 else 0) ∧ readU bytes 1 1 = (if st.line then 1 else 0) ∧
  (st.enabled.Nodup → ∀ k ∈ EventKind.all, (readU bytes 2 4).testBit k.code = decide (k ∈ st.enabled)) ∧
  holdsU bytes 6 1 st.pending.length ∧
  ∀ i < st.pending.length, ∀ e ∈ st.pending[i]?,
    readU bytes (7 + 2 * i) 1 = e.1.code ∧ holdsU bytes (8 + 2 * i) 1 e.2

/-! ## Events (R186) -/

/-- One kind is pending at every station as it is in another state, with the same count. -/
abbrev State.PendsAs (t : State) (k : EventKind) (u : State) : Prop :=
  ∀ p ∈ [Port.l, Port.i, Port.o],
    (t.alerts.get p).pending.filter (fun e => decide (e.1 = k)) =
      (u.alerts.get p).pending.filter (fun e => decide (e.1 = k))

/-- A kind is posted a number of times. -/
def State.postTimes (s : State) (n : Nat) (k : EventKind) : State := State.postAll (List.replicate n k) s

/-! ## The stop list (R135, R137) -/

/-- At most 16 entries, in target order and by insertion number where targets are equal, each with an insertion number and an
id of its own, the id from 1 to 255, and at most one of them ACTIVE (R135, R137). -/
abbrev StopPlanner.Sound (pl : StopPlanner) : Prop :=
  pl.entries.length ≤ 16 ∧
  pl.entries.Pairwise (fun a b => a.before b = true) ∧
  (pl.entries.map (·.id)).Nodup ∧ (pl.entries.map (·.insertion)).Nodup ∧
  (∀ e ∈ pl.entries, 1 ≤ e.id ∧ e.id ≤ 255 ∧ e.insertion < pl.insertions) ∧
  (1 ≤ pl.nextId ∧ pl.nextId ≤ 255) ∧
  pl.entries.countP (·.active) ≤ 1

/-! ## The stop list around an evaluation (R135, R137, R140 to R143) -/

/-- An entry at its place in a list that is in target order: behind every entry of equal target (R135, R140 step 2). -/
def StopEntry.placedIn (e : StopEntry) (l : List StopEntry) : List StopEntry :=
  l.takeWhile (fun x => decide (x.target ≤ e.target)) ++ e :: l.dropWhile (fun x => decide (x.target ≤ e.target))

/-- The records that a test picks hold a stop entry id, or none; when there are any the change count rises by 1 (R72, R181). -/
def PathQueue.withStopId (q : PathQueue) (which : PathRecord → Bool) (id : Option Nat) : PathQueue :=
  { q with records := q.records.map (fun r => if which r then { r with stopId := id } else r)
           changes := if q.records.any which then (q.changes + 1) % 65536 else q.changes }

/-- The part with an offer's entry in the list, as steps 1 to 3 of R140 leave it before the evaluation of step 4; that its
insertion number is the counter before its rise is log entry 32. -/
def State.stopInserted (o : StopOffer) (s : State) : State :=
  let id : Nat := s.stops.freshId
  let e : StopEntry :=
    { id := id, kind := o.kind, origin := o.origin, ref := o.ref, web := o.web, station := o.station, target := o.target,
      insertion := s.stops.insertions, active := false, late := false, shortfall := 0, overrun := false }
  { s with
    stops := { s.stops with entries := e.placedIn s.stops.entries, nextId := if id < 255 then id + 1 else 1,
                            insertions := s.stops.insertions + 1, changes := (s.stops.changes + 1) % 65536 }
    queue := s.queue.withStopId (fun r => decide (o.ref = .record r.body.number)) (some id) }

/-- The part with an entry out of the list, its record's id given up, before the evaluation that R142 lets follow. -/
def State.stopRemoved (e : StopEntry) (s : State) : State :=
  { s with
    stops := { s.stops with entries := s.stops.entries.filter (fun x => decide (x.id ≠ e.id)),
                            changes := (s.stops.changes + 1) % 65536 }
    queue := s.queue.withStopId (fun r => decide (e.ref = .record r.body.number ∧ r.stopId = some e.id)) none }

/-- The part with an entry at a new web mark and target, under its id and with the next insertion number, before the evaluation
of R153 step 4 and R154 (log entry 32). -/
def State.stopMoved (e : StopEntry) (web target : Int) (s : State) : State :=
  let e' : StopEntry := { e with web := web, target := target, insertion := s.stops.insertions }
  { s with
    stops := { s.stops with entries := e'.placedIn (s.stops.entries.filter (fun x => decide (x.id ≠ e.id))),
                            insertions := s.stops.insertions + 1, changes := (s.stops.changes + 1) % 65536 } }

/-- The entry that an arbitration evicts (R141): WAITING, of the lowest priority among those below the new entry's, the greatest
target, and of equal targets the last inserted. -/
abbrev StopPlanner.IsVictim (pl : StopPlanner) (priority : Nat) (v : StopEntry) : Prop :=
  v ∈ pl.entries ∧ v.active = false ∧ v.kind.priority < priority ∧
  ∀ x ∈ pl.entries, x.active = false → x.kind.priority < priority →
    v.kind.priority < x.kind.priority ∨ (v.kind.priority = x.kind.priority ∧
      (x.target < v.target ∨ (x.target = v.target ∧ x.insertion ≤ v.insertion)))

/-- What an offer makes of the part, and the id it is given (R137, R140, R141): with room it is inserted and the planner evaluates;
at 16 entries it evicts the victim, with STOP-DROPPED and an evaluation (log entry 21), and is inserted, or, with no candidate,
is refused, with STOP-DROPPED where its origin is internal. -/
abbrev OfferTaken (o : StopOffer) (s t : State) (id : Option Nat) : Prop :=
  (s.stops.entries.length < 16 → t = evaluate (s.stopInserted o) ∧ id = some s.stops.freshId) ∧
  (16 ≤ s.stops.entries.length → (∀ x ∈ s.stops.entries, x.active = false → o.kind.priority ≤ x.kind.priority) →
    t = { s with alerts := if o.origin = .internal then s.alerts.map (Station.post .stopDropped) else s.alerts } ∧
    id = none) ∧
  (16 ≤ s.stops.entries.length → ∀ v ∈ s.stops.entries, s.stops.IsVictim o.kind.priority v →
    let u : State := evaluate { s.stopRemoved v with alerts := s.alerts.map (Station.post .stopDropped) }
    t = evaluate (u.stopInserted o) ∧ id = some u.stops.freshId)

/-- Each stop entry id in the queue is that of an entry made for the record that holds it (R72). -/
abbrev State.StopIdsMatch (s : State) : Prop :=
  ∀ r ∈ s.queue.records, ∀ id ∈ r.stopId, ∃ e ∈ s.stops.entries, e.id = id ∧ e.ref = .record r.body.number

/-- The kinds that the stop planner posts (R141, R144, R148, R151). -/
def stopPosts : List EventKind := [.stopRequested, .stopLate, .stopReached, .stopDropped, .stopOverrun]

/-- The planner's part of a state is that of another: the stop list, the stop entry ids of the path records that both hold, and the
posts of the planner. -/
abbrev PlannerAs (u t : State) : Prop :=
  t.stops = u.stops ∧
  (∀ r ∈ t.queue.records, ∀ r' ∈ u.queue.records, r'.joined = r.joined → r.stopId = r'.stopId) ∧
  ∀ k ∈ stopPosts, t.PendsAs k u

/-! ## A count (R16 to R21) -/

/-- The units of a count bring the other encoder's silence distance to the silence span (R16). -/
abbrev State.fallsSilentAt (s : State) (e : Encoder) (units : Nat) : Prop :=
  0 < units ∧ (s.length.measure (otherEncoder e)).silent = false ∧
    s.motion.settings.silence ≤ (s.length.measure (otherEncoder e)).silence + units

/-- The units of a count of `e` raise the other encoder's silence distance, and at the silence span it falls silent: A posts
ENCODER-A-SILENT and, when it drives P, hands P to B with the winding set marked; B posts ENCODER-B-SILENT and the source stays
(R16 to R18). -/
abbrev SilenceFollows (e : Encoder) (units : Nat) (s t : State) : Prop :=
  (t.length.measure (otherEncoder e)).silence = (s.length.measure (otherEncoder e)).silence + units ∧
  ((t.length.measure (otherEncoder e)).silent = true ↔
    (s.length.measure (otherEncoder e)).silent = true ∨ s.fallsSilentAt e units) ∧
  (s.fallsSilentAt e units → e = .b → t.length.active = .b) ∧
  (¬ s.fallsSilentAt e units ∨ e = .a → t.length.active = s.length.active) ∧
  (e = .b → s.length.active = .a →
    t.roll = if s.fallsSilentAt e units then s.roll.mapWinding (fun r => { r with lengthFallback := true }) else s.roll) ∧
  t.PendsAs .encoderASilent (s.postTimes (if e = .b ∧ s.fallsSilentAt e units then 1 else 0) .encoderASilent) ∧
  t.PendsAs .encoderBSilent (s.postTimes (if e = .a ∧ s.fallsSilentAt e units then 1 else 0) .encoderBSilent)

/-- A slip span from two positions while A drives P and the encoder other than `e`, which is counting, is ALIVE (R20). -/
def State.spanFrom (s : State) (e : Encoder) (pa pb : Nat) : Option SlipSpan :=
  if s.length.active = .a ∧ (s.length.measure (otherEncoder e)).silent = false then some { pa0 := pa, pb0 := pb } else none

/-- The slip span that is open when a count of `e` moves its units: a recovery of `e` opens a fresh one (R19, R20; log entry
19). -/
def State.spanAtCount (s : State) (e : Encoder) : Option SlipSpan :=
  if (s.length.measure e).silent then s.spanFrom e s.length.a.position s.length.b.position else s.length.span

/-- The figures of the slip check stand and nothing is posted. -/
abbrev SlipStands (s t : State) : Prop :=
  t.length.lastDeviation = s.length.lastDeviation ∧ t.length.slipCount = s.length.slipCount ∧ t.PendsAs .slip s

/-- The deviation in ppm, truncated toward zero and held within ±100,000,000 (R21). -/
def ppmHeld (da db : Int) : Int := max (-100000000) (min 100000000 (((db - da) * 1000000).tdiv da))

/-- The slip check at a count (R20, R21): an encoder that falls silent abandons the span, a reverse count of A restarts it, and a
forward count of A ends one that has run its length, with the deviation in ppm, truncated toward zero and held, the slip count
and SLIP when it exceeds the limit, and a new span. -/
abbrev SlipFollows (e : Encoder) (forward : Bool) (units : Nat) (s t : State) : Prop :=
  (s.fallsSilentAt e units → t.length.span = none ∧ SlipStands s t) ∧
  (¬ s.fallsSilentAt e units → e = .b → t.length.span = s.spanAtCount e ∧ SlipStands s t) ∧
  (¬ s.fallsSilentAt e units → e = .a → forward = false →
    t.length.span = s.spanFrom e t.length.a.position t.length.b.position ∧ SlipStands s t) ∧
  (¬ s.fallsSilentAt e units → e = .a → forward = true → s.spanAtCount e = none →
    t.length.span = none ∧ SlipStands s t) ∧
  (¬ s.fallsSilentAt e units → e = .a → forward = true → ∀ span ∈ s.spanAtCount e,
    ((t.length.a.position : Int) - span.pa0 < s.motion.settings.check → t.length.span = some span ∧ SlipStands s t) ∧
    (s.motion.settings.check ≤ (t.length.a.position : Int) - span.pa0 →
      t.length.lastDeviation = ppmHeld (t.length.a.position - span.pa0) (t.length.b.position - span.pb0) ∧
      t.length.slipCount = (if s.motion.settings.slip < t.length.lastDeviation.natAbs then min (s.length.slipCount + 1) 65535
        else s.length.slipCount) ∧
      t.PendsAs .slip (s.postTimes (if s.motion.settings.slip < t.length.lastDeviation.natAbs then 1 else 0) .slip) ∧
      t.length.span = s.spanFrom e t.length.a.position t.length.b.position))

/-! ## A change of P (R14, R67, R68, R91, R124, R125) -/

/-- At a P the record is UPSTREAM at or past the knife line and the ACTIVE plan has no lane for it (R50, R67). -/
def State.trimmedAt (s : State) (p : Nat) (r : PathRecord) : Bool :=
  r.slit.isNone && decide (r.body.web + s.geometry.k ≤ p) &&
    decide (lookupLanes s.plans.active r.body.xs r.body.xe = .trim)

/-- What a record stores of lanes at a P: an UPSTREAM one at or past the knife line takes those of the lookup (R48, R51, R67). -/
def State.lanesAt (s : State) (p : Nat) (r : PathRecord) : Option LaneRange :=
  if r.slit = none ∧ r.body.web + s.geometry.k ≤ p then
    match lookupLanes s.plans.active r.body.xs r.body.xe with
    | .trim => none
    | .lanes x => some x
  else r.slit

/-- At a P the record, SLIT by then, is taken out at the nip; none is while a cut is open (R68, R69). -/
def State.takenOutAt (s : State) (p : Nat) (r : PathRecord) : Bool :=
  !s.job.state.isCutOpen && (s.lanesAt p r).isSome && decide (r.body.web + s.geometry.w ≤ p)

/-- The records of the queue that hold a stop entry id (R72). -/
def PathQueue.idsHeld (q : PathQueue) : Nat := q.records.countP (fun r => r.stopId.isSome)

/-- What a change of P does to the path queue: records in trim leave it, records at the knife line take their lanes, records at
the nip leave it, delivered into the winding set or, with none, unmapped; every other one stays as it is, and each is counted
(R50, R67, R68, R73). The change count rises by 1 for each record that reaches the knife line, for each taken out at the nip and
for each stop entry id given up (R181). -/
abbrev RecordsFollow (s t : State) : Prop :=
  let p : Nat := t.length.p
  let knives : Nat := s.queue.records.countP (fun r => decide (r.slit = none ∧ r.body.web + s.geometry.k ≤ p))
  let trimmed : Nat := s.queue.records.countP (s.trimmedAt p)
  let out : Nat := s.queue.records.countP (s.takenOutAt p)
  (∃ cleared : Nat, cleared + t.queue.idsHeld ≤ s.queue.idsHeld ∧
    (trimmed = 0 → out = 0 → (s.queue.records.map (·.body.number)).Nodup →
      cleared + t.queue.idsHeld = s.queue.idsHeld) ∧
    t.queue.changes % 65536 = (s.queue.changes + knives + out + cleared) % 65536) ∧
  t.queue.records.map (fun r => (r.body, r.slit, r.joined)) =
    (s.queue.records.filter (fun r => !s.trimmedAt p r && !s.takenOutAt p r)).map
      (fun r => (r.body, s.lanesAt p r, r.joined)) ∧
  (t.queue.flow.taken = s.queue.flow.taken ∧ t.queue.flow.returned = s.queue.flow.returned ∧
    t.queue.flow.removed = s.queue.flow.removed) ∧
  t.queue.flow.trimmed % 4294967296 = (s.queue.flow.trimmed + trimmed) % 4294967296 ∧
  t.queue.flow.delivered % 4294967296 =
    (s.queue.flow.delivered + if s.roll.windingSet = none then 0 else out) % 4294967296 ∧
  t.queue.flow.unmapped % 4294967296 =
    (s.queue.flow.unmapped + if s.roll.windingSet = none then out else 0) % 4294967296 ∧
  (∀ set ∈ s.roll.windingSet, set.trimTally ≤ 65535 →
    ∀ set' ∈ t.roll.windingSet, set'.trimTally = min (set.trimTally + trimmed) 65535)

/-- The tracker is LOST (R125). -/
def TrackerState.isLost : TrackerState → Bool
  | .lost _ => true
  | _ => false

/-- The MARK-LOST stop at P that a loss asks for (R125). -/
def State.lossStop (s : State) : StopOffer :=
  { kind := .markLost, origin := .internal, ref := .nothing, web := s.length.p, station := 0, target := s.length.p }

/-- The planner's evaluation at a change of P (R14, R143), after tracking, resolution and delivery (log entry 13): it is that of the
part as those leave it. Where no record goes to trim nothing before it has touched the stop list but a MARK-LOST entry (R125),
offered where the tracker becomes LOST in a job that stops on loss, whatever that offer comes to; where one does, its entry is
out of the list (R50). -/
abbrev PlannerFollows (s t : State) : Prop :=
  let u : State := { s with length := t.length }
  let lost : Prop := t.tracker.state.isLost = true ∧ s.tracker.state.isLost = false
  let trimmed : List PathRecord := s.queue.records.filter (s.trimmedAt t.length.p)
  PlannerAs (evaluate (deliverDue (resolveDue (trackChange s.length.p u)))) t ∧
  (trimmed = [] → ¬ lost ∨ s.tracker.settings.stopOnLoss ≠ 1 → PlannerAs (evaluate u) t) ∧
  (trimmed = [] → lost → s.tracker.settings.stopOnLoss = 1 →
    ∃ (m : State) (id : Option Nat), OfferTaken t.lossStop u m id ∧ PlannerAs (evaluate m) t) ∧
  (¬ lost → ∀ r ∈ trimmed, ∀ id ∈ r.stopId, ∀ e ∈ t.stops.entries, e.id ≠ id)

/-- The winding test (R91): in WINDING, at a change of P, every entry of the winding set whose record has a register item is
WOUND exactly while W + w ≤ P. -/
abbrev WindingTested (s t : State) : Prop :=
  s.job.state = .winding → ∀ set ∈ t.roll.windingSet, ∀ lane ∈ set.lanes,
    (∀ e ∈ lane.defects, ∀ it ∈ t.roll.register.find? (fun x => decide (x.body.number = e.record)),
      (e.wound = true ↔ it.body.web + s.geometry.w ≤ t.length.p)) ∧
    (∀ e ∈ lane.splices, ∀ it ∈ t.roll.register.find? (fun x => decide (x.body.number = e.record)),
      (e.wound = true ↔ it.body.web + s.geometry.w ≤ t.length.p))

/-- Records delivered into the winding set one after the other (R68, R85). -/
def State.deliverAll (s : State) (due : List PathRecord) : State :=
  due.foldl (fun u r =>
    match r.slit, u.roll.windingSet with
    | some lanes, some set => deliverToRoll { body := r.body, lanes := lanes } set u
    | _, _ => u) s

/-- A tally after `k` rises, each of which holds at 65,535 (R79). -/
def tallied (x k : Nat) : Nat := if k = 0 then x else min (x + k) 65535

/-- What a change of P does to the roll map (R14, R50, R68, R85, R91, R127; log entry 13): the trim tally rises with each record in
trim, the repeat and mark-fault tallies with each missed mark, the records at the nip are delivered into the winding set in queue
order, with their events, and in WINDING every entry is tested against the new P. -/
abbrev RollFollows (s t : State) : Prop :=
  let p : Nat := t.length.p
  let trimmed : Nat := s.queue.records.countP (s.trimmedAt p)
  let missed : Nat := t.tracker.state.missed - s.tracker.state.missed
  let due : List PathRecord := (s.queue.records.filter (s.takenOutAt p)).map (fun r => { r with slit := s.lanesAt p r })
  let u : State :=
    { s with length := t.length
             roll := s.roll.mapWinding (fun x =>
               { x with trimTally := tallied x.trimTally trimmed
                        repeatTally := tallied x.repeatTally missed
                        markFaultTally := tallied x.markFaultTally missed }) }
  let v : State := u.deliverAll due
  t.roll = (if s.job.state = .winding then windingTest v else v).roll ∧
  ∀ k ∈ [EventKind.defectDropped, .laneHold], t.PendsAs k v

/-- The lock after `j` missed marks: the flywheel has moved Wlast on by `j` repeats (R124). -/
def MarkLock.afterMissed (l : MarkLock) (repeatLength j : Nat) : MarkLock :=
  { l with wlast := l.wlast + (j : Int) * repeatLength, missed := l.missed + j }

/-- P − m has come to the end of the window that follows `j` missed marks (R124). -/
abbrev State.windowEndPassed (s : State) (l : MarkLock) (p j : Nat) : Prop :=
  l.wlast + (j : Int) * s.tracker.settings.expected + s.tracker.settings.expected + s.tracker.settings.window ≤
    (p : Int) - s.geometry.m

/-- Missed marks and the loss (R124, R125): a rise of P in LOCKED declares one missed mark for each window end it passes, as
long as the loss count is not met; each moves Wlast on by R and counts, and the one that meets the loss count makes the tracker
LOST, with a MARK-LOST entry at P where the job stops on loss and the list has room (the entry is still there while the web
moves; its id is a fresh one, which no record holds). -/
abbrev MissedMarksFollow (l : MarkLock) (s t : State) : Prop :=
  ∃ j < 16, l.missed + j ≤ s.tracker.settings.lossCount ∧
    (∀ i < j, s.windowEndPassed l t.length.p i) ∧
    (l.missed + j < s.tracker.settings.lossCount → ¬ s.windowEndPassed l t.length.p j) ∧
    t.tracker = { s.tracker with
      sense := .forward
      state := if l.missed + j = s.tracker.settings.lossCount then
        .lost (l.afterMissed s.tracker.settings.expected j) else .locked (l.afterMissed s.tracker.settings.expected j)
      missed := if j = 0 then s.tracker.missed else min (s.tracker.missed + j) 65535
      losses := if l.missed + j = s.tracker.settings.lossCount then min (s.tracker.losses + 1) 65535
        else s.tracker.losses } ∧
    t.PendsAs .markFault (s.postTimes j .markFault) ∧
    t.PendsAs .markLost (s.postTimes (if l.missed + j = s.tracker.settings.lossCount then 1 else 0) .markLost) ∧
    (∀ set ∈ s.roll.windingSet, set.repeatTally ≤ 65535 → set.markFaultTally ≤ 65535 → ∀ set' ∈ t.roll.windingSet,
      set'.repeatTally = min (set.repeatTally + j) 65535 ∧ set'.markFaultTally = min (set.markFaultTally + j) 65535) ∧
    (l.missed + j = s.tracker.settings.lossCount → s.tracker.settings.stopOnLoss = 1 → s.stops.entries.length < 16 →
      (∀ r ∈ s.queue.records, r.stopId ≠ some s.stops.freshId) → s.motion.standstill = false →
      ∃ x ∈ t.stops.entries, x.id = s.stops.freshId ∧ x.kind = .markLost ∧ x.origin = .internal ∧ x.ref = .nothing ∧
        x.web = t.length.p ∧ x.station = 0 ∧ x.target = t.length.p)

/-! ## Delivery into the lanes (R85 to R89) -/

/-- An entry has taken its place in a list by position, behind the entries of equal position (R80, R85). -/
abbrev PlacedIn {α : Type} (position : α → Int) (e : α) (before after : List α) : Prop :=
  ∃ n ≤ before.length, after = before.take n ++ e :: before.drop n ∧
    (∀ x ∈ before.take n, position x ≤ position e) ∧ (∀ x ∈ (before.drop n).head?, position e < position x)

/-- The entry that an overflow removes: of the least severity held, the greatest position, the last of equal ones (R86). -/
abbrev IsOverflowVictim (n : Nat) (v : DefectEntry) (l : List DefectEntry) : Prop :=
  l[n]? = some v ∧
  (∀ x ∈ l.take n, v.severity.rank < x.severity.rank ∨ (v.severity.rank = x.severity.rank ∧ x.position ≤ v.position)) ∧
  (∀ x ∈ l.drop (n + 1), v.severity.rank < x.severity.rank ∨
    (v.severity.rank = x.severity.rank ∧ x.position < v.position))

/-- A defect entry offered to a lane (R85, R86): a list of fewer than 32 takes it; a full one counts an overflow and drops it,
or, where it outranks the least severity held, removes the victim for it; the edit count follows. -/
abbrev TakesDefect (e : DefectEntry) (lane lane' : LaneRecord) : Prop :=
  (lane'.number = lane.number ∧ lane'.width = lane.width ∧ lane'.splices = lane.splices ∧
    lane'.spliceOverflow = lane.spliceOverflow) ∧
  (lane.defects.length < 32 →
    PlacedIn (·.position) e lane.defects lane'.defects ∧ lane'.defectOverflow = lane.defectOverflow ∧
    lane'.edits = (lane.edits + 1) % 65536) ∧
  (32 ≤ lane.defects.length →
    lane'.defectOverflow = min (lane.defectOverflow + 1) 65535 ∧
    ((∀ x ∈ lane.defects, e.severity.rank ≤ x.severity.rank) →
      lane'.defects = lane.defects ∧ lane'.edits = lane.edits) ∧
    ((∃ x ∈ lane.defects, x.severity.rank < e.severity.rank) →
      (∃ n < lane.defects.length, ∃ v ∈ lane.defects, IsOverflowVictim n v lane.defects ∧
        PlacedIn (·.position) e (lane.defects.eraseIdx n) lane'.defects) ∧
      lane'.edits = (lane.edits + 2) % 65536))

/-- A splice entry offered to a lane (R85, R87): a list of fewer than 8 takes it, a full one drops it and counts. -/
abbrev TakesSplice (e : SpliceEntry) (lane lane' : LaneRecord) : Prop :=
  (lane'.number = lane.number ∧ lane'.width = lane.width ∧ lane'.defects = lane.defects ∧
    lane'.defectOverflow = lane.defectOverflow) ∧
  (lane.splices.length < 8 →
    PlacedIn (·.position) e lane.splices lane'.splices ∧ lane'.spliceOverflow = lane.spliceOverflow ∧
    lane'.edits = (lane.edits + 1) % 65536) ∧
  (8 ≤ lane.splices.length →
    lane'.splices = lane.splices ∧ lane'.spliceOverflow = min (lane.spliceOverflow + 1) 65535 ∧ lane'.edits = lane.edits)

/-- Tag, class and severity of a DEFECT record. -/
def RecordKind.defectFields : RecordKind → Option (Nat × Nat × Severity)
  | .defect tag cls severity => some (tag, cls, severity)
  | .sensedSplice => none
  | .repairSplice => none

/-- The kind of the splice entries of a splice record (R85). -/
def RecordKind.spliceKind : RecordKind → Option SpliceKind
  | .defect _ _ _ => none
  | .sensedSplice => some .sensed
  | .repairSplice => some .repair

/-- A lane number lies in a record's range. -/
def LaneRange.contains (r : LaneRange) (n : Nat) : Bool := decide (r.first ≤ n ∧ n ≤ r.last)

/-- What one lane of a record's range makes of the record (R52, R54, R85 to R89). -/
abbrev LaneTakes (it : RegisterItem) (set : SetRecord) (s : State) (lane lane' : LaneRecord) : Prop :=
  (∀ x ∈ it.body.kind.defectFields,
    TakesDefect { record := it.body.number, tag := x.1, cls := x.2.1, severity := x.2.2, length := it.body.length,
                  position := it.body.web + s.geometry.w - set.start,
                  offset := it.body.xs - set.knives.getD (lane.number - 1) 0,
                  oldPlan := decide (it.lanes.plan ≠ set.plan), wound := true } lane lane' ∧
    lane'.status =
      (if lane.status = .good ∧ s.job.params.holdOnCritical = true ∧ x.2.2 = .critical then .hold (some .critical)
        else lane.status)) ∧
  (∀ kind ∈ it.body.kind.spliceKind,
    TakesSplice { record := it.body.number, kind := kind, position := it.body.web + s.geometry.w - set.start,
                  oldPlan := decide (it.lanes.plan ≠ set.plan), wound := true } lane lane' ∧
    lane'.status =
      (if lane.status = .good ∧ s.job.params.spliceLimit < lane'.splices.length + lane'.spliceOverflow then
        .hold (some .spliceLimit) else lane.status))

/-- A record handed to the roll map is entered into the winding set (R53, R85 to R89): each lane of its range takes it, each
lane number above the lane count is unplaced, every other lane stands; DEFECT-DROPPED is posted for each full defect list and
LANE-HOLD for each lane that goes HOLD; its item joins the register. -/
abbrev DeliveryFollows (it : RegisterItem) (set : SetRecord) (s t : State) : Prop :=
  t.roll.windingSet.isSome = true ∧ ∀ set' ∈ t.roll.windingSet,
    set' = { set with lanes := set'.lanes, unplacedTally := set'.unplacedTally } ∧
    set'.lanes.length = set.lanes.length ∧
    (set.unplacedTally ≤ 65535 → set'.unplacedTally =
      min (set.unplacedTally + (it.lanes.last - max (it.lanes.first - 1) set.lanes.length)) 65535) ∧
    (∀ n < set.lanes.length, ∀ lane ∈ set.lanes[n]?, ∀ lane' ∈ set'.lanes[n]?,
      if it.lanes.contains (n + 1) then LaneTakes it set s lane lane' else lane' = lane) ∧
    t.PendsAs .defectDropped (s.postTimes
      ((set.lanes.zipIdx 1).countP (fun x => it.body.kind.defectFields.isSome && it.lanes.contains x.2 && decide (32 ≤ x.1.defects.length)))
      .defectDropped) ∧
    t.PendsAs .laneHold (s.postTimes
      ((set.lanes.zip set'.lanes).countP (fun x => decide (x.1.status = .good ∧ x.2.status ≠ .good))) .laneHold) ∧
    (∀ x ∈ t.roll.register, x ∈ s.roll.register ∨ x = it) ∧
    ((∀ x ∈ s.roll.register, x.body.number ≠ it.body.number) → it.lanes.first ≤ it.lanes.last →
      it.lanes.first ≤ set.lanes.length → (∀ lane ∈ set.lanes, lane.defects.length < 32 ∧ lane.splices.length < 8) →
      t.roll.register = s.roll.register ++ [it]) ∧
    t = { s with roll := { s.roll with slots := t.roll.slots, register := t.roll.register }, alerts := t.alerts }

/-- The entry's target is a length of the roll: its reference is a set (R112, R136). -/
def StopRef.isSet : StopRef → Bool
  | .set _ => true
  | _ => false

/-! ## The repeat-aligned set end (R131) -/

/-- `j` repeats lead from a mark to the first boundary at or beyond a web mark. -/
abbrev FirstBoundary (wl wlast : Int) (rm j : Nat) : Prop :=
  wl ≤ wlast + (j : Int) * rm ∧ ∀ i < j, wlast + (i : Int) * rm < wl

/-- The web mark of a SET-END entry for a set start and a target length (R131, R132): for a job that aligns with the tracker
LOCKED the first repeat boundary at or beyond setStart + L − w, plus the cut offset; otherwise setStart + L − w. -/
abbrev State.IsSetEndWeb (s : State) (start length : Nat) (web : Int) : Prop :=
  (∀ l, s.tracker.settings.tracking = true → s.tracker.settings.align = 1 → s.tracker.state = .locked l → 0 < l.rm →
    ∃ j, FirstBoundary ((start : Int) + length - s.geometry.w) l.wlast l.rm j ∧
      web = l.wlast + (j : Int) * l.rm + s.tracker.settings.cutOffset) ∧
  (s.tracker.settings.tracking = false ∨ s.tracker.settings.align ≠ 1 ∨ (∀ l, s.tracker.state ≠ .locked l) →
    web = (start : Int) + length - s.geometry.w)

/-- What a GOOD mark or a relock makes of the part `s` with its marks and tallies just set (R133, R154): in a job that aligns a
WAITING SET-END entry takes the target of R131 from those marks, under its id and behind entries of equal target, and the planner
evaluates; an ACTIVE one is frozen. In any other job, and with no set or no entry, nothing more changes. -/
abbrev RealignFollows (l : MarkLock) (s t : State) : Prop :=
  (s.tracker.settings.align ≠ 1 ∨ s.stops.setEnd = none ∨ s.roll.windingSet = none → t = s) ∧
  (∀ e ∈ s.stops.setEnd, ∀ set ∈ s.roll.windingSet,
    (e.active = true ∨ set.target = none → t = s) ∧
    (∀ length ∈ set.target, s.tracker.settings.align = 1 → e.active = false → 0 < l.rm →
      ∃ j : Nat, FirstBoundary ((set.start : Int) + length - s.geometry.w) l.wlast l.rm j ∧
        let web : Int := l.wlast + (j : Int) * l.rm + s.tracker.settings.cutOffset
        (s.stops.Sound → t = evaluate (s.stopMoved e web (web + s.geometry.w))) ∧
        (s.motion.standstill = false ∨ s.job.state.isCutOpen = true →
          ∃ x ∈ t.stops.entries, x.id = e.id ∧ x.kind = .setEnd ∧ x.web = web ∧ x.target = x.web + s.geometry.w ∧
            x.insertion = s.stops.insertions)))

/-! ## Completion at standstill (R145, R148 to R150) -/

/-- The last stop record of an entry completed at P (R148, R150). -/
def State.recordOf (s : State) (e : StopEntry) (late : Bool) (shortfall : Nat) : LastStop :=
  let error : Int := (s.length.p : Int) - e.target
  { id := e.id, kind := e.kind, target := e.target, p := s.length.p, error := error,
    outcome := if error < -(s.motion.settings.tolerance : Int) then .short
      else if (s.motion.settings.tolerance : Int) < error then .over else .onTarget,
    late := late, shortfall := shortfall }

/-- The WAITING entries that the sweep after the completion of an entry takes (R149): targets at or below P + tolerance. -/
def State.sweptWith (s : State) (first : StopEntry) : List StopEntry :=
  s.stops.entries.filter (fun x =>
    decide (x.id ≠ first.id ∧ x.active = false ∧ x.target ≤ (s.length.p : Int) + s.motion.settings.tolerance))

/-- A completion and its sweep (R148 to R150): the entry and every WAITING entry in reach leave the list, their records give the
ids up, the last stop record is that of the last one out, and STOP-REACHED is posted for each, after `before`. The list's change
count rises by 1 for each entry out, and by the activations just before (R182); the queue's by 1 for each id given up (R181). -/
abbrev CompletionFollows (first : StopEntry) (late : Bool) (shortfall : Nat) (before : List EventKind) (activations : Nat)
    (s t : State) : Prop :=
  t.stops.entries = s.stops.entries.filter (fun x => decide (x.id ≠ first.id ∧ x ∉ s.sweptWith first)) ∧
  t.stops.lastStop = some (match (s.sweptWith first).getLast? with
    | none => s.recordOf first late shortfall
    | some x => s.recordOf x false 0) ∧
  t.alerts = (State.postAll (before ++ List.replicate ((s.sweptWith first).length + 1) .stopReached) s).alerts ∧
  t.queue.records.map (fun r => { r with stopId := none }) = s.queue.records.map (fun r => { r with stopId := none }) ∧
  (∀ x ∈ first :: s.sweptWith first, ∀ r ∈ t.queue.records, x.ref = .record r.body.number → r.stopId ≠ some x.id) ∧
  (t.stops = { s.stops with entries := t.stops.entries, lastStop := t.stops.lastStop, changes := t.stops.changes } ∧
    t.stops.changes % 65536 = (s.stops.changes + activations + 1 + (s.sweptWith first).length) % 65536) ∧
  (t.queue = { s.queue with records := t.queue.records, changes := t.queue.changes } ∧
    t.queue.changes % 65536 = (s.queue.changes + (first :: s.sweptWith first).countP (fun x =>
      s.queue.records.any (fun r => decide (x.ref = .record r.body.number ∧ r.stopId = some x.id)))) % 65536) ∧
  t = { s with stops := t.stops, queue := t.queue, alerts := t.alerts }

/-! ## The exact length (R10 to R13) -/

/-- An encoder's figures within their ranges (R8, R9), its remainder below the divisor and its position within 32 bits
(R10, R12). -/
abbrev Measure.Sound (m : Measure) : Prop :=
  (100000 ≤ m.circumference ∧ m.circumference ≤ 2000000) ∧ (100 ≤ m.counts ∧ m.counts ≤ 80000) ∧
  (-20000 ≤ m.trim ∧ m.trim ≤ 20000) ∧ m.remainder < m.divisor ∧ m.position ≤ topOfPosition

/-- The length counter and the strobe divider keep their ranges (R8 to R13, R22, R23). -/
abbrev State.LengthSound (s : State) : Prop :=
  s.length.a.Sound ∧ s.length.b.Sound ∧ s.length.p ≤ topOfPosition ∧
  (1 ≤ s.strobe.interval ∧ s.strobe.interval ≤ 1000 ∧ s.strobe.count < s.strobe.interval ∧ s.strobe.owed ≤ 65535)

/-! ## Standstill (R28, R31, R143, R146) -/

/-- At standstill the ring holds four zeros, v and S are 0 and the direction is FORWARD; at standstill and while a cut is
open no stop entry is ACTIVE, so STOP is released. -/
abbrev State.StandstillSound (s : State) : Prop :=
  (s.motion.standstill = true →
    s.motion.ring = { d1 := 0, d2 := 0, d3 := 0, d4 := 0 } ∧ s.motion.speed = 0 ∧ s.motion.braking = 0 ∧
    s.motion.direction = .forward) ∧
  ((s.motion.standstill = true ∨ s.job.state.isCutOpen = true) → s.stopAsserted = false)

/-! ## The path queue (R57, R73, R74) -/

/-- At most 64 records, each with a joining number of its own, in ascending web mark and in the order of joining where web
marks are equal; no record in NO-JOB (R57, R76). -/
abbrev State.QueueSound (s : State) : Prop :=
  s.queue.records.length ≤ 64 ∧
  s.queue.records.Pairwise (fun a b => a.before b = true) ∧
  (s.queue.records.map (·.joined)).Nodup ∧
  (∀ r ∈ s.queue.records, r.joined < s.queue.nextJoin) ∧
  (s.job.state = .noJob → s.queue.records = [])

/-- The equality of the flow counters, modulo 4,294,967,296 (R74). -/
abbrev PathQueue.Balanced (q : PathQueue) : Prop :=
  (q.flow.taken + q.flow.returned) % 4294967296 =
    (q.records.length + q.flow.delivered + q.flow.trimmed + q.flow.removed + q.flow.unmapped) % 4294967296

/-! ## Station records (R186 to R188) -/

/-- Each kind is pending at most once, held in the order of 11.1, with a count from 1 to 255; only routine kinds are enabled;
and the line is asserted exactly while an urgent kind, or with the master enable on an enabled kind, is pending (R186 to
R189). -/
abbrev Station.Sound (st : Station) : Prop :=
  st.pending.Pairwise (fun a b => a.1.code < b.1.code) ∧ (∀ e ∈ st.pending, 1 ≤ e.2 ∧ e.2 ≤ 255) ∧
  (∀ k ∈ st.enabled, k.urgent = false) ∧
  (st.line = true ↔
    (∃ e ∈ st.pending, e.1.urgent = true) ∨ (st.master = true ∧ ∃ e ∈ st.pending, e.1 ∈ st.enabled))

abbrev State.AlertsSound (s : State) : Prop := s.alerts.l.Sound ∧ s.alerts.i.Sound ∧ s.alerts.o.Sound

/-! ## Intake and splice detection (R62, R63, R66) -/

/-- The record number is held by a record of the queue, or by an entry of a lane of the winding set (R56). -/
abbrev State.HoldsNumber (s : State) (n : Nat) : Prop :=
  (∃ r ∈ s.queue.records, r.body.number = n) ∨
  ∃ set ∈ s.roll.windingSet, ∃ lane ∈ set.lanes, (∃ e ∈ lane.defects, e.record = n) ∨ ∃ e ∈ lane.splices, e.record = n

/-- The tag is live (R59): held by a DEFECT record of the queue, or by a defect entry of a lane of the winding set. -/
abbrev State.HoldsTag (s : State) (tag : Nat) : Prop :=
  (∃ r ∈ s.queue.records, ∃ x ∈ r.body.kind.defectFields, x.1 = tag) ∨
  ∃ set ∈ s.roll.windingSet, ∃ lane ∈ set.lanes, ∃ e ∈ lane.defects, e.tag = tag

/-- A number from 1 to `top` is the first at or after `start`, 1 following `top`, that is not held (R56, R137). -/
abbrev FirstFree (top start : Nat) (held : Nat → Prop) (n : Nat) : Prop :=
  (1 ≤ n ∧ n ≤ top) ∧ ¬ held n ∧ ∃ j < top, n = (start - 1 + j) % top + 1 ∧ ∀ i < j, held ((start - 1 + i) % top + 1)

/-- The part with a record entered (R56, R57, R62, R65, R71): at its place in the queue behind records of equal web mark, counted,
and the next record number after its own. -/
def State.recordEntered (body : RecordBody) (slit : Option LaneRange) (s : State) : State :=
  { s with queue := { s.queue with
      records := s.queue.records.takeWhile (fun r => decide (r.body.web ≤ body.web)) ++
        { body := body, slit := slit, stopId := none, joined := s.queue.nextJoin } ::
          s.queue.records.dropWhile (fun r => decide (r.body.web ≤ body.web))
      nextNumber := if body.number < 65535 then body.number + 1 else 1
      nextJoin := s.queue.nextJoin + 1
      flow := { s.queue.flow with taken := (s.queue.flow.taken + 1) % 4294967296 }
      changes := (s.queue.changes + 1) % 65536 } }

/-- The stop decision for a record just entered: nothing, or what an offer for it makes of the part (R63, R66). -/
abbrev StopDecided (stops : Prop) (o : StopOffer) (s t : State) (id : Option Nat) : Prop :=
  (¬ stops → t = s ∧ id = none) ∧ (stops → OfferTaken o s t id)

/-- The DEFECT stop that a record asks for (R63). -/
def State.defectStop (s : State) (body : RecordBody) : StopOffer :=
  { kind := .defect, origin := .internal, ref := .record body.number, web := body.web, station := s.geometry.s,
    target := body.web + s.geometry.s + s.job.params.stopOffset }

/-- The SPLICE-LIMIT stop that a sensed splice asks for (R66). -/
def State.spliceStop (s : State) (number : Nat) (web : Int) : StopOffer :=
  { kind := .spliceLimit, origin := .internal, ref := .record number, web := web, station := s.geometry.w,
    target := web + s.geometry.w }

/-- Every record lies ahead of the line that it comes to next, as R67 and R68 leave the queue: an UPSTREAM one ahead of the
knife line and, outside a cut, a SLIT one ahead of the nip. -/
abbrev State.AheadOfLines (s : State) : Prop :=
  ∀ r ∈ s.queue.records,
    (r.slit = none → (s.length.p : Int) < r.body.web + s.geometry.k) ∧
    (r.slit.isSome = true → s.job.state.isCutOpen = false → (s.length.p : Int) < r.body.web + s.geometry.w)

/-- What the steps of R62 make of a defect whose point has passed the knife line, with no other record due: in trim it is
discarded; otherwise it takes its lanes, makes its stop decision, and stays SLIT in the queue or, past the nip outside a cut,
is delivered at once or, with no set WINDING, discarded as unmapped. -/
abbrev LateDefectFollows (body : RecordBody) (stops : Prop) (id : Nat) (s t : State) : Prop :=
  let taken : Nat := (s.queue.flow.taken + 1) % 4294967296
  let places : Prop := s.queue.records.map (fun r => (r.body, r.slit, r.joined)) =
    t.queue.records.map (fun r => (r.body, r.slit, r.joined))
  (lookupLanes s.plans.active body.xs body.xe = .trim →
    id = 0 ∧ t.queue.records = s.queue.records ∧
    t.queue.flow = { s.queue.flow with taken := taken, trimmed := (s.queue.flow.trimmed + 1) % 4294967296 } ∧
    t.stops = s.stops ∧ t.roll = s.roll.mapWinding (fun r => { r with trimTally := min (r.trimTally + 1) 65535 })) ∧
  (∀ range, lookupLanes s.plans.active body.xs body.xe = .lanes range →
    (s.stops.Sound →
      let u : State := s.recordEntered body (some range)
      ∃ (m : State) (placed : Option Nat), StopDecided stops (s.defectStop body)
          { u with queue := { u.queue with changes := (s.queue.changes + 2) % 65536 } } m placed ∧ id = placed.getD 0 ∧
        (s.job.state.isCutOpen = true ∨ (s.length.p : Int) < body.web + s.geometry.w → t = { m with ports := t.ports }) ∧
        (s.job.state.isCutOpen = false → body.web + s.geometry.w ≤ s.length.p →
          t.stops = m.stops ∧
          t.queue.records = m.queue.records.filter (fun r => decide (r.joined ≠ s.queue.nextJoin)) ∧
          (s.AlertsSound → ∀ k ∈ stopPosts, t.PendsAs k m))) ∧
    (stops → s.stops.entries.length < 16 →
      id = s.stops.freshId ∧
      (s.motion.standstill = false ∨ s.job.state.isCutOpen = true → ∃ e ∈ t.stops.entries, e.id = id ∧ e.kind = .defect ∧
        e.origin = .internal ∧ e.ref = .record body.number ∧ e.web = body.web ∧ e.station = s.geometry.s ∧
        e.target = body.web + s.geometry.s + s.job.params.stopOffset)) ∧
    (s.job.state.isCutOpen = true ∨ (s.length.p : Int) < body.web + s.geometry.w →
      t.roll = s.roll ∧ t.queue.flow = { s.queue.flow with taken := taken } ∧
      ∃ r ∈ t.queue.records, r.body = body ∧ r.slit = some range ∧ (¬ stops → r.stopId = none) ∧
        (stops → s.stops.entries.length < 16 → s.motion.standstill = false ∨ s.job.state.isCutOpen = true →
          r.stopId = some id)) ∧
    (s.job.state.isCutOpen = false → body.web + s.geometry.w ≤ s.length.p →
      places ∧
      (∀ set ∈ s.roll.windingSet, t.roll = (deliverToRoll { body := body, lanes := range } set s).roll ∧
        t.queue.flow = { s.queue.flow with taken := taken, delivered := (s.queue.flow.delivered + 1) % 4294967296 }) ∧
      (s.roll.windingSet = none → t.roll = s.roll ∧
        t.queue.flow = { s.queue.flow with taken := taken, unmapped := (s.queue.flow.unmapped + 1) % 4294967296 })))

/-- The count of R66 for a lane of the winding set and a record about to join: the lane's splice entries and its overflow, the
SENSED-SPLICE records of the queue that will fall into it, and the new one. -/
def State.splicesToCome (s : State) (lane : LaneRecord) : Nat :=
  lane.splices.length + lane.spliceOverflow +
  s.queue.records.countP (fun r => decide (r.body.kind = .sensedSplice) &&
    (match r.slit with
     | none => true
     | some x => x.contains lane.number)) + 1

/-- A new splice takes some lane of the winding set over the splice limit of a job that enforces it (R66). -/
abbrev State.SpliceOverLimit (s : State) : Prop :=
  s.job.params.enforce = true ∧ ∃ set ∈ s.roll.windingSet, ∃ lane ∈ set.lanes, s.job.params.spliceLimit < s.splicesToCome lane

/-- The splice-limit decision of R66 for a splice at a web mark: over the limit a SPLICE-LIMIT entry is requested, whose id the
record keeps, or, where a full list has no candidate, STOP-DROPPED is posted; otherwise nothing is requested. The insertion
number is log entry 32. -/
abbrev SpliceLimitFollows (web : Int) (s t : State) : Prop :=
  let keeps : Option Nat → Prop := fun id =>
    ∃ r ∈ t.queue.records, r.body.number = s.freshNumber ∧ r.body.web = web ∧ r.slit = none ∧ r.stopId = id
  (¬ s.SpliceOverLimit → t.stops = s.stops ∧ t.alerts = s.alerts ∧ keeps none) ∧
  (s.SpliceOverLimit →
    (s.stops.entries.length < 16 → s.motion.standstill = false ∨ s.job.state.isCutOpen = true →
      keeps (some s.stops.freshId) ∧
      ∃ e ∈ t.stops.entries, e.id = s.stops.freshId ∧ e.kind = .spliceLimit ∧ e.origin = .internal ∧
        e.ref = .record s.freshNumber ∧ e.web = web ∧ e.station = s.geometry.w ∧ e.target = web + s.geometry.w ∧
        e.insertion = s.stops.insertions) ∧
    (16 ≤ s.stops.entries.length → (∀ e ∈ s.stops.entries, e.active = false → 2 ≤ e.kind.priority) →
      t.stops = s.stops ∧ t.alerts = s.alerts.map (Station.post .stopDropped) ∧ keeps none))

/-! ## Slots (R78, R98) -/

/-- The slot holds a closed set, CLOSED or released (R98). -/
def Slot.isClosed : Slot → Bool
  | .closed _ => true
  | .released _ => true
  | _ => false

/-- The slot is WINDING. -/
def Slot.isWinding : Slot → Bool
  | .winding _ => true
  | _ => false

/-! ## The end of a cut (R69, R92, R116) -/

/-- Every entry of the winding set but those of the record numbers given is WOUND exactly while W + w ≤ P of its register
item (R91, R92). -/
abbrev EntriesTested (but : List Nat) (t : State) : Prop :=
  ∀ set ∈ t.roll.windingSet, ∀ lane ∈ set.lanes,
    (∀ e ∈ lane.defects, e.record ∉ but → ∀ it ∈ t.roll.register.find? (fun x => decide (x.body.number = e.record)),
      (e.wound = true ↔ it.body.web + t.geometry.w ≤ t.length.p)) ∧
    (∀ e ∈ lane.splices, e.record ∉ but → ∀ it ∈ t.roll.register.find? (fun x => decide (x.body.number = e.record)),
      (e.wound = true ↔ it.body.web + t.geometry.w ≤ t.length.p))

/-- The SLIT records at or past the nip, in queue order (R68). -/
def State.heldRecords (s : State) : List PathRecord :=
  s.queue.records.filter (fun r => decide (r.slit.isSome = true ∧ r.body.web + s.geometry.w ≤ s.length.p))

/-- The winding test and the delivery pass of the end of a cut (R116): the entries are tested first, then each held record is
delivered into the winding set, in queue order, with its events, and counted as delivered or, with no set, as unmapped. -/
abbrev CutEndFollows (s t : State) : Prop :=
  t.roll = ((windingTest s).deliverAll s.heldRecords).roll ∧
  (∀ k ∈ [EventKind.defectDropped, .laneHold], t.PendsAs k ((windingTest s).deliverAll s.heldRecords)) ∧
  t.queue.flow.delivered % 4294967296 =
    (s.queue.flow.delivered + if s.roll.windingSet = none then 0 else s.heldRecords.length) % 4294967296 ∧
  t.queue.flow.unmapped % 4294967296 =
    (s.queue.flow.unmapped + if s.roll.windingSet = none then s.heldRecords.length else 0) % 4294967296

/-- A web mark after the cut shift: the held side rises by the cut length (R110 to R112). -/
def State.cutWeb (s : State) (popen : Nat) (web : Int) : Int :=
  if web + s.geometry.s ≤ popen then web + (s.length.p - popen : Nat) else web

/-- The point was pulled through the table during the cut (R108, R114). -/
def State.pulledThrough (s : State) (popen : Nat) (web : Int) : Bool :=
  decide (popen < web + s.geometry.s ∧ web + s.geometry.s ≤ s.length.p)

/-- A record of the queue that SPLICE-MADE takes out, named or pulled through (R113, R114). -/
def State.cutsRecord (s : State) (popen : Nat) (named : List Nat) (r : PathRecord) : Bool :=
  decide (r.body.number ∈ named) || s.pulledThrough popen r.body.web

/-- A register item that SPLICE-MADE takes out: named or pulled through, its entries UNWOUND (R113, R114). -/
def State.cutsItem (s : State) (popen : Nat) (named : List Nat) (set : SetRecord) (it : RegisterItem) : Bool :=
  (decide (it.body.number ∈ named) || s.pulledThrough popen it.body.web) && set.isUnwound it.body.number

/-- A stop entry after the cut shift: the held side and every roll length rise by the cut length (R112). -/
def State.cutStop (s : State) (popen : Nat) (e : StopEntry) : StopEntry :=
  if e.web + s.geometry.s ≤ popen ∨ e.ref.isSet = true then
    { e with web := e.web + (s.length.p - popen : Nat), target := e.target + (s.length.p - popen : Nat) }
  else e

/-- The record numbers of the queue and of the register are each held once (R56). -/
abbrev State.NumbersDiffer (s : State) : Prop :=
  (s.queue.records.map (·.body.number) ++ s.roll.register.map (·.body.number)).Nodup

/-- The part after steps 2 to 4 of SPLICE-MADE, in WINDING, before the rest of the end of the cut (R108, R110 to R115): the web marks,
setStart and the stop targets shifted, the named and the pulled-through records gone from queue, lanes and register with their
stop entries, and the repair splice entered, or the set marked for a full queue. The change counts are those of R181 and R182
(the shifted stop entries: log entry 20). -/
abbrev AfterCut (popen first last : Nat) (named : List Nat) (number : Nat) (set : SetRecord) (s u : State) : Prop :=
  let kept : List PathRecord := s.queue.records.filter (fun r => !s.cutsRecord popen named r)
  let items : List RegisterItem := s.roll.register.filter (fun it => !s.cutsItem popen named set it)
  let gone : Nat → Bool := fun n => s.roll.register.any (fun it => it.body.number == n && s.cutsItem popen named set it)
  let room : Bool := decide (kept.length < 64)
  let cancelled : PathRecord → Bool := fun r => s.stops.entries.any (fun e =>
    decide (e.ref = .record r.body.number ∧ r.stopId = some e.id) &&
      s.queue.records.any (fun x => s.cutsRecord popen named x && decide (x.stopId = some e.id)))
  let repair : PathRecord :=
    { body := { number := number, kind := .repairSplice, xs := 0, xe := 30000, length := 0,
                web := (s.length.p : Int) - s.geometry.s }
      slit := some { first := first, last := last, plan := planId s.plans.active }, stopId := none, joined := s.queue.nextJoin }
  u = { s with job := { s.job with state := .winding }, queue := u.queue, roll := u.roll, stops := u.stops, alerts := u.alerts } ∧
  u.alerts = (if room then s.alerts else s.alerts.map (Station.post .queueFull)) ∧
  u.queue.highMark = s.queue.highMark ∧ u.queue.records.Pairwise (fun a b => a.before b = true) ∧
  (∀ x, x ∈ u.queue.records ↔ (room = true ∧ x = repair) ∨
    ∃ r ∈ kept, x = { r with body := { r.body with web := s.cutWeb popen r.body.web },
                             stopId := if cancelled r then none else r.stopId }) ∧
  u.queue.records.length = kept.length + (if room then 1 else 0) ∧
  (u.queue.nextNumber = (if room then (if number < 65535 then number + 1 else 1) else s.queue.nextNumber) ∧
    u.queue.nextJoin = s.queue.nextJoin + (if room then 1 else 0)) ∧
  (u.queue.flow = { s.queue.flow with taken := u.queue.flow.taken, removed := u.queue.flow.removed } ∧
    u.queue.flow.taken % 4294967296 = (s.queue.flow.taken + if room then 1 else 0) % 4294967296 ∧
    u.queue.flow.removed % 4294967296 =
      (s.queue.flow.removed + s.queue.records.countP (s.cutsRecord popen named)) % 4294967296) ∧
  (s.StopIdsMatch → u.queue.changes % 65536 = (s.queue.changes +
    (if popen < s.length.p ∧ ∃ r ∈ s.queue.records, r.body.web + s.geometry.s ≤ popen then 1 else 0) +
    s.queue.records.countP (s.cutsRecord popen named) + if room then 1 else 0) % 65536) ∧
  (u.stops = { s.stops with entries := u.stops.entries, changes := u.stops.changes } ∧
    u.stops.changes % 65536 = (s.stops.changes + (s.stops.entries.length - u.stops.entries.length) +
      if popen < s.length.p then
        s.stops.entries.countP (fun e => decide (e.web + s.geometry.s ≤ popen) || e.ref.isSet) else 0) % 65536 ∧
    u.stops.entries.Pairwise (fun a b => a.before b = true) ∧
    ∀ x, x ∈ u.stops.entries ↔ ∃ e ∈ s.stops.entries, x = s.cutStop popen e ∧
      ∀ r ∈ s.queue.records, s.cutsRecord popen named r = true → r.stopId ≠ some e.id) ∧
  u.roll.register = items.map (fun it => { it with body := { it.body with web := s.cutWeb popen it.body.web } }) ∧
  u.roll = { s.roll with slots := u.roll.slots, register := u.roll.register } ∧
  (∀ i ∈ [1, 2, 3, 4], (s.roll.slot i).isWinding = false → u.roll.slot i = s.roll.slot i) ∧
  u.roll.windingSet.isSome = true ∧ ∀ set' ∈ u.roll.windingSet,
    set' = { set with start := min (set.start + (s.length.p - popen)) 4294967295, lanes := set'.lanes,
                      removedTally := set'.removedTally, mapIncomplete := set.mapIncomplete || !room } ∧
    set'.lanes.map (fun x => { x with edits := 0 }) = set.lanes.map (fun x =>
      { x with defects := x.defects.filter (fun e => !gone e.record), splices := x.splices.filter (fun e => !gone e.record),
               edits := 0 }) ∧
    set'.lanes.map (fun x => x.edits % 65536) = set.lanes.map (fun x =>
      (x.edits + x.defects.countP (fun e => gone e.record) + x.splices.countP (fun e => gone e.record)) % 65536)

/-! ## Records handed back at set close (R70, R97) -/

/-- What a set close leaves in the queue: every record that was there, and, SLIT with the lanes of its register item and no stop
entry id, each UNWOUND item while there is room, the nearest to the nip first. -/
abbrev RecordsReturned (set : SetRecord) (s t : State) : Prop :=
  let unwound : List RegisterItem := s.roll.register.filter (fun it => set.isUnwound it.body.number)
  (∀ r ∈ s.queue.records, ∃ r' ∈ t.queue.records, r'.joined = r.joined ∧ r'.body = r.body ∧ r'.slit = r.slit) ∧
  (∀ r ∈ t.queue.records, (∃ r' ∈ s.queue.records, r'.joined = r.joined) ∨
    (s.queue.nextJoin ≤ r.joined ∧ r.stopId = none ∧ ∃ it ∈ unwound, r.body = it.body ∧ r.slit = some it.lanes)) ∧
  (s.queue.records.length + unwound.length ≤ 64 →
    ∀ it ∈ unwound, ∃ r ∈ t.queue.records, s.queue.nextJoin ≤ r.joined ∧ r.body = it.body ∧ r.slit = some it.lanes) ∧
  (∀ r ∈ t.queue.records, s.queue.nextJoin ≤ r.joined → ∀ it ∈ unwound, it.body.web < r.body.web →
    ∃ r' ∈ t.queue.records, s.queue.nextJoin ≤ r'.joined ∧ r'.body = it.body ∧ r'.slit = some it.lanes)

/-! ## Slots and the job state (R78, R98) -/

/-- One slot is WINDING while the job state is WINDING or CUT-OPEN and none otherwise; the close list holds each slot with
a closed set once and no other (R78, R98). -/
abbrev State.SlotsSound (s : State) : Prop :=
  s.roll.slots.toList.countP (·.isWinding) = (if s.job.state.setOpen then 1 else 0) ∧
  s.roll.closeList.Nodup ∧
  (∀ n ∈ s.roll.closeList, 1 ≤ n ∧ n ≤ 4) ∧
  (∀ n ∈ [1, 2, 3, 4], n ∈ s.roll.closeList ↔ (s.roll.slot n).isClosed = true)

/-! ## Naming a set (R84) -/

/-- The slot holds a record of that job and set number: WINDING, CLOSED, or FREE with a released set. -/
def Slot.holdsSet (job set : Nat) : Slot → Bool
  | .empty => false
  | .winding r => decide (r.job = job ∧ r.number = set)
  | .closed r => decide (r.job = job ∧ r.number = set)
  | .released r => decide (r.job = job ∧ r.number = set)

/-- A request that names a job and a set names the slot `n` (R84): set 0 the WINDING one whatever the job; any other number a
slot that holds the pair, the WINDING one if it is among them, otherwise the latest in the close list. -/
abbrev State.Names (s : State) (job set n : Nat) : Prop :=
  n ∈ [1, 2, 3, 4] ∧
  (set = 0 → (s.roll.slot n).isWinding = true) ∧
  (set ≠ 0 → (s.roll.slot n).holdsSet job set = true ∧
    ((s.roll.slot n).isWinding = true ∨
      ((∀ m ∈ [1, 2, 3, 4], (s.roll.slot m).isWinding = true → (s.roll.slot m).holdsSet job set = false) ∧
        ∃ i < s.roll.closeList.length, s.roll.closeList[i]? = some n ∧
          ∀ m ∈ s.roll.closeList.drop (i + 1), (s.roll.slot m).holdsSet job set = false)))

end Sys2Proof.Machine
end

