-- ==== Sys2Proof/Certificates/Slice0/Obligations.lean ====
section
/-! DEFINITION. The statements for the provers, from the numbered rules of spec/, in the order of the chapters. -/

open Sys2Proof Sys2Proof.Machine

/-! ## The step -/

/-- A step takes the command at the front of the queue with the queue's rest behind it (log entry 1: the queue is the
model's). -/
def Obligations.StepTakesTheFrontCommand : Prop :=
  ∀ (c : Instr) (rest : List Instr) (s : State),
    s.pending = c :: rest → step s = exec c { s with pending := rest }

/-- The model's choice (log entry 1): with no command waiting a step is one cycle of the clock input. In reset nothing runs.
Otherwise what is due is taken first: the end of warm-up, a gate close, NO-MOTION (log entries 2 and 12). Then the cycle count
rises by 1, the cycle that takes it to 24,000 ending an interval (R193); after warm-up STROBE holds its level for one more
cycle, a pulse ending or beginning when 48 cycles of its level have passed (R23); and what the cycle has made due is taken. With
nothing due and no interval ending, only the count and STROBE change. No port changes but at the end of warm-up: a request
dispatched at a WORKING port is not taken by an idle step (log entry 27). -/
def Obligations.IdleStepRunsOneClockCycle : Prop :=
  ∀ s : State, s.pending = [] →
    (s.time.inReset = true → step s = .next s) ∧
    (s.running = true → s.NothingDue → s.time.cycle + 1 < 24000 →
      step s = .next { s with
        time := { s.time with cycle := s.time.cycle + 1 }
        strobe :=
          if s.strobe.held + 1 < 48 then { s.strobe with held := s.strobe.held + 1 }
          else if s.strobe.high then { s.strobe with high := false, held := 0 }
          else if 0 < s.strobe.owed then { s.strobe with high := true, owed := s.strobe.owed - 1, held := 0 }
          else { s.strobe with held := 48 } }) ∧
    (s.time.inReset = false → ∃ u t : State, DueTaken s u ∧
      (let v : State := u.cycleCounted
       DueTaken { v with strobe := if v.running then v.strobe.cycled else v.strobe } t) ∧
      step s = .next t ∧ (s.running = true → t.ports = s.ports))

/-! ## Chapter 12: reset, warm-up, the interval -/

/-- RESET gives every block its reset values (R194): the values that the chapters give are written out. Of those that are not,
the model's own: the levels on the input pins, the waiting commands and the count of free choices are kept (log entries 9, 12
and 18), and the values of log entries 9, 10 and 11. -/
def Obligations.ResetRestoresEveryBlock : Prop :=
  (∀ s : State, exec .reset s = .next { State.reset with
    inputs := { Inputs.reset with pins := s.inputs.pins }, free := s.free, pending := s.pending }) ∧
  let s := State.reset
  (s.time.cycle = 0 ∧ s.time.warmUp = .counting 0) ∧
  (s.inputs.encA.filter = 0 ∧ s.inputs.encB.filter = 0 ∧ s.inputs.mark.filter = 0 ∧ s.inputs.splice.filter = 0 ∧
    s.inputs.mark.edge = .rising ∧ s.inputs.splice.edge = .rising ∧ s.inputs.encA.glitches = 0 ∧
    s.inputs.encB.glitches = 0) ∧
  s.geometry = { c := -15000, e := -12000, m := -8000, k := 6000, s := 14000, w := 35000 } ∧
  (∀ e : Encoder, (s.length.measure e).circumference = 500000 ∧ (s.length.measure e).counts = 10000 ∧
    (s.length.measure e).trim = 0 ∧ (s.length.measure e).remainder = 0 ∧ (s.length.measure e).position = 0 ∧
    (s.length.measure e).silent = false ∧ (s.length.measure e).silence = 0) ∧
  (s.length.p = 0 ∧ s.length.active = .a ∧ s.length.lastDeviation = 0 ∧ s.length.slipCount = 0) ∧
  (s.strobe.interval = 100 ∧ s.strobe.count = 0 ∧ s.strobe.owed = 0 ∧ s.strobe.high = false) ∧
  s.motion.settings =
    { gate := 20, decel := 500, reaction := 100, tolerance := 50, overrun := 20000, timeout := 2000, silence := 5000,
      check := 100000, slip := 5000 } ∧
  (s.motion.nextGate = none ∧ s.motion.baseline = 0 ∧ s.motion.gateClock = 0 ∧
    s.motion.ring = { d1 := 0, d2 := 0, d3 := 0, d4 := 0 } ∧ s.motion.speed = 0 ∧ s.motion.direction = .forward ∧
    s.motion.overspeed = false ∧ s.motion.standstill = true ∧ s.motion.braking = 0 ∧ s.motion.report = .stopped ∧
    s.motion.checkOpen = false ∧ s.motion.timer = 0 ∧ s.motion.timerOn = false) ∧
  (s.plans.active = none ∧ s.plans.staged = none) ∧
  (s.queue.records = [] ∧ s.queue.nextNumber = 1 ∧ s.queue.highMark = none ∧ s.queue.changes = 0 ∧
    s.queue.flow = { taken := 0, returned := 0, delivered := 0, trimmed := 0, removed := 0, unmapped := 0 }) ∧
  ((∀ x ∈ s.roll.slots.toList, x = .empty) ∧ s.roll.closeList = [] ∧ s.roll.register = [] ∧ s.roll.mapsLost = 0) ∧
  (s.tracker.state = .unlocked ∧ s.tracker.settings.tracking = false ∧ s.tracker.sense = .forward ∧
    s.tracker.good = 0 ∧ s.tracker.extra = 0 ∧ s.tracker.rescanned = 0 ∧ s.tracker.missed = 0 ∧
    s.tracker.losses = 0) ∧
  (s.stops.entries = [] ∧ s.stops.nextId = 1 ∧ s.stops.insertions = 0 ∧ s.stops.lastStop = none ∧
    s.stops.changes = 0) ∧
  (s.job.state = .noJob ∧ s.job.setCounter = 0 ∧ s.job.params =
    { number := 0, target := none, spliceLimit := 8, enforce := false, classes := 0, stopSeverity := .critical,
      stopOnDefect := false, stopOffset := 0, holdOnCritical := false }) ∧
  (∀ p : Port, (s.port p).state = .starting ∧ (s.port p).received = [] ∧ (s.port p).reply = [] ∧
    (s.port p).discarded = 0) ∧
  (∀ p : Port, (s.alerts.get p).master = false ∧ (s.alerts.get p).enabled = [] ∧ (s.alerts.get p).pending = [] ∧
    (s.alerts.get p).line = false)

/-- The release of reset starts the time base with a cycle count of 0 and a warm-up count of 0; at the end of warm-up the
inputs take the levels present with no count and no arrival, the slip span opens, the gate clock begins with baseline 0, every
port becomes READY with empty buffers, and the alert lines follow their records (R194). The glitch marks are cleared with the
first gate (log entry 29). The outputs stand at the levels of R195: released in reset and during warm-up, then STOP high while
an entry is ACTIVE, STROBE high for a pulse, each alert line low while asserted and high impedance otherwise, SDO high impedance
while select is released (log entry 4) and before that the bits of the transaction. -/
def Obligations.ReleaseAndWarmUpFollowR194 : Prop :=
  (∀ s : State, s.time.inReset = true →
    exec .resetRelease s = .next { s with time := { inReset := false, cycle := 0, warmUp := .counting 0 } }) ∧
  (∀ (v : InputLevels) (s : State), s.time.inReset = false → s.time.warmUp = .counting 4 →
      let span : Option SlipSpan :=
        if s.length.active = .a ∧ s.length.a.silent = false ∧ s.length.b.silent = false then
          some { pa0 := s.length.a.position, pb0 := s.length.b.position }
        else none
      exec (.endOfWarmUp v) s = .next { s with
        time := { s.time with warmUp := .ended }
        inputs :=
          { pins := v
            encA := { s.inputs.encA with level1 := v.a1, level2 := v.a2, glitchPosted := false }
            encB := { s.inputs.encB with level1 := v.b1, level2 := v.b2, glitchPosted := false }
            mark := { s.inputs.mark with level := v.mark }
            splice := { s.inputs.splice with level := v.splice } }
        length := { s.length with span := span }
        motion := { s.motion with gateClock := 0, baseline := 0 }
        ports :=
          { l := { s.ports.l with state := .ready, noted := s.ports.l.state, received := [], request := none, reply := [] }
            i := { s.ports.i with state := .ready, noted := s.ports.i.state, received := [], request := none, reply := [] }
            o := { s.ports.o with state := .ready, noted := s.ports.o.state, received := [], request := none, reply := [] } }
        alerts :=
          { l := { s.alerts.l with line := s.alerts.l.lineOf }
            i := { s.alerts.i with line := s.alerts.i.lineOf }
            o := { s.alerts.o with line := s.alerts.o.lineOf } } }) ∧
  (∀ s : State,
    (s.running = false → s.outputs = { stop := .low, strobe := .low, alert := .all .highImpedance, sdo := .all .highImpedance }) ∧
    (s.running = true →
      s.outputs.stop = (if ∃ e ∈ s.stops.entries, e.active = true then .high else .low) ∧
      s.outputs.strobe = (if s.strobe.high then .high else .low) ∧
      ∀ p : Port, s.outputs.alert.get p = (if (s.alerts.get p).line then .low else .highImpedance) ∧
        s.outputs.sdo.get p = .highImpedance)) ∧
  (∀ r : PortRegs, r.sdoLevels.length = 8 * r.sdo.length ∧
    ∀ i < r.sdo.length, ∀ b ∈ r.sdo[i]?, ∀ j < 8,
      r.sdoLevels[8 * i + j]? = some (if b.toNat.testBit (7 - j) then .high else .low))

/-- An interval raises the warm-up count until warm-up has ended (R194); after that it raises the gate clock and lowers a
counting motion timer (R25, R35). Either way the cycle count starts again from 0 (R193). A step that an earlier interval made
due is taken first (log entries 2 and 12): a gate close once the gate clock has counted G, NO-MOTION once a counting timer is at
0, the end of warm-up once its count is 4. In reset no interval is counted. -/
def Obligations.IntervalAdvancesTheClocks : Prop :=
  (∀ s : State,
    (s.gateDue = true ↔ (s.time.inReset = false ∧ s.time.warmUp = .ended) ∧ s.motion.settings.gate ≤ s.motion.gateClock) ∧
    (s.noMotionDue = true ↔
      (s.time.inReset = false ∧ s.time.warmUp = .ended) ∧ s.motion.timerOn = true ∧ s.motion.timer = 0) ∧
    (s.warmUpDue = true ↔ s.time.inReset = false ∧ s.time.warmUp = .counting 4)) ∧
  (∀ s : State, s.time.inReset = true → exec .interval s = .next s) ∧
  (∀ s : State, s.time.inReset = false → ∃ u : State, DueTaken s u ∧ exec .interval s = .next u.intervalEnded) ∧
  ∀ s : State, s.time.inReset = false → s.NothingDue →
    (∀ n, s.time.warmUp = .counting n →
      exec .interval s = .next { s with time := { s.time with cycle := 0, warmUp := .counting (n + 1) } }) ∧
    (s.time.warmUp = .ended →
      exec .interval s = .next { s with
        time := { s.time with cycle := 0 }
        motion := { s.motion with gateClock := s.motion.gateClock + 1,
                                  timer := if s.motion.timerOn then s.motion.timer - 1 else s.motion.timer } })

/-! ## Chapter 2: the motion monitor -/

/-- A gate close measures the web and posts OVERSPEED, STANDSTILL-REACHED and MOTION (R25 to R28, R33, R35); a new S, direction
or STANDSTILL is handed to the stop planner (R29), which alone acts on it. The glitch marks are cleared, so that ENCODER-GLITCH
can be posted again (R5; log entry 29). Everything but the motion monitor, the glitch marks,
the alert records, the stop list and the stop entry ids of path records with their change count stays as it was. -/
def Obligations.GateCloseMeasuresTheWeb : Prop :=
  ∀ s : State, s.running = true → s.motion.settings.gate ≤ s.motion.gateClock →
    let delta : Int := (s.length.p : Int) - s.motion.baseline
    let sum : Int := s.motion.ring.d2 + s.motion.ring.d3 + s.motion.ring.d4 + delta
    let raw : Nat := sum.natAbs * 25 / s.motion.settings.gate
    ∃ t : State, exec .gateClose s = .next t ∧
      t.motion.ring = { d1 := s.motion.ring.d2, d2 := s.motion.ring.d3, d3 := s.motion.ring.d4, d4 := delta } ∧
      t.motion.baseline = s.length.p ∧ t.motion.gateClock = 0 ∧
      (t.motion.direction = .forward ↔ 0 ≤ sum) ∧
      t.motion.speed = min raw 20000 ∧ (t.motion.overspeed = true ↔ 20000 < raw) ∧
      (t.motion.standstill = true ↔
        (s.motion.standstill = true ∧ delta = 0) ∨
        (s.motion.standstill = false ∧ s.motion.ring.d2 = 0 ∧ s.motion.ring.d3 = 0 ∧ s.motion.ring.d4 = 0 ∧
          delta = 0)) ∧
      t.motion.settings = { s.motion.settings with gate := s.motion.nextGate.getD s.motion.settings.gate } ∧
      t.motion.nextGate = none ∧ t.motion.report = s.motion.report ∧ t.motion.checkOpen = s.motion.checkOpen ∧
      (s.motion.standstill = true → t.motion.standstill = false → t.motion.timerOn = false) ∧
      (s.motion.standstill = false → t.motion.standstill = true → s.motion.report = .running →
        s.motion.checkOpen = true →
        t.motion.timerOn = true ∧ t.motion.timer = s.motion.settings.timeout) ∧
      (s.motion.standstill = false → t.motion.standstill = true → s.motion.report ≠ .running ∨ s.motion.checkOpen = false →
        t.motion.timerOn = s.motion.timerOn ∧ t.motion.timer = s.motion.timer) ∧
      (s.motion.standstill = t.motion.standstill →
        t.motion.timerOn = s.motion.timerOn ∧ t.motion.timer = s.motion.timer) ∧
      (t.motion.braking = s.motion.braking → t.motion.direction = s.motion.direction →
        t.motion.standstill = s.motion.standstill → t.stops = s.stops ∧ t.queue = s.queue) ∧
      t.inputs = { s.inputs with encA := { s.inputs.encA with glitchPosted := false },
                                 encB := { s.inputs.encB with glitchPosted := false } } ∧
      (let posts : List EventKind :=
          (if 20000 < raw ∧ s.motion.overspeed = false then [.overspeed] else []) ++
          (if s.motion.standstill = false ∧ t.motion.standstill = true then [.standstillReached] else []) ++
          (if s.motion.standstill = true ∧ t.motion.standstill = false then [.motion] else [])
       let measured : State :=
          { s with motion := t.motion, inputs := t.inputs, alerts := (State.postAll posts s).alerts }
       (t.motion.braking = s.motion.braking → t.motion.direction = s.motion.direction →
         t.motion.standstill = s.motion.standstill → t = measured) ∧
       (t.motion.braking ≠ s.motion.braking ∨ t.motion.direction ≠ s.motion.direction ∨
         t.motion.standstill ≠ s.motion.standstill → t = evaluate measured) ∧
       ∀ k : EventKind, k ∉ [EventKind.stopRequested, .stopLate, .stopReached, .stopOverrun] →
         t.PendsAs k (State.postAll posts s)) ∧
      (t.queue = { s.queue with records := t.queue.records, changes := t.queue.changes } ∧
        t.queue.records.map (fun r => { r with stopId := none }) =
          s.queue.records.map (fun r => { r with stopId := none }) ∧
        t.stops.nextId = s.stops.nextId ∧ t.stops.insertions = s.stops.insertions) ∧
      (t.time = s.time ∧ t.geometry = s.geometry ∧ t.length = s.length ∧ t.strobe = s.strobe ∧ t.plans = s.plans ∧
        t.roll = s.roll ∧ t.tracker = s.tracker ∧ t.job = s.job ∧ t.ports = s.ports ∧ t.free = s.free ∧
        t.pending = s.pending)

/-- R30: at a gate close S becomes 0 at standstill and otherwise the sum of the two terms, each computed in full precision
and rounded up, held at 4,294,967,295; with S = 0 in motion a head activates only in FORWARD with no distance left, and no
stop completes while STANDSTILL is false. -/
def Obligations.BrakingDistanceIsRoundedUp : Prop :=
  (∀ s : State, s.running = true → s.motion.settings.gate ≤ s.motion.gateClock → 0 < s.motion.settings.decel →
    ∃ t : State, exec .gateClose s = .next t ∧
      (t.motion.standstill = true → t.motion.braking = 0) ∧
      (t.motion.standstill = false →
        (t.motion.braking : Int) =
          min (⌈(5 * (t.motion.speed : ℚ) ^ 2) / (s.motion.settings.decel : ℚ)⌉ +
               ⌈((t.motion.speed : ℚ) * (s.motion.settings.reaction : ℚ)) / 100⌉) 4294967295) ∧
      (t.motion.speed = 0 → t.motion.braking = 0)) ∧
  (∀ (s : State) (e : StopEntry), s.motion.standstill = false → s.motion.braking = 0 →
    (s.activates e = true ↔ s.motion.direction = .forward ∧ e.target - (s.length.p : Int) ≤ 0)) ∧
  (∀ s : State, s.motion.standstill = false → (evaluate s).stops.lastStop = s.stops.lastStop)

/-- The motion timer at 0 posts NO-MOTION to every station, stops, and makes the motion check SPENT (R35). -/
def Obligations.NoMotionIsPostedOnce : Prop :=
  ∀ s : State, s.running = true → s.motion.timerOn = true → s.motion.timer = 0 →
    exec .noMotion s = .next { s with
      motion := { s.motion with timerOn := false, checkOpen := false }
      alerts := { l := s.alerts.l.post .noMotion, i := s.alerts.i.post .noMotion, o := s.alerts.o.post .noMotion } }

/-- SET-MOTION (R32, R33): taken at standstill with every value in range; a gate period other than the one in force waits
for the next gate close, the same one clears a waiting one. -/
def Obligations.SetMotionStoresNineSettings : Prop :=
  ∀ (p : Port) (m : MotionFields) (s : State), s.Takes p .setMotion (.setMotion p m) →
    let ok : Prop := m.gate ≤ 3 ∧ (50 ≤ m.decel ∧ m.decel ≤ 5000) ∧ m.reaction ≤ 1000 ∧ m.tolerance ≤ 5000 ∧
      (100 ≤ m.overrun ∧ m.overrun ≤ 1000000) ∧ (500 ≤ m.timeout ∧ m.timeout ≤ 10000) ∧
      (1000 ≤ m.silence ∧ m.silence ≤ 100000) ∧ (10000 ≤ m.check ∧ m.check ≤ 1000000) ∧
      (100 ≤ m.slip ∧ m.slip ≤ 50000)
    (s.motion.standstill = false →
      exec (.setMotion p m) s = .next (s.replied p .setMotion .notStandstill [])) ∧
    (s.motion.standstill = true → ¬ ok →
      exec (.setMotion p m) s = .next (s.replied p .setMotion .outOfRange [])) ∧
    (s.motion.standstill = true → ok →
      exec (.setMotion p m) s = .next (State.replied
        { s with motion := { s.motion with
            settings := { gate := s.motion.settings.gate, decel := m.decel, reaction := m.reaction,
                          tolerance := m.tolerance, overrun := m.overrun, timeout := m.timeout,
                          silence := m.silence, check := m.check, slip := m.slip }
            nextGate := if [5, 10, 20, 50].getD m.gate 0 = s.motion.settings.gate then none
              else some ([5, 10, 20, 50].getD m.gate 0) } }
        p .setMotion .done []))

/-- LINE-STATE (R34): the report is stored; RUNNING opens the check and loads and starts the timer at standstill, or stops
it in motion; JOGGING and STOPPED make the check SPENT and stop the timer, whose figure stays (the model's, log
entry 25). A report taken when the timer is at 0 and NO-MOTION is due acts on the timer first (log entry 31). -/
def Obligations.LineStateSetsTheMotionCheck : Prop :=
  ∀ (p : Port) (report : Nat) (s : State), s.Takes p .lineState (.lineState p report) →
    (2 < report → exec (.lineState p report) s = .next (s.replied p .lineState .outOfRange [])) ∧
    (report = 1 → s.motion.standstill = true →
      exec (.lineState p report) s = .next (State.replied
        { s with motion := { s.motion with report := .running, checkOpen := true,
                                           timer := s.motion.settings.timeout, timerOn := true } }
        p .lineState .done [])) ∧
    (report = 1 → s.motion.standstill = false →
      exec (.lineState p report) s = .next (State.replied
        { s with motion := { s.motion with report := .running, checkOpen := true, timerOn := false } }
        p .lineState .done [])) ∧
    (report = 0 →
      exec (.lineState p report) s = .next (State.replied
        { s with motion := { s.motion with report := .stopped, checkOpen := false, timerOn := false } }
        p .lineState .done [])) ∧
    (report = 2 →
      exec (.lineState p report) s = .next (State.replied
        { s with motion := { s.motion with report := .jogging, checkOpen := false, timerOn := false } }
        p .lineState .done []))

/-! ## Chapter 1: length -/

/-- A count moves its encoder exactly (R4, R10 to R13, R16, R19): the direction is the table's, the remainder and the
shadow position follow N and D with the holds of R12, P follows when the encoder is the active source, and a count that
moves no P hands nothing on (R14). Silence and fallback, the slip check, POSITION-LIMIT and the strobe divider follow (R12, R16
to R23; log entry 19). A change of P sets the travel sense and declares missed marks and the loss (R120, R124, R125), resolves
and takes out the records of the queue (R67, R68) and tests the entries wound (R91; log entry 13), and then the stop planner
evaluates (R143): the stop list, the stop entry ids of the records and the planner's posts are what that makes of them (an
offer of MARK-LOST: log entries 21 and 32). The queue's change count follows R181. The roll map is that of the deliveries of the
records taken out at the nip and the winding test, with the trim, repeat and mark-fault tallies; a record handed to it enters its
lanes with overflow and HOLD (R85 to R89). What a count never touches is listed. -/
def Obligations.CountMovesItsEncoderExactly : Prop :=
  (∀ (e : Encoder) (ph : Phase) (s : State), s.running = true → (s.length.measure e).Sound →
    let x := s.inputs.encoder e
    let fwd : Prop := (ph = .one ∧ x.level1 = x.level2) ∨ (ph = .two ∧ x.level1 ≠ x.level2)
    let m := s.length.measure e
    let n : Nat := m.circumference * (1000000 + m.trim).toNat
    let d : Nat := m.counts * 100000000
    let lost : Nat := (n - m.remainder + d - 1) / d
    ∃ t : State, exec (.count e ph) s = .next t ∧
      (t.inputs.encoder e).level1 = (if ph = .one then !x.level1 else x.level1) ∧
      (t.inputs.encoder e).level2 = (if ph = .two then !x.level2 else x.level2) ∧
      (fwd →
        (t.length.measure e).position = min (m.position + (m.remainder + n) / d) 4294967295 ∧
        (t.length.measure e).remainder = (m.remainder + n) % d) ∧
      (¬ fwd → n ≤ m.remainder →
        (t.length.measure e).position = m.position ∧ (t.length.measure e).remainder = m.remainder - n) ∧
      (¬ fwd → m.remainder < n → lost ≤ m.position →
        (t.length.measure e).position = m.position - lost ∧
        (t.length.measure e).remainder = m.remainder + lost * d - n) ∧
      (¬ fwd → m.remainder < n → m.position < lost →
        (t.length.measure e).position = 0 ∧ (t.length.measure e).remainder = 0) ∧
      (s.length.active = e → fwd →
        t.length.p = min (s.length.p + ((t.length.measure e).position - m.position)) 4294967295) ∧
      (s.length.active = e → ¬ fwd → t.length.p = s.length.p - (m.position - (t.length.measure e).position)) ∧
      (s.length.active ≠ e → t.length.p = s.length.p) ∧
      ((t.length.measure e).silent = false ∧ (t.length.measure e).silence = 0) ∧
      (t.length.p = s.length.p → t.queue = s.queue ∧ t.stops = s.stops ∧ t.tracker = s.tracker ∧ t.strobe = s.strobe) ∧
      ((t.length.measure (otherEncoder e)).position = (s.length.measure (otherEncoder e)).position ∧
        (t.length.measure (otherEncoder e)).remainder = (s.length.measure (otherEncoder e)).remainder) ∧
      (t.time = s.time ∧ t.geometry = s.geometry ∧ t.motion = s.motion ∧ t.plans = s.plans ∧ t.job = s.job ∧
        t.ports = s.ports ∧ t.free = s.free ∧ t.pending = s.pending) ∧
      (let units : Nat := (t.length.measure e).position - m.position + (m.position - (t.length.measure e).position)
       s.AlertsSound → SilenceFollows e units s t ∧
         (fwd → SlipFollows e true units s t) ∧ (¬ fwd → SlipFollows e false units s t) ∧
         t.PendsAs .positionLimit (s.postTimes
           ((if m.position < 4294967295 ∧ (t.length.measure e).position = 4294967295 then 1 else 0) +
             (if s.length.p < 4294967295 ∧ t.length.p = 4294967295 then 1 else 0)) .positionLimit)) ∧
      (t.length.p ≠ s.length.p →
        t.strobe = { s.strobe with
          count := (s.strobe.count + (t.length.p - s.length.p)) % s.strobe.interval
          owed := min (s.strobe.owed + (s.strobe.count + (t.length.p - s.length.p)) / s.strobe.interval) 65535 } ∧
        (t.length.p < s.length.p ∨ (∀ l, s.tracker.state ≠ .locked l) →
          t.tracker = { s.tracker with sense := if s.length.p < t.length.p then .forward else .reverse }) ∧
        (∀ l, s.tracker.state = .locked l → s.length.p < t.length.p → s.AlertsSound →
          l.missed < s.tracker.settings.lossCount → s.tracker.settings.lossCount ≤ 15 → MissedMarksFollow l s t) ∧
        (s.QueueSound → RecordsFollow s t ∧ RollFollows s t) ∧ WindingTested s t ∧
        (s.QueueSound → s.AlertsSound → s.stops.Sound → PlannerFollows s t))) ∧
  (∀ (it : RegisterItem) (set : SetRecord) (s : State), s.roll.windingSet = some set → 1 ≤ it.lanes.first →
    s.AlertsSound → DeliveryFollows it set s (deliverToRoll it set s))

/-- Exact accumulation (section 1.5): any number of forward counts yields exactly the whole units their length contains,
and a count forward and a count back cancel, as long as no hold is met. -/
def Obligations.CountsAccumulateWithoutLoss : Prop :=
  ∀ m : Measure, m.Sound →
    (∀ k : Nat, m.position + (m.remainder + k * m.numerator) / m.divisor ≤ topOfPosition →
      ((fun x : Measure => x.forward.1)^[k] m).position = m.position + (m.remainder + k * m.numerator) / m.divisor ∧
      ((fun x : Measure => x.forward.1)^[k] m).remainder = (m.remainder + k * m.numerator) % m.divisor) ∧
    (m.position + (m.remainder + m.numerator) / m.divisor ≤ topOfPosition →
      m.forward.1.reverse = (m, m.forward.2))

/-- An illegal transition takes the new pair of levels, makes no count and raises the glitch counter; ENCODER-GLITCH is
posted by the first one of a gate (R5). -/
def Obligations.IllegalTransitionCountsAGlitch : Prop :=
  ∀ (e : Encoder) (s : State), s.running = true →
    let x := s.inputs.encoder e
    ∃ t : State, exec (.illegalTransition e) s = .next t ∧
      (t.inputs.encoder e) = { x with level1 := !x.level1, level2 := !x.level2,
                                      glitches := min (x.glitches + 1) 65535, glitchPosted := true } ∧
      t.inputs.encoder (otherEncoder e) = s.inputs.encoder (otherEncoder e) ∧
      (t.inputs.mark = s.inputs.mark ∧ t.inputs.splice = s.inputs.splice) ∧
      (x.glitchPosted = true → t.alerts = s.alerts) ∧
      (x.glitchPosted = false → t.alerts = s.alerts.map (Station.post .encoderGlitch)) ∧
      t = { s with inputs := t.inputs, alerts := t.alerts }

/-- A STROBE pulse begins when one is owed and the line is low, the owed count falling by 1, and ends to low (R23). That the
command STROBE_PULSE stands for the moment at which the low level has lasted 2 µs is the model's choice (log entry 2). -/
def Obligations.StrobePulsesFollowTheOwedCount : Prop :=
  ∀ s : State, s.running = true →
    (s.strobe.high = false → 0 < s.strobe.owed →
      exec .strobePulse s = .next { s with
        strobe := { s.strobe with high := true, owed := s.strobe.owed - 1, held := 0 } }) ∧
    (s.strobe.high = true →
      exec .strobePulseEnd s = .next { s with strobe := { s.strobe with high := false, held := 0 } })

/-- SET-STROBE (R22): from port I, in any job state; Q out of 1 to 1,000 is refused; a taken one sets Q and clears the count
and the owed pulses, so that the first pulse is owed Q forward units later; after reset Q is 100 and both are 0. -/
def Obligations.SetStrobeReplacesTheInterval : Prop :=
  (∀ p : Port, Kind.setStrobe.permitted p = true ↔ p = .i) ∧
  (∀ (p : Port) (q : Nat) (s : State), s.Takes p .setStrobe (.setStrobe p q) →
    (q < 1 ∨ 1000 < q → exec (.setStrobe p q) s = .next (s.replied p .setStrobe .outOfRange [])) ∧
    (1 ≤ q → q ≤ 1000 →
      exec (.setStrobe p q) s = .next (State.replied
        { s with strobe := { s.strobe with interval := q, count := 0, owed := 0 } } p .setStrobe .done []) ∧
      (∀ d : Strobe, d.interval = q → d.count = 0 → d.owed = 0 →
        (∀ u, u < q → (d.addUnits u).owed = 0) ∧ (d.addUnits q).owed = 1))) ∧
  (State.reset.strobe.interval = 100 ∧ State.reset.strobe.count = 0 ∧ State.reset.strobe.owed = 0)

/-- SET-TRIM (R9): from port L or O, in any job state; the named encoder's trim is replaced and its numerator with it, its
remainder is kept and stays below D, and nothing else moves; a later count uses the new numerator. -/
def Obligations.SetTrimReplacesOneTrim : Prop :=
  (∀ p : Port, Kind.setTrim.permitted p = true ↔ p = .l ∨ p = .o) ∧
  (∀ (p : Port) (enc : Nat) (trim : Int) (s : State), s.Takes p .setTrim (.setTrim p enc trim) →
    (1 < enc ∨ trim < -20000 ∨ 20000 < trim →
      exec (.setTrim p enc trim) s = .next (s.replied p .setTrim .outOfRange [])) ∧
    (∀ e : Encoder, enc = (if e = .a then 0 else 1) → -20000 ≤ trim → trim ≤ 20000 →
      let m : Measure := { s.length.measure e with trim := trim }
      exec (.setTrim p enc trim) s = .next (State.replied
        { s with length := s.length.setMeasure e m } p .setTrim .done []) ∧
      (s.length.setMeasure e m).measure e = m ∧
      (s.length.setMeasure e m).measure (otherEncoder e) = s.length.measure (otherEncoder e) ∧
      (m.numerator : Int) = (m.circumference : Int) * (1000000 + trim) ∧
      m.divisor = (s.length.measure e).divisor ∧
      (m.forward.1.remainder : Int) =
        ((s.length.measure e).remainder + (m.circumference : Int) * (1000000 + trim)) % (m.divisor : Int) ∧
      ((s.length.measure e).remainder < (s.length.measure e).divisor → m.remainder < m.divisor)))

/-- SET-GEOMETRY (R1): in NO-JOB the six offsets are replaced together when every check passes, and not at all otherwise. -/
def Obligations.SetGeometryReplacesSixOffsets : Prop :=
  ∀ (p : Port) (g : Geometry) (s : State), s.Takes p .setGeometry (.setGeometry p g) →
    let ok : Prop := (∀ x ∈ [g.c, g.e, g.m, g.k, g.s, g.w], -200000 ≤ x ∧ x ≤ 200000) ∧
      g.c < g.k ∧ g.e < g.k ∧ g.m < g.w ∧ g.k < g.s ∧ g.s < g.w ∧ 0 < g.s
    (s.job.state ≠ .noJob → exec (.setGeometry p g) s = .next (s.replied p .setGeometry .wrongState [])) ∧
    (s.job.state = .noJob → ¬ ok → exec (.setGeometry p g) s = .next (s.replied p .setGeometry .outOfRange [])) ∧
    (s.job.state = .noJob → ok →
      exec (.setGeometry p g) s = .next (State.replied { s with geometry := g } p .setGeometry .done []))

/-- SET-CALIBRATION (R8, R3): in NO-JOB both encoders' figures and filter times are replaced together; the remainder of an
encoder is cleared exactly when its C or K differs from the old one; trim, positions and P are not moved. -/
def Obligations.SetCalibrationReplacesBothEncoders : Prop :=
  ∀ (p : Port) (fa fb : CalibrationFields) (s : State), s.Takes p .setCalibration (.setCalibration p fa fb) →
    let ok : CalibrationFields → Prop := fun f => (100000 ≤ f.circumference ∧ f.circumference ≤ 2000000) ∧
      (100 ≤ f.counts ∧ f.counts ≤ 80000) ∧ f.filter ≤ 4
    let filterTime : Nat → Nat := fun code => [0, 6, 12, 24, 48].getD code 0
    let figures : Measure → CalibrationFields → Measure := fun m f =>
      { m with circumference := f.circumference, counts := f.counts,
               remainder := if f.circumference ≠ m.circumference ∨ f.counts ≠ m.counts then 0 else m.remainder }
    (s.job.state ≠ .noJob →
      exec (.setCalibration p fa fb) s = .next (s.replied p .setCalibration .wrongState [])) ∧
    (s.job.state = .noJob → ¬ (ok fa ∧ ok fb) →
      exec (.setCalibration p fa fb) s = .next (s.replied p .setCalibration .outOfRange [])) ∧
    (s.job.state = .noJob → ok fa → ok fb →
      exec (.setCalibration p fa fb) s = .next (State.replied
        { s with
          length := { s.length with a := figures s.length.a fa, b := figures s.length.b fb }
          inputs := { s.inputs with encA := { s.inputs.encA with filter := filterTime fa.filter },
                                    encB := { s.inputs.encB with filter := filterTime fb.filter } } }
        p .setCalibration .done []))

/-- SET-SENSORS (R6): in NO-JOB and READY both lines' filter times and edge choices are replaced together. -/
def Obligations.SetSensorsReplacesBothLines : Prop :=
  ∀ (p : Port) (mf me sf se : Nat) (s : State), s.Takes p .setSensors (.setSensors p mf me sf se) →
    let filterTime : Nat → Nat := fun code => [0, 1200, 2400, 4800, 12000].getD code 0
    let edge : Nat → Edge := fun code => if code = 0 then .rising else .falling
    (s.job.state.setOpen = true →
      exec (.setSensors p mf me sf se) s = .next (s.replied p .setSensors .wrongState [])) ∧
    (s.job.state.setOpen = false → ¬ (mf ≤ 4 ∧ me ≤ 1 ∧ sf ≤ 4 ∧ se ≤ 1) →
      exec (.setSensors p mf me sf se) s = .next (s.replied p .setSensors .outOfRange [])) ∧
    (s.job.state.setOpen = false → mf ≤ 4 → me ≤ 1 → sf ≤ 4 → se ≤ 1 →
      exec (.setSensors p mf me sf se) s = .next (State.replied
        { s with inputs := { s.inputs with
            mark := { s.inputs.mark with filter := filterTime mf, edge := edge me },
            splice := { s.inputs.splice with filter := filterTime sf, edge := edge se } } }
        p .setSensors .done []))

/-- SELECT-SOURCE (R15, R20): a silent source and motion are refused in that order; the named source becomes active without
moving P; a change to A opens a fresh slip span, a change to B abandons it, and naming the active source changes nothing. -/
def Obligations.SelectSourceSwitchesAtStandstill : Prop :=
  ∀ (p : Port) (source : Nat) (s : State), s.Takes p .selectSource (.selectSource p source) →
    (1 < source → exec (.selectSource p source) s = .next (s.replied p .selectSource .outOfRange [])) ∧
    (∀ e : Encoder, source = (if e = .a then 0 else 1) →
      ((s.length.measure e).silent = true →
        exec (.selectSource p source) s = .next (s.replied p .selectSource .wrongState [])) ∧
      ((s.length.measure e).silent = false → s.motion.standstill = false →
        exec (.selectSource p source) s = .next (s.replied p .selectSource .notStandstill [])) ∧
      ((s.length.measure e).silent = false → s.motion.standstill = true →
        let span : Option SlipSpan :=
          if s.length.active = e then s.length.span
          else if e = .a ∧ s.length.b.silent = false then
            some { pa0 := s.length.a.position, pb0 := s.length.b.position }
          else none
        exec (.selectSource p source) s = .next (State.replied
          { s with length := { s.length with active := e, span := span } } p .selectSource .done [])))

/-! ## Chapter 3: knife plans -/

/-- LOAD-PLAN (R42 to R44): a plan that fails a check is refused; one with the ACTIVE plan's id and another knife list is a
duplicate; any other is STAGED, and the reply carries its id and lane count. -/
def Obligations.LoadPlanStagesACheckedPlan : Prop :=
  ∀ (p : Port) (plan : Nat) (knives : List Nat) (s : State), s.Takes p .loadPlan (.loadPlan p plan knives) →
    let ok : Prop := (1 ≤ plan ∧ plan ≤ 65535) ∧ (2 ≤ knives.length ∧ knives.length ≤ 25) ∧
      (∀ x ∈ knives, x ≤ 30000) ∧ knives.IsChain (fun x y => x + 100 ≤ y)
    let clash : Prop := ∃ a : Plan, s.plans.active = some a ∧ a.id = plan ∧ a.knives ≠ knives
    (¬ ok → exec (.loadPlan p plan knives) s = .next (s.replied p .loadPlan .outOfRange [])) ∧
    (ok → clash → exec (.loadPlan p plan knives) s = .next (s.replied p .loadPlan .duplicate [])) ∧
    (ok → ¬ clash →
      exec (.loadPlan p plan knives) s = .next (State.replied
        { s with plans := { s.plans with staged := some { id := plan, knives := knives } } }
        p .loadPlan .done [BitVec.ofNat 8 (plan / 256), BitVec.ofNat 8 plan, BitVec.ofNat 8 (knives.length - 1)]))

/-- R40: under a plan of R39, every position from x(0) to x(n − 1) − 1 lies in exactly one lane i, the one for which
x(i − 1) ≤ p < x(i); a position equal to x(0) lies in lane 1, one equal to an inner x(i) in lane i + 1, and x(n − 1) lies
in trim. -/
def Obligations.EveryPositionLiesInOneLane : Prop :=
  ∀ (plan : Nat) (knives : List Nat), planAllowed plan knives = true →
    let x : Nat → Nat := fun i => knives.getD i 0
    let n : Nat := knives.length
    (∀ p, x 0 ≤ p → p < x (n - 1) →
      ∃! i, (1 ≤ i ∧ i ≤ n - 1) ∧ x (i - 1) ≤ p ∧ p < x i) ∧
    (∀ p i, 1 ≤ i → i ≤ n - 1 → (laneAt knives p = i ↔ x (i - 1) ≤ p ∧ p < x i)) ∧
    (∀ i, 1 ≤ i → i ≤ n - 2 → laneAt knives (x i) = i + 1) ∧
    laneAt knives (x 0) = 1 ∧
    (∀ id : Nat, lookupLanes (some { id := id, knives := knives }) (x (n - 1)) (x (n - 1)) = .trim)

/-- The lane lookup (R48, R49): TRIM when the ACTIVE slot is empty or the whole extent lies outside the outer knives; a
lane range otherwise, which holds exactly the lanes that the extent touches. -/
def Obligations.LookupAnswersTheLanesTouched : Prop :=
  ∀ (plan : Nat) (knives : List Nat) (xs xe : Nat), planAllowed plan knives = true → xs ≤ xe →
    let x : Nat → Nat := fun i => knives.getD i 0
    let n : Nat := knives.length
    lookupLanes none xs xe = .trim ∧
    (lookupLanes (some { id := plan, knives := knives }) xs xe = .trim ↔ xe < x 0 ∨ x (n - 1) ≤ xs) ∧
    (∀ r : LaneRange, lookupLanes (some { id := plan, knives := knives }) xs xe = .lanes r →
      r.plan = plan ∧ r.first ≤ r.last ∧
      ∀ i, 1 ≤ i → i ≤ n - 1 →
        ((r.first ≤ i ∧ i ≤ r.last) ↔ ∃ p, xs ≤ p ∧ p ≤ xe ∧ x (i - 1) ≤ p ∧ p < x i))

/-! ## Chapter 4: the path queue -/

/-- A DEFECT request (R58 to R63): refused for the job state, a range, a live tag or a full queue, in that order, a full
queue with QUEUE-FULL and the winding set marked; otherwise a record with the next free number and the web mark P0 − c
joins and is counted, a point past the knife line is resolved at once, and the stop decision is the job's, its id kept in the
record; one past the nip outside a cut is delivered at once, or discarded as unmapped. That a full queue refuses the request
after a SET-CLOSE that discarded the tag's record, where the table of R59 says "taken", is log entry 33. A tag is live while a
DEFECT record of the queue or a defect entry of the winding set holds it (R59), and the number given is the first one held by
neither (R56). With a stop decision the part is what the offer makes of it with the record entered (R140, R141; log entries 21, 32). -/
def Obligations.DefectIsCheckedAndTaken : Prop :=
  ∀ (p : Port) (d : DefectFields) (s : State), s.Takes p .defect (.defect p d) →
    let ok : Prop := (1 ≤ d.tag ∧ d.tag ≤ 65535) ∧ (1 ≤ d.cls ∧ d.cls ≤ 15) ∧ (1 ≤ d.severity ∧ d.severity ≤ 3) ∧
      d.xs ≤ 30000 ∧ d.xe ≤ 30000 ∧ d.xs ≤ d.xe ∧ (1 ≤ d.length ∧ d.length ≤ 65535)
    let p0 : Nat := s.length.p - d.age
    let web : Int := (p0 : Int) - s.geometry.c
    let stops : Prop := s.job.params.stopOnDefect = true ∧ s.job.params.classes.testBit d.cls = true ∧
      s.job.params.stopSeverity.rank ≤ d.severity
    (s.job.state = .noJob → exec (.defect p d) s = .next (s.replied p .defect .wrongState [])) ∧
    (s.job.state ≠ .noJob → ¬ ok → exec (.defect p d) s = .next (s.replied p .defect .outOfRange [])) ∧
    (s.job.state ≠ .noJob → ok → s.HoldsTag d.tag →
      exec (.defect p d) s = .next (s.replied p .defect .duplicate [])) ∧
    (s.job.state ≠ .noJob → ok → ¬ s.HoldsTag d.tag → 64 ≤ s.queue.records.length →
      exec (.defect p d) s = .next (State.replied
        { s with alerts := s.alerts.map (Station.post .queueFull),
                 roll := s.roll.mapWinding (fun r => { r with mapIncomplete := true }) }
        p .defect .listFull [])) ∧
    (1 ≤ s.queue.nextNumber ∧ s.queue.nextNumber ≤ 65535 → s.usedNumbers.length < 65535 →
      FirstFree 65535 s.queue.nextNumber s.HoldsNumber s.freshNumber) ∧
    (∀ sev : Severity, s.job.state ≠ .noJob → ok → ¬ s.HoldsTag d.tag → s.queue.records.length < 64 → sev.rank = d.severity →
      s.QueueSound → s.stops.Sound → (s.length.p : Int) < web + s.geometry.k → (s.length.p : Int) < web + s.geometry.w →
      let body : RecordBody := { number := s.freshNumber, kind := .defect d.tag d.cls sev, xs := d.xs, xe := d.xe,
                                 length := d.length, web := web }
      ∃ (m : State) (placed : Option Nat), StopDecided stops (s.defectStop body) (s.recordEntered body none) m placed ∧
        exec (.defect p d) s =
          .next (m.replied p .defect .done (fieldU 2 s.freshNumber ++ fieldU 1 (placed.getD 0)))) ∧
    (s.job.state ≠ .noJob → ok → ¬ s.HoldsTag d.tag → s.queue.records.length < 64 →
      ∃ (t : State) (id : Nat), exec (.defect p d) s = .next t ∧
        t.port p = (s.port p).replied .defect .done (fieldU 2 s.freshNumber ++ fieldU 1 id) ∧
        t.queue.flow.taken = (s.queue.flow.taken + 1) % 4294967296 ∧
        (¬ stops → id = 0) ∧
        (s.QueueSound → (s.length.p : Int) < web + s.geometry.k → ∃ r ∈ t.queue.records, ∃ sev : Severity, sev.rank = d.severity ∧
          r.slit = none ∧ r.body =
            { number := s.freshNumber, kind := .defect d.tag d.cls sev, xs := d.xs, xe := d.xe, length := d.length,
              web := web } ∧ (¬ stops → r.stopId = none) ∧
            (stops → s.stops.entries.length < 16 → s.motion.standstill = false ∨ s.job.state.isCutOpen = true →
              r.stopId = some id)) ∧
        (∀ sev : Severity, sev.rank = d.severity → s.QueueSound → s.AheadOfLines → web + s.geometry.k ≤ s.length.p →
          (∀ r ∈ s.queue.records, r.body.number ≠ s.freshNumber) →
          LateDefectFollows { number := s.freshNumber, kind := .defect d.tag d.cls sev, xs := d.xs, xe := d.xe,
                              length := d.length, web := web } stops id s t) ∧
        (web + s.geometry.k ≤ s.length.p →
          ∀ r ∈ t.queue.records, r.body.web + s.geometry.k ≤ s.length.p → r.slit.isSome = true) ∧
        (stops → (s.length.p : Int) < web + s.geometry.k → s.stops.entries.length < 16 →
          id = s.stops.freshId ∧
          (s.motion.standstill = false → ∃ e ∈ t.stops.entries, e.id = id ∧ e.kind = .defect ∧
            e.ref = .record s.freshNumber ∧ e.web = web ∧ e.station = s.geometry.s ∧
            e.target = web + s.geometry.s + s.job.params.stopOffset)) ∧
        (t.time = s.time ∧ t.inputs = s.inputs ∧ t.geometry = s.geometry ∧ t.length = s.length ∧ t.strobe = s.strobe ∧
          t.motion = s.motion ∧ t.plans = s.plans ∧ t.tracker = s.tracker ∧ t.job = s.job ∧ t.free = s.free ∧
          t.pending = s.pending ∧ ∀ q, q ≠ p → t.port q = s.port q))

/-- A splice arrival (R64 to R66): ignored in NO-JOB and as a rescan; a new splice raises the high mark, and either finds
the queue full or enters one SENSED-SPLICE record over the whole width at web mark P − e, with the
splice-limit decision of R66: with an offer made, the part is what that makes of it with the record entered (R140, R141;
evictions: log entry 21). The insertion number of its entry is log entry 32. -/
def Obligations.SpliceArrivalEntersOneRecord : Prop :=
  ∀ s : State, s.running = true →
    let web : Int := (s.length.p : Int) - s.geometry.e
    let inputs : Inputs := s.inputs.spliceArrived
    (s.job.state = .noJob → exec .spliceArrival s = .next { s with inputs := inputs }) ∧
    (∀ high, s.job.state ≠ .noJob → s.queue.highMark = some high → web ≤ high + 1000 →
      exec .spliceArrival s = .next { s with inputs := inputs }) ∧
    (s.job.state ≠ .noJob → (∀ high, s.queue.highMark = some high → high + 1000 < web) →
      (64 ≤ s.queue.records.length →
        exec .spliceArrival s = .next { s with
          inputs := inputs
          queue := { s.queue with highMark := some web }
          alerts := s.alerts.map (Station.post .queueFull)
          roll := s.roll.mapWinding (fun r => { r with mapIncomplete := true }) }) ∧
      (s.queue.records.length < 64 →
        ∃ t : State, exec .spliceArrival s = .next t ∧
          t.queue.highMark = some web ∧ t.queue.records.length = s.queue.records.length + 1 ∧
          t.queue.flow = { s.queue.flow with taken := (s.queue.flow.taken + 1) % 4294967296 } ∧
          (∃ r ∈ t.queue.records, r.slit = none ∧ r.body =
            { number := s.freshNumber, kind := .sensedSplice, xs := 0, xe := 30000, length := 0, web := web }) ∧
          (s.job.params.enforce = false → t.stops = s.stops ∧ t.alerts = s.alerts) ∧ SpliceLimitFollows web s t ∧
          (s.QueueSound → s.stops.Sound →
            let u : State := { s with inputs := inputs, queue := { s.queue with highMark := some web } }
            ∃ placed : Option Nat, StopDecided s.SpliceOverLimit (s.spliceStop s.freshNumber web)
              (u.recordEntered { number := s.freshNumber, kind := .sensedSplice, xs := 0, xe := 30000, length := 0, web := web }
                none) t placed) ∧
          (t.time = s.time ∧ t.inputs = inputs ∧ t.geometry = s.geometry ∧ t.length = s.length ∧
            t.strobe = s.strobe ∧ t.motion = s.motion ∧ t.plans = s.plans ∧ t.roll = s.roll ∧
            t.tracker = s.tracker ∧ t.job = s.job ∧ t.ports = s.ports ∧ t.free = s.free ∧ t.pending = s.pending)))

/-! ## Chapter 5: the roll map -/

/-- LANE-STATUS (R90): the table's status, hold cause and LANE-HOLD for a lane of a WINDING or CLOSED set; a set that is not
found is answered so, a released set is in the wrong state, a lane outside the set is out of range. Which set a request names
is part of ReleaseSetFreesAClosedSet (R84). -/
def Obligations.LaneStatusFollowsTheTable : Prop :=
  (∀ (p : Port) (job set lane status : Nat) (st : Status) (s : State),
    s.Takes p .laneStatus (.laneStatus p job set lane status) → s.roll.find job set = .error st →
    exec (.laneStatus p job set lane status) s =
      .next (s.replied p .laneStatus (if 2 < status then .outOfRange else st) [])) ∧
  ∀ (p : Port) (job set lane status n : Nat) (r : SetRecord) (x : LaneRecord) (s : State),
    s.Takes p .laneStatus (.laneStatus p job set lane status) → s.roll.find job set = .ok n →
    let put : LaneStatus → SetRecord := fun st => { r with lanes := r.lanes.set (lane - 1) { x with status := st } }
    let done : LaneStatus → (SetRecord → Slot) → ByPort Station → State := fun st slot alerts => State.replied
      { s with roll := s.roll.setSlot n (slot (put st)), alerts := alerts } p .laneStatus .done []
    let held : ByPort Station := s.alerts.map (Station.post .laneHold)
    let out : Host.Outcome State Fault Refusal := exec (.laneStatus p job set lane status) s
    (2 < status → out = .next (s.replied p .laneStatus .outOfRange [])) ∧
    (status ≤ 2 → s.roll.slot n = .released r → out = .next (s.replied p .laneStatus .wrongState [])) ∧
    (∀ slot : SetRecord → Slot, slot = .winding ∨ slot = .closed → s.roll.slot n = slot r → status ≤ 2 →
      ((lane = 0 ∨ r.lanes.length < lane) → out = .next (s.replied p .laneStatus .outOfRange [])) ∧
      (1 ≤ lane → r.lanes[lane - 1]? = some x →
        (status = 0 → out = .next (done .good slot s.alerts)) ∧
        (status = 2 → out = .next (done .reject slot s.alerts)) ∧
        (status = 1 → ∀ cause, x.status = .hold cause → out = .next (done (.hold cause) slot s.alerts)) ∧
        (status = 1 → x.status = .good ∨ x.status = .reject → out = .next (done (.hold none) slot held))))

/-- RELEASE-SET (R99): a CLOSED set becomes released, keeping its record, its slot and its place in the close list; a
WINDING or released one is in the wrong state; one that is not found is answered so. The naming of a set is that of R84: set 0
names the WINDING one, any other number the slot with the pair, the WINDING one or the latest closed, and a number above 9,999
is out of range. -/
def Obligations.ReleaseSetFreesAClosedSet : Prop :=
  (∀ (job set : Nat) (s : State),
    (9999 < set → s.roll.find job set = .error .outOfRange) ∧
    (set ≤ 9999 → s.SlotsSound →
      (∀ n, s.roll.find job set = .ok n ↔ s.Names job set n) ∧
      ((∀ n, ¬ s.Names job set n) → s.roll.find job set = .error .notFound))) ∧
  ∀ (p : Port) (job set : Nat) (s : State), s.Takes p .releaseSet (.releaseSet p job set) →
    (∀ st, s.roll.find job set = .error st →
      exec (.releaseSet p job set) s = .next (s.replied p .releaseSet st [])) ∧
    (∀ n r, s.roll.find job set = .ok n →
      (s.roll.slot n = .closed r →
        exec (.releaseSet p job set) s = .next (State.replied
          { s with roll := { s.roll with slots := s.roll.slots.setIfInBounds (n - 1) (.released r) } }
          p .releaseSet .done [])) ∧
      (s.roll.slot n = .winding r ∨ s.roll.slot n = .released r →
        exec (.releaseSet p job set) s = .next (s.replied p .releaseSet .wrongState [])))

/-! ## Chapter 6: cuts -/

/-- CUT-OPEN (R106): refused outside WINDING, then in motion; otherwise the cut opens at the P of the moment. -/
def Obligations.CutOpenRecordsTheBase : Prop :=
  ∀ (p : Port) (s : State), s.Takes p .cutOpen (.cutOpen p) →
    (s.job.state ≠ .winding → exec (.cutOpen p) s = .next (s.replied p .cutOpen .wrongState [])) ∧
    (s.job.state = .winding → s.motion.standstill = false →
      exec (.cutOpen p) s = .next (s.replied p .cutOpen .notStandstill [])) ∧
    (s.job.state = .winding → s.motion.standstill = true → s.length.p ≤ topOfPosition →
      exec (.cutOpen p) s = .next (State.replied { s with job := { s.job with state := .cutOpen s.length.p } }
        p .cutOpen .done
        [BitVec.ofNat 8 (s.length.p / 16777216), BitVec.ofNat 8 (s.length.p / 65536),
         BitVec.ofNat 8 (s.length.p / 256), BitVec.ofNat 8 s.length.p]))

/-- SPLICE-MADE (R108 to R116): refused outside CUT-OPEN or for a bad lane range or list; otherwise the cut ends in WINDING
with setStart raised by the cut length, no due record left in the queue, and the length, the tracker and the splice high
mark untouched. The named and the pulled-through records leave queue and lanes and are counted (R113, R114), every other one
stays, held-side ones shifted (R110) with the register items (R111); the repair splice record enters, or finds the queue full
(R115); held-side and roll-length stop entries rise by the cut length (R112). At the end the entries are tested, held
records delivered into their lanes (R69, R92) and the planner evaluates: the part is what R116 makes of it as the steps before
left it. The removed counter counts the records taken out of the queue (R73). The change counts follow R181 and R182, that of the
stop list by each entry shifted (log entry 20). -/
def Obligations.SpliceMadeEndsTheCut : Prop :=
  ∀ (p : Port) (first last : Nat) (named : List Nat) (s : State),
    s.Takes p .spliceMade (.spliceMade p first last named) →
    let out : Host.Outcome State Fault Refusal := exec (.spliceMade p first last named) s
    (s.job.state.isCutOpen = false → out = .next (s.replied p .spliceMade .wrongState [])) ∧
    (∀ (popen : Nat) (set : SetRecord), s.job.state = .cutOpen popen → s.roll.windingSet = some set →
      let ok : Prop := 1 ≤ first ∧ first ≤ last ∧ last ≤ set.lanes.length ∧ named.length ≤ 4 ∧
        ∀ x ∈ named, 1 ≤ x ∧ x ≤ 65535
      (¬ ok → out = .next (s.replied p .spliceMade .outOfRange [])) ∧
      let cut : Nat := s.length.p - popen
      let shifted : Int → Int := fun web => if web + s.geometry.s ≤ popen then web + cut else web
      let pulled : Int → Bool := fun web => decide (popen < web + s.geometry.s ∧ web + s.geometry.s ≤ s.length.p)
      (ok →
        ∃ (t : State) (a b number : Nat), out = .next t ∧
          t.port p = (s.port p).replied .spliceMade .done
            (fieldU 4 (s.length.p - popen) ++ fieldU 1 a ++ fieldU 1 b ++ fieldU 2 number) ∧
          a ≤ named.length ∧
          t.job = { s.job with state := .winding } ∧
          t.roll.windingSet.map (·.start) = some (min (set.start + (s.length.p - popen)) 4294967295) ∧
          t.roll.closeList = s.roll.closeList ∧ t.roll.mapsLost = s.roll.mapsLost ∧
          t.queue.highMark = s.queue.highMark ∧
          (∀ r ∈ t.queue.records, r.slit.isSome = true → (s.length.p : Int) < r.body.web + s.geometry.w) ∧
          (s.QueueSound → ∀ r ∈ s.queue.records,
            (r.body.number ∉ named → pulled r.body.web = false →
              r.slit = none ∨ (s.length.p : Int) < shifted r.body.web + s.geometry.w →
              ∃ r' ∈ t.queue.records, r'.joined = r.joined ∧ r'.slit = r.slit ∧
                r'.body = { r.body with web := shifted r.body.web }) ∧
            (pulled r.body.web = true → ∀ r' ∈ t.queue.records, r'.joined ≠ r.joined) ∧
            (r.body.number ∈ named → (∀ r₂ ∈ s.queue.records, r₂.body.number = r.body.number → r₂ = r) →
              ∀ r' ∈ t.queue.records, r'.joined ≠ r.joined)) ∧
          (∀ r' ∈ t.queue.records, (∃ r ∈ s.queue.records, r'.joined = r.joined) ∨ r'.body.kind = .repairSplice) ∧
          (s.QueueSound → s.stops.Sound → s.NumbersDiffer → ∃ u : State, AfterCut popen first last named number set s u ∧
            t = (evaluate (deliverDue (windingTest u))).replied p .spliceMade .done
              (fieldU 4 (s.length.p - popen) ++ fieldU 1 a ++ fieldU 1 b ++ fieldU 2 number) ∧
            t.stops = (evaluate u).stops ∧
            a = s.queue.records.countP (fun r => decide (r.body.number ∈ named)) +
              s.roll.register.countP (fun it => decide (it.body.number ∈ named) && set.isUnwound it.body.number) ∧
            b = s.queue.records.countP (fun r => decide (r.body.number ∉ named) && pulled r.body.web) +
              s.roll.register.countP (fun it => decide (it.body.number ∉ named) && pulled it.body.web &&
                set.isUnwound it.body.number)) ∧
          (s.QueueSound → (s.queue.records.map (·.body.number)).Nodup →
            t.queue.flow.removed % 4294967296 =
              (s.queue.flow.removed + s.queue.records.countP (s.cutsRecord popen named)) % 4294967296) ∧
          (named = [] → a = 0) ∧
          (∀ x, named = [x] → a ≤ 1 ∧ (a = 1 ↔ (∃ r ∈ s.queue.records, r.body.number = x) ∨
            ((∃ it ∈ s.roll.register, it.body.number = x) ∧ set.isUnwound x = true))) ∧
          (s.QueueSound → named = [] → b = s.queue.records.countP (fun r => pulled r.body.web) +
            (((s.roll.register.filter (fun it => pulled it.body.web)).map (·.body.number)).dedup.filter
              (fun x => set.isUnwound x)).length) ∧
          (∀ it ∈ s.roll.register, it.body.number ∈ named ∨ pulled it.body.web = true →
            set.isUnwound it.body.number = true → (∀ r ∈ s.queue.records, r.body.number ≠ it.body.number) →
            it.body.number ≠ number → (∀ it' ∈ t.roll.register, it'.body.number ≠ it.body.number) ∧
              ∀ set' ∈ t.roll.windingSet, ∀ lane ∈ set'.lanes,
                (∀ e ∈ lane.defects, e.record ≠ it.body.number) ∧ ∀ e ∈ lane.splices, e.record ≠ it.body.number) ∧
          EntriesTested (number :: s.queue.records.map (·.body.number)) t ∧
          (∀ it' ∈ t.roll.register, it'.body.number = number ∨
            (∃ it ∈ s.roll.register, it' = { it with body := { it.body with web := shifted it.body.web } }) ∨
            ∃ r ∈ s.queue.records, r.slit = some it'.lanes ∧ it'.body = { r.body with web := shifted r.body.web }) ∧
          (s.QueueSound → named = [] → (∀ r ∈ s.queue.records, pulled r.body.web = false) →
            (∀ it ∈ s.roll.register, pulled it.body.web = true → set.isUnwound it.body.number = false) →
            s.queue.records.length < 64 → s.geometry.s < s.geometry.w →
            CutEndFollows (cutShift popen cut s) t) ∧
          (set.removedTally ≤ 65535 →
            ∀ set' ∈ t.roll.windingSet, set'.removedTally = min (set.removedTally + a + b) 65535) ∧
          (s.queue.records.length < 64 →
            (s.queue.nextNumber ∉ s.usedNumbers → number = s.queue.nextNumber) ∧
            t.queue.nextNumber = nextInCycle 65535 number ∧
            t.queue.flow.taken = (s.queue.flow.taken + 1) % 4294967296 ∧
            (s.QueueSound → s.geometry.s < s.geometry.w → ∃ r ∈ t.queue.records, r.stopId = none ∧
              r.slit = some { first := first, last := last, plan := planId s.plans.active } ∧
              r.body = { number := number, kind := .repairSplice, xs := 0, xe := 30000, length := 0,
                         web := (s.length.p : Int) - s.geometry.s })) ∧
          (64 ≤ s.queue.records.length → named = [] → (∀ r ∈ s.queue.records, pulled r.body.web = false) →
            number = 0 ∧ t.queue.flow.taken = s.queue.flow.taken ∧
            (∀ set' ∈ t.roll.windingSet, set'.mapIncomplete = true) ∧
            (s.AlertsSound → t.PendsAs .queueFull (s.postTimes 1 .queueFull))) ∧
          (∀ e' ∈ t.stops.entries, ∃ e ∈ s.stops.entries, e'.id = e.id ∧ e'.insertion = e.insertion ∧
            e'.web = (if e.web + s.geometry.s ≤ popen ∨ e.ref.isSet = true then e.web + cut else e.web) ∧
            e'.target = (if e.web + s.geometry.s ≤ popen ∨ e.ref.isSet = true then e.target + cut else e.target)) ∧
          (s.motion.standstill = false → ∀ e ∈ s.stops.entries, (∀ r ∈ s.queue.records, r.stopId ≠ some e.id) →
            ∃ e' ∈ t.stops.entries, e'.id = e.id) ∧
          (t.time = s.time ∧ t.inputs = s.inputs ∧ t.geometry = s.geometry ∧ t.length = s.length ∧
            t.strobe = s.strobe ∧ t.motion = s.motion ∧ t.plans = s.plans ∧ t.tracker = s.tracker ∧ t.free = s.free ∧
            t.pending = s.pending ∧ ∀ q, q ≠ p → t.port q = s.port q)))

/-- CUT-CANCEL (R117): the cut ends with no shift and no removal; setStart, the removed tally, the register and the stop
targets are unchanged, every SLIT record whose point has reached the nip is taken out of the queue, and every other record
stays. At the end every entry of the set is tested once, the held records are delivered into their lanes (R69, R92) and the
planner evaluates: the part is what the four steps of R116 make of it. -/
def Obligations.CutCancelEndsTheCut : Prop :=
  ∀ (p : Port) (s : State), s.Takes p .cutCancel (.cutCancel p) →
    (s.job.state.isCutOpen = false → exec (.cutCancel p) s = .next (s.replied p .cutCancel .wrongState [])) ∧
    (s.job.state.isCutOpen = true →
      ∃ t : State, exec (.cutCancel p) s = .next t ∧
        t.port p = (s.port p).replied .cutCancel .done [] ∧
        t.job = { s.job with state := .winding } ∧
        (let u : State := { s with job := { s.job with state := .winding } }
         t = (evaluate (deliverDue (windingTest u))).replied p .cutCancel .done [] ∧ t.stops = (evaluate u).stops ∧
         (s.QueueSound → s.AlertsSound → PlannerAs (evaluate u) t)) ∧
        t.roll.windingSet.map (·.start) = s.roll.windingSet.map (·.start) ∧
        t.queue.highMark = s.queue.highMark ∧
        (t.queue.flow.taken = s.queue.flow.taken ∧ t.queue.flow.returned = s.queue.flow.returned ∧
          t.queue.flow.trimmed = s.queue.flow.trimmed ∧ t.queue.flow.removed = s.queue.flow.removed) ∧
        (∀ r ∈ t.queue.records, r.slit.isSome = true → (s.length.p : Int) < r.body.web + s.geometry.w) ∧
        (∀ r ∈ t.queue.records, ∃ r' ∈ s.queue.records, r.body = r'.body ∧ r.slit = r'.slit) ∧
        (s.QueueSound → ∀ r ∈ s.queue.records,
          r.slit = none ∨ (s.length.p : Int) < r.body.web + s.geometry.w →
          ∃ r' ∈ t.queue.records, r'.joined = r.joined ∧ r'.body = r.body ∧ r'.slit = r.slit) ∧
        (∀ it ∈ t.roll.register, it ∈ s.roll.register ∨
          ∃ r ∈ s.queue.records, r.body = it.body ∧ r.slit = some it.lanes ∧
            it.body.web + s.geometry.w ≤ s.length.p) ∧
        EntriesTested (s.queue.records.map (·.body.number)) t ∧ (s.QueueSound → CutEndFollows s t) ∧
        ((∀ r ∈ s.queue.records, r.slit = none ∨ (s.length.p : Int) < r.body.web + s.geometry.w) →
          t.roll.register = s.roll.register) ∧
        t.roll.windingSet.map (·.removedTally) = s.roll.windingSet.map (·.removedTally) ∧
        (∀ e' ∈ t.stops.entries, ∃ e ∈ s.stops.entries, e'.id = e.id ∧ e'.insertion = e.insertion ∧ e'.web = e.web ∧
          e'.target = e.target) ∧
        (t.time = s.time ∧ t.inputs = s.inputs ∧ t.geometry = s.geometry ∧ t.length = s.length ∧
          t.strobe = s.strobe ∧ t.motion = s.motion ∧ t.plans = s.plans ∧ t.tracker = s.tracker ∧ t.free = s.free ∧
          t.pending = s.pending ∧ ∀ q, q ≠ p → t.port q = s.port q))

/-- The cut shift keeps the relation of a held-side point to the nip and to the roll (R110, R111): its web mark rises by the
cut length and setStart by the same, so W + w − setStart stays; the lanes and their entries are not touched. -/
def Obligations.CutShiftKeepsRollPositions : Prop :=
  ∀ (popen cut : Nat) (set : SetRecord) (s : State), s.roll.windingSet = some set →
    set.start + cut ≤ topOfPosition →
    ∃ set', (cutShift popen cut s).roll.windingSet = some set' ∧ set' = { set with start := set.start + cut } ∧
      (cutShift popen cut s).roll.register.length = s.roll.register.length ∧
      (∀ it ∈ s.roll.register, it.body.web + s.geometry.s ≤ popen →
        ∃ it' ∈ (cutShift popen cut s).roll.register, it'.body.number = it.body.number ∧ it'.lanes = it.lanes ∧
          it'.body.web + s.geometry.w - set'.start = it.body.web + s.geometry.w - set.start) ∧
      (∀ r ∈ s.queue.records,
        ∃ r' ∈ (cutShift popen cut s).queue.records, r'.slit = r.slit ∧ r'.stopId = r.stopId ∧
          r'.body = { r.body with web := if r.body.web + s.geometry.s ≤ popen then r.body.web + cut else r.body.web })

/-! ## Chapter 7: print repeat tracking -/

/-- A forward mark arrival (R120 to R123, R126): it locks in UNLOCKED, is a RESCAN, an EXTRA or a GOOD mark in LOCKED by its
distance from Wlast, and relocks in LOST, with MARK-RELOCK; anything else is ignored, and so, by the model's choice, is a distance
above R + Wd (log entry 17). A GOOD mark and a relock realign the set end of a job that aligns, and the planner evaluates (R131,
R133, R154); the insertion number is log entry 32, and that the list's change count rises though the target stays is log entry
20. -/
def Obligations.MarkArrivalIsClassed : Prop :=
  ∀ s : State, s.running = true →
    let wm : Int := (s.length.p : Int) - s.geometry.m
    let inputs : Inputs := s.inputs.markArrived
    let r : Int := s.tracker.settings.expected
    let wd : Int := s.tracker.settings.window
    let mark : Nat → MarkLock := fun rm => { wlast := wm, wacc := wm, rm := rm, missed := 0 }
    let counted : (SetRecord → SetRecord) → RollMap := fun f => s.roll.mapWinding f
    let marked : MarkLock → State := fun l => { s with
      tracker := { s.tracker with good := min (s.tracker.good + 1) 65535, state := .locked l }
      roll := counted (fun x => { x with repeatTally := min (x.repeatTally + 1) 65535 }) }
    (s.job.state = .noJob ∨ s.tracker.settings.tracking = false ∨ s.tracker.sense = .reverse →
      exec .markArrival s = .next { s with inputs := inputs }) ∧
    (s.job.state ≠ .noJob → s.tracker.settings.tracking = true → s.tracker.sense = .forward →
      (s.tracker.state = .unlocked →
        exec .markArrival s = .next { s with
          inputs := inputs
          tracker := { s.tracker with state := .locked (mark s.tracker.settings.expected) } }) ∧
      (∀ l, s.tracker.state = .locked l → wm - l.wlast ≤ 0 →
        exec .markArrival s = .next { s with
          inputs := inputs
          tracker := { s.tracker with rescanned := min (s.tracker.rescanned + 1) 65535 } }) ∧
      (∀ l, s.tracker.state = .locked l → 0 < wm - l.wlast → wm - l.wlast < r - wd →
        exec .markArrival s = .next { s with
          inputs := inputs
          tracker := { s.tracker with extra := min (s.tracker.extra + 1) 65535 }
          roll := counted (fun x => { x with markFaultTally := min (x.markFaultTally + 1) 65535 })
          alerts := s.alerts.map (Station.post .markFault) }) ∧
      (∀ l, s.tracker.state = .locked l → 0 < wm - l.wlast → r - wd ≤ wm - l.wlast → wm - l.wlast ≤ r + wd →
        let l' : MarkLock := mark (max 1 (min 65535 ((wm - l.wacc) / ((l.missed : Int) + 1)).toNat))
        let u : State := { marked l' with inputs := inputs }
        ∃ t : State, exec .markArrival s = .next t ∧ RealignFollows l' u t ∧
          t = { u with stops := t.stops, queue := t.queue, alerts := t.alerts }) ∧
      (∀ l, s.tracker.state = .locked l → 0 < wm - l.wlast → r + wd < wm - l.wlast →
        exec .markArrival s = .next { s with inputs := inputs }) ∧
      (∀ l, s.tracker.state = .lost l →
        let u : State := { marked (mark l.rm) with inputs := inputs, alerts := s.alerts.map (Station.post .markRelock) }
        ∃ t : State, exec .markArrival s = .next t ∧ RealignFollows (mark l.rm) u t ∧
          t = { u with stops := t.stops, queue := t.queue, alerts := t.alerts } ∧
          (s.AlertsSound → t.PendsAs .markRelock (s.postTimes 1 .markRelock))))

/-! ## Chapter 8: stop planning -/

/-- ADD-STOP (R139, R140): NOW stops at P and LENGTH at setStart + length; in a list with room the entry takes the next free
id and is answered with it and its target; in a full list it evicts the victim or, without a candidate, is refused and nothing is
posted (R141). After the insertion the planner evaluates, and the part is what that makes of it. The entry id is the first one
not in use (R137). That its insertion number is the counter before the rise is the model's choice (log entry 32), and that an
eviction evaluates too is log entry 21. -/
def Obligations.AddStopPlacesAnOperatorEntry : Prop :=
  ∀ (p : Port) (form length : Nat) (s : State), s.Takes p .addStop (.addStop p form length) →
    let out : Host.Outcome State Fault Refusal := exec (.addStop p form length) s
    (1 < form → out = .next (s.replied p .addStop .outOfRange [])) ∧
    (form = 1 → length = 0 ∨ 2000000000 < length → out = .next (s.replied p .addStop .outOfRange [])) ∧
    (form = 1 → 1 ≤ length → length ≤ 2000000000 → s.roll.windingSet = none →
      out = .next (s.replied p .addStop .wrongState [])) ∧
    (∀ (ref : StopRef) (web station target : Int),
      ((form = 0 ∧ ref = .nothing ∧ web = s.length.p ∧ station = 0 ∧ target = s.length.p) ∨
        (form = 1 ∧ 1 ≤ length ∧ length ≤ 2000000000 ∧ ∃ set, s.roll.windingSet = some set ∧ ref = .set set.number ∧
          web = (set.start : Int) + length - s.geometry.w ∧ station = s.geometry.w ∧
          target = (set.start : Int) + length)) →
      (s.stops.Sound → ∃ (m : State) (id : Option Nat),
        OfferTaken { kind := .operator, origin := if p = .l then .portL else .portO, ref := ref, web := web, station := station,
                     target := target } s m id ∧
        (∀ n ∈ id, out = .next (m.replied p .addStop .done (fieldU 1 n ++ fieldS 5 target))) ∧
        (id = none → out = .next (s.replied p .addStop .listFull []))) ∧
      (s.stops.Sound → FirstFree 255 s.stops.nextId (fun n => ∃ e ∈ s.stops.entries, e.id = n) s.stops.freshId) ∧
      (16 ≤ s.stops.entries.length →
        (∀ e ∈ s.stops.entries, e.active = false → 4 ≤ e.kind.priority) →
        out = .next (s.replied p .addStop .listFull [])) ∧
      (s.stops.entries.length < 16 →
        ∃ t : State, out = .next t ∧
          t.port p = (s.port p).replied .addStop .done (fieldU 1 s.stops.freshId ++ fieldS 5 target) ∧
          t.stops.nextId = nextInCycle 255 s.stops.freshId ∧ t.stops.insertions = s.stops.insertions + 1 ∧
          (s.motion.standstill = false ∨ s.job.state.isCutOpen = true →
            ∃ e ∈ t.stops.entries, e.id = s.stops.freshId ∧ e.kind = .operator ∧
              e.origin = (if p = .l then .portL else .portO) ∧ e.ref = ref ∧ e.web = web ∧ e.station = station ∧
              e.target = target ∧ e.insertion = s.stops.insertions) ∧
          (t.time = s.time ∧ t.inputs = s.inputs ∧ t.geometry = s.geometry ∧ t.length = s.length ∧
            t.strobe = s.strobe ∧ t.motion = s.motion ∧ t.plans = s.plans ∧ t.roll = s.roll ∧ t.tracker = s.tracker ∧
            t.job = s.job ∧ t.free = s.free ∧ t.pending = s.pending ∧ ∀ q, q ≠ p → t.port q = s.port q)))

/-- CANCEL-STOP (R152, R142): an id out of range, one that no entry holds, and on port O one placed elsewhere are refused;
otherwise no entry holds the id any more, the record that caused it gives the id up, and the planner evaluates: the part is what
that makes of it. -/
def Obligations.CancelStopRemovesTheEntry : Prop :=
  ∀ (p : Port) (id : Nat) (s : State), s.Takes p .cancelStop (.cancelStop p id) →
    let out : Host.Outcome State Fault Refusal := exec (.cancelStop p id) s
    (id = 0 ∨ 255 < id → out = .next (s.replied p .cancelStop .outOfRange [])) ∧
    (1 ≤ id → id ≤ 255 → (∀ e ∈ s.stops.entries, e.id ≠ id) →
      out = .next (s.replied p .cancelStop .notFound [])) ∧
    (∀ e, 1 ≤ id → id ≤ 255 → s.stops.entries.find? (fun x => decide (x.id = id)) = some e →
      (p = .o → e.origin ≠ .portO → out = .next (s.replied p .cancelStop .notPermitted [])) ∧
      (p = .l ∨ e.origin = .portO →
        ∃ t : State, out = .next t ∧ t.port p = (s.port p).replied .cancelStop .done [] ∧
          t = (evaluate (s.stopRemoved e)).replied p .cancelStop .done [] ∧
          (∀ x ∈ t.stops.entries, x.id ≠ id) ∧
          (s.motion.standstill = false → t.stops.lastStop = s.stops.lastStop) ∧
          (s.motion.standstill = false → (s.stops.entries.map (·.id)).Nodup →
            ∀ x ∈ s.stops.entries, x.id ≠ id → ∃ y ∈ t.stops.entries, y.id = x.id ∧ y.target = x.target) ∧
          (∀ n, e.ref = .record n → ∀ r ∈ t.queue.records, r.body.number = n → r.stopId ≠ some id) ∧
          (t.time = s.time ∧ t.inputs = s.inputs ∧ t.geometry = s.geometry ∧ t.length = s.length ∧
            t.strobe = s.strobe ∧ t.motion = s.motion ∧ t.plans = s.plans ∧ t.roll = s.roll ∧ t.tracker = s.tracker ∧
            t.job = s.job ∧ t.free = s.free ∧ t.pending = s.pending ∧ ∀ q, q ≠ p → t.port q = s.port q)))

/-- SET-TARGET (R153): refused outside WINDING, for a length out of range and for an ACTIVE SET-END entry; otherwise the
job and the winding set take the new length, and the SET-END entry, kept under its id or inserted, takes its new target: the
aligned one of R131 for a job that aligns with the tracker LOCKED, setStart + L otherwise (R132). A full list is arbitrated
(R141; its evaluations: log entry 21). The planner then evaluates, and the part is what that makes of it. Its insertion number is
log entry 32; that an insertion here evaluates once is log entry 34; that the list's change count rises though the target stays is
log entry 20. -/
def Obligations.SetTargetRetargetsTheSetEnd : Prop :=
  ∀ (p : Port) (length : Nat) (set : SetRecord) (s : State), s.Takes p .setTarget (.setTarget p length) →
    let out : Host.Outcome State Fault Refusal := exec (.setTarget p length) s
    let ok : Prop := 10000 ≤ length ∧ length ≤ 2000000000
    (s.job.state ≠ .winding → out = .next (s.replied p .setTarget .wrongState [])) ∧
    (s.job.state = .winding → s.roll.windingSet = some set →
      (¬ ok → out = .next (s.replied p .setTarget .outOfRange [])) ∧
      (∀ e, ok → s.stops.setEnd = some e → e.active = true →
        out = .next (s.replied p .setTarget .stopActive [])) ∧
      (ok → s.stops.setEnd = none → 16 ≤ s.stops.entries.length →
        (∀ e ∈ s.stops.entries, e.active = false → 3 ≤ e.kind.priority) →
        out = .next (s.replied p .setTarget .listFull [])) ∧
      (let web : Int := setEndWeb s set.start length
       let bytes : Nat → List Byte := fun id => fieldU 1 id ++ fieldS 5 (web + s.geometry.w)
       let u : State :=
         { s with job := { s.job with params := { s.job.params with target := some length } }
                  roll := s.roll.mapWinding (fun x => { x with target := some length }) }
       ok → s.stops.Sound →
         (∀ e, s.stops.setEnd = some e → e.active = false →
           out = .next ((evaluate (u.stopMoved e web (web + s.geometry.w))).replied p .setTarget .done (bytes e.id))) ∧
         (s.stops.setEnd = none → ∃ (m : State) (id : Option Nat),
           OfferTaken { kind := .setEnd, origin := .internal, ref := .set set.number, web := web, station := s.geometry.w,
                        target := web + s.geometry.w } u m id ∧
           (∀ n ∈ id, out = .next (m.replied p .setTarget .done (bytes n))) ∧
           (id = none → out = .next (s.replied p .setTarget .listFull [])))) ∧
      (∀ id : Nat, ok →
        ((∃ e, s.stops.setEnd = some e ∧ e.active = false ∧ e.id = id) ∨
          (s.stops.setEnd = none ∧ s.stops.entries.length < 16 ∧ s.stops.freshId = id)) →
        ∃ t : State, out = .next t ∧
          t.port p = (s.port p).replied .setTarget .done
            (fieldU 1 id ++ fieldS 5 (setEndWeb s set.start length + s.geometry.w)) ∧
          t.job = { s.job with params := { s.job.params with target := some length } } ∧
          t.roll.windingSet = some { set with target := some length } ∧
          (s.motion.standstill = false → ∃ e ∈ t.stops.entries, e.id = id ∧ e.kind = .setEnd ∧
            e.web = setEndWeb s set.start length ∧ e.target = setEndWeb s set.start length + s.geometry.w ∧
            e.insertion = s.stops.insertions) ∧
          (s.tracker.settings.align ≠ 1 ∨ (∀ l, s.tracker.state ≠ .locked l) →
            setEndWeb s set.start length + s.geometry.w = (set.start : Int) + length) ∧
          s.IsSetEndWeb set.start length (setEndWeb s set.start length) ∧
          (t.time = s.time ∧ t.inputs = s.inputs ∧ t.geometry = s.geometry ∧ t.length = s.length ∧
            t.strobe = s.strobe ∧ t.motion = s.motion ∧ t.plans = s.plans ∧ t.tracker = s.tracker ∧ t.free = s.free ∧
            t.pending = s.pending ∧ ∀ q, q ≠ p → t.port q = s.port q)))

/-- The activation test (R143, R144): with no entry ACTIVE, no cut open and the web not at standstill, the head becomes
ACTIVE exactly in FORWARD with at most S to go, with STOP-REQUESTED, and with STOP-LATE exactly when its shortfall is
positive; STOP then is asserted. At standstill a head at or behind P is activated and completes at once, an ACTIVE entry
completes, and each completion sweeps the WAITING entries in reach and leaves the last stop record (R145, R148 to R150). In
motion an ACTIVE entry passed by more than the overrun limit is marked once, with STOP-OVERRUN (R151). A full list arbitrates
an offer: it evicts the victim, with STOP-DROPPED, or refuses (R141; log entry 21), and an entry inserted, moved or removed is
followed by an evaluation (R140, R142, R154); that the new entry's insertion number is the counter before its rise is the
model's choice (log entry 32). The list's change count rises by 1 at an activation, a removal, an overrun mark and a move (R182),
at a move also where the target stays (log entry 20). -/
def Obligations.HeadActivatesWithinTheBrakingDistance : Prop :=
  (∀ (h : StopEntry) (rest : List StopEntry) (s : State),
    s.job.state.isCutOpen = false → s.motion.standstill = false → s.stops.entries = h :: rest →
    (∀ e ∈ h :: rest, e.active = false) → (∀ e ∈ rest, e.id ≠ h.id) →
    let togo : Int := h.target - s.length.p
    let short : Nat := ((s.motion.braking : Int) - togo).toNat
    (s.motion.direction = .reverse ∨ (s.motion.braking : Int) < togo → evaluate s = s) ∧
    (s.motion.direction = .forward → togo ≤ s.motion.braking →
      (evaluate s).stops = { s.stops with
        entries := { h with active := true, shortfall := short, late := h.late || decide (0 < short) } :: rest
        changes := (s.stops.changes + 1) % 65536 } ∧
      (evaluate s).stopAsserted = true ∧
      (evaluate s).alerts = (if 0 < short then
        (s.alerts.map (Station.post .stopRequested)).map (Station.post .stopLate)
        else s.alerts.map (Station.post .stopRequested)) ∧
      evaluate s = { s with stops := (evaluate s).stops, alerts := (evaluate s).alerts })) ∧
  (∀ (h : StopEntry) (rest : List StopEntry) (s : State),
    s.job.state.isCutOpen = false → s.motion.standstill = true → s.motion.braking = 0 → s.stops.entries = h :: rest →
    (∀ e ∈ h :: rest, e.active = false) → ((h :: rest).map (·.id)).Nodup →
    ((s.length.p : Int) < h.target → evaluate s = s) ∧
    (h.target ≤ s.length.p →
      CompletionFollows h (h.late || decide (h.target < s.length.p)) ((s.length.p : Int) - h.target).toNat
        (.stopRequested :: if h.target < s.length.p then [.stopLate] else []) 1 s (evaluate s))) ∧
  (∀ (e : StopEntry) (s : State),
    s.job.state.isCutOpen = false → e ∈ s.stops.entries → e.active = true → (s.stops.entries.map (·.id)).Nodup →
    s.stops.entries.countP (·.active) = 1 →
    (s.motion.standstill = true → s.motion.braking = 0 →
      CompletionFollows e e.late e.shortfall [] 0 s (evaluate s)) ∧
    (s.motion.standstill = false →
      (e.overrun = false → e.target + s.motion.settings.overrun < s.length.p →
        (evaluate s).stops = { s.stops with
          entries := s.stops.entries.map (fun x => if x.id = e.id then { x with overrun := true } else x)
          changes := (s.stops.changes + 1) % 65536 } ∧
        (evaluate s).alerts = s.alerts.map (Station.post .stopOverrun) ∧
        evaluate s = { s with stops := (evaluate s).stops, alerts := (evaluate s).alerts }) ∧
      (e.overrun = true ∨ (s.length.p : Int) ≤ e.target + s.motion.settings.overrun → evaluate s = s))) ∧
  (∀ (o : StopOffer) (s : State), s.stops.Sound → s.stops.entries.length = 16 →
    ((∀ x ∈ s.stops.entries, x.active = false → o.kind.priority ≤ x.kind.priority) →
      offerStop o s =
        ({ s with alerts := if o.origin = .internal then s.alerts.map (Station.post .stopDropped) else s.alerts },
          none)) ∧
    (∀ v, s.stops.IsVictim o.kind.priority v →
      ∃ (t : State) (id : Nat), offerStop o s = (t, some id) ∧
        (∀ x ∈ t.stops.entries, x.insertion ≠ v.insertion) ∧
        (s.AlertsSound → t.PendsAs .stopDropped (s.postTimes 1 .stopDropped)) ∧
        (s.motion.standstill = false ∨ s.job.state.isCutOpen = true →
          (∃ x ∈ t.stops.entries, x.id = id ∧ x.insertion = s.stops.insertions ∧ x.kind = o.kind ∧ x.ref = o.ref ∧
            x.target = o.target) ∧
          ∀ x ∈ s.stops.entries, x ≠ v → ∃ y ∈ t.stops.entries, y.id = x.id ∧ y.target = x.target))) ∧
  (∀ (o : StopOffer) (s : State), s.stops.Sound → OfferTaken o s (offerStop o s).1 (offerStop o s).2) ∧
  (∀ (id : Nat) (e : StopEntry) (s : State), s.stops.entries.find? (fun x => decide (x.id = id)) = some e →
    cancelStopId id s = evaluate (s.stopRemoved e)) ∧
  (∀ (e : StopEntry) (web target : Int) (s : State), s.stops.Sound → e ∈ s.stops.entries →
    retargetStop e web target s = evaluate (s.stopMoved e web target))

/-! ## Chapter 9: jobs and sets -/

/-- JOB-START (R161, R162): judged by the job state, the ranges, a plan in some slot and standstill, in that order; a taken
one stores the parameters, sets the length counter, the divider, the tracker and the flow counters back, empties the stop
list and makes the job READY. With tracking off the six other tracking settings are held as sent and not checked (R118). The
stop list's change count rises by the entries emptied (R182; log entry 20). -/
def Obligations.JobStartPreparesEveryBlock : Prop :=
  ∀ (p : Port) (j : JobFields) (sev : Severity) (s : State), s.Takes p .jobStart (.jobStart p j) →
    let out : Host.Outcome State Fault Refusal := exec (.jobStart p j) s
    let sound : Prop := (1 ≤ j.job ∧ j.job ≤ 65535) ∧
      (j.targetPresent = 0 ∨ (j.targetPresent = 1 ∧ 10000 ≤ j.target ∧ j.target ≤ 2000000000)) ∧
      j.spliceLimit ≤ 8 ∧ j.enforce ≤ 1 ∧ (j.classes < 65536 ∧ j.classes % 2 = 0) ∧
      (1 ≤ j.severity ∧ j.severity ≤ 3) ∧ j.stopOnDefect ≤ 1 ∧ (-10000 ≤ j.stopOffset ∧ j.stopOffset ≤ 10000) ∧
      j.holdOnCritical ≤ 1 ∧ j.tracking ≤ 1 ∧
      (j.tracking = 1 → (500 ≤ j.expected ∧ j.expected ≤ 20000) ∧ (5 ≤ j.window ∧ j.window ≤ j.expected / 4) ∧
        (1 ≤ j.lossCount ∧ j.lossCount ≤ 15) ∧ j.stopOnLoss ≤ 1 ∧ j.align ≤ 1 ∧
        (-10000 ≤ j.cutOffset ∧ j.cutOffset ≤ 10000))
    let afresh : Measure → Measure := fun m => { m with remainder := 0, position := 0, silence := 0 }
    let span : Option SlipSpan :=
      if s.length.active = .a ∧ s.length.a.silent = false ∧ s.length.b.silent = false then some { pa0 := 0, pb0 := 0 }
      else none
    let params : JobParams :=
      { number := j.job, target := if j.targetPresent = 1 then some j.target else none, spliceLimit := j.spliceLimit,
        enforce := decide (j.enforce = 1), classes := j.classes, stopSeverity := sev,
        stopOnDefect := decide (j.stopOnDefect = 1), stopOffset := j.stopOffset,
        holdOnCritical := decide (j.holdOnCritical = 1) }
    let settings : TrackingSettings :=
      { tracking := decide (j.tracking = 1), expected := j.expected, window := j.window, lossCount := j.lossCount,
        stopOnLoss := j.stopOnLoss, align := j.align, cutOffset := j.cutOffset }
    (s.job.state ≠ .noJob → out = .next (s.replied p .jobStart .wrongState [])) ∧
    (s.job.state = .noJob → ¬ sound → out = .next (s.replied p .jobStart .outOfRange [])) ∧
    (s.job.state = .noJob → sound → s.plans.active = none → s.plans.staged = none →
      out = .next (s.replied p .jobStart .wrongState [])) ∧
    (s.job.state = .noJob → sound → s.plans.active ≠ none ∨ s.plans.staged ≠ none → s.motion.standstill = false →
      out = .next (s.replied p .jobStart .notStandstill [])) ∧
    (s.job.state = .noJob → sound → s.plans.active ≠ none ∨ s.plans.staged ≠ none → s.motion.standstill = true →
      sev.rank = j.severity →
      out = .next (State.replied
        { s with
          job := { state := .ready, params := params, setCounter := 0 }
          length := { s.length with a := afresh s.length.a, b := afresh s.length.b, p := 0, span := span }
          strobe := { s.strobe with count := 0, owed := 0 }
          motion := { s.motion with baseline := 0 }
          tracker :=
            { state := .unlocked, settings := settings, sense := .forward, good := 0, extra := 0, rescanned := 0,
              missed := 0, losses := 0 }
          queue := { s.queue with flow := Flow.zero, highMark := none }
          stops := { s.stops with entries := [],
                                  changes := (s.stops.changes + s.stops.entries.length) % 65536 } }
        p .jobStart .done [BitVec.ofNat 8 (j.job / 256), BitVec.ofNat 8 j.job]))

/-- JOB-END (R163, R76, R130, R156): from READY, every record is discarded as unmapped, the stop list is emptied, the
tracker is UNLOCKED and the job state becomes NO-JOB; the reply carries the job number and the final flow counters.
The change counts rise by 1 for each record and entry (R181, R182; log entry 20). -/
def Obligations.JobEndEmptiesQueueAndList : Prop :=
  ∀ (p : Port) (s : State), s.Takes p .jobEnd (.jobEnd p) →
    let flow : Flow :=
      { s.queue.flow with unmapped := (s.queue.flow.unmapped + s.queue.records.length) % 4294967296 }
    (s.job.state ≠ .ready → exec (.jobEnd p) s = .next (s.replied p .jobEnd .wrongState [])) ∧
    (s.job.state = .ready →
      exec (.jobEnd p) s = .next (State.replied
        { s with
          queue := { s.queue with records := [], flow := flow,
                                  changes := (s.queue.changes + s.queue.records.length) % 65536 }
          stops := { s.stops with entries := [],
                                  changes := (s.stops.changes + s.stops.entries.length) % 65536 }
          tracker := { s.tracker with state := .unlocked }
          job := { s.job with state := .noJob } }
        p .jobEnd .done (fieldU 2 s.job.params.number ++ fieldU 4 flow.taken ++ fieldU 4 flow.returned ++
          fieldU 4 flow.delivered ++ fieldU 4 flow.trimmed ++ fieldU 4 flow.removed ++ fieldU 4 flow.unmapped)))

/-- SET-START (R165, R46, R82, R83, R164): from READY at standstill, the STAGED plan becomes ACTIVE, the set counter rises,
and a slot becomes WINDING with a fresh record of the new set at setStart = P: the lowest-numbered slot without a record, else
the released set closed longest ago, else the oldest CLOSED set. With a target length the set's SET-END entry is placed and its
id answered (R132, R138), or 0 where a full list has no candidate, and the planner evaluates (R140; evictions:
log entry 21). Its insertion number is log entry 32. PLAN-ACTIVATED, MAP-LOST, STOP-DROPPED and SET-STARTED are posted,
each once and only when its step calls for it (R165). -/
def Obligations.SetStartOpensASet : Prop :=
  ∀ (p : Port) (s : State), s.Takes p .setStart (.setStart p) →
    let out : Host.Outcome State Fault Refusal := exec (.setStart p) s
    let active : Option Plan := s.plans.staged.or s.plans.active
    let number : Nat := if s.job.setCounter < 9999 then s.job.setCounter + 1 else 1
    (s.job.state ≠ .ready → out = .next (s.replied p .setStart .wrongState [])) ∧
    (s.job.state = .ready → s.motion.standstill = false → out = .next (s.replied p .setStart .notStandstill [])) ∧
    (∀ plan, s.job.state = .ready → s.motion.standstill = true → s.SlotsSound → active = some plan →
      ∃ (t : State) (n id : Nat) (set : SetRecord), out = .next t ∧
        t.port p = (s.port p).replied .setStart .done (fieldU 2 s.job.params.number ++ fieldU 2 number ++
          fieldU 1 n ++ fieldU 2 plan.id ++ fieldU 1 id) ∧
        (1 ≤ n ∧ n ≤ 4 ∧ t.roll.slot n = .winding set) ∧
        ((∃ m ∈ [1, 2, 3, 4], s.roll.slot m = .empty) → s.roll.slot n = .empty) ∧
        (∀ m ∈ [1, 2, 3, 4], s.roll.slot m = .empty → (∀ i ∈ [1, 2, 3, 4], i < m → s.roll.slot i ≠ .empty) → n = m) ∧
        ((∀ m ∈ [1, 2, 3, 4], s.roll.slot m ≠ .empty) → ∀ pre m post r, s.roll.closeList = pre ++ m :: post →
          (∀ x ∈ pre, ∀ r', s.roll.slot x ≠ .released r') → s.roll.slot m = .released r → n = m) ∧
        (∀ m ∈ [1, 2, 3, 4], m ≠ n → t.roll.slot m = s.roll.slot m) ∧
        t.roll.closeList = s.roll.closeList.filter (fun m => decide (m ≠ n)) ∧
        ((∀ m ∈ [1, 2, 3, 4], ∃ r, s.roll.slot m = .closed r) →
          s.roll.closeList.head? = some n ∧ t.roll.mapsLost = min (s.roll.mapsLost + 1) 65535) ∧
        ((∃ m ∈ [1, 2, 3, 4], ∀ r, s.roll.slot m ≠ .closed r) → t.roll.mapsLost = s.roll.mapsLost) ∧
        (set.job = s.job.params.number ∧ set.number = number ∧ set.plan = plan.id ∧ set.knives = plan.knives ∧
          set.start = s.length.p ∧ set.target = s.job.params.target ∧ set.closedLength = none ∧
          set.mapIncomplete = false ∧ (set.lengthFallback = true ↔ s.length.active = .b) ∧
          (set.trimTally = 0 ∧ set.unplacedTally = 0 ∧ set.removedTally = 0 ∧ set.repeatTally = 0 ∧
            set.markFaultTally = 0) ∧
          set.lanes.length = plan.knives.length - 1 ∧
          (∀ lane ∈ set.lanes, lane.defects = [] ∧ lane.splices = [] ∧ lane.defectOverflow = 0 ∧
            lane.spliceOverflow = 0 ∧ lane.status = .good ∧ lane.edits = 0) ∧
          ∀ i < set.lanes.length, ∀ lane ∈ set.lanes[i]?, lane.number = i + 1 ∧
            lane.width = plan.knives.getD (i + 1) 0 - plan.knives.getD i 0) ∧
        (∀ m ∈ set.mixed, s.geometry.k ≤ s.geometry.w → (m : Int) = s.geometry.w - s.geometry.k) ∧
        (s.AlertsSound →
          t.PendsAs .planActivated (s.postTimes (if s.plans.staged.isSome then 1 else 0) .planActivated) ∧
          t.PendsAs .mapLost
            (s.postTimes (if [1, 2, 3, 4].all (fun m => match s.roll.slot m with | .closed _ => true | _ => false) then 1
              else 0) .mapLost) ∧
          t.PendsAs .stopDropped
            (s.postTimes (if s.job.params.target.isSome ∧ 16 ≤ s.stops.entries.length then 1 else 0) .stopDropped) ∧
          t.PendsAs .setStarted (s.postTimes 1 .setStarted)) ∧
        (set.mixed = none ↔ ∀ a, s.plans.active = some a → a.id = plan.id) ∧
        t.plans = { active := some plan, staged := none } ∧
        t.job = { s.job with state := .winding, setCounter := number } ∧
        (s.job.params.target = none → id = 0 ∧ t.stops = s.stops ∧ t.queue = s.queue) ∧
        (∀ length, s.job.params.target = some length →
          (s.stops.Sound → s.AlertsSound → ∃ (web : Int) (m : State) (placed : Option Nat),
            s.IsSetEndWeb s.length.p length web ∧
            OfferTaken { kind := .setEnd, origin := .internal, ref := .set number, web := web, station := s.geometry.w,
                         target := web + s.geometry.w } s m placed ∧
            id = placed.getD 0 ∧ t.stops = m.stops ∧ t.queue = m.queue ∧ ∀ k ∈ stopPosts, t.PendsAs k m) ∧
          (16 ≤ s.stops.entries.length → (∀ e ∈ s.stops.entries, e.active = false → 3 ≤ e.kind.priority) →
            id = 0 ∧ t.stops = s.stops) ∧
          (s.stops.entries.length < 16 →
            id = s.stops.freshId ∧ t.stops.insertions = s.stops.insertions + 1 ∧
            ∃ web : Int, s.IsSetEndWeb s.length.p length web ∧
              ((s.length.p : Int) + s.motion.settings.tolerance < web + s.geometry.w → s.motion.braking = 0 →
                ∃ e ∈ t.stops.entries, e.id = id ∧ e.kind = .setEnd ∧ e.origin = .internal ∧ e.ref = .set number ∧
                  e.web = web ∧ e.station = s.geometry.w ∧ e.target = web + s.geometry.w ∧
                  e.insertion = s.stops.insertions ∧ e.active = false))) ∧
        (t.time = s.time ∧ t.inputs = s.inputs ∧ t.geometry = s.geometry ∧ t.length = s.length ∧ t.strobe = s.strobe ∧
          t.motion = s.motion ∧ t.tracker = s.tracker ∧ t.roll.register = s.roll.register ∧ t.free = s.free ∧
          t.pending = s.pending ∧ ∀ q, q ≠ p → t.port q = s.port q))

/-- SET-CLOSE (R167, R96 to R98, R155): from WINDING at standstill, the slot becomes CLOSED with the roll length of the
moment and no UNWOUND entry, joins the end of the close list, the register is emptied, no stop entry refers to the set any
more, and every record handed back is counted, the returned figure counting the discarded ones too (log entry 22). Each comes
back SLIT with its lanes and no stop entry id, the nearest to the nip first while there is room (R70, R97); SET-CLOSED is posted
once and QUEUE-FULL once for each record discarded. The planner evaluates once after the cancellations (R155). Each lane keeps its
WOUND entries, its hold and its overflow counts and counts an edit for each entry taken out; the tallies, the other slots and the
count of maps lost stand (R96). -/
def Obligations.SetCloseClosesTheSet : Prop :=
  ∀ (p : Port) (s : State), s.Takes p .setClose (.setClose p) →
    let out : Host.Outcome State Fault Refusal := exec (.setClose p) s
    (s.job.state ≠ .winding → out = .next (s.replied p .setClose .wrongState [])) ∧
    (s.job.state = .winding → s.motion.standstill = false → out = .next (s.replied p .setClose .notStandstill [])) ∧
    (∀ (n : Nat) (set : SetRecord), s.job.state = .winding → s.motion.standstill = true →
      s.roll.windingNumber = some n → s.roll.windingSet = some set →
      ∃ (t : State) (back lost : Nat) (closed : SetRecord), out = .next t ∧
        t.port p = (s.port p).replied .setClose .done (fieldU 2 set.job ++ fieldU 2 set.number ++ fieldU 1 n ++
          fieldU 4 (s.length.p - set.start) ++ fieldU 2 back ++ fieldU 2 lost) ∧
        t.roll.slot n = .closed closed ∧ closed.closedLength = some (s.length.p - set.start) ∧
        closed.unwoundCount = 0 ∧
        (closed.job = set.job ∧ closed.number = set.number ∧ closed.plan = set.plan ∧ closed.start = set.start ∧
          closed.target = set.target ∧ closed.mixed = set.mixed ∧ closed.mapIncomplete = set.mapIncomplete ∧
          closed.lengthFallback = set.lengthFallback ∧ closed.trimTally = set.trimTally ∧
          closed.lanes.map (·.status) = set.lanes.map (·.status)) ∧
        closed = { set with
          closedLength := some (s.length.p - set.start)
          lanes := set.lanes.map (fun x => { x with
            defects := x.defects.filter (·.wound)
            splices := x.splices.filter (·.wound)
            edits := (x.edits + x.defects.countP (fun e => !e.wound) + x.splices.countP (fun e => !e.wound)) % 65536 }) } ∧
        t.roll.closeList = s.roll.closeList ++ [n] ∧ t.roll.register = [] ∧ t.roll.mapsLost = s.roll.mapsLost ∧
        (s.SlotsSound → ∀ m ∈ [1, 2, 3, 4], m ≠ n → t.roll.slot m = s.roll.slot m) ∧
        (back = (s.roll.register.filter (fun it => set.isUnwound it.body.number)).length ∧
          t.queue.records.length + lost = s.queue.records.length + back ∧
          t.queue.flow.returned % 4294967296 = (s.queue.flow.returned + back) % 4294967296 ∧
          t.queue.flow.unmapped % 4294967296 = (s.queue.flow.unmapped + lost) % 4294967296) ∧
        (s.QueueSound → RecordsReturned set s t) ∧
        (s.AlertsSound → t.PendsAs .setClosed (s.postTimes 1 .setClosed) ∧
          t.PendsAs .queueFull (s.postTimes lost .queueFull)) ∧
        (∀ e ∈ t.stops.entries, e.ref ≠ .set set.number) ∧
        (s.QueueSound → s.AlertsSound → s.stops.Sound →
          let kept : List StopEntry := s.stops.entries.filter (fun e => decide (e.ref ≠ .set set.number))
          let changes : Nat := if kept = s.stops.entries then s.stops.changes
            else (s.stops.changes + (s.stops.entries.length - kept.length)) % 65536
          PlannerAs (evaluate { s with stops := { s.stops with entries := kept, changes := changes } }) t) ∧
        t.job = { s.job with state := .ready } ∧
        (t.time = s.time ∧ t.inputs = s.inputs ∧ t.geometry = s.geometry ∧ t.length = s.length ∧ t.strobe = s.strobe ∧
          t.motion = s.motion ∧ t.plans = s.plans ∧ t.tracker = s.tracker ∧ t.free = s.free ∧
          t.pending = s.pending ∧ ∀ q, q ≠ p → t.port q = s.port q))

/-! ## Chapter 10: ports, frames and reads -/

/-- A SEND is judged on the port state noted at select (R172 to R174): outside READY the frame is discarded and counted; in
READY the checks are made in their order and the first that fails decides the reply; a frame that passes them all makes the
port WORKING with its request. A void transaction clocks out the status byte noted at select and filler, raises the
discarded-frame counter, and leaves the port state and both buffers as they were (R172, R178). A transaction is one step,
taken at the release of select, whose `early` says whether select came before the port's last change of state (log entry 4). The
receive buffer holds the frame while the port is WORKING and is emptied when the reply is made (log entry 7). In reset the
counter stands (R194). -/
def Obligations.SendIsCheckedInOrder : Prop :=
  (∀ (p : Port) (early : Bool) (bytes : List Byte) (cut : Bool) (s : State),
      let r : PortRegs := s.port p
      let st : PortState := if early then r.noted else r.state
      let size : Nat := (bytes.getD 1 0).toNat
      let framed : Prop := cut = false ∧ 3 ≤ bytes.length ∧ size ≤ 200 ∧ bytes.length = 3 + size ∧
        (bytes.map BitVec.toNat).sum % 256 = 0
      let sdo : List Byte := st.byte :: List.replicate bytes.length 0x00
      let out : Host.Outcome State Fault Refusal := exec (.send ⟨p, early⟩ bytes cut) s
      let answered : Status → State := fun reply => s.withPort p
        { r with state := .reply, noted := .reply, received := [], request := none, sdo := sdo,
                 reply := replyFrame (bytes.headD 0) { status := reply, payload := [] } }
      (st ≠ .ready → s.time.inReset = false →
        out = .next (s.withPort p
          { r with noted := r.state, discarded := min (r.discarded + 1) 65535, sdo := sdo })) ∧
      (st ≠ .ready → s.time.inReset = true → out = .next (s.withPort p { r with noted := r.state, sdo := sdo })) ∧
      (st = .ready → ¬ framed → out = .next (answered .frameError)) ∧
      (st = .ready → framed → Kind.ofByte (bytes.headD 0) = none → out = .next (answered .unknownKind)) ∧
      (∀ k : Kind, st = .ready → framed → Kind.ofByte (bytes.headD 0) = some k →
        (k.permitted p = false → out = .next (answered .notPermitted)) ∧
        (k.permitted p = true → readRequest p k ((bytes.drop 2).take size) = none →
          out = .next (answered .frameError)) ∧
        (∀ i, k.permitted p = true → readRequest p k ((bytes.drop 2).take size) = some i →
          out = .next (s.withPort p
            { r with state := .working, noted := .working, received := bytes, request := some i, sdo := sdo })))) ∧
  (∀ (p : Port) (early : Bool) (first : Option Byte) (clocked : Nat) (s : State),
      exec (.voidTransaction ⟨p, early⟩ first clocked) s = .next (s.withPort p { s.port p with
        noted := (s.port p).state,
        discarded := if s.time.inReset then (s.port p).discarded else min ((s.port p).discarded + 1) 65535,
        sdo := (if early then (s.port p).noted else (s.port p).state).byte :: List.replicate clocked 0x00 }))

/-- FETCH, judged on the port state noted at select (R172, R177; log entry 4): in REPLY the reply from its first byte and then
filler; a full read empties the buffer and makes the port READY, a partial one keeps the whole reply; in any other state
filler, and no state and no counter changes, though the port has become REPLY meanwhile. -/
def Obligations.FetchReadsTheReplyInFull : Prop :=
  ∀ (p : Port) (early : Bool) (clocked : Nat) (s : State),
    let r : PortRegs := s.port p
    let selected : PortState := if early then r.noted else r.state
    (selected = .reply → r.reply.length ≤ clocked →
      exec (.fetch ⟨p, early⟩ clocked) s = .next (s.withPort p { r with
        state := .ready, noted := .ready, reply := [],
        sdo := 0x53 :: (r.reply ++ List.replicate (clocked - r.reply.length) 0x00) })) ∧
    (selected = .reply → clocked < r.reply.length →
      exec (.fetch ⟨p, early⟩ clocked) s = .next (s.withPort p
        { r with noted := r.state, sdo := 0x53 :: r.reply.take clocked })) ∧
    (∀ st : PortState, selected = st → st ≠ .reply →
      exec (.fetch ⟨p, early⟩ clocked) s = .next (s.withPort p { r with
        noted := r.state,
        sdo := (match st with | .starting => 0x50 | .ready => 0x51 | .working => 0x52 | .reply => 0x53) ::
          List.replicate clocked 0x00 }))

/-- A request that does not reach its block: at a READY port a kind not permitted there is answered REFUSED-NOT-PERMITTED
(R174, R179); at a STARTING or REPLY port, or one WORKING on another request, it is discarded and counted (R173). The
passage of a request command through its port, and that it leaves the port's SDO bytes as they were, is the model's (log entry 5).
Which kinds each port permits is the table of R179. -/
def Obligations.RequestsAreTurnedAwayAtThePort : Prop :=
  (let forL : List Kind := [.setGeometry, .setCalibration, .setSensors, .setMotion, .loadPlan, .jobStart, .jobEnd, .lineState,
     .selectSource, .releaseSet]
   let forLO : List Kind := [.setTrim, .setStart, .setClose, .setTarget, .addStop, .cancelStop]
   let forI : List Kind := [.defect, .setStrobe]
   let forO : List Kind := [.cutOpen, .spliceMade, .cutCancel, .laneStatus]
   let forAll : List Kind := [.readStatus, .readSet, .readLane, .readQueue, .readStops, .readCounters, .readEvents,
     .ackEvents, .setAlerts]
   ∀ k : Kind,
     (k.permitted .l = true ↔ k ∈ forL ++ forLO ++ forAll) ∧ (k.permitted .i = true ↔ k ∈ forI ++ forAll) ∧
     (k.permitted .o = true ↔ k ∈ forLO ++ forO ++ forAll)) ∧
  ∀ (i : Instr) (p : Port) (k : Kind) (payload : List Byte) (s : State), requestParts i = some (p, k, payload) →
    ((s.port p).state = .ready → k.permitted p = false →
      exec i s = .next (s.withPort p { ((s.port p).replied k .notPermitted []) with noted := .reply })) ∧
    ((s.port p).state = .starting ∨ (s.port p).state = .reply ∨
        ((s.port p).state = .working ∧ (s.port p).request ≠ some i) →
      s.time.inReset = false →
      exec i s = .next (s.withPort p
        { s.port p with noted := (s.port p).state, discarded := min ((s.port p).discarded + 1) 65535 }))

/-- Every request that reaches its block is answered at its port with its kind echoed; a reply other than DONE carries no
payload and the request has changed nothing else (R176), but for the QUEUE-FULL and the mark of a refused defect (R60). A reply
frame is status, kind, payload length, at most 200, payload and a check byte that makes the sum of all bytes a whole multiple of
256 (R176), in the codes of 13.2 and 13.3. -/
def Obligations.RefusedRequestsChangeNothing : Prop :=
  (∀ (kind : Byte) (st : Status) (payload : List Byte),
    IsReplyFrame (replyFrame kind { status := st, payload := payload }) st kind payload) ∧
  (∀ k : Kind, k.byte = k.layoutCode) ∧
  ∀ (i : Instr) (p : Port) (k : Kind) (payload : List Byte) (s : State), requestParts i = some (p, k, payload) →
    s.Takes p k i →
    ∃ (t : State) (st : Status) (bytes : List Byte), exec i s = .next t ∧
      t.port p = (s.port p).replied k st bytes ∧ (∀ q, q ≠ p → t.port q = s.port q) ∧
      (s.AlertsSound → bytes.length ≤ 200) ∧ (st ≠ .done → bytes = []) ∧
      (st ≠ .done → ¬ (k = .defect ∧ st = .listFull) → t = s.replied p k st [])

/-- The seven reads change nothing but their own port (section 10.10), and each is answered DONE wherever its rule lets it, with
the figures of the state at the offsets of Chapter 13: READ-STATUS (its figures are StatusReplyHoldsTheStateAtItsOffsets),
READ-COUNTERS and READ-EVENTS always, the paged reads from an index within the list, READ-SET and READ-LANE of a set and a lane
that exist (R52, R101, R102, R180 to R183, R189, R197), refused otherwise; which set a request names is part of
ReleaseSetFreesAClosedSet (R84). The bit in which a splice entry's old-plan flag is sent is log entry 30. -/
def Obligations.ReadsChangeOnlyTheirPort : Prop :=
  ∀ (p : Port) (s : State),
    let reads : Kind → Instr → (List Byte → Prop) → Prop := fun k i holds =>
      ∃ bytes, exec i s = .next (s.replied p k .done bytes) ∧ holds bytes
    (s.Takes p .readStatus (.readStatus p) → reads .readStatus (.readStatus p) (fun bytes => bytes.length = 29)) ∧
    (s.Takes p .readCounters (.readCounters p) →
      reads .readCounters (.readCounters p) (fun bytes => HoldsCounters bytes s)) ∧
    (s.Takes p .readEvents (.readEvents p) →
      reads .readEvents (.readEvents p) (fun bytes => HoldsEvents bytes (s.alerts.get p))) ∧
    (∀ start, s.Takes p .readQueue (.readQueue p start) →
      (start ≤ s.queue.records.length →
        reads .readQueue (.readQueue p start) (fun bytes => HoldsQueue bytes start s.queue)) ∧
      (s.queue.records.length < start →
        exec (.readQueue p start) s = .next (s.replied p .readQueue .outOfRange []))) ∧
    (∀ start, s.Takes p .readStops (.readStops p start) →
      (start ≤ s.stops.entries.length →
        reads .readStops (.readStops p start) (fun bytes => HoldsStops bytes start s.stops)) ∧
      (s.stops.entries.length < start →
        exec (.readStops p start) s = .next (s.replied p .readStops .outOfRange []))) ∧
    (∀ job set first st, s.Takes p .readSet (.readSet p job set first) → s.roll.find job set = .error st →
      exec (.readSet p job set first) s = .next (s.replied p .readSet st [])) ∧
    (∀ job set lane list start, s.Takes p .readLane (.readLane p job set lane list start) →
      (1 < list → exec (.readLane p job set lane list start) s = .next (s.replied p .readLane .outOfRange [])) ∧
      (list ≤ 1 → ∀ st, s.roll.find job set = .error st →
        exec (.readLane p job set lane list start) s = .next (s.replied p .readLane st [])) ∧
      (list ≤ 1 → ∀ n r, s.roll.find job set = .ok n → (s.roll.slot n).record? = some r →
        (lane = 0 ∨ r.lanes.length < lane →
          exec (.readLane p job set lane list start) s = .next (s.replied p .readLane .outOfRange [])) ∧
        (1 ≤ lane → ∀ x, r.lanes[lane - 1]? = some x →
          (list = 0 ∧ x.defects.length < start) ∨ (list = 1 ∧ x.splices.length < start) →
          exec (.readLane p job set lane list start) s = .next (s.replied p .readLane .outOfRange [])))) ∧
    (∀ job set first n r, s.Takes p .readSet (.readSet p job set first) → s.roll.find job set = .ok n →
      (s.roll.slot n).record? = some r →
      (1 ≤ first → first ≤ r.lanes.length →
        reads .readSet (.readSet p job set first) (fun bytes => HoldsSet bytes n r first s)) ∧
      (first = 0 ∨ r.lanes.length < first →
        exec (.readSet p job set first) s = .next (s.replied p .readSet .outOfRange []))) ∧
    (∀ job set lane start n r x, s.roll.find job set = .ok n → (s.roll.slot n).record? = some r → 1 ≤ lane →
      r.lanes[lane - 1]? = some x →
      (s.Takes p .readLane (.readLane p job set lane 0 start) → start ≤ x.defects.length →
        reads .readLane (.readLane p job set lane 0 start) (fun bytes =>
          HoldsLanePage bytes x 0 start x.defects.length 16 ∧
          ∀ i < 10, ∀ e ∈ x.defects[start + i]?, HoldsDefect bytes (5 + 16 * i) e)) ∧
      (s.Takes p .readLane (.readLane p job set lane 1 start) → start ≤ x.splices.length →
        reads .readLane (.readLane p job set lane 1 start) (fun bytes =>
          HoldsLanePage bytes x 1 start x.splices.length 9 ∧
          ∀ i < 10, ∀ e ∈ x.splices[start + i]?, HoldsSplice bytes (5 + 9 * i) e)))

/-- The READ-STATUS reply (R180, 13.5): 29 bytes that hold, at the offsets of 13.5, the figures of the state as it stands,
when each figure is within the width of its field. -/
def Obligations.StatusReplyHoldsTheStateAtItsOffsets : Prop :=
  ∀ (p : Port) (s : State), s.Takes p .readStatus (.readStatus p) →
    s.length.p ≤ topOfPosition → s.motion.speed < 65536 → s.motion.braking ≤ topOfPosition →
    s.job.params.number < 65536 → s.job.setCounter < 65536 → planId s.plans.active < 65536 →
    planId s.plans.staged < 65536 → s.stops.entries.length < 256 → (∀ e ∈ s.stops.entries, e.id < 256) →
    ∃ bytes : List Byte, exec (.readStatus p) s = .next (s.replied p .readStatus .done bytes) ∧ bytes.length = 29 ∧
      readU bytes 0 4 = s.length.p ∧ readU bytes 4 2 = s.motion.speed ∧ readU bytes 6 4 = s.motion.braking ∧
      ((readU bytes 10 1).testBit 0 = true ↔ s.motion.direction = .reverse) ∧
      ((readU bytes 10 1).testBit 1 = true ↔ s.motion.standstill = true) ∧
      ((readU bytes 10 1).testBit 2 = true ↔ ∃ e ∈ s.stops.entries, e.active = true) ∧
      ((readU bytes 10 1).testBit 3 = true ↔ s.length.active = .b) ∧
      ((readU bytes 10 1).testBit 4 = true ↔ s.length.a.silent = true) ∧
      ((readU bytes 10 1).testBit 5 = true ↔ s.length.b.silent = true) ∧
      readU bytes 11 1 = (match s.motion.report with | .stopped => 0 | .running => 1 | .jogging => 2) ∧
      readU bytes 12 1 = (match s.job.state with | .noJob => 0 | .ready => 1 | .winding => 2 | .cutOpen _ => 3) ∧
      readU bytes 13 2 = s.job.params.number ∧ readU bytes 15 2 = s.job.setCounter ∧
      readU bytes 17 4 = (match s.roll.windingSet with | none => 0 | some r => s.length.p - r.start) ∧
      readU bytes 21 2 = planId s.plans.active ∧ readU bytes 23 2 = planId s.plans.staged ∧
      readU bytes 25 1 = (match s.tracker.state with | .unlocked => 0 | .locked _ => 1 | .lost _ => 2) ∧
      readU bytes 26 1 = s.stops.entries.length ∧
      readU bytes 27 1 = (match s.stops.head with | none => 0 | some e => e.id) ∧
      readU bytes 28 1 = (match s.stops.head with | none => 0 | some e => if e.active then 2 else 1)

/-- Frames and commands agree (10.3, R174, 13.1 to 13.4): the frame of every well-formed request passes the checks of a port
that permits its kind and is read as that request, every field at every value its width admits. -/
def Obligations.EveryRequestFrameReadsBack : Prop :=
  ∀ (i : Instr) (p : Port) (k : Kind) (payload : List Byte), i.WellFormed → requestParts i = some (p, k, payload) →
    k.permitted p = true →
    payload.length ≤ 200 ∧ checkFrame p (requestFrame k payload) false = .dispatch i

/-! ## Chapter 11: events -/

/-- Posting (R186): one post reaches all three records at once, whatever their enables; an absent kind joins with a count
of 1, a pending one rises by 1 and stays at 255, every other kind stands; the line is decided anew, and nothing else of
the part changes; several posts of a kind count each. -/
def Obligations.PostReachesEveryStation : Prop :=
  ∀ (k : EventKind) (s : State), s.AlertsSound →
    (s.post k).AlertsSound ∧ s.post k = { s with alerts := (s.post k).alerts } ∧
    ∀ p : Port,
      let before : Station := s.alerts.get p
      let after : Station := (s.post k).alerts.get p
      ((∀ n, (k, n) ∉ before.pending) → (k, 1) ∈ after.pending) ∧
      (∀ n, (k, n) ∈ before.pending → (k, min (n + 1) 255) ∈ after.pending) ∧
      (∀ j n, j ≠ k → ((j, n) ∈ after.pending ↔ (j, n) ∈ before.pending)) ∧
      (after.master = before.master ∧ after.enabled = before.enabled) ∧
      (after.line = true ↔ (∃ e ∈ after.pending, e.1.urgent = true) ∨
        (after.master = true ∧ ∃ e ∈ after.pending, e.1 ∈ after.enabled)) ∧
      (∀ n, (∀ m, (k, m) ∉ before.pending) →
        (k, min (n + 1) 255) ∈ ((State.postAll (List.replicate (n + 1) k) s).alerts.get p).pending)

/-- ACK-EVENTS (R190), permitted on every port: a list above 24 or a code outside the 24 is refused; otherwise each kind named leaves the station's
own pending set with its count, the line is decided anew, the other stations' records are untouched, and a kind
acknowledged joins again with a count of 1. -/
def Obligations.AckEventsRemovesTheKindsNamed : Prop :=
  (∀ p : Port, Kind.ackEvents.permitted p = true) ∧
  ∀ (p : Port) (codes : List Nat) (s : State), s.Takes p .ackEvents (.ackEvents p codes) →
    let st : Station := s.alerts.get p
    let ok : Prop := codes.length ≤ 24 ∧ ∀ c ∈ codes, 1 ≤ c ∧ c ≤ 24
    (¬ ok → exec (.ackEvents p codes) s = .next (s.replied p .ackEvents .outOfRange [])) ∧
    (ok → ∃ after : Station,
      exec (.ackEvents p codes) s = .next (State.replied (s.withStation p after) p .ackEvents .done []) ∧
      after.pending = st.pending.filter (fun e => decide (e.1.code ∉ codes)) ∧
      (after.master = st.master ∧ after.enabled = st.enabled) ∧
      (after.line = true ↔ (∃ e ∈ after.pending, e.1.urgent = true) ∨
        (after.master = true ∧ ∃ e ∈ after.pending, e.1 ∈ after.enabled)) ∧
      (∀ q, q ≠ p → (s.withStation p after).alerts.get q = s.alerts.get q) ∧
      (∀ k : EventKind, k.code ∈ codes → st.pending.Pairwise (fun a b => a.1.code < b.1.code) →
        (k, 1) ∈ (after.post k).pending))

/-- SET-ALERTS (R188), permitted on every port: a master enable or a code out of range is refused; otherwise the station's master enable and enable
set are replaced, the set holding the routine kinds named, once each; the pending set stands and the line is decided anew. -/
def Obligations.SetAlertsReplacesTheEnables : Prop :=
  (∀ p : Port, Kind.setAlerts.permitted p = true) ∧
  ∀ (p : Port) (master : Nat) (codes : List Nat) (s : State), s.Takes p .setAlerts (.setAlerts p master codes) →
    let st : Station := s.alerts.get p
    let ok : Prop := master ≤ 1 ∧ codes.length ≤ 24 ∧ ∀ c ∈ codes, 1 ≤ c ∧ c ≤ 24
    (¬ ok → exec (.setAlerts p master codes) s = .next (s.replied p .setAlerts .outOfRange [])) ∧
    (ok → ∃ after : Station,
      exec (.setAlerts p master codes) s = .next (State.replied (s.withStation p after) p .setAlerts .done []) ∧
      (after.master = true ↔ master = 1) ∧ after.enabled.Nodup ∧
      (∀ k : EventKind, k ∈ after.enabled ↔ k.urgent = false ∧ k.code ∈ codes) ∧
      after.pending = st.pending ∧
      (after.line = true ↔ (∃ e ∈ after.pending, e.1.urgent = true) ∨
        (after.master = true ∧ ∃ e ∈ after.pending, e.1 ∈ after.enabled)) ∧
      (∀ q, q ≠ p → (s.withStation p after).alerts.get q = s.alerts.get q))

/-! ## Rules over the whole machine -/

/-- Which commands can change what the stations have set (R1, R3, R6, R8, R9, R22, R32, R33, R41, R118, R160, R188), the active
source (R15, R17) and P (R13, R24). Of the nine motion settings the gate period in force changes only at a gate close, to the
one that waited. A step with no command waiting changes none of them, but that a gate close due in it puts a waiting gate period in
force (log entries 1 and 2). -/
def Obligations.SettingsChangeOnlyByTheirCommands : Prop :=
  ∀ (i : Option Instr) (s t : State), s.answerTo i = .next t → (i = none → s.pending = []) → i ≠ some .reset →
    (t.geometry ≠ s.geometry → ∃ p g, i = some (.setGeometry p g)) ∧
    (∀ e, (t.length.measure e).circumference ≠ (s.length.measure e).circumference ∨
        (t.length.measure e).counts ≠ (s.length.measure e).counts → ∃ p a b, i = some (.setCalibration p a b)) ∧
    (∀ e, (t.length.measure e).trim ≠ (s.length.measure e).trim → ∃ p x y, i = some (.setTrim p x y)) ∧
    (t.strobe.interval ≠ s.strobe.interval → ∃ p q, i = some (.setStrobe p q)) ∧
    ({ t.motion.settings with gate := s.motion.settings.gate } ≠ s.motion.settings → ∃ p m, i = some (.setMotion p m)) ∧
    (t.motion.settings.gate ≠ s.motion.settings.gate →
      (i = some .gateClose ∨ i = some .interval ∨ i = none) ∧ s.motion.nextGate = some t.motion.settings.gate) ∧
    (t.motion.nextGate ≠ s.motion.nextGate → (∃ p m, i = some (.setMotion p m)) ∨
      ((i = some .gateClose ∨ i = some .interval ∨ i = none) ∧ t.motion.nextGate = none)) ∧
    (∀ e, (t.inputs.encoder e).filter ≠ (s.inputs.encoder e).filter → ∃ p a b, i = some (.setCalibration p a b)) ∧
    (t.inputs.mark.filter ≠ s.inputs.mark.filter ∨ t.inputs.mark.edge ≠ s.inputs.mark.edge ∨
        t.inputs.splice.filter ≠ s.inputs.splice.filter ∨ t.inputs.splice.edge ≠ s.inputs.splice.edge →
      ∃ p mf me sf se, i = some (.setSensors p mf me sf se)) ∧
    (t.length.active ≠ s.length.active → (∃ p x, i = some (.selectSource p x)) ∨ ∃ ph, i = some (.count .b ph)) ∧
    (t.motion.report ≠ s.motion.report → ∃ p x, i = some (.lineState p x)) ∧
    (t.plans.staged ≠ s.plans.staged → (∃ p x y, i = some (.loadPlan p x y)) ∨ ∃ p, i = some (.setStart p)) ∧
    (t.plans.active ≠ s.plans.active → ∃ p, i = some (.setStart p)) ∧
    (t.tracker.settings ≠ s.tracker.settings → ∃ p j, i = some (.jobStart p j)) ∧
    (t.job.params ≠ s.job.params → (∃ p j, i = some (.jobStart p j)) ∨ ∃ p x, i = some (.setTarget p x)) ∧
    (∀ p, (t.alerts.get p).master ≠ (s.alerts.get p).master ∨ (t.alerts.get p).enabled ≠ (s.alerts.get p).enabled →
      ∃ x y, i = some (.setAlerts p x y)) ∧
    (t.length.p ≠ s.length.p → (∃ e ph, i = some (.count e ph)) ∨ ∃ p j, i = some (.jobStart p j)) ∧
    t.pending = s.pending

/-- The job state moves only as the table of R158 gives, and by reset; a step with no command waiting does not move it. -/
def Obligations.JobStateMovesAsTheTableGives : Prop :=
  ∀ (i : Option Instr) (s t : State), s.answerTo i = .next t → (i = none → s.pending = []) → t.job.state ≠ s.job.state →
    (i = some .reset ∧ t.job.state = .noJob) ∨
    ((∃ p j, i = some (.jobStart p j)) ∧ s.job.state = .noJob ∧ t.job.state = .ready ∧ s.motion.standstill = true) ∨
    ((∃ p, i = some (.setStart p)) ∧ s.job.state = .ready ∧ t.job.state = .winding ∧ s.motion.standstill = true) ∨
    ((∃ p, i = some (.setClose p)) ∧ s.job.state = .winding ∧ t.job.state = .ready ∧ s.motion.standstill = true) ∨
    ((∃ p, i = some (.jobEnd p)) ∧ s.job.state = .ready ∧ t.job.state = .noJob) ∨
    ((∃ p, i = some (.cutOpen p)) ∧ s.job.state = .winding ∧ t.job.state = .cutOpen s.length.p ∧
      s.motion.standstill = true) ∨
    (((∃ p a b l, i = some (.spliceMade p a b l)) ∨ ∃ p, i = some (.cutCancel p)) ∧ s.job.state.isCutOpen = true ∧
      t.job.state = .winding)

/-! ## Invariants that every step keeps -/

/-- Every invariant of Safety.lean holds at reset. -/
def Obligations.ResetMeetsEveryInvariant : Prop :=
  State.reset.LengthSound ∧ State.reset.StandstillSound ∧ State.reset.QueueSound ∧ State.reset.queue.Balanced ∧
  State.reset.stops.Sound ∧ State.reset.StopIdsMatch ∧ State.reset.AlertsSound ∧ State.reset.SlotsSound

/-- The remainders stay below their divisors and the positions within their holds (R10, R12, R13, R22, R23). -/
def Obligations.LengthStaysWithinItsBounds : Prop :=
  ∀ s t : State, s.LengthSound → step s = .next t → t.LengthSound

/-- At standstill S, v and the ring are 0 and the direction is FORWARD (R28, R31); at standstill and during a cut STOP is
released (R107, R143). -/
def Obligations.StandstillReleasesStop : Prop :=
  ∀ s t : State, s.StandstillSound → step s = .next t → t.StandstillSound

/-- The path queue keeps its order, its capacity and its emptiness in NO-JOB (R57, R76). -/
def Obligations.QueueKeepsItsOrder : Prop :=
  ∀ s t : State, s.QueueSound → step s = .next t → t.QueueSound

/-- The flow counters account for every record (R74), modulo 4,294,967,296. -/
def Obligations.FlowCountersBalance : Prop :=
  ∀ s t : State, s.QueueSound → s.queue.Balanced → step s = .next t → t.queue.Balanced

/-- The stop list keeps its order, its size and its ids, and holds at most one ACTIVE entry (R135, R137); and the stop entry id
of a path record stays that of an entry made for the record (R72). -/
def Obligations.StopListKeepsItsOrder : Prop :=
  ∀ s t : State, s.stops.Sound → step s = .next t →
    t.stops.Sound ∧ (s.QueueSound → s.StopIdsMatch → t.StopIdsMatch)

/-- Every station record keeps its kinds, its counts and a line that agrees with them (R186 to R189). -/
def Obligations.AlertLinesFollowTheirRecords : Prop :=
  ∀ s t : State, s.AlertsSound → step s = .next t → t.AlertsSound

/-- A slot is WINDING exactly while the job state is WINDING or CUT-OPEN, and the close list holds the closed sets (R78,
R98). -/
def Obligations.WindingSlotFollowsTheJobState : Prop :=
  ∀ s t : State, s.SlotsSound → step s = .next t → t.SlotsSound
end

