-- ==== Sys2Proof/Laws/State.lean ====
section
/-! SUPPORT. One lemma for each field under each named update of the state, true by definition. -/

namespace Sys2Proof.Machine

/-! `State.withStops` -/

@[simp] theorem State.withStops_time (s : State) (x : StopPlanner) : (s.withStops x).time = s.time := rfl
@[simp] theorem State.withStops_inputs (s : State) (x : StopPlanner) : (s.withStops x).inputs = s.inputs := rfl
@[simp] theorem State.withStops_geometry (s : State) (x : StopPlanner) : (s.withStops x).geometry = s.geometry := rfl
@[simp] theorem State.withStops_length (s : State) (x : StopPlanner) : (s.withStops x).length = s.length := rfl
@[simp] theorem State.withStops_strobe (s : State) (x : StopPlanner) : (s.withStops x).strobe = s.strobe := rfl
@[simp] theorem State.withStops_motion (s : State) (x : StopPlanner) : (s.withStops x).motion = s.motion := rfl
@[simp] theorem State.withStops_plans (s : State) (x : StopPlanner) : (s.withStops x).plans = s.plans := rfl
@[simp] theorem State.withStops_queue (s : State) (x : StopPlanner) : (s.withStops x).queue = s.queue := rfl
@[simp] theorem State.withStops_roll (s : State) (x : StopPlanner) : (s.withStops x).roll = s.roll := rfl
@[simp] theorem State.withStops_tracker (s : State) (x : StopPlanner) : (s.withStops x).tracker = s.tracker := rfl
@[simp] theorem State.withStops_stops (s : State) (x : StopPlanner) : (s.withStops x).stops = x := rfl
@[simp] theorem State.withStops_job (s : State) (x : StopPlanner) : (s.withStops x).job = s.job := rfl
@[simp] theorem State.withStops_ports (s : State) (x : StopPlanner) : (s.withStops x).ports = s.ports := rfl
@[simp] theorem State.withStops_alerts (s : State) (x : StopPlanner) : (s.withStops x).alerts = s.alerts := rfl
@[simp] theorem State.withStops_free (s : State) (x : StopPlanner) : (s.withStops x).free = s.free := rfl
@[simp] theorem State.withStops_pending (s : State) (x : StopPlanner) : (s.withStops x).pending = s.pending := rfl

/-! `State.withQueue` -/

@[simp] theorem State.withQueue_time (s : State) (x : PathQueue) : (s.withQueue x).time = s.time := rfl
@[simp] theorem State.withQueue_inputs (s : State) (x : PathQueue) : (s.withQueue x).inputs = s.inputs := rfl
@[simp] theorem State.withQueue_geometry (s : State) (x : PathQueue) : (s.withQueue x).geometry = s.geometry := rfl
@[simp] theorem State.withQueue_length (s : State) (x : PathQueue) : (s.withQueue x).length = s.length := rfl
@[simp] theorem State.withQueue_strobe (s : State) (x : PathQueue) : (s.withQueue x).strobe = s.strobe := rfl
@[simp] theorem State.withQueue_motion (s : State) (x : PathQueue) : (s.withQueue x).motion = s.motion := rfl
@[simp] theorem State.withQueue_plans (s : State) (x : PathQueue) : (s.withQueue x).plans = s.plans := rfl
@[simp] theorem State.withQueue_queue (s : State) (x : PathQueue) : (s.withQueue x).queue = x := rfl
@[simp] theorem State.withQueue_roll (s : State) (x : PathQueue) : (s.withQueue x).roll = s.roll := rfl
@[simp] theorem State.withQueue_tracker (s : State) (x : PathQueue) : (s.withQueue x).tracker = s.tracker := rfl
@[simp] theorem State.withQueue_stops (s : State) (x : PathQueue) : (s.withQueue x).stops = s.stops := rfl
@[simp] theorem State.withQueue_job (s : State) (x : PathQueue) : (s.withQueue x).job = s.job := rfl
@[simp] theorem State.withQueue_ports (s : State) (x : PathQueue) : (s.withQueue x).ports = s.ports := rfl
@[simp] theorem State.withQueue_alerts (s : State) (x : PathQueue) : (s.withQueue x).alerts = s.alerts := rfl
@[simp] theorem State.withQueue_free (s : State) (x : PathQueue) : (s.withQueue x).free = s.free := rfl
@[simp] theorem State.withQueue_pending (s : State) (x : PathQueue) : (s.withQueue x).pending = s.pending := rfl

/-! `State.withTracker` -/

@[simp] theorem State.withTracker_time (s : State) (x : MarkTracker) : (s.withTracker x).time = s.time := rfl
@[simp] theorem State.withTracker_inputs (s : State) (x : MarkTracker) : (s.withTracker x).inputs = s.inputs := rfl
@[simp] theorem State.withTracker_geometry (s : State) (x : MarkTracker) : (s.withTracker x).geometry = s.geometry := rfl
@[simp] theorem State.withTracker_length (s : State) (x : MarkTracker) : (s.withTracker x).length = s.length := rfl
@[simp] theorem State.withTracker_strobe (s : State) (x : MarkTracker) : (s.withTracker x).strobe = s.strobe := rfl
@[simp] theorem State.withTracker_motion (s : State) (x : MarkTracker) : (s.withTracker x).motion = s.motion := rfl
@[simp] theorem State.withTracker_plans (s : State) (x : MarkTracker) : (s.withTracker x).plans = s.plans := rfl
@[simp] theorem State.withTracker_queue (s : State) (x : MarkTracker) : (s.withTracker x).queue = s.queue := rfl
@[simp] theorem State.withTracker_roll (s : State) (x : MarkTracker) : (s.withTracker x).roll = s.roll := rfl
@[simp] theorem State.withTracker_tracker (s : State) (x : MarkTracker) : (s.withTracker x).tracker = x := rfl
@[simp] theorem State.withTracker_stops (s : State) (x : MarkTracker) : (s.withTracker x).stops = s.stops := rfl
@[simp] theorem State.withTracker_job (s : State) (x : MarkTracker) : (s.withTracker x).job = s.job := rfl
@[simp] theorem State.withTracker_ports (s : State) (x : MarkTracker) : (s.withTracker x).ports = s.ports := rfl
@[simp] theorem State.withTracker_alerts (s : State) (x : MarkTracker) : (s.withTracker x).alerts = s.alerts := rfl
@[simp] theorem State.withTracker_free (s : State) (x : MarkTracker) : (s.withTracker x).free = s.free := rfl
@[simp] theorem State.withTracker_pending (s : State) (x : MarkTracker) : (s.withTracker x).pending = s.pending := rfl

/-! `State.withLength` -/

@[simp] theorem State.withLength_time (s : State) (x : LengthCounter) : (s.withLength x).time = s.time := rfl
@[simp] theorem State.withLength_inputs (s : State) (x : LengthCounter) : (s.withLength x).inputs = s.inputs := rfl
@[simp] theorem State.withLength_geometry (s : State) (x : LengthCounter) : (s.withLength x).geometry = s.geometry := rfl
@[simp] theorem State.withLength_length (s : State) (x : LengthCounter) : (s.withLength x).length = x := rfl
@[simp] theorem State.withLength_strobe (s : State) (x : LengthCounter) : (s.withLength x).strobe = s.strobe := rfl
@[simp] theorem State.withLength_motion (s : State) (x : LengthCounter) : (s.withLength x).motion = s.motion := rfl
@[simp] theorem State.withLength_plans (s : State) (x : LengthCounter) : (s.withLength x).plans = s.plans := rfl
@[simp] theorem State.withLength_queue (s : State) (x : LengthCounter) : (s.withLength x).queue = s.queue := rfl
@[simp] theorem State.withLength_roll (s : State) (x : LengthCounter) : (s.withLength x).roll = s.roll := rfl
@[simp] theorem State.withLength_tracker (s : State) (x : LengthCounter) : (s.withLength x).tracker = s.tracker := rfl
@[simp] theorem State.withLength_stops (s : State) (x : LengthCounter) : (s.withLength x).stops = s.stops := rfl
@[simp] theorem State.withLength_job (s : State) (x : LengthCounter) : (s.withLength x).job = s.job := rfl
@[simp] theorem State.withLength_ports (s : State) (x : LengthCounter) : (s.withLength x).ports = s.ports := rfl
@[simp] theorem State.withLength_alerts (s : State) (x : LengthCounter) : (s.withLength x).alerts = s.alerts := rfl
@[simp] theorem State.withLength_free (s : State) (x : LengthCounter) : (s.withLength x).free = s.free := rfl
@[simp] theorem State.withLength_pending (s : State) (x : LengthCounter) : (s.withLength x).pending = s.pending := rfl

/-! `State.withInputs` -/

@[simp] theorem State.withInputs_time (s : State) (x : Inputs) : (s.withInputs x).time = s.time := rfl
@[simp] theorem State.withInputs_inputs (s : State) (x : Inputs) : (s.withInputs x).inputs = x := rfl
@[simp] theorem State.withInputs_geometry (s : State) (x : Inputs) : (s.withInputs x).geometry = s.geometry := rfl
@[simp] theorem State.withInputs_length (s : State) (x : Inputs) : (s.withInputs x).length = s.length := rfl
@[simp] theorem State.withInputs_strobe (s : State) (x : Inputs) : (s.withInputs x).strobe = s.strobe := rfl
@[simp] theorem State.withInputs_motion (s : State) (x : Inputs) : (s.withInputs x).motion = s.motion := rfl
@[simp] theorem State.withInputs_plans (s : State) (x : Inputs) : (s.withInputs x).plans = s.plans := rfl
@[simp] theorem State.withInputs_queue (s : State) (x : Inputs) : (s.withInputs x).queue = s.queue := rfl
@[simp] theorem State.withInputs_roll (s : State) (x : Inputs) : (s.withInputs x).roll = s.roll := rfl
@[simp] theorem State.withInputs_tracker (s : State) (x : Inputs) : (s.withInputs x).tracker = s.tracker := rfl
@[simp] theorem State.withInputs_stops (s : State) (x : Inputs) : (s.withInputs x).stops = s.stops := rfl
@[simp] theorem State.withInputs_job (s : State) (x : Inputs) : (s.withInputs x).job = s.job := rfl
@[simp] theorem State.withInputs_ports (s : State) (x : Inputs) : (s.withInputs x).ports = s.ports := rfl
@[simp] theorem State.withInputs_alerts (s : State) (x : Inputs) : (s.withInputs x).alerts = s.alerts := rfl
@[simp] theorem State.withInputs_free (s : State) (x : Inputs) : (s.withInputs x).free = s.free := rfl
@[simp] theorem State.withInputs_pending (s : State) (x : Inputs) : (s.withInputs x).pending = s.pending := rfl

/-! `State.withStrobe` -/

@[simp] theorem State.withStrobe_time (s : State) (x : Strobe) : (s.withStrobe x).time = s.time := rfl
@[simp] theorem State.withStrobe_inputs (s : State) (x : Strobe) : (s.withStrobe x).inputs = s.inputs := rfl
@[simp] theorem State.withStrobe_geometry (s : State) (x : Strobe) : (s.withStrobe x).geometry = s.geometry := rfl
@[simp] theorem State.withStrobe_length (s : State) (x : Strobe) : (s.withStrobe x).length = s.length := rfl
@[simp] theorem State.withStrobe_strobe (s : State) (x : Strobe) : (s.withStrobe x).strobe = x := rfl
@[simp] theorem State.withStrobe_motion (s : State) (x : Strobe) : (s.withStrobe x).motion = s.motion := rfl
@[simp] theorem State.withStrobe_plans (s : State) (x : Strobe) : (s.withStrobe x).plans = s.plans := rfl
@[simp] theorem State.withStrobe_queue (s : State) (x : Strobe) : (s.withStrobe x).queue = s.queue := rfl
@[simp] theorem State.withStrobe_roll (s : State) (x : Strobe) : (s.withStrobe x).roll = s.roll := rfl
@[simp] theorem State.withStrobe_tracker (s : State) (x : Strobe) : (s.withStrobe x).tracker = s.tracker := rfl
@[simp] theorem State.withStrobe_stops (s : State) (x : Strobe) : (s.withStrobe x).stops = s.stops := rfl
@[simp] theorem State.withStrobe_job (s : State) (x : Strobe) : (s.withStrobe x).job = s.job := rfl
@[simp] theorem State.withStrobe_ports (s : State) (x : Strobe) : (s.withStrobe x).ports = s.ports := rfl
@[simp] theorem State.withStrobe_alerts (s : State) (x : Strobe) : (s.withStrobe x).alerts = s.alerts := rfl
@[simp] theorem State.withStrobe_free (s : State) (x : Strobe) : (s.withStrobe x).free = s.free := rfl
@[simp] theorem State.withStrobe_pending (s : State) (x : Strobe) : (s.withStrobe x).pending = s.pending := rfl

/-! `State.withMotion` -/

@[simp] theorem State.withMotion_time (s : State) (x : Motion) : (s.withMotion x).time = s.time := rfl
@[simp] theorem State.withMotion_inputs (s : State) (x : Motion) : (s.withMotion x).inputs = s.inputs := rfl
@[simp] theorem State.withMotion_geometry (s : State) (x : Motion) : (s.withMotion x).geometry = s.geometry := rfl
@[simp] theorem State.withMotion_length (s : State) (x : Motion) : (s.withMotion x).length = s.length := rfl
@[simp] theorem State.withMotion_strobe (s : State) (x : Motion) : (s.withMotion x).strobe = s.strobe := rfl
@[simp] theorem State.withMotion_motion (s : State) (x : Motion) : (s.withMotion x).motion = x := rfl
@[simp] theorem State.withMotion_plans (s : State) (x : Motion) : (s.withMotion x).plans = s.plans := rfl
@[simp] theorem State.withMotion_queue (s : State) (x : Motion) : (s.withMotion x).queue = s.queue := rfl
@[simp] theorem State.withMotion_roll (s : State) (x : Motion) : (s.withMotion x).roll = s.roll := rfl
@[simp] theorem State.withMotion_tracker (s : State) (x : Motion) : (s.withMotion x).tracker = s.tracker := rfl
@[simp] theorem State.withMotion_stops (s : State) (x : Motion) : (s.withMotion x).stops = s.stops := rfl
@[simp] theorem State.withMotion_job (s : State) (x : Motion) : (s.withMotion x).job = s.job := rfl
@[simp] theorem State.withMotion_ports (s : State) (x : Motion) : (s.withMotion x).ports = s.ports := rfl
@[simp] theorem State.withMotion_alerts (s : State) (x : Motion) : (s.withMotion x).alerts = s.alerts := rfl
@[simp] theorem State.withMotion_free (s : State) (x : Motion) : (s.withMotion x).free = s.free := rfl
@[simp] theorem State.withMotion_pending (s : State) (x : Motion) : (s.withMotion x).pending = s.pending := rfl

/-! `State.withTime` -/

@[simp] theorem State.withTime_time (s : State) (x : TimeBase) : (s.withTime x).time = x := rfl
@[simp] theorem State.withTime_inputs (s : State) (x : TimeBase) : (s.withTime x).inputs = s.inputs := rfl
@[simp] theorem State.withTime_geometry (s : State) (x : TimeBase) : (s.withTime x).geometry = s.geometry := rfl
@[simp] theorem State.withTime_length (s : State) (x : TimeBase) : (s.withTime x).length = s.length := rfl
@[simp] theorem State.withTime_strobe (s : State) (x : TimeBase) : (s.withTime x).strobe = s.strobe := rfl
@[simp] theorem State.withTime_motion (s : State) (x : TimeBase) : (s.withTime x).motion = s.motion := rfl
@[simp] theorem State.withTime_plans (s : State) (x : TimeBase) : (s.withTime x).plans = s.plans := rfl
@[simp] theorem State.withTime_queue (s : State) (x : TimeBase) : (s.withTime x).queue = s.queue := rfl
@[simp] theorem State.withTime_roll (s : State) (x : TimeBase) : (s.withTime x).roll = s.roll := rfl
@[simp] theorem State.withTime_tracker (s : State) (x : TimeBase) : (s.withTime x).tracker = s.tracker := rfl
@[simp] theorem State.withTime_stops (s : State) (x : TimeBase) : (s.withTime x).stops = s.stops := rfl
@[simp] theorem State.withTime_job (s : State) (x : TimeBase) : (s.withTime x).job = s.job := rfl
@[simp] theorem State.withTime_ports (s : State) (x : TimeBase) : (s.withTime x).ports = s.ports := rfl
@[simp] theorem State.withTime_alerts (s : State) (x : TimeBase) : (s.withTime x).alerts = s.alerts := rfl
@[simp] theorem State.withTime_free (s : State) (x : TimeBase) : (s.withTime x).free = s.free := rfl
@[simp] theorem State.withTime_pending (s : State) (x : TimeBase) : (s.withTime x).pending = s.pending := rfl

/-! `State.withJob` -/

@[simp] theorem State.withJob_time (s : State) (x : JobController) : (s.withJob x).time = s.time := rfl
@[simp] theorem State.withJob_inputs (s : State) (x : JobController) : (s.withJob x).inputs = s.inputs := rfl
@[simp] theorem State.withJob_geometry (s : State) (x : JobController) : (s.withJob x).geometry = s.geometry := rfl
@[simp] theorem State.withJob_length (s : State) (x : JobController) : (s.withJob x).length = s.length := rfl
@[simp] theorem State.withJob_strobe (s : State) (x : JobController) : (s.withJob x).strobe = s.strobe := rfl
@[simp] theorem State.withJob_motion (s : State) (x : JobController) : (s.withJob x).motion = s.motion := rfl
@[simp] theorem State.withJob_plans (s : State) (x : JobController) : (s.withJob x).plans = s.plans := rfl
@[simp] theorem State.withJob_queue (s : State) (x : JobController) : (s.withJob x).queue = s.queue := rfl
@[simp] theorem State.withJob_roll (s : State) (x : JobController) : (s.withJob x).roll = s.roll := rfl
@[simp] theorem State.withJob_tracker (s : State) (x : JobController) : (s.withJob x).tracker = s.tracker := rfl
@[simp] theorem State.withJob_stops (s : State) (x : JobController) : (s.withJob x).stops = s.stops := rfl
@[simp] theorem State.withJob_job (s : State) (x : JobController) : (s.withJob x).job = x := rfl
@[simp] theorem State.withJob_ports (s : State) (x : JobController) : (s.withJob x).ports = s.ports := rfl
@[simp] theorem State.withJob_alerts (s : State) (x : JobController) : (s.withJob x).alerts = s.alerts := rfl
@[simp] theorem State.withJob_free (s : State) (x : JobController) : (s.withJob x).free = s.free := rfl
@[simp] theorem State.withJob_pending (s : State) (x : JobController) : (s.withJob x).pending = s.pending := rfl

/-! `State.toJobState` -/

@[simp] theorem State.toJobState_time (s : State) (x : JobState) : (s.toJobState x).time = s.time := rfl
@[simp] theorem State.toJobState_inputs (s : State) (x : JobState) : (s.toJobState x).inputs = s.inputs := rfl
@[simp] theorem State.toJobState_geometry (s : State) (x : JobState) : (s.toJobState x).geometry = s.geometry := rfl
@[simp] theorem State.toJobState_length (s : State) (x : JobState) : (s.toJobState x).length = s.length := rfl
@[simp] theorem State.toJobState_strobe (s : State) (x : JobState) : (s.toJobState x).strobe = s.strobe := rfl
@[simp] theorem State.toJobState_motion (s : State) (x : JobState) : (s.toJobState x).motion = s.motion := rfl
@[simp] theorem State.toJobState_plans (s : State) (x : JobState) : (s.toJobState x).plans = s.plans := rfl
@[simp] theorem State.toJobState_queue (s : State) (x : JobState) : (s.toJobState x).queue = s.queue := rfl
@[simp] theorem State.toJobState_roll (s : State) (x : JobState) : (s.toJobState x).roll = s.roll := rfl
@[simp] theorem State.toJobState_tracker (s : State) (x : JobState) : (s.toJobState x).tracker = s.tracker := rfl
@[simp] theorem State.toJobState_stops (s : State) (x : JobState) : (s.toJobState x).stops = s.stops := rfl
@[simp] theorem State.toJobState_job (s : State) (x : JobState) : (s.toJobState x).job = { s.job with state := x } := rfl
@[simp] theorem State.toJobState_ports (s : State) (x : JobState) : (s.toJobState x).ports = s.ports := rfl
@[simp] theorem State.toJobState_alerts (s : State) (x : JobState) : (s.toJobState x).alerts = s.alerts := rfl
@[simp] theorem State.toJobState_free (s : State) (x : JobState) : (s.toJobState x).free = s.free := rfl
@[simp] theorem State.toJobState_pending (s : State) (x : JobState) : (s.toJobState x).pending = s.pending := rfl

/-! `State.withPort` -/

@[simp] theorem State.withPort_time (s : State) (p : Port) (r : PortRegs) : (s.withPort p r).time = s.time := rfl
@[simp] theorem State.withPort_inputs (s : State) (p : Port) (r : PortRegs) : (s.withPort p r).inputs = s.inputs := rfl
@[simp] theorem State.withPort_geometry (s : State) (p : Port) (r : PortRegs) : (s.withPort p r).geometry = s.geometry := rfl
@[simp] theorem State.withPort_length (s : State) (p : Port) (r : PortRegs) : (s.withPort p r).length = s.length := rfl
@[simp] theorem State.withPort_strobe (s : State) (p : Port) (r : PortRegs) : (s.withPort p r).strobe = s.strobe := rfl
@[simp] theorem State.withPort_motion (s : State) (p : Port) (r : PortRegs) : (s.withPort p r).motion = s.motion := rfl
@[simp] theorem State.withPort_plans (s : State) (p : Port) (r : PortRegs) : (s.withPort p r).plans = s.plans := rfl
@[simp] theorem State.withPort_queue (s : State) (p : Port) (r : PortRegs) : (s.withPort p r).queue = s.queue := rfl
@[simp] theorem State.withPort_roll (s : State) (p : Port) (r : PortRegs) : (s.withPort p r).roll = s.roll := rfl
@[simp] theorem State.withPort_tracker (s : State) (p : Port) (r : PortRegs) : (s.withPort p r).tracker = s.tracker := rfl
@[simp] theorem State.withPort_stops (s : State) (p : Port) (r : PortRegs) : (s.withPort p r).stops = s.stops := rfl
@[simp] theorem State.withPort_job (s : State) (p : Port) (r : PortRegs) : (s.withPort p r).job = s.job := rfl
@[simp] theorem State.withPort_ports (s : State) (p : Port) (r : PortRegs) : (s.withPort p r).ports = s.ports.set p r := rfl
@[simp] theorem State.withPort_alerts (s : State) (p : Port) (r : PortRegs) : (s.withPort p r).alerts = s.alerts := rfl
@[simp] theorem State.withPort_free (s : State) (p : Port) (r : PortRegs) : (s.withPort p r).free = s.free := rfl
@[simp] theorem State.withPort_pending (s : State) (p : Port) (r : PortRegs) : (s.withPort p r).pending = s.pending := rfl

/-! `State.post` -/

@[simp] theorem State.post_time (k : EventKind) (s : State) : (s.post k).time = s.time := rfl
@[simp] theorem State.post_inputs (k : EventKind) (s : State) : (s.post k).inputs = s.inputs := rfl
@[simp] theorem State.post_geometry (k : EventKind) (s : State) : (s.post k).geometry = s.geometry := rfl
@[simp] theorem State.post_length (k : EventKind) (s : State) : (s.post k).length = s.length := rfl
@[simp] theorem State.post_strobe (k : EventKind) (s : State) : (s.post k).strobe = s.strobe := rfl
@[simp] theorem State.post_motion (k : EventKind) (s : State) : (s.post k).motion = s.motion := rfl
@[simp] theorem State.post_plans (k : EventKind) (s : State) : (s.post k).plans = s.plans := rfl
@[simp] theorem State.post_queue (k : EventKind) (s : State) : (s.post k).queue = s.queue := rfl
@[simp] theorem State.post_roll (k : EventKind) (s : State) : (s.post k).roll = s.roll := rfl
@[simp] theorem State.post_tracker (k : EventKind) (s : State) : (s.post k).tracker = s.tracker := rfl
@[simp] theorem State.post_stops (k : EventKind) (s : State) : (s.post k).stops = s.stops := rfl
@[simp] theorem State.post_job (k : EventKind) (s : State) : (s.post k).job = s.job := rfl
@[simp] theorem State.post_ports (k : EventKind) (s : State) : (s.post k).ports = s.ports := rfl
@[simp] theorem State.post_alerts (k : EventKind) (s : State) : (s.post k).alerts = s.alerts.map (Station.post k) := rfl
@[simp] theorem State.post_free (k : EventKind) (s : State) : (s.post k).free = s.free := rfl
@[simp] theorem State.post_pending (k : EventKind) (s : State) : (s.post k).pending = s.pending := rfl

/-! `State.mapWinding` -/

@[simp] theorem State.mapWinding_time (f : SetRecord → SetRecord) (s : State) : (s.mapWinding f).time = s.time := rfl
@[simp] theorem State.mapWinding_inputs (f : SetRecord → SetRecord) (s : State) : (s.mapWinding f).inputs = s.inputs := rfl
@[simp] theorem State.mapWinding_geometry (f : SetRecord → SetRecord) (s : State) : (s.mapWinding f).geometry = s.geometry := rfl
@[simp] theorem State.mapWinding_length (f : SetRecord → SetRecord) (s : State) : (s.mapWinding f).length = s.length := rfl
@[simp] theorem State.mapWinding_strobe (f : SetRecord → SetRecord) (s : State) : (s.mapWinding f).strobe = s.strobe := rfl
@[simp] theorem State.mapWinding_motion (f : SetRecord → SetRecord) (s : State) : (s.mapWinding f).motion = s.motion := rfl
@[simp] theorem State.mapWinding_plans (f : SetRecord → SetRecord) (s : State) : (s.mapWinding f).plans = s.plans := rfl
@[simp] theorem State.mapWinding_queue (f : SetRecord → SetRecord) (s : State) : (s.mapWinding f).queue = s.queue := rfl
@[simp] theorem State.mapWinding_roll (f : SetRecord → SetRecord) (s : State) : (s.mapWinding f).roll = s.roll.mapWinding f := rfl
@[simp] theorem State.mapWinding_tracker (f : SetRecord → SetRecord) (s : State) : (s.mapWinding f).tracker = s.tracker := rfl
@[simp] theorem State.mapWinding_stops (f : SetRecord → SetRecord) (s : State) : (s.mapWinding f).stops = s.stops := rfl
@[simp] theorem State.mapWinding_job (f : SetRecord → SetRecord) (s : State) : (s.mapWinding f).job = s.job := rfl
@[simp] theorem State.mapWinding_ports (f : SetRecord → SetRecord) (s : State) : (s.mapWinding f).ports = s.ports := rfl
@[simp] theorem State.mapWinding_alerts (f : SetRecord → SetRecord) (s : State) : (s.mapWinding f).alerts = s.alerts := rfl
@[simp] theorem State.mapWinding_free (f : SetRecord → SetRecord) (s : State) : (s.mapWinding f).free = s.free := rfl
@[simp] theorem State.mapWinding_pending (f : SetRecord → SetRecord) (s : State) : (s.mapWinding f).pending = s.pending := rfl

/-! `State.countFlow` -/

@[simp] theorem State.countFlow_time (f : Flow → Flow) (s : State) : (s.countFlow f).time = s.time := rfl
@[simp] theorem State.countFlow_inputs (f : Flow → Flow) (s : State) : (s.countFlow f).inputs = s.inputs := rfl
@[simp] theorem State.countFlow_geometry (f : Flow → Flow) (s : State) : (s.countFlow f).geometry = s.geometry := rfl
@[simp] theorem State.countFlow_length (f : Flow → Flow) (s : State) : (s.countFlow f).length = s.length := rfl
@[simp] theorem State.countFlow_strobe (f : Flow → Flow) (s : State) : (s.countFlow f).strobe = s.strobe := rfl
@[simp] theorem State.countFlow_motion (f : Flow → Flow) (s : State) : (s.countFlow f).motion = s.motion := rfl
@[simp] theorem State.countFlow_plans (f : Flow → Flow) (s : State) : (s.countFlow f).plans = s.plans := rfl
@[simp] theorem State.countFlow_queue (f : Flow → Flow) (s : State) : (s.countFlow f).queue = { s.queue with flow := f s.queue.flow } := rfl
@[simp] theorem State.countFlow_roll (f : Flow → Flow) (s : State) : (s.countFlow f).roll = s.roll := rfl
@[simp] theorem State.countFlow_tracker (f : Flow → Flow) (s : State) : (s.countFlow f).tracker = s.tracker := rfl
@[simp] theorem State.countFlow_stops (f : Flow → Flow) (s : State) : (s.countFlow f).stops = s.stops := rfl
@[simp] theorem State.countFlow_job (f : Flow → Flow) (s : State) : (s.countFlow f).job = s.job := rfl
@[simp] theorem State.countFlow_ports (f : Flow → Flow) (s : State) : (s.countFlow f).ports = s.ports := rfl
@[simp] theorem State.countFlow_alerts (f : Flow → Flow) (s : State) : (s.countFlow f).alerts = s.alerts := rfl
@[simp] theorem State.countFlow_free (f : Flow → Flow) (s : State) : (s.countFlow f).free = s.free := rfl
@[simp] theorem State.countFlow_pending (f : Flow → Flow) (s : State) : (s.countFlow f).pending = s.pending := rfl

/-! `StopPlanner.changed` -/

@[simp] theorem StopPlanner.changed_entries (pl : StopPlanner) (k : Nat) : (pl.changed k).entries = pl.entries := rfl
@[simp] theorem StopPlanner.changed_nextId (pl : StopPlanner) (k : Nat) : (pl.changed k).nextId = pl.nextId := rfl
@[simp] theorem StopPlanner.changed_insertions (pl : StopPlanner) (k : Nat) : (pl.changed k).insertions = pl.insertions := rfl
@[simp] theorem StopPlanner.changed_lastStop (pl : StopPlanner) (k : Nat) : (pl.changed k).lastStop = pl.lastStop := rfl
@[simp] theorem StopPlanner.changed_changes (pl : StopPlanner) (k : Nat) : (pl.changed k).changes = wrap16 pl.changes k := rfl

/-! `PathQueue.changed` -/

@[simp] theorem PathQueue.changed_records (q : PathQueue) (k : Nat) : (q.changed k).records = q.records := rfl
@[simp] theorem PathQueue.changed_nextNumber (q : PathQueue) (k : Nat) : (q.changed k).nextNumber = q.nextNumber := rfl
@[simp] theorem PathQueue.changed_nextJoin (q : PathQueue) (k : Nat) : (q.changed k).nextJoin = q.nextJoin := rfl
@[simp] theorem PathQueue.changed_highMark (q : PathQueue) (k : Nat) : (q.changed k).highMark = q.highMark := rfl
@[simp] theorem PathQueue.changed_flow (q : PathQueue) (k : Nat) : (q.changed k).flow = q.flow := rfl
@[simp] theorem PathQueue.changed_changes (q : PathQueue) (k : Nat) : (q.changed k).changes = wrap16 q.changes k := rfl

/-! `PathQueue.leave` -/

@[simp] theorem PathQueue.leave_records (q : PathQueue) (r : PathRecord) : (q.leave r).records = q.records.filter (fun x => decide (x.joined ≠ r.joined)) := rfl
@[simp] theorem PathQueue.leave_nextNumber (q : PathQueue) (r : PathRecord) : (q.leave r).nextNumber = q.nextNumber := rfl
@[simp] theorem PathQueue.leave_nextJoin (q : PathQueue) (r : PathRecord) : (q.leave r).nextJoin = q.nextJoin := rfl
@[simp] theorem PathQueue.leave_highMark (q : PathQueue) (r : PathRecord) : (q.leave r).highMark = q.highMark := rfl
@[simp] theorem PathQueue.leave_flow (q : PathQueue) (r : PathRecord) : (q.leave r).flow = q.flow := rfl
@[simp] theorem PathQueue.leave_changes (q : PathQueue) (r : PathRecord) : (q.leave r).changes = wrap16 q.changes 1 := rfl

/-! `PathQueue.join` -/

@[simp] theorem PathQueue.join_records (q : PathQueue) (b : RecordBody) (l : Option LaneRange) : (q.join b l).records = placeRecord { body := b, slit := l, stopId := none, joined := q.nextJoin } q.records := rfl
@[simp] theorem PathQueue.join_nextNumber (q : PathQueue) (b : RecordBody) (l : Option LaneRange) : (q.join b l).nextNumber = q.nextNumber := rfl
@[simp] theorem PathQueue.join_nextJoin (q : PathQueue) (b : RecordBody) (l : Option LaneRange) : (q.join b l).nextJoin = q.nextJoin + 1 := rfl
@[simp] theorem PathQueue.join_highMark (q : PathQueue) (b : RecordBody) (l : Option LaneRange) : (q.join b l).highMark = q.highMark := rfl
@[simp] theorem PathQueue.join_flow (q : PathQueue) (b : RecordBody) (l : Option LaneRange) : (q.join b l).flow = q.flow := rfl
@[simp] theorem PathQueue.join_changes (q : PathQueue) (b : RecordBody) (l : Option LaneRange) : (q.join b l).changes = wrap16 q.changes 1 := rfl

/-! `PathQueue.endJob` -/

@[simp] theorem PathQueue.endJob_records (q : PathQueue) : (q.endJob).records = [] := rfl
@[simp] theorem PathQueue.endJob_nextNumber (q : PathQueue) : (q.endJob).nextNumber = q.nextNumber := rfl
@[simp] theorem PathQueue.endJob_nextJoin (q : PathQueue) : (q.endJob).nextJoin = q.nextJoin := rfl
@[simp] theorem PathQueue.endJob_highMark (q : PathQueue) : (q.endJob).highMark = q.highMark := rfl
@[simp] theorem PathQueue.endJob_flow (q : PathQueue) : (q.endJob).flow = q.flow.addUnmapped q.records.length := rfl
@[simp] theorem PathQueue.endJob_changes (q : PathQueue) : (q.endJob).changes = wrap16 q.changes q.records.length := rfl

/-! `PathQueue.startJob` -/

@[simp] theorem PathQueue.startJob_records (q : PathQueue) : (q.startJob).records = q.records := rfl
@[simp] theorem PathQueue.startJob_nextNumber (q : PathQueue) : (q.startJob).nextNumber = q.nextNumber := rfl
@[simp] theorem PathQueue.startJob_nextJoin (q : PathQueue) : (q.startJob).nextJoin = q.nextJoin := rfl
@[simp] theorem PathQueue.startJob_highMark (q : PathQueue) : (q.startJob).highMark = none := rfl
@[simp] theorem PathQueue.startJob_flow (q : PathQueue) : (q.startJob).flow = .zero := rfl
@[simp] theorem PathQueue.startJob_changes (q : PathQueue) : (q.startJob).changes = q.changes := rfl

/-! `RollMap.setSlot` -/

@[simp] theorem RollMap.setSlot_closeList (m : RollMap) (n : Nat) (x : Slot) : (m.setSlot n x).closeList = m.closeList := rfl
@[simp] theorem RollMap.setSlot_register (m : RollMap) (n : Nat) (x : Slot) : (m.setSlot n x).register = m.register := rfl
@[simp] theorem RollMap.setSlot_mapsLost (m : RollMap) (n : Nat) (x : Slot) : (m.setSlot n x).mapsLost = m.mapsLost := rfl

/-! `RollMap.mapWinding` -/

@[simp] theorem RollMap.mapWinding_closeList (f : SetRecord → SetRecord) (m : RollMap) : (m.mapWinding f).closeList = m.closeList := rfl
@[simp] theorem RollMap.mapWinding_register (f : SetRecord → SetRecord) (m : RollMap) : (m.mapWinding f).register = m.register := rfl
@[simp] theorem RollMap.mapWinding_mapsLost (f : SetRecord → SetRecord) (m : RollMap) : (m.mapWinding f).mapsLost = m.mapsLost := rfl

/-! `PortRegs.answer` -/

@[simp] theorem PortRegs.answer_state (r : PortRegs) (f : List Byte) : (r.answer f).state = .reply := rfl
@[simp] theorem PortRegs.answer_received (r : PortRegs) (f : List Byte) : (r.answer f).received = [] := rfl
@[simp] theorem PortRegs.answer_request (r : PortRegs) (f : List Byte) : (r.answer f).request = none := rfl
@[simp] theorem PortRegs.answer_reply (r : PortRegs) (f : List Byte) : (r.answer f).reply = f := rfl
@[simp] theorem PortRegs.answer_discarded (r : PortRegs) (f : List Byte) : (r.answer f).discarded = r.discarded := rfl
@[simp] theorem PortRegs.answer_sdo (r : PortRegs) (f : List Byte) : (r.answer f).sdo = r.sdo := rfl
@[simp] theorem PortRegs.answer_noted (r : PortRegs) (f : List Byte) : (r.answer f).noted = r.noted := rfl

/-! `PortRegs.release` -/

@[simp] theorem PortRegs.release_state (r : PortRegs) : r.release.state = r.state := rfl
@[simp] theorem PortRegs.release_noted (r : PortRegs) : r.release.noted = r.state := rfl
@[simp] theorem PortRegs.release_received (r : PortRegs) : r.release.received = r.received := rfl
@[simp] theorem PortRegs.release_request (r : PortRegs) : r.release.request = r.request := rfl
@[simp] theorem PortRegs.release_reply (r : PortRegs) : r.release.reply = r.reply := rfl
@[simp] theorem PortRegs.release_discarded (r : PortRegs) : r.release.discarded = r.discarded := rfl
@[simp] theorem PortRegs.release_sdo (r : PortRegs) : r.release.sdo = r.sdo := rfl
@[simp] theorem PortRegs.atSelect_false (r : PortRegs) : r.atSelect false = r.state := rfl
@[simp] theorem PortRegs.atSelect_true (r : PortRegs) : r.atSelect true = r.noted := rfl

/-! `Station.decideLine` -/

@[simp] theorem Station.decideLine_master (st : Station) : (st.decideLine).master = st.master := rfl
@[simp] theorem Station.decideLine_enabled (st : Station) : (st.decideLine).enabled = st.enabled := rfl
@[simp] theorem Station.decideLine_pending (st : Station) : (st.decideLine).pending = st.pending := rfl
@[simp] theorem Station.decideLine_line (st : Station) : (st.decideLine).line = st.lineOf := rfl

/-! `Station.post` -/

@[simp] theorem Station.post_master (k : EventKind) (st : Station) : (st.post k).master = st.master := rfl
@[simp] theorem Station.post_enabled (k : EventKind) (st : Station) : (st.post k).enabled = st.enabled := rfl
@[simp] theorem Station.post_pending (k : EventKind) (st : Station) : (st.post k).pending = bumpPending k st.pending := rfl

/-! `Flow.addTaken` -/

@[simp] theorem Flow.addTaken_taken (n : Nat) (f : Flow) : (f.addTaken n).taken = wrap32 f.taken n := rfl
@[simp] theorem Flow.addTaken_returned (n : Nat) (f : Flow) : (f.addTaken n).returned = f.returned := rfl
@[simp] theorem Flow.addTaken_delivered (n : Nat) (f : Flow) : (f.addTaken n).delivered = f.delivered := rfl
@[simp] theorem Flow.addTaken_trimmed (n : Nat) (f : Flow) : (f.addTaken n).trimmed = f.trimmed := rfl
@[simp] theorem Flow.addTaken_removed (n : Nat) (f : Flow) : (f.addTaken n).removed = f.removed := rfl
@[simp] theorem Flow.addTaken_unmapped (n : Nat) (f : Flow) : (f.addTaken n).unmapped = f.unmapped := rfl

/-! `Flow.addReturned` -/

@[simp] theorem Flow.addReturned_taken (n : Nat) (f : Flow) : (f.addReturned n).taken = f.taken := rfl
@[simp] theorem Flow.addReturned_returned (n : Nat) (f : Flow) : (f.addReturned n).returned = wrap32 f.returned n := rfl
@[simp] theorem Flow.addReturned_delivered (n : Nat) (f : Flow) : (f.addReturned n).delivered = f.delivered := rfl
@[simp] theorem Flow.addReturned_trimmed (n : Nat) (f : Flow) : (f.addReturned n).trimmed = f.trimmed := rfl
@[simp] theorem Flow.addReturned_removed (n : Nat) (f : Flow) : (f.addReturned n).removed = f.removed := rfl
@[simp] theorem Flow.addReturned_unmapped (n : Nat) (f : Flow) : (f.addReturned n).unmapped = f.unmapped := rfl

/-! `Flow.addDelivered` -/

@[simp] theorem Flow.addDelivered_taken (n : Nat) (f : Flow) : (f.addDelivered n).taken = f.taken := rfl
@[simp] theorem Flow.addDelivered_returned (n : Nat) (f : Flow) : (f.addDelivered n).returned = f.returned := rfl
@[simp] theorem Flow.addDelivered_delivered (n : Nat) (f : Flow) : (f.addDelivered n).delivered = wrap32 f.delivered n := rfl
@[simp] theorem Flow.addDelivered_trimmed (n : Nat) (f : Flow) : (f.addDelivered n).trimmed = f.trimmed := rfl
@[simp] theorem Flow.addDelivered_removed (n : Nat) (f : Flow) : (f.addDelivered n).removed = f.removed := rfl
@[simp] theorem Flow.addDelivered_unmapped (n : Nat) (f : Flow) : (f.addDelivered n).unmapped = f.unmapped := rfl

/-! `Flow.addTrimmed` -/

@[simp] theorem Flow.addTrimmed_taken (n : Nat) (f : Flow) : (f.addTrimmed n).taken = f.taken := rfl
@[simp] theorem Flow.addTrimmed_returned (n : Nat) (f : Flow) : (f.addTrimmed n).returned = f.returned := rfl
@[simp] theorem Flow.addTrimmed_delivered (n : Nat) (f : Flow) : (f.addTrimmed n).delivered = f.delivered := rfl
@[simp] theorem Flow.addTrimmed_trimmed (n : Nat) (f : Flow) : (f.addTrimmed n).trimmed = wrap32 f.trimmed n := rfl
@[simp] theorem Flow.addTrimmed_removed (n : Nat) (f : Flow) : (f.addTrimmed n).removed = f.removed := rfl
@[simp] theorem Flow.addTrimmed_unmapped (n : Nat) (f : Flow) : (f.addTrimmed n).unmapped = f.unmapped := rfl

/-! `Flow.addRemoved` -/

@[simp] theorem Flow.addRemoved_taken (n : Nat) (f : Flow) : (f.addRemoved n).taken = f.taken := rfl
@[simp] theorem Flow.addRemoved_returned (n : Nat) (f : Flow) : (f.addRemoved n).returned = f.returned := rfl
@[simp] theorem Flow.addRemoved_delivered (n : Nat) (f : Flow) : (f.addRemoved n).delivered = f.delivered := rfl
@[simp] theorem Flow.addRemoved_trimmed (n : Nat) (f : Flow) : (f.addRemoved n).trimmed = f.trimmed := rfl
@[simp] theorem Flow.addRemoved_removed (n : Nat) (f : Flow) : (f.addRemoved n).removed = wrap32 f.removed n := rfl
@[simp] theorem Flow.addRemoved_unmapped (n : Nat) (f : Flow) : (f.addRemoved n).unmapped = f.unmapped := rfl

/-! `Flow.addUnmapped` -/

@[simp] theorem Flow.addUnmapped_taken (n : Nat) (f : Flow) : (f.addUnmapped n).taken = f.taken := rfl
@[simp] theorem Flow.addUnmapped_returned (n : Nat) (f : Flow) : (f.addUnmapped n).returned = f.returned := rfl
@[simp] theorem Flow.addUnmapped_delivered (n : Nat) (f : Flow) : (f.addUnmapped n).delivered = f.delivered := rfl
@[simp] theorem Flow.addUnmapped_trimmed (n : Nat) (f : Flow) : (f.addUnmapped n).trimmed = f.trimmed := rfl
@[simp] theorem Flow.addUnmapped_removed (n : Nat) (f : Flow) : (f.addUnmapped n).removed = f.removed := rfl
@[simp] theorem Flow.addUnmapped_unmapped (n : Nat) (f : Flow) : (f.addUnmapped n).unmapped = wrap32 f.unmapped n := rfl

/-! One item for each port, and one for each encoder -/

@[simp] theorem ByPort.get_set_self {α : Type} (b : ByPort α) (p : Port) (x : α) : (b.set p x).get p = x := by
  cases p <;> rfl

theorem ByPort.get_set_other {α : Type} (b : ByPort α) {p q : Port} (x : α) (h : q ≠ p) : (b.set p x).get q = b.get q := by
  cases p <;> cases q <;> first | rfl | exact absurd rfl h

@[simp] theorem ByPort.get_map {α β : Type} (f : α → β) (b : ByPort α) (p : Port) : (b.map f).get p = f (b.get p) := by
  cases p <;> rfl

@[simp] theorem ByPort.set_get_self {α : Type} (b : ByPort α) (p : Port) : b.set p (b.get p) = b := by
  cases p <;> rfl

@[simp] theorem ByPort.set_set {α : Type} (b : ByPort α) (p : Port) (x y : α) : (b.set p x).set p y = b.set p y := by
  cases p <;> rfl

theorem ByPort.ext_get {α : Type} {b c : ByPort α} (h : ∀ p, b.get p = c.get p) : b = c := by
  have hl := h .l
  have hi := h .i
  have ho := h .o
  cases b; cases c
  simp_all [ByPort.get]

@[simp] theorem State.port_withPort_self (s : State) (p : Port) (r : PortRegs) : (s.withPort p r).port p = r := by
  simp [State.port]

theorem State.port_withPort_other (s : State) {p q : Port} (r : PortRegs) (h : q ≠ p) :
    (s.withPort p r).port q = s.port q := by
  simp [State.port, ByPort.get_set_other _ _ h]

@[simp] theorem LengthCounter.measure_setMeasure_self (c : LengthCounter) (e : Encoder) (m : Measure) :
    (c.setMeasure e m).measure e = m := by cases e <;> rfl

@[simp] theorem LengthCounter.measure_setMeasure_other (c : LengthCounter) (e : Encoder) (m : Measure) :
    (c.setMeasure e m).measure (otherEncoder e) = c.measure (otherEncoder e) := by cases e <;> rfl

@[simp] theorem LengthCounter.measure_setOther (c : LengthCounter) (e : Encoder) (m : Measure) :
    (c.setMeasure (otherEncoder e) m).measure e = c.measure e := by cases e <;> rfl

@[simp] theorem LengthCounter.setMeasure_p (c : LengthCounter) (e : Encoder) (m : Measure) :
    (c.setMeasure e m).p = c.p := by cases e <;> rfl

@[simp] theorem LengthCounter.setMeasure_active (c : LengthCounter) (e : Encoder) (m : Measure) :
    (c.setMeasure e m).active = c.active := by cases e <;> rfl

@[simp] theorem Inputs.encoder_setEncoder_self (i : Inputs) (e : Encoder) (x : EncoderInput) :
    (i.setEncoder e x).encoder e = x := by cases e <;> rfl

@[simp] theorem Inputs.encoder_setEncoder_other (i : Inputs) (e : Encoder) (x : EncoderInput) :
    (i.setEncoder e x).encoder (otherEncoder e) = i.encoder (otherEncoder e) := by cases e <;> rfl

end Sys2Proof.Machine
end

