-- ==== Sys2Proof/Laws/Frames.lean ====
section
/-! SUPPORT. The frame of each shared operation: one simplification lemma that says which fields it leaves
as they were. -/

namespace Sys2Proof.Machine

@[simp] theorem State.postIf_frame (c : Bool) (k : EventKind) (s : State) :
    (s.postIf c k).time = s.time ∧ (s.postIf c k).inputs = s.inputs ∧ (s.postIf c k).geometry = s.geometry ∧
    (s.postIf c k).length = s.length ∧ (s.postIf c k).strobe = s.strobe ∧ (s.postIf c k).motion = s.motion ∧
    (s.postIf c k).plans = s.plans ∧ (s.postIf c k).queue = s.queue ∧ (s.postIf c k).roll = s.roll ∧
    (s.postIf c k).tracker = s.tracker ∧ (s.postIf c k).stops = s.stops ∧ (s.postIf c k).job = s.job ∧
    (s.postIf c k).ports = s.ports ∧ (s.postIf c k).free = s.free ∧ (s.postIf c k).pending = s.pending := by
  unfold State.postIf; split <;> simp

@[simp] theorem State.postAll_frame (ks : List EventKind) (s : State) :
    (s.postAll ks).time = s.time ∧ (s.postAll ks).inputs = s.inputs ∧ (s.postAll ks).geometry = s.geometry ∧
    (s.postAll ks).length = s.length ∧ (s.postAll ks).strobe = s.strobe ∧ (s.postAll ks).motion = s.motion ∧
    (s.postAll ks).plans = s.plans ∧ (s.postAll ks).queue = s.queue ∧ (s.postAll ks).roll = s.roll ∧
    (s.postAll ks).tracker = s.tracker ∧ (s.postAll ks).stops = s.stops ∧ (s.postAll ks).job = s.job ∧
    (s.postAll ks).ports = s.ports ∧ (s.postAll ks).free = s.free ∧ (s.postAll ks).pending = s.pending := by
  unfold State.postAll
  induction ks generalizing s with
  | nil => simp
  | cons k ks ih => simpa using ih (s.post k)

@[simp] theorem markIncomplete_frame (s : State) :
    (markIncomplete s).time = s.time ∧ (markIncomplete s).inputs = s.inputs ∧
    (markIncomplete s).geometry = s.geometry ∧ (markIncomplete s).length = s.length ∧
    (markIncomplete s).strobe = s.strobe ∧ (markIncomplete s).motion = s.motion ∧
    (markIncomplete s).plans = s.plans ∧ (markIncomplete s).queue = s.queue ∧
    (markIncomplete s).tracker = s.tracker ∧ (markIncomplete s).stops = s.stops ∧ (markIncomplete s).job = s.job ∧
    (markIncomplete s).ports = s.ports ∧ (markIncomplete s).alerts = s.alerts ∧ (markIncomplete s).free = s.free ∧
    (markIncomplete s).pending = s.pending := by
  unfold markIncomplete; simp

@[simp] theorem queueFull_frame (s : State) :
    (queueFull s).time = s.time ∧ (queueFull s).inputs = s.inputs ∧ (queueFull s).geometry = s.geometry ∧
    (queueFull s).length = s.length ∧ (queueFull s).strobe = s.strobe ∧ (queueFull s).motion = s.motion ∧
    (queueFull s).plans = s.plans ∧ (queueFull s).queue = s.queue ∧ (queueFull s).tracker = s.tracker ∧
    (queueFull s).stops = s.stops ∧ (queueFull s).job = s.job ∧ (queueFull s).ports = s.ports ∧
    (queueFull s).free = s.free ∧ (queueFull s).pending = s.pending := by
  unfold queueFull; simp

@[simp] theorem countRemoved_frame (s : State) :
    (countRemoved s).time = s.time ∧ (countRemoved s).inputs = s.inputs ∧ (countRemoved s).geometry = s.geometry ∧
    (countRemoved s).length = s.length ∧ (countRemoved s).strobe = s.strobe ∧ (countRemoved s).motion = s.motion ∧
    (countRemoved s).plans = s.plans ∧ (countRemoved s).queue = s.queue ∧ (countRemoved s).tracker = s.tracker ∧
    (countRemoved s).stops = s.stops ∧ (countRemoved s).job = s.job ∧ (countRemoved s).ports = s.ports ∧
    (countRemoved s).alerts = s.alerts ∧ (countRemoved s).free = s.free ∧ (countRemoved s).pending = s.pending := by
  unfold countRemoved; simp

@[simp] theorem windingTest_frame (s : State) :
    (windingTest s).time = s.time ∧ (windingTest s).inputs = s.inputs ∧ (windingTest s).geometry = s.geometry ∧
    (windingTest s).length = s.length ∧ (windingTest s).strobe = s.strobe ∧ (windingTest s).motion = s.motion ∧
    (windingTest s).plans = s.plans ∧ (windingTest s).queue = s.queue ∧ (windingTest s).tracker = s.tracker ∧
    (windingTest s).stops = s.stops ∧ (windingTest s).job = s.job ∧ (windingTest s).ports = s.ports ∧
    (windingTest s).alerts = s.alerts ∧ (windingTest s).free = s.free ∧ (windingTest s).pending = s.pending := by
  unfold windingTest; simp

@[simp] theorem countRepeat_frame (s : State) :
    (countRepeat s).time = s.time ∧ (countRepeat s).inputs = s.inputs ∧ (countRepeat s).geometry = s.geometry ∧
    (countRepeat s).length = s.length ∧ (countRepeat s).strobe = s.strobe ∧ (countRepeat s).motion = s.motion ∧
    (countRepeat s).plans = s.plans ∧ (countRepeat s).queue = s.queue ∧ (countRepeat s).tracker = s.tracker ∧
    (countRepeat s).stops = s.stops ∧ (countRepeat s).job = s.job ∧ (countRepeat s).ports = s.ports ∧
    (countRepeat s).alerts = s.alerts ∧ (countRepeat s).free = s.free ∧ (countRepeat s).pending = s.pending := by
  unfold countRepeat; simp

@[simp] theorem countMarkFault_frame (s : State) :
    (countMarkFault s).time = s.time ∧ (countMarkFault s).inputs = s.inputs ∧
    (countMarkFault s).geometry = s.geometry ∧ (countMarkFault s).length = s.length ∧
    (countMarkFault s).strobe = s.strobe ∧ (countMarkFault s).motion = s.motion ∧
    (countMarkFault s).plans = s.plans ∧ (countMarkFault s).queue = s.queue ∧
    (countMarkFault s).tracker = s.tracker ∧ (countMarkFault s).stops = s.stops ∧ (countMarkFault s).job = s.job ∧
    (countMarkFault s).ports = s.ports ∧ (countMarkFault s).alerts = s.alerts ∧ (countMarkFault s).free = s.free ∧
    (countMarkFault s).pending = s.pending := by
  unfold countMarkFault; simp

@[simp] theorem storeStopId_frame (n id : Nat) (s : State) :
    (storeStopId n id s).time = s.time ∧ (storeStopId n id s).inputs = s.inputs ∧
    (storeStopId n id s).geometry = s.geometry ∧ (storeStopId n id s).length = s.length ∧
    (storeStopId n id s).strobe = s.strobe ∧ (storeStopId n id s).motion = s.motion ∧
    (storeStopId n id s).plans = s.plans ∧ (storeStopId n id s).roll = s.roll ∧
    (storeStopId n id s).tracker = s.tracker ∧ (storeStopId n id s).stops = s.stops ∧
    (storeStopId n id s).job = s.job ∧ (storeStopId n id s).ports = s.ports ∧
    (storeStopId n id s).alerts = s.alerts ∧ (storeStopId n id s).free = s.free ∧
    (storeStopId n id s).pending = s.pending := by
  unfold storeStopId; split <;> simp

@[simp] theorem clearStopId_frame (n id : Nat) (s : State) :
    (clearStopId n id s).time = s.time ∧ (clearStopId n id s).inputs = s.inputs ∧
    (clearStopId n id s).geometry = s.geometry ∧ (clearStopId n id s).length = s.length ∧
    (clearStopId n id s).strobe = s.strobe ∧ (clearStopId n id s).motion = s.motion ∧
    (clearStopId n id s).plans = s.plans ∧ (clearStopId n id s).roll = s.roll ∧
    (clearStopId n id s).tracker = s.tracker ∧ (clearStopId n id s).stops = s.stops ∧
    (clearStopId n id s).job = s.job ∧ (clearStopId n id s).ports = s.ports ∧
    (clearStopId n id s).alerts = s.alerts ∧ (clearStopId n id s).free = s.free ∧
    (clearStopId n id s).pending = s.pending := by
  unfold clearStopId; split <;> simp

@[simp] theorem removeStop_frame (e : StopEntry) (s : State) :
    (removeStop e s).time = s.time ∧ (removeStop e s).inputs = s.inputs ∧ (removeStop e s).geometry = s.geometry ∧
    (removeStop e s).length = s.length ∧ (removeStop e s).strobe = s.strobe ∧ (removeStop e s).motion = s.motion ∧
    (removeStop e s).plans = s.plans ∧ (removeStop e s).roll = s.roll ∧ (removeStop e s).tracker = s.tracker ∧
    (removeStop e s).job = s.job ∧ (removeStop e s).ports = s.ports ∧ (removeStop e s).alerts = s.alerts ∧
    (removeStop e s).free = s.free ∧ (removeStop e s).pending = s.pending := by
  unfold removeStop; split <;> simp

@[simp] theorem activateStop_frame (e : StopEntry) (s : State) :
    (activateStop e s).time = s.time ∧ (activateStop e s).inputs = s.inputs ∧
    (activateStop e s).geometry = s.geometry ∧ (activateStop e s).length = s.length ∧
    (activateStop e s).strobe = s.strobe ∧ (activateStop e s).motion = s.motion ∧
    (activateStop e s).plans = s.plans ∧ (activateStop e s).queue = s.queue ∧ (activateStop e s).roll = s.roll ∧
    (activateStop e s).tracker = s.tracker ∧ (activateStop e s).job = s.job ∧ (activateStop e s).ports = s.ports ∧
    (activateStop e s).free = s.free ∧ (activateStop e s).pending = s.pending := by
  unfold activateStop; simp

@[simp] theorem overrunTest_frame (e : StopEntry) (s : State) :
    (overrunTest e s).time = s.time ∧ (overrunTest e s).inputs = s.inputs ∧ (overrunTest e s).geometry = s.geometry ∧
    (overrunTest e s).length = s.length ∧ (overrunTest e s).strobe = s.strobe ∧ (overrunTest e s).motion = s.motion ∧
    (overrunTest e s).plans = s.plans ∧ (overrunTest e s).queue = s.queue ∧ (overrunTest e s).roll = s.roll ∧
    (overrunTest e s).tracker = s.tracker ∧ (overrunTest e s).job = s.job ∧ (overrunTest e s).ports = s.ports ∧
    (overrunTest e s).free = s.free ∧ (overrunTest e s).pending = s.pending := by
  unfold overrunTest; split <;> simp

@[simp] theorem completeStop_frame (e : StopEntry) (late : Bool) (short : Nat) (s : State) :
    (completeStop e late short s).time = s.time ∧ (completeStop e late short s).inputs = s.inputs ∧
    (completeStop e late short s).geometry = s.geometry ∧ (completeStop e late short s).length = s.length ∧
    (completeStop e late short s).strobe = s.strobe ∧ (completeStop e late short s).motion = s.motion ∧
    (completeStop e late short s).plans = s.plans ∧ (completeStop e late short s).roll = s.roll ∧
    (completeStop e late short s).tracker = s.tracker ∧ (completeStop e late short s).job = s.job ∧
    (completeStop e late short s).ports = s.ports ∧ (completeStop e late short s).free = s.free ∧
    (completeStop e late short s).pending = s.pending := by
  unfold completeStop; simp

@[simp] theorem sweepStops_frame (fuel : Nat) (s : State) :
    (sweepStops fuel s).time = s.time ∧ (sweepStops fuel s).inputs = s.inputs ∧
    (sweepStops fuel s).geometry = s.geometry ∧ (sweepStops fuel s).length = s.length ∧
    (sweepStops fuel s).strobe = s.strobe ∧ (sweepStops fuel s).motion = s.motion ∧
    (sweepStops fuel s).plans = s.plans ∧ (sweepStops fuel s).roll = s.roll ∧
    (sweepStops fuel s).tracker = s.tracker ∧ (sweepStops fuel s).job = s.job ∧ (sweepStops fuel s).ports = s.ports ∧
    (sweepStops fuel s).free = s.free ∧ (sweepStops fuel s).pending = s.pending := by
  induction fuel generalizing s with
  | zero => simp [sweepStops]
  | succ n ih =>
    unfold sweepStops
    split
    · simp
    · simp [ih]

@[simp] theorem completeAndSweep_frame (e : StopEntry) (s : State) :
    (completeAndSweep e s).time = s.time ∧ (completeAndSweep e s).inputs = s.inputs ∧
    (completeAndSweep e s).geometry = s.geometry ∧ (completeAndSweep e s).length = s.length ∧
    (completeAndSweep e s).strobe = s.strobe ∧ (completeAndSweep e s).motion = s.motion ∧
    (completeAndSweep e s).plans = s.plans ∧ (completeAndSweep e s).roll = s.roll ∧
    (completeAndSweep e s).tracker = s.tracker ∧ (completeAndSweep e s).job = s.job ∧
    (completeAndSweep e s).ports = s.ports ∧ (completeAndSweep e s).free = s.free ∧
    (completeAndSweep e s).pending = s.pending := by
  unfold completeAndSweep; simp

@[simp] theorem evaluatePasses_frame (fuel : Nat) (s : State) :
    (evaluatePasses fuel s).time = s.time ∧ (evaluatePasses fuel s).inputs = s.inputs ∧
    (evaluatePasses fuel s).geometry = s.geometry ∧ (evaluatePasses fuel s).length = s.length ∧
    (evaluatePasses fuel s).strobe = s.strobe ∧ (evaluatePasses fuel s).motion = s.motion ∧
    (evaluatePasses fuel s).plans = s.plans ∧ (evaluatePasses fuel s).roll = s.roll ∧
    (evaluatePasses fuel s).tracker = s.tracker ∧ (evaluatePasses fuel s).job = s.job ∧
    (evaluatePasses fuel s).ports = s.ports ∧ (evaluatePasses fuel s).free = s.free ∧
    (evaluatePasses fuel s).pending = s.pending := by
  induction fuel generalizing s with
  | zero => simp [evaluatePasses]
  | succ n ih =>
    unfold evaluatePasses
    split
    · split
      · simp [ih]
      · simp
    · split
      · simp
      · split
        · split
          · simp [ih]
          · simp
        · simp

@[simp] theorem evaluate_frame (s : State) :
    (evaluate s).time = s.time ∧ (evaluate s).inputs = s.inputs ∧ (evaluate s).geometry = s.geometry ∧
    (evaluate s).length = s.length ∧ (evaluate s).strobe = s.strobe ∧ (evaluate s).motion = s.motion ∧
    (evaluate s).plans = s.plans ∧ (evaluate s).roll = s.roll ∧ (evaluate s).tracker = s.tracker ∧
    (evaluate s).job = s.job ∧ (evaluate s).ports = s.ports ∧ (evaluate s).free = s.free ∧
    (evaluate s).pending = s.pending := by
  unfold evaluate; split <;> simp

@[simp] theorem cancelStopId_frame (id : Nat) (s : State) :
    (cancelStopId id s).time = s.time ∧ (cancelStopId id s).inputs = s.inputs ∧
    (cancelStopId id s).geometry = s.geometry ∧ (cancelStopId id s).length = s.length ∧
    (cancelStopId id s).strobe = s.strobe ∧ (cancelStopId id s).motion = s.motion ∧
    (cancelStopId id s).plans = s.plans ∧ (cancelStopId id s).roll = s.roll ∧
    (cancelStopId id s).tracker = s.tracker ∧ (cancelStopId id s).job = s.job ∧ (cancelStopId id s).ports = s.ports ∧
    (cancelStopId id s).free = s.free ∧ (cancelStopId id s).pending = s.pending := by
  unfold cancelStopId; split <;> simp

@[simp] theorem cancelRecordStop_frame (r : PathRecord) (s : State) :
    (cancelRecordStop r s).time = s.time ∧ (cancelRecordStop r s).inputs = s.inputs ∧
    (cancelRecordStop r s).geometry = s.geometry ∧ (cancelRecordStop r s).length = s.length ∧
    (cancelRecordStop r s).strobe = s.strobe ∧ (cancelRecordStop r s).motion = s.motion ∧
    (cancelRecordStop r s).plans = s.plans ∧ (cancelRecordStop r s).roll = s.roll ∧
    (cancelRecordStop r s).tracker = s.tracker ∧ (cancelRecordStop r s).job = s.job ∧
    (cancelRecordStop r s).ports = s.ports ∧ (cancelRecordStop r s).free = s.free ∧
    (cancelRecordStop r s).pending = s.pending := by
  unfold cancelRecordStop; split <;> simp

@[simp] theorem removeStops_frame (l : List StopEntry) (s : State) :
    (l.foldl (fun s e => removeStop e s) s).time = s.time ∧
    (l.foldl (fun s e => removeStop e s) s).inputs = s.inputs ∧
    (l.foldl (fun s e => removeStop e s) s).geometry = s.geometry ∧
    (l.foldl (fun s e => removeStop e s) s).length = s.length ∧
    (l.foldl (fun s e => removeStop e s) s).strobe = s.strobe ∧
    (l.foldl (fun s e => removeStop e s) s).motion = s.motion ∧
    (l.foldl (fun s e => removeStop e s) s).plans = s.plans ∧ (l.foldl (fun s e => removeStop e s) s).roll = s.roll ∧
    (l.foldl (fun s e => removeStop e s) s).tracker = s.tracker ∧
    (l.foldl (fun s e => removeStop e s) s).job = s.job ∧ (l.foldl (fun s e => removeStop e s) s).ports = s.ports ∧
    (l.foldl (fun s e => removeStop e s) s).alerts = s.alerts ∧
    (l.foldl (fun s e => removeStop e s) s).free = s.free ∧
    (l.foldl (fun s e => removeStop e s) s).pending = s.pending := by
  induction l generalizing s with
  | nil => simp
  | cons e l ih => simpa using ih (removeStop e s)

@[simp] theorem cancelSetStops_frame (n : Nat) (s : State) :
    (cancelSetStops n s).time = s.time ∧ (cancelSetStops n s).inputs = s.inputs ∧
    (cancelSetStops n s).geometry = s.geometry ∧ (cancelSetStops n s).length = s.length ∧
    (cancelSetStops n s).strobe = s.strobe ∧ (cancelSetStops n s).motion = s.motion ∧
    (cancelSetStops n s).plans = s.plans ∧ (cancelSetStops n s).roll = s.roll ∧
    (cancelSetStops n s).tracker = s.tracker ∧ (cancelSetStops n s).job = s.job ∧
    (cancelSetStops n s).ports = s.ports ∧ (cancelSetStops n s).free = s.free ∧
    (cancelSetStops n s).pending = s.pending := by
  unfold cancelSetStops; simp

@[simp] theorem emptyStops_frame (s : State) :
    (emptyStops s).time = s.time ∧ (emptyStops s).inputs = s.inputs ∧ (emptyStops s).geometry = s.geometry ∧
    (emptyStops s).length = s.length ∧ (emptyStops s).strobe = s.strobe ∧ (emptyStops s).motion = s.motion ∧
    (emptyStops s).plans = s.plans ∧ (emptyStops s).queue = s.queue ∧ (emptyStops s).roll = s.roll ∧
    (emptyStops s).tracker = s.tracker ∧ (emptyStops s).job = s.job ∧ (emptyStops s).ports = s.ports ∧
    (emptyStops s).alerts = s.alerts ∧ (emptyStops s).free = s.free ∧ (emptyStops s).pending = s.pending := by
  unfold emptyStops; simp

@[simp] theorem insertStop_frame (o : StopOffer) (s : State) :
    ((insertStop o s).1).time = s.time ∧ ((insertStop o s).1).inputs = s.inputs ∧
    ((insertStop o s).1).geometry = s.geometry ∧ ((insertStop o s).1).length = s.length ∧
    ((insertStop o s).1).strobe = s.strobe ∧ ((insertStop o s).1).motion = s.motion ∧
    ((insertStop o s).1).plans = s.plans ∧ ((insertStop o s).1).roll = s.roll ∧
    ((insertStop o s).1).tracker = s.tracker ∧ ((insertStop o s).1).job = s.job ∧
    ((insertStop o s).1).ports = s.ports ∧ ((insertStop o s).1).free = s.free ∧
    ((insertStop o s).1).pending = s.pending := by
  unfold insertStop; split <;> simp

@[simp] theorem offerStop_frame (o : StopOffer) (s : State) :
    ((offerStop o s).1).time = s.time ∧ ((offerStop o s).1).inputs = s.inputs ∧
    ((offerStop o s).1).geometry = s.geometry ∧ ((offerStop o s).1).length = s.length ∧
    ((offerStop o s).1).strobe = s.strobe ∧ ((offerStop o s).1).motion = s.motion ∧
    ((offerStop o s).1).plans = s.plans ∧ ((offerStop o s).1).roll = s.roll ∧
    ((offerStop o s).1).tracker = s.tracker ∧ ((offerStop o s).1).job = s.job ∧ ((offerStop o s).1).ports = s.ports ∧
    ((offerStop o s).1).free = s.free ∧ ((offerStop o s).1).pending = s.pending := by
  unfold offerStop
  split
  · simp
  · split <;> simp

@[simp] theorem retargetStop_frame (e : StopEntry) (w x : Int) (s : State) :
    (retargetStop e w x s).time = s.time ∧ (retargetStop e w x s).inputs = s.inputs ∧
    (retargetStop e w x s).geometry = s.geometry ∧ (retargetStop e w x s).length = s.length ∧
    (retargetStop e w x s).strobe = s.strobe ∧ (retargetStop e w x s).motion = s.motion ∧
    (retargetStop e w x s).plans = s.plans ∧ (retargetStop e w x s).roll = s.roll ∧
    (retargetStop e w x s).tracker = s.tracker ∧ (retargetStop e w x s).job = s.job ∧
    (retargetStop e w x s).ports = s.ports ∧ (retargetStop e w x s).free = s.free ∧
    (retargetStop e w x s).pending = s.pending := by
  unfold retargetStop; simp

@[simp] theorem shiftStops_frame (popen cut : Nat) (s : State) :
    (shiftStops popen cut s).time = s.time ∧ (shiftStops popen cut s).inputs = s.inputs ∧
    (shiftStops popen cut s).geometry = s.geometry ∧ (shiftStops popen cut s).length = s.length ∧
    (shiftStops popen cut s).strobe = s.strobe ∧ (shiftStops popen cut s).motion = s.motion ∧
    (shiftStops popen cut s).plans = s.plans ∧ (shiftStops popen cut s).queue = s.queue ∧
    (shiftStops popen cut s).roll = s.roll ∧ (shiftStops popen cut s).tracker = s.tracker ∧
    (shiftStops popen cut s).job = s.job ∧ (shiftStops popen cut s).ports = s.ports ∧
    (shiftStops popen cut s).alerts = s.alerts ∧ (shiftStops popen cut s).free = s.free ∧
    (shiftStops popen cut s).pending = s.pending := by
  unfold shiftStops; simp

@[simp] theorem enterRecord_frame (kind : RecordKind) (xs xe len : Nat) (web : Int) (sl : Option LaneRange) (s : State) :
    ((enterRecord kind xs xe len web sl s).1).time = s.time ∧
    ((enterRecord kind xs xe len web sl s).1).inputs = s.inputs ∧
    ((enterRecord kind xs xe len web sl s).1).geometry = s.geometry ∧
    ((enterRecord kind xs xe len web sl s).1).length = s.length ∧
    ((enterRecord kind xs xe len web sl s).1).strobe = s.strobe ∧
    ((enterRecord kind xs xe len web sl s).1).motion = s.motion ∧
    ((enterRecord kind xs xe len web sl s).1).plans = s.plans ∧
    ((enterRecord kind xs xe len web sl s).1).roll = s.roll ∧
    ((enterRecord kind xs xe len web sl s).1).tracker = s.tracker ∧
    ((enterRecord kind xs xe len web sl s).1).stops = s.stops ∧
    ((enterRecord kind xs xe len web sl s).1).job = s.job ∧
    ((enterRecord kind xs xe len web sl s).1).ports = s.ports ∧
    ((enterRecord kind xs xe len web sl s).1).alerts = s.alerts ∧
    ((enterRecord kind xs xe len web sl s).1).free = s.free ∧
    ((enterRecord kind xs xe len web sl s).1).pending = s.pending := by
  unfold enterRecord; simp

@[simp] theorem slitRecord_frame (r : PathRecord) (l : LaneRange) (s : State) :
    (slitRecord r l s).time = s.time ∧ (slitRecord r l s).inputs = s.inputs ∧
    (slitRecord r l s).geometry = s.geometry ∧ (slitRecord r l s).length = s.length ∧
    (slitRecord r l s).strobe = s.strobe ∧ (slitRecord r l s).motion = s.motion ∧
    (slitRecord r l s).plans = s.plans ∧ (slitRecord r l s).roll = s.roll ∧ (slitRecord r l s).tracker = s.tracker ∧
    (slitRecord r l s).stops = s.stops ∧ (slitRecord r l s).job = s.job ∧ (slitRecord r l s).ports = s.ports ∧
    (slitRecord r l s).alerts = s.alerts ∧ (slitRecord r l s).free = s.free ∧ (slitRecord r l s).pending = s.pending := by
  unfold slitRecord; simp

@[simp] theorem trimRecord_frame (r : PathRecord) (s : State) :
    (trimRecord r s).time = s.time ∧ (trimRecord r s).inputs = s.inputs ∧ (trimRecord r s).geometry = s.geometry ∧
    (trimRecord r s).length = s.length ∧ (trimRecord r s).strobe = s.strobe ∧ (trimRecord r s).motion = s.motion ∧
    (trimRecord r s).plans = s.plans ∧ (trimRecord r s).tracker = s.tracker ∧ (trimRecord r s).job = s.job ∧
    (trimRecord r s).ports = s.ports ∧ (trimRecord r s).free = s.free ∧ (trimRecord r s).pending = s.pending := by
  unfold trimRecord; simp

@[simp] theorem resolveRecord_frame (r : PathRecord) (s : State) :
    (resolveRecord r s).time = s.time ∧ (resolveRecord r s).inputs = s.inputs ∧
    (resolveRecord r s).geometry = s.geometry ∧ (resolveRecord r s).length = s.length ∧
    (resolveRecord r s).strobe = s.strobe ∧ (resolveRecord r s).motion = s.motion ∧
    (resolveRecord r s).plans = s.plans ∧ (resolveRecord r s).tracker = s.tracker ∧ (resolveRecord r s).job = s.job ∧
    (resolveRecord r s).ports = s.ports ∧ (resolveRecord r s).free = s.free ∧ (resolveRecord r s).pending = s.pending := by
  unfold resolveRecord; split <;> simp

@[simp] theorem resolvePasses_frame (fuel : Nat) (s : State) :
    (resolvePasses fuel s).time = s.time ∧ (resolvePasses fuel s).inputs = s.inputs ∧
    (resolvePasses fuel s).geometry = s.geometry ∧ (resolvePasses fuel s).length = s.length ∧
    (resolvePasses fuel s).strobe = s.strobe ∧ (resolvePasses fuel s).motion = s.motion ∧
    (resolvePasses fuel s).plans = s.plans ∧ (resolvePasses fuel s).tracker = s.tracker ∧
    (resolvePasses fuel s).job = s.job ∧ (resolvePasses fuel s).ports = s.ports ∧
    (resolvePasses fuel s).free = s.free ∧ (resolvePasses fuel s).pending = s.pending := by
  induction fuel generalizing s with
  | zero => simp [resolvePasses]
  | succ n ih =>
    unfold resolvePasses
    split
    · simp
    · simp [ih]

@[simp] theorem resolveDue_frame (s : State) :
    (resolveDue s).time = s.time ∧ (resolveDue s).inputs = s.inputs ∧ (resolveDue s).geometry = s.geometry ∧
    (resolveDue s).length = s.length ∧ (resolveDue s).strobe = s.strobe ∧ (resolveDue s).motion = s.motion ∧
    (resolveDue s).plans = s.plans ∧ (resolveDue s).tracker = s.tracker ∧ (resolveDue s).job = s.job ∧
    (resolveDue s).ports = s.ports ∧ (resolveDue s).free = s.free ∧ (resolveDue s).pending = s.pending := by
  unfold resolveDue; simp

@[simp] theorem deliverToRoll_frame (it : RegisterItem) (set : SetRecord) (s : State) :
    (deliverToRoll it set s).time = s.time ∧ (deliverToRoll it set s).inputs = s.inputs ∧
    (deliverToRoll it set s).geometry = s.geometry ∧ (deliverToRoll it set s).length = s.length ∧
    (deliverToRoll it set s).strobe = s.strobe ∧ (deliverToRoll it set s).motion = s.motion ∧
    (deliverToRoll it set s).plans = s.plans ∧ (deliverToRoll it set s).queue = s.queue ∧
    (deliverToRoll it set s).tracker = s.tracker ∧ (deliverToRoll it set s).stops = s.stops ∧
    (deliverToRoll it set s).job = s.job ∧ (deliverToRoll it set s).ports = s.ports ∧
    (deliverToRoll it set s).free = s.free ∧ (deliverToRoll it set s).pending = s.pending := by
  unfold deliverToRoll; simp

@[simp] theorem deliverRecord_frame (r : PathRecord) (s : State) :
    (deliverRecord r s).time = s.time ∧ (deliverRecord r s).inputs = s.inputs ∧
    (deliverRecord r s).geometry = s.geometry ∧ (deliverRecord r s).length = s.length ∧
    (deliverRecord r s).strobe = s.strobe ∧ (deliverRecord r s).motion = s.motion ∧
    (deliverRecord r s).plans = s.plans ∧ (deliverRecord r s).tracker = s.tracker ∧
    (deliverRecord r s).stops = s.stops ∧ (deliverRecord r s).job = s.job ∧ (deliverRecord r s).ports = s.ports ∧
    (deliverRecord r s).free = s.free ∧ (deliverRecord r s).pending = s.pending := by
  unfold deliverRecord; split <;> simp

@[simp] theorem deliverPasses_frame (fuel : Nat) (s : State) :
    (deliverPasses fuel s).time = s.time ∧ (deliverPasses fuel s).inputs = s.inputs ∧
    (deliverPasses fuel s).geometry = s.geometry ∧ (deliverPasses fuel s).length = s.length ∧
    (deliverPasses fuel s).strobe = s.strobe ∧ (deliverPasses fuel s).motion = s.motion ∧
    (deliverPasses fuel s).plans = s.plans ∧ (deliverPasses fuel s).tracker = s.tracker ∧
    (deliverPasses fuel s).stops = s.stops ∧ (deliverPasses fuel s).job = s.job ∧
    (deliverPasses fuel s).ports = s.ports ∧ (deliverPasses fuel s).free = s.free ∧
    (deliverPasses fuel s).pending = s.pending := by
  induction fuel generalizing s with
  | zero => simp [deliverPasses]
  | succ n ih =>
    unfold deliverPasses
    split
    · simp
    · simp [ih]

@[simp] theorem deliverDue_frame (s : State) :
    (deliverDue s).time = s.time ∧ (deliverDue s).inputs = s.inputs ∧ (deliverDue s).geometry = s.geometry ∧
    (deliverDue s).length = s.length ∧ (deliverDue s).strobe = s.strobe ∧ (deliverDue s).motion = s.motion ∧
    (deliverDue s).plans = s.plans ∧ (deliverDue s).tracker = s.tracker ∧ (deliverDue s).stops = s.stops ∧
    (deliverDue s).job = s.job ∧ (deliverDue s).ports = s.ports ∧ (deliverDue s).free = s.free ∧
    (deliverDue s).pending = s.pending := by
  unfold deliverDue; split <;> simp

@[simp] theorem returnRecord_frame (s : State) (it : RegisterItem) :
    (returnRecord s it).time = s.time ∧ (returnRecord s it).inputs = s.inputs ∧
    (returnRecord s it).geometry = s.geometry ∧ (returnRecord s it).length = s.length ∧
    (returnRecord s it).strobe = s.strobe ∧ (returnRecord s it).motion = s.motion ∧
    (returnRecord s it).plans = s.plans ∧ (returnRecord s it).roll = s.roll ∧
    (returnRecord s it).tracker = s.tracker ∧ (returnRecord s it).stops = s.stops ∧ (returnRecord s it).job = s.job ∧
    (returnRecord s it).ports = s.ports ∧ (returnRecord s it).free = s.free ∧ (returnRecord s it).pending = s.pending := by
  unfold returnRecord; dsimp only; split <;> simp

@[simp] theorem spliceSeen_frame (s : State) :
    (spliceSeen s).time = s.time ∧ (spliceSeen s).inputs = s.inputs ∧ (spliceSeen s).geometry = s.geometry ∧
    (spliceSeen s).length = s.length ∧ (spliceSeen s).strobe = s.strobe ∧ (spliceSeen s).motion = s.motion ∧
    (spliceSeen s).plans = s.plans ∧ (spliceSeen s).tracker = s.tracker ∧ (spliceSeen s).job = s.job ∧
    (spliceSeen s).ports = s.ports ∧ (spliceSeen s).free = s.free ∧ (spliceSeen s).pending = s.pending := by
  unfold spliceSeen
  dsimp only
  split
  · simp
  split
  · simp
  split
  · simp
  split <;> simp

@[simp] theorem recomputeSetEnd_frame (l : MarkLock) (s : State) :
    (recomputeSetEnd l s).time = s.time ∧ (recomputeSetEnd l s).inputs = s.inputs ∧
    (recomputeSetEnd l s).geometry = s.geometry ∧ (recomputeSetEnd l s).length = s.length ∧
    (recomputeSetEnd l s).strobe = s.strobe ∧ (recomputeSetEnd l s).motion = s.motion ∧
    (recomputeSetEnd l s).plans = s.plans ∧ (recomputeSetEnd l s).roll = s.roll ∧
    (recomputeSetEnd l s).tracker = s.tracker ∧ (recomputeSetEnd l s).job = s.job ∧
    (recomputeSetEnd l s).ports = s.ports ∧ (recomputeSetEnd l s).free = s.free ∧
    (recomputeSetEnd l s).pending = s.pending := by
  unfold recomputeSetEnd
  split
  · split
    · split <;> simp
    · simp
  · simp

@[simp] theorem loseTrack_frame (l : MarkLock) (s : State) :
    (loseTrack l s).time = s.time ∧ (loseTrack l s).inputs = s.inputs ∧ (loseTrack l s).geometry = s.geometry ∧
    (loseTrack l s).length = s.length ∧ (loseTrack l s).strobe = s.strobe ∧ (loseTrack l s).motion = s.motion ∧
    (loseTrack l s).plans = s.plans ∧ (loseTrack l s).roll = s.roll ∧ (loseTrack l s).job = s.job ∧
    (loseTrack l s).ports = s.ports ∧ (loseTrack l s).free = s.free ∧ (loseTrack l s).pending = s.pending := by
  unfold loseTrack; split <;> simp

@[simp] theorem missMark_frame (l : MarkLock) (s : State) :
    (missMark l s).time = s.time ∧ (missMark l s).inputs = s.inputs ∧ (missMark l s).geometry = s.geometry ∧
    (missMark l s).length = s.length ∧ (missMark l s).strobe = s.strobe ∧ (missMark l s).motion = s.motion ∧
    (missMark l s).plans = s.plans ∧ (missMark l s).job = s.job ∧ (missMark l s).ports = s.ports ∧
    (missMark l s).free = s.free ∧ (missMark l s).pending = s.pending := by
  unfold missMark; dsimp only; split <;> simp

@[simp] theorem missedMarks_frame (fuel : Nat) (s : State) :
    (missedMarks fuel s).time = s.time ∧ (missedMarks fuel s).inputs = s.inputs ∧
    (missedMarks fuel s).geometry = s.geometry ∧ (missedMarks fuel s).length = s.length ∧
    (missedMarks fuel s).strobe = s.strobe ∧ (missedMarks fuel s).motion = s.motion ∧
    (missedMarks fuel s).plans = s.plans ∧ (missedMarks fuel s).job = s.job ∧ (missedMarks fuel s).ports = s.ports ∧
    (missedMarks fuel s).free = s.free ∧ (missedMarks fuel s).pending = s.pending := by
  induction fuel generalizing s with
  | zero => simp [missedMarks]
  | succ n ih =>
    unfold missedMarks
    split
    · split
      · simp [ih]
      · simp
    · simp

@[simp] theorem trackChange_frame (old : Nat) (s : State) :
    (trackChange old s).time = s.time ∧ (trackChange old s).inputs = s.inputs ∧
    (trackChange old s).geometry = s.geometry ∧ (trackChange old s).length = s.length ∧
    (trackChange old s).strobe = s.strobe ∧ (trackChange old s).motion = s.motion ∧
    (trackChange old s).plans = s.plans ∧ (trackChange old s).job = s.job ∧ (trackChange old s).ports = s.ports ∧
    (trackChange old s).free = s.free ∧ (trackChange old s).pending = s.pending := by
  unfold trackChange; split <;> simp

@[simp] theorem goodMark_frame (l : MarkLock) (wm : Int) (s : State) :
    (goodMark l wm s).time = s.time ∧ (goodMark l wm s).inputs = s.inputs ∧ (goodMark l wm s).geometry = s.geometry ∧
    (goodMark l wm s).length = s.length ∧ (goodMark l wm s).strobe = s.strobe ∧ (goodMark l wm s).motion = s.motion ∧
    (goodMark l wm s).plans = s.plans ∧ (goodMark l wm s).job = s.job ∧ (goodMark l wm s).ports = s.ports ∧
    (goodMark l wm s).free = s.free ∧ (goodMark l wm s).pending = s.pending := by
  unfold goodMark; simp

@[simp] theorem relockMark_frame (l : MarkLock) (wm : Int) (s : State) :
    (relockMark l wm s).time = s.time ∧ (relockMark l wm s).inputs = s.inputs ∧
    (relockMark l wm s).geometry = s.geometry ∧ (relockMark l wm s).length = s.length ∧
    (relockMark l wm s).strobe = s.strobe ∧ (relockMark l wm s).motion = s.motion ∧
    (relockMark l wm s).plans = s.plans ∧ (relockMark l wm s).job = s.job ∧ (relockMark l wm s).ports = s.ports ∧
    (relockMark l wm s).free = s.free ∧ (relockMark l wm s).pending = s.pending := by
  unfold relockMark; simp

@[simp] theorem classMark_frame (l : MarkLock) (wm : Int) (s : State) :
    (classMark l wm s).time = s.time ∧ (classMark l wm s).inputs = s.inputs ∧
    (classMark l wm s).geometry = s.geometry ∧ (classMark l wm s).length = s.length ∧
    (classMark l wm s).strobe = s.strobe ∧ (classMark l wm s).motion = s.motion ∧
    (classMark l wm s).plans = s.plans ∧ (classMark l wm s).job = s.job ∧ (classMark l wm s).ports = s.ports ∧
    (classMark l wm s).free = s.free ∧ (classMark l wm s).pending = s.pending := by
  unfold classMark
  dsimp only
  split
  · simp
  split
  · simp
  split <;> simp

@[simp] theorem lockMark_frame (wm : Int) (s : State) :
    (lockMark wm s).time = s.time ∧ (lockMark wm s).inputs = s.inputs ∧ (lockMark wm s).geometry = s.geometry ∧
    (lockMark wm s).length = s.length ∧ (lockMark wm s).strobe = s.strobe ∧ (lockMark wm s).motion = s.motion ∧
    (lockMark wm s).plans = s.plans ∧ (lockMark wm s).queue = s.queue ∧ (lockMark wm s).roll = s.roll ∧
    (lockMark wm s).stops = s.stops ∧ (lockMark wm s).job = s.job ∧ (lockMark wm s).ports = s.ports ∧
    (lockMark wm s).alerts = s.alerts ∧ (lockMark wm s).free = s.free ∧ (lockMark wm s).pending = s.pending := by
  unfold lockMark; simp

@[simp] theorem markSeen_frame (s : State) :
    (markSeen s).time = s.time ∧ (markSeen s).inputs = s.inputs ∧ (markSeen s).geometry = s.geometry ∧
    (markSeen s).length = s.length ∧ (markSeen s).strobe = s.strobe ∧ (markSeen s).motion = s.motion ∧
    (markSeen s).plans = s.plans ∧ (markSeen s).job = s.job ∧ (markSeen s).ports = s.ports ∧
    (markSeen s).free = s.free ∧ (markSeen s).pending = s.pending := by
  unfold markSeen
  dsimp only
  split
  · simp
  split <;> simp

@[simp] theorem silenceA_frame (s : State) :
    (silenceA s).time = s.time ∧ (silenceA s).inputs = s.inputs ∧ (silenceA s).geometry = s.geometry ∧
    (silenceA s).strobe = s.strobe ∧ (silenceA s).motion = s.motion ∧ (silenceA s).plans = s.plans ∧
    (silenceA s).queue = s.queue ∧ (silenceA s).tracker = s.tracker ∧ (silenceA s).stops = s.stops ∧
    (silenceA s).job = s.job ∧ (silenceA s).ports = s.ports ∧ (silenceA s).free = s.free ∧
    (silenceA s).pending = s.pending := by
  unfold silenceA; dsimp only; split <;> simp

@[simp] theorem silenceB_frame (s : State) :
    (silenceB s).time = s.time ∧ (silenceB s).inputs = s.inputs ∧ (silenceB s).geometry = s.geometry ∧
    (silenceB s).strobe = s.strobe ∧ (silenceB s).motion = s.motion ∧ (silenceB s).plans = s.plans ∧
    (silenceB s).queue = s.queue ∧ (silenceB s).roll = s.roll ∧ (silenceB s).tracker = s.tracker ∧
    (silenceB s).stops = s.stops ∧ (silenceB s).job = s.job ∧ (silenceB s).ports = s.ports ∧
    (silenceB s).free = s.free ∧ (silenceB s).pending = s.pending := by
  unfold silenceB; simp

@[simp] theorem silenceOf_frame (e : Encoder) (s : State) :
    (silenceOf e s).time = s.time ∧ (silenceOf e s).inputs = s.inputs ∧ (silenceOf e s).geometry = s.geometry ∧
    (silenceOf e s).strobe = s.strobe ∧ (silenceOf e s).motion = s.motion ∧ (silenceOf e s).plans = s.plans ∧
    (silenceOf e s).queue = s.queue ∧ (silenceOf e s).tracker = s.tracker ∧ (silenceOf e s).stops = s.stops ∧
    (silenceOf e s).job = s.job ∧ (silenceOf e s).ports = s.ports ∧ (silenceOf e s).free = s.free ∧
    (silenceOf e s).pending = s.pending := by
  cases e <;> simp [silenceOf]

@[simp] theorem slipCheck_frame (s : State) :
    (slipCheck s).time = s.time ∧ (slipCheck s).inputs = s.inputs ∧ (slipCheck s).geometry = s.geometry ∧
    (slipCheck s).strobe = s.strobe ∧ (slipCheck s).motion = s.motion ∧ (slipCheck s).plans = s.plans ∧
    (slipCheck s).queue = s.queue ∧ (slipCheck s).roll = s.roll ∧ (slipCheck s).tracker = s.tracker ∧
    (slipCheck s).stops = s.stops ∧ (slipCheck s).job = s.job ∧ (slipCheck s).ports = s.ports ∧
    (slipCheck s).free = s.free ∧ (slipCheck s).pending = s.pending := by
  unfold slipCheck
  dsimp only
  split
  · simp
  · split <;> simp

@[simp] theorem slipAtCount_frame (e : Encoder) (d : Direction) (s : State) :
    (slipAtCount e d s).time = s.time ∧ (slipAtCount e d s).inputs = s.inputs ∧
    (slipAtCount e d s).geometry = s.geometry ∧ (slipAtCount e d s).strobe = s.strobe ∧
    (slipAtCount e d s).motion = s.motion ∧ (slipAtCount e d s).plans = s.plans ∧
    (slipAtCount e d s).queue = s.queue ∧ (slipAtCount e d s).roll = s.roll ∧
    (slipAtCount e d s).tracker = s.tracker ∧ (slipAtCount e d s).stops = s.stops ∧ (slipAtCount e d s).job = s.job ∧
    (slipAtCount e d s).ports = s.ports ∧ (slipAtCount e d s).free = s.free ∧ (slipAtCount e d s).pending = s.pending := by
  cases e <;> cases d <;> simp [slipAtCount]

@[simp] theorem changeOfP_frame (old : Nat) (s : State) :
    (changeOfP old s).time = s.time ∧ (changeOfP old s).inputs = s.inputs ∧ (changeOfP old s).geometry = s.geometry ∧
    (changeOfP old s).length = s.length ∧ (changeOfP old s).motion = s.motion ∧ (changeOfP old s).plans = s.plans ∧
    (changeOfP old s).job = s.job ∧ (changeOfP old s).ports = s.ports ∧ (changeOfP old s).free = s.free ∧
    (changeOfP old s).pending = s.pending := by
  unfold changeOfP
  dsimp only
  split <;> simp

@[simp] theorem applyCount_frame (e : Encoder) (d : Direction) (s : State) :
    (applyCount e d s).time = s.time ∧ (applyCount e d s).inputs = s.inputs ∧
    (applyCount e d s).geometry = s.geometry ∧ (applyCount e d s).motion = s.motion ∧
    (applyCount e d s).plans = s.plans ∧ (applyCount e d s).job = s.job ∧ (applyCount e d s).ports = s.ports ∧
    (applyCount e d s).free = s.free ∧ (applyCount e d s).pending = s.pending := by
  unfold applyCount
  dsimp only
  split <;> split <;> split <;> simp

@[simp] theorem acceptEdge_frame (e : Encoder) (ph : Phase) (s : State) :
    (acceptEdge e ph s).time = s.time ∧ (acceptEdge e ph s).geometry = s.geometry ∧
    (acceptEdge e ph s).motion = s.motion ∧ (acceptEdge e ph s).plans = s.plans ∧ (acceptEdge e ph s).job = s.job ∧
    (acceptEdge e ph s).ports = s.ports ∧ (acceptEdge e ph s).free = s.free ∧ (acceptEdge e ph s).pending = s.pending := by
  unfold acceptEdge
  dsimp only
  split <;> simp

@[simp] theorem glitchAt_frame (e : Encoder) (s : State) :
    (glitchAt e s).time = s.time ∧ (glitchAt e s).geometry = s.geometry ∧ (glitchAt e s).length = s.length ∧
    (glitchAt e s).strobe = s.strobe ∧ (glitchAt e s).motion = s.motion ∧ (glitchAt e s).plans = s.plans ∧
    (glitchAt e s).queue = s.queue ∧ (glitchAt e s).roll = s.roll ∧ (glitchAt e s).tracker = s.tracker ∧
    (glitchAt e s).stops = s.stops ∧ (glitchAt e s).job = s.job ∧ (glitchAt e s).ports = s.ports ∧
    (glitchAt e s).free = s.free ∧ (glitchAt e s).pending = s.pending := by
  unfold glitchAt; simp

@[simp] theorem closeGate_frame (s : State) :
    (closeGate s).time = s.time ∧ (closeGate s).geometry = s.geometry ∧ (closeGate s).length = s.length ∧
    (closeGate s).strobe = s.strobe ∧ (closeGate s).plans = s.plans ∧ (closeGate s).roll = s.roll ∧
    (closeGate s).tracker = s.tracker ∧ (closeGate s).job = s.job ∧ (closeGate s).ports = s.ports ∧
    (closeGate s).free = s.free ∧ (closeGate s).pending = s.pending := by
  unfold closeGate
  dsimp only
  split <;> simp

@[simp] theorem takeNoMotion_frame (s : State) :
    (takeNoMotion s).time = s.time ∧ (takeNoMotion s).inputs = s.inputs ∧ (takeNoMotion s).geometry = s.geometry ∧
    (takeNoMotion s).length = s.length ∧ (takeNoMotion s).strobe = s.strobe ∧ (takeNoMotion s).plans = s.plans ∧
    (takeNoMotion s).queue = s.queue ∧ (takeNoMotion s).roll = s.roll ∧ (takeNoMotion s).tracker = s.tracker ∧
    (takeNoMotion s).stops = s.stops ∧ (takeNoMotion s).job = s.job ∧ (takeNoMotion s).ports = s.ports ∧
    (takeNoMotion s).free = s.free ∧ (takeNoMotion s).pending = s.pending := by
  unfold takeNoMotion; simp

@[simp] theorem closeGateIfDue_frame (s : State) :
    (closeGateIfDue s).time = s.time ∧ (closeGateIfDue s).geometry = s.geometry ∧
    (closeGateIfDue s).length = s.length ∧ (closeGateIfDue s).strobe = s.strobe ∧
    (closeGateIfDue s).plans = s.plans ∧ (closeGateIfDue s).roll = s.roll ∧ (closeGateIfDue s).tracker = s.tracker ∧
    (closeGateIfDue s).job = s.job ∧ (closeGateIfDue s).ports = s.ports ∧ (closeGateIfDue s).free = s.free ∧
    (closeGateIfDue s).pending = s.pending := by
  unfold closeGateIfDue; split <;> simp

@[simp] theorem takeNoMotionIfDue_frame (s : State) :
    (takeNoMotionIfDue s).time = s.time ∧ (takeNoMotionIfDue s).inputs = s.inputs ∧
    (takeNoMotionIfDue s).geometry = s.geometry ∧ (takeNoMotionIfDue s).length = s.length ∧
    (takeNoMotionIfDue s).strobe = s.strobe ∧ (takeNoMotionIfDue s).plans = s.plans ∧
    (takeNoMotionIfDue s).queue = s.queue ∧ (takeNoMotionIfDue s).roll = s.roll ∧
    (takeNoMotionIfDue s).tracker = s.tracker ∧ (takeNoMotionIfDue s).stops = s.stops ∧
    (takeNoMotionIfDue s).job = s.job ∧ (takeNoMotionIfDue s).ports = s.ports ∧ (takeNoMotionIfDue s).free = s.free ∧
    (takeNoMotionIfDue s).pending = s.pending := by
  unfold takeNoMotionIfDue; split <;> simp

@[simp] theorem endWarmUp_frame (v : InputLevels) (s : State) :
    (endWarmUp v s).geometry = s.geometry ∧ (endWarmUp v s).strobe = s.strobe ∧ (endWarmUp v s).plans = s.plans ∧
    (endWarmUp v s).queue = s.queue ∧ (endWarmUp v s).roll = s.roll ∧ (endWarmUp v s).tracker = s.tracker ∧
    (endWarmUp v s).stops = s.stops ∧ (endWarmUp v s).job = s.job ∧ (endWarmUp v s).free = s.free ∧
    (endWarmUp v s).pending = s.pending := by
  unfold endWarmUp; simp

@[simp] theorem takeDue_frame (s : State) :
    (takeDue s).geometry = s.geometry ∧ (takeDue s).strobe = s.strobe ∧ (takeDue s).plans = s.plans ∧
    (takeDue s).roll = s.roll ∧ (takeDue s).tracker = s.tracker ∧ (takeDue s).job = s.job ∧
    (takeDue s).pending = s.pending := by
  unfold takeDue
  dsimp only
  split <;> split <;> (try split) <;> simp

@[simp] theorem endInterval_frame (s : State) :
    (endInterval s).inputs = s.inputs ∧ (endInterval s).geometry = s.geometry ∧ (endInterval s).length = s.length ∧
    (endInterval s).strobe = s.strobe ∧ (endInterval s).plans = s.plans ∧ (endInterval s).queue = s.queue ∧
    (endInterval s).roll = s.roll ∧ (endInterval s).tracker = s.tracker ∧ (endInterval s).stops = s.stops ∧
    (endInterval s).job = s.job ∧ (endInterval s).ports = s.ports ∧ (endInterval s).alerts = s.alerts ∧
    (endInterval s).free = s.free ∧ (endInterval s).pending = s.pending := by
  unfold endInterval; simp

@[simp] theorem clockCycle_frame (s : State) :
    (clockCycle s).geometry = s.geometry ∧ (clockCycle s).plans = s.plans ∧ (clockCycle s).roll = s.roll ∧
    (clockCycle s).tracker = s.tracker ∧ (clockCycle s).job = s.job ∧ (clockCycle s).pending = s.pending := by
  unfold clockCycle
  dsimp only
  split
  · simp
  split <;> split <;> simp

@[simp] theorem cutShift_frame (popen cut : Nat) (s : State) :
    (cutShift popen cut s).time = s.time ∧ (cutShift popen cut s).inputs = s.inputs ∧
    (cutShift popen cut s).geometry = s.geometry ∧ (cutShift popen cut s).length = s.length ∧
    (cutShift popen cut s).strobe = s.strobe ∧ (cutShift popen cut s).motion = s.motion ∧
    (cutShift popen cut s).plans = s.plans ∧ (cutShift popen cut s).tracker = s.tracker ∧
    (cutShift popen cut s).job = s.job ∧ (cutShift popen cut s).ports = s.ports ∧
    (cutShift popen cut s).alerts = s.alerts ∧ (cutShift popen cut s).free = s.free ∧
    (cutShift popen cut s).pending = s.pending := by
  unfold cutShift; simp

@[simp] theorem removeRecord_frame (r : PathRecord) (s : State) :
    (removeRecord r s).time = s.time ∧ (removeRecord r s).inputs = s.inputs ∧
    (removeRecord r s).geometry = s.geometry ∧ (removeRecord r s).length = s.length ∧
    (removeRecord r s).strobe = s.strobe ∧ (removeRecord r s).motion = s.motion ∧
    (removeRecord r s).plans = s.plans ∧ (removeRecord r s).tracker = s.tracker ∧ (removeRecord r s).job = s.job ∧
    (removeRecord r s).ports = s.ports ∧ (removeRecord r s).free = s.free ∧ (removeRecord r s).pending = s.pending := by
  unfold removeRecord; simp

@[simp] theorem removeFromRoll_frame (n : Nat) (s : State) :
    (removeFromRoll n s).time = s.time ∧ (removeFromRoll n s).inputs = s.inputs ∧
    (removeFromRoll n s).geometry = s.geometry ∧ (removeFromRoll n s).length = s.length ∧
    (removeFromRoll n s).strobe = s.strobe ∧ (removeFromRoll n s).motion = s.motion ∧
    (removeFromRoll n s).plans = s.plans ∧ (removeFromRoll n s).queue = s.queue ∧
    (removeFromRoll n s).tracker = s.tracker ∧ (removeFromRoll n s).stops = s.stops ∧
    (removeFromRoll n s).job = s.job ∧ (removeFromRoll n s).ports = s.ports ∧
    (removeFromRoll n s).alerts = s.alerts ∧ (removeFromRoll n s).free = s.free ∧
    (removeFromRoll n s).pending = s.pending := by
  unfold removeFromRoll; simp

@[simp] theorem removeNamed_frame (acc : State × Nat) (x : Nat) :
    (removeNamed acc x).1.time = acc.1.time ∧ (removeNamed acc x).1.inputs = acc.1.inputs ∧
    (removeNamed acc x).1.geometry = acc.1.geometry ∧ (removeNamed acc x).1.length = acc.1.length ∧
    (removeNamed acc x).1.strobe = acc.1.strobe ∧ (removeNamed acc x).1.motion = acc.1.motion ∧
    (removeNamed acc x).1.plans = acc.1.plans ∧ (removeNamed acc x).1.tracker = acc.1.tracker ∧
    (removeNamed acc x).1.job = acc.1.job ∧ (removeNamed acc x).1.ports = acc.1.ports ∧
    (removeNamed acc x).1.free = acc.1.free ∧ (removeNamed acc x).1.pending = acc.1.pending := by
  unfold removeNamed; split <;> (try split) <;> simp

@[simp] theorem removeNamed_foldl_frame (l : List Nat) (acc : State × Nat) :
    (l.foldl removeNamed acc).1.time = acc.1.time ∧ (l.foldl removeNamed acc).1.inputs = acc.1.inputs ∧
    (l.foldl removeNamed acc).1.geometry = acc.1.geometry ∧ (l.foldl removeNamed acc).1.length = acc.1.length ∧
    (l.foldl removeNamed acc).1.strobe = acc.1.strobe ∧ (l.foldl removeNamed acc).1.motion = acc.1.motion ∧
    (l.foldl removeNamed acc).1.plans = acc.1.plans ∧ (l.foldl removeNamed acc).1.tracker = acc.1.tracker ∧
    (l.foldl removeNamed acc).1.job = acc.1.job ∧ (l.foldl removeNamed acc).1.ports = acc.1.ports ∧
    (l.foldl removeNamed acc).1.free = acc.1.free ∧ (l.foldl removeNamed acc).1.pending = acc.1.pending := by
  induction l generalizing acc with
  | nil => simp
  | cons x l ih => simpa using ih (removeNamed acc x)

@[simp] theorem removePulled_frame (acc : State × Nat) (x : PathRecord) :
    (removePulled acc x).1.time = acc.1.time ∧ (removePulled acc x).1.inputs = acc.1.inputs ∧
    (removePulled acc x).1.geometry = acc.1.geometry ∧ (removePulled acc x).1.length = acc.1.length ∧
    (removePulled acc x).1.strobe = acc.1.strobe ∧ (removePulled acc x).1.motion = acc.1.motion ∧
    (removePulled acc x).1.plans = acc.1.plans ∧ (removePulled acc x).1.tracker = acc.1.tracker ∧
    (removePulled acc x).1.job = acc.1.job ∧ (removePulled acc x).1.ports = acc.1.ports ∧
    (removePulled acc x).1.free = acc.1.free ∧ (removePulled acc x).1.pending = acc.1.pending := by
  unfold removePulled; split <;> simp

@[simp] theorem removePulled_foldl_frame (l : List PathRecord) (acc : State × Nat) :
    (l.foldl removePulled acc).1.time = acc.1.time ∧ (l.foldl removePulled acc).1.inputs = acc.1.inputs ∧
    (l.foldl removePulled acc).1.geometry = acc.1.geometry ∧ (l.foldl removePulled acc).1.length = acc.1.length ∧
    (l.foldl removePulled acc).1.strobe = acc.1.strobe ∧ (l.foldl removePulled acc).1.motion = acc.1.motion ∧
    (l.foldl removePulled acc).1.plans = acc.1.plans ∧ (l.foldl removePulled acc).1.tracker = acc.1.tracker ∧
    (l.foldl removePulled acc).1.job = acc.1.job ∧ (l.foldl removePulled acc).1.ports = acc.1.ports ∧
    (l.foldl removePulled acc).1.free = acc.1.free ∧ (l.foldl removePulled acc).1.pending = acc.1.pending := by
  induction l generalizing acc with
  | nil => simp
  | cons x l ih => simpa using ih (removePulled acc x)

@[simp] theorem removePulledItem_frame (acc : State × Nat) (x : RegisterItem) :
    (removePulledItem acc x).1.time = acc.1.time ∧ (removePulledItem acc x).1.inputs = acc.1.inputs ∧
    (removePulledItem acc x).1.geometry = acc.1.geometry ∧ (removePulledItem acc x).1.length = acc.1.length ∧
    (removePulledItem acc x).1.strobe = acc.1.strobe ∧ (removePulledItem acc x).1.motion = acc.1.motion ∧
    (removePulledItem acc x).1.plans = acc.1.plans ∧ (removePulledItem acc x).1.queue = acc.1.queue ∧
    (removePulledItem acc x).1.tracker = acc.1.tracker ∧ (removePulledItem acc x).1.stops = acc.1.stops ∧
    (removePulledItem acc x).1.job = acc.1.job ∧ (removePulledItem acc x).1.ports = acc.1.ports ∧
    (removePulledItem acc x).1.alerts = acc.1.alerts ∧ (removePulledItem acc x).1.free = acc.1.free ∧
    (removePulledItem acc x).1.pending = acc.1.pending := by
  unfold removePulledItem; split <;> simp

@[simp] theorem removePulledItem_foldl_frame (l : List RegisterItem) (acc : State × Nat) :
    (l.foldl removePulledItem acc).1.time = acc.1.time ∧ (l.foldl removePulledItem acc).1.inputs = acc.1.inputs ∧
    (l.foldl removePulledItem acc).1.geometry = acc.1.geometry ∧
    (l.foldl removePulledItem acc).1.length = acc.1.length ∧ (l.foldl removePulledItem acc).1.strobe = acc.1.strobe ∧
    (l.foldl removePulledItem acc).1.motion = acc.1.motion ∧ (l.foldl removePulledItem acc).1.plans = acc.1.plans ∧
    (l.foldl removePulledItem acc).1.queue = acc.1.queue ∧ (l.foldl removePulledItem acc).1.tracker = acc.1.tracker ∧
    (l.foldl removePulledItem acc).1.stops = acc.1.stops ∧ (l.foldl removePulledItem acc).1.job = acc.1.job ∧
    (l.foldl removePulledItem acc).1.ports = acc.1.ports ∧ (l.foldl removePulledItem acc).1.alerts = acc.1.alerts ∧
    (l.foldl removePulledItem acc).1.free = acc.1.free ∧ (l.foldl removePulledItem acc).1.pending = acc.1.pending := by
  induction l generalizing acc with
  | nil => simp
  | cons x l ih => simpa using ih (removePulledItem acc x)

@[simp] theorem enterRepairSplice_frame (a b : Nat) (s : State) :
    ((enterRepairSplice a b s).1).time = s.time ∧ ((enterRepairSplice a b s).1).inputs = s.inputs ∧
    ((enterRepairSplice a b s).1).geometry = s.geometry ∧ ((enterRepairSplice a b s).1).length = s.length ∧
    ((enterRepairSplice a b s).1).strobe = s.strobe ∧ ((enterRepairSplice a b s).1).motion = s.motion ∧
    ((enterRepairSplice a b s).1).plans = s.plans ∧ ((enterRepairSplice a b s).1).tracker = s.tracker ∧
    ((enterRepairSplice a b s).1).stops = s.stops ∧ ((enterRepairSplice a b s).1).job = s.job ∧
    ((enterRepairSplice a b s).1).ports = s.ports ∧ ((enterRepairSplice a b s).1).free = s.free ∧
    ((enterRepairSplice a b s).1).pending = s.pending := by
  unfold enterRepairSplice; split <;> simp

@[simp] theorem endCut_frame (s : State) :
    (endCut s).time = s.time ∧ (endCut s).inputs = s.inputs ∧ (endCut s).geometry = s.geometry ∧
    (endCut s).length = s.length ∧ (endCut s).strobe = s.strobe ∧ (endCut s).motion = s.motion ∧
    (endCut s).plans = s.plans ∧ (endCut s).tracker = s.tracker ∧ (endCut s).ports = s.ports ∧
    (endCut s).free = s.free ∧ (endCut s).pending = s.pending := by
  unfold endCut; simp

@[simp] theorem makeSplice_frame (popen a b : Nat) (l : List Nat) (s : State) :
    ((makeSplice popen a b l s).1).time = s.time ∧ ((makeSplice popen a b l s).1).inputs = s.inputs ∧
    ((makeSplice popen a b l s).1).geometry = s.geometry ∧ ((makeSplice popen a b l s).1).length = s.length ∧
    ((makeSplice popen a b l s).1).strobe = s.strobe ∧ ((makeSplice popen a b l s).1).motion = s.motion ∧
    ((makeSplice popen a b l s).1).plans = s.plans ∧ ((makeSplice popen a b l s).1).tracker = s.tracker ∧
    ((makeSplice popen a b l s).1).ports = s.ports ∧ ((makeSplice popen a b l s).1).free = s.free ∧
    ((makeSplice popen a b l s).1).pending = s.pending := by
  simp [makeSplice]

@[simp] theorem startJob_frame (j : JobParams) (t : TrackingSettings) (s : State) :
    (startJob j t s).time = s.time ∧ (startJob j t s).inputs = s.inputs ∧ (startJob j t s).geometry = s.geometry ∧
    (startJob j t s).plans = s.plans ∧ (startJob j t s).roll = s.roll ∧ (startJob j t s).ports = s.ports ∧
    (startJob j t s).alerts = s.alerts ∧ (startJob j t s).free = s.free ∧ (startJob j t s).pending = s.pending := by
  unfold startJob; simp

@[simp] theorem endJob_frame (s : State) :
    (endJob s).time = s.time ∧ (endJob s).inputs = s.inputs ∧ (endJob s).geometry = s.geometry ∧
    (endJob s).length = s.length ∧ (endJob s).strobe = s.strobe ∧ (endJob s).motion = s.motion ∧
    (endJob s).plans = s.plans ∧ (endJob s).roll = s.roll ∧ (endJob s).ports = s.ports ∧
    (endJob s).alerts = s.alerts ∧ (endJob s).free = s.free ∧ (endJob s).pending = s.pending := by
  unfold endJob; simp

@[simp] theorem swapPlans_frame (s : State) :
    (swapPlans s).time = s.time ∧ (swapPlans s).inputs = s.inputs ∧ (swapPlans s).geometry = s.geometry ∧
    (swapPlans s).length = s.length ∧ (swapPlans s).strobe = s.strobe ∧ (swapPlans s).motion = s.motion ∧
    (swapPlans s).queue = s.queue ∧ (swapPlans s).roll = s.roll ∧ (swapPlans s).tracker = s.tracker ∧
    (swapPlans s).stops = s.stops ∧ (swapPlans s).job = s.job ∧ (swapPlans s).ports = s.ports ∧
    (swapPlans s).free = s.free ∧ (swapPlans s).pending = s.pending := by
  unfold swapPlans; simp

@[simp] theorem takeSlot_frame (s : State) :
    ((takeSlot s).1).time = s.time ∧ ((takeSlot s).1).inputs = s.inputs ∧ ((takeSlot s).1).geometry = s.geometry ∧
    ((takeSlot s).1).length = s.length ∧ ((takeSlot s).1).strobe = s.strobe ∧ ((takeSlot s).1).motion = s.motion ∧
    ((takeSlot s).1).plans = s.plans ∧ ((takeSlot s).1).queue = s.queue ∧ ((takeSlot s).1).tracker = s.tracker ∧
    ((takeSlot s).1).stops = s.stops ∧ ((takeSlot s).1).job = s.job ∧ ((takeSlot s).1).ports = s.ports ∧
    ((takeSlot s).1).free = s.free ∧ ((takeSlot s).1).pending = s.pending := by
  unfold takeSlot
  dsimp only
  split <;> simp

@[simp] theorem placeSetEnd_frame (n start : Nat) (s : State) :
    ((placeSetEnd n start s).1).time = s.time ∧ ((placeSetEnd n start s).1).inputs = s.inputs ∧
    ((placeSetEnd n start s).1).geometry = s.geometry ∧ ((placeSetEnd n start s).1).length = s.length ∧
    ((placeSetEnd n start s).1).strobe = s.strobe ∧ ((placeSetEnd n start s).1).motion = s.motion ∧
    ((placeSetEnd n start s).1).plans = s.plans ∧ ((placeSetEnd n start s).1).roll = s.roll ∧
    ((placeSetEnd n start s).1).tracker = s.tracker ∧ ((placeSetEnd n start s).1).job = s.job ∧
    ((placeSetEnd n start s).1).ports = s.ports ∧ ((placeSetEnd n start s).1).free = s.free ∧
    ((placeSetEnd n start s).1).pending = s.pending := by
  unfold placeSetEnd; split <;> simp

@[simp] theorem startSet_frame (s : State) :
    ((startSet s).1).time = s.time ∧ ((startSet s).1).inputs = s.inputs ∧ ((startSet s).1).geometry = s.geometry ∧
    ((startSet s).1).length = s.length ∧ ((startSet s).1).strobe = s.strobe ∧ ((startSet s).1).motion = s.motion ∧
    ((startSet s).1).tracker = s.tracker ∧ ((startSet s).1).ports = s.ports ∧ ((startSet s).1).free = s.free ∧
    ((startSet s).1).pending = s.pending := by
  simp [startSet]

@[simp] theorem closeSet_frame (n : Nat) (set : SetRecord) (s : State) :
    ((closeSet n set s).1).time = s.time ∧ ((closeSet n set s).1).inputs = s.inputs ∧
    ((closeSet n set s).1).geometry = s.geometry ∧ ((closeSet n set s).1).length = s.length ∧
    ((closeSet n set s).1).strobe = s.strobe ∧ ((closeSet n set s).1).motion = s.motion ∧
    ((closeSet n set s).1).plans = s.plans ∧ ((closeSet n set s).1).tracker = s.tracker ∧
    ((closeSet n set s).1).ports = s.ports ∧ ((closeSet n set s).1).free = s.free ∧
    ((closeSet n set s).1).pending = s.pending := by
  have h : ∀ (l : List RegisterItem) (acc : State × (Nat × Nat)),
      (l.foldl returnCounted acc).1 = l.foldl returnRecord acc.1 := by
    intro l
    induction l with
    | nil => intro acc; rfl
    | cons x l ih => intro acc; simp [ih, returnCounted]
  have g : ∀ (l : List RegisterItem) (s : State), (l.foldl returnRecord s) =
      { s with queue := (l.foldl returnRecord s).queue, alerts := (l.foldl returnRecord s).alerts } := by
    intro l
    induction l with
    | nil => intro s; rfl
    | cons x l ih => intro s; simp only [List.foldl_cons]; rw [ih (returnRecord s x)]; simp
  unfold closeSet
  simp only [h]
  rw [g]
  simp

@[simp] theorem answerOffer_frame (o : StopOffer) (s : State) :
    ((answerOffer o s).1).time = s.time ∧ ((answerOffer o s).1).inputs = s.inputs ∧
    ((answerOffer o s).1).geometry = s.geometry ∧ ((answerOffer o s).1).length = s.length ∧
    ((answerOffer o s).1).strobe = s.strobe ∧ ((answerOffer o s).1).motion = s.motion ∧
    ((answerOffer o s).1).plans = s.plans ∧ ((answerOffer o s).1).roll = s.roll ∧
    ((answerOffer o s).1).tracker = s.tracker ∧ ((answerOffer o s).1).job = s.job ∧
    ((answerOffer o s).1).ports = s.ports ∧ ((answerOffer o s).1).free = s.free ∧
    ((answerOffer o s).1).pending = s.pending := by
  have h := offerStop_frame o s
  unfold answerOffer
  split <;> simp_all

@[simp] theorem State.withTarget_frame (s : State) (n : Nat) :
    (s.withTarget n).time = s.time ∧ (s.withTarget n).inputs = s.inputs ∧ (s.withTarget n).geometry = s.geometry ∧
    (s.withTarget n).length = s.length ∧ (s.withTarget n).strobe = s.strobe ∧ (s.withTarget n).motion = s.motion ∧
    (s.withTarget n).plans = s.plans ∧ (s.withTarget n).queue = s.queue ∧ (s.withTarget n).tracker = s.tracker ∧
    (s.withTarget n).stops = s.stops ∧ (s.withTarget n).ports = s.ports ∧ (s.withTarget n).alerts = s.alerts ∧
    (s.withTarget n).free = s.free ∧ (s.withTarget n).pending = s.pending := by
  simp [State.withTarget]

end Sys2Proof.Machine
end

