-- ==== Sys2Proof/Laws/Events.lean ====
section
/-! SUPPORT. Events: what a post does to a pending set, and that every operation keeps the station records sound (R186 to
R192). -/

namespace Sys2Proof.Machine

/-! ## Event codes -/

theorem EventKind.mem_all (k : EventKind) : k ∈ EventKind.all := by cases k <;> decide

theorem EventKind.code_injective {j k : EventKind} (h : j.code = k.code) : j = k := by
  have := (List.idxOf_inj (EventKind.mem_all j)).1 (Nat.succ.inj h)
  exact this

theorem EventKind.code_range (k : EventKind) : 1 ≤ k.code ∧ k.code ≤ 24 := by cases k <;> decide

@[simp] theorem EventKind.ofCode_code (k : EventKind) : EventKind.ofCode k.code = some k := by cases k <;> rfl

theorem EventKind.ofCode_eq_some {c : Nat} {k : EventKind} : EventKind.ofCode c = some k ↔ c = k.code := by
  constructor
  · intro h
    have hc : c ≤ 24 := by
      by_contra hc
      have : EventKind.ofCode c = none := by
        unfold EventKind.ofCode
        rw [if_neg (by omega)]
        exact List.getElem?_eq_none (by simp [EventKind.all]; omega)
      simp [this] at h
    interval_cases c <;> simp [EventKind.ofCode, EventKind.all] at h <;> subst h <;> decide
  · rintro rfl
    exact EventKind.ofCode_code k

theorem EventKind.ofCode_isSome {c : Nat} : (∃ k, EventKind.ofCode c = some k) ↔ 1 ≤ c ∧ c ≤ 24 := by
  constructor
  · rintro ⟨k, h⟩
    rw [EventKind.ofCode_eq_some] at h
    exact h ▸ k.code_range
  · rintro ⟨h1, h2⟩
    interval_cases c <;> exact ⟨_, rfl⟩

/-! ## The pending set (R186) -/

/-- A post counts its own kind once, from 1 and up to 255, and leaves every other kind as it was. -/
theorem mem_bumpPending {k : EventKind} {l : List (EventKind × Nat)} (h : l.Pairwise (fun a b => a.1.code < b.1.code))
    (j : EventKind) (n : Nat) :
    (j, n) ∈ bumpPending k l ↔
      (j ≠ k ∧ (j, n) ∈ l) ∨ (j = k ∧ ((∃ m, (k, m) ∈ l ∧ n = min (m + 1) 255) ∨ ((∀ m, (k, m) ∉ l) ∧ n = 1))) := by
  induction l with
  | nil => simp [bumpPending]
  | cons x l ih =>
    obtain ⟨i, c⟩ := x
    rw [List.pairwise_cons] at h
    unfold bumpPending
    have later : ∀ e ∈ l, e.1 ≠ i := by
      intro e he hi
      have := h.1 e he
      rw [hi] at this
      exact lt_irrefl _ this
    by_cases hik : i = k
    · subst hik
      rw [if_pos rfl]
      have none : ∀ m, (i, m) ∉ l := fun m hm => later _ hm rfl
      simp only [holdAt, List.mem_cons, Prod.mk.injEq]
      by_cases hj : j = i
      · subst hj; simp [none]
      · simp [hj]
    · rw [if_neg hik]
      split
      · rename_i hlt
        have none : ∀ m, (k, m) ∉ l := by
          intro m hm
          have := h.1 _ hm
          simp only at this
          omega
        by_cases hj : j = k
        · subst hj; simp [none, Ne.symm hik]
        · simp [hj]
      · simp only [List.mem_cons, Prod.mk.injEq, ih h.2]
        by_cases hj : j = k
        · subst hj; simp [Ne.symm hik]
        · simp [hj]

/-- The pending set keeps its order and its counts. -/
theorem bumpPending_sound {k : EventKind} {l : List (EventKind × Nat)} (h : l.Pairwise (fun a b => a.1.code < b.1.code))
    (hc : ∀ e ∈ l, 1 ≤ e.2 ∧ e.2 ≤ 255) :
    (bumpPending k l).Pairwise (fun a b => a.1.code < b.1.code) ∧ ∀ e ∈ bumpPending k l, 1 ≤ e.2 ∧ e.2 ≤ 255 := by
  induction l with
  | nil => simp [bumpPending]
  | cons x l ih =>
    obtain ⟨i, c⟩ := x
    have hp := h
    rw [List.pairwise_cons] at h
    have hc' : ∀ e ∈ l, 1 ≤ e.2 ∧ e.2 ≤ 255 := fun e he => hc e (List.mem_cons_of_mem _ he)
    unfold bumpPending
    split
    · refine ⟨List.pairwise_cons.2 ⟨h.1, h.2⟩, ?_⟩
      intro e he
      rcases List.mem_cons.1 he with rfl | he
      · have := hc (i, c) (by simp)
        simp only [holdAt] at *
        omega
      · exact hc' e he
    · rename_i hne
      split
      · rename_i hlt
        refine ⟨List.pairwise_cons.2 ⟨?_, hp⟩, ?_⟩
        · intro e he
          rcases List.mem_cons.1 he with rfl | he
          · exact hlt
          · exact lt_trans hlt (h.1 e he)
        · intro e he
          rcases List.mem_cons.1 he with rfl | he
          · simp
          · exact hc e he
      · rename_i hnlt
        have hik : i.code < k.code := by
          have : i.code ≠ k.code := fun e => hne (EventKind.code_injective e)
          omega
        refine ⟨List.pairwise_cons.2 ⟨?_, (ih h.2 hc').1⟩, ?_⟩
        · rintro ⟨j, n⟩ he
          rw [mem_bumpPending h.2] at he
          rcases he with ⟨-, he⟩ | ⟨rfl, -⟩
          · exact h.1 _ he
          · exact hik
        · intro e he
          rcases List.mem_cons.1 he with rfl | he
          · exact hc (i, c) (by simp)
          · exact (ih h.2 hc').2 e he

/-! ## The alert line (R187) -/

theorem Station.lineOf_iff (st : Station) :
    st.lineOf = true ↔
      (∃ e ∈ st.pending, e.1.urgent = true) ∨ (st.master = true ∧ ∃ e ∈ st.pending, e.1 ∈ st.enabled) := by
  simp only [Station.lineOf, List.any_eq_true, Bool.or_eq_true, Bool.and_eq_true, decide_eq_true_eq]
  constructor
  · rintro ⟨e, he, h | ⟨hm, h⟩⟩
    · exact .inl ⟨e, he, h⟩
    · exact .inr ⟨hm, e, he, h⟩
  · rintro (⟨e, he, h⟩ | ⟨hm, e, he, h⟩)
    · exact ⟨e, he, .inl h⟩
    · exact ⟨e, he, .inr ⟨hm, h⟩⟩

/-- Deciding the line makes a record sound whose other parts are. -/
theorem Station.decideLine_sound {st : Station} (hp : st.pending.Pairwise (fun a b => a.1.code < b.1.code))
    (hc : ∀ e ∈ st.pending, 1 ≤ e.2 ∧ e.2 ≤ 255) (he : ∀ k ∈ st.enabled, k.urgent = false) : st.decideLine.Sound :=
  ⟨hp, hc, he, st.lineOf_iff⟩

theorem Station.post_sound {st : Station} (k : EventKind) (h : st.Sound) : (st.post k).Sound :=
  Station.decideLine_sound (st := { st with pending := bumpPending k st.pending })
    (bumpPending_sound h.1 h.2.1).1 (bumpPending_sound h.1 h.2.1).2 h.2.2.1

/-! ## The station records of the part -/

/-- Two states with the same station records are sound together. -/
theorem State.AlertsSound.congr {s t : State} (h : s.AlertsSound) (e : t.alerts = s.alerts) : t.AlertsSound := by
  unfold State.AlertsSound at *
  rw [e]
  exact h

theorem State.AlertsSound.post {s : State} (h : s.AlertsSound) (k : EventKind) : (s.post k).AlertsSound :=
  ⟨Station.post_sound k h.1, Station.post_sound k h.2.1, Station.post_sound k h.2.2⟩

theorem State.AlertsSound.postIf {s : State} (h : s.AlertsSound) (c : Bool) (k : EventKind) :
    (s.postIf c k).AlertsSound := by
  unfold State.postIf
  split
  · exact h.post k
  · exact h

theorem State.AlertsSound.postAll {s : State} (h : s.AlertsSound) (ks : List EventKind) : (s.postAll ks).AlertsSound := by
  unfold State.postAll
  induction ks generalizing s with
  | nil => exact h
  | cons k ks ih => exact ih (h.post k)

/-- A change of one station record. -/
theorem State.AlertsSound.set {s : State} (h : s.AlertsSound) (p : Port) {st : Station} (hs : st.Sound) :
    State.AlertsSound { s with alerts := s.alerts.set p st } := by
  cases p
  · exact ⟨hs, h.2.1, h.2.2⟩
  · exact ⟨h.1, hs, h.2.2⟩
  · exact ⟨h.1, h.2.1, hs⟩

/-! ## Operations that only post -/

/-- Every change of the station records from `s` to `t` is a post (R186, R192). -/
def OnlyPosts (s t : State) : Prop := ∃ ks : List EventKind, t.alerts = ks.foldl (fun a k => a.map (Station.post k)) s.alerts

theorem OnlyPosts.of_eq {s t : State} (h : t.alerts = s.alerts) : OnlyPosts s t := ⟨[], h⟩

theorem OnlyPosts.trans {s t u : State} (h : OnlyPosts s t) (g : OnlyPosts t u) : OnlyPosts s u := by
  obtain ⟨ks, hk⟩ := h
  obtain ⟨js, hj⟩ := g
  exact ⟨ks ++ js, by rw [hj, hk, List.foldl_append]⟩

theorem OnlyPosts.then_eq {s t u : State} (h : OnlyPosts s t) (e : u.alerts = t.alerts) : OnlyPosts s u :=
  h.trans (.of_eq e)

theorem OnlyPosts.post (s : State) (k : EventKind) : OnlyPosts s (s.post k) := ⟨[k], rfl⟩

theorem OnlyPosts.postIf (s : State) (c : Bool) (k : EventKind) : OnlyPosts s (s.postIf c k) := by
  unfold State.postIf
  split
  · exact .post s k
  · exact .of_eq rfl

theorem OnlyPosts.postAll (s : State) (ks : List EventKind) : OnlyPosts s (s.postAll ks) := by
  unfold State.postAll
  induction ks generalizing s with
  | nil => exact .of_eq rfl
  | cons k ks ih => exact (OnlyPosts.post s k).trans (ih _)

/-- Posts keep the station records sound. -/
theorem OnlyPosts.sound {s t : State} (h : OnlyPosts s t) (hs : s.AlertsSound) : t.AlertsSound := by
  obtain ⟨ks, hk⟩ := h
  have key : ∀ (ks : List EventKind) (a : ByPort Station), (a.l.Sound ∧ a.i.Sound ∧ a.o.Sound) →
      ((ks.foldl (fun a k => a.map (Station.post k)) a).l.Sound ∧ (ks.foldl (fun a k => a.map (Station.post k)) a).i.Sound ∧
        (ks.foldl (fun a k => a.map (Station.post k)) a).o.Sound) := by
    intro ks
    induction ks with
    | nil => exact fun a h => h
    | cons k ks ih => exact fun a h => ih _ ⟨Station.post_sound k h.1, Station.post_sound k h.2.1, Station.post_sound k h.2.2⟩
  unfold State.AlertsSound
  rw [hk]
  exact key ks s.alerts hs

/-- Posts leave master enables and enable sets as they are. -/
theorem OnlyPosts.enables {s t : State} (h : OnlyPosts s t) (p : Port) :
    (t.alerts.get p).master = (s.alerts.get p).master ∧ (t.alerts.get p).enabled = (s.alerts.get p).enabled := by
  obtain ⟨ks, hk⟩ := h
  rw [hk]
  clear hk
  generalize s.alerts = a
  induction ks generalizing a with
  | nil => exact ⟨rfl, rfl⟩
  | cons k ks ih => simpa using ih (a.map (Station.post k))

end Sys2Proof.Machine
end

