-- ==== Sys2Proof/Laws/Lists.lean ====
section
/-! SUPPORT. The ordered lists: the queue in web order (R57) and the stop list in target order (R135), numbers passed over
(R56, R137), and the choice of arbitration (R141). -/

namespace Sys2Proof.Machine

/-! ## The path queue in web order (R57) -/

theorem placeRecord_perm (r : PathRecord) (l : List PathRecord) : (placeRecord r l).Perm (r :: l) := by
  induction l with
  | nil => exact .refl _
  | cons x l ih =>
    unfold placeRecord
    split
    · exact .refl _
    · exact (ih.cons x).trans (.swap r x l)

@[simp] theorem mem_placeRecord {r x : PathRecord} {l : List PathRecord} : x ∈ placeRecord r l ↔ x = r ∨ x ∈ l := by
  rw [(placeRecord_perm r l).mem_iff, List.mem_cons]

@[simp] theorem length_placeRecord (r : PathRecord) (l : List PathRecord) : (placeRecord r l).length = l.length + 1 :=
  (placeRecord_perm r l).length_eq

theorem PathRecord.before_trans {a b c : PathRecord} (h : a.before b = true) (g : b.before c = true) :
    a.before c = true := by
  simp only [PathRecord.before, decide_eq_true_eq] at *
  omega

/-- A record with a joining number of its own takes its place in a queue that is in order. -/
theorem placeRecord_sorted {r : PathRecord} {l : List PathRecord} (h : l.Pairwise (fun a b => a.before b = true))
    (hr : ∀ x ∈ l, x.joined ≠ r.joined) : (placeRecord r l).Pairwise (fun a b => a.before b = true) := by
  induction l with
  | nil => simp [placeRecord]
  | cons x l ih =>
    have h' := List.pairwise_cons.1 h
    unfold placeRecord
    split
    · rename_i hb
      refine List.pairwise_cons.2 ⟨fun y hy => ?_, h⟩
      rcases List.mem_cons.1 hy with rfl | hy
      · exact hb
      · exact PathRecord.before_trans hb (h'.1 y hy)
    · rename_i hb
      refine List.pairwise_cons.2 ⟨fun y hy => ?_, ih h'.2 (fun y hy => hr y (List.mem_cons_of_mem _ hy))⟩
      rcases mem_placeRecord.1 hy with rfl | hy
      · have := hr x List.mem_cons_self
        simp only [PathRecord.before, decide_eq_true_eq] at hb ⊢
        omega
      · exact h'.1 y hy

theorem sortRecords_perm (l : List PathRecord) : (sortRecords l).Perm l := by
  induction l with
  | nil => exact .refl _
  | cons x l ih => exact (placeRecord_perm x _).trans (ih.cons x)

theorem sortRecords_sorted {l : List PathRecord} (h : (l.map (·.joined)).Nodup) :
    (sortRecords l).Pairwise (fun a b => a.before b = true) := by
  induction l with
  | nil => exact .nil
  | cons x l ih =>
    rw [List.map_cons, List.nodup_cons] at h
    refine placeRecord_sorted (ih h.2) (fun y hy e => h.1 ?_)
    rw [← e]
    exact List.mem_map_of_mem ((sortRecords_perm l).mem_iff.1 hy)

/-! ## The stop list in target order (R135) -/

theorem placeStop_perm (e : StopEntry) (l : List StopEntry) : (placeStop e l).Perm (e :: l) := by
  induction l with
  | nil => exact .refl _
  | cons x l ih =>
    unfold placeStop
    split
    · exact .refl _
    · exact (ih.cons x).trans (.swap e x l)

@[simp] theorem mem_placeStop {e x : StopEntry} {l : List StopEntry} : x ∈ placeStop e l ↔ x = e ∨ x ∈ l := by
  rw [(placeStop_perm e l).mem_iff, List.mem_cons]

@[simp] theorem length_placeStop (e : StopEntry) (l : List StopEntry) : (placeStop e l).length = l.length + 1 :=
  (placeStop_perm e l).length_eq

theorem StopEntry.before_trans {a b c : StopEntry} (h : a.before b = true) (g : b.before c = true) :
    a.before c = true := by
  simp only [StopEntry.before, decide_eq_true_eq] at *
  omega

/-- An entry with an insertion number of its own takes its place in a list that is in order. -/
theorem placeStop_sorted {e : StopEntry} {l : List StopEntry} (h : l.Pairwise (fun a b => a.before b = true))
    (he : ∀ x ∈ l, x.insertion ≠ e.insertion) : (placeStop e l).Pairwise (fun a b => a.before b = true) := by
  induction l with
  | nil => simp [placeStop]
  | cons x l ih =>
    have h' := List.pairwise_cons.1 h
    unfold placeStop
    split
    · rename_i hb
      refine List.pairwise_cons.2 ⟨fun y hy => ?_, h⟩
      rcases List.mem_cons.1 hy with rfl | hy
      · exact hb
      · exact StopEntry.before_trans hb (h'.1 y hy)
    · rename_i hb
      refine List.pairwise_cons.2 ⟨fun y hy => ?_, ih h'.2 (fun y hy => he y (List.mem_cons_of_mem _ hy))⟩
      rcases mem_placeStop.1 hy with rfl | hy
      · have := he x List.mem_cons_self
        simp only [StopEntry.before, decide_eq_true_eq] at hb ⊢
        omega
      · exact h'.1 y hy

theorem sortStops_perm (l : List StopEntry) : (sortStops l).Perm l := by
  induction l with
  | nil => exact .refl _
  | cons x l ih => exact (placeStop_perm x _).trans (ih.cons x)

theorem sortStops_sorted {l : List StopEntry} (h : (l.map (·.insertion)).Nodup) :
    (sortStops l).Pairwise (fun a b => a.before b = true) := by
  induction l with
  | nil => exact .nil
  | cons x l ih =>
    rw [List.map_cons, List.nodup_cons] at h
    refine placeStop_sorted (ih h.2) (fun y hy e => h.1 ?_)
    rw [← e]
    exact List.mem_map_of_mem ((sortStops_perm l).mem_iff.1 hy)

/-! ## Numbers passed over (R56, R137) -/

theorem nextInCycle_range {top n : Nat} (h : 1 ≤ top) : 1 ≤ nextInCycle top n ∧ (n ≤ top → nextInCycle top n ≤ top) := by
  unfold nextInCycle
  split <;> omega

/-- With fewer numbers in use than there are, the number given is in range and not in use, and it is the next number itself
when that one is free. -/
theorem nextFree_spec {top : Nat} {used : List Nat} {n : Nat} (h1 : 1 ≤ n) (h2 : n ≤ top) (hl : used.length < top) :
    nextFree top used used.length n ∉ used ∧ 1 ≤ nextFree top used used.length n ∧
      nextFree top used used.length n ≤ top ∧ (n ∉ used → nextFree top used used.length n = n) := by
  have walk : ∀ (fuel : Nat) (n : Nat), 1 ≤ n → n ≤ top → fuel < top →
      (1 ≤ nextFree top used fuel n ∧ nextFree top used fuel n ≤ top) ∧
      (nextFree top used fuel n ∈ used → ∃ seen : List Nat, seen.Nodup ∧ seen.length = fuel + 1 ∧ (∀ x ∈ seen, x ∈ used) ∧
        ∀ x ∈ seen, 1 ≤ x ∧ x ≤ top ∧ ((n ≤ x ∧ x ≤ n + fuel) ∨ x + top ≤ n + fuel)) := by
    intro fuel
    induction fuel with
    | zero =>
      intro n h1 h2 _
      exact ⟨⟨h1, h2⟩, fun h => ⟨[n], by simp, rfl, by simpa [nextFree] using h, by simp; omega⟩⟩
    | succ f ih =>
      intro n h1 h2 hf
      unfold nextFree
      split
      · rename_i hn
        have hr := nextInCycle_range (top := top) (n := n) (by omega)
        obtain ⟨ha, hb⟩ := ih (nextInCycle top n) hr.1 (hr.2 h2) (by omega)
        refine ⟨ha, fun h => ?_⟩
        obtain ⟨seen, hs, hlen, hu, hrange⟩ := hb h
        refine ⟨n :: seen, List.nodup_cons.2 ⟨fun hm => ?_, hs⟩, by simp [hlen], ?_, ?_⟩
        · have := hrange n hm
          unfold nextInCycle at this
          split at this <;> omega
        · intro x hx
          rcases List.mem_cons.1 hx with rfl | hx
          · exact hn
          · exact hu x hx
        · intro x hx
          rcases List.mem_cons.1 hx with rfl | hx
          · omega
          · have := hrange x hx
            unfold nextInCycle at this
            split at this <;> omega
      · rename_i hn
        exact ⟨⟨h1, h2⟩, fun h => absurd h hn⟩
  obtain ⟨hr, hu⟩ := walk used.length n h1 h2 hl
  refine ⟨fun h => ?_, hr.1, hr.2, fun h => ?_⟩
  · obtain ⟨seen, hs, hlen, hsub, -⟩ := hu h
    have := (List.subperm_of_subset hs hsub).length_le
    omega
  · cases used with
    | nil => rfl
    | cons u us => exact if_neg h

/-! ## Arbitration (R141) -/

/-- The entry given up in a full list is WAITING and of a lower priority than the offer; no candidate has a lower priority,
and none of the same priority a greater target. With no candidate none is given up. -/
theorem victimOf_spec (priority : Nat) (l : List StopEntry) :
    (victimOf priority l = none ↔ ∀ e ∈ l, e.active = true ∨ priority ≤ e.kind.priority) ∧
    (∀ v, victimOf priority l = some v → v ∈ l ∧ v.active = false ∧ v.kind.priority < priority ∧
      ∀ e ∈ l, e.active = false → e.kind.priority < priority → v.kind.priority ≤ e.kind.priority ∧
        (v.kind.priority = e.kind.priority → e.target ≤ v.target)) := by
  generalize hc : l.filter (fun e => !e.active && decide (e.kind.priority < priority)) = c
  have hmem : ∀ e, e ∈ c ↔ e ∈ l ∧ e.active = false ∧ e.kind.priority < priority := by
    intro e
    rw [← hc, List.mem_filter]
    simp
  have hv : victimOf priority l = c.foldl
      (fun best e =>
        match best with
        | none => some e
        | some b =>
          if e.kind.priority < b.kind.priority ∨ (e.kind.priority = b.kind.priority ∧ b.target ≤ e.target) then some e
          else some b) none := by
    subst hc
    rfl
  rw [hv]
  have step : ∀ (c : List StopEntry) (b : StopEntry), ∃ v, c.foldl
      (fun best e =>
        match best with
        | none => some e
        | some b =>
          if e.kind.priority < b.kind.priority ∨ (e.kind.priority = b.kind.priority ∧ b.target ≤ e.target) then some e
          else some b) (some b) = some v ∧ (v = b ∨ v ∈ c) ∧
      ∀ e, e = b ∨ e ∈ c → v.kind.priority ≤ e.kind.priority ∧ (v.kind.priority = e.kind.priority → e.target ≤ v.target) := by
    intro c
    induction c with
    | nil => intro b; exact ⟨b, rfl, .inl rfl, by rintro e (rfl | h); exacts [⟨le_refl _, fun _ => le_refl _⟩, by cases h]⟩
    | cons x c ih =>
      intro b
      simp only [List.foldl_cons]
      split
      · rename_i hx
        obtain ⟨v, h1, h2, h3⟩ := ih x
        refine ⟨v, h1, by simp only [List.mem_cons]; tauto, ?_⟩
        have hvx := h3 x (.inl rfl)
        rintro e (rfl | he)
        · constructor
          · omega
          · intro h; omega
        · exact h3 e (by simpa using he)
      · rename_i hx
        obtain ⟨v, h1, h2, h3⟩ := ih b
        refine ⟨v, h1, by simp only [List.mem_cons]; tauto, ?_⟩
        have hvb := h3 b (.inl rfl)
        rintro e (rfl | he)
        · exact hvb
        · rcases List.mem_cons.1 he with rfl | he
          · constructor
            · omega
            · intro h; omega
          · exact h3 e (.inr he)
  cases c with
  | nil =>
    refine ⟨⟨fun _ e he => ?_, fun _ => rfl⟩, fun v h => by simp at h⟩
    by_contra hne
    push Not at hne
    have := (hmem e).2 ⟨he, by simpa using hne.1, hne.2⟩
    cases this
  | cons x c =>
    simp only [List.foldl_cons]
    obtain ⟨v, h1, h2, h3⟩ := step c x
    rw [h1]
    have hvc : v ∈ x :: c := by simp only [List.mem_cons]; tauto
    refine ⟨⟨fun h => by simp at h, fun h => ?_⟩, ?_⟩
    · have := (hmem v).1 hvc
      rcases h v this.1 with h | h
      · simp [this.2.1] at h
      · omega
    · rintro w hw
      rw [Option.some.injEq] at hw
      subst hw
      have := (hmem v).1 hvc
      refine ⟨this.1, this.2.1, this.2.2, fun e he ha hp => h3 e ?_⟩
      simpa using (hmem e).2 ⟨he, ha, hp⟩

end Sys2Proof.Machine
end

