-- ==== Sys2Proof/Laws/Queue.lean ====
section
/-! SUPPORT. The path queue: everything that an operation can do to it, one step at a time, and that each step keeps its order,
its capacity and the balance of its counters (R57, R73, R74). -/

namespace Sys2Proof.Machine

/-- One step of the path queue. -/
inductive QueueStep : PathQueue → PathQueue → Prop
  /-- Stop entry ids of records change (R63, R72). -/
  | ids {q : PathQueue} (f : PathRecord → PathRecord) (k : Nat)
      (hf : ∀ r, (f r).body = r.body ∧ (f r).slit = r.slit ∧ (f r).joined = r.joined) :
      QueueStep q (PathQueue.changed { q with records := q.records.map f } k)
  /-- An UPSTREAM record becomes SLIT (R48, R51). -/
  | slit {q : PathQueue} (r : PathRecord) (l : LaneRange) (hr : r ∈ q.records) (hu : r.slit = none) :
      QueueStep q (PathQueue.changed { q with records := q.records.map (fun x =>
        if x.joined = r.joined then { x with slit := some l } else x) } 1)
  /-- A record leaves and one counter counts it (R73). -/
  | gone {q : PathQueue} (r : PathRecord) (f : Flow → Flow) (hr : r ∈ q.records)
      (hf : f ∈ [Flow.addDelivered 1, Flow.addTrimmed 1, Flow.addRemoved 1, Flow.addUnmapped 1]) :
      QueueStep q { q.leave r with flow := f q.flow }
  /-- A record is taken in (R56, R57, R73). -/
  | taken {q : PathQueue} (b : RecordBody) (l : Option LaneRange) (n : Nat) (hl : q.records.length < 64) :
      QueueStep q { q.join b l with flow := q.flow.addTaken 1, nextNumber := n }
  /-- A record is handed back and joins (R70). -/
  | returned {q : PathQueue} (b : RecordBody) (l : Option LaneRange) (hl : q.records.length < 64) :
      QueueStep q { q.join b l with flow := q.flow.addReturned 1 }
  /-- A record is handed back to a full queue (R70). -/
  | lost {q : PathQueue} : QueueStep q { q with flow := (q.flow.addReturned 1).addUnmapped 1 }
  /-- The splice high mark changes (R64). -/
  | highMark {q : PathQueue} (h : Option Int) : QueueStep q { q with highMark := h }
  /-- The cut shift (R110). -/
  | shift {q : PathQueue} (popen cut : Nat) (table : Int) : QueueStep q (q.shift popen cut table)

/-- Any number of steps of the path queue. -/
abbrev QueueSteps : PathQueue → PathQueue → Prop := Relation.ReflTransGen QueueStep

/-- Order, capacity and joining numbers (R57). -/
def PathQueue.InOrder (q : PathQueue) : Prop :=
  q.records.length ≤ 64 ∧ q.records.Pairwise (fun a b => a.before b = true) ∧ (q.records.map (·.joined)).Nodup ∧
  ∀ r ∈ q.records, r.joined < q.nextJoin

theorem PathQueue.InOrder.map {q : PathQueue} (h : q.InOrder) (f : PathRecord → PathRecord) (k : Nat)
    (hf : ∀ r, (f r).body = r.body ∧ (f r).joined = r.joined) :
    PathQueue.InOrder (PathQueue.changed { q with records := q.records.map f } k) := by
  obtain ⟨h1, h2, h3, h4⟩ := h
  refine ⟨by simpa using h1, ?_, ?_, ?_⟩
  · refine List.pairwise_map.2 (h2.imp ?_)
    intro a b hab
    simpa only [PathRecord.before, (hf a).1, (hf a).2, (hf b).1, (hf b).2] using hab
  · have : (q.records.map f).map (·.joined) = q.records.map (·.joined) := by
      rw [List.map_map]
      exact List.map_congr_left (fun x _ => (hf x).2)
    simpa only [PathQueue.changed_records, this] using h3
  · intro r hr
    obtain ⟨x, hx, rfl⟩ := List.mem_map.1 hr
    rw [(hf x).2]
    exact h4 x hx

theorem PathQueue.InOrder.leave {q : PathQueue} (h : q.InOrder) (r : PathRecord) (f : Flow) :
    PathQueue.InOrder { q.leave r with flow := f } := by
  obtain ⟨h1, h2, h3, h4⟩ := h
  exact ⟨le_trans (List.length_filter_le _ _) h1, h2.filter _, h3.sublist (List.filter_sublist.map _),
    fun x hx => h4 x (List.mem_of_mem_filter hx)⟩

theorem PathQueue.InOrder.join {q : PathQueue} (h : q.InOrder) (hl : q.records.length < 64) (b : RecordBody)
    (l : Option LaneRange) (f : Flow) (n : Nat) :
    PathQueue.InOrder { q.join b l with flow := f, nextNumber := n } := by
  obtain ⟨h1, h2, h3, h4⟩ := h
  have hnew : ∀ x ∈ q.records, x.joined ≠ q.nextJoin := fun x hx => by have := h4 x hx; omega
  refine ⟨by simp; omega, placeRecord_sorted h2 hnew, ?_, ?_⟩
  · show ((q.join b l).records.map (·.joined)).Nodup
    rw [PathQueue.join_records, ((placeRecord_perm _ _).map _).nodup_iff, List.map_cons, List.nodup_cons]
    refine ⟨fun hm => ?_, h3⟩
    obtain ⟨x, hx, he⟩ := List.mem_map.1 hm
    exact hnew x hx he
  · intro r hr
    show r.joined < q.nextJoin + 1
    rcases mem_placeRecord.1 hr with rfl | hr
    · exact Nat.lt_succ_self _
    · exact Nat.lt_succ_of_lt (h4 r hr)

theorem PathQueue.InOrder.shift {q : PathQueue} (h : q.InOrder) (popen cut : Nat) (table : Int) :
    PathQueue.InOrder (q.shift popen cut table) := by
  obtain ⟨h1, h2, h3, h4⟩ := h
  unfold PathQueue.shift
  dsimp only
  generalize hf : (fun r : PathRecord => if onHeldSide popen table r.body.web = true then
    { r with body := r.body.shift cut } else r) = f
  have hj : ∀ r, (f r).joined = r.joined := fun r => by subst hf; dsimp only; split <;> rfl
  have hp := sortRecords_perm (q.records.map f)
  have e : (q.records.map f).map (·.joined) = q.records.map (·.joined) := by
    rw [List.map_map]
    exact List.map_congr_left (fun x _ => hj x)
  refine ⟨?_, sortRecords_sorted (by rw [e]; exact h3), ?_, ?_⟩
  · rw [PathQueue.changed_records, hp.length_eq, List.length_map]
    exact h1
  · rw [PathQueue.changed_records, (hp.map _).nodup_iff, e]
    exact h3
  · intro r hr
    rw [PathQueue.changed_records, hp.mem_iff] at hr
    obtain ⟨x, hx, rfl⟩ := List.mem_map.1 hr
    rw [hj]
    exact h4 x hx

theorem QueueStep.inOrder {q q' : PathQueue} (h : QueueStep q q') (hq : q.InOrder) : q'.InOrder := by
  cases h with
  | ids f k hf => exact hq.map f k (fun r => ⟨(hf r).1, (hf r).2.2⟩)
  | slit r l _ _ => exact hq.map _ 1 (fun x => by split <;> exact ⟨rfl, rfl⟩)
  | gone r f _ _ => exact hq.leave r _
  | taken b l n hl => exact hq.join hl b l _ n
  | returned b l hl => exact hq.join hl b l _ q.nextNumber
  | lost => exact hq
  | highMark _ => exact hq
  | shift popen cut table => exact hq.shift popen cut table

/-- A record of the queue is the only one that leaves with it. -/
theorem PathQueue.InOrder.length_leave {q : PathQueue} (h : q.InOrder) {r : PathRecord} (hr : r ∈ q.records) :
    (q.leave r).records.length + 1 = q.records.length := by
  have hsub : (r :: q.records.filter (fun x => decide (x.joined ≠ r.joined))).Perm q.records := by
    refine (List.perm_ext_iff_of_nodup ?_ (List.Nodup.of_map _ h.2.2.1)).2 ?_
    · exact List.nodup_cons.2 ⟨by simp, (List.Nodup.of_map _ h.2.2.1).filter _⟩
    · intro x
      simp only [List.mem_cons, List.mem_filter, decide_eq_true_eq]
      constructor
      · rintro (rfl | ⟨hx, -⟩)
        · exact hr
        · exact hx
      · intro hx
        by_cases hj : x.joined = r.joined
        · exact .inl (List.inj_on_of_nodup_map h.2.2.1 hx hr hj)
        · exact .inr ⟨hx, hj⟩
  have := hsub.length_eq
  rwa [List.length_cons] at this

theorem PathQueue.length_shift (q : PathQueue) (popen cut : Nat) (table : Int) :
    (q.shift popen cut table).records.length = q.records.length := by
  unfold PathQueue.shift
  rw [PathQueue.changed_records, (sortRecords_perm _).length_eq, List.length_map]

theorem QueueStep.balanced {q q' : PathQueue} (h : QueueStep q q') (ho : q.InOrder) (hq : q.Balanced) : q'.Balanced := by
  unfold PathQueue.Balanced at *
  cases h with
  | ids f k hf => simpa using hq
  | slit r l _ _ => simpa using hq
  | gone r f hr hf =>
    have hlen := ho.length_leave hr
    simp only [List.mem_cons, List.not_mem_nil, or_false] at hf
    rcases hf with rfl | rfl | rfl | rfl <;>
      simp only [Flow.addDelivered, Flow.addTrimmed, Flow.addRemoved, Flow.addUnmapped, wrap32] <;> omega
  | taken b l n hl =>
    have hlen : (q.join b l).records.length = q.records.length + 1 := by simp
    simp only [Flow.addTaken, wrap32]
    omega
  | returned b l hl =>
    have hlen : (q.join b l).records.length = q.records.length + 1 := by simp
    simp only [Flow.addReturned, wrap32]
    omega
  | lost =>
    simp only [Flow.addReturned, Flow.addUnmapped, wrap32]
    omega
  | highMark _ => exact hq
  | shift popen cut table =>
    rw [PathQueue.length_shift]
    exact hq

theorem QueueSteps.inOrder {q q' : PathQueue} (h : QueueSteps q q') (hq : q.InOrder) : q'.InOrder := by
  induction h with
  | refl => exact hq
  | tail _ hs ih => exact hs.inOrder ih

theorem QueueSteps.balanced {q q' : PathQueue} (h : QueueSteps q q') (ho : q.InOrder) (hq : q.Balanced) : q'.Balanced := by
  induction h with
  | refl => exact hq
  | tail hqs hs ih => exact hs.balanced (QueueSteps.inOrder hqs ho) ih

end Sys2Proof.Machine
end

