-- ==== Sys2Proof/Laws/Stops.lean ====
section
/-! SUPPORT. The stop list: what each operation of the planner does to it, that it keeps its order, size and ids (R135, R137),
and that no entry stays ACTIVE at standstill or becomes ACTIVE during a cut (R143). -/

namespace Sys2Proof.Machine

/-! ## Order, size and ids -/

/-- The list under a change of its entries that keeps their ids, targets and insertion numbers. -/
theorem StopPlanner.Sound.map {pl : StopPlanner} (h : pl.Sound) (f : StopEntry → StopEntry) (k : Nat)
    (hf : ∀ x ∈ pl.entries, (f x).id = x.id ∧ (f x).target = x.target ∧ (f x).insertion = x.insertion)
    (hc : (pl.entries.map f).countP (·.active) ≤ 1) :
    (StopPlanner.changed { pl with entries := pl.entries.map f } k).Sound := by
  obtain ⟨h1, h2, h3, h4, h5, h6, -⟩ := h
  have e1 : (pl.entries.map f).map (·.id) = pl.entries.map (·.id) := by
    rw [List.map_map]
    exact List.map_congr_left (fun x hx => (hf x hx).1)
  have e2 : (pl.entries.map f).map (·.insertion) = pl.entries.map (·.insertion) := by
    rw [List.map_map]
    exact List.map_congr_left (fun x hx => (hf x hx).2.2)
  refine ⟨by simpa using h1, ?_, by simpa only [e1, StopPlanner.changed_entries] using h3,
    by simpa only [e2, StopPlanner.changed_entries] using h4, ?_, h6, hc⟩
  · refine List.pairwise_map.2 (h2.imp_of_mem ?_)
    intro a b ha hb hab
    simp only [StopEntry.before, (hf a ha).2, (hf b hb).2] at *
    exact hab
  · intro e he
    obtain ⟨x, hx, rfl⟩ := List.mem_map.1 he
    rw [(hf x hx).1, (hf x hx).2.2]
    exact h5 x hx

/-- The list without some of its entries. -/
theorem StopPlanner.Sound.filter {pl : StopPlanner} (h : pl.Sound) (p : StopEntry → Bool) (k : Nat) :
    (StopPlanner.changed { pl with entries := pl.entries.filter p } k).Sound := by
  obtain ⟨h1, h2, h3, h4, h5, h6, h7⟩ := h
  exact ⟨le_trans (List.length_filter_le _ _) h1, h2.filter _, h3.sublist (List.filter_sublist.map _),
    h4.sublist (List.filter_sublist.map _), fun e he => h5 e (List.mem_of_mem_filter he), h6,
    le_trans (List.filter_sublist.countP_le) h7⟩

/-- Of two entries with the same id one list holds only one. -/
theorem StopPlanner.Sound.id_unique {pl : StopPlanner} (h : pl.Sound) {a b : StopEntry} (ha : a ∈ pl.entries)
    (hb : b ∈ pl.entries) (hid : a.id = b.id) : a = b :=
  List.inj_on_of_nodup_map h.2.2.1 ha hb hid

/-- A WAITING entry with the next free id, the next insertion number and its place in target order. -/
theorem StopPlanner.Sound.insert {pl : StopPlanner} (h : pl.Sound) (hl : pl.entries.length < 16) (o : StopOffer) (k : Nat) :
    (StopPlanner.changed
      { pl with entries := placeStop (o.entry pl.freshId pl.insertions) pl.entries,
                nextId := nextInCycle 255 pl.freshId, insertions := pl.insertions + 1 } k).Sound := by
  obtain ⟨h1, h2, h3, h4, h5, h6, h7⟩ := h
  have hid := nextFree_spec (top := 255) (used := pl.entries.map (·.id)) h6.1 h6.2 (by simp; omega)
  rw [List.length_map] at hid
  have hnew : ∀ x ∈ pl.entries, x.insertion ≠ pl.insertions := fun x hx => by have := h5 x hx; omega
  refine ⟨by simp; omega, placeStop_sorted h2 hnew, ?_, ?_, ?_, ?_, ?_⟩
  · rw [StopPlanner.changed_entries, ((placeStop_perm _ _).map _).nodup_iff, List.map_cons, List.nodup_cons]
    exact ⟨hid.1, h3⟩
  · rw [StopPlanner.changed_entries, ((placeStop_perm _ _).map _).nodup_iff, List.map_cons, List.nodup_cons]
    refine ⟨fun hm => ?_, h4⟩
    obtain ⟨x, hx, he⟩ := List.mem_map.1 hm
    exact hnew x hx he
  · intro e he
    rw [StopPlanner.changed_insertions]
    rw [StopPlanner.changed_entries, mem_placeStop] at he
    rcases he with rfl | he
    · exact ⟨hid.2.1, hid.2.2.1, Nat.lt_succ_self _⟩
    · have := h5 e he
      exact ⟨this.1, this.2.1, Nat.lt_succ_of_lt this.2.2⟩
  · exact ⟨(nextInCycle_range (by norm_num)).1, (nextInCycle_range (by norm_num)).2 hid.2.2.1⟩
  · rw [StopPlanner.changed_entries, (placeStop_perm _ _).countP_eq, List.countP_cons]
    simpa [StopOffer.entry] using h7

/-- An entry that keeps its id and its mark takes a fresh insertion number and a new place. -/
theorem StopPlanner.Sound.move {pl : StopPlanner} (h : pl.Sound) {e : StopEntry} (he : e ∈ pl.entries) (web target : Int)
    (k : Nat) :
    (StopPlanner.changed
      { pl with entries := placeStop { e with web := web, target := target, insertion := pl.insertions }
                  (pl.entries.filter (fun x => decide (x.id ≠ e.id))),
                insertions := pl.insertions + 1 } k).Sound := by
  have hid := fun x hx => h.id_unique (a := x) (b := e) hx he
  have hall := h
  obtain ⟨h1, h2, h3, h4, h5, h6, h7⟩ := h
  have hsub : (e :: pl.entries.filter (fun x => decide (x.id ≠ e.id))).Subperm pl.entries := by
    refine List.subperm_of_subset ?_ ?_
    · refine List.nodup_cons.2 ⟨by simp, (List.Nodup.of_map _ h3).filter _⟩
    · intro x hx
      rcases List.mem_cons.1 hx with rfl | hx
      · exact he
      · exact List.mem_of_mem_filter hx
  have hnew : ∀ x ∈ pl.entries.filter (fun x => decide (x.id ≠ e.id)), x.insertion ≠ pl.insertions := fun x hx => by
    have := h5 x (List.mem_of_mem_filter hx)
    omega
  have hlen := hsub.length_le
  simp only [List.length_cons] at hlen
  refine ⟨?_, placeStop_sorted (h2.filter _) hnew, ?_, ?_, ?_, h6, ?_⟩
  · rw [StopPlanner.changed_entries, length_placeStop]
    omega
  · rw [StopPlanner.changed_entries, ((placeStop_perm _ _).map _).nodup_iff, List.map_cons, List.nodup_cons]
    refine ⟨fun hm => ?_, h3.sublist (List.filter_sublist.map _)⟩
    obtain ⟨x, hx, hxe⟩ := List.mem_map.1 hm
    have := (List.mem_filter.1 hx).2
    simp only [decide_eq_true_eq] at this
    exact this hxe
  · rw [StopPlanner.changed_entries, ((placeStop_perm _ _).map _).nodup_iff, List.map_cons, List.nodup_cons]
    refine ⟨fun hm => ?_, h4.sublist (List.filter_sublist.map _)⟩
    obtain ⟨x, hx, hxe⟩ := List.mem_map.1 hm
    exact hnew x hx hxe
  · intro x hx
    rw [StopPlanner.changed_insertions]
    rw [StopPlanner.changed_entries, mem_placeStop] at hx
    rcases hx with rfl | hx
    · exact ⟨(h5 e he).1, (h5 e he).2.1, Nat.lt_succ_self _⟩
    · have := h5 x (List.mem_of_mem_filter hx)
      exact ⟨this.1, this.2.1, Nat.lt_succ_of_lt this.2.2⟩
  · rw [StopPlanner.changed_entries, (placeStop_perm _ _).countP_eq, List.countP_cons]
    have := hsub.countP_le (·.active)
    rw [List.countP_cons] at this
    exact le_trans this h7

/-- The list after a cut shift (R112). -/
theorem StopPlanner.Sound.shift {pl : StopPlanner} (h : pl.Sound) (f : StopEntry → StopEntry) (k : Nat)
    (hf : ∀ x, (f x).id = x.id ∧ (f x).insertion = x.insertion ∧ (f x).active = x.active) :
    (StopPlanner.changed { pl with entries := sortStops (pl.entries.map f) } k).Sound := by
  obtain ⟨h1, h2, h3, h4, h5, h6, h7⟩ := h
  have hp := sortStops_perm (pl.entries.map f)
  have e1 : (pl.entries.map f).map (·.id) = pl.entries.map (·.id) := by
    rw [List.map_map]; exact List.map_congr_left (fun x _ => (hf x).1)
  have e2 : (pl.entries.map f).map (·.insertion) = pl.entries.map (·.insertion) := by
    rw [List.map_map]; exact List.map_congr_left (fun x _ => (hf x).2.1)
  refine ⟨?_, sortStops_sorted (by rw [e2]; exact h4), ?_, ?_, ?_, h6, ?_⟩
  · rw [StopPlanner.changed_entries, hp.length_eq, List.length_map]
    exact h1
  · rw [StopPlanner.changed_entries, (hp.map _).nodup_iff, e1]
    exact h3
  · rw [StopPlanner.changed_entries, (hp.map _).nodup_iff, e2]
    exact h4
  · intro x hx
    rw [StopPlanner.changed_entries, hp.mem_iff] at hx
    obtain ⟨y, hy, rfl⟩ := List.mem_map.1 hx
    rw [(hf y).1, (hf y).2.1]
    exact h5 y hy
  · rw [StopPlanner.changed_entries, hp.countP_eq, List.countP_map]
    have : ((fun x : StopEntry => x.active) ∘ f) = (·.active) := funext fun x => (hf x).2.2
    rw [this]
    exact h7

/-! ## Removal, activation and completion -/

theorem removeStop_stops (e : StopEntry) (s : State) :
    (removeStop e s).stops =
      StopPlanner.changed { s.stops with entries := s.stops.entries.filter (fun x => decide (x.id ≠ e.id)) } 1 := by
  unfold removeStop
  dsimp only
  split
  · unfold clearStopId
    split <;> simp
  · simp

theorem removeStop_sound {s : State} (e : StopEntry) (h : s.stops.Sound) : (removeStop e s).stops.Sound := by
  rw [removeStop_stops]
  exact h.filter _ _

theorem removeStop_length {s : State} {e : StopEntry} (he : e ∈ s.stops.entries) :
    (removeStop e s).stops.entries.length < s.stops.entries.length := by
  rw [removeStop_stops]
  exact List.length_filter_lt_length_iff_exists.2 ⟨e, he, by simp⟩

theorem activateStop_stops (e : StopEntry) (s : State) :
    (activateStop e s).stops =
      StopPlanner.changed { s.stops with entries := replaceStop (s.activated e) s.stops.entries } 1 := by
  simp [activateStop]

theorem activateStop_sound {s : State} {e : StopEntry} (he : e ∈ s.stops.entries) (hn : s.stops.activeEntry = none)
    (h : s.stops.Sound) : (activateStop e s).stops.Sound := by
  rw [activateStop_stops]
  have hid : ∀ x ∈ s.stops.entries, x.id = e.id → x = e := fun x hx hxe => h.id_unique hx he hxe
  refine h.map _ _ (fun x hx => ?_) ?_
  · split
    · rename_i hx'
      rw [hid x hx hx']
      exact ⟨rfl, rfl, rfl⟩
    · exact ⟨rfl, rfl, rfl⟩
  · rw [List.countP_map]
    have hle : s.stops.entries.countP ((fun x : StopEntry => x.active) ∘
        fun x => if x.id = (s.activated e).id then s.activated e else x) ≤ s.stops.entries.countP (fun x => x.id == e.id) := by
      refine List.countP_mono_left (fun x hx hxa => ?_)
      have hna := List.find?_eq_none.1 hn x hx
      by_contra hne
      simp only [beq_iff_eq] at hne
      simp only [Function.comp_apply] at hxa
      rw [if_neg (show ¬x.id = (s.activated e).id from hne)] at hxa
      exact hna hxa
    have hcount : s.stops.entries.countP (fun x => x.id == e.id) = (s.stops.entries.map (·.id)).count e.id := by
      rw [List.count, List.countP_map]
      rfl
    have := List.nodup_iff_count_le_one.1 h.2.2.1 e.id
    omega

theorem overrunTest_sound {s : State} {e : StopEntry} (he : e ∈ s.stops.entries) (h : s.stops.Sound) :
    (overrunTest e s).stops.Sound := by
  unfold overrunTest
  split
  · simp only [State.post_stops, State.withStops_stops]
    have hid : ∀ x ∈ s.stops.entries, x.id = e.id → x = e := fun x hx hxe => h.id_unique hx he hxe
    refine h.map _ _ (fun x hx => ?_) ?_
    · split
      · rename_i hx'
        rw [hid x hx hx']
        exact ⟨rfl, rfl, rfl⟩
      · exact ⟨rfl, rfl, rfl⟩
    · rw [List.countP_map]
      refine le_trans (List.countP_mono_left (fun x hx hxa => ?_)) h.2.2.2.2.2.2
      simp only [Function.comp_apply] at hxa
      split at hxa
      · rename_i hx'
        rw [hid x hx hx']
        exact hxa
      · exact hxa
  · exact h

theorem completeStop_stops (e : StopEntry) (late : Bool) (short : Nat) (s : State) :
    (completeStop e late short s).stops =
      StopPlanner.changed
        { s.stops with
          entries := s.stops.entries.filter (fun x => decide (x.id ≠ e.id))
          lastStop := some (s.stopRecord e late short) } 1 := by
  simp [completeStop, removeStop_stops, StopPlanner.changed]

theorem completeStop_sound {s : State} (e : StopEntry) (late : Bool) (short : Nat) (h : s.stops.Sound) :
    (completeStop e late short s).stops.Sound := by
  rw [completeStop_stops]
  exact StopPlanner.Sound.filter (pl := { s.stops with lastStop := some (s.stopRecord e late short) }) h _ _

/-- The sweep only takes entries out. -/
theorem sweepStops_sublist (fuel : Nat) (s : State) : (sweepStops fuel s).stops.entries.Sublist s.stops.entries := by
  induction fuel generalizing s with
  | zero => exact .refl _
  | succ n ih =>
    unfold sweepStops
    split
    · exact .refl _
    · refine (ih _).trans ?_
      rw [completeStop_stops]
      exact List.filter_sublist

theorem sweepStops_sound {s : State} (fuel : Nat) (h : s.stops.Sound) : (sweepStops fuel s).stops.Sound := by
  induction fuel generalizing s with
  | zero => exact h
  | succ n ih =>
    unfold sweepStops
    split
    · exact h
    · exact ih (completeStop_sound _ _ _ h)

/-- A completion takes its entry out, and nothing comes in. -/
theorem completeAndSweep_sublist (e : StopEntry) (s : State) :
    (completeAndSweep e s).stops.entries.Sublist (s.stops.entries.filter (fun x => decide (x.id ≠ e.id))) := by
  refine (sweepStops_sublist _ _).trans ?_
  rw [completeStop_stops]
  exact .refl _

theorem completeAndSweep_length {e : StopEntry} {s : State} (he : ∃ x ∈ s.stops.entries, x.id = e.id) :
    (completeAndSweep e s).stops.entries.length < s.stops.entries.length := by
  refine lt_of_le_of_lt (completeAndSweep_sublist e s).length_le ?_
  obtain ⟨x, hx, hxe⟩ := he
  exact List.length_filter_lt_length_iff_exists.2 ⟨x, hx, by simp [hxe]⟩

theorem completeAndSweep_sound {s : State} (e : StopEntry) (h : s.stops.Sound) : (completeAndSweep e s).stops.Sound :=
  sweepStops_sound _ (completeStop_sound _ _ _ h)

/-! ## Evaluation (R143) -/

theorem activeEntry_mem {pl : StopPlanner} {e : StopEntry} (h : pl.activeEntry = some e) : e ∈ pl.entries ∧ e.active = true :=
  ⟨List.mem_of_find?_eq_some h, List.find?_some h⟩

theorem evaluatePasses_sound {s : State} (fuel : Nat) (h : s.stops.Sound) : (evaluatePasses fuel s).stops.Sound := by
  induction fuel generalizing s with
  | zero => exact h
  | succ n ih =>
    unfold evaluatePasses
    split
    · rename_i e he
      split
      · exact ih (completeAndSweep_sound _ h)
      · exact overrunTest_sound (activeEntry_mem he).1 h
    · rename_i hn
      split
      · exact h
      · rename_i e he
        have he' := List.mem_of_mem_head? he
        split
        · split
          · exact ih (completeAndSweep_sound _ (activateStop_sound he' hn h))
          · exact activateStop_sound he' hn h
        · exact h

theorem evaluate_sound {s : State} (h : s.stops.Sound) : (evaluate s).stops.Sound := by
  unfold evaluate
  split
  · exact h
  · exact evaluatePasses_sound _ h

/-- An evaluation at standstill leaves no entry ACTIVE, with as many passes as entries and one more. -/
theorem evaluatePasses_quiet {s : State} (fuel : Nat) (hs : s.motion.standstill = true)
    (hf : s.stops.entries.length < fuel) : (evaluatePasses fuel s).stopAsserted = false := by
  induction fuel generalizing s with
  | zero => omega
  | succ n ih =>
    unfold evaluatePasses
    split
    · rename_i e he
      rw [if_pos hs]
      refine ih (by simpa using hs) ?_
      have := completeAndSweep_length (s := s) (e := e) ⟨e, (activeEntry_mem he).1, rfl⟩
      omega
    · rename_i hn
      have hquiet : s.stopAsserted = false := by
        unfold State.stopAsserted
        rw [List.any_eq_false]
        intro x hx
        simpa using List.find?_eq_none.1 hn x hx
      split
      · exact hquiet
      · rename_i e he
        split
        · refine ih (by simpa using hs) ?_
          have hlen : (activateStop e s).stops.entries.length = s.stops.entries.length := by
            rw [activateStop_stops]
            simp [replaceStop]
          have : ∃ x ∈ (activateStop e s).stops.entries, x.id = (s.activated e).id := by
            rw [activateStop_stops]
            refine ⟨s.activated e, ?_, rfl⟩
            simp only [StopPlanner.changed_entries, replaceStop, List.mem_map]
            exact ⟨e, List.mem_of_mem_head? he, if_pos rfl⟩
          have := completeAndSweep_length this
          omega
        · exact hquiet

/-- No entry is ACTIVE at standstill, nor while a cut is open (R107, R143). -/
def Quiet (s : State) : Prop := (s.motion.standstill = true ∨ s.job.state.isCutOpen = true) → s.stopAsserted = false

theorem Quiet.congr {s t : State} (h : Quiet s) (e1 : t.stops = s.stops) (e2 : t.motion = s.motion) (e3 : t.job = s.job) :
    Quiet t := by
  unfold Quiet State.stopAsserted at *
  rw [e1, e2, e3]
  exact h

/-- An evaluation outside a cut makes a state quiet; during a cut it does nothing. -/
theorem evaluate_quiet_of {s : State} (h : s.job.state.isCutOpen = true → s.stopAsserted = false) : Quiet (evaluate s) := by
  intro hq
  simp only [evaluate_frame] at hq
  unfold evaluate
  split
  · rename_i hc
    exact h hc
  · rename_i hc
    rcases hq with hq | hq
    · exact evaluatePasses_quiet _ hq (Nat.lt_succ_self _)
    · exact absurd hq hc

theorem evaluate_quiet {s : State} (h : Quiet s) : Quiet (evaluate s) := evaluate_quiet_of (fun hc => h (.inr hc))

/-- Every ACTIVE entry of `t` was an ACTIVE entry of `s`. -/
theorem quiet_of_subset {s t : State} (h : Quiet s) (e2 : t.motion = s.motion) (e3 : t.job = s.job)
    (hs : ∀ x ∈ t.stops.entries, x.active = true → ∃ y ∈ s.stops.entries, y.active = true) : Quiet t := by
  intro hq
  rw [e2, e3] at hq
  have := h hq
  unfold State.stopAsserted at *
  rw [List.any_eq_false] at *
  intro x hx hxa
  obtain ⟨y, hy, hya⟩ := hs x hx hxa
  exact this y hy hya

theorem removeStop_quiet {s : State} (e : StopEntry) (h : Quiet s) : Quiet (removeStop e s) := by
  refine quiet_of_subset h (by simp) (by simp) (fun x hx ha => ⟨x, ?_, ha⟩)
  rw [removeStop_stops] at hx
  exact List.mem_of_mem_filter hx

/-! ## The list before an evaluation, in the terms of Safety.lean -/

/-- An entry younger than every other takes its place behind the targets up to its own. -/
theorem placeStop_eq_placedIn {e : StopEntry} {l : List StopEntry} (h : ∀ x ∈ l, x.insertion < e.insertion) :
    placeStop e l = e.placedIn l := by
  induction l with
  | nil => rfl
  | cons x rest ih =>
    have hx := h x (by simp)
    have ih := ih (fun y hy => h y (by simp [hy]))
    by_cases hle : x.target ≤ e.target
    · have : e.before x = false := by simp [StopEntry.before]; omega
      simp [placeStop, this, ih, StopEntry.placedIn, hle]
    · have : e.before x = true := by simp [StopEntry.before]; omega
      simp [placeStop, this, StopEntry.placedIn, hle]

/-- With no record picked the queue stands. -/
theorem withStopId_none {q : PathQueue} {which : PathRecord → Bool} (id : Option Nat) (h : q.records.any which = false) :
    q.withStopId which id = q := by
  have hm : q.records.map (fun r => if which r then { r with stopId := id } else r) = q.records := by
    rw [List.any_eq_false] at h
    conv_rhs => rw [← List.map_id q.records]
    exact List.map_congr_left (fun r hr => by simp [h r hr])
  simp [PathQueue.withStopId, h, hm]

/-- With a record picked the change count rises. -/
theorem withStopId_some {q : PathQueue} {which : PathRecord → Bool} (id : Option Nat) (h : q.records.any which = true) :
    q.withStopId which id = PathQueue.changed
      { q with records := q.records.map (fun r => if which r then { r with stopId := id } else r) } 1 := by
  simp [PathQueue.withStopId, h, PathQueue.changed, wrap16]

/-- A record gives up an id as in Safety.lean. -/
theorem clearStopId_eq (n id : Nat) (s : State) : clearStopId n id s =
    { s with queue := s.queue.withStopId (fun r => decide (r.body.number = n ∧ r.stopId = some id)) none } := by
  unfold clearStopId
  split
  · rename_i h
    rw [withStopId_some none h]
    simp [State.withQueue]
  · rename_i h
    rw [withStopId_none none (Bool.eq_false_iff.mpr h)]

/-- A record takes an id as in Safety.lean. -/
theorem storeStopId_eq (n id : Nat) (s : State) : storeStopId n id s =
    { s with queue := s.queue.withStopId (fun r => decide (r.body.number = n)) (some id) } := by
  unfold storeStopId
  split
  · rename_i h
    rw [withStopId_some (some id) h]
    simp [State.withQueue]
  · rename_i h
    rw [withStopId_none (some id) (Bool.eq_false_iff.mpr h)]

/-- A removal leaves the part as Safety.lean says. -/
theorem removeStop_eq (e : StopEntry) (s : State) : removeStop e s = s.stopRemoved e := by
  cases h : e.ref with
  | record n =>
    have hn : (fun r : PathRecord => decide (e.ref = .record r.body.number ∧ r.stopId = some e.id)) =
        fun r => decide (r.body.number = n ∧ r.stopId = some e.id) := by
      funext r
      rw [h]
      simp [eq_comm]
    unfold State.stopRemoved
    rw [hn]
    simp [removeStop, h, clearStopId_eq, State.withStops, StopPlanner.changed, wrap16]
  | _ =>
    have hn : s.queue.records.any (fun r => decide (e.ref = .record r.body.number ∧ r.stopId = some e.id)) = false := by
      simp [h]
    unfold State.stopRemoved
    rw [withStopId_none none hn]
    simp [removeStop, h, State.withStops, StopPlanner.changed, wrap16]

/-- An insertion is the evaluation of the part with the entry in the list (R140). -/
theorem insertStop_eq (o : StopOffer) {s : State} (hs : ∀ x ∈ s.stops.entries, x.insertion < s.stops.insertions) :
    insertStop o s = (evaluate (s.stopInserted o), s.stops.freshId) := by
  have hp : placeStop (o.entry s.stops.freshId s.stops.insertions) s.stops.entries =
      (o.entry s.stops.freshId s.stops.insertions).placedIn s.stops.entries := placeStop_eq_placedIn hs
  cases h : o.ref with
  | record n =>
    have hn : (fun r : PathRecord => decide (o.ref = .record r.body.number)) = fun r => decide (r.body.number = n) := by
      funext r
      rw [h]
      simp [eq_comm]
    unfold State.stopInserted
    rw [hn]
    unfold insertStop
    dsimp only
    rw [hp]
    simp [h, storeStopId_eq, State.withStops, StopPlanner.changed, wrap16, nextInCycle, StopOffer.entry]
  | _ =>
    have hn : s.queue.records.any (fun r => decide (o.ref = .record r.body.number)) = false := by simp [h]
    unfold State.stopInserted
    dsimp only
    rw [withStopId_none _ hn]
    unfold insertStop
    dsimp only
    rw [hp]
    simp [h, State.withStops, StopPlanner.changed, wrap16, nextInCycle, StopOffer.entry]

end Sys2Proof.Machine
end

