-- ==== Sys2Proof/Laws/Moves.lean ====
section
/-! SUPPORT. What the operations of a change of P, of an intake and of a cut can do, said once for each: they post events,
they take steps of the path queue, they keep the kinds of the slots, and they keep the stop list sound and quiet; and the clock in the terms of Safety.lean. -/

namespace Sys2Proof.Machine

/-! ## Slots (R78) -/

/-- What a slot is, its record aside. -/
def Slot.kind : Slot → Nat
  | .empty => 0
  | .winding _ => 1
  | .closed _ => 2
  | .released _ => 3

/-- The slots keep their kinds and the close list stands. -/
def SameKinds (m n : RollMap) : Prop :=
  n.closeList = m.closeList ∧ n.slots.toList.map Slot.kind = m.slots.toList.map Slot.kind

theorem SameKinds.refl (m : RollMap) : SameKinds m m := ⟨rfl, rfl⟩

theorem SameKinds.trans {m n o : RollMap} (h : SameKinds m n) (g : SameKinds n o) : SameKinds m o :=
  ⟨g.1.trans h.1, g.2.trans h.2⟩

theorem SameKinds.mapWinding (f : SetRecord → SetRecord) (m : RollMap) : SameKinds m (m.mapWinding f) := by
  refine ⟨rfl, ?_⟩
  simp only [RollMap.mapWinding, Vector.toList_map, List.map_map]
  refine List.map_congr_left (fun x _ => ?_)
  cases x <;> rfl

/-- The register may change with the winding set. -/
theorem SameKinds.mapWinding_with (f : SetRecord → SetRecord) (m : RollMap) (l : List RegisterItem) :
    SameKinds m { m.mapWinding f with register := l } := SameKinds.mapWinding f m

/-! ## Moves -/

/-- What can happen between `s` and `t` when the motion monitor and the job controller stand still. -/
structure Moves (s t : State) : Prop where
  motion : t.motion = s.motion
  job : t.job = s.job
  posts : OnlyPosts s t
  queue : QueueSteps s.queue t.queue
  noJob : s.job.state = .noJob → s.queue.records = [] → t.queue.records = []
  slots : SameKinds s.roll t.roll
  stops : s.stops.Sound → t.stops.Sound
  quiet : Quiet s → Quiet t

theorem Moves.trans {s t u : State} (h : Moves s t) (g : Moves t u) : Moves s u where
  motion := g.motion.trans h.motion
  job := g.job.trans h.job
  posts := h.posts.trans g.posts
  queue := h.queue.trans g.queue
  noJob := fun hj hq => g.noJob (h.job ▸ hj) (h.noJob hj hq)
  slots := h.slots.trans g.slots
  stops := fun hs => g.stops (h.stops hs)
  quiet := fun hs => g.quiet (h.quiet hs)

/-- Nothing of what a move speaks of has changed but the posts. -/
theorem Moves.of_posts {s t : State} (hm : t.motion = s.motion) (hj : t.job = s.job) (hp : OnlyPosts s t)
    (hq : t.queue = s.queue) (hr : SameKinds s.roll t.roll) (hs : t.stops = s.stops) : Moves s t where
  motion := hm
  job := hj
  posts := hp
  queue := hq ▸ .refl
  noJob := fun _ h => hq ▸ h
  slots := hr
  stops := fun h => hs ▸ h
  quiet := fun h => h.congr hs hm hj

theorem Moves.of_eq {s t : State} (hm : t.motion = s.motion) (hj : t.job = s.job) (hp : t.alerts = s.alerts)
    (hq : t.queue = s.queue) (hr : t.roll = s.roll) (hs : t.stops = s.stops) : Moves s t :=
  .of_posts hm hj (.of_eq hp) hq (hr ▸ .refl _) hs

theorem Moves.refl (s : State) : Moves s s := .of_eq rfl rfl rfl rfl rfl rfl

theorem Moves.then_eq {s t u : State} (h : Moves s t) (hm : u.motion = t.motion) (hj : u.job = t.job)
    (hp : u.alerts = t.alerts) (hq : u.queue = t.queue) (hr : u.roll = t.roll) (hs : u.stops = t.stops) : Moves s u :=
  h.trans (.of_eq hm hj hp hq hr hs)

theorem Moves.post (s : State) (k : EventKind) : Moves s (s.post k) :=
  .of_posts rfl rfl (.post s k) rfl (.refl _) rfl

theorem Moves.postIf (s : State) (c : Bool) (k : EventKind) : Moves s (s.postIf c k) :=
  .of_posts (by simp) (by simp) (.postIf s c k) (by simp) (by simp [SameKinds]) (by simp)

theorem Moves.postAll (s : State) (ks : List EventKind) : Moves s (s.postAll ks) :=
  .of_posts (by simp) (by simp) (.postAll s ks) (by simp) (by simp [SameKinds]) (by simp)

theorem Moves.mapWinding (s : State) (f : SetRecord → SetRecord) : Moves s (s.mapWinding f) :=
  .of_posts rfl rfl (.of_eq rfl) rfl (.mapWinding f s.roll) rfl

/-- A step of the queue that takes nothing in. -/
theorem Moves.withQueue {s : State} {q : PathQueue} (h : QueueStep s.queue q)
    (hq : s.queue.records = [] → q.records = []) : Moves s (s.withQueue q) where
  motion := rfl
  job := rfl
  posts := .of_eq rfl
  queue := .single h
  noJob := fun _ => hq
  slots := .refl _
  stops := id
  quiet := fun h => h.congr rfl rfl rfl

/-- A change of the stop list that keeps it sound and brings in no ACTIVE entry. -/
theorem Moves.withStops {s : State} {pl : StopPlanner} (hs : s.stops.Sound → pl.Sound)
    (ha : Quiet s → Quiet (s.withStops pl)) : Moves s (s.withStops pl) where
  motion := rfl
  job := rfl
  posts := .of_eq rfl
  queue := .refl
  noJob := fun _ h => h
  slots := .refl _
  stops := hs
  quiet := ha

/-! ## The operations -/

theorem queueFull_moves (s : State) : Moves s (queueFull s) :=
  (Moves.post s .queueFull).trans (.mapWinding _ _)

theorem storeStopId_moves (n id : Nat) (s : State) : Moves s (storeStopId n id s) := by
  unfold storeStopId
  split
  · refine .withQueue (.ids _ 1 (fun r => by split <;> exact ⟨rfl, rfl, rfl⟩)) (fun h => ?_)
    simp [h]
  · exact .refl s

theorem clearStopId_moves (n id : Nat) (s : State) : Moves s (clearStopId n id s) := by
  unfold clearStopId
  split
  · refine .withQueue (.ids _ 1 (fun r => by split <;> exact ⟨rfl, rfl, rfl⟩)) (fun h => ?_)
    simp [h]
  · exact .refl s

theorem removeStop_moves (e : StopEntry) (s : State) : Moves s (removeStop e s) := by
  have first : Moves s (s.withStops (StopPlanner.changed
      { s.stops with entries := s.stops.entries.filter (fun x => decide (x.id ≠ e.id)) } 1)) :=
    .withStops (fun h => h.filter _ _)
      (fun h => quiet_of_subset h rfl rfl (fun x hx ha => ⟨x, List.mem_of_mem_filter hx, ha⟩))
  unfold removeStop
  dsimp only
  split
  · exact first.trans (clearStopId_moves _ _ _)
  · exact first

theorem evaluate_queue_slots (s : State) :
    OnlyPosts s (evaluate s) ∧ QueueSteps s.queue (evaluate s).queue ∧
    (s.queue.records = [] → (evaluate s).queue.records = []) := by
  have trans : ∀ {s t u : State}, (OnlyPosts s t ∧ QueueSteps s.queue t.queue ∧ (s.queue.records = [] → t.queue.records = [])) →
      (OnlyPosts t u ∧ QueueSteps t.queue u.queue ∧ (t.queue.records = [] → u.queue.records = [])) →
      (OnlyPosts s u ∧ QueueSteps s.queue u.queue ∧ (s.queue.records = [] → u.queue.records = [])) :=
    fun h g => ⟨h.1.trans g.1, h.2.1.trans g.2.1, fun e => g.2.2 (h.2.2 e)⟩
  have complete : ∀ (e : StopEntry) (l : Bool) (n : Nat) (s : State), OnlyPosts s (completeStop e l n s) ∧
      QueueSteps s.queue (completeStop e l n s).queue ∧
      (s.queue.records = [] → (completeStop e l n s).queue.records = []) := by
    intro e l n s
    have hm := removeStop_moves e (s.withStops { s.stops with lastStop := some (s.stopRecord e l n) })
    unfold completeStop
    refine ⟨OnlyPosts.trans ?_ (.post _ _), hm.queue, ?_⟩
    · exact (OnlyPosts.of_eq rfl).trans hm.posts
    · intro h
      show (removeStop e _).queue.records = []
      unfold removeStop clearStopId
      dsimp only
      split
      · split <;> simp [h]
      · exact h
  have sweep : ∀ (fuel : Nat) (s : State), OnlyPosts s (sweepStops fuel s) ∧
      QueueSteps s.queue (sweepStops fuel s).queue ∧ (s.queue.records = [] → (sweepStops fuel s).queue.records = []) := by
    intro fuel
    induction fuel with
    | zero => exact fun s => ⟨.of_eq rfl, .refl, id⟩
    | succ n ih =>
      intro s
      unfold sweepStops
      split
      · exact ⟨.of_eq rfl, .refl, id⟩
      · exact trans (complete _ _ _ _) (ih _)
  have activate : ∀ (e : StopEntry) (s : State), OnlyPosts s (activateStop e s) ∧
      QueueSteps s.queue (activateStop e s).queue ∧ (s.queue.records = [] → (activateStop e s).queue.records = []) := by
    intro e s
    refine ⟨?_, by simp; exact .refl, by simp⟩
    unfold activateStop
    exact ((OnlyPosts.of_eq (by simp)).trans (.post _ _)).trans (.postIf _ _ _)
  have overrun : ∀ (e : StopEntry) (s : State), OnlyPosts s (overrunTest e s) ∧
      QueueSteps s.queue (overrunTest e s).queue ∧ (s.queue.records = [] → (overrunTest e s).queue.records = []) := by
    intro e s
    refine ⟨?_, by simp; exact .refl, by simp⟩
    unfold overrunTest
    split
    · exact (OnlyPosts.of_eq (by simp)).trans (.post _ _)
    · exact .of_eq rfl
  have passes : ∀ (fuel : Nat) (s : State), OnlyPosts s (evaluatePasses fuel s) ∧
      QueueSteps s.queue (evaluatePasses fuel s).queue ∧
      (s.queue.records = [] → (evaluatePasses fuel s).queue.records = []) := by
    intro fuel
    induction fuel with
    | zero => exact fun s => ⟨.of_eq rfl, .refl, id⟩
    | succ n ih =>
      intro s
      unfold evaluatePasses
      split
      · split
        · exact trans (trans (complete _ _ _ _) (sweep _ _)) (ih _)
        · exact overrun _ _
      · split
        · exact ⟨.of_eq rfl, .refl, id⟩
        · split
          · split
            · exact trans (trans (activate _ _) (trans (complete _ _ _ _) (sweep _ _))) (ih _)
            · exact activate _ _
          · exact ⟨.of_eq rfl, .refl, id⟩
  unfold evaluate
  split
  · exact ⟨.of_eq rfl, .refl, id⟩
  · exact passes _ _

/-- An evaluation (R143). -/
theorem evaluate_moves (s : State) : Moves s (evaluate s) where
  motion := by simp
  job := by simp
  posts := (evaluate_queue_slots s).1
  queue := (evaluate_queue_slots s).2.1
  noJob := fun _ => (evaluate_queue_slots s).2.2
  slots := by simp [SameKinds]
  stops := evaluate_sound
  quiet := evaluate_quiet

theorem cancelStopId_moves (id : Nat) (s : State) : Moves s (cancelStopId id s) := by
  unfold cancelStopId
  split
  · exact .refl s
  · exact (removeStop_moves _ s).trans (evaluate_moves _)

theorem cancelRecordStop_moves (r : PathRecord) (s : State) : Moves s (cancelRecordStop r s) := by
  unfold cancelRecordStop
  split
  · exact .refl s
  · exact cancelStopId_moves _ s

theorem cancelSetStops_moves (n : Nat) (s : State) : Moves s (cancelSetStops n s) := by
  have fold : ∀ (l : List StopEntry) (s : State), Moves s (l.foldl (fun s e => removeStop e s) s) := by
    intro l
    induction l with
    | nil => exact fun s => .refl s
    | cons e l ih => exact fun s => (removeStop_moves e s).trans (ih _)
  exact (fold _ s).trans (evaluate_moves _)

/-- An insertion (R140); that the list stays sound takes room in it. -/
theorem insertStop_moves (o : StopOffer) {r s : State} (h : Moves r s) (hl : r.stops.Sound → s.stops.entries.length < 16) :
    Moves r (insertStop o s).1 := by
  unfold insertStop
  refine Moves.trans ?_ (evaluate_moves _)
  have first : Moves r (s.withStops (StopPlanner.changed
      { s.stops with entries := placeStop (o.entry s.stops.freshId s.stops.insertions) s.stops.entries,
                     nextId := nextInCycle 255 s.stops.freshId, insertions := s.stops.insertions + 1 } 1)) := by
    refine { motion := h.motion, job := h.job, posts := h.posts, queue := h.queue, noJob := h.noJob, slots := h.slots,
             stops := fun hr => (h.stops hr).insert (hl hr) o 1, quiet := fun hr => ?_ }
    refine quiet_of_subset (h.quiet hr) rfl rfl (fun x hx ha => ?_)
    rw [State.withStops_stops, StopPlanner.changed_entries, mem_placeStop] at hx
    rcases hx with rfl | hx
    · cases ha
    · exact ⟨x, hx, ha⟩
  dsimp only
  split
  · exact first.trans (storeStopId_moves _ _ _)
  · exact first

theorem evaluate_length_le (s : State) : (evaluate s).stops.entries.length ≤ s.stops.entries.length := by
  have activate : ∀ (e : StopEntry) (s : State), (activateStop e s).stops.entries.length = s.stops.entries.length := by
    intro e s
    rw [activateStop_stops]
    simp [replaceStop]
  have complete : ∀ (e : StopEntry) (s : State), (completeAndSweep e s).stops.entries.length ≤ s.stops.entries.length :=
    fun e s => le_trans (completeAndSweep_sublist e s).length_le (List.length_filter_le _ _)
  have passes : ∀ (fuel : Nat) (s : State), (evaluatePasses fuel s).stops.entries.length ≤ s.stops.entries.length := by
    intro fuel
    induction fuel with
    | zero => exact fun s => le_refl _
    | succ n ih =>
      intro s
      unfold evaluatePasses
      split
      · split
        · exact le_trans (ih _) (complete _ _)
        · unfold overrunTest
          split <;> simp [replaceStop]
      · split
        · exact le_refl _
        · split
          · split
            · exact le_trans (ih _) (le_trans (complete _ _) (activate _ _).le)
            · exact (activate _ _).le
          · exact le_refl _
  unfold evaluate
  split
  · exact le_refl _
  · exact passes _ _

/-- An offer of a stop entry (R140, R141). -/
theorem offerStop_moves (o : StopOffer) (s : State) : Moves s (offerStop o s).1 := by
  unfold offerStop
  split
  · rename_i h
    exact insertStop_moves o (.refl s) (fun _ => h)
  · split
    · rename_i v hv
      refine insertStop_moves o (((removeStop_moves v s).trans (.post _ .stopDropped)).trans (evaluate_moves _)) (fun hs => ?_)
      refine lt_of_le_of_lt (evaluate_length_le _) ?_
      exact lt_of_lt_of_le (removeStop_length ((victimOf_spec _ _).2 v hv).1) hs.1
    · exact .postIf _ _ _

/-- A WAITING entry takes a new target (R153, R154). -/
theorem retargetStop_moves {e : StopEntry} (w x : Int) {s : State} (he : e ∈ s.stops.entries) (ha : e.active = false) :
    Moves s (retargetStop e w x s) := by
  unfold retargetStop
  refine Moves.trans (.withStops (fun h => h.move he w x 1) (fun h => quiet_of_subset h rfl rfl (fun y hy hya => ?_)))
    (evaluate_moves _)
  rw [State.withStops_stops, StopPlanner.changed_entries, mem_placeStop] at hy
  rcases hy with rfl | hy
  · simp [ha] at hya
  · exact ⟨y, List.mem_of_mem_filter hy, hya⟩

theorem setEnd_mem {pl : StopPlanner} {e : StopEntry} (h : pl.setEnd = some e) : e ∈ pl.entries ∧ e.kind = .setEnd :=
  ⟨List.mem_of_find?_eq_some h, by simpa using List.find?_some h⟩

theorem emptyStops_moves (s : State) : Moves s (emptyStops s) := by
  refine .withStops (fun h => ?_) (fun h => quiet_of_subset h rfl rfl (fun x hx => by simp at hx))
  have := h.filter (fun _ => false) s.stops.entries.length
  simpa using this

/-- The cut shift of the stop list (R112). -/
theorem shiftStops_moves (popen cut : Nat) (s : State) : Moves s (shiftStops popen cut s) := by
  unfold shiftStops
  dsimp only
  refine .withStops (fun h => h.shift _ _ (fun x => by split <;> exact ⟨rfl, rfl, rfl⟩))
    (fun h => quiet_of_subset h rfl rfl (fun x hx ha => ?_))
  rw [State.withStops_stops, StopPlanner.changed_entries, (sortStops_perm _).mem_iff, List.mem_map] at hx
  obtain ⟨y, hy, rfl⟩ := hx
  refine ⟨y, hy, ?_⟩
  split at ha <;> exact ha

/-! ### The path queue -/

/-- A record enters while a job runs and the queue has room (R62, R65, R71). -/
theorem enterRecord_moves (kind : RecordKind) (xs xe len : Nat) (web : Int) (sl : Option LaneRange) {s : State}
    (hl : s.queue.records.length < 64) (hj : s.job.state ≠ .noJob) : Moves s (enterRecord kind xs xe len web sl s).1 where
  motion := rfl
  job := rfl
  posts := .of_eq rfl
  queue := .single (.taken _ sl _ hl)
  noJob := fun h => absurd h hj
  slots := .refl _
  stops := id
  quiet := fun h => h.congr rfl rfl rfl

theorem trimRecord_moves {r : PathRecord} {s : State} (hr : r ∈ s.queue.records) : Moves s (trimRecord r s) := by
  unfold trimRecord
  refine Moves.trans (Moves.trans ?_ (.mapWinding _ _)) (cancelRecordStop_moves r _)
  exact Moves.withQueue (q := { s.queue.leave r with flow := Flow.addTrimmed 1 s.queue.flow })
    (.gone r _ hr (by simp)) (fun h => by simp [h] at hr)

theorem resolveRecord_moves {r : PathRecord} {s : State} (hr : r ∈ s.queue.records) (hu : r.slit = none) :
    Moves s (resolveRecord r s) := by
  unfold resolveRecord
  split
  · exact trimRecord_moves hr
  · exact .withQueue (.slit r _ hr hu) (fun h => by simp [h] at hr)

theorem dueAtKnives_iff {s : State} {r : PathRecord} :
    s.dueAtKnives r = true ↔ r.slit = none ∧ r.body.web + s.geometry.k ≤ s.length.p := by
  unfold State.dueAtKnives
  rw [Bool.and_eq_true, decide_eq_true_iff, Option.isNone_iff_eq_none]
  rfl

theorem dueAtNip_iff {s : State} {r : PathRecord} :
    s.dueAtNip r = true ↔ r.slit.isSome = true ∧ r.body.web + s.geometry.w ≤ s.length.p := by
  unfold State.dueAtNip
  rw [Bool.and_eq_true, decide_eq_true_iff]
  rfl

theorem resolvePasses_moves (fuel : Nat) (s : State) : Moves s (resolvePasses fuel s) := by
  induction fuel generalizing s with
  | zero => exact .refl s
  | succ n ih =>
    unfold resolvePasses
    split
    · exact .refl s
    · rename_i r hr
      exact (resolveRecord_moves (List.mem_of_find?_eq_some hr) (dueAtKnives_iff.1 (List.find?_some hr)).1).trans (ih _)

/-- The resolutions at the knife line (R67). -/
theorem resolveDue_moves (s : State) : Moves s (resolveDue s) := resolvePasses_moves _ s

theorem deliverToRoll_moves (it : RegisterItem) (set : SetRecord) (s : State) : Moves s (deliverToRoll it set s) := by
  unfold deliverToRoll
  refine Moves.trans ?_ (.postAll _ _)
  exact .of_posts rfl rfl (.of_eq rfl) rfl (SameKinds.mapWinding_with _ s.roll _) rfl

theorem deliverRecord_moves {r : PathRecord} {s : State} (hr : r ∈ s.queue.records) : Moves s (deliverRecord r s) := by
  unfold deliverRecord
  dsimp only
  split
  · refine Moves.trans ?_ (deliverToRoll_moves _ _ _)
    exact Moves.withQueue (q := { s.queue.leave r with flow := Flow.addDelivered 1 s.queue.flow })
      (.gone r _ hr (by simp)) (fun h => by simp [h] at hr)
  · exact Moves.withQueue (q := { s.queue.leave r with flow := Flow.addUnmapped 1 s.queue.flow })
      (.gone r _ hr (by simp)) (fun h => by simp [h] at hr)

theorem deliverPasses_moves (fuel : Nat) (s : State) : Moves s (deliverPasses fuel s) := by
  induction fuel generalizing s with
  | zero => exact .refl s
  | succ n ih =>
    unfold deliverPasses
    split
    · exact .refl s
    · rename_i r hr
      exact (deliverRecord_moves (List.mem_of_find?_eq_some hr)).trans (ih _)

/-- The deliveries at the nip (R68, R69). -/
theorem deliverDue_moves (s : State) : Moves s (deliverDue s) := by
  unfold deliverDue
  split
  · exact .refl s
  · exact deliverPasses_moves _ _

/-- A defect's intake (R62). -/
theorem intakeDefect_moves (d : DefectFields) (sev : Severity) {s : State} (hl : s.queue.records.length < 64)
    (hj : s.job.state ≠ .noJob) : Moves s (intakeDefect d sev s).1 := by
  unfold intakeDefect
  dsimp only
  have first := enterRecord_moves (.defect d.tag d.cls sev) d.xs d.xe d.length (defectWeb s d.age) none hl hj
  have second : ∀ c : Prop, [Decidable c] → Moves s (if c then
      resolveDue (enterRecord (.defect d.tag d.cls sev) d.xs d.xe d.length (defectWeb s d.age) none s).1
      else (enterRecord (.defect d.tag d.cls sev) d.xs d.xe d.length (defectWeb s d.age) none s).1) := by
    intro c _
    split
    · exact first.trans (resolveDue_moves _)
    · exact first
  generalize hs2 : (if defectWeb s d.age + s.geometry.k ≤ s.p then
      resolveDue (enterRecord (.defect d.tag d.cls sev) d.xs d.xe d.length (defectWeb s d.age) none s).1
      else (enterRecord (.defect d.tag d.cls sev) d.xs d.xe d.length (defectWeb s d.age) none s).1) = s2
  have h2 : Moves s s2 := hs2 ▸ second _
  have place : ∀ (o : StopOffer) (c : Bool), Moves s (if c = true then offerStop o s2 else (s2, none)).1 := by
    intro o c
    split
    · exact h2.trans (offerStop_moves _ _)
    · exact h2
  split
  · split
    · exact (place _ _).trans (deliverDue_moves _)
    · exact place _ _
  · exact h2

/-- A splice arrival (R64 to R66). -/
theorem spliceSeen_moves (s : State) : Moves s (spliceSeen s) := by
  unfold spliceSeen
  dsimp only
  split
  · exact .refl s
  rename_i hj
  split
  · exact .refl s
  have first : Moves s (s.withQueue { s.queue with highMark := some ((s.p : Int) - s.geometry.e) }) :=
    .withQueue (.highMark _) (fun h => h)
  split
  · exact first.trans (queueFull_moves _)
  rename_i hl
  simp only [PathQueue.full, decide_eq_true_eq, not_le] at hl
  split
  · exact (first.trans (enterRecord_moves _ _ _ _ _ _ hl hj)).trans (offerStop_moves _ _)
  · exact first.trans (enterRecord_moves _ _ _ _ _ _ hl hj)

/-! ### The mark tracker -/

theorem recomputeSetEnd_moves (l : MarkLock) (s : State) : Moves s (recomputeSetEnd l s) := by
  unfold recomputeSetEnd
  split
  · split
    · rename_i e set he hset
      split
      · rename_i target ha ht
        exact retargetStop_moves _ _ (setEnd_mem he).1 ha
      · exact .refl s
    · exact .refl s
  · exact .refl s

theorem withTracker_moves (s : State) (t : MarkTracker) : Moves s (s.withTracker t) := .of_eq rfl rfl rfl rfl rfl rfl

theorem loseTrack_moves (l : MarkLock) (s : State) : Moves s (loseTrack l s) := by
  unfold loseTrack
  dsimp only
  split
  · exact ((withTracker_moves s _).trans (.post _ _)).trans (offerStop_moves _ _)
  · exact (withTracker_moves s _).trans (.post _ _)

theorem missMark_moves (l : MarkLock) (s : State) : Moves s (missMark l s) := by
  unfold missMark
  dsimp only
  have first := ((((withTracker_moves s
    { s.tracker with
      state := .locked { l with wlast := l.wlast + s.tracker.settings.expected, missed := l.missed + 1 }
      missed := holdAt 65535 (s.tracker.missed + 1) }).trans (.mapWinding _
    (fun r => { r with repeatTally := holdAt 65535 (r.repeatTally + 1) }))).trans (.mapWinding _
    (fun r => { r with markFaultTally := holdAt 65535 (r.markFaultTally + 1) }))).trans (.post _ .markFault))
  split
  · exact first.trans (loseTrack_moves _ _)
  · exact first

theorem missedMarks_moves (fuel : Nat) (s : State) : Moves s (missedMarks fuel s) := by
  induction fuel generalizing s with
  | zero => exact .refl s
  | succ n ih =>
    unfold missedMarks
    split
    · split
      · exact (missMark_moves _ _).trans (ih _)
      · exact .refl s
    · exact .refl s

/-- A change of P at the tracker (R120, R124). -/
theorem trackChange_moves (old : Nat) (s : State) : Moves s (trackChange old s) := by
  unfold trackChange
  split
  · exact (withTracker_moves s _).trans (missedMarks_moves _ _)
  · exact withTracker_moves s _

/-- A mark arrival (R120 to R126). -/
theorem markSeen_moves (s : State) : Moves s (markSeen s) := by
  unfold markSeen
  dsimp only
  split
  · exact .refl s
  split
  · exact withTracker_moves s _
  · unfold classMark
    dsimp only
    split
    · exact withTracker_moves s _
    split
    · exact ((withTracker_moves s _).trans (.mapWinding _ _)).trans (.post _ _)
    split
    · unfold goodMark
      exact ((withTracker_moves s _).trans (.mapWinding _ _)).trans (recomputeSetEnd_moves _ _)
    · exact .refl s
  · unfold relockMark
    exact (((withTracker_moves s _).trans (.post _ _)).trans (.mapWinding _ _)).trans (recomputeSetEnd_moves _ _)

/-! ### Length -/

theorem withLength_moves (s : State) (c : LengthCounter) : Moves s (s.withLength c) := .of_eq rfl rfl rfl rfl rfl rfl

theorem silenceOf_moves (e : Encoder) (s : State) : Moves s (silenceOf e s) := by
  cases e
  · have first := (withLength_moves s { s.length with
      a := { s.length.a with silent := true }, active := .b, span := none }).trans (.post _ .encoderASilent)
    unfold silenceOf silenceA
    dsimp only
    split
    · exact first.trans (.mapWinding _ _)
    · exact first
  · exact (withLength_moves s _).trans (.post _ _)

theorem slipAtCount_moves (e : Encoder) (d : Direction) (s : State) : Moves s (slipAtCount e d s) := by
  cases e
  · cases d
    · unfold slipAtCount slipCheck
      dsimp only
      split
      · exact .refl s
      · split
        · exact (withLength_moves s _).trans (.postIf _ _ _)
        · exact .refl s
    · exact withLength_moves s _
  · exact .refl s

/-- The winding test (R91). -/
theorem windingTest_moves (s : State) : Moves s (windingTest s) := .mapWinding s _

/-- A change of P at every block (R14). -/
theorem changeOfP_moves (old : Nat) (s : State) : Moves s (changeOfP old s) := by
  unfold changeOfP
  dsimp only
  refine Moves.then_eq (Moves.trans ?_ (evaluate_moves _)) rfl rfl rfl rfl rfl rfl
  have first := ((trackChange_moves old s).trans (resolveDue_moves _)).trans (deliverDue_moves _)
  split
  · exact first.trans (windingTest_moves _)
  · exact first

/-- A count, whole (R11 to R21). -/
theorem applyCount_moves (e : Encoder) (d : Direction) (s : State) : Moves s (applyCount e d s) := by
  unfold applyCount
  dsimp only
  have second : ∀ (c : LengthCounter) (x y z : Bool) (o : Encoder), Moves s
      (slipAtCount e d (if z = true then silenceOf o (((s.withLength c).postIf x .positionLimit).postIf y .positionLimit)
        else ((s.withLength c).postIf x .positionLimit).postIf y .positionLimit)) := by
    intro c x y z o
    refine Moves.trans ?_ (slipAtCount_moves _ _ _)
    have first := ((withLength_moves s c).trans (.postIf _ x .positionLimit)).trans (.postIf _ y .positionLimit)
    split
    · exact first.trans (silenceOf_moves _ _)
    · exact first
  split <;> split
  · exact second _ _ _ _ _
  · exact (second _ _ _ _ _).trans (changeOfP_moves _ _)
  · exact second _ _ _ _ _
  · exact (second _ _ _ _ _).trans (changeOfP_moves _ _)

theorem acceptEdge_moves (e : Encoder) (ph : Phase) (s : State) : Moves s (acceptEdge e ph s) := by
  unfold acceptEdge
  dsimp only
  have first : Moves s (s.withInputs (s.inputs.accept e ((s.inputs.encoder e).edge ph))) := .of_eq rfl rfl rfl rfl rfl rfl
  split
  · exact first
  · exact first.trans (applyCount_moves _ _ _)

/-! ### Cuts -/

theorem cutShift_moves (popen cut : Nat) (s : State) : Moves s (cutShift popen cut s) := by
  unfold cutShift
  refine Moves.trans ?_ (shiftStops_moves popen cut _)
  exact {
    motion := rfl
    job := rfl
    posts := .of_eq rfl
    queue := .single (.shift popen cut s.geometry.s)
    noJob := fun _ h => by
      have := PathQueue.length_shift s.queue popen cut s.geometry.s
      rw [h] at this
      exact List.eq_nil_of_length_eq_zero this
    slots := SameKinds.mapWinding_with _ s.roll _
    stops := id
    quiet := fun h => h.congr rfl rfl rfl }

theorem removeRecord_moves {r : PathRecord} {s : State} (hr : r ∈ s.queue.records) : Moves s (removeRecord r s) := by
  unfold removeRecord
  refine Moves.trans (Moves.trans ?_ (cancelRecordStop_moves r _)) (.mapWinding _ _)
  exact Moves.withQueue (q := { s.queue.leave r with flow := Flow.addRemoved 1 s.queue.flow })
    (.gone r _ hr (by simp)) (fun h => by simp [h] at hr)

theorem removeFromRoll_moves (n : Nat) (s : State) : Moves s (removeFromRoll n s) := by
  unfold removeFromRoll
  refine Moves.trans ?_ (.mapWinding _ _)
  exact .of_posts rfl rfl (.of_eq rfl) rfl (SameKinds.mapWinding_with _ s.roll _) rfl

theorem removeNamed_moves (l : List Nat) (acc : State × Nat) : Moves acc.1 (l.foldl removeNamed acc).1 := by
  induction l generalizing acc with
  | nil => exact .refl _
  | cons x l ih =>
    refine Moves.trans ?_ (ih _)
    unfold removeNamed
    split
    · rename_i r hr
      exact removeRecord_moves (List.mem_of_find?_eq_some hr)
    · split
      · exact removeFromRoll_moves _ _
      · exact .refl _

theorem removePulled_moves (l : List PathRecord) (acc : State × Nat) : Moves acc.1 (l.foldl removePulled acc).1 := by
  induction l generalizing acc with
  | nil => exact .refl _
  | cons x l ih =>
    refine Moves.trans ?_ (ih _)
    unfold removePulled
    split
    · rename_i r hr
      exact removeRecord_moves (List.mem_of_find?_eq_some hr)
    · exact .refl _

theorem removePulledItem_moves (l : List RegisterItem) (acc : State × Nat) :
    Moves acc.1 (l.foldl removePulledItem acc).1 := by
  induction l generalizing acc with
  | nil => exact .refl _
  | cons x l ih =>
    refine Moves.trans ?_ (ih _)
    unfold removePulledItem
    split
    · exact removeFromRoll_moves _ _
    · exact .refl _

theorem enterRepairSplice_moves (a b : Nat) {s : State} (hj : s.job.state ≠ .noJob) :
    Moves s (enterRepairSplice a b s).1 := by
  unfold enterRepairSplice
  split
  · exact queueFull_moves s
  · rename_i hl
    simp only [PathQueue.full, decide_eq_true_eq, not_le] at hl
    exact enterRecord_moves _ _ _ _ _ _ hl hj

/-- A splice made, up to the end of the cut (R108 steps 1 to 6). -/
theorem repairWeb_moves (popen a b : Nat) (l : List Nat) {s : State} (hj : s.job.state ≠ .noJob) :
    Moves s (enterRepairSplice a b
      ((s.roll.register.filter (fun it => isPulledThrough popen s.p s.geometry.s it.body.web)).foldl removePulledItem
        ((s.queue.records.filter (fun r => isPulledThrough popen s.p s.geometry.s r.body.web)).foldl removePulled
          ((l.foldl removeNamed (cutShift popen (s.p - popen) s, 0)).1, 0))).1).1 := by
  refine Moves.trans ?_ (enterRepairSplice_moves a b (by simpa using hj))
  refine Moves.trans ?_ (removePulledItem_moves _ _)
  refine Moves.trans ?_ (removePulled_moves _ (_, 0))
  exact (cutShift_moves _ _ s).trans (removeNamed_moves l (_, 0))

/-! ### Set start and set close -/

theorem placeSetEnd_moves (n start : Nat) (s : State) : Moves s (placeSetEnd n start s).1 := by
  unfold placeSetEnd
  split
  · exact .refl s
  · exact offerStop_moves _ _

/-- The records handed back at a set close (R70, R97). -/
theorem returnCounted_moves (l : List RegisterItem) (acc : State × (Nat × Nat)) (hj : acc.1.job.state ≠ .noJob) :
    Moves acc.1 (l.foldl returnCounted acc).1 := by
  induction l generalizing acc with
  | nil => exact .refl _
  | cons x l ih =>
    have first : Moves acc.1 (returnRecord acc.1 x) := by
      unfold returnRecord
      dsimp only
      split
      · exact (Moves.withQueue (q := { acc.1.queue with flow := (acc.1.queue.flow.addReturned 1).addUnmapped 1 }) .lost
          (fun h => h)).trans (.post _ .queueFull)
      · rename_i hl
        replace hl : acc.1.queue.records.length < 64 := not_le.1 (fun h => hl (decide_eq_true h))
        exact {
          motion := rfl
          job := rfl
          posts := .of_eq rfl
          queue := .single (.returned x.body (some x.lanes) hl)
          noJob := fun h => absurd h hj
          slots := .refl _
          stops := id
          quiet := fun h => h.congr rfl rfl rfl }
    exact first.trans (ih (returnCounted acc x) (by
      show (returnRecord acc.1 x).job.state ≠ .noJob
      rw [first.job]
      exact hj))

/-! ## The clock, in the terms of Safety.lean -/

/-- An interval ends as Safety.lean says. -/
theorem endInterval_eq (s : State) : endInterval s = s.intervalEnded := by
  cases h : s.time.warmUp <;> cases hr : s.time.inReset <;>
    simp [endInterval, State.intervalEnded, WarmUp.advance, Motion.interval, State.running, h, hr]

/-- STROBE runs one cycle as Safety.lean says. -/
theorem strobe_cycle_eq (d : Strobe) : d.cycle = d.cycled := by
  by_cases h : d.held + 1 < 48
  · have hm : min (d.held + 1) 48 = d.held + 1 := by omega
    simp [Strobe.cycle, Strobe.cycled, h, hm]
  · have hm : min (d.held + 1) 48 = 48 := by omega
    cases hh : d.high <;> by_cases ho : 0 < d.owed <;>
      simp [Strobe.cycle, Strobe.cycled, Strobe.finish, Strobe.canBegin, Strobe.begin, h, hm, hh, ho]

/-- NO-MOTION is taken exactly when it is due. -/
theorem execNoMotion_eq (s : State) : exec .noMotion s = .next (takeNoMotionIfDue s) := rfl

/-- A gate is closed exactly when it is due. -/
theorem execGateClose_eq (s : State) : exec .gateClose s = .next (closeGateIfDue s) := rfl

/-- NO-MOTION leaves the gate due or not, as it was. -/
theorem takeNoMotion_gateDue (s : State) : (takeNoMotion s).gateDue = s.gateDue := rfl

/-- Everything due is taken as Safety.lean says (R35; log entries 2 and 12). -/
theorem takeDue_dueTaken (s : State) : DueTaken s (takeDue s) := by
  have hm : ∀ u : State, MotionDueTaken u
      (if u.noMotionDue && u.gateDue then
        (if Config.noMotionFirst u.free then closeGateIfDue (takeNoMotionIfDue { u with free := u.free + 1 })
          else takeNoMotionIfDue (closeGateIfDue { u with free := u.free + 1 }))
        else closeGateIfDue (takeNoMotionIfDue u)) := by
    intro u
    refine ⟨fun hg hn => ?_, fun hg hn => ?_, fun hg hn => ?_, fun hg hn => ?_⟩
    · simp [hg, hn, takeNoMotionIfDue, closeGateIfDue]
    · simp [hg, hn, takeNoMotionIfDue, execGateClose_eq]
    · simp [hg, hn, takeNoMotionIfDue, closeGateIfDue, takeNoMotion_gateDue, execNoMotion_eq]
    · cases hf : Config.noMotionFirst u.free
      · exact ⟨closeGateIfDue { u with free := u.free + 1 }, by simp, by simp [hg, hn, execNoMotion_eq, execGateClose_eq]⟩
      · exact ⟨takeNoMotionIfDue { u with free := u.free + 1 }, by simp [hg, hn, execNoMotion_eq, execGateClose_eq], by simp⟩
  refine ⟨fun hw => ?_, fun hw => ⟨endWarmUp s.inputs.pins s, ?_, ?_⟩⟩
  · simpa [takeDue, hw] using hm s
  · show execEndOfWarmUp _ _ = _
    simp [execEndOfWarmUp, hw]
  · simpa [takeDue, hw] using hm (endWarmUp s.inputs.pins s)

end Sys2Proof.Machine
end

