-- ==== Sys2Proof/Laws/PerInstr.lean ====
section
/-! SUPPORT. One statement for each command: a well-formed request travels in a payload of at most 200 bytes
(10.3). -/

namespace Sys2Proof.Machine

@[simp] theorem bytesOf_length (n v : Nat) : (bytesOf n v).length = n := by
  induction n with
  | zero => rfl
  | succ n ih => simp [bytesOf, ih]

@[simp] theorem signedBytes_length (n : Nat) (v : Int) : (signedBytes n v).length = n := by simp [signedBytes]

@[simp] theorem countedBytes_length (width : Nat) (l : List Nat) :
    (countedBytes width l).length = 1 + width * l.length := by
  have h : (l.flatMap (bytesOf width)).length = width * l.length := by
    induction l with
    | nil => simp
    | cons x rest ih => simp [ih, Nat.mul_add]; omega
  simp [countedBytes, h]

end Sys2Proof.Machine

namespace Sys2Proof.Laws.PayloadFits

open Sys2Proof Sys2Proof.Machine

/-- A well-formed request has a payload of at most 200 bytes; a command that is no request has none (10.3). -/
def Statement (i : Instr) : Prop :=
  i.WellFormed → ∀ r, requestParts i = some r → r.2.2.length ≤ 200

theorem reset : Statement .reset := fun _ _ h => nomatch h

theorem resetRelease : Statement .resetRelease := fun _ _ h => nomatch h

theorem endOfWarmUp (levels : InputLevels) : Statement (.endOfWarmUp levels) := fun _ _ h => nomatch h

theorem interval : Statement .interval := fun _ _ h => nomatch h

theorem gateClose : Statement .gateClose := fun _ _ h => nomatch h

theorem noMotion : Statement .noMotion := fun _ _ h => nomatch h

theorem count (enc : Encoder) (phase : Phase) : Statement (.count enc phase) := fun _ _ h => nomatch h

theorem illegalTransition (enc : Encoder) : Statement (.illegalTransition enc) := fun _ _ h => nomatch h

theorem markArrival : Statement .markArrival := fun _ _ h => nomatch h

theorem spliceArrival : Statement .spliceArrival := fun _ _ h => nomatch h

theorem strobePulse : Statement .strobePulse := fun _ _ h => nomatch h

theorem strobePulseEnd : Statement .strobePulseEnd := fun _ _ h => nomatch h

theorem send (p : Select) (bytes : List Byte) (cut : Bool) : Statement (.send p bytes cut) := fun _ _ h => nomatch h

theorem fetch (p : Select) (clocked : Nat) : Statement (.fetch p clocked) := fun _ _ h => nomatch h

theorem voidTransaction (p : Select) (first : Option Byte) (clocked : Nat) :
    Statement (.voidTransaction p first clocked) := fun _ _ h => nomatch h

theorem setGeometry (p : Port) (g : Geometry) : Statement (.setGeometry p g) := by
  rintro - _ ⟨⟩
  simp [geometryBytes]

theorem setCalibration (p : Port) (fa fb : CalibrationFields) : Statement (.setCalibration p fa fb) := by
  rintro - _ ⟨⟩
  simp [calibrationBytes]

theorem setSensors (p : Port) (markFilter markEdge spliceFilter spliceEdge : Nat) : Statement (.setSensors p markFilter markEdge spliceFilter spliceEdge) := by
  rintro - _ ⟨⟩
  simp

theorem setTrim (p : Port) (enc : Nat) (trim : Int) : Statement (.setTrim p enc trim) := by
  rintro - _ ⟨⟩
  simp

theorem selectSource (p : Port) (source : Nat) : Statement (.selectSource p source) := by
  rintro - _ ⟨⟩
  simp

theorem setStrobe (p : Port) (q : Nat) : Statement (.setStrobe p q) := by
  rintro - _ ⟨⟩
  simp

theorem setMotion (p : Port) (m : MotionFields) : Statement (.setMotion p m) := by
  rintro - _ ⟨⟩
  simp [motionBytes]

theorem lineState (p : Port) (report : Nat) : Statement (.lineState p report) := by
  rintro - _ ⟨⟩
  simp

theorem loadPlan (p : Port) (plan : Nat) (knives : List Nat) : Statement (.loadPlan p plan knives) := by
  rintro w _ ⟨⟩
  simp [Instr.WellFormed] at w ⊢
  omega

theorem defect (p : Port) (d : DefectFields) : Statement (.defect p d) := by
  rintro - _ ⟨⟩
  simp [defectBytes]

theorem laneStatus (p : Port) (job set lane status : Nat) : Statement (.laneStatus p job set lane status) := by
  rintro - _ ⟨⟩
  simp

theorem releaseSet (p : Port) (job set : Nat) : Statement (.releaseSet p job set) := by
  rintro - _ ⟨⟩
  simp

theorem readSet (p : Port) (job set firstLane : Nat) : Statement (.readSet p job set firstLane) := by
  rintro - _ ⟨⟩
  simp

theorem readLane (p : Port) (job set lane list start : Nat) : Statement (.readLane p job set lane list start) := by
  rintro - _ ⟨⟩
  simp

theorem cutOpen (p : Port) : Statement (.cutOpen p) := by
  rintro - _ ⟨⟩
  simp

theorem spliceMade (p : Port) (firstLane lastLane : Nat) (records : List Nat) : Statement (.spliceMade p firstLane lastLane records) := by
  rintro w _ ⟨⟩
  simp [Instr.WellFormed] at w ⊢
  omega

theorem cutCancel (p : Port) : Statement (.cutCancel p) := by
  rintro - _ ⟨⟩
  simp

theorem addStop (p : Port) (form length : Nat) : Statement (.addStop p form length) := by
  rintro - _ ⟨⟩
  simp

theorem cancelStop (p : Port) (entry : Nat) : Statement (.cancelStop p entry) := by
  rintro - _ ⟨⟩
  simp

theorem setTarget (p : Port) (length : Nat) : Statement (.setTarget p length) := by
  rintro - _ ⟨⟩
  simp

theorem readStops (p : Port) (start : Nat) : Statement (.readStops p start) := by
  rintro - _ ⟨⟩
  simp

theorem jobStart (p : Port) (j : JobFields) : Statement (.jobStart p j) := by
  rintro - _ ⟨⟩
  simp [jobBytes]

theorem jobEnd (p : Port) : Statement (.jobEnd p) := by
  rintro - _ ⟨⟩
  simp

theorem setStart (p : Port) : Statement (.setStart p) := by
  rintro - _ ⟨⟩
  simp

theorem setClose (p : Port) : Statement (.setClose p) := by
  rintro - _ ⟨⟩
  simp

theorem readStatus (p : Port) : Statement (.readStatus p) := by
  rintro - _ ⟨⟩
  simp

theorem readQueue (p : Port) (start : Nat) : Statement (.readQueue p start) := by
  rintro - _ ⟨⟩
  simp

theorem readCounters (p : Port) : Statement (.readCounters p) := by
  rintro - _ ⟨⟩
  simp

theorem readEvents (p : Port) : Statement (.readEvents p) := by
  rintro - _ ⟨⟩
  simp

theorem ackEvents (p : Port) (kinds : List Nat) : Statement (.ackEvents p kinds) := by
  rintro w _ ⟨⟩
  simp [Instr.WellFormed] at w ⊢
  omega

theorem setAlerts (p : Port) (master : Nat) (kinds : List Nat) : Statement (.setAlerts p master kinds) := by
  rintro w _ ⟨⟩
  simp [Instr.WellFormed] at w ⊢
  omega

end Sys2Proof.Laws.PayloadFits
end

