-- ==== Sys2Proof/Laws/Ports.lean ====
section
/-! SUPPORT. Requests: what a port makes of a request command, and the frame of every taking (R173 to R176). -/

namespace Sys2Proof.Machine

/-! ## A request at its port (log entry 5) -/

/-- A request that its block takes is answered at its port. -/
theorem serve_of_takes {p : Port} {k : Kind} {i : Instr} {s : State} (h : s.Takes p k i) (f : State → Taken) :
    serve p k i s f = answerTaken p k (f s) := by
  obtain ⟨hk, hr | ⟨hw, hq⟩⟩ := h
  · simp [serve, hr, hk]
  · simp [serve, hw, hq]

/-- The answer to a request whose taking leaves the ports alone. -/
theorem answerTaken_eq {p : Port} {k : Kind} {t : Taken} {s : State} (h : t.1.ports = s.ports) :
    answerTaken p k t = State.replied t.1 p k t.2.status t.2.payload ∧
    answerTaken p k t = { t.1 with ports := s.ports.set p ((s.port p).replied k t.2.status t.2.payload) } := by
  constructor <;> simp [answerTaken, State.replied, State.withPort, PortRegs.answer, PortRegs.replied, State.port, h]

/-- A port either has the request taken and answered, or changes nothing but itself. -/
theorem serve_cases (p : Port) (k : Kind) (i : Instr) (s : State) (f : State → Taken) :
    serve p k i s f = answerTaken p k (f s) ∨ ∃ r : PortRegs, serve p k i s f = s.withPort p r := by
  unfold serve
  split
  · split
    · exact .inl rfl
    · exact .inr ⟨_, rfl⟩
  · split
    · exact .inl rfl
    · exact .inr ⟨_, rfl⟩
  · exact .inr ⟨_, rfl⟩

/-! ## The frame of each taking -/

@[simp] theorem takeSetGeometry_frame (g : Geometry) (s : State) :
    (takeSetGeometry g s).1.time = s.time ∧ (takeSetGeometry g s).1.inputs = s.inputs ∧
    (takeSetGeometry g s).1.length = s.length ∧ (takeSetGeometry g s).1.strobe = s.strobe ∧
    (takeSetGeometry g s).1.motion = s.motion ∧ (takeSetGeometry g s).1.plans = s.plans ∧
    (takeSetGeometry g s).1.queue = s.queue ∧ (takeSetGeometry g s).1.roll = s.roll ∧
    (takeSetGeometry g s).1.tracker = s.tracker ∧ (takeSetGeometry g s).1.stops = s.stops ∧
    (takeSetGeometry g s).1.job = s.job ∧ (takeSetGeometry g s).1.ports = s.ports ∧
    (takeSetGeometry g s).1.alerts = s.alerts ∧ (takeSetGeometry g s).1.free = s.free ∧
    (takeSetGeometry g s).1.pending = s.pending := by
  unfold takeSetGeometry
  repeat' split
  all_goals simp [State.refuse]

@[simp] theorem takeSetCalibration_frame (fa fb : CalibrationFields) (s : State) :
    (takeSetCalibration fa fb s).1.time = s.time ∧ (takeSetCalibration fa fb s).1.geometry = s.geometry ∧
    (takeSetCalibration fa fb s).1.strobe = s.strobe ∧ (takeSetCalibration fa fb s).1.motion = s.motion ∧
    (takeSetCalibration fa fb s).1.plans = s.plans ∧ (takeSetCalibration fa fb s).1.queue = s.queue ∧
    (takeSetCalibration fa fb s).1.roll = s.roll ∧ (takeSetCalibration fa fb s).1.tracker = s.tracker ∧
    (takeSetCalibration fa fb s).1.stops = s.stops ∧ (takeSetCalibration fa fb s).1.job = s.job ∧
    (takeSetCalibration fa fb s).1.ports = s.ports ∧ (takeSetCalibration fa fb s).1.alerts = s.alerts ∧
    (takeSetCalibration fa fb s).1.free = s.free ∧ (takeSetCalibration fa fb s).1.pending = s.pending := by
  unfold takeSetCalibration
  repeat' split
  all_goals simp [State.refuse]

@[simp] theorem takeSetSensors_frame (a b c d : Nat) (s : State) :
    (takeSetSensors a b c d s).1.time = s.time ∧ (takeSetSensors a b c d s).1.geometry = s.geometry ∧
    (takeSetSensors a b c d s).1.length = s.length ∧ (takeSetSensors a b c d s).1.strobe = s.strobe ∧
    (takeSetSensors a b c d s).1.motion = s.motion ∧ (takeSetSensors a b c d s).1.plans = s.plans ∧
    (takeSetSensors a b c d s).1.queue = s.queue ∧ (takeSetSensors a b c d s).1.roll = s.roll ∧
    (takeSetSensors a b c d s).1.tracker = s.tracker ∧ (takeSetSensors a b c d s).1.stops = s.stops ∧
    (takeSetSensors a b c d s).1.job = s.job ∧ (takeSetSensors a b c d s).1.ports = s.ports ∧
    (takeSetSensors a b c d s).1.alerts = s.alerts ∧ (takeSetSensors a b c d s).1.free = s.free ∧
    (takeSetSensors a b c d s).1.pending = s.pending := by
  unfold takeSetSensors
  repeat' split
  all_goals simp [State.refuse]

@[simp] theorem takeSetTrim_frame (a : Nat) (b : Int) (s : State) :
    (takeSetTrim a b s).1.time = s.time ∧ (takeSetTrim a b s).1.inputs = s.inputs ∧
    (takeSetTrim a b s).1.geometry = s.geometry ∧ (takeSetTrim a b s).1.strobe = s.strobe ∧
    (takeSetTrim a b s).1.motion = s.motion ∧ (takeSetTrim a b s).1.plans = s.plans ∧
    (takeSetTrim a b s).1.queue = s.queue ∧ (takeSetTrim a b s).1.roll = s.roll ∧
    (takeSetTrim a b s).1.tracker = s.tracker ∧ (takeSetTrim a b s).1.stops = s.stops ∧
    (takeSetTrim a b s).1.job = s.job ∧ (takeSetTrim a b s).1.ports = s.ports ∧
    (takeSetTrim a b s).1.alerts = s.alerts ∧ (takeSetTrim a b s).1.free = s.free ∧
    (takeSetTrim a b s).1.pending = s.pending := by
  unfold takeSetTrim
  repeat' split
  all_goals simp [State.refuse]

@[simp] theorem takeSelectSource_frame (a : Nat) (s : State) :
    (takeSelectSource a s).1.time = s.time ∧ (takeSelectSource a s).1.inputs = s.inputs ∧
    (takeSelectSource a s).1.geometry = s.geometry ∧ (takeSelectSource a s).1.strobe = s.strobe ∧
    (takeSelectSource a s).1.motion = s.motion ∧ (takeSelectSource a s).1.plans = s.plans ∧
    (takeSelectSource a s).1.queue = s.queue ∧ (takeSelectSource a s).1.roll = s.roll ∧
    (takeSelectSource a s).1.tracker = s.tracker ∧ (takeSelectSource a s).1.stops = s.stops ∧
    (takeSelectSource a s).1.job = s.job ∧ (takeSelectSource a s).1.ports = s.ports ∧
    (takeSelectSource a s).1.alerts = s.alerts ∧ (takeSelectSource a s).1.free = s.free ∧
    (takeSelectSource a s).1.pending = s.pending := by
  unfold takeSelectSource
  repeat' split
  all_goals simp [State.refuse]

@[simp] theorem takeSetStrobe_frame (q : Nat) (s : State) :
    (takeSetStrobe q s).1.time = s.time ∧ (takeSetStrobe q s).1.inputs = s.inputs ∧
    (takeSetStrobe q s).1.geometry = s.geometry ∧ (takeSetStrobe q s).1.length = s.length ∧
    (takeSetStrobe q s).1.motion = s.motion ∧ (takeSetStrobe q s).1.plans = s.plans ∧
    (takeSetStrobe q s).1.queue = s.queue ∧ (takeSetStrobe q s).1.roll = s.roll ∧
    (takeSetStrobe q s).1.tracker = s.tracker ∧ (takeSetStrobe q s).1.stops = s.stops ∧
    (takeSetStrobe q s).1.job = s.job ∧ (takeSetStrobe q s).1.ports = s.ports ∧
    (takeSetStrobe q s).1.alerts = s.alerts ∧ (takeSetStrobe q s).1.free = s.free ∧
    (takeSetStrobe q s).1.pending = s.pending := by
  unfold takeSetStrobe
  repeat' split
  all_goals simp [State.refuse]

@[simp] theorem takeSetMotion_frame (m : MotionFields) (s : State) :
    (takeSetMotion m s).1.time = s.time ∧ (takeSetMotion m s).1.inputs = s.inputs ∧
    (takeSetMotion m s).1.geometry = s.geometry ∧ (takeSetMotion m s).1.length = s.length ∧
    (takeSetMotion m s).1.strobe = s.strobe ∧ (takeSetMotion m s).1.plans = s.plans ∧
    (takeSetMotion m s).1.queue = s.queue ∧ (takeSetMotion m s).1.roll = s.roll ∧
    (takeSetMotion m s).1.tracker = s.tracker ∧ (takeSetMotion m s).1.stops = s.stops ∧
    (takeSetMotion m s).1.job = s.job ∧ (takeSetMotion m s).1.ports = s.ports ∧
    (takeSetMotion m s).1.alerts = s.alerts ∧ (takeSetMotion m s).1.free = s.free ∧
    (takeSetMotion m s).1.pending = s.pending := by
  unfold takeSetMotion
  repeat' split
  all_goals simp [State.refuse]

@[simp] theorem takeLineState_frame (r : Nat) (s : State) :
    (takeLineState r s).1.time = s.time ∧ (takeLineState r s).1.inputs = s.inputs ∧
    (takeLineState r s).1.geometry = s.geometry ∧ (takeLineState r s).1.length = s.length ∧
    (takeLineState r s).1.strobe = s.strobe ∧ (takeLineState r s).1.plans = s.plans ∧
    (takeLineState r s).1.queue = s.queue ∧ (takeLineState r s).1.roll = s.roll ∧
    (takeLineState r s).1.tracker = s.tracker ∧ (takeLineState r s).1.stops = s.stops ∧
    (takeLineState r s).1.job = s.job ∧ (takeLineState r s).1.ports = s.ports ∧
    (takeLineState r s).1.alerts = s.alerts ∧ (takeLineState r s).1.free = s.free ∧
    (takeLineState r s).1.pending = s.pending := by
  unfold takeLineState
  repeat' split
  all_goals simp [State.refuse]

@[simp] theorem takeLoadPlan_frame (a : Nat) (l : List Nat) (s : State) :
    (takeLoadPlan a l s).1.time = s.time ∧ (takeLoadPlan a l s).1.inputs = s.inputs ∧
    (takeLoadPlan a l s).1.geometry = s.geometry ∧ (takeLoadPlan a l s).1.length = s.length ∧
    (takeLoadPlan a l s).1.strobe = s.strobe ∧ (takeLoadPlan a l s).1.motion = s.motion ∧
    (takeLoadPlan a l s).1.queue = s.queue ∧ (takeLoadPlan a l s).1.roll = s.roll ∧
    (takeLoadPlan a l s).1.tracker = s.tracker ∧ (takeLoadPlan a l s).1.stops = s.stops ∧
    (takeLoadPlan a l s).1.job = s.job ∧ (takeLoadPlan a l s).1.ports = s.ports ∧
    (takeLoadPlan a l s).1.alerts = s.alerts ∧ (takeLoadPlan a l s).1.free = s.free ∧
    (takeLoadPlan a l s).1.pending = s.pending := by
  unfold takeLoadPlan
  repeat' split
  all_goals simp [State.refuse]

@[simp] theorem takeDefect_frame (d : DefectFields) (s : State) :
    (takeDefect d s).1.time = s.time ∧ (takeDefect d s).1.inputs = s.inputs ∧
    (takeDefect d s).1.geometry = s.geometry ∧ (takeDefect d s).1.length = s.length ∧
    (takeDefect d s).1.strobe = s.strobe ∧ (takeDefect d s).1.motion = s.motion ∧
    (takeDefect d s).1.plans = s.plans ∧ (takeDefect d s).1.tracker = s.tracker ∧ (takeDefect d s).1.job = s.job ∧
    (takeDefect d s).1.ports = s.ports ∧ (takeDefect d s).1.free = s.free ∧ (takeDefect d s).1.pending = s.pending := by
  unfold takeDefect
  split
  · simp [State.refuse]
  split
  · simp [State.refuse]
  split
  · simp [State.refuse]
  split
  · simp [State.refuse]
  split
  · simp
  unfold intakeDefect
  dsimp only
  split <;> split <;> (try split) <;> (try split) <;> simp

@[simp] theorem takeLaneStatus_frame (job set lane status : Nat) (s : State) :
    (takeLaneStatus job set lane status s).1.time = s.time ∧
    (takeLaneStatus job set lane status s).1.inputs = s.inputs ∧
    (takeLaneStatus job set lane status s).1.geometry = s.geometry ∧
    (takeLaneStatus job set lane status s).1.length = s.length ∧
    (takeLaneStatus job set lane status s).1.strobe = s.strobe ∧
    (takeLaneStatus job set lane status s).1.motion = s.motion ∧
    (takeLaneStatus job set lane status s).1.plans = s.plans ∧
    (takeLaneStatus job set lane status s).1.queue = s.queue ∧
    (takeLaneStatus job set lane status s).1.tracker = s.tracker ∧
    (takeLaneStatus job set lane status s).1.stops = s.stops ∧ (takeLaneStatus job set lane status s).1.job = s.job ∧
    (takeLaneStatus job set lane status s).1.ports = s.ports ∧
    (takeLaneStatus job set lane status s).1.free = s.free ∧
    (takeLaneStatus job set lane status s).1.pending = s.pending := by
  unfold takeLaneStatus
  repeat' split
  all_goals simp [State.refuse]

@[simp] theorem takeReleaseSet_frame (job set : Nat) (s : State) :
    (takeReleaseSet job set s).1.time = s.time ∧ (takeReleaseSet job set s).1.inputs = s.inputs ∧
    (takeReleaseSet job set s).1.geometry = s.geometry ∧ (takeReleaseSet job set s).1.length = s.length ∧
    (takeReleaseSet job set s).1.strobe = s.strobe ∧ (takeReleaseSet job set s).1.motion = s.motion ∧
    (takeReleaseSet job set s).1.plans = s.plans ∧ (takeReleaseSet job set s).1.queue = s.queue ∧
    (takeReleaseSet job set s).1.tracker = s.tracker ∧ (takeReleaseSet job set s).1.stops = s.stops ∧
    (takeReleaseSet job set s).1.job = s.job ∧ (takeReleaseSet job set s).1.ports = s.ports ∧
    (takeReleaseSet job set s).1.alerts = s.alerts ∧ (takeReleaseSet job set s).1.free = s.free ∧
    (takeReleaseSet job set s).1.pending = s.pending := by
  unfold takeReleaseSet
  repeat' split
  all_goals simp [State.refuse]

@[simp] theorem takeReadSet_frame (job set first : Nat) (s : State) :
    (takeReadSet job set first s).1.time = s.time ∧ (takeReadSet job set first s).1.inputs = s.inputs ∧
    (takeReadSet job set first s).1.geometry = s.geometry ∧ (takeReadSet job set first s).1.length = s.length ∧
    (takeReadSet job set first s).1.strobe = s.strobe ∧ (takeReadSet job set first s).1.motion = s.motion ∧
    (takeReadSet job set first s).1.plans = s.plans ∧ (takeReadSet job set first s).1.queue = s.queue ∧
    (takeReadSet job set first s).1.roll = s.roll ∧ (takeReadSet job set first s).1.tracker = s.tracker ∧
    (takeReadSet job set first s).1.stops = s.stops ∧ (takeReadSet job set first s).1.job = s.job ∧
    (takeReadSet job set first s).1.ports = s.ports ∧ (takeReadSet job set first s).1.alerts = s.alerts ∧
    (takeReadSet job set first s).1.free = s.free ∧ (takeReadSet job set first s).1.pending = s.pending := by
  unfold takeReadSet
  repeat' split
  all_goals simp [State.refuse]

@[simp] theorem takeReadLane_frame (job set lane list start : Nat) (s : State) :
    (takeReadLane job set lane list start s).1.time = s.time ∧
    (takeReadLane job set lane list start s).1.inputs = s.inputs ∧
    (takeReadLane job set lane list start s).1.geometry = s.geometry ∧
    (takeReadLane job set lane list start s).1.length = s.length ∧
    (takeReadLane job set lane list start s).1.strobe = s.strobe ∧
    (takeReadLane job set lane list start s).1.motion = s.motion ∧
    (takeReadLane job set lane list start s).1.plans = s.plans ∧
    (takeReadLane job set lane list start s).1.queue = s.queue ∧
    (takeReadLane job set lane list start s).1.roll = s.roll ∧
    (takeReadLane job set lane list start s).1.tracker = s.tracker ∧
    (takeReadLane job set lane list start s).1.stops = s.stops ∧
    (takeReadLane job set lane list start s).1.job = s.job ∧
    (takeReadLane job set lane list start s).1.ports = s.ports ∧
    (takeReadLane job set lane list start s).1.alerts = s.alerts ∧
    (takeReadLane job set lane list start s).1.free = s.free ∧
    (takeReadLane job set lane list start s).1.pending = s.pending := by
  unfold takeReadLane
  repeat' split
  all_goals simp [State.refuse]

@[simp] theorem takeCutOpen_frame (s : State) :
    (takeCutOpen s).1.time = s.time ∧ (takeCutOpen s).1.inputs = s.inputs ∧ (takeCutOpen s).1.geometry = s.geometry ∧
    (takeCutOpen s).1.length = s.length ∧ (takeCutOpen s).1.strobe = s.strobe ∧ (takeCutOpen s).1.motion = s.motion ∧
    (takeCutOpen s).1.plans = s.plans ∧ (takeCutOpen s).1.queue = s.queue ∧ (takeCutOpen s).1.roll = s.roll ∧
    (takeCutOpen s).1.tracker = s.tracker ∧ (takeCutOpen s).1.stops = s.stops ∧ (takeCutOpen s).1.ports = s.ports ∧
    (takeCutOpen s).1.alerts = s.alerts ∧ (takeCutOpen s).1.free = s.free ∧ (takeCutOpen s).1.pending = s.pending := by
  unfold takeCutOpen
  repeat' split
  all_goals simp [State.refuse]

@[simp] theorem takeSpliceMade_frame (a b : Nat) (l : List Nat) (s : State) :
    (takeSpliceMade a b l s).1.time = s.time ∧ (takeSpliceMade a b l s).1.inputs = s.inputs ∧
    (takeSpliceMade a b l s).1.geometry = s.geometry ∧ (takeSpliceMade a b l s).1.length = s.length ∧
    (takeSpliceMade a b l s).1.strobe = s.strobe ∧ (takeSpliceMade a b l s).1.motion = s.motion ∧
    (takeSpliceMade a b l s).1.plans = s.plans ∧ (takeSpliceMade a b l s).1.tracker = s.tracker ∧
    (takeSpliceMade a b l s).1.ports = s.ports ∧ (takeSpliceMade a b l s).1.free = s.free ∧
    (takeSpliceMade a b l s).1.pending = s.pending := by
  unfold takeSpliceMade
  split
  · dsimp only
    split <;> simp [State.refuse]
  · simp [State.refuse]

@[simp] theorem takeCutCancel_frame (s : State) :
    (takeCutCancel s).1.time = s.time ∧ (takeCutCancel s).1.inputs = s.inputs ∧
    (takeCutCancel s).1.geometry = s.geometry ∧ (takeCutCancel s).1.length = s.length ∧
    (takeCutCancel s).1.strobe = s.strobe ∧ (takeCutCancel s).1.motion = s.motion ∧
    (takeCutCancel s).1.plans = s.plans ∧ (takeCutCancel s).1.tracker = s.tracker ∧
    (takeCutCancel s).1.ports = s.ports ∧ (takeCutCancel s).1.free = s.free ∧ (takeCutCancel s).1.pending = s.pending := by
  unfold takeCutCancel
  repeat' split
  all_goals simp [State.refuse]

@[simp] theorem takeAddStop_frame (p : Port) (form len : Nat) (s : State) :
    (takeAddStop p form len s).1.time = s.time ∧ (takeAddStop p form len s).1.inputs = s.inputs ∧
    (takeAddStop p form len s).1.geometry = s.geometry ∧ (takeAddStop p form len s).1.length = s.length ∧
    (takeAddStop p form len s).1.strobe = s.strobe ∧ (takeAddStop p form len s).1.motion = s.motion ∧
    (takeAddStop p form len s).1.plans = s.plans ∧ (takeAddStop p form len s).1.roll = s.roll ∧
    (takeAddStop p form len s).1.tracker = s.tracker ∧ (takeAddStop p form len s).1.job = s.job ∧
    (takeAddStop p form len s).1.ports = s.ports ∧ (takeAddStop p form len s).1.free = s.free ∧
    (takeAddStop p form len s).1.pending = s.pending := by
  unfold takeAddStop
  repeat' split
  all_goals simp [State.refuse]

@[simp] theorem takeCancelStop_frame (p : Port) (id : Nat) (s : State) :
    (takeCancelStop p id s).1.time = s.time ∧ (takeCancelStop p id s).1.inputs = s.inputs ∧
    (takeCancelStop p id s).1.geometry = s.geometry ∧ (takeCancelStop p id s).1.length = s.length ∧
    (takeCancelStop p id s).1.strobe = s.strobe ∧ (takeCancelStop p id s).1.motion = s.motion ∧
    (takeCancelStop p id s).1.plans = s.plans ∧ (takeCancelStop p id s).1.roll = s.roll ∧
    (takeCancelStop p id s).1.tracker = s.tracker ∧ (takeCancelStop p id s).1.job = s.job ∧
    (takeCancelStop p id s).1.ports = s.ports ∧ (takeCancelStop p id s).1.free = s.free ∧
    (takeCancelStop p id s).1.pending = s.pending := by
  unfold takeCancelStop
  repeat' split
  all_goals simp [State.refuse]

@[simp] theorem takeSetTarget_frame (len : Nat) (s : State) :
    (takeSetTarget len s).1.time = s.time ∧ (takeSetTarget len s).1.inputs = s.inputs ∧
    (takeSetTarget len s).1.geometry = s.geometry ∧ (takeSetTarget len s).1.length = s.length ∧
    (takeSetTarget len s).1.strobe = s.strobe ∧ (takeSetTarget len s).1.motion = s.motion ∧
    (takeSetTarget len s).1.plans = s.plans ∧ (takeSetTarget len s).1.tracker = s.tracker ∧
    (takeSetTarget len s).1.ports = s.ports ∧ (takeSetTarget len s).1.free = s.free ∧
    (takeSetTarget len s).1.pending = s.pending := by
  unfold takeSetTarget
  repeat' split
  all_goals simp [State.refuse]

@[simp] theorem takeReadStops_frame (start : Nat) (s : State) :
    (takeReadStops start s).1.time = s.time ∧ (takeReadStops start s).1.inputs = s.inputs ∧
    (takeReadStops start s).1.geometry = s.geometry ∧ (takeReadStops start s).1.length = s.length ∧
    (takeReadStops start s).1.strobe = s.strobe ∧ (takeReadStops start s).1.motion = s.motion ∧
    (takeReadStops start s).1.plans = s.plans ∧ (takeReadStops start s).1.queue = s.queue ∧
    (takeReadStops start s).1.roll = s.roll ∧ (takeReadStops start s).1.tracker = s.tracker ∧
    (takeReadStops start s).1.stops = s.stops ∧ (takeReadStops start s).1.job = s.job ∧
    (takeReadStops start s).1.ports = s.ports ∧ (takeReadStops start s).1.alerts = s.alerts ∧
    (takeReadStops start s).1.free = s.free ∧ (takeReadStops start s).1.pending = s.pending := by
  unfold takeReadStops
  repeat' split
  all_goals simp [State.refuse]

@[simp] theorem takeJobStart_frame (j : JobFields) (s : State) :
    (takeJobStart j s).1.time = s.time ∧ (takeJobStart j s).1.inputs = s.inputs ∧
    (takeJobStart j s).1.geometry = s.geometry ∧ (takeJobStart j s).1.plans = s.plans ∧
    (takeJobStart j s).1.roll = s.roll ∧ (takeJobStart j s).1.ports = s.ports ∧
    (takeJobStart j s).1.alerts = s.alerts ∧ (takeJobStart j s).1.free = s.free ∧
    (takeJobStart j s).1.pending = s.pending := by
  unfold takeJobStart
  repeat' split
  all_goals simp [State.refuse]

@[simp] theorem takeJobEnd_frame (s : State) :
    (takeJobEnd s).1.time = s.time ∧ (takeJobEnd s).1.inputs = s.inputs ∧ (takeJobEnd s).1.geometry = s.geometry ∧
    (takeJobEnd s).1.length = s.length ∧ (takeJobEnd s).1.strobe = s.strobe ∧ (takeJobEnd s).1.motion = s.motion ∧
    (takeJobEnd s).1.plans = s.plans ∧ (takeJobEnd s).1.roll = s.roll ∧ (takeJobEnd s).1.ports = s.ports ∧
    (takeJobEnd s).1.alerts = s.alerts ∧ (takeJobEnd s).1.free = s.free ∧ (takeJobEnd s).1.pending = s.pending := by
  unfold takeJobEnd
  repeat' split
  all_goals simp [State.refuse]

@[simp] theorem takeSetStart_frame (s : State) :
    (takeSetStart s).1.time = s.time ∧ (takeSetStart s).1.inputs = s.inputs ∧
    (takeSetStart s).1.geometry = s.geometry ∧ (takeSetStart s).1.length = s.length ∧
    (takeSetStart s).1.strobe = s.strobe ∧ (takeSetStart s).1.motion = s.motion ∧
    (takeSetStart s).1.tracker = s.tracker ∧ (takeSetStart s).1.ports = s.ports ∧ (takeSetStart s).1.free = s.free ∧
    (takeSetStart s).1.pending = s.pending := by
  unfold takeSetStart
  repeat' split
  all_goals simp [State.refuse]

@[simp] theorem takeSetClose_frame (s : State) :
    (takeSetClose s).1.time = s.time ∧ (takeSetClose s).1.inputs = s.inputs ∧
    (takeSetClose s).1.geometry = s.geometry ∧ (takeSetClose s).1.length = s.length ∧
    (takeSetClose s).1.strobe = s.strobe ∧ (takeSetClose s).1.motion = s.motion ∧
    (takeSetClose s).1.plans = s.plans ∧ (takeSetClose s).1.tracker = s.tracker ∧
    (takeSetClose s).1.ports = s.ports ∧ (takeSetClose s).1.free = s.free ∧ (takeSetClose s).1.pending = s.pending := by
  unfold takeSetClose
  repeat' split
  all_goals simp [State.refuse]

@[simp] theorem takeReadStatus_frame (s : State) :
    (takeReadStatus s).1.time = s.time ∧ (takeReadStatus s).1.inputs = s.inputs ∧
    (takeReadStatus s).1.geometry = s.geometry ∧ (takeReadStatus s).1.length = s.length ∧
    (takeReadStatus s).1.strobe = s.strobe ∧ (takeReadStatus s).1.motion = s.motion ∧
    (takeReadStatus s).1.plans = s.plans ∧ (takeReadStatus s).1.queue = s.queue ∧
    (takeReadStatus s).1.roll = s.roll ∧ (takeReadStatus s).1.tracker = s.tracker ∧
    (takeReadStatus s).1.stops = s.stops ∧ (takeReadStatus s).1.job = s.job ∧ (takeReadStatus s).1.ports = s.ports ∧
    (takeReadStatus s).1.alerts = s.alerts ∧ (takeReadStatus s).1.free = s.free ∧
    (takeReadStatus s).1.pending = s.pending := by
  simp [takeReadStatus]

@[simp] theorem takeReadQueue_frame (start : Nat) (s : State) :
    (takeReadQueue start s).1.time = s.time ∧ (takeReadQueue start s).1.inputs = s.inputs ∧
    (takeReadQueue start s).1.geometry = s.geometry ∧ (takeReadQueue start s).1.length = s.length ∧
    (takeReadQueue start s).1.strobe = s.strobe ∧ (takeReadQueue start s).1.motion = s.motion ∧
    (takeReadQueue start s).1.plans = s.plans ∧ (takeReadQueue start s).1.queue = s.queue ∧
    (takeReadQueue start s).1.roll = s.roll ∧ (takeReadQueue start s).1.tracker = s.tracker ∧
    (takeReadQueue start s).1.stops = s.stops ∧ (takeReadQueue start s).1.job = s.job ∧
    (takeReadQueue start s).1.ports = s.ports ∧ (takeReadQueue start s).1.alerts = s.alerts ∧
    (takeReadQueue start s).1.free = s.free ∧ (takeReadQueue start s).1.pending = s.pending := by
  unfold takeReadQueue
  repeat' split
  all_goals simp [State.refuse]

@[simp] theorem takeReadCounters_frame (s : State) :
    (takeReadCounters s).1.time = s.time ∧ (takeReadCounters s).1.inputs = s.inputs ∧
    (takeReadCounters s).1.geometry = s.geometry ∧ (takeReadCounters s).1.length = s.length ∧
    (takeReadCounters s).1.strobe = s.strobe ∧ (takeReadCounters s).1.motion = s.motion ∧
    (takeReadCounters s).1.plans = s.plans ∧ (takeReadCounters s).1.queue = s.queue ∧
    (takeReadCounters s).1.roll = s.roll ∧ (takeReadCounters s).1.tracker = s.tracker ∧
    (takeReadCounters s).1.stops = s.stops ∧ (takeReadCounters s).1.job = s.job ∧
    (takeReadCounters s).1.ports = s.ports ∧ (takeReadCounters s).1.alerts = s.alerts ∧
    (takeReadCounters s).1.free = s.free ∧ (takeReadCounters s).1.pending = s.pending := by
  simp [takeReadCounters]

@[simp] theorem takeReadEvents_frame (p : Port) (s : State) :
    (takeReadEvents p s).1.time = s.time ∧ (takeReadEvents p s).1.inputs = s.inputs ∧
    (takeReadEvents p s).1.geometry = s.geometry ∧ (takeReadEvents p s).1.length = s.length ∧
    (takeReadEvents p s).1.strobe = s.strobe ∧ (takeReadEvents p s).1.motion = s.motion ∧
    (takeReadEvents p s).1.plans = s.plans ∧ (takeReadEvents p s).1.queue = s.queue ∧
    (takeReadEvents p s).1.roll = s.roll ∧ (takeReadEvents p s).1.tracker = s.tracker ∧
    (takeReadEvents p s).1.stops = s.stops ∧ (takeReadEvents p s).1.job = s.job ∧
    (takeReadEvents p s).1.ports = s.ports ∧ (takeReadEvents p s).1.alerts = s.alerts ∧
    (takeReadEvents p s).1.free = s.free ∧ (takeReadEvents p s).1.pending = s.pending := by
  simp [takeReadEvents]

@[simp] theorem takeAckEvents_frame (p : Port) (l : List Nat) (s : State) :
    (takeAckEvents p l s).1.time = s.time ∧ (takeAckEvents p l s).1.inputs = s.inputs ∧
    (takeAckEvents p l s).1.geometry = s.geometry ∧ (takeAckEvents p l s).1.length = s.length ∧
    (takeAckEvents p l s).1.strobe = s.strobe ∧ (takeAckEvents p l s).1.motion = s.motion ∧
    (takeAckEvents p l s).1.plans = s.plans ∧ (takeAckEvents p l s).1.queue = s.queue ∧
    (takeAckEvents p l s).1.roll = s.roll ∧ (takeAckEvents p l s).1.tracker = s.tracker ∧
    (takeAckEvents p l s).1.stops = s.stops ∧ (takeAckEvents p l s).1.job = s.job ∧
    (takeAckEvents p l s).1.ports = s.ports ∧ (takeAckEvents p l s).1.free = s.free ∧
    (takeAckEvents p l s).1.pending = s.pending := by
  unfold takeAckEvents
  repeat' split
  all_goals simp [State.refuse]

@[simp] theorem takeSetAlerts_frame (p : Port) (a : Nat) (l : List Nat) (s : State) :
    (takeSetAlerts p a l s).1.time = s.time ∧ (takeSetAlerts p a l s).1.inputs = s.inputs ∧
    (takeSetAlerts p a l s).1.geometry = s.geometry ∧ (takeSetAlerts p a l s).1.length = s.length ∧
    (takeSetAlerts p a l s).1.strobe = s.strobe ∧ (takeSetAlerts p a l s).1.motion = s.motion ∧
    (takeSetAlerts p a l s).1.plans = s.plans ∧ (takeSetAlerts p a l s).1.queue = s.queue ∧
    (takeSetAlerts p a l s).1.roll = s.roll ∧ (takeSetAlerts p a l s).1.tracker = s.tracker ∧
    (takeSetAlerts p a l s).1.stops = s.stops ∧ (takeSetAlerts p a l s).1.job = s.job ∧
    (takeSetAlerts p a l s).1.ports = s.ports ∧ (takeSetAlerts p a l s).1.free = s.free ∧
    (takeSetAlerts p a l s).1.pending = s.pending := by
  unfold takeSetAlerts
  repeat' split
  all_goals simp [State.refuse]

/-! ## The taking of each request -/

/-- What the owning block of a request command does; `none` for a command that is no request. -/
def takenOf : Instr → Option (State → Taken)
  | .setGeometry _ g => some (takeSetGeometry g)
  | .setCalibration _ fa fb => some (takeSetCalibration fa fb)
  | .setSensors _ mf me sf se => some (takeSetSensors mf me sf se)
  | .setTrim _ enc trim => some (takeSetTrim enc trim)
  | .selectSource _ source => some (takeSelectSource source)
  | .setStrobe _ q => some (takeSetStrobe q)
  | .setMotion _ m => some (takeSetMotion m)
  | .lineState _ report => some (takeLineState report)
  | .loadPlan _ plan knives => some (takeLoadPlan plan knives)
  | .defect _ d => some (takeDefect d)
  | .laneStatus _ job set lane status => some (takeLaneStatus job set lane status)
  | .releaseSet _ job set => some (takeReleaseSet job set)
  | .readSet _ job set first => some (takeReadSet job set first)
  | .readLane _ job set lane list start => some (takeReadLane job set lane list start)
  | .cutOpen _ => some takeCutOpen
  | .spliceMade _ first last records => some (takeSpliceMade first last records)
  | .cutCancel _ => some takeCutCancel
  | .addStop p form length => some (takeAddStop p form length)
  | .cancelStop p entry => some (takeCancelStop p entry)
  | .setTarget _ length => some (takeSetTarget length)
  | .readStops _ start => some (takeReadStops start)
  | .jobStart _ j => some (takeJobStart j)
  | .jobEnd _ => some takeJobEnd
  | .setStart _ => some takeSetStart
  | .setClose _ => some takeSetClose
  | .readStatus _ => some takeReadStatus
  | .readQueue _ start => some (takeReadQueue start)
  | .readCounters _ => some takeReadCounters
  | .readEvents p => some (takeReadEvents p)
  | .ackEvents p kinds => some (takeAckEvents p kinds)
  | .setAlerts p master kinds => some (takeSetAlerts p master kinds)
  | .reset | .resetRelease | .endOfWarmUp _ | .interval | .gateClose | .noMotion => none
  | .count _ _ | .illegalTransition _ | .markArrival | .spliceArrival | .strobePulse | .strobePulseEnd => none
  | .send _ _ _ | .fetch _ _ | .voidTransaction _ _ _ => none

/-- A request command is served at its port by its own kind. -/
theorem exec_request {i : Instr} {p : Port} {k : Kind} {payload : List Byte} (h : requestParts i = some (p, k, payload)) :
    ∃ f, takenOf i = some f ∧ ∀ s, exec i s = .next (serve p k i s f) := by
  cases i <;> simp only [requestParts, Option.some.injEq, Prod.mk.injEq, reduceCtorEq] at h <;>
    obtain ⟨rfl, rfl, rfl⟩ := h <;> exact ⟨_, rfl, fun _ => rfl⟩

/-- A request command that its block takes. -/
theorem exec_takes {i : Instr} {p : Port} {k : Kind} {payload : List Byte} {f : State → Taken} {s : State}
    (h : requestParts i = some (p, k, payload)) (hf : takenOf i = some f) (ht : s.Takes p k i) :
    exec i s = .next (answerTaken p k (f s)) := by
  obtain ⟨g, hg, he⟩ := exec_request h
  rw [hg, Option.some.injEq] at hf
  subst hf
  rw [he, serve_of_takes ht]

/-- No taking moves the time base, the ports, the count of free choices or the waiting commands. -/
theorem takenOf_frame {i : Instr} {f : State → Taken} (h : takenOf i = some f) (s : State) :
    (f s).1.time = s.time ∧ (f s).1.ports = s.ports ∧ (f s).1.free = s.free ∧ (f s).1.pending = s.pending := by
  cases i <;> simp only [takenOf, Option.some.injEq, reduceCtorEq] at h <;> subst h <;> simp

end Sys2Proof.Machine
end

