-- ==== Sys2Proof/Tests/Slice0.lean ====
section
/-! SUPPORT. The model's own tests: what WellFormed refuses, one or two steps for each command with the expected values
of the manual's worked examples, and for each statement with hypotheses a state that meets them. -/

namespace Sys2Proof.Tests

open Sys2Proof Sys2Proof.Machine

/-! ## WellFormed refuses what no pin or port can carry -/

theorem test_wf_void_send_byte : ¬ (Instr.voidTransaction ⟨.l, false⟩ (some 0xA5) 0).WellFormed := by simp [Instr.WellFormed]
theorem test_wf_void_fetch_byte : ¬ (Instr.voidTransaction ⟨.l, false⟩ (some 0x3C) 0).WellFormed := by simp [Instr.WellFormed]
theorem test_wf_void_cut : ¬ (Instr.voidTransaction ⟨.l, false⟩ none 1).WellFormed := by simp [Instr.WellFormed]
theorem test_wf_geometry :
    ¬ (Instr.setGeometry .l { c := 2147483648, e := 0, m := 0, k := 0, s := 0, w := 0 }).WellFormed := by
  simp [Instr.WellFormed]
theorem test_wf_calibration :
    ¬ (Instr.setCalibration .l { circumference := 4294967296, counts := 0, filter := 0 }
      { circumference := 0, counts := 0, filter := 0 }).WellFormed := by simp [Instr.WellFormed]
theorem test_wf_sensors : ¬ (Instr.setSensors .l 256 0 0 0).WellFormed := by simp [Instr.WellFormed]
theorem test_wf_trim : ¬ (Instr.setTrim .l 0 (-2147483649)).WellFormed := by simp [Instr.WellFormed]
theorem test_wf_source : ¬ (Instr.selectSource .l 256).WellFormed := by simp [Instr.WellFormed]
theorem test_wf_strobe : ¬ (Instr.setStrobe .i 65536).WellFormed := by simp [Instr.WellFormed]
theorem test_wf_motion :
    ¬ (Instr.setMotion .l { gate := 0, decel := 65536, reaction := 0, tolerance := 0, overrun := 0, timeout := 0,
                            silence := 0, check := 0, slip := 0 }).WellFormed := by simp [Instr.WellFormed]
theorem test_wf_line_state : ¬ (Instr.lineState .l 256).WellFormed := by simp [Instr.WellFormed]
theorem test_wf_plan_count : ¬ (Instr.loadPlan .l 1 (List.replicate 99 0)).WellFormed := by simp [Instr.WellFormed]
theorem test_wf_plan_knife : ¬ (Instr.loadPlan .l 1 [65536]).WellFormed := by simp [Instr.WellFormed]
theorem test_wf_defect :
    ¬ (Instr.defect .i { tag := 65536, cls := 0, severity := 0, xs := 0, xe := 0, length := 0, age := 0 }).WellFormed := by
  simp [Instr.WellFormed]
theorem test_wf_lane_status : ¬ (Instr.laneStatus .o 0 0 256 0).WellFormed := by simp [Instr.WellFormed]
theorem test_wf_release_set : ¬ (Instr.releaseSet .l 65536 0).WellFormed := by simp [Instr.WellFormed]
theorem test_wf_read_set : ¬ (Instr.readSet .l 0 0 256).WellFormed := by simp [Instr.WellFormed]
theorem test_wf_read_lane : ¬ (Instr.readLane .l 0 0 0 256 0).WellFormed := by simp [Instr.WellFormed]
theorem test_wf_splice_made : ¬ (Instr.spliceMade .o 1 1 [65536]).WellFormed := by simp [Instr.WellFormed]
theorem test_wf_splice_count : ¬ (Instr.spliceMade .o 1 1 (List.replicate 99 0)).WellFormed := by
  simp [Instr.WellFormed]
theorem test_wf_add_stop : ¬ (Instr.addStop .l 1 4294967296).WellFormed := by simp [Instr.WellFormed]
theorem test_wf_cancel_stop : ¬ (Instr.cancelStop .l 256).WellFormed := by simp [Instr.WellFormed]
theorem test_wf_set_target : ¬ (Instr.setTarget .l 4294967296).WellFormed := by simp [Instr.WellFormed]
theorem test_wf_read_stops : ¬ (Instr.readStops .l 256).WellFormed := by simp [Instr.WellFormed]
theorem test_wf_read_queue : ¬ (Instr.readQueue .l 256).WellFormed := by simp [Instr.WellFormed]
theorem test_wf_ack_count : ¬ (Instr.ackEvents .l (List.replicate 200 0)).WellFormed :=
  fun h => by have := h.1; rw [List.length_replicate] at this; omega
theorem test_wf_ack_code : ¬ (Instr.ackEvents .l [256]).WellFormed := by simp [Instr.WellFormed]
theorem test_wf_alerts_master : ¬ (Instr.setAlerts .l 256 []).WellFormed := by simp [Instr.WellFormed]
theorem test_wf_alerts_count : ¬ (Instr.setAlerts .l 0 (List.replicate 199 0)).WellFormed :=
  fun h => by have := h.2.1; rw [List.length_replicate] at this; omega

/-! ## States for the tests -/

/-- The state a command leaves. -/
def after (i : Instr) (s : State) : State :=
  match exec i s with
  | .next t => t
  | _ => s

/-- The reply bytes at a port after a command. -/
def replyOf (p : Port) (i : Instr) (s : State) : List Byte := ((after i s).port p).reply

/-- The part at the end of warm-up, every port READY. -/
def warming : State := { State.reset with time := { inReset := false, cycle := 0, warmUp := .counting 4 } }

def awake : State := endWarmUp lowLevels warming

/-- Plan 41 of Chapter 14: six lanes of 4,600 units, lane 3 from 10,400 to 14,999. -/
def plan41 : Plan := { id := 41, knives := [1200, 5800, 10400, 15000, 19600, 24200, 28800] }

def freshLane (n : Nat) : LaneRecord :=
  { number := n, width := 4600, defects := [], splices := [], defectOverflow := 0, spliceOverflow := 0, status := .good,
    edits := 0 }

def set1 : SetRecord :=
  { job := 170, number := 1, plan := 41, knives := plan41.knives, start := 0, target := some 1200000,
    closedLength := none, mapIncomplete := false, lengthFallback := false, mixed := none, trimTally := 0,
    unplacedTally := 0, removedTally := 0, repeatTally := 0, markFaultTally := 0,
    lanes := [freshLane 1, freshLane 2, freshLane 3, freshLane 4, freshLane 5, freshLane 6] }

/-- The parameters of job 170 (Chapter 14). -/
def job170 : JobParams :=
  { number := 170, target := some 1200000, spliceLimit := 2, enforce := false, classes := 8, stopSeverity := .major,
    stopOnDefect := true, stopOffset := 300, holdOnCritical := false }

def jobFields170 : JobFields :=
  { job := 170, targetPresent := 1, target := 1200000, spliceLimit := 2, enforce := 0, classes := 8, severity := 2,
    stopOnDefect := 1, stopOffset := 300, holdOnCritical := 0, tracking := 1, expected := 6400, window := 200,
    lossCount := 3, stopOnLoss := 0, align := 1, cutOffset := 200 }

/-- Entry 1 of Chapter 14: web mark 1,169,150, target 1,204,150. -/
def setEnd1 : StopEntry :=
  { id := 1, kind := .setEnd, origin := .internal, ref := .set 1, web := 1169150, station := 35000, target := 1204150,
    insertion := 0, active := false, late := false, shortfall := 0, overrun := false }

def planned : State := { awake with plans := { active := some plan41, staged := none } }

/-- READY for a set under job 170. -/
def ready : State := { planned with job := { state := .ready, params := job170, setCounter := 0 } }

/-- Set 1 WINDING in slot 1 at standstill, at position `p`. -/
def windingAt (p : Nat) : State :=
  { planned with
    job := { state := .winding, params := job170, setCounter := 1 }
    length := { planned.length with p := p }
    roll := { planned.roll with slots := planned.roll.slots.set 0 (.winding set1) }
    tracker := { planned.tracker with settings :=
      { tracking := true, expected := 6400, window := 200, lossCount := 3, stopOnLoss := 0, align := 1, cutOffset := 200 } }
    queue := { planned.queue with nextNumber := 5 }
    stops := { planned.stops with entries := [setEnd1], nextId := 2, insertions := 1 } }

/-- The line at 1,000 mm/s with S = 11,000 (14.1). -/
def runningAt (p : Nat) : State :=
  { windingAt p with
    motion := { (windingAt p).motion with
      ring := { d1 := 200, d2 := 200, d3 := 200, d4 := 200 }, speed := 1000, braking := 11000, standstill := false,
      baseline := p - 200, gateClock := 20 } }

/-- The DEFECT request of 14.1. -/
def defect7001 : DefectFields :=
  { tag := 7001, cls := 3, severity := 2, xs := 11000, xe := 11800, length := 60, age := 1500 }

/-- Records 5 and 6 of 14.2. -/
def record5 : PathRecord :=
  { body := { number := 5, kind := .defect 7001 3 .major, xs := 11000, xe := 11800, length := 60, web := 413500 },
    slit := some { first := 3, last := 3, plan := 41 }, stopId := none, joined := 0 }
def record6 : PathRecord :=
  { body := { number := 6, kind := .defect 7002 1 .minor, xs := 0, xe := 0, length := 1, web := 430000 },
    slit := none, stopId := none, joined := 1 }

/-- The queue of 14.2 at position `p`. -/
def queuedAt (p : Nat) : State :=
  { windingAt p with queue := { (windingAt p).queue with records := [record5, record6], nextNumber := 7, nextJoin := 2 } }

/-- The cut of 14.2, opened at 427,820, with clean web pulled through to `p`. -/
def cutAt (p : Nat) : State := (queuedAt p).toJobState (.cutOpen 427820)

/-- The tracker LOCKED with its last mark at `w` and Rm = 6,400. -/
def lockedAt (w : Int) (s : State) : State :=
  { s with tracker := { s.tracker with state := .locked { wlast := w, wacc := w, rm := 6400, missed := 0 } } }

/-- Closed set 1 in slot 1. -/
def closedSet : State :=
  { ready with roll := { ready.roll with slots := ready.roll.slots.set 0 (.closed { set1 with closedLength := some 5 }),
                                         closeList := [1] } }

def fields (c k : Nat) : CalibrationFields := { circumference := c, counts := k, filter := 4 }

/-- Settings with every figure at the bottom of its range, and at the top (R32). -/
def lowMotion : MotionFields :=
  { gate := 0, decel := 50, reaction := 0, tolerance := 0, overrun := 100, timeout := 500, silence := 1000, check := 10000,
    slip := 100 }
def highMotion : MotionFields :=
  { gate := 3, decel := 5000, reaction := 1000, tolerance := 5000, overrun := 1000000, timeout := 10000,
    silence := 100000, check := 1000000, slip := 50000 }

/-! ## One step of each command -/

/-- R194: reset restores the interval of 100 (R22). -/
theorem test_reset : (after .reset { awake with strobe := { awake.strobe with interval := 7 } }).strobe.interval = 100 := by
  decide
theorem test_reset_release : (after .resetRelease State.reset).time.inReset = false := by decide
theorem test_end_of_warm_up : ((after (.endOfWarmUp lowLevels) warming).port .l).state = .ready := by decide
/-- R194: four intervals of warm-up. -/
theorem test_interval_warm_up :
    (after .interval { warming with time := { warming.time with warmUp := .counting 3 } }).time.warmUp = .counting 4 := by
  decide
theorem test_interval_gate_clock : (after .interval awake).motion.gateClock = 1 := by decide
/-- 14.1: at 1,000 mm/s every gate delta is 200 and S = 11,000. -/
theorem test_gate_close_1000 : (after .gateClose (runningAt 400000)).motion.speed = 1000 ∧
    (after .gateClose (runningAt 400000)).motion.braking = 11000 := by decide
/-- 14.3: Σ = 2,000 is 2,500 mm/s and S = 65,000. -/
theorem test_gate_close_2500 :
    (after .gateClose { runningAt 400000 with motion := { (runningAt 400000).motion with
      ring := { d1 := 0, d2 := 500, d3 := 600, d4 := 700 } } }).motion.braking = 65000 := by decide
theorem test_no_motion :
    (after .noMotion { awake with motion := { awake.motion with timerOn := true } }).motion.timerOn = false := by decide
/-- R4 and R10: two counts of 50 µm forward are one unit of 0.1 mm. -/
theorem test_count_two_forward : (after (.count .a .two) (after (.count .a .one) awake)).length.p = 1 := by decide
/-- R4 and R12: a reverse step at position 0 stays at 0. -/
theorem test_count_reverse_at_zero : (after (.count .a .two) awake).length.a.position = 0 := by decide
theorem test_illegal_transition : (after (.illegalTransition .b) awake).inputs.encB.glitches = 1 := by decide
/-- 14.3: the GOOD mark at Wm = 445,750 moves the SET-END target to 1,210,550. -/
theorem test_mark_good :
    ((after .markArrival (lockedAt 439350
      { runningAt 437750 with roll := { (runningAt 437750).roll with
          slots := (runningAt 437750).roll.slots.set 0 (.winding { set1 with start := 6000 }) } })).stops.entries.map
        (·.target)) = [1210550] := by decide +kernel
theorem test_mark_locks :
    (after .markArrival (windingAt 100)).tracker.state =
      .locked { wlast := 8100, wacc := 8100, rm := 6400, missed := 0 } := by decide
/-- R65: W = P − e, over the whole width. -/
theorem test_splice_arrival : (after .spliceArrival (windingAt 100)).queue.records.map (·.body.web) = [12100] := by decide
theorem test_strobe_pulse :
    (after .strobePulse { awake with strobe := { awake.strobe with owed := 2 } }).strobe.owed = 1 := by decide
theorem test_strobe_pulse_end :
    (after .strobePulseEnd { awake with strobe := { awake.strobe with high := true } }).strobe.high = false := by decide
/-- 10.3 and 13.3: SET-STROBE with Q = 100 is 06h, 02h, 00h, 64h and the check byte 94h. -/
theorem test_send_frame :
    ((after (.send ⟨.i, false⟩ [0x06, 0x02, 0x00, 0x64, 0x94] false) awake).port .i).request = some (.setStrobe .i 100) := by decide
/-- R174: a wrong check byte is answered FRAME-ERROR (0Ah). -/
theorem test_send_bad_check : (replyOf .i (.send ⟨.i, false⟩ [0x06, 0x02, 0x00, 0x64, 0x95] false) awake).head? = some 0x0A := by
  decide
theorem test_fetch :
    ((after (.fetch ⟨.l, false⟩ 4) (after (.lineState .l 1) awake)).port .l).sdo = [0x53, 0x00, 0x08, 0x00, 0xF8] := by decide
/-- 10.11, step 7: the reply is made while the FETCH is under way, so that transaction still clocks out filler. -/
theorem test_fetch_early :
    ((after (.fetch ⟨.l, true⟩ 4) (after (.lineState .l 1) awake)).port .l).sdo = [0x52, 0x00, 0x00, 0x00, 0x00] := by decide
/-- R172, R173: a SEND whose select came in warm-up is discarded. -/
theorem test_send_early :
    ((after (.send ⟨.i, true⟩ [0x06, 0x02, 0x00, 0x64, 0x94] false) awake).port .i).discarded = 1 := by decide
theorem test_void : ((after (.voidTransaction ⟨.o, false⟩ none 0) awake).port .o).discarded = 1 := by decide
theorem test_set_geometry :
    (after (.setGeometry .l { resetGeometry with w := 200000 }) awake).geometry.w = 200000 := by decide
theorem test_set_calibration :
    (after (.setCalibration .l (fields 2000000 100) (fields 100000 80000)) awake).length.b.counts = 80000 := by decide
theorem test_set_sensors : (after (.setSensors .l 4 1 0 0) awake).inputs.mark.filter = 12000 := by decide
theorem test_set_trim : (after (.setTrim .o 1 (-20000)) awake).length.b.trim = -20000 := by decide
theorem test_select_source : (after (.selectSource .l 1) awake).length.active = .b := by decide
theorem test_set_strobe : (after (.setStrobe .i 1000) awake).strobe.interval = 1000 := by decide
theorem test_set_motion : (after (.setMotion .l highMotion) awake).motion.nextGate = some 50 := by decide
theorem test_line_state : (after (.lineState .l 1) awake).motion.timer = 2000 := by decide
/-- R44: DONE with plan id 41 and 6 lanes. -/
theorem test_load_plan : replyOf .l (.loadPlan .l 41 plan41.knives) awake =
    [0x00, 0x09, 0x03, 0x00, 0x29, 0x06, 0xC5] := by decide
/-- 14.1: the reply is DONE, record 5, stop entry 2. -/
theorem test_defect_reply : replyOf .i (.defect .i defect7001) (runningAt 400000) =
    [0x00, 0x0A, 0x03, 0x00, 0x05, 0x02, 0xEC] := by decide
/-- 14.1: W = 413,500 and target 427,800. -/
theorem test_defect_figures :
    (after (.defect .i defect7001) (runningAt 400000)).queue.records.map (·.body.web) = [413500] ∧
    (after (.defect .i defect7001) (runningAt 400000)).stops.entries.map (·.target) = [427800, 1204150] := by decide
theorem test_lane_status :
    replyOf .o (.laneStatus .o 170 1 7 0) (windingAt 0) = [0x03, 0x0B, 0x00, 0xF2] := by decide
theorem test_release_set : (after (.releaseSet .l 170 1) closedSet).roll.closeList = [1] ∧
    ((after (.releaseSet .l 170 1) closedSet).roll.slot 1).isClosed = true := by decide
/-- 13.6: 41 bytes and 12 for each lane, within a reply of 4 bytes more. -/
theorem test_read_set : (replyOf .l (.readSet .l 170 1 1) (windingAt 0)).length = 4 + 41 + 6 * 12 := by decide
theorem test_read_lane : (replyOf .l (.readLane .l 170 1 6 1 0) (windingAt 0)).length = 4 + 5 := by decide
/-- 14.2: CUT-OPEN is taken with Popen = 427,820 (0006872Ch). -/
theorem test_cut_open : replyOf .o (.cutOpen .o) (windingAt 427820) =
    [0x00, 0x0F, 0x04, 0x00, 0x06, 0x87, 0x2C, 0x34] := by decide
/-- 14.2: Lcut 6,000, one named record removed, none pulled through, repair splice 7. -/
theorem test_splice_made_reply : replyOf .o (.spliceMade .o 1 6 [5]) (cutAt 433820) =
    [0x00, 0x10, 0x08, 0x00, 0x00, 0x17, 0x70, 0x01, 0x00, 0x00, 0x07, 0x59] := by decide +kernel
/-- 14.2: the queue holds 7 at 419,820 and 6 at 430,000; entry 1 moves to 1,210,150. -/
theorem test_splice_made_figures :
    (after (.spliceMade .o 1 6 [5]) (cutAt 433820)).queue.records.map (fun r => (r.body.number, r.body.web)) =
      [(7, 419820), (6, 430000)] ∧
    (after (.spliceMade .o 1 6 [5]) (cutAt 433820)).stops.entries.map (·.target) = [1210150] := by decide +kernel
theorem test_cut_cancel : (after (.cutCancel .o) (cutAt 433820)).job.state = .winding := by decide
theorem test_add_stop_length : replyOf .l (.addStop .l 1 500000) (windingAt 100) =
    [0x00, 0x12, 0x06, 0x02, 0x00, 0x00, 0x07, 0xA1, 0x20, 0x1E] := by decide
/-- 14.2, a NOW entry in a cut: activated and completed at once at the end, OVER and LATE, error +2,820. -/
theorem test_add_stop_now_in_a_cut :
    ((after (.cutCancel .o) { after (.addStop .o 0 0) (cutAt 431000) with
        ports := awake.ports, length := (cutAt 433820).length }).stops.lastStop.map
      (fun r => (r.error, r.outcome, r.late, r.shortfall))) = some (2820, .over, true, 2820) := by decide
theorem test_cancel_stop : (after (.cancelStop .l 1) (windingAt 0)).stops.entries = [] := by decide
theorem test_set_target : (after (.setTarget .o 10000) (windingAt 0)).stops.entries.map (·.target) = [10000] := by decide
theorem test_read_stops : (replyOf .l (.readStops .l 0) (windingAt 0)).length = 4 + 29 + 31 := by decide
theorem test_job_start : (after (.jobStart .l jobFields170) planned).job.params = job170 := by decide
theorem test_job_end : (after (.jobEnd .l) ready).job.state = .noJob := by decide
/-- R165: job 170, set 1, slot 1, plan 41, entry 1. -/
theorem test_set_start : replyOf .o (.setStart .o) ready =
    [0x00, 0x18, 0x08, 0x00, 0xAA, 0x00, 0x01, 0x01, 0x00, 0x29, 0x01, 0x0A] := by decide
/-- 14.5: record 43 of the register, its entries UNWOUND in lanes 3 and 4. -/
def item43 : RegisterItem :=
  { body := { number := 43, kind := .defect 43 1 .minor, xs := 11000, xe := 15000, length := 1, web := 1173000 },
    lanes := { first := 3, last := 4, plan := 41 } }
def lane43 (n : Nat) : LaneRecord :=
  { freshLane n with defects := [{ record := 43, tag := 43, cls := 1, severity := .minor, length := 1, position := 1202000,
                                   offset := 600, oldPlan := false, wound := false }] }
def closing : State :=
  { windingAt 1205530 with
    roll := { (windingAt 1205530).roll with
      slots := (windingAt 1205530).roll.slots.set 0 (.winding { set1 with
        start := 6000
        lanes := [freshLane 1, freshLane 2, lane43 3, lane43 4, freshLane 5, freshLane 6] })
      register := [item43] }
    stops := { (windingAt 1205530).stops with entries := [] } }
/-- 14.5: closed length 1,199,530 (00124DAAh), 1 returned and 0 discarded. -/
theorem test_set_close_reply : replyOf .l (.setClose .l) closing =
    [0x00, 0x19, 0x0D, 0x00, 0xAA, 0x00, 0x01, 0x01, 0x00, 0x12, 0x4D, 0xAA, 0x00, 0x01, 0x00, 0x00, 0x24] := by decide
/-- 14.5: record 43 returns as SLIT with W = 1,173,000, and each lane's edit count rises by 1. -/
theorem test_set_close_return :
    (after (.setClose .l) closing).queue.records.map (fun r => (r.body.number, r.body.web, r.slit.isSome)) =
      [(43, 1173000, true)] ∧
    (((after (.setClose .l) closing).roll.slot 1).record?.map (fun r => r.lanes.map (·.edits))) =
      some [0, 0, 1, 1, 0, 0] := by decide +kernel
/-- 13.5: 29 bytes. -/
theorem test_read_status : (replyOf .i (.readStatus .i) (windingAt 5)).length = 4 + 29 := by decide
/-- R181: 5 bytes and 24 for each record. -/
theorem test_read_queue : (replyOf .i (.readQueue .i 1) (queuedAt 0)).length = 4 + 5 + 24 := by decide
/-- 13.3: 56 bytes. -/
theorem test_read_counters : (replyOf .l (.readCounters .l) awake).length = 4 + 56 := by decide
/-- 13.3: master off, line asserted, nothing enabled, one pending kind NO-MOTION (03h) with count 1. -/
theorem test_read_events : replyOf .o (.readEvents .o) (awake.post .noMotion) =
    [0x00, 0x1D, 0x09, 0x00, 0x01, 0x00, 0x00, 0x00, 0x00, 0x01, 0x03, 0x01, 0xD4] := by decide
theorem test_ack_events : ((after (.ackEvents .l [3]) (awake.post .noMotion)).alerts.get .l).line = false ∧
    ((after (.ackEvents .l [3]) (awake.post .noMotion)).alerts.get .i).line = true := by decide
theorem test_set_alerts : ((after (.setAlerts .l 1 [1, 24]) awake).alerts.get .l).enabled = [.planActivated] := by decide
/-- R30, the worked case v = 1,234, a = 700, t = 37: S = 11,334. -/
theorem test_braking_case : brakingDistance 1234 700 37 = 11334 := by decide

/-! ## States that meet the hypotheses of each statement, clause by clause -/

/-- A state on which every invariant holds and which moves: two records, a stop entry, a winding set, a pending kind. -/
def busy : State :=
  { (queuedAt 400000).post .queueFull with
    motion := (runningAt 400000).motion
    queue := { (queuedAt 400000).queue with flow := { Flow.zero with taken := 2 } }
    pending := [.gateClose, .count .a .one] }

theorem witness_StepTakesTheFrontCommand : busy.pending = .gateClose :: [.count .a .one] := by decide

theorem witness_IdleStepRunsOneClockCycle :
    (State.reset.pending = [] ∧ State.reset.time.inReset = true) ∧
    (awake.pending = [] ∧ awake.running = true ∧ awake.NothingDue ∧ awake.time.cycle + 1 < 24000) := by decide
theorem witness_IdleStepRunsOneClockCycle_last :
    let s := { awake with time := { awake.time with cycle := 23998 } }
    s.pending = [] ∧ s.running = true ∧ s.NothingDue ∧ s.time.cycle + 1 < 24000 := by decide

theorem witness_ReleaseAndWarmUpFollowR194 :
    State.reset.time.inReset = true ∧ (warming.time.inReset = false ∧ warming.time.warmUp = .counting 4) := by decide

theorem witness_IntervalAdvancesTheClocks :
    let s := { warming with time := { warming.time with warmUp := .counting 3 } }
    (s.time.inReset = false ∧ s.NothingDue ∧ s.time.warmUp = .counting 3) ∧
    (awake.time.inReset = false ∧ awake.NothingDue ∧ awake.time.warmUp = .ended) := by decide

theorem witness_GateCloseMeasuresTheWeb :
    (runningAt 400000).running = true ∧
    (runningAt 400000).motion.settings.gate = (runningAt 400000).motion.gateClock := by decide
/-- Each change of STANDSTILL that the statement speaks of occurs. -/
theorem witness_GateCloseMeasuresTheWeb_standstill :
    let starts := { windingAt 1 with motion := { (windingAt 1).motion with gateClock := 20 } }
    let stops := { windingAt 1 with motion := { (windingAt 1).motion with
      gateClock := 20, baseline := 1, standstill := false, report := .running, checkOpen := true,
      ring := { d1 := 1, d2 := 0, d3 := 0, d4 := 0 } } }
    (starts.motion.standstill = true ∧ (after .gateClose starts).motion.standstill = false) ∧
    (stops.motion.standstill = false ∧ (after .gateClose stops).motion.standstill = true) := by decide

theorem witness_BrakingDistanceIsRoundedUp :
    ((runningAt 400000).running = true ∧
      (runningAt 400000).motion.settings.gate ≤ (runningAt 400000).motion.gateClock ∧
      0 < (runningAt 400000).motion.settings.decel ∧ (runningAt 400000).motion.standstill = false) ∧
    (let s := { windingAt 1 with motion := { (windingAt 1).motion with standstill := false } }
     s.motion.standstill = false ∧ s.motion.braking = 0) := by decide

theorem witness_NoMotionIsPostedOnce :
    let s := { awake with motion := { awake.motion with timerOn := true } }
    s.running = true ∧ s.motion.timerOn = true ∧ s.motion.timer = 0 := by decide

theorem witness_SetMotionStoresNineSettings :
    (runningAt 0).Takes .l .setMotion (.setMotion .l lowMotion) ∧ (runningAt 0).motion.standstill = false ∧
    awake.Takes .l .setMotion (.setMotion .l { highMotion with gate := 4 }) ∧
    awake.Takes .l .setMotion (.setMotion .l lowMotion) ∧ awake.Takes .l .setMotion (.setMotion .l highMotion) ∧
    awake.motion.standstill = true := by decide
/-- The two ends of every range are in range. -/
theorem witness_SetMotionStoresNineSettings_range :
    ∀ m ∈ [lowMotion, highMotion], m.gate ≤ 3 ∧ (50 ≤ m.decel ∧ m.decel ≤ 5000) ∧ m.reaction ≤ 1000 ∧
      m.tolerance ≤ 5000 ∧ (100 ≤ m.overrun ∧ m.overrun ≤ 1000000) ∧ (500 ≤ m.timeout ∧ m.timeout ≤ 10000) ∧
      (1000 ≤ m.silence ∧ m.silence ≤ 100000) ∧ (10000 ≤ m.check ∧ m.check ≤ 1000000) ∧
      (100 ≤ m.slip ∧ m.slip ≤ 50000) := by decide

theorem witness_LineStateSetsTheMotionCheck :
    (∀ r ∈ [0, 1, 2, 3], awake.Takes .l .lineState (.lineState .l r)) ∧ awake.motion.standstill = true ∧
    (runningAt 0).Takes .l .lineState (.lineState .l 1) ∧ (runningAt 0).motion.standstill = false := by decide

theorem witness_CountMovesItsEncoderExactly :
    awake.running = true ∧ (awake.length.measure .a).Sound ∧ (awake.length.measure .b).Sound ∧
    awake.length.active = .a := by decide
/-- A reverse count within the remainder, one that loses a unit, and one held at 0. -/
theorem witness_CountMovesItsEncoderExactly_reverse :
    let m : Measure := awake.length.a
    let half : Measure := { m with remainder := m.numerator }
    let one : Measure := { m with position := 1 }
    (half.Sound ∧ half.numerator ≤ half.remainder) ∧
    (one.Sound ∧ one.remainder < one.numerator ∧ (one.numerator - one.remainder + one.divisor - 1) / one.divisor ≤ 1) ∧
    (m.Sound ∧ m.remainder < m.numerator ∧
      m.position < (m.numerator - m.remainder + m.divisor - 1) / m.divisor) := by decide

theorem witness_CountsAccumulateWithoutLoss :
    let m : Measure := awake.length.a
    m.Sound ∧ m.position + (m.remainder + 3 * m.numerator) / m.divisor ≤ topOfPosition ∧
    m.position + (m.remainder + m.numerator) / m.divisor ≤ topOfPosition := by decide

theorem witness_IllegalTransitionCountsAGlitch :
    awake.running = true ∧ (awake.inputs.encoder .a).glitchPosted = false ∧
    ((after (.illegalTransition .a) awake).inputs.encoder .a).glitchPosted = true := by decide

theorem witness_StrobePulsesFollowTheOwedCount :
    let low := { awake with strobe := { awake.strobe with owed := 1 } }
    let high := { awake with strobe := { awake.strobe with high := true } }
    (low.running = true ∧ low.strobe.high = false ∧ 0 < low.strobe.owed) ∧
    (high.running = true ∧ high.strobe.high = true) := by decide

theorem witness_SetStrobeReplacesTheInterval :
    (∀ q ∈ [0, 1, 1000, 1001], awake.Takes .i .setStrobe (.setStrobe .i q)) ∧
    (let d : Strobe := { awake.strobe with interval := 1000 }
     d.interval = 1000 ∧ d.count = 0 ∧ d.owed = 0) := by decide

theorem witness_SetTrimReplacesOneTrim :
    (∀ t ∈ [(-20001 : Int), -20000, 20000, 20001],
      awake.Takes .l .setTrim (.setTrim .l 0 t) ∧ awake.Takes .o .setTrim (.setTrim .o 1 t)) ∧
    awake.Takes .l .setTrim (.setTrim .l 2 0) ∧
    (awake.length.measure .a).remainder < (awake.length.measure .a).divisor := by decide

theorem witness_SetGeometryReplacesSixOffsets :
    (ready.Takes .l .setGeometry (.setGeometry .l resetGeometry) ∧ ready.job.state ≠ .noJob) ∧
    awake.job.state = .noJob ∧
    awake.Takes .l .setGeometry (.setGeometry .l { resetGeometry with w := 200001 }) ∧
    awake.Takes .l .setGeometry (.setGeometry .l
      { c := -200000, e := -200000, m := -200000, k := -199999, s := 1, w := 200000 }) := by decide

theorem witness_SetCalibrationReplacesBothEncoders :
    (ready.Takes .l .setCalibration (.setCalibration .l (fields 100000 100) (fields 100000 100)) ∧
      ready.job.state ≠ .noJob) ∧
    awake.job.state = .noJob ∧
    awake.Takes .l .setCalibration (.setCalibration .l (fields 99999 100) (fields 100000 100)) ∧
    awake.Takes .l .setCalibration (.setCalibration .l (fields 100000 100) (fields 2000000 80000)) := by decide

theorem witness_SetSensorsReplacesBothLines :
    ((windingAt 0).Takes .l .setSensors (.setSensors .l 0 0 0 0) ∧ (windingAt 0).job.state.setOpen = true) ∧
    (ready.Takes .l .setSensors (.setSensors .l 5 0 0 0) ∧ ready.job.state.setOpen = false) ∧
    ready.Takes .l .setSensors (.setSensors .l 4 1 4 1) := by decide

theorem witness_SelectSourceSwitchesAtStandstill :
    (∀ n ∈ [0, 1, 2], awake.Takes .l .selectSource (.selectSource .l n)) ∧
    ((awake.length.measure .b).silent = false ∧ awake.motion.standstill = true) ∧
    ((runningAt 0).Takes .l .selectSource (.selectSource .l 0) ∧ ((runningAt 0).length.measure .a).silent = false ∧
      (runningAt 0).motion.standstill = false) ∧
    (let s := { awake with length := { awake.length with a := { awake.length.a with silent := true } } }
     s.Takes .l .selectSource (.selectSource .l 0) ∧ (s.length.measure .a).silent = true) := by decide

theorem witness_LoadPlanStagesACheckedPlan :
    awake.Takes .l .loadPlan (.loadPlan .l 65536 [0, 100]) ∧ awake.Takes .l .loadPlan (.loadPlan .l 65535 [0, 100]) ∧
    planAllowed 65536 [0, 100] = false ∧ planAllowed 65535 [0, 100] = true ∧ planAllowed 1 [0, 99] = false ∧
    planAllowed 1 [29900, 30000] = true ∧
    (planned.Takes .l .loadPlan (.loadPlan .l 41 [0, 100]) ∧ planned.plans.active = some plan41 ∧ plan41.id = 41 ∧
      plan41.knives ≠ [0, 100]) := by decide

theorem witness_EveryPositionLiesInOneLane :
    planAllowed 41 plan41.knives = true ∧ plan41.knives.length = 7 ∧ laneAt plan41.knives 1200 = 1 ∧
    laneAt plan41.knives 5799 = 1 ∧ laneAt plan41.knives 5800 = 2 ∧ laneAt plan41.knives 28799 = 6 := by decide

theorem witness_LookupAnswersTheLanesTouched :
    planAllowed 41 plan41.knives = true ∧ 11000 ≤ 11800 ∧
    lookupLanes (some plan41) 11000 11800 = .lanes { first := 3, last := 3, plan := 41 } ∧
    lookupLanes (some plan41) 0 1199 = .trim ∧ lookupLanes (some plan41) 28800 30000 = .trim := by decide

/-- Sixty-four records, so that the queue is full. -/
def fullQueue : State :=
  { windingAt 0 with queue := { (windingAt 0).queue with
      records := (List.range 64).map (fun n => { record6 with joined := n }), nextJoin := 64 } }

theorem witness_DefectIsCheckedAndTaken :
    (awake.Takes .i .defect (.defect .i defect7001) ∧ awake.job.state = .noJob) ∧
    ((windingAt 0).Takes .i .defect (.defect .i { defect7001 with cls := 16 }) ∧ (windingAt 0).job.state ≠ .noJob) ∧
    ((queuedAt 0).Takes .i .defect (.defect .i defect7001) ∧ (queuedAt 0).tagLive 7001 = true) := by decide
theorem witness_DefectIsCheckedAndTaken_full :
    (fullQueue.Takes .i .defect (.defect .i defect7001) ∧ fullQueue.job.state ≠ .noJob ∧
      fullQueue.tagLive 7001 = false) ∧ 64 ≤ fullQueue.queue.records.length := by decide
/-- A taken report upstream of the knives that makes a stop, and one whose point has passed them. -/
theorem witness_DefectIsCheckedAndTaken_taken :
    let s := runningAt 400000
    let far : Int := ((400000 - 1500 : Nat) : Int) - s.geometry.c
    let past : Int := ((400000 - 65535 : Nat) : Int) - s.geometry.c
    (s.Takes .i .defect (.defect .i defect7001) ∧ s.job.state ≠ .noJob ∧ s.tagLive 7001 = false ∧
      s.queue.records.length < 64 ∧ s.stops.entries.length < 16 ∧ s.motion.standstill = false) ∧
    (s.job.params.stopOnDefect = true ∧ s.job.params.classes.testBit 3 = true ∧
      s.job.params.stopSeverity.rank ≤ 2) ∧
    (s.length.p : Int) < far + s.geometry.k ∧
    (s.Takes .i .defect (.defect .i { defect7001 with age := 65535, cls := 1 }) ∧
      past + s.geometry.k ≤ (s.length.p : Int)) := by decide

theorem witness_SpliceArrivalEntersOneRecord :
    (awake.running = true ∧ awake.job.state = .noJob) ∧
    (let s := { windingAt 0 with queue := { (windingAt 0).queue with highMark := some 11000 } }
     s.running = true ∧ s.job.state ≠ .noJob ∧ s.queue.highMark = some 11000 ∧
     (s.length.p : Int) - s.geometry.e ≤ 11000 + 1000) ∧
    (fullQueue.running = true ∧ fullQueue.queue.highMark = none ∧ 64 ≤ fullQueue.queue.records.length) ∧
    ((windingAt 0).running = true ∧ (windingAt 0).queue.highMark = none ∧
      (windingAt 0).queue.records.length < 64 ∧ (windingAt 0).job.params.enforce = false) := by decide

theorem witness_LaneStatusFollowsTheTable :
    (∀ st ∈ [0, 1, 2, 3], (windingAt 0).Takes .o .laneStatus (.laneStatus .o 170 1 6 st)) ∧
    (windingAt 0).Takes .o .laneStatus (.laneStatus .o 170 1 7 1) ∧
    (windingAt 0).roll.find 170 1 = .ok 1 ∧ (windingAt 0).roll.slot 1 = .winding set1 ∧
    set1.lanes[6 - 1]? = some (freshLane 6) ∧ (freshLane 6).status = .good ∧
    (closedSet.Takes .o .laneStatus (.laneStatus .o 170 1 1 2) ∧ closedSet.roll.find 170 1 = .ok 1 ∧
      closedSet.roll.slot 1 = .closed { set1 with closedLength := some 5 }) := by decide
theorem witness_LaneStatusFollowsTheTable_held :
    let held := (after (.laneStatus .o 170 1 1 1) (windingAt 0)).roll.slot 1
    held.record?.map (fun r => r.lanes[0]?.map (·.status)) = some (some (.hold none)) := by decide
theorem witness_LaneStatusFollowsTheTable_released :
    let s := { after (.releaseSet .l 170 1) closedSet with ports := awake.ports }
    s.Takes .o .laneStatus (.laneStatus .o 170 1 1 2) ∧ s.roll.find 170 1 = .ok 1 ∧
    s.roll.slot 1 = .released { set1 with closedLength := some 5 } := by decide

theorem witness_ReleaseSetFreesAClosedSet :
    (awake.Takes .l .releaseSet (.releaseSet .l 170 1) ∧ awake.roll.find 170 1 = .error .notFound) ∧
    (closedSet.Takes .l .releaseSet (.releaseSet .l 170 1) ∧ closedSet.roll.find 170 1 = .ok 1 ∧
      closedSet.roll.slot 1 = .closed { set1 with closedLength := some 5 }) ∧
    ((windingAt 0).Takes .l .releaseSet (.releaseSet .l 170 1) ∧ (windingAt 0).roll.find 170 1 = .ok 1 ∧
      (windingAt 0).roll.slot 1 = .winding set1) := by decide

theorem witness_CutOpenRecordsTheBase :
    (ready.Takes .o .cutOpen (.cutOpen .o) ∧ ready.job.state ≠ .winding) ∧
    ((runningAt 0).Takes .o .cutOpen (.cutOpen .o) ∧ (runningAt 0).job.state = .winding ∧
      (runningAt 0).motion.standstill = false) ∧
    (let s := windingAt 4294967295
     s.Takes .o .cutOpen (.cutOpen .o) ∧ s.job.state = .winding ∧ s.motion.standstill = true ∧
     s.length.p ≤ topOfPosition) := by decide

theorem witness_SpliceMadeEndsTheCut :
    ((windingAt 0).Takes .o .spliceMade (.spliceMade .o 1 6 [5]) ∧ (windingAt 0).job.state.isCutOpen = false) ∧
    ((cutAt 433820).Takes .o .spliceMade (.spliceMade .o 1 6 [5, 1, 2, 65535]) ∧
      (cutAt 433820).Takes .o .spliceMade (.spliceMade .o 1 7 [5]) ∧
      (cutAt 433820).job.state = .cutOpen 427820 ∧ (cutAt 433820).roll.windingSet = some set1 ∧
      set1.lanes.length = 6) := by decide

theorem witness_CutCancelEndsTheCut :
    ((windingAt 0).Takes .o .cutCancel (.cutCancel .o) ∧ (windingAt 0).job.state.isCutOpen = false) ∧
    ((cutAt 433820).Takes .o .cutCancel (.cutCancel .o) ∧ (cutAt 433820).job.state.isCutOpen = true) := by decide

theorem witness_CutShiftKeepsRollPositions :
    closing.roll.windingSet.map (·.start) = some 6000 ∧ 6000 + 6000 ≤ topOfPosition ∧
    item43 ∈ closing.roll.register ∧ item43.body.web + closing.geometry.s ≤ (1205530 : Int) ∧
    ((cutAt 433820).roll.windingSet = some set1 ∧ record5 ∈ (cutAt 433820).queue.records ∧
      record5.body.web + (cutAt 433820).geometry.s ≤ (427820 : Int)) := by decide

/-- A position that puts a forward mark at the web mark `wm` under the reset geometry. -/
def markAt (wm : Nat) : State := lockedAt 439350 (runningAt (wm - 8000))

theorem witness_MarkArrivalIsClassed_ignored :
    (awake.running = true ∧ awake.job.state = .noJob) ∧
    (windingAt 0).tracker.state = .unlocked ∧ (windingAt 0).running = true ∧
    ((windingAt 0).job.state ≠ .noJob ∧ (windingAt 0).tracker.settings.tracking = true ∧
      (windingAt 0).tracker.sense = .forward) := by decide
/-- R = 6,400 and Wd = 200: distances 0, 1, 6,199 and 6,200, 6,600 lie on the two sides of each limit. -/
theorem witness_MarkArrivalIsClassed_distances :
    (∀ wm ∈ [439350, 439351, 445549, 445550, 445950], (markAt wm).running = true ∧
      (markAt wm).tracker.state = .locked { wlast := 439350, wacc := 439350, rm := 6400, missed := 0 } ∧
      ((markAt wm).length.p : Int) - (markAt wm).geometry.m = wm) ∧
    (439350 : Int) - 439350 ≤ 0 ∧ (0 < (439351 : Int) - 439350 ∧ (445549 : Int) - 439350 < 6400 - 200) ∧
    ((6400 : Int) - 200 ≤ 445550 - 439350 ∧ (445950 : Int) - 439350 ≤ 6400 + 200) := by decide
theorem witness_MarkArrivalIsClassed_lost :
    let s := { windingAt 0 with tracker := { (windingAt 0).tracker with
      state := .lost { wlast := 0, wacc := 0, rm := 6400, missed := 3 } } }
    s.running = true ∧ s.job.state ≠ .noJob ∧ s.tracker.settings.tracking = true ∧ s.tracker.sense = .forward ∧
    s.tracker.state = .lost { wlast := 0, wacc := 0, rm := 6400, missed := 3 } := by decide

/-- A full list: 16 operator entries, none of them a candidate for eviction. -/
def fullStops : State :=
  { windingAt 0 with stops := { (windingAt 0).stops with
      entries := (List.range 16).map (fun n => { setEnd1 with id := n + 1, kind := .operator, insertion := n }) } }

theorem witness_AddStopPlacesAnOperatorEntry :
    (∀ f ∈ [0, 2], (windingAt 0).Takes .l .addStop (.addStop .l f 0)) ∧
    (∀ n ∈ [0, 1, 2000000000, 2000000001], (windingAt 0).Takes .o .addStop (.addStop .o 1 n)) ∧
    ((windingAt 0).roll.windingSet = some set1 ∧ (windingAt 0).stops.entries.length < 16 ∧
      (runningAt 0).motion.standstill = false) ∧
    (ready.Takes .l .addStop (.addStop .l 1 1) ∧ ready.roll.windingSet = none) := by decide
theorem witness_AddStopPlacesAnOperatorEntry_full :
    fullStops.Takes .l .addStop (.addStop .l 0 0) ∧ 16 ≤ fullStops.stops.entries.length ∧
    ∀ e ∈ fullStops.stops.entries, e.active = false → 4 ≤ e.kind.priority := by decide

theorem witness_CancelStopRemovesTheEntry :
    (∀ n ∈ [0, 1, 255, 256], (runningAt 0).Takes .l .cancelStop (.cancelStop .l n)) ∧
    (∀ e ∈ (runningAt 0).stops.entries, e.id ≠ 255) ∧
    ((runningAt 0).stops.entries.find? (fun x => decide (x.id = 1)) = some setEnd1 ∧
      (runningAt 0).motion.standstill = false ∧ ((runningAt 0).stops.entries.map (·.id)).Nodup) ∧
    ((runningAt 0).Takes .o .cancelStop (.cancelStop .o 1) ∧ setEnd1.origin ≠ .portO) := by decide
/-- An entry that a record caused. -/
theorem witness_CancelStopRemovesTheEntry_record :
    let s := after (.defect .i defect7001) (runningAt 400000)
    s.Takes .l .cancelStop (.cancelStop .l 2) ∧
    (s.stops.entries.find? (fun x => decide (x.id = 2))).map (·.ref) = some (.record 5) ∧
    s.queue.records.map (·.stopId) = [some 2] := by decide

theorem witness_SetTargetRetargetsTheSetEnd :
    (ready.Takes .l .setTarget (.setTarget .l 10000) ∧ ready.job.state ≠ .winding) ∧
    (∀ n ∈ [9999, 10000, 2000000000, 2000000001], (runningAt 0).Takes .o .setTarget (.setTarget .o n)) ∧
    ((runningAt 0).job.state = .winding ∧ (runningAt 0).roll.windingSet = some set1 ∧
      (runningAt 0).stops.setEnd = some setEnd1 ∧ setEnd1.active = false ∧ (runningAt 0).motion.standstill = false ∧
      (runningAt 0).tracker.state = .unlocked) ∧
    (fullStops.Takes .l .setTarget (.setTarget .l 10000) ∧ fullStops.stops.setEnd = none ∧
      16 ≤ fullStops.stops.entries.length ∧
      ∀ e ∈ fullStops.stops.entries, e.active = false → 3 ≤ e.kind.priority) := by decide
theorem witness_SetTargetRetargetsTheSetEnd_others :
    let active := { windingAt 0 with stops := { (windingAt 0).stops with entries := [{ setEnd1 with active := true }] } }
    let none' := { runningAt 0 with stops := { (runningAt 0).stops with entries := [] } }
    (active.Takes .l .setTarget (.setTarget .l 10000) ∧
      active.stops.setEnd = some { setEnd1 with active := true }) ∧
    (none'.Takes .l .setTarget (.setTarget .l 10000) ∧ none'.stops.setEnd = none ∧ none'.stops.freshId = 2 ∧
      none'.job.state = .winding ∧ none'.roll.windingSet = some set1) := by decide

/-- The table of 14.1 at the remaining distance 11,000 = S, and one unit before it. -/
theorem witness_HeadActivatesWithinTheBrakingDistance :
    (∀ p ∈ [1193149, 1193150, 1193151],
      (runningAt p).job.state.isCutOpen = false ∧ (runningAt p).motion.standstill = false ∧
      (runningAt p).stops.entries = setEnd1 :: [] ∧ (∀ e ∈ [setEnd1], e.active = false) ∧
      (runningAt p).motion.direction = .forward) ∧
    (11000 : Int) < setEnd1.target - 1193149 ∧ setEnd1.target - (1193150 : Int) ≤ 11000 ∧
    (0 : Int) < 11000 - (setEnd1.target - 1193151) := by decide

theorem witness_JobStartPreparesEveryBlock :
    (ready.Takes .l .jobStart (.jobStart .l jobFields170) ∧ ready.job.state ≠ .noJob) ∧
    (planned.Takes .l .jobStart (.jobStart .l { jobFields170 with job := 0 }) ∧ planned.job.state = .noJob) ∧
    (awake.Takes .l .jobStart (.jobStart .l jobFields170) ∧ awake.plans.active = none ∧ awake.plans.staged = none) ∧
    (planned.Takes .l .jobStart (.jobStart .l jobFields170) ∧ planned.plans.active ≠ none ∧
      planned.motion.standstill = true ∧ Severity.major.rank = jobFields170.severity) ∧
    (let s := { planned with motion := { planned.motion with standstill := false } }
     s.Takes .l .jobStart (.jobStart .l jobFields170) ∧ s.plans.active ≠ none ∧ s.motion.standstill = false) := by decide
/-- The fields of job 170 are in range, and so are those at the ends of the ranges. -/
theorem witness_JobStartPreparesEveryBlock_range :
    ∀ j ∈ [jobFields170,
      { jobFields170 with job := 65535, target := 2000000000, spliceLimit := 8, classes := 65534, severity := 3,
                          stopOffset := -10000, expected := 500, window := 125, lossCount := 15, cutOffset := 10000 }],
      (1 ≤ j.job ∧ j.job ≤ 65535) ∧
      (j.targetPresent = 0 ∨ (j.targetPresent = 1 ∧ 10000 ≤ j.target ∧ j.target ≤ 2000000000)) ∧
      j.spliceLimit ≤ 8 ∧ j.enforce ≤ 1 ∧ (j.classes < 65536 ∧ j.classes % 2 = 0) ∧
      (1 ≤ j.severity ∧ j.severity ≤ 3) ∧ j.stopOnDefect ≤ 1 ∧ (-10000 ≤ j.stopOffset ∧ j.stopOffset ≤ 10000) ∧
      j.holdOnCritical ≤ 1 ∧ j.tracking ≤ 1 ∧ (500 ≤ j.expected ∧ j.expected ≤ 20000) ∧
      (5 ≤ j.window ∧ j.window ≤ j.expected / 4) ∧ (1 ≤ j.lossCount ∧ j.lossCount ≤ 15) ∧ j.stopOnLoss ≤ 1 ∧
      j.align ≤ 1 ∧ (-10000 ≤ j.cutOffset ∧ j.cutOffset ≤ 10000) := by decide

theorem witness_JobEndEmptiesQueueAndList :
    (awake.Takes .l .jobEnd (.jobEnd .l) ∧ awake.job.state ≠ .ready) ∧
    (ready.Takes .l .jobEnd (.jobEnd .l) ∧ ready.job.state = .ready) := by decide

/-- READY with every slot CLOSED, slot 1 the oldest. -/
def allClosed : State :=
  { ready with roll := { ready.roll with slots := Vector.replicate 4 (.closed set1), closeList := [1, 2, 3, 4] } }

theorem witness_SetStartOpensASet :
    (awake.Takes .o .setStart (.setStart .o) ∧ awake.job.state ≠ .ready) ∧
    (ready.Takes .o .setStart (.setStart .o) ∧ ready.job.state = .ready ∧ ready.motion.standstill = true) ∧
    ready.plans.staged.or ready.plans.active = some plan41 ∧ (∃ m ∈ [1, 2, 3, 4], ready.roll.slot m = .empty) ∧
    (let s := { ready with motion := { ready.motion with standstill := false } }
     s.Takes .l .setStart (.setStart .l) ∧ s.job.state = .ready ∧ s.motion.standstill = false) := by decide
theorem witness_SetStartOpensASet_slots : ready.SlotsSound := by decide
theorem witness_SetStartOpensASet_closed : allClosed.SlotsSound := by decide
theorem witness_SetStartOpensASet_closed_slots : ∀ m ∈ [1, 2, 3, 4], allClosed.roll.slot m = .closed set1 := by decide
theorem witness_SetStartOpensASet_no_target :
    let s := { ready with job := { ready.job with params := { ready.job.params with target := none } } }
    s.Takes .l .setStart (.setStart .l) ∧ s.job.state = .ready ∧ s.motion.standstill = true ∧
    s.job.params.target = none := by decide

theorem witness_SetCloseClosesTheSet :
    (ready.Takes .l .setClose (.setClose .l) ∧ ready.job.state ≠ .winding) ∧
    ((runningAt 0).Takes .l .setClose (.setClose .l) ∧ (runningAt 0).job.state = .winding ∧
      (runningAt 0).motion.standstill = false) ∧
    (closing.Takes .l .setClose (.setClose .l) ∧ closing.job.state = .winding ∧ closing.motion.standstill = true ∧
      closing.roll.windingNumber = some 1 ∧ closing.roll.windingSet.isSome = true) := by decide

/-- The frame of SET-STROBE with Q = 100, and frames that fail each check in turn. -/
theorem witness_SendIsCheckedInOrder :
    let good : List Byte := [0x06, 0x02, 0x00, 0x64, 0x94]
    (State.reset.port .l).state ≠ .ready ∧ (awake.port .i).state = .ready ∧ awake.time.inReset = false ∧
    (good.map BitVec.toNat).sum % 256 = 0 ∧ good.length = 3 + (good.getD 1 0).toNat ∧
    Kind.ofByte (good.headD 0) = some .setStrobe ∧ Kind.setStrobe.permitted .i = true ∧
    Kind.setStrobe.permitted .l = false ∧ readRequest .i .setStrobe [0x00, 0x64] = some (.setStrobe .i 100) ∧
    readRequest .i .setStrobe [0x00] = none ∧ Kind.ofByte 0x20 = none := by decide
theorem witness_SendIsCheckedInOrder_not_ready :
    let s := after (.lineState .l 1) awake
    (s.port .l).state ≠ .ready ∧ s.time.inReset = false := by decide

theorem witness_FetchReadsTheReplyInFull :
    let s := after (.lineState .l 1) awake
    (s.port .l).state = .reply ∧ (s.port .l).noted = .working ∧ (s.port .l).reply.length = 4 ∧
      (awake.port .l).state ≠ .reply ∧ (awake.port .l).noted = .starting := by decide

theorem witness_RequestsAreTurnedAwayAtThePort :
    requestParts (.setStrobe .l 100) = some (.l, .setStrobe, [0x00, 0x64]) ∧ (awake.port .l).state = .ready ∧
    Kind.setStrobe.permitted .l = false ∧
    (let s := after (.lineState .l 1) awake
     (s.port .l).state = .reply ∧ s.time.inReset = false ∧
       requestParts (.lineState .l 0) = some (.l, .lineState, [0x00])) ∧
    (let s := after (.send ⟨.i, false⟩ [0x06, 0x02, 0x00, 0x64, 0x94] false) awake
     (s.port .i).state = .working ∧ (s.port .i).request ≠ some (.setStrobe .i 99)) := by decide

theorem witness_RefusedRequestsChangeNothing :
    requestParts (.setStrobe .i 0) = some (.i, .setStrobe, [0x00, 0x00]) ∧
    awake.Takes .i .setStrobe (.setStrobe .i 0) := by decide
/-- A request that a WORKING port holds. -/
theorem witness_RefusedRequestsChangeNothing_working :
    (after (.send ⟨.i, false⟩ [0x06, 0x02, 0x00, 0x64, 0x94] false) awake).Takes .i .setStrobe (.setStrobe .i 100) := by decide

theorem witness_ReadsChangeOnlyTheirPort :
    awake.Takes .l .readStatus (.readStatus .l) ∧ awake.Takes .l .readCounters (.readCounters .l) ∧
    awake.Takes .l .readEvents (.readEvents .l) ∧
    (∀ n ∈ [2, 3], (queuedAt 0).Takes .l .readQueue (.readQueue .l n)) ∧ (queuedAt 0).queue.records.length = 2 ∧
    (∀ n ∈ [1, 2], (windingAt 0).Takes .l .readStops (.readStops .l n)) ∧ (windingAt 0).stops.entries.length = 1 := by
  decide
theorem witness_ReadsChangeOnlyTheirPort_sets :
    (windingAt 0).roll.find 170 1 = .ok 1 ∧ ((windingAt 0).roll.slot 1).record? = some set1 ∧
    (∀ n ∈ [0, 1, 6, 7], (windingAt 0).Takes .l .readSet (.readSet .l 170 1 n)) ∧
    (∀ x ∈ [0, 1], (windingAt 0).Takes .l .readLane (.readLane .l 170 1 6 x 0)) ∧
    set1.lanes[6 - 1]? = some (freshLane 6) ∧ (freshLane 6).defects.length = 0 := by decide

theorem witness_StatusReplyHoldsTheStateAtItsOffsets :
    let s := windingAt 4294967295
    s.Takes .o .readStatus (.readStatus .o) ∧ s.length.p ≤ topOfPosition ∧ s.motion.speed < 65536 ∧
    s.motion.braking ≤ topOfPosition ∧ s.job.params.number < 65536 ∧ s.job.setCounter < 65536 ∧
    planId s.plans.active < 65536 ∧ planId s.plans.staged < 65536 ∧ s.stops.entries.length < 256 ∧
    ∀ e ∈ s.stops.entries, e.id < 256 := by decide

theorem witness_EveryRequestFrameReadsBack :
    (Instr.setTrim .o 1 (-20000)).WellFormed ∧
    requestParts (.setTrim .o 1 (-20000)) = some (.o, .setTrim, [0x01, 0xFF, 0xFF, 0xB1, 0xE0]) ∧
    Kind.setTrim.permitted .o = true :=
  ⟨by simp [Instr.WellFormed, fitsU, fitsS], by decide, by decide⟩

theorem witness_PostReachesEveryStation : (awake.post .queueFull).AlertsSound := by decide
/-- A kind that is absent, one that is pending, and one whose count holds at 255. -/
theorem witness_PostReachesEveryStation_pending :
    let full := { awake with alerts := awake.alerts.map (fun st : Station => { st with pending := [(.queueFull, 255)] }) }
    (∀ n, (EventKind.slip, n) ∉ ((awake.post .queueFull).alerts.get .l).pending) ∧
    (EventKind.queueFull, 1) ∈ ((awake.post .queueFull).alerts.get .l).pending ∧
    ((full.post .queueFull).alerts.get .i).pending = [(.queueFull, 255)] :=
  ⟨fun n h => by simp [awake, endWarmUp, warming, State.reset, State.post, ByPort.map, ByPort.all, ByPort.get,
      Station.reset, Station.post, Station.decideLine, bumpPending] at h, by decide, by decide⟩

theorem witness_AckEventsRemovesTheKindsNamed :
    (∀ l ∈ [[0], [25], [1, 24]], awake.Takes .l .ackEvents (.ackEvents .l l)) ∧
    awake.Takes .l .ackEvents (.ackEvents .l (List.replicate 25 1)) ∧
    EventKind.queueFull.code ∈ [16] ∧
    ((awake.post .queueFull).alerts.get .l).pending.Pairwise (fun a b => a.1.code < b.1.code) := by decide

theorem witness_SetAlertsReplacesTheEnables :
    (∀ m ∈ [0, 1, 2], awake.Takes .i .setAlerts (.setAlerts .i m [1, 24])) ∧
    awake.Takes .i .setAlerts (.setAlerts .i 1 [25]) := by decide

theorem witness_SettingsChangeOnlyByTheirCommands :
    ((after (.setStrobe .i 7) awake).strobe.interval ≠ awake.strobe.interval) ∧
    ((after (.setGeometry .l { resetGeometry with w := 200000 }) awake).geometry ≠ awake.geometry) ∧
    ((after (.setTrim .o 1 5) awake).length.b.trim ≠ awake.length.b.trim) ∧
    ((after (.setMotion .l highMotion) awake).motion.settings.decel ≠ awake.motion.settings.decel) ∧
    ((after (.lineState .l 1) awake).motion.report ≠ awake.motion.report) ∧
    ((after (.loadPlan .l 1 [0, 100]) awake).plans.staged ≠ awake.plans.staged) ∧
    ((after (.setCalibration .l (fields 100000 100) (fields 100000 100)) awake).length.a.counts ≠
      awake.length.a.counts) := by decide
theorem witness_SettingsChangeOnlyByTheirCommands_job :
    ((after (.jobStart .l jobFields170) planned).tracker.settings ≠ planned.tracker.settings) ∧
    ((after (.setTarget .l 10000) (windingAt 0)).job.params ≠ (windingAt 0).job.params) ∧
    (((after (.setAlerts .l 1 [24]) awake).alerts.get .l).enabled ≠ (awake.alerts.get .l).enabled) ∧
    ((after (.setStart .l) { ready with plans := { active := none, staged := some plan41 } }).plans.active ≠ none) ∧
    ((after (.count .a .two) (after (.count .a .one) awake)).length.p ≠ (after (.count .a .one) awake).length.p) := by
  decide

theorem witness_JobStateMovesAsTheTableGives :
    ((after .reset ready).job.state ≠ ready.job.state) ∧
    ((after (.jobStart .l jobFields170) planned).job.state ≠ planned.job.state) ∧
    ((after (.jobEnd .l) ready).job.state ≠ ready.job.state) ∧
    ((after (.setStart .l) ready).job.state ≠ ready.job.state) ∧
    ((after (.setClose .l) closing).job.state ≠ closing.job.state) ∧
    ((after (.cutOpen .o) (windingAt 5)).job.state ≠ (windingAt 5).job.state) ∧
    ((after (.spliceMade .o 1 6 [5]) (cutAt 433820)).job.state ≠ (cutAt 433820).job.state) := by decide

/-- The step that each invariant is tried on. -/
theorem witness_invariants_step : ∃ t, step busy = .next t := ⟨_, rfl⟩
theorem witness_LengthStaysWithinItsBounds : busy.LengthSound := by decide
theorem witness_StandstillReleasesStop : busy.StandstillSound := by decide
theorem witness_QueueKeepsItsOrder : busy.QueueSound := by decide
theorem witness_FlowCountersBalance : busy.queue.Balanced := by decide
theorem witness_StopListKeepsItsOrder : busy.stops.Sound := by decide
theorem witness_AlertLinesFollowTheirRecords : busy.AlertsSound := by decide
theorem witness_WindingSlotFollowsTheJobState : busy.SlotsSound := by decide

/-! ## States at the boundaries of single clauses -/

/-- A gate close that hands S on, and one that hands nothing on. -/
theorem witness_GateCloseMeasuresTheWeb_handed :
    (after .gateClose (runningAt 400000)).motion.braking = (runningAt 400000).motion.braking ∧
    (let s := { runningAt 400000 with motion := { (runningAt 400000).motion with baseline := 399700 } }
     (after .gateClose s).motion.braking ≠ s.motion.braking) := by decide
/-- 20,000 mm/s is no overspeed and 20,001 is one; the gate is 20 and the sum 16,000 and 16,001. -/
theorem witness_GateCloseMeasuresTheWeb_overspeed :
    let at' := fun n : Int => { runningAt 400000 with motion := { (runningAt 400000).motion with
      baseline := 400000, ring := { d1 := 0, d2 := n, d3 := 0, d4 := 0 } } }
    (after .gateClose (at' 16000)).motion.overspeed = false ∧ (after .gateClose (at' 16001)).motion.overspeed = true := by
  decide

/-- Encoder figures of one unit a count, so that a count moves exactly one unit. -/
def unitMeasure : Measure := { awake.length.a with circumference := 1000000, counts := 10000 }

/-- A count from position 10,000 with the silence distances and a slip span near their ends. -/
def countAt (silence pa0 : Nat) (p : Nat) : State :=
  { windingAt p with length :=
    { (windingAt p).length with
      a := { unitMeasure with position := 10000 + pa0, silence := silence }
      b := { unitMeasure with position := 10000 + pa0, silence := silence }
      span := some { pa0 := pa0, pb0 := pa0 } } }

/-- The silence span is 5,000 units: one unit falls silent from 4,999 and not from 4,998. -/
theorem witness_CountMovesItsEncoderExactly_silence :
    ((countAt 4999 0 5).LengthSound ∧ (countAt 4999 0 5).AlertsSound) ∧
    (∀ e ∈ [Encoder.a, .b], (countAt 4999 0 5).fallsSilentAt e 1 ∧ ¬ (countAt 4998 0 5).fallsSilentAt e 1) := by decide
/-- The span under check is 100,000 units: it ends at a count from 99,999 and not from 99,998. -/
theorem witness_CountMovesItsEncoderExactly_slip :
    let at' := fun n : Nat => { countAt 0 0 5 with
      length := { (countAt 0 0 5).length with a := { unitMeasure with position := n } } }
    ((at' 99999).spanAtCount .a = some { pa0 := 0, pb0 := 0 } ∧
      ((after (.count .a .one) (at' 99999)).length.a.position : Int) - 0 = 100000) ∧
    ((after (.count .a .one) (at' 99998)).length.a.position : Int) - 0 < 100000 ∧
    (after (.count .a .one) (at' 99999)).length.lastDeviation = ppmHeld 100000 10000 ∧
    (countAt 0 0 5).spanAtCount .b ≠ none := by decide
/-- A reverse count of A restarts the span, and P at the top posts POSITION-LIMIT. -/
theorem witness_CountMovesItsEncoderExactly_ends :
    (after (.count .a .two) (countAt 0 0 5)).length.span = some { pa0 := 9999, pb0 := 10000 } ∧
    (let s := countAt 0 0 4294967294
     s.length.p < 4294967295 ∧ (after (.count .a .one) s).length.p = 4294967295) := by decide

/-- A state whose next count of A moves P by one unit. -/
def unitMoves (s : State) : State := { s with length := { s.length with a := unitMeasure } }

/-- P − m comes to the window end at 439,350 + 6,400 + 200 with P = 437,950. -/
theorem witness_CountMovesItsEncoderExactly_missed :
    let s := unitMoves (lockedAt 439350 (runningAt 437949))
    let l : MarkLock := { wlast := 439350, wacc := 439350, rm := 6400, missed := 0 }
    s.tracker.state = .locked l ∧ (after (.count .a .one) s).length.p = 437950 ∧ s.AlertsSound ∧
    (0 < s.tracker.settings.lossCount ∧ s.tracker.settings.lossCount ≤ 15) ∧
    s.windowEndPassed l 437950 0 ∧ ¬ s.windowEndPassed l 437949 0 ∧ s.windowEndPassed l 444350 1 := by decide
/-- The mark that meets the loss count, in a job that stops on loss. -/
theorem witness_CountMovesItsEncoderExactly_lost :
    let l : MarkLock := { wlast := 439350, wacc := 439350, rm := 6400, missed := 2 }
    let s0 := unitMoves (runningAt 437949)
    let s := { s0 with tracker := { s0.tracker with
      state := .locked l, settings := { s0.tracker.settings with stopOnLoss := 1 } } }
    s.tracker.settings.lossCount = l.missed + 1 ∧ s.stops.entries.length < 16 ∧ s.stops.freshId = 2 ∧
    s.queue.records = [] ∧ s.motion.standstill = false ∧
    (after (.count .a .one) s).tracker.state = .lost { l with wlast := 445750, missed := 3 } := by decide
/-- Record 6 comes to the knife line at 436,000, in trim; record 5 to the nip at 448,500, and stays while a cut is open. -/
theorem witness_CountMovesItsEncoderExactly_records :
    (unitMoves (queuedAt 435999)).QueueSound ∧ (after (.count .a .one) (unitMoves (queuedAt 435999))).length.p = 436000 ∧
    (queuedAt 0).trimmedAt 435999 record6 = false ∧ (queuedAt 0).trimmedAt 436000 record6 = true ∧
    (queuedAt 0).takenOutAt 448499 record5 = false ∧ (queuedAt 0).takenOutAt 448500 record5 = true ∧
    (cutAt 0).takenOutAt 448500 record5 = false ∧ (queuedAt 0).roll.windingSet = some set1 := by decide
/-- The entries of record 43 are wound from P = 1,208,000 on. -/
theorem witness_CountMovesItsEncoderExactly_wound :
    let s := fun p : Nat => { unitMoves closing with length := { (unitMoves closing).length with p := p } }
    let wound := fun t : State => t.roll.windingSet.map (fun r => r.lanes.map (fun x => x.defects.map (·.wound)))
    (s 0).job.state = .winding ∧ item43 ∈ (s 0).roll.register ∧
    wound (after (.count .a .one) (s 1207998)) = some [[], [], [false], [false], [], []] ∧
    wound (after (.count .a .one) (s 1207999)) = some [[], [], [true], [true], [], []] := by decide +kernel
/-- Lane 3 with 32 defect entries, one of them MINOR. -/
def fullLane : LaneRecord :=
  { freshLane 3 with
    defects := (lane43 3).defects ++ List.replicate 31
      { record := 7, tag := 1, cls := 1, severity := .major, length := 1, position := 0, offset := 0, oldPlan := false,
        wound := true } }
/-- A delivery over lanes 6 and 7 of a set with six lanes, and one into a lane whose defect list is full. -/
theorem witness_CountMovesItsEncoderExactly_delivery :
    let split : RegisterItem := { item43 with lanes := { first := 6, last := 7, plan := 41 } }
    let full : SetRecord := { set1 with lanes := set1.lanes.set 2 fullLane }
    let s := { windingAt 0 with roll := { (windingAt 0).roll with slots := (windingAt 0).roll.slots.set 0 (Slot.winding full) } }
    ((windingAt 0).roll.windingSet = some set1 ∧ 1 ≤ split.lanes.first ∧ (windingAt 0).AlertsSound ∧
      split.lanes.contains 6 = true ∧ split.lanes.last - max (split.lanes.first - 1) set1.lanes.length = 1 ∧
      split.lanes.first ≤ set1.lanes.length) ∧
    (s.roll.windingSet = some full ∧ ∃ x ∈ full.lanes, 32 ≤ x.defects.length ∧
      ∃ y ∈ x.defects, y.severity.rank < Severity.major.rank) := by decide

theorem witness_DefectIsCheckedAndTaken_sound : (runningAt 400000).QueueSound ∧ (queuedAt 400000).QueueSound := by decide

/-- The cut of 14.2 with one record of a web mark of its own, opened at 427,820 and at 433,820 now. -/
def cutWith (web : Int) : State :=
  { cutAt 433820 with queue := { (cutAt 433820).queue with records := [{ record5 with body := { record5.body with web := web } }] } }

/-- W + s = 427,820 is held-side, 427,821 and 433,820 are pulled through, and 433,821 is neither. -/
theorem witness_SpliceMadeEndsTheCut_records :
    (∀ web ∈ [(413820 : Int), 413821, 419820, 419821], (cutWith web).QueueSound ∧
      (cutWith web).Takes .o .spliceMade (.spliceMade .o 1 6 []) ∧ (cutWith web).roll.windingSet = some set1) ∧
    [(413820 : Int), 413821, 419820, 419821].map (fun web => decide (web + (cutWith web).geometry.s ≤ 427820)) =
      [true, false, false, false] ∧
    [(413820 : Int), 413821, 419820, 419821].map (fun web => decide (427820 < web + (cutWith web).geometry.s ∧
      web + (cutWith web).geometry.s ≤ (cutWith web).length.p)) = [false, true, true, false] := by decide
/-- A named record of the queue, a free record number, and room. -/
theorem witness_SpliceMadeEndsTheCut_named :
    let s := cutAt 433820
    s.QueueSound ∧ (∃ r ∈ s.queue.records, r.body.number = 5) ∧
    (∀ r ∈ s.queue.records, r.body.number = 5 → r = record5) ∧ s.queue.nextNumber ∉ s.usedNumbers ∧
    s.queue.records.length < 64 ∧ s.geometry.s < s.geometry.w ∧ set1.removedTally ≤ 65535 := by decide
/-- An unwound record of the register, named. -/
theorem witness_SpliceMadeEndsTheCut_unwound :
    let s := closing.toJobState (.cutOpen 1205530)
    s.Takes .o .spliceMade (.spliceMade .o 1 6 [43]) ∧ item43 ∈ s.roll.register ∧
    s.roll.windingSet.map (fun r => r.isUnwound 43) = some true ∧ s.queue.records = [] := by decide
/-- A full queue with nothing pulled through, and a cut taken in motion. -/
theorem witness_SpliceMadeEndsTheCut_others :
    let full := fullQueue.toJobState (.cutOpen 0)
    let moving := { cutAt 433820 with motion := { (cutAt 433820).motion with standstill := false } }
    (full.Takes .o .spliceMade (.spliceMade .o 1 6 []) ∧ 64 ≤ full.queue.records.length ∧ full.length.p = 0 ∧
      full.AlertsSound) ∧
    (moving.motion.standstill = false ∧ setEnd1 ∈ moving.stops.entries ∧
      ∀ r ∈ moving.queue.records, r.stopId ≠ some setEnd1.id) := by decide

/-- Record 5 is due at the nip at 448,500 and not one unit before. -/
theorem witness_CutCancelEndsTheCut_records :
    (cutAt 448500).QueueSound ∧ record5.slit.isSome = true ∧ record5.body.web + (cutAt 0).geometry.w = 448500 ∧
    (cutAt 448499).Takes .o .cutCancel (.cutCancel .o) ∧ record6.slit = none := by decide

/-- An aligned job at a GOOD mark: the SET-END entry WAITING, ACTIVE, and absent. -/
theorem witness_MarkArrivalIsClassed_aligned :
    (markAt 445550).tracker.settings.align = 1 ∧ (markAt 445550).tracker.settings.tracking = true ∧
    (markAt 445550).stops.setEnd = some setEnd1 ∧ (markAt 445550).roll.windingSet = some set1 ∧
    set1.target = some 1200000 ∧ setEnd1.active = false ∧ (markAt 445550).motion.standstill = false ∧
    StopPlanner.setEnd { (markAt 445550).stops with entries := [] } = none ∧
    StopPlanner.setEnd { (markAt 445550).stops with entries := [{ setEnd1 with active := true }] } =
      some { setEnd1 with active := true } := by decide

theorem witness_SetTargetRetargetsTheSetEnd_aligned :
    let s := lockedAt 439350 (runningAt 0)
    s.Takes .o .setTarget (.setTarget .o 1200000) ∧ s.job.state = .winding ∧ s.stops.setEnd = some setEnd1 ∧
    s.tracker.settings.align = 1 ∧ s.tracker.settings.tracking = true ∧
    s.tracker.state = .locked { wlast := 439350, wacc := 439350, rm := 6400, missed := 0 } ∧
    FirstBoundary (1165000 : Int) 439350 6400 114 := by decide

/-- At standstill the head at P, and one unit before it. -/
theorem witness_HeadActivatesWithinTheBrakingDistance_standstill :
    (∀ p ∈ [1204149, 1204150], (windingAt p).job.state.isCutOpen = false ∧ (windingAt p).motion.standstill = true ∧
      (windingAt p).motion.braking = 0 ∧ (windingAt p).stops.entries = setEnd1 :: [] ∧ setEnd1.active = false) ∧
    ((windingAt 1204149).length.p : Int) < setEnd1.target ∧ setEnd1.target ≤ ((windingAt 1204150).length.p : Int) := by
  decide
/-- An ACTIVE entry at its overrun limit, and one unit past it; a WAITING one in reach of the sweep. -/
theorem witness_HeadActivatesWithinTheBrakingDistance_active :
    let active : StopEntry := { setEnd1 with active := true }
    let next : StopEntry := { setEnd1 with id := 2, kind := .operator, target := 1204200, insertion := 1 }
    let s := fun p : Nat => { runningAt p with stops := { (runningAt p).stops with entries := [active, next] } }
    (∀ p ∈ [1224150, 1224151], (s p).job.state.isCutOpen = false ∧ active ∈ (s p).stops.entries ∧
      ((s p).stops.entries.map (·.id)).Nodup ∧ (s p).stops.entries.countP (·.active) = 1) ∧
    active.target + (s 0).motion.settings.overrun = 1224150 ∧ active.overrun = false ∧
    (s 1204150).sweptWith active = [next] ∧ (s 1204149).sweptWith active = [] := by decide

/-- A full list of one kind. -/
def listOf (kind : StopKind) : StopPlanner :=
  { (windingAt 0).stops with
    entries := (List.range 16).map (fun n => { setEnd1 with id := n + 1, kind := kind, insertion := n }), insertions := 16 }

theorem witness_HeadActivatesWithinTheBrakingDistance_full :
    let v : StopEntry := { setEnd1 with id := 16, kind := .defect, insertion := 15 }
    (listOf .operator).Sound ∧ (listOf .operator).entries.length = 16 ∧
    (∀ x ∈ (listOf .operator).entries, x.active = false → StopKind.operator.priority ≤ x.kind.priority) ∧
    (listOf .defect).Sound ∧ (listOf .defect).entries.length = 16 ∧
    (listOf .defect).IsVictim StopKind.operator.priority v := by decide

/-- Slots 1 and 3 CLOSED, 2 and 4 released, 4 closed before 2. -/
def released42 : State :=
  { ready with roll := { ready.roll with
      slots := #v[.closed set1, .released set1, .closed set1, .released set1], closeList := [1, 4, 3, 2] } }

theorem witness_SetStartOpensASet_released :
    released42.SlotsSound ∧ released42.Takes .l .setStart (.setStart .l) ∧
    (∀ m ∈ [1, 2, 3, 4], released42.roll.slot m ≠ .empty) ∧ released42.roll.closeList = [1] ++ 4 :: [3, 2] ∧
    released42.roll.slot 4 = .released set1 ∧ (∀ x ∈ [1], ∀ r', released42.roll.slot x ≠ .released r') :=
  ⟨by decide, by decide, by decide, by decide, by decide, fun x hx r' h => by
    obtain rfl : x = 1 := by simpa using hx
    exact absurd h (by simp [released42, RollMap.slot])⟩
/-- The SET-END entry far ahead, and a list that is full without a candidate. -/
theorem witness_SetStartOpensASet_set_end :
    (ready.job.params.target = some 1200000 ∧ ready.stops.entries.length < 16 ∧ ready.motion.braking = 0 ∧
      (ready.length.p : Int) + ready.motion.settings.tolerance < 1200000) ∧
    (let s := { ready with stops := listOf .operator }
     s.Takes .l .setStart (.setStart .l) ∧ 16 ≤ s.stops.entries.length ∧
     ∀ e ∈ s.stops.entries, e.active = false → 3 ≤ e.kind.priority) := by decide

/-- A defect entry to read, and an enable set. -/
theorem witness_ReadsChangeOnlyTheirPort_entries :
    closing.Takes .l .readLane (.readLane .l 170 1 3 0 0) ∧ closing.roll.find 170 1 = .ok 1 ∧
    (lane43 3).defects.length = 1 ∧ ((after (.setAlerts .l 1 [1, 24]) awake).alerts.get .l).enabled.Nodup := by decide

theorem witness_SettingsChangeOnlyByTheirCommands_inputs :
    ((after (.setSensors .l 4 1 0 0) awake).inputs.mark.filter ≠ awake.inputs.mark.filter) ∧
    ((after (.setSensors .l 0 0 0 1) awake).inputs.splice.edge ≠ awake.inputs.splice.edge) ∧
    ((after (.setCalibration .l (fields 100000 100) (fields 100000 100)) awake).inputs.encA.filter ≠
      awake.inputs.encA.filter) ∧
    ((after (.selectSource .l 1) awake).length.active ≠ awake.length.active) ∧
    ((after (.setMotion .l highMotion) awake).motion.nextGate ≠ awake.motion.nextGate) ∧
    (let s := { runningAt 0 with motion := { (runningAt 0).motion with nextGate := some 50 } }
     (after .gateClose s).motion.settings.gate ≠ s.motion.settings.gate) := by decide

/-- A standstill under a report of STOPPED, and under RUNNING with the check SPENT. -/
theorem witness_GateCloseMeasuresTheWeb_timer_stays :
    ∀ x ∈ [(LineReport.stopped, true), (.running, false)],
      let s := { windingAt 1 with motion := { (windingAt 1).motion with
        gateClock := 20, baseline := 1, standstill := false, report := x.1, checkOpen := x.2,
        ring := { d1 := 1, d2 := 0, d3 := 0, d4 := 0 } } }
      s.motion.standstill = false ∧ (after .gateClose s).motion.standstill = true ∧
      (s.motion.report ≠ .running ∨ s.motion.checkOpen = false) := by decide

/-- A defect reported with an age of 21,000, at the knife line, and of 50,000, at the nip (R62), with records ahead of both. -/
theorem witness_DefectIsCheckedAndTaken_late :
    let s := { queuedAt 400000 with motion := (runningAt 400000).motion }
    (s.QueueSound ∧ s.AheadOfLines ∧ ∀ r ∈ s.queue.records, r.body.number ≠ s.freshNumber) ∧
    (defectWeb s 21000 + s.geometry.k = s.length.p ∧ defectWeb s 50000 + s.geometry.w = s.length.p) ∧
    (s.length.p : Int) < defectWeb s 49999 + s.geometry.w ∧
    (lookupLanes s.plans.active 11000 11800 = .lanes { first := 3, last := 3, plan := 41 } ∧
      lookupLanes s.plans.active 0 1 = .trim) ∧
    (s.stops.entries.length < 16 ∧ s.motion.standstill = false ∧ s.job.state.isCutOpen = false) ∧
    (s.Takes .i .defect (.defect .i { defect7001 with tag := 7003, age := 50000 }) ∧ s.tagLive 7003 = false) := by decide

/-- A job that enforces a splice limit, with no splice before the arrival. -/
def enforcing (limit : Nat) : State :=
  { runningAt 400000 with job := { (runningAt 400000).job with params := { job170 with enforce := true, spliceLimit := limit } } }

/-- The new splice counts 1 in each lane: over a limit of 0 and not over a limit of 1. -/
theorem witness_SpliceArrivalEntersOneRecord_limit :
    (enforcing 0).splicesToCome (freshLane 1) = 1 ∧ (enforcing 0).SpliceOverLimit ∧ ¬ (enforcing 1).SpliceOverLimit ∧
    (enforcing 0).stops.entries.length < 16 ∧ (enforcing 0).motion.standstill = false ∧ (enforcing 0).running = true ∧
    (enforcing 0).queue.highMark = none := by decide
theorem witness_SpliceArrivalEntersOneRecord_full_list :
    let s := { enforcing 0 with stops := fullStops.stops }
    s.SpliceOverLimit ∧ 16 ≤ s.stops.entries.length ∧
    ∀ e ∈ s.stops.entries, e.active = false → 2 ≤ e.kind.priority := by decide

/-- A pair that no slot holds, set 0 with no set WINDING, and a number above 9,999. -/
theorem witness_LaneStatusFollowsTheTable_not_found :
    ready.Takes .o .laneStatus (.laneStatus .o 170 1 1 0) ∧ ready.roll.find 170 1 = .error .notFound ∧
    ready.roll.find 170 0 = .error .notFound ∧ ready.roll.find 170 9999 = .error .notFound ∧
    ready.roll.find 170 10000 = .error .outOfRange := by decide
/-- Set 1 of job 170 in every slot, slot 3 WINDING. -/
def thirdWinding : State :=
  { windingAt 0 with roll := { allClosed.roll with slots := allClosed.roll.slots.set 2 (.winding set1), closeList := [4, 1, 2] } }
/-- The WINDING one is named, and without one the latest closed. -/
theorem witness_ReleaseSetFreesAClosedSet_naming : thirdWinding.SlotsSound ∧ thirdWinding.Names 170 1 3 := by decide
theorem witness_ReleaseSetFreesAClosedSet_naming_others :
    ¬ thirdWinding.Names 170 1 2 ∧ thirdWinding.Names 9 0 3 := by decide
theorem witness_ReleaseSetFreesAClosedSet_naming_closed :
    allClosed.Names 170 1 4 ∧ ¬ allClosed.Names 170 1 1 := by decide
theorem witness_ReleaseSetFreesAClosedSet_naming_none :
    ready.SlotsSound ∧ ∀ n, ¬ ready.Names 170 0 n :=
  ⟨by decide, fun n h => absurd (h.2.1 rfl) ((by decide : ∀ m ∈ [1, 2, 3, 4], ¬ (ready.roll.slot m).isWinding = true) n h.1)⟩
theorem witness_ReadsChangeOnlyTheirPort_refused :
    (ready.Takes .l .readSet (.readSet .l 170 1 1) ∧ ready.roll.find 170 1 = .error .notFound) ∧
    (∀ x ∈ [0, 1, 2], (windingAt 0).Takes .l .readLane (.readLane .l 170 1 7 x 1)) ∧
    (windingAt 0).roll.find 170 1 = .ok 1 ∧ ((windingAt 0).roll.slot 1).record? = some set1 ∧ set1.lanes.length < 7 ∧
    set1.lanes[0]? = some (freshLane 1) ∧ (freshLane 1).splices.length < 1 := by decide

/-- Nothing pulled through, and a record held at the nip before and after the shift. -/
theorem witness_SpliceMadeEndsTheCut_held :
    let s := { cutAt 460000 with queue := { (cutAt 460000).queue with records := [{ record5 with body := { record5.body with web := 392820 } }] } }
    s.QueueSound ∧ s.job.state = .cutOpen 427820 ∧ (s.geometry.s < s.geometry.w ∧ s.queue.records.length < 64) ∧
    (∀ r ∈ s.queue.records, ¬ (427820 < r.body.web + s.geometry.s)) ∧ s.roll.register = [] ∧
    (cutShift 427820 (460000 - 427820) s).heldRecords.length = 1 := by decide +kernel
theorem witness_CutCancelEndsTheCut_held :
    (cutAt 448500).heldRecords = [record5] ∧ (cutAt 448499).heldRecords = [] ∧
    (cutAt 448500).roll.windingSet = some set1 := by decide

/-- A swap to a plan of another id: MIXED-PLAN with w − k = 29,000. -/
theorem witness_SetStartOpensASet_mixed :
    let s := { ready with plans := { active := some plan41, staged := some { id := 42, knives := [0, 100] } } }
    (s.Takes .l .setStart (.setStart .l) ∧ s.SlotsSound ∧ s.AlertsSound ∧ s.geometry.k ≤ s.geometry.w) ∧
    ((after (.setStart .l) s).roll.windingSet.map (·.mixed)) = some (some 29000) := by decide

/-- One record handed back with room for it, and with none. -/
theorem witness_SetCloseClosesTheSet_returns :
    (closing.QueueSound ∧ closing.AlertsSound ∧ closing.queue.records.length + closing.roll.register.length ≤ 64) ∧
    (closing.roll.windingSet.map (fun x => x.isUnwound 43)) = some true := by decide
theorem witness_SetCloseClosesTheSet_full :
    let s := { closing with queue := fullQueue.queue }
    s.QueueSound ∧ s.queue.records.length = 64 := by decide

/-! ## States for the clauses on the planner's evaluation -/

/-- Before the end of warm-up and after it; STROBE high in one and an entry ACTIVE in the other. -/
theorem witness_ReleaseAndWarmUpFollowR194_outputs :
    State.reset.running = false ∧ warming.running = false ∧ awake.running = true ∧
    (let s := { runningAt 0 with stops := { (runningAt 0).stops with entries := [{ setEnd1 with active := true }] } }
     s.running = true ∧ s.outputs.stop = .high) := by decide
/-- 12.4: ALERT-L is driven low for NO-MOTION; 10.2: the status byte READY, 51h, is sent most significant bit first. -/
theorem test_outputs :
    (awake.post .noMotion).outputs.alert.l = .low ∧ awake.outputs.alert.l = .highImpedance ∧
    ((after (.voidTransaction ⟨.l, false⟩ none 0) awake).port .l).sdoLevels =
      [.low, .high, .low, .high, .low, .low, .low, .high] := by decide

/-- Record 6 one unit before the knife line, in trim, with the id of entry 1; the next count of A moves P by one unit. -/
def trimDue : PathRecord := { record6 with body := { record6.body with web := 394000 }, stopId := some 1 }
def beforeTrim : State :=
  { queuedAt 399999 with
    queue := { (queuedAt 399999).queue with records := [trimDue] }
    length := { (queuedAt 399999).length with a := { (queuedAt 399999).length.a with remainder := 500000000000 } } }
theorem witness_CountMovesItsEncoderExactly_planner :
    beforeTrim.QueueSound ∧ beforeTrim.AlertsSound ∧ beforeTrim.stops.Sound ∧ (beforeTrim.length.measure .a).Sound ∧
    beforeTrim.running = true := ⟨by decide, by decide, by decide, by decide, by decide⟩
/-- R50: the record goes to trim at 400,000 and its entry is cancelled. -/
theorem witness_CountMovesItsEncoderExactly_trim :
    (after (.count .a .one) beforeTrim).length.p = 400000 ∧ beforeTrim.trimmedAt 399999 trimDue = false ∧
    beforeTrim.trimmedAt 400000 trimDue = true ∧ (after (.count .a .one) beforeTrim).stops.entries = [] := by decide

theorem witness_DefectIsCheckedAndTaken_offer :
    let s := runningAt 400000
    (s.QueueSound ∧ s.stops.Sound ∧ Severity.major.rank = defect7001.severity ∧ ¬ s.HoldsTag 7001 ∧
      (queuedAt 0).HoldsTag 7001) ∧
    ((s.length.p : Int) < defectWeb s 1500 + s.geometry.k ∧ (s.length.p : Int) < defectWeb s 1500 + s.geometry.w) ∧
    ((1 ≤ s.queue.nextNumber ∧ s.queue.nextNumber ≤ 65535) ∧ s.usedNumbers.length < 65535) := by decide

theorem witness_SpliceArrivalEntersOneRecord_offer :
    (enforcing 0).QueueSound ∧ (enforcing 0).stops.Sound ∧ (enforcing 1).QueueSound ∧ (enforcing 1).stops.Sound := by decide

/-- Records 5 and 6 in the queue with record 43 in the register, and each number held once. -/
theorem witness_SpliceMadeEndsTheCut_after :
    let s := cutAt 433820
    let t := closing.toJobState (.cutOpen 1205530)
    (s.QueueSound ∧ s.stops.Sound ∧ s.NumbersDiffer ∧ (s.queue.records.map (·.body.number)).Nodup) ∧
    (t.QueueSound ∧ t.stops.Sound ∧ t.NumbersDiffer) := by decide

theorem witness_CutCancelEndsTheCut_planner : (cutAt 448500).QueueSound ∧ (cutAt 448500).AlertsSound := by decide

/-- A distance one unit above R + Wd, and the list in order. -/
theorem witness_MarkArrivalIsClassed_far :
    ((markAt 445951).length.p : Int) - (markAt 445951).geometry.m = 445951 ∧ (6400 : Int) + 200 < 445951 - 439350 ∧
    (markAt 445951).running = true ∧ (markAt 445550).stops.Sound ∧ (markAt 445550).AlertsSound := by decide

/-- A list with room, one full of entries to evict, one with none. -/
theorem witness_AddStopPlacesAnOperatorEntry_offer :
    (windingAt 0).stops.Sound ∧ (listOf .defect).Sound ∧ (listOf .operator).Sound := by decide
theorem witness_SetTargetRetargetsTheSetEnd_offer :
    (listOf .operator).setEnd = none ∧ (windingAt 0).stops.setEnd = some setEnd1 ∧ setEnd1.active = false := by decide
theorem witness_SetStartOpensASet_offer : ready.stops.Sound ∧ ready.AlertsSound := by decide
/-- Entry 1 leaves at the close of set 1, and nothing where no entry refers to the set. -/
theorem witness_SetCloseClosesTheSet_planner :
    closing.QueueSound ∧ closing.AlertsSound ∧ closing.stops.Sound ∧ closing.stops.entries = [] := by decide
theorem witness_SetCloseClosesTheSet_cancels :
    ((windingAt 0).QueueSound ∧ (windingAt 0).AlertsSound ∧ (windingAt 0).stops.Sound) ∧
    ((windingAt 0).stops.entries = [setEnd1] ∧ setEnd1.ref = .set set1.number) :=
  ⟨by decide, by decide⟩

/-- A transaction on a part in reset, whose port is STARTING. -/
theorem witness_SendIsCheckedInOrder_reset :
    State.reset.time.inReset = true ∧ (State.reset.port .l).state ≠ .ready ∧
    ((after (.send ⟨.l, false⟩ [0x1A] false) State.reset).port .l).discarded = 0 := by decide

/-- R52: a splice entry of another plan comes back with its flag, bit 0 of the byte at offset 8 of the entry. -/
def oldSplice : State :=
  { windingAt 0 with roll := { (windingAt 0).roll with slots := (windingAt 0).roll.slots.set 0 (.winding { set1 with
      lanes := [{ freshLane 1 with splices :=
        [{ record := 9, kind := .sensed, position := 2, oldPlan := true, wound := true }] }] }) } }
theorem test_read_lane_old_plan : ((replyOf .l (.readLane .l 170 1 1 1 0) oldSplice).drop 8).take 9 =
    [0x00, 0x09, 0x00, 0x00, 0x00, 0x00, 0x00, 0x02, 0x01] := by decide

/-- The warm-up due, a gate close due, NO-MOTION due, both due, and the cycle that ends an interval. -/
theorem witness_IdleStepRunsOneClockCycle_due :
    (warming.pending = [] ∧ warming.time.inReset = false ∧ warming.warmUpDue = true) ∧
    (let s := runningAt 400000
     s.pending = [] ∧ s.time.inReset = false ∧ s.gateDue = true ∧ s.noMotionDue = false) ∧
    (let s := { awake with motion := { awake.motion with timerOn := true, timer := 0 } }
     s.pending = [] ∧ s.time.inReset = false ∧ s.gateDue = false ∧ s.noMotionDue = true) ∧
    (let s := { awake with motion := { awake.motion with timerOn := true, timer := 0, gateClock := 20 } }
     s.pending = [] ∧ s.time.inReset = false ∧ s.gateDue = true ∧ s.noMotionDue = true) := by decide
theorem witness_IdleStepRunsOneClockCycle_interval :
    let s := { warming with time := { warming.time with cycle := 23999, warmUp := .counting 3 } }
    (s.pending = [] ∧ s.time.inReset = false ∧ s.NothingDue) ∧
    s.cycleCounted.time = { inReset := false, cycle := 0, warmUp := .counting 4 } ∧ s.cycleCounted.warmUpDue = true := by
  decide
/-- Record 5 is taken out at the nip at 448,500, and its entry joins lane 3. -/
def beforeNip : State := unitMoves (queuedAt 448499)
theorem witness_CountMovesItsEncoderExactly_roll :
    (beforeNip.running = true ∧ (beforeNip.length.measure .a).Sound ∧ beforeNip.QueueSound) ∧
    ((after (.count .a .one) beforeNip).length.p = 448500 ∧ beforeNip.takenOutAt 448500 record5 = true) ∧
    (((after (.count .a .one) beforeNip).roll.windingSet.map (fun r => r.lanes.map (·.defects.length))) =
      some [0, 0, 1, 0, 0, 0]) := by decide +kernel
/-- R181: a record that leaves in trim with its id is one change. -/
theorem witness_CountMovesItsEncoderExactly_changes :
    beforeTrim.queue.idsHeld = 1 ∧ (after (.count .a .one) beforeTrim).queue.changes = beforeTrim.queue.changes + 1 := by
  decide
theorem witness_SetCloseClosesTheSet_lanes :
    closing.SlotsSound ∧ (lane43 3).defects.countP (fun e => !e.wound) = 1 := by decide
theorem witness_SpliceMadeEndsTheCut_changes :
    (cutAt 433820).StopIdsMatch ∧ (427820 < (cutAt 433820).length.p) ∧
    (record5.body.web + (cutAt 433820).geometry.s ≤ 427820) := by decide
/-- An idle step puts a waiting gate period in force. -/
theorem witness_SettingsChangeOnlyByTheirCommands_idle :
    let s := { runningAt 400000 with motion := { (runningAt 400000).motion with nextGate := some 5 } }
    s.pending = [] ∧ s.gateDue = true ∧ (closeGateIfDue s).motion.settings.gate = 5 := by decide
theorem witness_StopListKeepsItsOrder_ids :
    (let s := { beforeTrim with stops := { beforeTrim.stops with entries := [{ setEnd1 with kind := .defect, ref := .record 6 }] } }
     s.stops.Sound ∧ s.QueueSound ∧ s.StopIdsMatch ∧ s.queue.idsHeld = 1) ∧ busy.StopIdsMatch := by decide

end Sys2Proof.Tests
end

