-- ==== Sys2Proof/Proofs/TrimAndStrobe.lean ====
section
/-! PROOFS. SET-TRIM (R9) and SET-STROBE (R22): what each taking answers, and the arithmetic of a count and of the
divider under the new figure. -/

namespace Sys2Proof.Machine

/-! ## A request taken and answered -/

/-- A request that its block takes leaves what the block's taking leaves, with its reply at the port (R175, R176). -/
theorem exec_eq_replied {i : Instr} {p : Port} {k : Kind} {bytes payload : List Byte} {f : State → Taken}
    {s t : State} {st : Status} (hi : requestParts i = some (p, k, bytes)) (hf : takenOf i = some f)
    (ht : s.Takes p k i) (he : f s = (t, { status := st, payload := payload })) :
    exec i s = .next (t.replied p k st payload) := by
  obtain ⟨_, hports, _, _⟩ := takenOf_frame hf s
  rw [exec_takes hi hf ht, (answerTaken_eq hports).1, he]

/-! ## SET-STROBE (R22, R23) -/

theorem takeSetStrobe_outOfRange {q : Nat} (h : q < 1 ∨ 1000 < q) (s : State) :
    takeSetStrobe q s = s.refuse .outOfRange := if_pos h

theorem takeSetStrobe_inRange {q : Nat} (h1 : 1 ≤ q) (h2 : q ≤ 1000) (s : State) :
    takeSetStrobe q s = ({ s with strobe := { s.strobe with interval := q, count := 0, owed := 0 } }, .done []) :=
  if_neg (by omega)

/-- From a cleared divider the owed pulses are the whole intervals in the units, held at 65,535 (R23). -/
theorem Strobe.addUnits_owed_of_cleared {d : Strobe} (hc : d.count = 0) (ho : d.owed = 0) (u : Nat) :
    (d.addUnits u).owed = min (u / d.interval) 65535 := by
  simp [Strobe.addUnits, holdAt, hc, ho]

/-- Settles O15: the two branches of the taking, and the whole intervals in fewer than Q and in Q units. -/
theorem setStrobeReplacesTheInterval : Obligations.SetStrobeReplacesTheInterval := by
  refine ⟨fun p => by cases p <;> decide, fun p q s ht => ⟨fun hq => ?_, fun h1 h2 => ⟨?_, ?_⟩⟩, by decide⟩
  · exact exec_eq_replied rfl rfl ht (takeSetStrobe_outOfRange hq s)
  · exact exec_eq_replied rfl rfl ht (takeSetStrobe_inRange h1 h2 s)
  · rintro d rfl hc ho
    refine ⟨fun u hu => ?_, ?_⟩
    · simp [Strobe.addUnits_owed_of_cleared hc ho, Nat.div_eq_of_lt hu]
    · simp [Strobe.addUnits_owed_of_cleared hc ho, Nat.div_self h1]

/-! ## SET-TRIM (R9 to R11) -/

/-- Encoder codes: 0 A, 1 B (13.3). -/
theorem encoder?_code (e : Encoder) : encoder? (if e = .a then 0 else 1) = some e := by cases e <;> rfl

theorem encoder?_eq_none {n : Nat} (h : 1 < n) : encoder? n = none := by
  match n, h with
  | _ + 2, _ => rfl

theorem takeSetTrim_outOfRange {enc : Nat} {trim : Int} (h : 1 < enc ∨ trim < -20000 ∨ 20000 < trim) (s : State) :
    takeSetTrim enc trim s = s.refuse .outOfRange := by
  unfold takeSetTrim
  split
  · rfl
  next e he =>
    have hcode : ¬ 1 < enc := fun hlt => by simp [encoder?_eq_none hlt] at he
    exact if_pos (h.resolve_left hcode)

theorem takeSetTrim_inRange {enc : Nat} {e : Encoder} {trim : Int} (he : encoder? enc = some e)
    (h1 : -20000 ≤ trim) (h2 : trim ≤ 20000) (s : State) :
    takeSetTrim enc trim s =
      ({ s with length := s.length.setMeasure e { s.length.measure e with trim := trim } }, .done []) := by
  have hin : ¬ (trim < -20000 ∨ 20000 < trim) := by omega
  simp only [takeSetTrim, he, if_neg hin, State.withLength]

/-- The numerator is the formula of R10 for every trim down to −1,000,000. -/
theorem Measure.numerator_cast {m : Measure} (h : -1000000 ≤ m.trim) :
    (m.numerator : Int) = m.circumference * (1000000 + m.trim) := by
  rw [Measure.numerator, Nat.cast_mul, Int.toNat_of_nonneg (by omega)]

/-- A forward count adds the numerator to the remainder and keeps what is below the divisor (R11). -/
theorem Measure.forward_remainder (m : Measure) :
    m.forward.1.remainder = (m.remainder + m.numerator) % m.divisor := rfl

/-- Settles O16: the branches of the taking, and R10's formula in the forward count of the new figures. -/
theorem setTrimReplacesOneTrim : Obligations.SetTrimReplacesOneTrim := by
  refine ⟨fun p => by cases p <;> decide, fun p enc trim s ht => ⟨fun hout => ?_, fun e henc h1 h2 => ?_⟩⟩
  · exact exec_eq_replied rfl rfl ht (takeSetTrim_outOfRange hout s)
  · intro m
    have hcode : encoder? enc = some e := henc ▸ encoder?_code e
    have hnum : (m.numerator : Int) = m.circumference * (1000000 + trim) :=
      Measure.numerator_cast (show -1000000 ≤ trim by omega)
    refine ⟨exec_eq_replied rfl rfl ht (takeSetTrim_inRange hcode h1 h2 s), LengthCounter.measure_setMeasure_self _ e m,
      LengthCounter.measure_setMeasure_other _ e m, hnum, rfl, ?_, id⟩
    rw [Measure.forward_remainder, Int.natCast_mod, Nat.cast_add, hnum]

end Sys2Proof.Machine
end

