-- ==== Sys2Proof/Proofs/BrakingDistance.lean ====
section
/-! PROOFS. The braking distance of a gate close (R30): the model's rounding up against the ceiling of the rational
quotient, the monitor a close leaves, and what an evaluation can do while the web is in motion. -/

namespace Sys2Proof.Machine

/-! ## Rounding up -/

/-- The model's rounding up is the ceiling of the quotient in full precision. -/
theorem ceilDiv_cast {b : Nat} (hb : 0 < b) (a : Nat) : (ceilDiv a b : Int) = ⌈(a : ℚ) / (b : ℚ)⌉ := by
  have hb' : (0 : ℚ) < b := Nat.cast_pos.2 hb
  -- `ceilDiv` is Mathlib's ceiling division, the lower adjoint of multiplication by `b`.
  have hadj (c : Nat) : ceilDiv a b ≤ c ↔ (a : ℚ) / b ≤ c := by
    calc ceilDiv a b ≤ c ↔ a ≤ b * c := ceilDiv_le_iff_le_smul hb
      _ ↔ (a : ℚ) / b ≤ c := by rw [div_le_iff₀ hb', mul_comm b]; exact_mod_cast Iff.rfl
  have hceil : ceilDiv a b = ⌈(a : ℚ) / b⌉₊ := eq_of_forall_ge_iff fun c => (hadj c).trans Nat.ceil_le.symm
  rw [hceil, Int.natCast_ceil_eq_ceil (by positivity)]

theorem ceilDiv_zero_left {b : Nat} (hb : 0 < b) : ceilDiv 0 b = 0 := Nat.div_eq_of_lt (by omega)

/-! ## The braking distance -/

/-- The formula of R30 over the rationals, with the sum held at 4,294,967,295. -/
theorem brakingDistance_cast {a : Nat} (ha : 0 < a) (v t : Nat) :
    (brakingDistance v a t : Int) =
      min (⌈(5 * (v : ℚ) ^ 2) / (a : ℚ)⌉ + ⌈((v : ℚ) * (t : ℚ)) / 100⌉) 4294967295 := by
  have hbraking : (ceilDiv (5 * (v * v)) a : Int) = ⌈(5 * (v : ℚ) ^ 2) / (a : ℚ)⌉ := by
    rw [ceilDiv_cast ha, sq]; push_cast; rfl
  have hreaction : (ceilDiv (v * t) 100 : Int) = ⌈((v : ℚ) * (t : ℚ)) / 100⌉ := by
    rw [ceilDiv_cast (by decide)]; push_cast; rfl
  rw [brakingDistance, Nat.cast_min, Nat.cast_add, hbraking, hreaction]; rfl

/-- A ring that gives v = 0 gives S = 0. -/
theorem brakingDistance_speed_zero {a : Nat} (ha : 0 < a) (t : Nat) : brakingDistance 0 a t = 0 := by
  simp [brakingDistance, ceilDiv_zero_left ha, ceilDiv_zero_left (show 0 < 100 by decide)]

/-! ## The monitor after a gate close -/

/-- Posts and the planner's evaluation leave the monitor as the close computed it (R29). -/
@[simp] theorem closeGate_motion (s : State) : (closeGate s).motion = s.motion.close s.p := by
  unfold closeGate
  dsimp only
  split <;> simp [State.withMotion, State.withInputs]

theorem exec_gateClose_of_due {s : State} (hr : s.running = true) (hg : s.motion.settings.gate ≤ s.motion.gateClock) :
    exec .gateClose s = .next (closeGate s) := by
  have hdue : s.gateDue = true := by simp [State.gateDue, hr, hg]
  rw [execGateClose_eq, closeGateIfDue, if_pos hdue]

/-- S is computed from the STANDSTILL and the speed of the same close (R30). -/
theorem Motion.close_braking (m : Motion) (p : Nat) :
    (m.close p).braking = if (m.close p).standstill = true then 0
      else brakingDistance (m.close p).speed m.settings.decel m.settings.reaction := rfl

theorem Motion.close_braking_speed_zero {m : Motion} {p : Nat} (ha : 0 < m.settings.decel)
    (hv : (m.close p).speed = 0) : (m.close p).braking = 0 := by
  rw [Motion.close_braking, hv, brakingDistance_speed_zero ha, ite_self]

/-! ## The planner while the web is in motion -/

theorem State.activates_iff_of_inMotion {s : State} (hm : s.motion.standstill = false) (e : StopEntry) :
    s.activates e = true ↔ s.motion.direction = .forward ∧ s.remaining e ≤ s.motion.braking := by
  simp [State.activates, hm]

/-- In motion an evaluation does one thing at most: it tests an ACTIVE entry for overrun or activates the head (R144). -/
theorem evaluate_cases_of_inMotion {s : State} (hm : s.motion.standstill = false) :
    evaluate s = s ∨ (∃ e, evaluate s = overrunTest e s) ∨ ∃ e, evaluate s = activateStop e s := by
  unfold evaluate
  split
  · exact .inl rfl
  · simp only [evaluatePasses, hm, Bool.false_eq_true, if_false]
    split
    next e _ => exact .inr (.inl ⟨e, rfl⟩)
    next =>
      split
      next => exact .inl rfl
      next e _ =>
        split
        · exact .inr (.inr ⟨e, rfl⟩)
        · exact .inl rfl

theorem overrunTest_lastStop (e : StopEntry) (s : State) : (overrunTest e s).stops.lastStop = s.stops.lastStop := by
  unfold overrunTest; split <;> simp

theorem activateStop_lastStop (e : StopEntry) (s : State) : (activateStop e s).stops.lastStop = s.stops.lastStop := by
  simp [activateStop_stops]

/-- No stop completes while STANDSTILL is false (R30, R148). -/
theorem evaluate_lastStop_of_inMotion {s : State} (hm : s.motion.standstill = false) :
    (evaluate s).stops.lastStop = s.stops.lastStop := by
  obtain h | ⟨e, h⟩ | ⟨e, h⟩ := evaluate_cases_of_inMotion hm
  · rw [h]
  · rw [h, overrunTest_lastStop]
  · rw [h, activateStop_lastStop]

/-- Settles O7: the figure of the close, the activation test with S = 0, and the planner's evaluation in motion. -/
theorem brakingDistanceIsRoundedUp : Obligations.BrakingDistanceIsRoundedUp := by
  refine ⟨fun s hr hg ha => ⟨closeGate s, exec_gateClose_of_due hr hg, ?_⟩, fun s e hm hS => ?_,
    fun s hm => evaluate_lastStop_of_inMotion hm⟩
  · rw [closeGate_motion]
    refine ⟨fun hstill => ?_, fun hmoving => ?_, Motion.close_braking_speed_zero ha⟩
    · rw [Motion.close_braking, if_pos hstill]
    · rw [Motion.close_braking, if_neg (by simp [hmoving]), brakingDistance_cast ha]
  · rw [State.activates_iff_of_inMotion hm, hS]; rfl

end Sys2Proof.Machine
end

