-- ==== Sys2Proof/Proofs/KnifeLanes.lean ====
section
/-! PROOFS. Lanes between the knives of a plan (R39, R40): the knives of a checked plan rise, so the first knife beyond a
position is the far edge of the one lane that holds it. -/

namespace Sys2Proof.Machine

/-! ## The knives of a checked plan (R39) -/

theorem knivesApart_iff_isChain (knives : List Nat) :
    knivesApart knives = true ↔ knives.IsChain (fun x y => x + 100 ≤ y) := by
  induction knives with
  | nil => simp [knivesApart]
  | cons x rest ih =>
    cases rest with
    | nil => simp [knivesApart]
    | cons y rest => simp [knivesApart, ih]

theorem planAllowed_iff (plan : Nat) (knives : List Nat) :
    planAllowed plan knives = true ↔
      (1 ≤ plan ∧ plan ≤ 65535) ∧ (2 ≤ knives.length ∧ knives.length ≤ 25) ∧
        (∀ x ∈ knives, x ≤ 30000) ∧ knives.IsChain (fun x y => x + 100 ≤ y) := by
  simp [planAllowed, knivesApart_iff_isChain, and_assoc]

section CheckedPlan

variable {plan : Nat} {knives : List Nat} (h : planAllowed plan knives = true)
include h

theorem two_le_length_of_planAllowed : 2 ≤ knives.length := by
  obtain ⟨_, ⟨htwo, _⟩, _⟩ := (planAllowed_iff plan knives).1 h
  exact htwo

theorem knives_pairwise_lt_of_planAllowed : knives.Pairwise (· < ·) := by
  obtain ⟨_, _, _, hchain⟩ := (planAllowed_iff plan knives).1 h
  exact (hchain.imp fun x y hxy => show x < y by omega).pairwise

theorem knife_lt_of_planAllowed {i j : Nat} (hij : i < j) (hj : j < knives.length) :
    knives.getD i 0 < knives.getD j 0 := by
  have hi : i < knives.length := hij.trans hj
  rw [List.getD_eq_getElem _ _ hi, List.getD_eq_getElem _ _ hj]
  exact List.pairwise_iff_getElem.1 (knives_pairwise_lt_of_planAllowed h) i j hi hj hij

theorem knife_le_of_planAllowed {i j : Nat} (hij : i ≤ j) (hj : j < knives.length) :
    knives.getD i 0 ≤ knives.getD j 0 := by
  obtain rfl | hlt := hij.eq_or_lt
  · exact le_rfl
  · exact (knife_lt_of_planAllowed h hlt hj).le

end CheckedPlan

/-! ## The lane of a position (R40) -/

/-- In any knife list, the lane is the index of the first knife beyond the position. -/
theorem laneAt_eq_iff_first_beyond {knives : List Nat} {p i : Nat} (hi : i < knives.length) :
    laneAt knives p = i ↔ p < knives.getD i 0 ∧ ∀ j < i, knives.getD j 0 ≤ p := by
  rw [laneAt, List.findIdx_eq hi, List.getD_eq_getElem _ _ hi, decide_eq_true_iff]
  refine and_congr_right fun _ => forall_congr' fun j => forall_congr' fun hj => ?_
  rw [List.getD_eq_getElem _ _ (hj.trans hi), decide_eq_false_iff_not, not_lt]

theorem laneAt_lt_length {knives : List Nat} {p i : Nat} (hi : i < knives.length) (hp : p < knives.getD i 0) :
    laneAt knives p < knives.length := by
  rw [List.getD_eq_getElem _ _ hi] at hp
  exact List.findIdx_lt_length_of_exists ⟨knives[i], List.getElem_mem hi, decide_eq_true hp⟩

section CheckedPlan

variable {plan : Nat} {knives : List Nat} (h : planAllowed plan knives = true)
include h

/-- Under a checked plan only the two edges of the lane count: the knives before them lie below. -/
theorem laneAt_eq_iff {p i : Nat} (h1 : 1 ≤ i) (hi : i < knives.length) :
    laneAt knives p = i ↔ knives.getD (i - 1) 0 ≤ p ∧ p < knives.getD i 0 := by
  rw [laneAt_eq_iff_first_beyond hi, and_comm]
  refine and_congr_left fun _ => ⟨fun hbelow => hbelow (i - 1) (by omega), fun hedge j hj => ?_⟩
  exact (knife_le_of_planAllowed h (by omega) (by omega)).trans hedge

/-- A position on a knife lies in the lane that begins there. -/
theorem laneAt_knife {i : Nat} (hi : i + 1 < knives.length) : laneAt knives (knives.getD i 0) = i + 1 :=
  (laneAt_eq_iff h (Nat.succ_pos i) hi).2 ⟨le_rfl, knife_lt_of_planAllowed h (Nat.lt_succ_self i) hi⟩

/-- A position between the outermost knives lies in one of the lanes 1 to n − 1. -/
theorem laneAt_bounds {p : Nat} (hfirst : knives.getD 0 0 ≤ p) (hlast : p < knives.getD (knives.length - 1) 0) :
    1 ≤ laneAt knives p ∧ laneAt knives p < knives.length := by
  have htwo : 2 ≤ knives.length := two_le_length_of_planAllowed h
  have hnot : laneAt knives p ≠ 0 := fun h0 =>
    absurd ((laneAt_eq_iff_first_beyond (by omega)).1 h0).1 (not_lt.2 hfirst)
  exact ⟨Nat.one_le_iff_ne_zero.2 hnot, laneAt_lt_length (by omega) hlast⟩

theorem existsUnique_lane {p : Nat} (hfirst : knives.getD 0 0 ≤ p)
    (hlast : p < knives.getD (knives.length - 1) 0) :
    ∃! i, (1 ≤ i ∧ i ≤ knives.length - 1) ∧ knives.getD (i - 1) 0 ≤ p ∧ p < knives.getD i 0 := by
  obtain ⟨hpos, hlen⟩ := laneAt_bounds h hfirst hlast
  refine ⟨laneAt knives p, ⟨⟨hpos, by omega⟩, (laneAt_eq_iff h hpos hlen).1 rfl⟩, ?_⟩
  rintro i ⟨⟨h1, hi⟩, hedges⟩
  exact ((laneAt_eq_iff h h1 (by omega)).2 hedges).symm

end CheckedPlan

/-! ## Beyond the last knife (R48) -/

theorem getLastD_eq_getD (knives : List Nat) : knives.getLastD 0 = knives.getD (knives.length - 1) 0 := by
  rw [List.getLastD_eq_getLast?, List.getLast?_eq_getElem?, List.getD_eq_getElem?_getD]

/-- An extent that begins at the last knife or beyond it lies in trim. -/
theorem lookupLanes_eq_trim_of_last_le {a : Plan} {xs : Nat}
    (hlast : a.knives.getD (a.knives.length - 1) 0 ≤ xs) (xe : Nat) : lookupLanes (some a) xs xe = .trim :=
  if_pos (.inr (getLastD_eq_getD a.knives ▸ hlast))

/-- Settles O22: the lane found by the lookup is the one lane, by the order of the knives. -/
theorem everyPositionLiesInOneLane : Obligations.EveryPositionLiesInOneLane := by
  intro plan knives h x n
  have htwo : 2 ≤ n := two_le_length_of_planAllowed h
  refine ⟨fun p => existsUnique_lane h, fun p i h1 hi => laneAt_eq_iff h h1 (show i < n by omega),
    fun i _ hi => laneAt_knife h (show i + 1 < n by omega), laneAt_knife h htwo,
    fun id => lookupLanes_eq_trim_of_last_le le_rfl _⟩

end Sys2Proof.Machine
end

