-- ==== Sys2Proof/Proofs/EventsAndAlerts.lean ====
section
/-! PROOFS. Events and alert lines (R186 to R190): what a post does at one station record and what posts of one kind add up
to, the kinds that a list of codes names, and the two requests that change a station record. -/

namespace Sys2Proof.Machine

/-! ## One station record (R186, R187) -/

theorem Station.decideLine_line_iff (st : Station) :
    st.decideLine.line = true ↔
      (∃ e ∈ st.decideLine.pending, e.1.urgent = true) ∨
        (st.decideLine.master = true ∧ ∃ e ∈ st.decideLine.pending, e.1 ∈ st.decideLine.enabled) :=
  st.lineOf_iff

section OrderedPending

variable {st : Station} (ordered : st.pending.Pairwise (fun a b => a.1.code < b.1.code))
include ordered

theorem Station.mem_post_of_absent {k : EventKind} (absent : ∀ n, (k, n) ∉ st.pending) :
    (k, 1) ∈ (st.post k).pending :=
  (mem_bumpPending ordered k 1).2 (.inr ⟨rfl, .inr ⟨absent, rfl⟩⟩)

theorem Station.mem_post_of_pending {k : EventKind} {n : Nat} (present : (k, n) ∈ st.pending) :
    (k, min (n + 1) 255) ∈ (st.post k).pending :=
  (mem_bumpPending ordered k _).2 (.inr ⟨rfl, .inl ⟨n, present, rfl⟩⟩)

theorem Station.mem_post_other {j k : EventKind} (hjk : j ≠ k) (n : Nat) :
    (j, n) ∈ (st.post k).pending ↔ (j, n) ∈ st.pending := by
  simp [mem_bumpPending ordered, hjk]

end OrderedPending

/-! ## Posts of one kind (R186) -/

theorem State.AlertsSound.get {s : State} (h : s.AlertsSound) (p : Port) : (s.alerts.get p).Sound := by
  obtain ⟨hl, hi, ho⟩ := h
  cases p
  · exact hl
  · exact hi
  · exact ho

/-- At each station, posts of a pending kind each raise its count by 1, which stays at 255. -/
theorem State.mem_postAll_replicate {k : EventKind} {p : Port} (n : Nat) {s : State} (hs : s.AlertsSound) {c : Nat}
    (present : (k, c) ∈ (s.alerts.get p).pending) :
    (k, min (c + n) 255) ∈ ((State.postAll (List.replicate n k) s).alerts.get p).pending := by
  induction n generalizing s c with
  | zero =>
    obtain ⟨_, counts, _⟩ := hs.get p
    have hc : min (c + 0) 255 = c := min_eq_left (counts _ present).2
    rwa [hc]
  | succ n ih =>
    obtain ⟨ordered, _⟩ := hs.get p
    have raised : (k, min (c + 1) 255) ∈ ((s.post k).alerts.get p).pending := by
      simpa using Station.mem_post_of_pending ordered present
    have hc : min (c + (n + 1)) 255 = min (min (c + 1) 255 + n) 255 := by omega
    rw [hc]
    exact ih (hs.post k) raised

/-- Settles O48: the post at each station record, then the posts that follow it raise the count from 1. -/
theorem postReachesEveryStation : Obligations.PostReachesEveryStation := by
  refine fun k s hs => ⟨hs.post k, rfl, fun p => ?_⟩
  obtain ⟨ordered, _⟩ := hs.get p
  have hpost : (s.post k).alerts.get p = (s.alerts.get p).post k := ByPort.get_map ..
  intro before after
  rw [show after = before.post k from hpost]
  refine ⟨Station.mem_post_of_absent ordered, fun _ => Station.mem_post_of_pending ordered,
    fun _ n hjk => Station.mem_post_other ordered hjk n, ⟨rfl, rfl⟩, Station.decideLine_line_iff _, fun n absent => ?_⟩
  have first : (k, 1) ∈ ((s.post k).alerts.get p).pending := hpost ▸ Station.mem_post_of_absent ordered absent
  rw [show min (n + 1) 255 = min (1 + n) 255 by omega]
  exact State.mem_postAll_replicate n (hs.post k) first

/-! ## The kinds that a list of codes names (R188, R190) -/

theorem mapM_ofCode_eq_some {codes : List Nat} {kinds : List EventKind} :
    codes.mapM EventKind.ofCode = some kinds ↔ codes = kinds.map EventKind.code := by
  induction codes generalizing kinds with
  | nil => simp [eq_comm]
  | cons c codes ih =>
    cases kinds with
    | nil => simp [Option.bind_eq_some_iff]
    | cons k kinds => simp [Option.bind_eq_some_iff, EventKind.ofCode_eq_some, ih]

theorem namedKinds?_eq_some {codes : List Nat} {kinds : List EventKind} :
    namedKinds? codes = some kinds ↔ codes.length ≤ 24 ∧ codes = kinds.map EventKind.code := by
  unfold namedKinds?
  split
  next hlong => simp [Nat.not_le.2 hlong]
  next hshort => simp [mapM_ofCode_eq_some, Nat.not_lt.1 hshort]

/-- A list of codes names kinds exactly when it passes the checks of R188 and R190. -/
theorem exists_namedKinds? {codes : List Nat} :
    (∃ kinds, namedKinds? codes = some kinds) ↔ codes.length ≤ 24 ∧ ∀ c ∈ codes, 1 ≤ c ∧ c ≤ 24 := by
  constructor
  · rintro ⟨kinds, h⟩
    obtain ⟨hlen, rfl⟩ := namedKinds?_eq_some.1 h
    exact ⟨hlen, List.forall_mem_map.2 fun k _ => k.code_range⟩
  · rintro ⟨hlen, hcodes⟩
    obtain ⟨kinds, hkinds⟩ : codes ∈ Set.range (List.map EventKind.code) := by
      rw [Set.range_list_map]
      exact fun c hc => (EventKind.ofCode_isSome.2 (hcodes c hc)).imp fun k hk => (EventKind.ofCode_eq_some.1 hk).symm
    exact ⟨kinds, namedKinds?_eq_some.2 ⟨hlen, hkinds.symm⟩⟩

theorem namedKinds?_eq_none {codes : List Nat} (h : ¬ (codes.length ≤ 24 ∧ ∀ c ∈ codes, 1 ≤ c ∧ c ≤ 24)) :
    namedKinds? codes = none :=
  Option.eq_none_iff_forall_ne_some.2 fun kinds hk => h (exists_namedKinds?.1 ⟨kinds, hk⟩)

theorem mem_namedKinds? {codes : List Nat} {kinds : List EventKind} (h : namedKinds? codes = some kinds)
    (k : EventKind) : k ∈ kinds ↔ k.code ∈ codes := by
  obtain ⟨_, rfl⟩ := namedKinds?_eq_some.1 h
  exact (List.mem_map_of_injective fun _ _ => EventKind.code_injective).symm

/-! ## ACK-EVENTS (R190) -/

theorem takeAckEvents_outOfRange {codes : List Nat} (h : namedKinds? codes = none) (p : Port) (s : State) :
    takeAckEvents p codes s = s.refuse .outOfRange := by
  simp only [takeAckEvents, h]

theorem takeAckEvents_named {codes : List Nat} {kinds : List EventKind} (h : namedKinds? codes = some kinds) (p : Port)
    (s : State) :
    takeAckEvents p codes s = (s.withStation p ((s.alerts.get p).acknowledge kinds), .done []) := by
  simp only [takeAckEvents, h, State.withStation]

theorem Station.acknowledge_pending {codes : List Nat} {kinds : List EventKind} (h : namedKinds? codes = some kinds)
    (st : Station) :
    (st.acknowledge kinds).pending = st.pending.filter (fun e => decide (e.1.code ∉ codes)) := by
  simp only [Station.acknowledge, Station.decideLine_pending, mem_namedKinds? h]

theorem Station.mem_post_acknowledge {st : Station} (ordered : st.pending.Pairwise (fun a b => a.1.code < b.1.code))
    {k : EventKind} {kinds : List EventKind} (hk : k ∈ kinds) : (k, 1) ∈ ((st.acknowledge kinds).post k).pending := by
  have absent (n : Nat) : (k, n) ∉ (st.acknowledge kinds).pending := by simp [Station.acknowledge, hk]
  exact Station.mem_post_of_absent (ordered.filter _) absent

/-- Settles O49: the two outcomes of reading the codes, and the acknowledged record. -/
theorem ackEventsRemovesTheKindsNamed : Obligations.AckEventsRemovesTheKindsNamed := by
  refine ⟨fun p => by cases p <;> decide, fun p codes s ht => ⟨fun hbad => ?_, fun hok => ?_⟩⟩
  · exact exec_eq_replied rfl rfl ht (takeAckEvents_outOfRange (namedKinds?_eq_none hbad) p s)
  · obtain ⟨kinds, hkinds⟩ := exists_namedKinds?.2 hok
    refine ⟨(s.alerts.get p).acknowledge kinds, exec_eq_replied rfl rfl ht (takeAckEvents_named hkinds p s),
      Station.acknowledge_pending hkinds _, ⟨rfl, rfl⟩, Station.decideLine_line_iff _,
      fun q hq => ByPort.get_set_other _ _ hq, fun k hk ordered => ?_⟩
    exact Station.mem_post_acknowledge ordered ((mem_namedKinds? hkinds k).2 hk)

/-! ## SET-ALERTS (R188) -/

theorem onOff?_eq_some {n : Nat} {on : Bool} : onOff? n = some on ↔ n ≤ 1 ∧ on = decide (n = 1) := by
  match n with
  | 0 => simp [onOff?, eq_comm]
  | 1 => simp [onOff?, eq_comm]
  | _ + 2 => simp [onOff?]

theorem takeSetAlerts_outOfRange {master : Nat} {codes : List Nat}
    (h : ¬ (master ≤ 1 ∧ codes.length ≤ 24 ∧ ∀ c ∈ codes, 1 ≤ c ∧ c ≤ 24)) (p : Port) (s : State) :
    takeSetAlerts p master codes s = s.refuse .outOfRange := by
  unfold takeSetAlerts
  split
  next on kinds hon hkinds => exact absurd ⟨(onOff?_eq_some.1 hon).1, exists_namedKinds?.1 ⟨kinds, hkinds⟩⟩ h
  next => rfl

theorem takeSetAlerts_named {master : Nat} {codes : List Nat} {kinds : List EventKind} (hm : master ≤ 1)
    (h : namedKinds? codes = some kinds) (p : Port) (s : State) :
    takeSetAlerts p master codes s =
      (s.withStation p ((s.alerts.get p).enable (decide (master = 1)) kinds), .done []) := by
  simp only [takeSetAlerts, onOff?_eq_some.2 ⟨hm, rfl⟩, h, State.withStation]

theorem EventKind.all_nodup : EventKind.all.Nodup := by decide

theorem Station.enable_enabled_nodup (on : Bool) (kinds : List EventKind) (st : Station) :
    (st.enable on kinds).enabled.Nodup :=
  EventKind.all_nodup.sublist List.filter_sublist

theorem Station.mem_enable_enabled (on : Bool) (kinds : List EventKind) (st : Station) (k : EventKind) :
    k ∈ (st.enable on kinds).enabled ↔ k.urgent = false ∧ k ∈ kinds := by
  simp [Station.enable, EventKind.mem_all]

/-- Settles O50: the two outcomes of reading the master enable and the codes, and the record with the new enables. -/
theorem setAlertsReplacesTheEnables : Obligations.SetAlertsReplacesTheEnables := by
  refine ⟨fun p => by cases p <;> decide, fun p master codes s ht => ⟨fun hbad => ?_, fun ⟨hmaster, hcodes⟩ => ?_⟩⟩
  · exact exec_eq_replied rfl rfl ht (takeSetAlerts_outOfRange hbad p s)
  · obtain ⟨kinds, hkinds⟩ := exists_namedKinds?.2 hcodes
    refine ⟨(s.alerts.get p).enable (decide (master = 1)) kinds,
      exec_eq_replied rfl rfl ht (takeSetAlerts_named hmaster hkinds p s), decide_eq_true_iff,
      Station.enable_enabled_nodup .., fun k => ?_, rfl, Station.decideLine_line_iff _,
      fun q hq => ByPort.get_set_other _ _ hq⟩
    rw [Station.mem_enable_enabled, mem_namedKinds? hkinds]

end Sys2Proof.Machine
end

