-- ==== Sys2Proof/Proofs/Evaluation.lean ====
section
/-! SUPPORT. What an evaluation of the stop planner can do, said once: it activates, marks an overrun or completes, one step at
a time (R143 to R151), and what follows from that for the list, for the ids that records hold and for the events. -/

namespace Sys2Proof.Machine

/-! ## The steps of an evaluation -/

/-- One step of an evaluation: an activation (R144), the overrun test (R151), or a completion at standstill (R148, R149). -/
inductive EvalStep : State → State → Prop
  | activate {s : State} {e : StopEntry} (he : e ∈ s.stops.entries) (hn : s.stops.activeEntry = none) : EvalStep s (activateStop e s)
  | overrun {s : State} {e : StopEntry} (he : e ∈ s.stops.entries) : EvalStep s (overrunTest e s)
  | complete {s : State} {e : StopEntry} (late : Bool) (shortfall : Nat) (he : e ∈ s.stops.entries)
      (hs : s.motion.standstill = true) (hc : s.job.state.isCutOpen = false) : EvalStep s (completeStop e late shortfall s)

/-- Any number of steps of an evaluation. -/
abbrev EvalSteps : State → State → Prop := Relation.ReflTransGen EvalStep

theorem sweepStops_evalSteps (fuel : Nat) {s : State} (hs : s.motion.standstill = true)
    (hc : s.job.state.isCutOpen = false) : EvalSteps s (sweepStops fuel s) := by
  induction fuel generalizing s with
  | zero => exact .refl
  | succ n ih =>
    unfold sweepStops
    split
    · exact .refl
    next e he =>
      exact .head (.complete false 0 (List.mem_of_find?_eq_some he) hs hc) (ih (by simpa using hs) (by simpa using hc))

theorem completeAndSweep_evalSteps {e : StopEntry} {s : State} (he : e ∈ s.stops.entries)
    (hs : s.motion.standstill = true) (hc : s.job.state.isCutOpen = false) : EvalSteps s (completeAndSweep e s) :=
  .head (.complete e.late e.shortfall he hs hc) (sweepStops_evalSteps _ (by simpa using hs) (by simpa using hc))

/-- An activated entry stands in the list as its activation leaves it (R144). -/
theorem activated_mem_activateStop {e : StopEntry} {s : State} (he : e ∈ s.stops.entries) :
    s.activated e ∈ (activateStop e s).stops.entries := by
  rw [activateStop_stops, StopPlanner.changed_entries]
  exact List.mem_map.2 ⟨e, he, if_pos rfl⟩

theorem evaluatePasses_evalSteps (fuel : Nat) {s : State} (hc : s.job.state.isCutOpen = false) :
    EvalSteps s (evaluatePasses fuel s) := by
  induction fuel generalizing s with
  | zero => exact .refl
  | succ n ih =>
    unfold evaluatePasses
    split
    next e he =>
      have hmem := (activeEntry_mem he).1
      split
      next hs => exact (completeAndSweep_evalSteps hmem hs hc).trans (ih (by simpa using hc))
      next => exact .single (.overrun hmem)
    next hn =>
      split
      next => exact .refl
      next e he =>
        have hmem := List.mem_of_mem_head? he
        split
        · split
          next hs =>
            exact (Relation.ReflTransGen.head (.activate hmem hn) (completeAndSweep_evalSteps (activated_mem_activateStop hmem)
              (by simpa using hs) (by simpa using hc))).trans (ih (by simpa using hc))
          next => exact .single (.activate hmem hn)
        · exact .refl

theorem evaluate_evalSteps (s : State) : EvalSteps s (evaluate s) := by
  unfold evaluate
  split
  next => exact .refl
  next hc => exact evaluatePasses_evalSteps _ (by simpa using hc)

/-- During a cut no evaluation is made (R143). -/
theorem evaluate_of_cutOpen {s : State} (hc : s.job.state.isCutOpen = true) : evaluate s = s := if_pos hc

/-! ## What the steps keep -/

/-- The entry is the same but for what activation and the overrun test set (R136, R144, R151). -/
def StopEntry.SameAs (x e : StopEntry) : Prop :=
  x.id = e.id ∧ x.kind = e.kind ∧ x.origin = e.origin ∧ x.ref = e.ref ∧ x.web = e.web ∧ x.station = e.station ∧
  x.target = e.target ∧ x.insertion = e.insertion

theorem StopEntry.SameAs.refl (e : StopEntry) : e.SameAs e := ⟨rfl, rfl, rfl, rfl, rfl, rfl, rfl, rfl⟩

theorem StopEntry.SameAs.trans {x y z : StopEntry} (h : x.SameAs y) (g : y.SameAs z) : x.SameAs z := by
  obtain ⟨h1, h2, h3, h4, h5, h6, h7, h8⟩ := h
  obtain ⟨g1, g2, g3, g4, g5, g6, g7, g8⟩ := g
  exact ⟨h1.trans g1, h2.trans g2, h3.trans g3, h4.trans g4, h5.trans g5, h6.trans g6, h7.trans g7, h8.trans g8⟩

/-- The entry stands in the list and no other one has its id. -/
def StopPlanner.HoldsOnce (pl : StopPlanner) (e : StopEntry) : Prop := e ∈ pl.entries ∧ ∀ y ∈ pl.entries, y.id = e.id → y = e

theorem StopPlanner.Sound.holdsOnce {pl : StopPlanner} (h : pl.Sound) {e : StopEntry} (he : e ∈ pl.entries) :
    pl.HoldsOnce e := ⟨he, fun _ hy hid => h.id_unique hy he hid⟩

/-- A record that has kept its stop entry id or given it up (R72). -/
def PathRecord.GaveUp (r r' : PathRecord) : Prop := r' = r ∨ r' = { r with stopId := none }

/-- The kinds that an evaluation posts (R144, R148, R151). -/
def evaluationPosts : List EventKind := [.stopRequested, .stopLate, .stopReached, .stopOverrun]

/-- What the steps of an evaluation keep from `s` to `t`. -/
structure Evaluated (s t : State) : Prop where
  frame : t = { s with stops := t.stops, queue := t.queue, alerts := t.alerts }
  entries : ∀ x ∈ t.stops.entries, ∃ e ∈ s.stops.entries, x.SameAs e
  stays : s.motion.standstill = false ∨ s.job.state.isCutOpen = true →
    ∀ e, s.stops.HoldsOnce e → ∃ x, t.stops.HoldsOnce x ∧ x.SameAs e
  entryIds : s.motion.standstill = false ∨ s.job.state.isCutOpen = true →
    t.stops.entries.map (·.id) = s.stops.entries.map (·.id)
  numbers : t.stops.nextId = s.stops.nextId ∧ t.stops.insertions = s.stops.insertions
  queue : t.queue = { s.queue with records := t.queue.records, changes := t.queue.changes }
  records : ∃ f : PathRecord → PathRecord, (∀ r : PathRecord, r.GaveUp (f r)) ∧ t.queue.records = s.queue.records.map f
  queueStays : s.motion.standstill = false ∨ s.job.state.isCutOpen = true → t.queue = s.queue
  posts : ∃ ks : List EventKind, (∀ k ∈ ks, k ∈ evaluationPosts) ∧ t.alerts = (s.postAll ks).alerts
  sound : s.stops.Sound → t.stops.Sound
  ids : s.stops.Sound → s.StopIdsMatch → t.StopIdsMatch

theorem State.postAll_alerts (ks : List EventKind) (s : State) :
    (s.postAll ks).alerts = ks.foldl (fun a k => a.map (Station.post k)) s.alerts := by
  induction ks generalizing s with
  | nil => rfl
  | cons k ks ih => exact ih (s.post k)

/-- A post depends on the station records alone (R186). -/
theorem State.postAll_alerts_congr {s t : State} (h : s.alerts = t.alerts) (ks : List EventKind) :
    (s.postAll ks).alerts = (t.postAll ks).alerts := by rw [postAll_alerts, postAll_alerts, h]

theorem State.postAll_append (ks ls : List EventKind) (s : State) : s.postAll (ks ++ ls) = (s.postAll ks).postAll ls :=
  List.foldl_append

theorem PathRecord.GaveUp.trans {a b c : PathRecord} (h : a.GaveUp b) (g : b.GaveUp c) : a.GaveUp c := by
  rcases h with rfl | rfl
  · exact g
  · rcases g with rfl | rfl
    · exact .inr rfl
    · exact .inr rfl

theorem Evaluated.refl (s : State) : Evaluated s s where
  frame := rfl
  entries := fun x hx => ⟨x, hx, .refl x⟩
  stays := fun _ x hx => ⟨x, hx, .refl x⟩
  entryIds := fun _ => rfl
  numbers := ⟨rfl, rfl⟩
  queue := rfl
  records := ⟨id, fun _ => .inl rfl, (List.map_id _).symm⟩
  queueStays := fun _ => rfl
  posts := ⟨[], by simp, rfl⟩
  sound := id
  ids := fun _ h => h

theorem Evaluated.trans {s t u : State} (h : Evaluated s t) (g : Evaluated t u) : Evaluated s u := by
  have hmotion : t.motion = s.motion := by rw [h.frame]
  have hjob : t.job = s.job := by rw [h.frame]
  have gstays := g.stays
  have gids := g.entryIds
  have gqueue := g.queueStays
  rw [hmotion, hjob] at gstays gids gqueue
  refine
    { frame := by rw [g.frame, h.frame]
      entries := fun x hx => ?_
      stays := fun hq e he => ?_
      entryIds := fun hq => (gids hq).trans (h.entryIds hq)
      numbers := ⟨g.numbers.1.trans h.numbers.1, g.numbers.2.trans h.numbers.2⟩
      queue := by rw [g.queue, h.queue]
      records := ?_
      queueStays := fun hq => (gqueue hq).trans (h.queueStays hq)
      posts := ?_
      sound := fun hs => g.sound (h.sound hs)
      ids := fun hs hm => g.ids (h.sound hs) (h.ids hs hm) }
  · obtain ⟨y, hy, hxy⟩ := g.entries x hx
    obtain ⟨e, he, hye⟩ := h.entries y hy
    exact ⟨e, he, hxy.trans hye⟩
  · obtain ⟨y, hy, hye⟩ := h.stays hq e he
    obtain ⟨x, hx, hxy⟩ := gstays hq y hy
    exact ⟨x, hx, hxy.trans hye⟩
  · obtain ⟨f, hf, hr⟩ := h.records
    obtain ⟨f', hf', hr'⟩ := g.records
    exact ⟨f' ∘ f, fun r => (hf r).trans (hf' _), by rw [hr', hr, List.map_map]⟩
  · obtain ⟨ks, hks, hk⟩ := h.posts
    obtain ⟨ls, hls, hl⟩ := g.posts
    refine ⟨ks ++ ls, fun k hm => (List.mem_append.1 hm).elim (hks k) (hls k), ?_⟩
    rw [hl, State.postAll_append, State.postAll_alerts_congr hk]

/-! ## Each step -/

theorem State.activated_sameAs (s : State) (e : StopEntry) : (s.activated e).SameAs e := .refl e

/-- A list where an entry takes the places of those with its id (R144, R151). -/
theorem replaceStop_sameAs {e e' : StopEntry} {l : List StopEntry} (he : e ∈ l) (h : e'.SameAs e) :
    ∀ x ∈ replaceStop e' l, ∃ y ∈ l, x.SameAs y := by
  intro x hx
  obtain ⟨y, hy, rfl⟩ := List.mem_map.1 hx
  split
  · exact ⟨e, he, h⟩
  · exact ⟨y, hy, .refl y⟩

theorem replaceStop_ids (e' : StopEntry) (l : List StopEntry) : (replaceStop e' l).map (·.id) = l.map (·.id) := by
  unfold replaceStop
  rw [List.map_map]
  refine List.map_congr_left fun x _ => ?_
  by_cases hid : x.id = e'.id <;> simp [hid]

theorem StopPlanner.HoldsOnce.replace {pl pl' : StopPlanner} {e e' x : StopEntry} (hx : pl.HoldsOnce x) (he : e ∈ pl.entries)
    (h : e'.SameAs e) (hpl : pl'.entries = replaceStop e' pl.entries) : ∃ y, pl'.HoldsOnce y ∧ y.SameAs x := by
  obtain ⟨hmem, huniq⟩ := hx
  have hid : e'.id = e.id := h.1
  have hall : ∀ z ∈ replaceStop e' pl.entries, z.id = x.id → z = if x.id = e'.id then e' else x := by
    intro z hz hzx
    obtain ⟨w, hw, rfl⟩ := List.mem_map.1 hz
    by_cases hwe : w.id = e'.id
    · rw [if_pos hwe] at hzx ⊢
      rw [if_pos hzx.symm]
    · rw [if_neg hwe] at hzx ⊢
      obtain rfl := huniq w hw hzx
      rw [if_neg hwe]
  refine ⟨if x.id = e'.id then e' else x, ⟨hpl ▸ List.mem_map_of_mem hmem, fun z hz hzx => ?_⟩, ?_⟩
  · refine hall z (hpl ▸ hz) (hzx.trans ?_)
    split
    next hx' => exact hx'.symm
    next => rfl
  · split
    next hx' =>
      obtain rfl := huniq e he (hid.symm.trans hx'.symm)
      exact h
    next => exact .refl x

/-- The ids of records still match when the entries keep their ids and references and the queue stands (R72). -/
theorem State.StopIdsMatch.mono {s t : State} (h : s.StopIdsMatch)
    (hr : ∀ r ∈ t.queue.records, ∀ id ∈ r.stopId, ∃ r' ∈ s.queue.records, r'.body.number = r.body.number ∧ r'.stopId = some id)
    (he : ∀ e ∈ s.stops.entries, ∃ x ∈ t.stops.entries, x.id = e.id ∧ x.ref = e.ref) : t.StopIdsMatch := by
  intro r hmem id hid
  obtain ⟨r', hr', hnum, hid'⟩ := hr r hmem id hid
  obtain ⟨e, hemem, heid, heref⟩ := h r' hr' id hid'
  obtain ⟨x, hx, hxid, hxref⟩ := he e hemem
  exact ⟨x, hx, hxid.trans heid, hxref.trans (heref.trans (by rw [hnum]))⟩

/-- A step that only rewrites one entry in place and posts: the activation and the overrun mark. -/
theorem Evaluated.of_replace {s t : State} {e e' : StopEntry} (he : e ∈ s.stops.entries) (h : e'.SameAs e)
    (hstops : t.stops = StopPlanner.changed { s.stops with entries := replaceStop e' s.stops.entries } 1)
    (hframe : t = { s with stops := t.stops, alerts := t.alerts })
    (hposts : ∃ ks : List EventKind, (∀ k ∈ ks, k ∈ evaluationPosts) ∧ t.alerts = (s.postAll ks).alerts)
    (hsound : s.stops.Sound → t.stops.Sound) : Evaluated s t := by
  have hentries : t.stops.entries = replaceStop e' s.stops.entries := by rw [hstops]; rfl
  have hqueue : t.queue = s.queue := by rw [hframe]
  refine
    { frame := by rw [hframe]
      entries := by rw [hentries]; exact replaceStop_sameAs he h
      stays := fun _ x hx => hx.replace he h hentries
      entryIds := fun _ => by rw [hentries, replaceStop_ids]
      numbers := by rw [hstops]; exact ⟨rfl, rfl⟩
      queue := by rw [hqueue]
      records := ⟨id, fun _ => .inl rfl, by rw [hqueue, List.map_id]⟩
      queueStays := fun _ => hqueue
      posts := hposts
      sound := hsound
      ids := fun hs hm => hm.mono (fun r hr id hid => ⟨r, hqueue ▸ hr, rfl, hid⟩) (fun x hx => ?_) }
  obtain ⟨y, hy, hyx⟩ := (hs.holdsOnce hx).replace he h hentries
  exact ⟨y, hy.1, hyx.1, hyx.2.2.2.1⟩

/-- The events of an activation (R144). -/
def State.activationPosts (s : State) (e : StopEntry) : List EventKind :=
  .stopRequested :: if 0 < (s.motion.braking : Int) - s.remaining e then [.stopLate] else []

theorem activateStop_eq (e : StopEntry) (s : State) :
    activateStop e s = { s with
      stops := StopPlanner.changed { s.stops with entries := replaceStop (s.activated e) s.stops.entries } 1
      alerts := (s.postAll (s.activationPosts e)).alerts } := by
  unfold activateStop State.activationPosts State.postIf
  dsimp only
  by_cases h : 0 < (s.motion.braking : Int) - s.remaining e
  · rw [if_pos (decide_eq_true h), if_pos h]
    rfl
  · rw [if_neg (by simpa using h), if_neg h]
    rfl

theorem overrunTest_cases (e : StopEntry) (s : State) :
    overrunTest e s = s ∨ (e.target + s.motion.settings.overrun < s.p ∧ e.overrun = false ∧
      overrunTest e s = { s with
        stops := StopPlanner.changed
          { s.stops with entries := replaceStop { e with overrun := true } s.stops.entries } 1
        alerts := (s.post .stopOverrun).alerts }) := by
  unfold overrunTest
  split
  next h => exact .inr ⟨h.1, h.2, rfl⟩
  next => exact .inl rfl

/-- A completion is a removal with the last stop record and STOP-REACHED (R148). -/
theorem completeStop_eq (e : StopEntry) (late : Bool) (shortfall : Nat) (s : State) :
    completeStop e late shortfall s = { s with
      stops := { s.stops with entries := s.stops.entries.filter (fun x => decide (x.id ≠ e.id)),
                              lastStop := some (s.stopRecord e late shortfall), changes := (s.stops.changes + 1) % 65536 }
      queue := s.queue.withStopId (fun r => decide (e.ref = .record r.body.number ∧ r.stopId = some e.id)) none
      alerts := (s.post .stopReached).alerts } := by
  simp only [completeStop, removeStop_eq]
  rfl

theorem activateStop_evaluated {e : StopEntry} {s : State} (he : e ∈ s.stops.entries) (hn : s.stops.activeEntry = none) :
    Evaluated s (activateStop e s) := by
  refine .of_replace he (s.activated_sameAs e) (activateStop_stops e s) (by rw [activateStop_eq])
    ⟨s.activationPosts e, ?_, by rw [activateStop_eq]⟩ (activateStop_sound he hn)
  unfold State.activationPosts evaluationPosts
  split <;> simp

theorem overrunTest_evaluated {e : StopEntry} {s : State} (he : e ∈ s.stops.entries) : Evaluated s (overrunTest e s) := by
  rcases overrunTest_cases e s with h | ⟨-, -, h⟩
  · rw [h]; exact .refl s
  · have hsound := overrunTest_sound (s := s) he
    rw [h] at hsound ⊢
    exact .of_replace (e' := { e with overrun := true }) he (.refl e) rfl rfl
      ⟨[.stopOverrun], by simp [evaluationPosts], rfl⟩ hsound

/-- A record of the queue after a stop entry has left the list (R72, R142). -/
def StopEntry.clearedFrom (e : StopEntry) (r : PathRecord) : PathRecord :=
  if e.ref = .record r.body.number ∧ r.stopId = some e.id then { r with stopId := none } else r

theorem StopEntry.gaveUp_clearedFrom (e : StopEntry) (r : PathRecord) : r.GaveUp (e.clearedFrom r) := by
  unfold StopEntry.clearedFrom
  split
  · exact .inr rfl
  · exact .inl rfl

theorem stopRemoved_records (e : StopEntry) (s : State) :
    (s.stopRemoved e).queue.records = s.queue.records.map e.clearedFrom := by
  simp [State.stopRemoved, PathQueue.withStopId, StopEntry.clearedFrom]

/-- An entry that leaves the list takes its id from its record, so the others still match (R72, R142). -/
theorem State.StopIdsMatch.remove {s t : State} {e : StopEntry} (h : s.StopIdsMatch) (hs : s.stops.Sound)
    (he : e ∈ s.stops.entries) (hr : t.queue.records = s.queue.records.map e.clearedFrom)
    (hx : ∀ x ∈ s.stops.entries, x.id ≠ e.id → x ∈ t.stops.entries) : t.StopIdsMatch := by
  intro r hmem id hid
  rw [hr] at hmem
  obtain ⟨r', hr', rfl⟩ := List.mem_map.1 hmem
  unfold StopEntry.clearedFrom at hid ⊢
  split at hid
  · simp at hid
  next hne =>
    rw [if_neg hne]
    obtain ⟨x, hxmem, rfl, hxref⟩ := h r' hr' id hid
    refine ⟨x, hx x hxmem fun hxe => hne ?_, rfl, hxref⟩
    obtain rfl := hs.id_unique hxmem he hxe
    exact ⟨hxref, hid⟩

theorem completeStop_evaluated {e : StopEntry} {s : State} (late : Bool) (shortfall : Nat) (he : e ∈ s.stops.entries)
    (hs : s.motion.standstill = true) (hc : s.job.state.isCutOpen = false) :
    Evaluated s (completeStop e late shortfall s) := by
  have hnot : ¬ (s.motion.standstill = false ∨ s.job.state.isCutOpen = true) := by simp [hs, hc]
  have hsound := completeStop_sound (s := s) e late shortfall
  rw [completeStop_eq] at hsound ⊢
  exact
    { frame := rfl
      entries := fun x hx => ⟨x, List.mem_of_mem_filter hx, .refl x⟩
      stays := fun h => absurd h hnot
      entryIds := fun h => absurd h hnot
      numbers := ⟨rfl, rfl⟩
      queue := rfl
      records := ⟨e.clearedFrom, e.gaveUp_clearedFrom, stopRemoved_records e s⟩
      queueStays := fun h => absurd h hnot
      posts := ⟨[.stopReached], by simp [evaluationPosts], rfl⟩
      sound := hsound
      ids := fun hs hm => hm.remove hs he (stopRemoved_records e s)
        (fun x hx hid => List.mem_filter.2 ⟨hx, decide_eq_true hid⟩) }

theorem EvalStep.evaluated {s t : State} (h : EvalStep s t) : Evaluated s t := by
  cases h with
  | activate he hn => exact activateStop_evaluated he hn
  | overrun he => exact overrunTest_evaluated he
  | complete late shortfall he hs hc => exact completeStop_evaluated late shortfall he hs hc

theorem EvalSteps.evaluated {s t : State} (h : EvalSteps s t) : Evaluated s t := by
  induction h with
  | refl => exact .refl s
  | tail _ hstep ih => exact ih.trans hstep.evaluated

/-- What an evaluation keeps (R143). -/
theorem evaluate_evaluated (s : State) : Evaluated s (evaluate s) := (evaluate_evalSteps s).evaluated

end Sys2Proof.Machine
end

