-- ==== Sys2Proof/Proofs/StopIds.lean ====
section
/-! SUPPORT. Every operation keeps the stop entry ids of the path records those of entries made for them (R72): one lemma for
each operation of the planner, the queue, the tracker, the cut and the set, beside what it moves. -/

namespace Sys2Proof.Machine

/-- What can happen between two states with the motion monitor and the job controller at rest, the ids of records matched. -/
structure Matches (s t : State) : Prop where
  moves : Moves s t
  ids : s.stops.Sound → s.StopIdsMatch → t.StopIdsMatch

theorem Matches.trans {s t u : State} (h : Matches s t) (g : Matches t u) : Matches s u :=
  ⟨h.moves.trans g.moves, fun hs hm => g.ids (h.moves.stops hs) (h.ids hs hm)⟩

theorem Matches.refl (s : State) : Matches s s := ⟨.refl s, fun _ h => h⟩

/-- The stop list stands and each record that holds an id was in the queue with it. -/
theorem Matches.of_records {s t : State} (h : Moves s t) (hs : t.stops = s.stops)
    (hr : ∀ r ∈ t.queue.records, ∀ id ∈ r.stopId,
      ∃ r' ∈ s.queue.records, r'.body.number = r.body.number ∧ r'.stopId = some id) : Matches s t :=
  ⟨h, fun _ hm => hm.mono hr (fun e he => ⟨e, hs ▸ he, rfl, rfl⟩)⟩

theorem Matches.of_eq {s t : State} (h : Moves s t) (hs : t.stops = s.stops) (hq : t.queue = s.queue) : Matches s t :=
  .of_records h hs (fun r hr _ hid => ⟨r, hq ▸ hr, rfl, hid⟩)

theorem Matches.then_eq {s t u : State} (h : Matches s t) (g : Moves t u) (hs : u.stops = t.stops) (hq : u.queue = t.queue) :
    Matches s u := h.trans (.of_eq g hs hq)

theorem Matches.post (s : State) (k : EventKind) : Matches s (s.post k) := .of_eq (.post s k) rfl rfl

theorem Matches.postIf (s : State) (c : Bool) (k : EventKind) : Matches s (s.postIf c k) :=
  .of_eq (.postIf s c k) (by simp) (by simp)

theorem Matches.mapWinding (s : State) (f : SetRecord → SetRecord) : Matches s (s.mapWinding f) :=
  .of_eq (.mapWinding s f) rfl rfl

/-! ## The planner -/

theorem evaluate_matches (s : State) : Matches s (evaluate s) := ⟨evaluate_moves s, (evaluate_evaluated s).ids⟩

/-- A removal, of an entry whose id no other entry has for another record. -/
theorem removeStop_ids {e : StopEntry} {s : State} (he : ∀ x ∈ s.stops.entries, x.id = e.id → x.ref = e.ref)
    (h : s.StopIdsMatch) : (removeStop e s).StopIdsMatch := by
  intro r hmem id hid
  rw [removeStop_eq, stopRemoved_records] at hmem
  obtain ⟨r', hr', rfl⟩ := List.mem_map.1 hmem
  unfold StopEntry.clearedFrom at hid ⊢
  split at hid
  · simp at hid
  next hne =>
    rw [if_neg hne]
    obtain ⟨x, hxmem, rfl, hxref⟩ := h r' hr' id hid
    refine ⟨x, ?_, rfl, hxref⟩
    rw [removeStop_eq]
    refine List.mem_filter.2 ⟨hxmem, decide_eq_true fun hxe => hne ⟨?_, hxe ▸ hid⟩⟩
    rw [← he x hxmem hxe, hxref]

theorem removeStop_matches {e : StopEntry} {s : State} (he : e ∈ s.stops.entries) : Matches s (removeStop e s) :=
  ⟨removeStop_moves e s, fun hs => removeStop_ids fun x hx hid => by rw [hs.id_unique hx he hid]⟩

theorem cancelStopId_matches (id : Nat) (s : State) : Matches s (cancelStopId id s) := by
  unfold cancelStopId
  split
  · exact .refl s
  next e he => exact (removeStop_matches (List.mem_of_find?_eq_some he)).trans (evaluate_matches _)

theorem cancelRecordStop_matches (r : PathRecord) (s : State) : Matches s (cancelRecordStop r s) := by
  unfold cancelRecordStop
  split
  · exact .refl s
  · exact cancelStopId_matches _ s

theorem removeStops_ids (l : List StopEntry) {s : State}
    (hl : ∀ e ∈ l, ∀ x ∈ s.stops.entries, x.id = e.id → x.ref = e.ref) (h : s.StopIdsMatch) :
    (l.foldl (fun s e => removeStop e s) s).StopIdsMatch := by
  induction l generalizing s with
  | nil => exact h
  | cons e l ih =>
    refine ih (fun e' he' x hx => hl e' (by simp [he']) x ?_) (removeStop_ids (hl e (by simp)) h)
    rw [removeStop_stops] at hx
    exact List.mem_of_mem_filter hx

theorem cancelSetStops_matches (n : Nat) (s : State) : Matches s (cancelSetStops n s) := by
  refine ⟨cancelSetStops_moves n s, fun hs hm => ?_⟩
  have hsound : ((s.stops.entries.filter (fun e => decide (e.ref = .set n))).foldl (fun s e => removeStop e s) s).stops.Sound := by
    suffices ∀ (l : List StopEntry) (s : State), s.stops.Sound → (l.foldl (fun s e => removeStop e s) s).stops.Sound from
      this _ _ hs
    intro l
    induction l with
    | nil => exact fun _ h => h
    | cons e l ih => exact fun s h => ih _ (removeStop_sound e h)
  exact (evaluate_evaluated _).ids hsound (removeStops_ids _
    (fun e he x hx hid => by rw [hs.id_unique hx (List.mem_of_mem_filter he) hid]) hm)

/-- An offer's entry is made for the record that stores its id (R140). -/
theorem stopInserted_ids (o : StopOffer) {s : State} (h : s.StopIdsMatch) : (s.stopInserted o).StopIdsMatch := by
  have hplaced (x : StopEntry) (e : StopEntry) (l : List StopEntry) : x ∈ e.placedIn l ↔ x = e ∨ x ∈ l := by
    have hsplit : x ∈ l ↔ x ∈ l.takeWhile (fun y => decide (y.target ≤ e.target)) ∨
        x ∈ l.dropWhile (fun y => decide (y.target ≤ e.target)) := by
      rw [← List.mem_append, List.takeWhile_append_dropWhile]
    rw [StopEntry.placedIn, hsplit, List.mem_append, List.mem_cons]
    tauto
  intro r hmem id hid
  obtain ⟨r', hr', rfl⟩ := List.mem_map.1 hmem
  split at hid
  next hnum =>
    rw [if_pos hnum]
    exact ⟨_, (hplaced _ _ _).2 (.inl rfl), by simpa using hid, of_decide_eq_true hnum⟩
  next hnum =>
    rw [if_neg hnum]
    obtain ⟨x, hx, hxid, hxref⟩ := h r' hr' id hid
    exact ⟨x, (hplaced _ _ _).2 (.inr hx), hxid, hxref⟩

theorem insertStop_matches (o : StopOffer) {r s : State} (h : Matches r s)
    (hl : r.stops.Sound → s.stops.entries.length < 16) : Matches r (insertStop o s).1 := by
  have hm := insertStop_moves o h.moves hl
  refine ⟨hm, fun hs hmatch => ?_⟩
  have hsound := h.moves.stops hs
  rw [insertStop_eq o (fun x hx => (hsound.2.2.2.2.1 x hx).2.2)]
  refine (evaluate_evaluated _).ids ?_ (stopInserted_ids o (h.ids hs hmatch))
  have hins := hsound.insert (hl hs) o 1
  rw [placeStop_eq_placedIn (fun x hx => (hsound.2.2.2.2.1 x hx).2.2)] at hins
  exact hins

theorem offerStop_matches (o : StopOffer) (s : State) : Matches s (offerStop o s).1 := by
  unfold offerStop
  split
  next h => exact insertStop_matches o (.refl s) (fun _ => h)
  · split
    next v hv =>
      have hmem := ((victimOf_spec _ _).2 v hv).1
      refine insertStop_matches o (((removeStop_matches hmem).trans (.post _ .stopDropped)).trans (evaluate_matches _))
        (fun hs => lt_of_le_of_lt (evaluate_length_le _) (lt_of_lt_of_le (removeStop_length hmem) hs.1))
    · exact .postIf _ _ _

theorem retargetStop_matches {e : StopEntry} (w x : Int) {s : State} (he : e ∈ s.stops.entries) (ha : e.active = false) :
    Matches s (retargetStop e w x s) := by
  refine ⟨retargetStop_moves w x he ha, fun hs hm => ?_⟩
  refine (evaluate_evaluated _).ids (hs.move he w x 1) (hm.mono (fun r hr id hid => ⟨r, hr, rfl, hid⟩) (fun y hy => ?_))
  simp only [State.withStops_stops, StopPlanner.changed_entries, mem_placeStop, List.mem_filter, decide_eq_true_eq]
  by_cases hid : y.id = e.id
  · obtain rfl := hs.id_unique hy he hid
    exact ⟨_, .inl rfl, rfl, rfl⟩
  · exact ⟨y, .inr ⟨hy, hid⟩, rfl, rfl⟩

/-- The entries of a shifted list are those of the list with web mark and target moved (R112). -/
theorem mem_shiftStops {popen cut : Nat} {s : State} {x : StopEntry} :
    x ∈ (shiftStops popen cut s).stops.entries ↔ ∃ e ∈ s.stops.entries,
      (if e.reachedByCut popen s.geometry.s then { e with web := e.web + cut, target := e.target + cut } else e) = x := by
  simp only [shiftStops, State.withStops_stops, StopPlanner.changed_entries]
  rw [(sortStops_perm _).mem_iff, List.mem_map]

theorem shiftStops_matches (popen cut : Nat) (s : State) : Matches s (shiftStops popen cut s) := by
  refine ⟨shiftStops_moves popen cut s, fun _ hm => hm.mono (fun r hr id hid => ⟨r, ?_, rfl, hid⟩) (fun e he => ?_)⟩
  · simpa using hr
  · refine ⟨_, mem_shiftStops.2 ⟨e, he, rfl⟩, ?_⟩
    split <;> exact ⟨rfl, rfl⟩

/-! ## The path queue -/

theorem queueFull_matches (s : State) : Matches s (queueFull s) := .of_eq (queueFull_moves s) (by simp) (by simp)

theorem withLeave_matches {r : PathRecord} {s t : State} (h : Moves s t) (hs : t.stops = s.stops)
    (hq : t.queue.records = (s.queue.leave r).records) : Matches s t := by
  refine .of_records h hs (fun x hx id hid => ⟨x, ?_, rfl, hid⟩)
  rw [hq, PathQueue.leave_records] at hx
  exact List.mem_of_mem_filter hx

theorem enterRecord_matches (kind : RecordKind) (xs xe len : Nat) (web : Int) (sl : Option LaneRange) {s : State}
    (hl : s.queue.records.length < 64) (hj : s.job.state ≠ .noJob) : Matches s (enterRecord kind xs xe len web sl s).1 := by
  refine .of_records (enterRecord_moves kind xs xe len web sl hl hj) (by simp) (fun r hr id hid => ?_)
  simp only [enterRecord, State.countFlow_queue, State.withQueue_queue, PathQueue.join_records, mem_placeRecord] at hr
  rcases hr with rfl | hr
  · simp at hid
  · exact ⟨r, hr, rfl, hid⟩

theorem slitRecord_matches {r : PathRecord} {l : LaneRange} {s : State} (hr : r ∈ s.queue.records) (hu : r.slit = none) :
    Matches s (slitRecord r l s) := by
  have hm : Moves s (slitRecord r l s) := .withQueue (.slit r l hr hu) (by simp +contextual)
  refine .of_records hm (by simp) (fun x hx id hid => ?_)
  simp only [slitRecord, State.withQueue_queue, PathQueue.changed_records, List.mem_map] at hx
  obtain ⟨y, hy, rfl⟩ := hx
  refine ⟨y, hy, ?_⟩
  split at hid <;> rename_i h <;> simp [h, ← Option.mem_def, hid]

/-- A record leaves the queue and one flow counter counts it (R73). -/
theorem leave_matches {r : PathRecord} {s : State} (f : Flow → Flow) (hr : r ∈ s.queue.records)
    (hf : f ∈ [Flow.addDelivered 1, Flow.addTrimmed 1, Flow.addRemoved 1, Flow.addUnmapped 1]) :
    Matches s (State.countFlow f (s.withQueue (s.queue.leave r))) :=
  withLeave_matches (.withQueue (q := { s.queue.leave r with flow := f s.queue.flow }) (.gone r f hr hf)
    (fun h => by simp [h] at hr)) rfl rfl

theorem resolveRecord_matches {r : PathRecord} {s : State} (hr : r ∈ s.queue.records) (hu : r.slit = none) :
    Matches s (resolveRecord r s) := by
  unfold resolveRecord
  split
  · exact ((leave_matches _ hr (by simp)).trans (.mapWinding _ _)).trans (cancelRecordStop_matches r _)
  · exact slitRecord_matches hr hu

theorem resolveDue_matches (s : State) : Matches s (resolveDue s) := by
  suffices ∀ (fuel : Nat) (s : State), Matches s (resolvePasses fuel s) from this _ s
  intro fuel
  induction fuel with
  | zero => exact .refl
  | succ n ih =>
    intro s
    unfold resolvePasses
    split
    · exact .refl s
    next r hr =>
      exact (resolveRecord_matches (List.mem_of_find?_eq_some hr) (dueAtKnives_iff.1 (List.find?_some hr)).1).trans (ih _)

theorem deliverRecord_matches {r : PathRecord} {s : State} (hr : r ∈ s.queue.records) : Matches s (deliverRecord r s) := by
  unfold deliverRecord
  dsimp only
  split
  · exact (leave_matches _ hr (by simp)).then_eq (deliverToRoll_moves _ _ _) (by simp) (by simp)
  · exact leave_matches _ hr (by simp)

theorem deliverDue_matches (s : State) : Matches s (deliverDue s) := by
  suffices ∀ (fuel : Nat) (s : State), Matches s (deliverPasses fuel s) by
    unfold deliverDue
    split
    · exact .refl s
    · exact this _ s
  intro fuel
  induction fuel with
  | zero => exact .refl
  | succ n ih =>
    intro s
    unfold deliverPasses
    split
    · exact .refl s
    next r hr => exact (deliverRecord_matches (List.mem_of_find?_eq_some hr)).trans (ih _)

/-- The part of an intake up to the resolution of R62. -/
def defectResolved (d : DefectFields) (sev : Severity) (s : State) : State :=
  let entered := (enterRecord (.defect d.tag d.cls sev) d.xs d.xe d.length (defectWeb s d.age) none s).1
  if defectWeb s d.age + s.geometry.k ≤ s.p then resolveDue entered else entered

/-- The part of an intake up to the stop decision of R63. -/
def defectPlaced (d : DefectFields) (sev : Severity) (s : State) : State × Option Nat :=
  if s.job.params.stopsOn d.cls sev then
    offerStop (defectOffer s s.freshNumber (defectWeb s d.age)) (defectResolved d sev s)
  else (defectResolved d sev s, none)

/-- An intake, stage by stage (R62). -/
theorem intakeDefect_eq (d : DefectFields) (sev : Severity) (s : State) :
    intakeDefect d sev s =
      if (defectResolved d sev s).queue.records.any (fun r => decide (r.body.number = s.freshNumber)) then
        (if defectWeb s d.age + s.geometry.w ≤ s.p then deliverDue (defectPlaced d sev s).1 else (defectPlaced d sev s).1,
          .done (fieldU 2 s.freshNumber ++ fieldU 1 (idOrZero (defectPlaced d sev s).2)))
      else (defectResolved d sev s, .done (fieldU 2 s.freshNumber ++ fieldU 1 0)) := rfl

theorem intakeDefect_matches (d : DefectFields) (sev : Severity) {s : State} (hl : s.queue.records.length < 64)
    (hj : s.job.state ≠ .noJob) : Matches s (intakeDefect d sev s).1 := by
  have hresolved : Matches s (defectResolved d sev s) := by
    unfold defectResolved
    dsimp only
    split
    · exact (enterRecord_matches _ _ _ _ _ _ hl hj).trans (resolveDue_matches _)
    · exact enterRecord_matches _ _ _ _ _ _ hl hj
  have hplaced : Matches s (defectPlaced d sev s).1 := by
    unfold defectPlaced
    split
    · exact hresolved.trans (offerStop_matches _ _)
    · exact hresolved
  rw [intakeDefect_eq]
  split
  · dsimp only
    split
    · exact hplaced.trans (deliverDue_matches _)
    · exact hplaced
  · exact hresolved

theorem spliceSeen_matches (s : State) : Matches s (spliceSeen s) := by
  unfold spliceSeen
  dsimp only
  split
  · exact .refl s
  next hj =>
    split
    · exact .refl s
    have first : Matches s (s.withQueue { s.queue with highMark := some ((s.p : Int) - s.geometry.e) }) :=
      .of_records (.withQueue (.highMark _) id) rfl (fun r hr id hid => ⟨r, hr, rfl, hid⟩)
    split
    · exact first.trans (queueFull_matches _)
    next hl =>
      replace hl : s.queue.records.length < 64 := not_le.1 (fun h => hl (decide_eq_true h))
      split
      · exact (first.trans (enterRecord_matches _ _ _ _ _ _ hl hj)).trans (offerStop_matches _ _)
      · exact first.trans (enterRecord_matches _ _ _ _ _ _ hl hj)

/-! ## The mark tracker -/

theorem withTracker_matches (s : State) (t : MarkTracker) : Matches s (s.withTracker t) :=
  .of_eq (withTracker_moves s t) rfl rfl

theorem recomputeSetEnd_matches (l : MarkLock) (s : State) : Matches s (recomputeSetEnd l s) := by
  unfold recomputeSetEnd
  split
  · split
    next e set he hset =>
      split
      next ha ht => exact retargetStop_matches _ _ (setEnd_mem he).1 ha
      · exact .refl s
    · exact .refl s
  · exact .refl s

theorem loseTrack_matches (l : MarkLock) (s : State) : Matches s (loseTrack l s) := by
  unfold loseTrack
  dsimp only
  split
  · exact ((withTracker_matches s _).trans (.post _ _)).trans (offerStop_matches _ _)
  · exact (withTracker_matches s _).trans (.post _ _)

theorem missMark_matches (l : MarkLock) (s : State) : Matches s (missMark l s) := by
  unfold missMark
  dsimp only
  have first : ∀ t : MarkTracker, Matches s ((countMarkFault (countRepeat (s.withTracker t))).post .markFault) := fun t =>
    (((withTracker_matches s t).trans (.mapWinding _ _)).trans (.mapWinding _ _)).trans (.post _ _)
  split
  · exact (first _).trans (loseTrack_matches _ _)
  · exact first _

theorem trackChange_matches (old : Nat) (s : State) : Matches s (trackChange old s) := by
  have passes : ∀ (fuel : Nat) (s : State), Matches s (missedMarks fuel s) := by
    intro fuel
    induction fuel with
    | zero => exact .refl
    | succ n ih =>
      intro s
      unfold missedMarks
      split
      · split
        · exact (missMark_matches _ _).trans (ih _)
        · exact .refl s
      · exact .refl s
  unfold trackChange
  split
  · exact (withTracker_matches s _).trans (passes _ _)
  · exact withTracker_matches s _

theorem markSeen_matches (s : State) : Matches s (markSeen s) := by
  unfold markSeen
  dsimp only
  split
  · exact .refl s
  split
  · exact withTracker_matches s _
  · unfold classMark
    dsimp only
    split
    · exact withTracker_matches s _
    split
    · exact ((withTracker_matches s _).trans (.mapWinding _ _)).trans (.post _ _)
    split
    · exact ((withTracker_matches s _).trans (.mapWinding _ _)).trans (recomputeSetEnd_matches _ _)
    · exact .refl s
  · exact (((withTracker_matches s _).trans (.post _ _)).trans (.mapWinding _ _)).trans (recomputeSetEnd_matches _ _)

/-! ## Length -/

theorem changeOfP_matches (old : Nat) (s : State) : Matches s (changeOfP old s) := by
  unfold changeOfP
  dsimp only
  have first := ((trackChange_matches old s).trans (resolveDue_matches _)).trans (deliverDue_matches _)
  refine Matches.then_eq (Matches.trans ?_ (evaluate_matches _)) (.of_eq rfl rfl rfl rfl rfl rfl) rfl rfl
  split
  · exact first.then_eq (windingTest_moves _) (by simp) (by simp)
  · exact first

theorem applyCount_matches (e : Encoder) (d : Direction) (s : State) : Matches s (applyCount e d s) := by
  unfold applyCount
  dsimp only
  have counted : ∀ (c : LengthCounter) (x y z : Bool) (o : Encoder), Matches s
      (slipAtCount e d (if z = true then silenceOf o (((s.withLength c).postIf x .positionLimit).postIf y .positionLimit)
        else ((s.withLength c).postIf x .positionLimit).postIf y .positionLimit)) := by
    intro c x y z o
    have first : Matches s (((s.withLength c).postIf x .positionLimit).postIf y .positionLimit) :=
      ((Matches.of_eq (withLength_moves s c) rfl rfl).trans (.postIf _ x _)).trans (.postIf _ y _)
    split
    · exact (first.then_eq (silenceOf_moves _ _) (by simp) (by simp)).then_eq (slipAtCount_moves _ _ _) (by simp) (by simp)
    · exact first.then_eq (slipAtCount_moves _ _ _) (by simp) (by simp)
  have changed : ∀ (c : Prop) [Decidable c] (old : Nat) (t : State), Matches s t →
      Matches s (if c then t else changeOfP old t) := by
    intro c _ old t ht
    split
    · exact ht
    · exact ht.trans (changeOfP_matches _ _)
  exact changed _ _ _ (counted _ _ _ _ _)

theorem acceptEdge_matches (e : Encoder) (ph : Phase) (s : State) : Matches s (acceptEdge e ph s) := by
  unfold acceptEdge
  dsimp only
  have first : Matches s (s.withInputs (s.inputs.accept e ((s.inputs.encoder e).edge ph))) :=
    .of_eq (.of_eq rfl rfl rfl rfl rfl rfl) rfl rfl
  split
  · exact first
  · exact first.trans (applyCount_matches _ _ _)

/-! ## Cuts -/

/-- The records after a cut shift are those of the queue, web marks aside (R110). -/
theorem mem_shift {q : PathQueue} {popen cut : Nat} {table : Int} {x : PathRecord} :
    x ∈ (q.shift popen cut table).records ↔ ∃ r ∈ q.records,
      (if onHeldSide popen table r.body.web then { r with body := r.body.shift cut } else r) = x := by
  simp only [PathQueue.shift, PathQueue.changed_records]
  rw [(sortRecords_perm _).mem_iff, List.mem_map]

theorem cutShift_matches (popen cut : Nat) (s : State) : Matches s (cutShift popen cut s) := by
  refine ⟨cutShift_moves popen cut s, fun hs hm => (shiftStops_matches popen cut _).ids hs ?_⟩
  refine hm.mono (fun r hr id hid => ?_) (fun e he => ⟨e, he, rfl, rfl⟩)
  obtain ⟨r', hr', rfl⟩ := mem_shift.1 hr
  refine ⟨r', hr', ?_⟩
  split at hid <;> rename_i h <;> simp [h, RecordBody.shift, ← Option.mem_def, hid]

theorem removeRecord_matches {r : PathRecord} {s : State} (hr : r ∈ s.queue.records) : Matches s (removeRecord r s) :=
  ((leave_matches _ hr (by simp)).trans (cancelRecordStop_matches r _)).trans (.mapWinding _ _)

theorem removeFromRoll_matches (n : Nat) (s : State) : Matches s (removeFromRoll n s) :=
  .of_eq (removeFromRoll_moves n s) (by simp) (by simp)

/-- A fold of operations that each match. -/
theorem foldl_matches {α β : Type} (f : State × β → α → State × β) (hf : ∀ acc x, Matches acc.1 (f acc x).1) (l : List α)
    (acc : State × β) : Matches acc.1 (l.foldl f acc).1 := by
  induction l generalizing acc with
  | nil => exact .refl _
  | cons x l ih => exact (hf acc x).trans (ih _)

theorem removeNamed_matches (acc : State × Nat) (n : Nat) : Matches acc.1 (removeNamed acc n).1 := by
  unfold removeNamed
  split
  next r hr => exact removeRecord_matches (List.mem_of_find?_eq_some hr)
  · split
    · exact removeFromRoll_matches _ _
    · exact .refl _

theorem removePulled_matches (acc : State × Nat) (r : PathRecord) : Matches acc.1 (removePulled acc r).1 := by
  unfold removePulled
  split
  next x hx => exact removeRecord_matches (List.mem_of_find?_eq_some hx)
  · exact .refl _

theorem removePulledItem_matches (acc : State × Nat) (it : RegisterItem) : Matches acc.1 (removePulledItem acc it).1 := by
  unfold removePulledItem
  split
  · exact removeFromRoll_matches _ _
  · exact .refl _

theorem enterRepairSplice_matches (a b : Nat) {s : State} (hj : s.job.state ≠ .noJob) :
    Matches s (enterRepairSplice a b s).1 := by
  unfold enterRepairSplice
  split
  · exact queueFull_matches s
  next hl => exact enterRecord_matches _ _ _ _ _ _ (not_le.1 (fun h => hl (decide_eq_true h))) hj

/-! ## Set start and set close -/

theorem placeSetEnd_matches (n start : Nat) (s : State) : Matches s (placeSetEnd n start s).1 := by
  unfold placeSetEnd
  split
  · exact .refl s
  · exact offerStop_matches _ _

theorem returnRecord_matches (s : State) (it : RegisterItem) (hj : s.job.state ≠ .noJob) : Matches s (returnRecord s it) := by
  have hmoves : Moves s (returnRecord s it) := returnCounted_moves [it] (s, (0, 0)) hj
  refine .of_records hmoves (by simp) (fun r hr id hid => ?_)
  unfold returnRecord at hr
  dsimp only at hr
  split at hr
  · exact ⟨r, hr, rfl, hid⟩
  · simp only [State.withQueue_queue, PathQueue.join_records, mem_placeRecord] at hr
    rcases hr with rfl | hr
    · simp at hid
    · exact ⟨r, hr, rfl, hid⟩

end Sys2Proof.Machine
end

