-- ==== Sys2Proof/Proofs/Slots.lean ====
section
/-! SUPPORT. The four slots of the roll map (R78): what each holds after a change of one of them or of the winding set's record,
and that one slot is WINDING while the close list holds the closed ones (R98). -/

namespace Sys2Proof.Machine

/-! ## The slots by number -/

theorem RollMap.slots_toList (m : RollMap) : m.slots.toList = [m.slot 1, m.slot 2, m.slot 3, m.slot 4] := by
  obtain ⟨slots, _, _, _⟩ := m
  obtain ⟨⟨l⟩, hl⟩ := slots
  match l, hl with
  | [a, b, c, d], _ => rfl

theorem RollMap.slot_setSlot_self {m : RollMap} {n : Nat} (hn : n ∈ [1, 2, 3, 4]) (x : Slot) : (m.setSlot n x).slot n = x := by
  obtain ⟨slots, _, _, _⟩ := m
  obtain ⟨⟨l⟩, hl⟩ := slots
  match l, hl with
  | [a, b, c, d], _ => fin_cases hn <;> rfl

theorem RollMap.slot_setSlot_other {m : RollMap} {n k : Nat} (hn : n ∈ [1, 2, 3, 4]) (hk : k ∈ [1, 2, 3, 4]) (h : k ≠ n)
    (x : Slot) : (m.setSlot n x).slot k = m.slot k := by
  obtain ⟨slots, _, _, _⟩ := m
  obtain ⟨⟨l⟩, hl⟩ := slots
  match l, hl with
  | [a, b, c, d], _ =>
    fin_cases hn <;> fin_cases hk <;> simp [RollMap.setSlot, RollMap.slot] at h ⊢

/-- A slot with its record changed if it is WINDING. -/
def Slot.mapWinding (f : SetRecord → SetRecord) : Slot → Slot
  | .winding r => .winding (f r)
  | other => other

theorem RollMap.mapWinding_slots (f : SetRecord → SetRecord) (m : RollMap) :
    (m.mapWinding f).slots = m.slots.map (Slot.mapWinding f) := by
  unfold RollMap.mapWinding
  exact congrArg (m.slots.map ·) (funext fun x => by cases x <;> rfl)

theorem RollMap.slot_mapWinding (f : SetRecord → SetRecord) (m : RollMap) (n : Nat) :
    (m.mapWinding f).slot n = (m.slot n).mapWinding f := by
  unfold RollMap.slot
  rw [RollMap.mapWinding_slots]
  simp only [Vector.toList_map, List.getD_eq_getElem?_getD, List.getElem?_map]
  cases m.slots.toList[n - 1]? <;> rfl

@[simp] theorem Slot.mapWinding_isWinding (f : SetRecord → SetRecord) (x : Slot) :
    (x.mapWinding f).isWinding = x.isWinding := by cases x <;> rfl

theorem Slot.mapWinding_of_not {f : SetRecord → SetRecord} {x : Slot} (h : x.isWinding = false) : x.mapWinding f = x := by
  cases x with
  | winding r => cases h
  | _ => rfl

theorem Slot.isWinding_iff {x : Slot} : x.isWinding = true ↔ ∃ r, x = .winding r := by cases x <;> simp [Slot.isWinding]

/-! ## The winding set -/

theorem Slot.winding?_mapWinding (f : SetRecord → SetRecord) (x : Slot) : (x.mapWinding f).winding? = x.winding?.map f := by
  cases x <;> rfl

theorem RollMap.windingSet_eq (m : RollMap) : m.windingSet =
    ((((m.slot 1).winding?.or (m.slot 2).winding?).or (m.slot 3).winding?).or (m.slot 4).winding?) := by
  rw [RollMap.windingSet, m.slots_toList]
  cases h1 : (m.slot 1).winding? <;> cases h2 : (m.slot 2).winding? <;> cases h3 : (m.slot 3).winding? <;>
    cases h4 : (m.slot 4).winding? <;> simp [h1, h2, h3, h4]

theorem RollMap.windingSet_mapWinding (f : SetRecord → SetRecord) (m : RollMap) :
    (m.mapWinding f).windingSet = m.windingSet.map f := by
  rw [RollMap.windingSet_eq, RollMap.windingSet_eq]
  simp only [RollMap.slot_mapWinding, Slot.winding?_mapWinding, Option.map_or]

theorem RollMap.mapWinding_mapWinding (f g : SetRecord → SetRecord) (m : RollMap) :
    (m.mapWinding f).mapWinding g = m.mapWinding (g ∘ f) := by
  unfold RollMap.mapWinding
  simp only [RollMap.mk.injEq, and_self, and_true]
  rw [Vector.map_map]
  congr 1
  funext x
  cases x <;> rfl

/-- With no slot WINDING a change of the winding set's record changes nothing. -/
theorem RollMap.mapWinding_of_none {m : RollMap} (h : m.windingSet = none) (f : SetRecord → SetRecord) :
    m.mapWinding f = m := by
  obtain ⟨⟨⟨l⟩, hl⟩, c, r, n⟩ := m
  simp only [RollMap.windingSet, Vector.toList, List.findSome?_eq_none_iff] at h
  simp only [RollMap.mapWinding, RollMap.mk.injEq, and_true]
  apply Vector.toArray_inj.1
  simp only [Vector.map_mk, List.map_toArray, Array.mk.injEq]
  conv_rhs => rw [← List.map_id l]
  refine List.map_congr_left fun x hx => ?_
  have := h x hx
  cases x with
  | winding r => cases this
  | _ => rfl

theorem RollMap.windingNumber_isSome (m : RollMap) : m.windingNumber.isSome = m.windingSet.isSome := by
  rw [RollMap.windingNumber, RollMap.windingSet, Option.isSome_map, List.findIdx?_isSome, List.isSome_findSome?]

/-- The winding number names a slot from 1 to 4 that holds the winding set (R78). -/
theorem RollMap.windingNumber_spec {m : RollMap} {n : Nat} (h : m.windingNumber = some n) :
    n ∈ [1, 2, 3, 4] ∧ ∃ r, m.slot n = .winding r ∧ m.windingSet = some r := by
  have hw (x : Slot) : x.winding? = none ∨ ∃ r, x = .winding r ∧ x.winding? = some r := by
    cases x <;> simp [Slot.winding?]
  simp only [RollMap.windingNumber, m.slots_toList, List.findIdx?_cons, List.findIdx?_nil, Option.map_eq_some_iff] at h
  obtain ⟨i, hi, rfl⟩ := h
  rw [m.windingSet_eq]
  rcases hw (m.slot 1) with h1 | ⟨r, he, h1⟩
  · rcases hw (m.slot 2) with h2 | ⟨r, he, h2⟩
    · rcases hw (m.slot 3) with h3 | ⟨r, he, h3⟩
      · rcases hw (m.slot 4) with h4 | ⟨r, he, h4⟩
        · simp [h1, h2, h3, h4] at hi
        · have : i = 3 := by simpa [h1, h2, h3, h4] using hi.symm
          subst this
          exact ⟨by decide, r, he, by simp [h1, h2, h3, h4]⟩
      · have : i = 2 := by simpa [h1, h2, h3] using hi.symm
        subst this
        exact ⟨by decide, r, he, by simp [h1, h2, h3]⟩
    · have : i = 1 := by simpa [h1, h2] using hi.symm
      subst this
      exact ⟨by decide, r, he, by simp [h1, h2]⟩
  · have : i = 0 := by simpa [h1] using hi.symm
    subst this
    exact ⟨by decide, r, he, by simp [h1]⟩

/-- A request names a slot from 1 to 4 (R84). -/
theorem RollMap.find_range {m : RollMap} {job set n : Nat} (hc : ∀ n ∈ m.closeList, 1 ≤ n ∧ n ≤ 4)
    (h : m.find job set = .ok n) : n ∈ [1, 2, 3, 4] := by
  unfold RollMap.find at h
  split at h
  · cases h
  · split at h
    · split at h
      · cases h
      next k hk =>
        cases h
        exact (RollMap.windingNumber_spec hk).1
    · split at h
      next hk =>
        cases h
        exact (RollMap.windingNumber_spec (Option.filter_eq_some_iff.1 hk).1).1
      next hk =>
        cases h
        have := hc _ (List.mem_of_mem_filter (List.mem_of_getLast? hk))
        simp only [List.mem_cons, List.not_mem_nil, or_false]
        omega
      · cases h

/-! ## Kinds of slots -/

theorem Slot.isWinding_eq_kind (x : Slot) : x.isWinding = decide (x.kind = 1) := by cases x <;> rfl

theorem Slot.isClosed_eq_kind (x : Slot) : x.isClosed = decide (2 ≤ x.kind) := by cases x <;> rfl

theorem SameKinds.slot {m n : RollMap} (h : SameKinds m n) (k : Nat) : (n.slot k).kind = (m.slot k).kind := by
  have hk : ∀ o : RollMap, (o.slot k).kind = (o.slots.toList.map Slot.kind).getD (k - 1) 0 := by
    intro o
    rw [RollMap.slot, List.getD_eq_getElem?_getD, List.getD_eq_getElem?_getD, List.getElem?_map]
    cases o.slots.toList[k - 1]? <;> rfl
  rw [hk, hk, h.2]

/-- A slot that keeps its kind keeps the kinds of the roll map. -/
theorem SameKinds.setSlot {m : RollMap} {n : Nat} {x : Slot} (hx : x.kind = (m.slot n).kind) : SameKinds m (m.setSlot n x) := by
  refine ⟨rfl, ?_⟩
  obtain ⟨slots, _, _, _⟩ := m
  obtain ⟨⟨l⟩, hl⟩ := slots
  match l, hl with
  | [a, b, c, d], _ =>
    simp only [RollMap.slot, RollMap.setSlot, Vector.toList, Vector.setIfInBounds] at hx ⊢
    match hn : n - 1 with
    | 0 => simp_all
    | 1 => simp_all
    | 2 => simp_all
    | 3 => simp_all
    | k + 4 => simp

theorem countP_isWinding (l : List Slot) : l.countP (·.isWinding) = (l.map Slot.kind).countP (fun k => decide (k = 1)) := by
  rw [List.countP_map]
  exact List.countP_congr fun x _ => by simp [Slot.isWinding_eq_kind]

/-- Slots of the same kinds under the same close list are sound in a job state that is open alike (R78, R98). -/
theorem State.SlotsSound.congr {s t : State} (h : s.SlotsSound) (hk : SameKinds s.roll t.roll)
    (hj : t.job.state.setOpen = s.job.state.setOpen) : t.SlotsSound := by
  obtain ⟨h1, h2, h3, h4⟩ := h
  refine ⟨?_, hk.1 ▸ h2, hk.1 ▸ h3, fun n hn => ?_⟩
  · rw [countP_isWinding, hk.2, ← countP_isWinding, h1, hj]
  · rw [hk.1, h4 n hn, Slot.isClosed_eq_kind, Slot.isClosed_eq_kind, hk.slot]

/-- The number of WINDING slots after one slot has changed. -/
theorem RollMap.countP_setSlot {m : RollMap} {n : Nat} (hn : n ∈ [1, 2, 3, 4]) (x : Slot) :
    (m.setSlot n x).slots.toList.countP (·.isWinding) + (if (m.slot n).isWinding then 1 else 0) =
      m.slots.toList.countP (·.isWinding) + (if x.isWinding then 1 else 0) := by
  obtain ⟨slots, _, _, _⟩ := m
  obtain ⟨⟨l⟩, hl⟩ := slots
  match l, hl with
  | [a, b, c, d], _ =>
    fin_cases hn <;> simp [RollMap.setSlot, RollMap.slot, List.countP_cons] <;> omega

/-- A slot that is WINDING among slots of which one at most is. -/
theorem RollMap.winding_unique {m : RollMap} (h : m.slots.toList.countP (·.isWinding) ≤ 1) {j k : Nat}
    (hj : j ∈ [1, 2, 3, 4]) (hk : k ∈ [1, 2, 3, 4]) (hjw : (m.slot j).isWinding = true) (hkw : (m.slot k).isWinding = true) :
    j = k := by
  by_contra hne
  have hclear := RollMap.countP_setSlot hj .empty (m := m)
  have hclear' := RollMap.countP_setSlot hk .empty (m := m.setSlot j .empty)
  rw [RollMap.slot_setSlot_other hj hk (Ne.symm hne)] at hclear'
  rw [if_pos hjw, if_neg (by decide)] at hclear
  rw [if_pos hkw, if_neg (by decide)] at hclear'
  omega

end Sys2Proof.Machine
end

