-- ==== Sys2Proof/Proofs/Steps.lean ====
section
/-! SUPPORT. What a command can do, said once over all commands: an event of its own, the taking of a request, or a change
of one port. -/

namespace Sys2Proof.Machine

/-! ## The commands -/

/-- What a command does that is neither a request nor a transaction. -/
def eventOf : Instr → Option (State → State)
  | .reset => some resetPart
  | .resetRelease =>
    some fun s => if s.time.inReset then s.withTime { inReset := false, cycle := 0, warmUp := .counting 0 } else s
  | .endOfWarmUp levels => some fun s => if s.warmUpDue then endWarmUp levels s else s
  | .interval => some fun s => if s.time.inReset then s else endInterval (takeDue s)
  | .gateClose => some closeGateIfDue
  | .noMotion => some takeNoMotionIfDue
  | .count e ph => some fun s => if s.running then acceptEdge e ph s else s
  | .illegalTransition e => some fun s => if s.running then glitchAt e s else s
  | .markArrival => some fun s => if s.running then markSeen (s.withInputs s.inputs.markArrived) else s
  | .spliceArrival => some fun s => if s.running then spliceSeen (s.withInputs s.inputs.spliceArrived) else s
  | .strobePulse => some fun s => if s.running && s.strobe.canBegin then s.withStrobe s.strobe.begin else s
  | .strobePulseEnd => some fun s => if s.running && s.strobe.high then s.withStrobe s.strobe.finish else s
  | _ => none

theorem exec_event {i : Instr} {g : State → State} (h : eventOf i = some g) (s : State) : exec i s = .next (g s) := by
  cases i <;> cases h <;> rfl

theorem exec_transaction {i : Instr} (hr : requestParts i = none) (he : eventOf i = none) (s : State) :
    ∃ p r, exec i s = .next (s.withPort p r) := by
  cases i <;> simp only [requestParts, eventOf, reduceCtorEq] at hr he
  case send p bytes cut => exact ⟨p.port, _, rfl⟩
  case fetch p clocked => exact ⟨p.port, _, rfl⟩
  case voidTransaction p first clocked => exact ⟨p.port, _, rfl⟩

/-- A request that its block takes leaves what the taking leaves, but for its port. -/
theorem answerTaken_withPort (p : Port) (k : Kind) (t : Taken) : ∃ r, answerTaken p k t = t.1.withPort p r := ⟨_, rfl⟩

/-- A command does its event, or has its request taken with a change of its port, or changes a port alone. -/
theorem exec_cases {i : Instr} {s t : State} (h : exec i s = .next t) :
    (∃ g, eventOf i = some g ∧ t = g s) ∨ (∃ f p r, takenOf i = some f ∧ t = (f s).1.withPort p r) ∨
      ∃ p r, t = s.withPort p r := by
  cases hr : requestParts i with
  | some x =>
    obtain ⟨p, k, payload⟩ := x
    obtain ⟨f, hf, he⟩ := exec_request hr
    have ht : serve p k i s f = t := by simpa [he] using h
    rcases serve_cases p k i s f with hs | ⟨r, hs⟩
    · obtain ⟨r, hr'⟩ := answerTaken_withPort p k (f s)
      exact .inr (.inl ⟨f, p, r, hf, by rw [← ht, hs, hr']⟩)
    · exact .inr (.inr ⟨p, r, by rw [← ht, hs]⟩)
  | none =>
    cases he : eventOf i with
    | some g => exact .inl ⟨g, rfl, by simpa [exec_event he] using h.symm⟩
    | none =>
      obtain ⟨p, r, hx⟩ := exec_transaction hr he s
      exact .inr (.inr ⟨p, r, by simpa [hx] using h.symm⟩)

/-! ## What a step keeps of the lists and the events -/

/-- The queue, the stop list and the station records stay sound from `s` to `t` (R57, R72, R74, R76, R135, R137, R186). -/
structure ListsKept (s t : State) : Prop where
  queue : s.QueueSound → t.QueueSound
  balanced : s.QueueSound → s.queue.Balanced → t.queue.Balanced
  stops : s.stops.Sound → t.stops.Sound
  ids : s.stops.Sound → s.QueueSound → s.StopIdsMatch → t.StopIdsMatch
  alerts : s.AlertsSound → t.AlertsSound

theorem ListsKept.trans {s t u : State} (h : ListsKept s t) (g : ListsKept t u) : ListsKept s u where
  queue := fun hs => g.queue (h.queue hs)
  balanced := fun hq hb => g.balanced (h.queue hq) (h.balanced hq hb)
  stops := fun hs => g.stops (h.stops hs)
  ids := fun hs hq hm => g.ids (h.stops hs) (h.queue hq) (h.ids hs hq hm)
  alerts := fun hs => g.alerts (h.alerts hs)

theorem State.QueueSound.inOrder {s : State} (h : s.QueueSound) : s.queue.InOrder := by
  obtain ⟨h1, h2, h3, h4, -⟩ := h
  exact ⟨h1, h2, h3, h4⟩

theorem PathQueue.InOrder.sound {s : State} (h : s.queue.InOrder) (hn : s.job.state = .noJob → s.queue.records = []) :
    s.QueueSound := by
  obtain ⟨h1, h2, h3, h4⟩ := h
  exact ⟨h1, h2, h3, h4, hn⟩

theorem State.QueueSound.empty {s : State} (h : s.QueueSound) (hj : s.job.state = .noJob) : s.queue.records = [] := by
  obtain ⟨-, -, -, -, h5⟩ := h
  exact h5 hj

theorem ListsKept.of_matches {s t : State} (h : Matches s t) : ListsKept s t where
  queue := fun hs => (h.moves.queue.inOrder hs.inOrder).sound fun hj => by
    rw [h.moves.job] at hj
    exact h.moves.noJob hj (hs.empty hj)
  balanced := fun hs => h.moves.queue.balanced hs.inOrder
  stops := h.moves.stops
  ids := fun hs _ => h.ids hs
  alerts := h.moves.posts.sound

/-- The queue and the stop list stand, and the part does not come to NO-JOB. -/
theorem ListsKept.of_same {s t : State} (hj : t.job.state = .noJob → s.job.state = .noJob) (hq : t.queue = s.queue)
    (hs : t.stops = s.stops) (ha : s.AlertsSound → t.AlertsSound) : ListsKept s t where
  queue := fun h => (hq ▸ h.inOrder : t.queue.InOrder).sound fun h' => hq ▸ h.empty (hj h')
  balanced := fun _ h => hq ▸ h
  stops := fun h => hs ▸ h
  ids := fun _ _ h => by
    unfold State.StopIdsMatch
    rw [hs, hq]
    exact h
  alerts := ha

/-! ## What a step keeps of every invariant but that of the length -/

/-- Every invariant of the lists, of standstill and of the slots that holds of `s` holds of `t`. -/
structure Keeps (s t : State) : Prop where
  lists : ListsKept s t
  standstill : s.StandstillSound → t.StandstillSound
  slots : s.SlotsSound → t.SlotsSound

theorem Keeps.trans {s t u : State} (h : Keeps s t) (g : Keeps t u) : Keeps s u where
  lists := h.lists.trans g.lists
  standstill := fun hs => g.standstill (h.standstill hs)
  slots := fun hs => g.slots (h.slots hs)

/-- What the invariant of standstill reads of the motion monitor (R28, R31). -/
def Motion.figures (m : Motion) : Bool × Ring × Nat × Nat × Direction :=
  (m.standstill, m.ring, m.speed, m.braking, m.direction)

theorem State.StandstillSound.quiet {s : State} (h : s.StandstillSound) : Quiet s := h.2

theorem State.StandstillSound.congr {s t : State} (h : s.StandstillSound) (hm : t.motion.figures = s.motion.figures)
    (hq : Quiet s → Quiet t) : t.StandstillSound := by
  obtain ⟨h1, h2⟩ := h
  refine ⟨fun hst => ?_, hq h2⟩
  simp only [Motion.figures, Prod.mk.injEq] at hm
  obtain ⟨e1, e2, e3, e4, e5⟩ := hm
  rw [e2, e3, e4, e5]
  exact h1 (e1 ▸ hst)

theorem Quiet.congr_state {s t : State} (h : Quiet s) (hs : t.stops = s.stops) (hm : t.motion.standstill = s.motion.standstill)
    (hj : t.job.state = s.job.state) : Quiet t := by
  unfold Quiet State.stopAsserted at *
  rwa [hs, hm, hj]

theorem Keeps.of_matches {s t : State} (h : Matches s t) : Keeps s t where
  lists := .of_matches h
  standstill := fun hs => hs.congr (by rw [h.moves.motion]) h.moves.quiet
  slots := fun hs => hs.congr h.moves.slots (by rw [h.moves.job])

/-- Nothing that the invariants read has changed but the station records and the roll map. -/
theorem Keeps.of_same {s t : State} (hm : t.motion.figures = s.motion.figures) (hj : t.job.state = s.job.state)
    (hq : t.queue = s.queue) (hs : t.stops = s.stops) (ha : s.AlertsSound → t.AlertsSound)
    (hr : s.SlotsSound → t.SlotsSound) : Keeps s t where
  lists := .of_same (fun h => hj ▸ h) hq hs ha
  standstill := fun h => h.congr hm fun hquiet => hquiet.congr_state hs (congrArg Prod.fst hm) hj
  slots := hr

/-- Nothing that the invariants read has changed. -/
theorem Keeps.of_eq {s t : State} (hm : t.motion.figures = s.motion.figures) (hj : t.job.state = s.job.state)
    (hq : t.queue = s.queue) (hs : t.stops = s.stops) (ha : t.alerts = s.alerts) (hr : t.roll = s.roll) : Keeps s t :=
  .of_same hm hj hq hs (fun h => h.congr ha) fun h => h.congr (hr ▸ .refl _) (by rw [hj])

theorem Keeps.refl (s : State) : Keeps s s := .of_eq rfl rfl rfl rfl rfl rfl

theorem Keeps.withPort (s : State) (p : Port) (r : PortRegs) : Keeps s (s.withPort p r) :=
  .of_eq rfl rfl rfl rfl rfl rfl

theorem Keeps.ite {s t u : State} {c : Prop} [Decidable c] (h : Keeps s t) (g : Keeps s u) : Keeps s (if c then t else u) := by
  split
  · exact h
  · exact g

/-- A change of the job state between states that are open alike; coming to NO-JOB is another matter (R76). -/
theorem Keeps.toJobState {s : State} {j : JobState} (ho : j.setOpen = s.job.state.setOpen) (hn : j ≠ .noJob)
    (hq : Quiet s → Quiet (s.toJobState j)) : Keeps s (s.toJobState j) where
  lists := .of_same (fun h => absurd h hn) rfl rfl fun h => h.congr rfl
  standstill := fun h => h.congr rfl hq
  slots := fun h => h.congr (.refl _) ho

end Sys2Proof.Machine
end

