-- ==== Sys2Proof/Proofs/EventsKeep.lean ====
section
/-! SUPPORT. Every event of the inputs and of the clock keeps the invariants of the lists, of standstill and of the slots. -/

namespace Sys2Proof.Machine

/-! ## Reset (R194) -/

/-- Settles O53: the reset state is a concrete state. -/
theorem resetMeetsEveryInvariant : Obligations.ResetMeetsEveryInvariant := by
  exact ⟨by decide, by decide, by decide, by decide, by decide, fun r hr => by simp [State.reset, PathQueue.reset] at hr,
    by decide, by decide⟩

theorem resetPart_keeps (s : State) : Keeps s (resetPart s) := by
  obtain ⟨-, hstand, hqueue, hbal, hstops, hids, halerts, hslots⟩ := resetMeetsEveryInvariant
  exact ⟨⟨fun _ => hqueue, fun _ _ => hbal, fun _ => hstops, fun _ _ _ => hids, fun _ => halerts⟩, fun _ => hstand,
    fun _ => hslots⟩

/-! ## The gate close (R25 to R29) -/

/-- The part with a gate close taken, before the planner is handed anything (R29). -/
def gateClosed (s : State) : State :=
  State.postAll (closeEvents s.motion (s.motion.close s.p)) ((s.withMotion (s.motion.close s.p)).withInputs s.inputs.newGate)

theorem closeGate_eq (s : State) :
    closeGate s = if motionHandedOn s.motion (s.motion.close s.p) then evaluate (gateClosed s) else gateClosed s := rfl

@[simp] theorem gateClosed_frame (s : State) :
    (gateClosed s).motion = s.motion.close s.p ∧ (gateClosed s).inputs = s.inputs.newGate ∧
    (gateClosed s).job = s.job ∧ (gateClosed s).queue = s.queue ∧ (gateClosed s).stops = s.stops ∧
    (gateClosed s).roll = s.roll := by
  simp [gateClosed]

/-- A ring at standstill holds zeros, so its sum and the speed are 0 and the direction is FORWARD (R26 to R28, R31). -/
theorem Motion.close_still {m : Motion} {p : Nat} (h : m.standstill = true → m.ring = ⟨0, 0, 0, 0⟩)
    (hs : (m.close p).standstill = true) :
    (m.close p).ring = ⟨0, 0, 0, 0⟩ ∧ (m.close p).speed = 0 ∧ (m.close p).braking = 0 ∧
      (m.close p).direction = .forward := by
  have hring : (m.close p).ring = ⟨0, 0, 0, 0⟩ := by
    cases ho : m.standstill with
    | true =>
      have hd : (p : Int) - m.baseline = 0 := by simpa [Motion.close, standstillAfter, ho] using hs
      simp [Motion.close, h ho, hd, Ring.push]
    | false =>
      obtain ⟨h1, h2, h3, h4⟩ : (m.close p).ring.d1 = 0 ∧ (m.close p).ring.d2 = 0 ∧ (m.close p).ring.d3 = 0 ∧
          (m.close p).ring.d4 = 0 := by simpa [Motion.close, standstillAfter, ho, Ring.still] using hs
      calc (m.close p).ring = ⟨(m.close p).ring.d1, (m.close p).ring.d2, (m.close p).ring.d3, (m.close p).ring.d4⟩ := rfl
        _ = ⟨0, 0, 0, 0⟩ := by rw [h1, h2, h3, h4]
  have hsum : (m.close p).ring.sum = 0 := by simp [hring, Ring.sum]
  refine ⟨hring, ?_, ?_, ?_⟩
  · rw [show (m.close p).speed = min (rawSpeed (m.close p).ring.sum m.settings.gate) 20000 from rfl, hsum]
    simp [rawSpeed]
  · rw [Motion.close_braking, if_pos hs]
  · rw [show (m.close p).direction = if 0 ≤ (m.close p).ring.sum then .forward else .reverse from rfl, hsum]
    rfl

theorem closeGate_lists (s : State) : ListsKept s (closeGate s) := by
  have hclosed : ListsKept s (gateClosed s) :=
    .of_same (by simp) (by simp) (by simp) fun h =>
      State.AlertsSound.postAll (s := (s.withMotion (s.motion.close s.p)).withInputs s.inputs.newGate) (h.congr rfl) _
  rw [closeGate_eq]
  split
  · exact hclosed.trans (.of_matches (evaluate_matches _))
  · exact hclosed

/-- A close that the planner is not handed leaves STANDSTILL as it was; any other is followed by an evaluation. -/
theorem closeGate_quiet {s : State} (h : Quiet s) : Quiet (closeGate s) := by
  rw [closeGate_eq]
  split
  next => exact evaluate_quiet_of fun hcut => by simpa [State.stopAsserted] using h (.inr (by simpa using hcut))
  next hsame =>
    have hstill : s.motion.standstill = (s.motion.close s.p).standstill := by
      by_contra hne
      exact hsame (by simp [motionHandedOn, hne])
    exact h.congr_state (by simp) (by simp [hstill]) (by simp)

theorem closeGate_keeps (s : State) : Keeps s (closeGate s) where
  lists := closeGate_lists s
  standstill := fun h => ⟨fun hs => by
    rw [closeGate_motion] at hs ⊢
    exact Motion.close_still (fun ho => (h.1 ho).1) hs, closeGate_quiet h.quiet⟩
  slots := fun h => h.congr (by simp [SameKinds]) (by simp)

/-! ## The clock (R35, R193, R194) -/

theorem takeNoMotion_keeps (s : State) : Keeps s (takeNoMotion s) :=
  .of_same rfl rfl rfl rfl (fun h =>
    State.AlertsSound.post (s := s.withMotion _) (h.congr rfl) .noMotion) fun h => h.congr (.refl _) rfl

theorem Station.Sound.decideLine {st : Station} (h : st.Sound) : st.decideLine.Sound := by
  obtain ⟨hp, hc, he, -⟩ := h
  exact Station.decideLine_sound hp hc he

theorem endWarmUp_keeps (levels : InputLevels) (s : State) : Keeps s (endWarmUp levels s) :=
  .of_same rfl rfl rfl rfl (fun ⟨hl, hi, ho⟩ => ⟨hl.decideLine, hi.decideLine, ho.decideLine⟩)
    fun h => h.congr (.refl _) rfl

theorem takeNoMotionIfDue_keeps (s : State) : Keeps s (takeNoMotionIfDue s) := .ite (takeNoMotion_keeps s) (.refl s)

theorem closeGateIfDue_keeps (s : State) : Keeps s (closeGateIfDue s) := .ite (closeGate_keeps s) (.refl s)

theorem takeDue_keeps (s : State) : Keeps s (takeDue s) := by
  have hfree (u : State) : Keeps u { u with free := u.free + 1 } := .of_eq rfl rfl rfl rfl rfl rfl
  refine Keeps.trans (t := if s.warmUpDue then endWarmUp s.inputs.pins s else s)
    (.ite (endWarmUp_keeps _ s) (.refl s)) ?_
  unfold takeDue
  refine .ite ((hfree _).trans (.ite ?_ ?_)) ?_
  · exact (takeNoMotionIfDue_keeps _).trans (closeGateIfDue_keeps _)
  · exact (closeGateIfDue_keeps _).trans (takeNoMotionIfDue_keeps _)
  · exact (takeNoMotionIfDue_keeps _).trans (closeGateIfDue_keeps _)

theorem endInterval_keeps (s : State) : Keeps s (endInterval s) :=
  .of_eq (by unfold endInterval; split <;> rfl) rfl rfl rfl rfl rfl

theorem clockCycle_keeps (s : State) : Keeps s (clockCycle s) := by
  unfold clockCycle
  refine .ite (.refl s) ((takeDue_keeps s).trans (Keeps.trans (.trans (.ite ?_ ?_) (.ite ?_ (.refl _))) (takeDue_keeps _)))
  · exact .of_eq rfl rfl rfl rfl rfl rfl
  · exact endInterval_keeps _
  · exact .of_eq rfl rfl rfl rfl rfl rfl

/-! ## Every event -/

theorem withInputs_keeps (s : State) (i : Inputs) : Keeps s (s.withInputs i) := .of_eq rfl rfl rfl rfl rfl rfl

theorem withStrobe_keeps (s : State) (d : Strobe) : Keeps s (s.withStrobe d) := .of_eq rfl rfl rfl rfl rfl rfl

theorem glitchAt_keeps (e : Encoder) (s : State) : Keeps s (glitchAt e s) :=
  (withInputs_keeps s _).trans (.of_matches (.postIf _ _ _))

/-- Every event keeps the invariants. -/
theorem eventOf_keeps {i : Instr} {g : State → State} (h : eventOf i = some g) (s : State) : Keeps s (g s) := by
  cases i <;> cases h
  case reset => exact resetPart_keeps s
  case resetRelease => exact .ite (.of_eq rfl rfl rfl rfl rfl rfl) (.refl s)
  case endOfWarmUp levels => exact .ite (endWarmUp_keeps levels s) (.refl s)
  case interval => exact .ite (.refl s) ((takeDue_keeps s).trans (endInterval_keeps _))
  case gateClose => exact closeGateIfDue_keeps s
  case noMotion => exact takeNoMotionIfDue_keeps s
  case count e ph => exact .ite (.of_matches (acceptEdge_matches e ph s)) (.refl s)
  case illegalTransition e => exact .ite (glitchAt_keeps e s) (.refl s)
  case markArrival => exact .ite ((withInputs_keeps s _).trans (.of_matches (markSeen_matches _))) (.refl s)
  case spliceArrival => exact .ite ((withInputs_keeps s _).trans (.of_matches (spliceSeen_matches _))) (.refl s)
  case strobePulse => exact .ite (withStrobe_keeps s _) (.refl s)
  case strobePulseEnd => exact .ite (withStrobe_keeps s _) (.refl s)

end Sys2Proof.Machine
end

