-- ==== Sys2Proof/Proofs/RequestsKeep.lean ====
section
/-! PROOFS. The taking of every request keeps the invariants of the lists, of standstill and of the slots, and with the events
every step does. -/

namespace Sys2Proof.Machine

/-! ## Requests that leave the lists alone -/

theorem takeSetMotion_keeps (f : MotionFields) (s : State) : Keeps s (takeSetMotion f s).1 :=
  .of_eq (by unfold takeSetMotion; repeat' split
             all_goals rfl) (by simp) (by simp) (by simp) (by simp) (by simp)

theorem Motion.reported_figures (m : Motion) (r : LineReport) : (m.reported r).figures = m.figures := by
  cases r with
  | running => rw [Motion.reported]; split <;> rfl
  | stopped => rfl
  | jogging => rfl

theorem takeLineState_keeps (n : Nat) (s : State) : Keeps s (takeLineState n s).1 :=
  .of_eq (by
    unfold takeLineState
    split
    · rfl
    · exact Motion.reported_figures _ _)
    (by simp) (by simp) (by simp) (by simp) (by simp)

theorem takeAckEvents_keeps (p : Port) (codes : List Nat) (s : State) : Keeps s (takeAckEvents p codes s).1 :=
  .of_same (by simp) (by simp) (by simp) (by simp) (fun h => by
    unfold takeAckEvents
    split
    · exact h
    next kinds _ =>
      obtain ⟨hp, hc, he, -⟩ := h.get p
      exact h.set p (Station.decideLine_sound (hp.sublist List.filter_sublist)
        (fun e he => hc e (List.mem_of_mem_filter he)) he)) fun h => h.congr (by simp [SameKinds]) (by simp)

theorem takeSetAlerts_keeps (p : Port) (master : Nat) (codes : List Nat) (s : State) :
    Keeps s (takeSetAlerts p master codes s).1 :=
  .of_same (by simp) (by simp) (by simp) (by simp) (fun h => by
    unfold takeSetAlerts
    split
    next on kinds _ _ =>
      obtain ⟨hp, hc, -, -⟩ := h.get p
      exact h.set p (Station.decideLine_sound hp hc fun k hk => ((Station.mem_enable_enabled on kinds (s.alerts.get p) k).1 hk).1)
    · exact h) fun h => h.congr (by simp [SameKinds]) (by simp)

/-! ## The roll map's requests (R90, R99) -/

theorem Slot.mapRecord_kind (f : SetRecord → SetRecord) (x : Slot) : (x.mapRecord f).kind = x.kind := by cases x <;> rfl

/-- A slot of the same kind, with or without a post. -/
theorem setSlot_postIf_matches {s : State} {n : Nat} {x : Slot} (hx : x.kind = (s.roll.slot n).kind) (c : Bool) (k : EventKind) :
    Matches s (State.postIf c k { s with roll := s.roll.setSlot n x }) :=
  have hset : Matches s { s with roll := s.roll.setSlot n x } :=
    .of_eq (.of_posts rfl rfl (.of_eq rfl) rfl (.setSlot hx) rfl) rfl rfl
  hset.trans (.postIf _ c k)

theorem takeLaneStatus_matches (job set lane status : Nat) (s : State) :
    Matches s (takeLaneStatus job set lane status s).1 := by
  unfold takeLaneStatus
  split
  · exact .refl s
  · split
    · exact .refl s
    · split
      · exact .refl s
      · exact .refl s
      all_goals
        split
        · exact .refl s
        · exact setSlot_postIf_matches (Slot.mapRecord_kind _ _) _ _

/-- A closed set's slot released keeps its place in the close list (R98, R99). -/
theorem takeReleaseSet_slots {job set : Nat} {s : State} (h : s.SlotsSound) : (takeReleaseSet job set s).1.SlotsSound := by
  unfold takeReleaseSet
  split
  · exact h
  next n hn =>
    split
    next r hr =>
      obtain ⟨hcount, hnodup, hrange, hclosed⟩ := h
      have hmem := RollMap.find_range hrange hn
      have hlater := RollMap.countP_setSlot (m := s.roll) hmem (.released r)
      rw [hr, if_neg (by simp [Slot.isWinding]), if_neg (by simp [Slot.isWinding])] at hlater
      refine ⟨hlater.trans hcount, hnodup, hrange, fun k hk => (hclosed k hk).trans ?_⟩
      by_cases hkn : k = n
      · subst hkn
        simp [RollMap.slot_setSlot_self hmem, hr, Slot.isClosed]
      · simp [RollMap.slot_setSlot_other hmem hk hkn]
    all_goals exact h

theorem takeReleaseSet_keeps (job set : Nat) (s : State) : Keeps s (takeReleaseSet job set s).1 :=
  .of_same (by simp) (by simp) (by simp) (by simp) (fun h => h.congr (by simp)) takeReleaseSet_slots

/-! ## Intake (R58) -/

theorem PathQueue.full_iff {q : PathQueue} : q.full = true ↔ 64 ≤ q.records.length := by simp [PathQueue.full]

theorem takeDefect_matches (d : DefectFields) (s : State) : Matches s (takeDefect d s).1 := by
  unfold takeDefect
  split
  · exact .refl s
  next hj =>
    split
    · exact .refl s
    next sev _ =>
      split
      · exact .refl s
      · split
        · exact .refl s
        · split
          · exact queueFull_matches s
          next hfull =>
            rw [PathQueue.full_iff, Nat.not_le] at hfull
            exact intakeDefect_matches d sev hfull hj

/-! ## The stop planner's requests (R139, R152, R153) -/

/-- An offer from a station leaves what the offer leaves (R139). -/
theorem answerOffer_fst (o : StopOffer) (s : State) : (answerOffer o s).1 = (offerStop o s).1 := by
  unfold answerOffer
  split <;> simp_all

theorem answerOffer_matches (o : StopOffer) (s : State) : Matches s (answerOffer o s).1 := by
  rw [answerOffer_fst]
  exact offerStop_matches o s

theorem takeAddStop_matches (p : Port) (form length : Nat) (s : State) : Matches s (takeAddStop p form length s).1 := by
  unfold takeAddStop
  split
  · exact answerOffer_matches _ s
  · split
    · exact .refl s
    · split
      · exact .refl s
      · exact answerOffer_matches _ s
  · exact .refl s

theorem takeCancelStop_matches (p : Port) (id : Nat) (s : State) : Matches s (takeCancelStop p id s).1 := by
  unfold takeCancelStop
  split
  · exact .refl s
  · split
    · exact .refl s
    next e he =>
      split
      · exact .refl s
      · exact (removeStop_matches (List.mem_of_find?_eq_some he)).trans (evaluate_matches _)

theorem withTarget_keeps (s : State) (length : Nat) : Keeps s (s.withTarget length) :=
  .of_same rfl rfl rfl rfl (fun h => h.congr rfl) fun h => h.congr (.mapWinding _ s.roll) rfl

/-- A SET-TARGET is refused, or the planner acts on the part with the new target length (R153). -/
theorem takeSetTarget_cases (length : Nat) (s : State) :
    (takeSetTarget length s).1 = s ∨ Matches (s.withTarget length) (takeSetTarget length s).1 := by
  unfold takeSetTarget
  split
  next set _ _ =>
    split
    · exact .inl rfl
    · dsimp only
      split
      next e he =>
        split
        · exact .inl rfl
        next ha => exact .inr (retargetStop_matches _ _ (setEnd_mem he).1 (by simpa using ha))
      · split
        · exact .inl rfl
        · exact .inr (answerOffer_matches _ _)
  · exact .inl rfl

theorem takeSetTarget_keeps (length : Nat) (s : State) : Keeps s (takeSetTarget length s).1 := by
  rcases takeSetTarget_cases length s with h | h
  · rw [h]
    exact .refl s
  · exact (withTarget_keeps s length).trans (.of_matches h)

/-! ## Cuts (R106, R108, R117) -/

theorem takeCutOpen_keeps (s : State) : Keeps s (takeCutOpen s).1 := by
  unfold takeCutOpen
  split
  · exact .refl s
  next hj =>
    split
    · exact .refl s
    next hm =>
      rw [not_not] at hj
      exact .toJobState (by simp [hj, JobState.setOpen]) (by simp) fun hq _ => hq (.inl (by simpa using hm))

/-- The end of a cut moves the part from WINDING on (R116). -/
theorem endCut_matches (s : State) : Matches (s.toJobState .winding) (endCut s) :=
  have htest : Matches (s.toJobState .winding) (windingTest (s.toJobState .winding)) :=
    .of_eq (windingTest_moves _) rfl rfl
  (htest.trans (deliverDue_matches _)).trans (evaluate_matches _)

theorem endCut_keeps {s : State} {popen : Nat} (hj : s.job.state = .cutOpen popen) : Keeps s (endCut s) := by
  have hopen : ListsKept s (s.toJobState .winding) := .of_same (by simp [State.toJobState]) rfl rfl fun h => h.congr rfl
  have hrest := endCut_matches s
  exact {
    lists := hopen.trans (.of_matches hrest)
    standstill := fun h => h.congr (by rw [hrest.moves.motion]; rfl) fun _ =>
      evaluate_quiet_of fun hcut => by simp [State.toJobState, JobState.isCutOpen] at hcut
    slots := fun h => h.congr hrest.moves.slots (by rw [hrest.moves.job, hj]; rfl) }

/-- A SPLICE-MADE is refused, or ends the cut after its removals and the repair splice (R108). -/
theorem takeSpliceMade_cases (first last : Nat) (records : List Nat) (s : State) :
    (takeSpliceMade first last records s).1 = s ∨
      ∃ popen u, s.job.state = .cutOpen popen ∧ Matches s u ∧ (takeSpliceMade first last records s).1 = endCut u := by
  unfold takeSpliceMade
  split
  next popen hj =>
    dsimp only
    split
    · have hnamed := (cutShift_matches popen (s.p - popen) s).trans
        (foldl_matches removeNamed removeNamed_matches records (cutShift popen (s.p - popen) s, 0))
      have hpulled := hnamed.trans (foldl_matches removePulled removePulled_matches
        (s.queue.records.filter (fun r => isPulledThrough popen s.p s.geometry.s r.body.web)) (_, 0))
      have hitems := hpulled.trans (foldl_matches removePulledItem removePulledItem_matches
        (s.roll.register.filter (fun it => isPulledThrough popen s.p s.geometry.s it.body.web)) _)
      have hrepair := hitems.trans (enterRepairSplice_matches first last (by rw [hitems.moves.job, hj]; simp))
      exact .inr ⟨popen, _, hj, hrepair, rfl⟩
    · exact .inl rfl
  · exact .inl rfl

/-- A CUT-CANCEL is refused, or ends the cut (R117). -/
theorem takeCutCancel_cases (s : State) :
    (takeCutCancel s).1 = s ∨ ∃ popen, s.job.state = .cutOpen popen ∧ (takeCutCancel s).1 = endCut s := by
  unfold takeCutCancel
  split
  next popen hj => exact .inr ⟨popen, hj, rfl⟩
  · exact .inl rfl

theorem takeSpliceMade_keeps (first last : Nat) (records : List Nat) (s : State) :
    Keeps s (takeSpliceMade first last records s).1 := by
  obtain h | ⟨popen, u, hj, hu, h⟩ := takeSpliceMade_cases first last records s
  · rw [h]
    exact .refl s
  · rw [h]
    exact (Keeps.of_matches hu).trans (endCut_keeps (by rw [hu.moves.job, hj]))

theorem takeCutCancel_keeps (s : State) : Keeps s (takeCutCancel s).1 := by
  obtain h | ⟨popen, hj, h⟩ := takeCutCancel_cases s
  · rw [h]
    exact .refl s
  · rw [h]
    exact endCut_keeps hj

/-! ## Job start and job end (R162, R163) -/

theorem Quiet.of_no_entries {s : State} (h : s.stops.entries = []) : Quiet s := fun _ => by simp [State.stopAsserted, h]

theorem startJob_keeps (params : JobParams) (tracking : TrackingSettings) {s : State} (hj : s.job.state = .noJob) :
    Keeps s (startJob params tracking s) where
  lists := {
    queue := fun h => PathQueue.InOrder.sound h.inOrder fun hn => by cases hn
    balanced := fun h _ => by
      have : s.queue.records = [] := h.empty hj
      simp [PathQueue.Balanced, startJob, emptyStops, State.toJobState, PathQueue.startJob, this, Flow.zero]
    stops := (emptyStops_moves _).stops
    ids := fun _ h _ r hr => by
      have hempty : (startJob params tracking s).queue.records = [] := h.empty hj
      simp [hempty] at hr
    alerts := fun h => h.congr rfl }
  standstill := fun h => h.congr rfl fun _ => .of_no_entries rfl
  slots := fun h => h.congr (.refl _) (by rw [hj]; rfl)

theorem takeJobStart_keeps (j : JobFields) (s : State) : Keeps s (takeJobStart j s).1 := by
  unfold takeJobStart
  split
  · exact .refl s
  next hj =>
    rw [not_not] at hj
    split
    · split
      · exact .refl s
      · split
        · exact .refl s
        · exact startJob_keeps _ _ hj
    · exact .refl s

theorem PathQueue.endJob_balanced {q : PathQueue} (h : q.Balanced) : q.endJob.Balanced := by
  simp only [PathQueue.Balanced, PathQueue.endJob, PathQueue.changed, Flow.addUnmapped, wrap32, List.length_nil] at h ⊢
  omega

theorem endJob_keeps {s : State} (hj : s.job.state = .ready) : Keeps s (endJob s) where
  lists := {
    queue := fun _ => ⟨by simp [endJob, emptyStops, State.toJobState, PathQueue.endJob, PathQueue.changed], .nil, .nil,
      fun _ hr => absurd hr (List.not_mem_nil), fun _ => rfl⟩
    balanced := fun _ h => PathQueue.endJob_balanced h
    stops := (emptyStops_moves _).stops
    ids := fun _ _ _ r hr => absurd hr (List.not_mem_nil)
    alerts := fun h => h.congr rfl }
  standstill := fun h => h.congr rfl fun _ => .of_no_entries rfl
  slots := fun h => h.congr (.refl _) (by rw [hj]; rfl)

theorem takeJobEnd_keeps (s : State) : Keeps s (takeJobEnd s).1 := by
  unfold takeJobEnd
  split
  · exact .refl s
  next hj => exact endJob_keeps (by simpa using hj)

end Sys2Proof.Machine
end

