-- ==== Sys2Proof/Proofs/StepsKeep.lean ====
section
/-! PROOFS. Set start and set close keep the invariants, and with them every step does: what the statements say of the lists,
of standstill and of the slots (R28, R57, R74, R78, R98, R107, R135, R137, R143, R186). -/

namespace Sys2Proof.Machine

/-! ## The slots at set start and set close (R78, R82, R98) -/

/-- The slots agree with a job state that is open or not, as `State.SlotsSound` says it of a part. -/
def RollMap.Agrees (m : RollMap) (isOpen : Bool) : Prop :=
  m.slots.toList.countP (·.isWinding) = (if isOpen then 1 else 0) ∧ m.closeList.Nodup ∧
  (∀ n ∈ m.closeList, 1 ≤ n ∧ n ≤ 4) ∧ (∀ n ∈ [1, 2, 3, 4], n ∈ m.closeList ↔ (m.slot n).isClosed = true)

theorem State.slotsSound_iff (s : State) : s.SlotsSound ↔ s.roll.Agrees s.job.state.setOpen := Iff.rfl

/-- The slot chosen for a new set is one of the four (R82). -/
theorem RollMap.chooseSlot_range {m : RollMap} (hc : ∀ n ∈ m.closeList, 1 ≤ n ∧ n ≤ 4) : m.chooseSlot.1 ∈ [1, 2, 3, 4] := by
  have hrange {n : Nat} (h1 : 1 ≤ n) (h4 : n ≤ 4) : n ∈ [1, 2, 3, 4] := by
    simp only [List.mem_cons, List.not_mem_nil, or_false]
    omega
  unfold RollMap.chooseSlot
  split
  next i hi =>
    have hlt : i < 4 := by simpa using (List.findIdx?_eq_some_iff_getElem.1 hi).1
    exact hrange (by simp) (by simpa using hlt)
  · split
    next n hn => exact hrange (hc n (List.mem_of_find?_eq_some hn)).1 (hc n (List.mem_of_find?_eq_some hn)).2
    · cases hl : m.closeList with
      | nil => simp
      | cons n rest => exact hrange (hc n (by simp [hl])).1 (hc n (by simp [hl])).2

/-- A slot taken for a set that starts leaves the close list and becomes the WINDING one (R82, R98). -/
theorem RollMap.Agrees.start {m : RollMap} (h : m.Agrees false) {n : Nat} (hn : n ∈ [1, 2, 3, 4]) (r : SetRecord) (lost : Nat) :
    (RollMap.setSlot { m with closeList := m.closeList.filter (fun k => decide (k ≠ n)), mapsLost := lost } n
      (.winding r)).Agrees true := by
  obtain ⟨hcount, hnodup, hrange, hclosed⟩ := h
  have hlater := RollMap.countP_setSlot (m := m) hn (.winding r)
  have hnone : (m.slot n).isWinding = false := by
    by_contra hw
    have := RollMap.countP_setSlot (m := m) hn .empty
    rw [if_pos (by simpa using hw), if_neg (by simp [Slot.isWinding]), hcount, if_neg (by simp)] at this
    omega
  rw [hnone, hcount] at hlater
  have hone : (m.setSlot n (.winding r)).slots.toList.countP (·.isWinding) = 1 := by
    rw [if_neg (by simp), if_pos (show (Slot.winding r).isWinding = true from rfl)] at hlater
    exact hlater
  refine ⟨hone, hnodup.filter _, fun k hk => hrange k (List.mem_of_mem_filter hk), fun k hk => ?_⟩
  by_cases hkn : k = n
  · subst hkn
    rw [RollMap.slot_setSlot_self hn]
    simp [RollMap.setSlot, Slot.isClosed]
  · rw [RollMap.slot_setSlot_other hn hk hkn]
    change k ∈ m.closeList.filter (fun k => decide (k ≠ n)) ↔ (m.slot k).isClosed = true
    simpa [hkn] using hclosed k hk

/-- The WINDING slot closed joins the close list (R98). -/
theorem RollMap.Agrees.close {m : RollMap} (h : m.Agrees true) {n : Nat} (hn : n ∈ [1, 2, 3, 4])
    (hw : (m.slot n).isWinding = true) (r : SetRecord) : (m.closeSlot n r).Agrees false := by
  obtain ⟨hcount, hnodup, hrange, hclosed⟩ := h
  have hlater := RollMap.countP_setSlot (m := m) hn (.closed r)
  rw [if_pos hw, if_neg (by simp [Slot.isWinding]), hcount] at hlater
  have hopen : n ∉ m.closeList := fun hmem => by
    have hcl := (hclosed n hn).1 hmem
    cases hx : m.slot n <;> simp [hx, Slot.isClosed, Slot.isWinding] at hcl hw
  refine ⟨by simpa [RollMap.closeSlot] using hlater, ?_, ?_, fun k hk => ?_⟩
  · exact List.nodup_append.2 ⟨hnodup, List.nodup_singleton n, fun a ha b hb => by
      rw [List.mem_singleton.1 hb]
      exact fun hab => hopen (hab ▸ ha)⟩
  · have hn' : 1 ≤ n ∧ n ≤ 4 := by
      simp only [List.mem_cons, List.not_mem_nil, or_false] at hn
      omega
    simpa [RollMap.closeSlot, or_imp, forall_and] using ⟨⟨fun k hk => (hrange k hk).1, hn'.1⟩, fun k hk => (hrange k hk).2, hn'.2⟩
  · change k ∈ m.closeList ++ [n] ↔ ((m.setSlot n (.closed r)).slot k).isClosed = true
    by_cases hkn : k = n
    · subst hkn
      rw [RollMap.slot_setSlot_self hn]
      simp [Slot.isClosed]
    · rw [RollMap.slot_setSlot_other hn hk hkn]
      simpa [hkn] using hclosed k hk

/-! ## SET-START (R165) -/

/-- The plans swapped, with PLAN-ACTIVATED for a STAGED plan (R46). -/
theorem swapPlans_eq (s : State) : swapPlans s = { s with
    plans := s.plans.swap
    alerts := (State.postAll (if s.plans.staged.isSome then [.planActivated] else []) s).alerts } := by
  unfold swapPlans State.postIf
  cases s.plans.staged.isSome with
  | true => rfl
  | false => rfl

/-- The part with a slot chosen and taken (R82): it leaves the close list, and a takeover is counted and posted. -/
theorem takeSlot_eq (s : State) :
    takeSlot s = ({ s with
      roll := { s.roll with
        closeList := s.roll.closeList.filter (fun n => decide (n ≠ s.roll.chooseSlot.1))
        mapsLost := if s.roll.chooseSlot.2 then holdAt 65535 (s.roll.mapsLost + 1) else s.roll.mapsLost }
      alerts := (State.postAll (if s.roll.chooseSlot.2 then [.mapLost] else []) s).alerts }, s.roll.chooseSlot.1) := by
  unfold takeSlot
  dsimp only
  cases s.roll.chooseSlot.2 with
  | true => rfl
  | false => rfl

/-- The part with the new set's record in its slot, before the SET-END entry is placed (steps 1 to 4 of R165). -/
def setOpened (s : State) : State :=
  let taken := takeSlot (swapPlans s)
  let number := nextInCycle 9999 s.job.setCounter
  let s2 := taken.1.withJob { taken.1.job with setCounter := number }
  { s2 with roll := s2.roll.setSlot taken.2 (.winding (newSetRecord number s.plans.active s2)) }

theorem startSet_eq (s : State) :
    startSet s =
      (((placeSetEnd (nextInCycle 9999 s.job.setCounter) s.p (setOpened s)).1.toJobState .winding).post .setStarted,
        (takeSlot (swapPlans s)).2,
        idOrZero (placeSetEnd (nextInCycle 9999 s.job.setCounter) s.p (setOpened s)).2) := rfl

/-- The events that a set start posts before its SET-END entry is placed (R46, R82). -/
def openEvents (s : State) : List EventKind :=
  (if s.plans.staged.isSome then [.planActivated] else []) ++ (if s.roll.chooseSlot.2 then [.mapLost] else [])

/-- The roll map with a slot taken for the record of a new set (R82, R83). -/
def RollMap.opened (m : RollMap) (r : SetRecord) : RollMap :=
  RollMap.setSlot { m with
    closeList := m.closeList.filter (fun n => decide (n ≠ m.chooseSlot.1))
    mapsLost := if m.chooseSlot.2 then holdAt 65535 (m.mapsLost + 1) else m.mapsLost } m.chooseSlot.1 (.winding r)

/-- Set start before the SET-END entry touches plans, slots, set counter and events. -/
theorem setOpened_eq (s : State) :
    setOpened s = { s with
      plans := s.plans.swap
      job := { s.job with setCounter := nextInCycle 9999 s.job.setCounter }
      roll := s.roll.opened
        (newSetRecord (nextInCycle 9999 s.job.setCounter) s.plans.active { s with plans := s.plans.swap })
      alerts := (State.postAll (openEvents s) s).alerts } := by
  have hposts : (State.postAll (openEvents s) s).alerts =
      (State.postAll (if s.roll.chooseSlot.2 then [.mapLost] else []) (swapPlans s)).alerts := by
    rw [openEvents, State.postAll_append, swapPlans_eq]
    exact State.postAll_alerts_congr (by rfl) _
  rw [hposts]
  unfold setOpened
  rw [takeSlot_eq, swapPlans_eq]
  rfl

theorem startSet_keeps {s : State} (hj : s.job.state = .ready) : Keeps s (startSet s).1 := by
  have he := setOpened_eq s
  have hstops : (setOpened s).stops = s.stops := by rw [he]
  have hqueue : (setOpened s).queue = s.queue := by rw [he]
  have hmotion : (setOpened s).motion = s.motion := by rw [he]
  have hjob : (setOpened s).job.state = .ready := by rw [he]; exact hj
  have hplaced := placeSetEnd_matches (nextInCycle 9999 s.job.setCounter) s.p (setOpened s)
  rw [startSet_eq]
  generalize hu : (placeSetEnd (nextInCycle 9999 s.job.setCounter) s.p (setOpened s)).1 = u at hplaced ⊢
  have huj : u.job.state = .ready := by rw [hplaced.moves.job, hjob]
  have hstate : ListsKept u (u.toJobState .winding) := .of_same (by simp [State.toJobState]) rfl rfl fun h => h.congr rfl
  have hlast : Keeps (u.toJobState .winding) ((u.toJobState .winding).post .setStarted) := .of_matches (.post _ _)
  exact {
    lists := ((ListsKept.of_same (fun h => by simp [hjob] at h) hqueue hstops fun h => by
      rw [he]
      exact h.postAll (openEvents s)).trans
      (.of_matches hplaced)).trans (hstate.trans hlast.lists)
    standstill := fun h => hlast.standstill (h.congr
      (show u.motion.figures = _ by rw [hplaced.moves.motion, hmotion])
      fun hq hor => hplaced.moves.quiet (hq.congr_state hstops (by rw [hmotion]) (by rw [hjob, hj]))
        (.inl (by simpa [State.toJobState, JobState.isCutOpen] using hor)))
    slots := fun h => hlast.slots (by
      have hagrees : (setOpened s).roll.Agrees true := by
        rw [State.slotsSound_iff, hj] at h
        rw [he]
        exact h.start (RollMap.chooseSlot_range h.2.2.1) _ _
      have hopen : State.SlotsSound ((setOpened s).toJobState .winding) := hagrees
      exact hopen.congr hplaced.moves.slots rfl) }

theorem takeSetStart_keeps (s : State) : Keeps s (takeSetStart s).1 := by
  unfold takeSetStart
  split
  · exact .refl s
  next hj =>
    split
    · exact .refl s
    · exact startSet_keeps (by simpa using hj)

/-! ## SET-CLOSE (R167) -/

theorem returnCounted_matches (l : List RegisterItem) : ∀ acc : State × (Nat × Nat), acc.1.job.state ≠ .noJob →
    Matches acc.1 (l.foldl returnCounted acc).1 := by
  induction l with
  | nil => exact fun acc _ => .refl acc.1
  | cons it rest ih =>
    intro acc hj
    have hone := returnRecord_matches acc.1 it hj
    exact hone.trans (ih (returnCounted acc it) (by rw [show (returnCounted acc it).1 = returnRecord acc.1 it from rfl, hone.moves.job]; exact hj))

/-- The part with the lanes closed and every unwound record handed back, and the counts of those (steps 1 to 3 of R167). -/
def setReturned (set : SetRecord) (s : State) : State × (Nat × Nat) :=
  (returnOrder s.roll.register set).foldl returnCounted (s.mapWinding (SetRecord.close s.p), (0, 0))

/-- The part with the slot CLOSED too, before the cancellations (R96, R98). -/
def slotClosed (slot : Nat) (set : SetRecord) (s : State) : State :=
  { (setReturned set s).1 with roll := (setReturned set s).1.roll.closeSlot slot (set.close s.p) }

theorem closeSet_eq (slot : Nat) (set : SetRecord) (s : State) :
    closeSet slot set s =
      (((cancelSetStops set.number (slotClosed slot set s)).toJobState .ready).post .setClosed, (setReturned set s).2) := rfl

theorem setReturned_matches {s : State} (set : SetRecord) (hj : s.job.state ≠ .noJob) : Matches s (setReturned set s).1 :=
  (Matches.mapWinding s (SetRecord.close s.p)).trans
    (returnCounted_matches (returnOrder s.roll.register set) (s.mapWinding (SetRecord.close s.p), (0, 0)) (by simpa using hj))

theorem closeSet_keeps {s : State} {n : Nat} {set : SetRecord} (hj : s.job.state = .winding)
    (hn : s.roll.windingNumber = some n) : Keeps s (closeSet n set s).1 := by
  obtain ⟨hmem, r, hr, -⟩ := RollMap.windingNumber_spec hn
  have hback : Matches s (setReturned set s).1 := setReturned_matches set (by simp [hj])
  have hcancel := cancelSetStops_matches set.number (slotClosed n set s)
  have hslot : ListsKept (setReturned set s).1 (slotClosed n set s) := .of_same id rfl rfl fun h => h.congr rfl
  rw [closeSet_eq]
  generalize hu : cancelSetStops set.number (slotClosed n set s) = u at hcancel ⊢
  have huj : u.job.state = .winding := by
    rw [hcancel.moves.job, show (slotClosed n set s).job = s.job from hback.moves.job, hj]
  have hstate : ListsKept u (u.toJobState .ready) := .of_same (by simp [State.toJobState]) rfl rfl fun h => h.congr rfl
  have hlast : Keeps (u.toJobState .ready) ((u.toJobState .ready).post .setClosed) := .of_matches (.post _ _)
  exact {
    lists := (((ListsKept.of_matches hback).trans hslot).trans (.of_matches hcancel)).trans (hstate.trans hlast.lists)
    standstill := fun h => hlast.standstill (h.congr
      (show u.motion.figures = _ by
        rw [hcancel.moves.motion, show (slotClosed n set s).motion = s.motion from hback.moves.motion])
      fun hq hor => hcancel.moves.quiet ((hback.moves.quiet hq).congr rfl rfl rfl)
        (.inl (by simpa [State.toJobState, JobState.isCutOpen] using hor)))
    slots := fun h => hlast.slots (by
      have hagrees : (setReturned set s).1.roll.Agrees true := by
        have := h.congr hback.moves.slots (by rw [hback.moves.job])
        rwa [State.slotsSound_iff, hback.moves.job, hj] at this
      have hwinding : ((setReturned set s).1.roll.slot n).isWinding = true := by
        rw [Slot.isWinding_eq_kind, hback.moves.slots.slot, hr]
        rfl
      have hclosed : State.SlotsSound ((slotClosed n set s).toJobState .ready) := hagrees.close hmem hwinding _
      exact hclosed.congr hcancel.moves.slots rfl) }

theorem takeSetClose_keeps (s : State) : Keeps s (takeSetClose s).1 := by
  unfold takeSetClose
  split
  · exact .refl s
  next hj =>
    split
    · exact .refl s
    · split
      next hn _ => exact closeSet_keeps (by simpa using hj) hn
      · exact .refl s

/-! ## Every step -/

/-- The taking of every request keeps the invariants. -/
theorem takenOf_keeps {i : Instr} {f : State → Taken} (h : takenOf i = some f) (s : State) : Keeps s (f s).1 := by
  cases i <;> cases h
  case setMotion p m => exact takeSetMotion_keeps m s
  case lineState p r => exact takeLineState_keeps r s
  case defect p d => exact .of_matches (takeDefect_matches d s)
  case laneStatus p job set lane status => exact .of_matches (takeLaneStatus_matches job set lane status s)
  case releaseSet p job set => exact takeReleaseSet_keeps job set s
  case cutOpen p => exact takeCutOpen_keeps s
  case spliceMade p a b l => exact takeSpliceMade_keeps a b l s
  case cutCancel p => exact takeCutCancel_keeps s
  case addStop p form length => exact .of_matches (takeAddStop_matches p form length s)
  case cancelStop p id => exact .of_matches (takeCancelStop_matches p id s)
  case setTarget p length => exact takeSetTarget_keeps length s
  case jobStart p j => exact takeJobStart_keeps j s
  case jobEnd p => exact takeJobEnd_keeps s
  case setStart p => exact takeSetStart_keeps s
  case setClose p => exact takeSetClose_keeps s
  case ackEvents p l => exact takeAckEvents_keeps p l s
  case setAlerts p m l => exact takeSetAlerts_keeps p m l s
  all_goals exact .of_eq (by simp) (by simp) (by simp) (by simp) (by simp) (by simp)

theorem exec_keeps {i : Instr} {s t : State} (h : exec i s = .next t) : Keeps s t := by
  obtain ⟨g, hg, rfl⟩ | ⟨f, p, r, hf, rfl⟩ | ⟨p, r, rfl⟩ := exec_cases h
  · exact eventOf_keeps hg s
  · exact (takenOf_keeps hf s).trans (.withPort _ p r)
  · exact .withPort s p r

/-- Every step keeps the invariants of the lists, of standstill and of the slots. -/
theorem step_keeps {s t : State} (h : step s = .next t) : Keeps s t := by
  unfold step at h
  split at h
  next =>
    cases h
    exact clockCycle_keeps s
  next c rest _ => exact Keeps.trans (t := { s with pending := rest }) (.of_eq rfl rfl rfl rfl rfl rfl) (exec_keeps h)

/-- Settles O55: a gate close that sets STANDSTILL is followed by an evaluation, which leaves no entry ACTIVE. -/
theorem standstillReleasesStop : Obligations.StandstillReleasesStop := fun _ _ hs h => (step_keeps h).standstill hs

/-- Settles O56, from the steps that each operation takes of the path queue. -/
theorem queueKeepsItsOrder : Obligations.QueueKeepsItsOrder := fun _ _ hs h => (step_keeps h).lists.queue hs

/-- Settles O57, from the steps that each operation takes of the path queue. -/
theorem flowCountersBalance : Obligations.FlowCountersBalance := fun _ _ hq hb h => (step_keeps h).lists.balanced hq hb

/-- Settles O58: every operation of the planner keeps the list, and an id leaves its record with its entry. -/
theorem stopListKeepsItsOrder : Obligations.StopListKeepsItsOrder := fun _ _ hs h =>
  ⟨(step_keeps h).lists.stops hs, (step_keeps h).lists.ids hs⟩

/-- Settles O59: every change of a station record decides its line anew. -/
theorem alertLinesFollowTheirRecords : Obligations.AlertLinesFollowTheirRecords := fun _ _ hs h =>
  (step_keeps h).lists.alerts hs

/-- Settles O60: a slot becomes WINDING at set start and CLOSED at set close, and every other operation keeps the kinds. -/
theorem windingSlotFollowsTheJobState : Obligations.WindingSlotFollowsTheJobState := fun _ _ hs h =>
  (step_keeps h).slots hs

end Sys2Proof.Machine
end

