-- ==== Sys2Proof/Proofs/Counting.lean ====
section
/-! PROOFS. The length counter (R8 to R13, R22, R23): what a count makes of its encoder and of P, exact accumulation, and that
every step keeps the remainders below their divisors and the positions within 32 bits. -/

namespace Sys2Proof.Machine

/-! ## One encoder -/

theorem Measure.Sound.divisor_pos {m : Measure} (h : m.Sound) : 0 < m.divisor := by
  obtain ⟨-, ⟨hk, -⟩, -⟩ := h
  unfold Measure.divisor
  omega

/-- Rounded up, a quotient reaches its dividend and stays less than one divisor above it. -/
theorem ceilDiv_bounds {a b : Nat} (hb : 0 < b) : a ≤ ceilDiv a b * b ∧ ceilDiv a b * b < a + b := by
  have hdiv := Nat.div_add_mod (a + b - 1) b
  have hmod := Nat.mod_lt (a + b - 1) hb
  rw [Nat.mul_comm] at hdiv
  unfold ceilDiv
  omega

/-- A count keeps the figures of an encoder, moves its position within 32 bits and its remainder below the divisor. -/
theorem Measure.Sound.step {m : Measure} (h : m.Sound) (d : Direction) : (m.step d).1.Sound := by
  have hpos := h.divisor_pos
  obtain ⟨hc, hk, ht, hr, hp⟩ := h
  cases d with
  | forward => exact ⟨hc, hk, ht, Nat.mod_lt _ hpos, Nat.min_le_right _ _⟩
  | reverse =>
    change m.reverse.1.Sound
    unfold Measure.reverse
    dsimp only
    split
    · exact ⟨hc, hk, ht, lt_of_le_of_lt (Nat.sub_le _ _) hr, hp⟩
    next hlt =>
      split
      · have := (ceilDiv_bounds (a := m.numerator - m.remainder) hpos).2
        exact ⟨hc, hk, ht, show m.remainder + _ - m.numerator < m.divisor by omega, (Nat.sub_le _ _).trans hp⟩
      · exact ⟨hc, hk, ht, hpos, Nat.zero_le _⟩

/-! ## The length counter at a count (R11, R13, R16) -/

/-- The length counter after a count's own part: the encoder heard and moved, P moved when it is the active source, and the other
encoder's silence distance raised. -/
def LengthCounter.counted (c : LengthCounter) (e : Encoder) (d : Direction) : LengthCounter :=
  let h := c.heard e
  let r := (h.measure e).step d
  LengthCounter.raiseSilence
    { (h.setMeasure e r.1) with p := if h.active = e then movedPosition h.p r.2 d else h.p } (otherEncoder e) r.2

/-- The part after a count, before a change of P is handed on. -/
def counted (e : Encoder) (d : Direction) (s : State) : State :=
  let h := s.length.heard e
  let r := (h.measure e).step d
  let c := s.length.counted e d
  let s1 := ((s.withLength c).postIf (reachedTop (h.measure e).position r.1.position) .positionLimit).postIf
    (reachedTop s.length.p c.p) .positionLimit
  slipAtCount e d
    (if c.fallsSilent (otherEncoder e) r.2 s.motion.settings.silence then silenceOf (otherEncoder e) s1 else s1)

@[simp] theorem LengthCounter.heard_p (c : LengthCounter) (e : Encoder) : (c.heard e).p = c.p := by
  unfold LengthCounter.heard
  dsimp only
  split <;> simp [LengthCounter.openSpan]

@[simp] theorem LengthCounter.raiseSilence_p (c : LengthCounter) (e : Encoder) (u : Nat) : (c.raiseSilence e u).p = c.p := by
  simp [LengthCounter.raiseSilence]

theorem applyCount_eq (e : Encoder) (d : Direction) (s : State) :
    applyCount e d s =
      if (s.length.counted e d).p = s.length.p then counted e d s else changeOfP s.length.p (counted e d s) := by
  have hp : (s.length.counted e d).p =
      if (s.length.heard e).active = e then movedPosition (s.length.heard e).p
        (((s.length.heard e).measure e).step d).2 d else (s.length.heard e).p := by
    simp [LengthCounter.counted]
  unfold counted
  dsimp only
  rw [hp, ← LengthCounter.heard_p s.length e]
  rfl

/-! ## The bounds of a count -/

/-- The figures, remainders and positions of the length counter within their ranges (R8 to R13). -/
def LengthCounter.InBounds (c : LengthCounter) : Prop := c.a.Sound ∧ c.b.Sound ∧ c.p ≤ topOfPosition

/-- The divider within its ranges (R22, R23). -/
def Strobe.InBounds (d : Strobe) : Prop := 1 ≤ d.interval ∧ d.interval ≤ 1000 ∧ d.count < d.interval ∧ d.owed ≤ 65535

theorem State.lengthSound_iff {s : State} : s.LengthSound ↔ s.length.InBounds ∧ s.strobe.InBounds := by
  simp only [LengthCounter.InBounds, Strobe.InBounds, and_assoc]

theorem LengthCounter.inBounds_iff {c : LengthCounter} : c.InBounds ↔ (∀ e, (c.measure e).Sound) ∧ c.p ≤ topOfPosition :=
  ⟨fun ⟨ha, hb, hp⟩ => ⟨fun e => by cases e; exacts [ha, hb], hp⟩, fun ⟨h, hp⟩ => ⟨h .a, h .b, hp⟩⟩

theorem LengthCounter.InBounds.openSpan {c : LengthCounter} (h : c.InBounds) : c.openSpan.InBounds := h

theorem LengthCounter.InBounds.setMeasure {c : LengthCounter} (h : c.InBounds) {e : Encoder} {m : Measure} (hm : m.Sound) :
    (c.setMeasure e m).InBounds := by
  obtain ⟨ha, hb, hp⟩ := h
  cases e
  · exact ⟨hm, hb, hp⟩
  · exact ⟨ha, hm, hp⟩

theorem LengthCounter.InBounds.measure {c : LengthCounter} (h : c.InBounds) (e : Encoder) : (c.measure e).Sound :=
  (LengthCounter.inBounds_iff.1 h).1 e

theorem LengthCounter.InBounds.heard {c : LengthCounter} (h : c.InBounds) (e : Encoder) : (c.heard e).InBounds := by
  have hset : (c.setMeasure e { c.measure e with silent := false, silence := 0 }).InBounds := h.setMeasure (h.measure e)
  unfold LengthCounter.heard
  dsimp only
  split
  · exact hset.openSpan
  · exact hset

theorem LengthCounter.InBounds.raiseSilence {c : LengthCounter} (h : c.InBounds) (e : Encoder) (u : Nat) :
    (c.raiseSilence e u).InBounds := h.setMeasure (h.measure e)

theorem movedPosition_le {p : Nat} (h : p ≤ topOfPosition) (u : Nat) (d : Direction) : movedPosition p u d ≤ topOfPosition := by
  cases d
  · exact Nat.min_le_right _ _
  · exact (Nat.sub_le _ _).trans h

theorem LengthCounter.InBounds.counted {c : LengthCounter} (h : c.InBounds) (e : Encoder) (d : Direction) :
    (c.counted e d).InBounds := by
  have hh := h.heard e
  obtain ⟨ha, hb, -⟩ := hh.setMeasure ((hh.measure e).step d)
  unfold LengthCounter.counted
  refine LengthCounter.InBounds.raiseSilence ?_ _ _
  refine ⟨ha, hb, ?_⟩
  dsimp only
  split
  · exact movedPosition_le hh.2.2 _ _
  · exact hh.2.2

theorem silenceA_length (s : State) : (silenceA s).length =
    { s.length with a := { s.length.a with silent := true }, active := .b, span := none } := by
  unfold silenceA
  dsimp only
  split <;> simp

theorem silenceB_length (s : State) : (silenceB s).length =
    { s.length with b := { s.length.b with silent := true }, span := none } := rfl

theorem silenceOf_length_inBounds {s : State} (h : s.length.InBounds) (e : Encoder) : (silenceOf e s).length.InBounds := by
  cases e with
  | a =>
    rw [silenceOf, silenceA_length]
    exact h
  | b => exact h

theorem slipAtCount_length_inBounds {s : State} (h : s.length.InBounds) (e : Encoder) (d : Direction) :
    (slipAtCount e d s).length.InBounds := by
  cases e with
  | b => exact h
  | a =>
    cases d with
    | reverse => exact h
    | forward =>
      change (slipCheck s).length.InBounds
      unfold slipCheck
      dsimp only
      split
      · exact h
      · split
        · rw [(State.postIf_frame _ _ _).2.2.2.1]
          exact h
        · exact h

theorem counted_length_inBounds {s : State} (h : s.length.InBounds) (e : Encoder) (d : Direction) :
    (counted e d s).length.InBounds := by
  refine slipAtCount_length_inBounds ?_ e d
  split
  · exact silenceOf_length_inBounds (by simpa using h.counted e d) _
  · simpa using h.counted e d

/-! ## The divider (R23) -/

theorem Strobe.InBounds.addUnits {d : Strobe} (h : d.InBounds) (u : Nat) : (d.addUnits u).InBounds := by
  obtain ⟨h1, h2, -, -⟩ := h
  exact ⟨h1, h2, Nat.mod_lt _ h1, Nat.min_le_right _ _⟩

theorem changeOfP_strobe (old : Nat) (s : State) : (changeOfP old s).strobe = s.strobe.addUnits (s.length.p - old) := by
  unfold changeOfP
  dsimp only
  split <;> simp [State.p]

theorem Strobe.InBounds.begin {d : Strobe} (h : d.InBounds) : d.begin.InBounds := by
  obtain ⟨h1, h2, h3, h4⟩ := h
  exact ⟨h1, h2, h3, (Nat.sub_le _ _).trans h4⟩

theorem Strobe.InBounds.cycle {d : Strobe} (h : d.InBounds) : d.cycle.InBounds := by
  unfold Strobe.cycle
  dsimp only
  split
  · exact h
  · split
    · exact h
    · split
      · exact Strobe.InBounds.begin h
      · exact h

/-! ## Every step (R10, R12, R13, R22, R23) -/

theorem State.LengthSound.congr {s t : State} (h : s.LengthSound) (hl : t.length = s.length) (hd : t.strobe = s.strobe) :
    t.LengthSound := by
  rw [State.lengthSound_iff, hl, hd]
  exact State.lengthSound_iff.1 h

theorem applyCount_lengthSound {s : State} (h : s.LengthSound) (e : Encoder) (d : Direction) : (applyCount e d s).LengthSound := by
  obtain ⟨hl, hd⟩ := State.lengthSound_iff.1 h
  have hcount := counted_length_inBounds hl e d
  have hstrobe : (counted e d s).strobe = s.strobe := by
    unfold counted
    dsimp only
    split <;> simp
  rw [applyCount_eq, State.lengthSound_iff]
  split
  · exact ⟨hcount, hstrobe ▸ hd⟩
  · rw [changeOfP_strobe, hstrobe]
    exact ⟨by simpa using hcount, hd.addUnits _⟩

theorem acceptEdge_lengthSound {s : State} (h : s.LengthSound) (e : Encoder) (ph : Phase) : (acceptEdge e ph s).LengthSound := by
  unfold acceptEdge
  dsimp only
  split
  · exact h
  · exact applyCount_lengthSound (s := s.withInputs (s.inputs.accept e ((s.inputs.encoder e).edge ph))) h e _

theorem State.LengthSound.ite {s t : State} {c : Prop} [Decidable c] (h : s.LengthSound) (g : t.LengthSound) :
    (if c then s else t).LengthSound := by
  split
  · exact h
  · exact g

theorem takeDue_lengthSound {s : State} (h : s.LengthSound) : (takeDue s).LengthSound := by
  have hwarm : (if s.warmUpDue then endWarmUp s.inputs.pins s else s).LengthSound := .ite h h
  have hmotion (u : State) (hu : u.LengthSound) : (takeNoMotionIfDue u).LengthSound := .ite hu hu
  have hgate (u : State) (hu : u.LengthSound) : (closeGateIfDue u).LengthSound := hu.congr (by simp) (by simp)
  unfold takeDue
  refine .ite (.ite (hgate _ (hmotion _ hwarm)) (hmotion _ (hgate _ hwarm))) (hgate _ (hmotion _ hwarm))

theorem eventOf_lengthSound {i : Instr} {g : State → State} (hi : eventOf i = some g) {s : State} (h : s.LengthSound) :
    (g s).LengthSound := by
  cases i <;> cases hi
  case reset => exact resetMeetsEveryInvariant.1
  case resetRelease => exact .ite h h
  case endOfWarmUp levels => exact .ite h h
  case interval => exact .ite h (takeDue_lengthSound h)
  case gateClose => exact h.congr (by simp) (by simp)
  case noMotion => exact .ite h h
  case count e ph => exact .ite (acceptEdge_lengthSound h e ph) h
  case illegalTransition e => exact .ite (h.congr (by simp) (by simp)) h
  case markArrival => exact .ite (h.congr (by simp) (by simp)) h
  case spliceArrival => exact .ite (h.congr (by simp) (by simp)) h
  case strobePulse =>
    exact .ite (State.lengthSound_iff.2 ⟨(State.lengthSound_iff.1 h).1, (State.lengthSound_iff.1 h).2.begin⟩) h
  case strobePulseEnd => exact .ite h h

theorem Measure.Sound.calibrate {m : Measure} (h : m.Sound) {f : CalibrationFields} (hf : calibrationInRange f = true) :
    (m.calibrate f).Sound := by
  obtain ⟨-, -, ht, hr, hp⟩ := h
  simp only [calibrationInRange, Bool.and_eq_true, decide_eq_true_eq] at hf
  obtain ⟨hc, hk⟩ := hf
  refine ⟨hc, hk, ht, ?_, hp⟩
  change (if m.circumference = f.circumference ∧ m.counts = f.counts then m.remainder else 0) < f.counts * 100000000
  split
  next heq => exact heq.2 ▸ hr
  · omega

theorem takeSetCalibration_lengthSound {s : State} (h : s.LengthSound) (fa fb : CalibrationFields) :
    (takeSetCalibration fa fb s).1.LengthSound := by
  unfold takeSetCalibration
  split
  · exact h
  · split
    · exact h
    next hin =>
      simp only [Bool.not_eq_false, Bool.and_eq_true] at hin
      split
      · obtain ⟨⟨ha, hb, hp⟩, hd⟩ := State.lengthSound_iff.1 h
        exact State.lengthSound_iff.2 ⟨⟨ha.calibrate hin.1, hb.calibrate hin.2, hp⟩, hd⟩
      · exact h

theorem takeSetTrim_lengthSound {s : State} (h : s.LengthSound) (enc : Nat) (trim : Int) :
    (takeSetTrim enc trim s).1.LengthSound := by
  unfold takeSetTrim
  split
  · exact h
  next e _ =>
    split
    · exact h
    next hin =>
      obtain ⟨hl, hd⟩ := State.lengthSound_iff.1 h
      obtain ⟨hc, hk, -, hr, hp⟩ := hl.measure e
      exact State.lengthSound_iff.2 ⟨hl.setMeasure ⟨hc, hk, show -20000 ≤ trim ∧ trim ≤ 20000 by omega, hr, hp⟩, hd⟩

theorem takeSelectSource_lengthSound {s : State} (h : s.LengthSound) (source : Nat) :
    (takeSelectSource source s).1.LengthSound := by
  unfold takeSelectSource LengthCounter.select
  repeat' split
  all_goals exact h

theorem takeSetStrobe_lengthSound {s : State} (h : s.LengthSound) (q : Nat) : (takeSetStrobe q s).1.LengthSound := by
  unfold takeSetStrobe
  split
  · exact h
  next hq =>
    exact State.lengthSound_iff.2 ⟨(State.lengthSound_iff.1 h).1,
      show 1 ≤ q by omega, show q ≤ 1000 by omega, show 0 < q by omega, Nat.zero_le _⟩

theorem Measure.Sound.startJob {m : Measure} (h : m.Sound) : m.startJob.Sound := by
  obtain ⟨hc, hk, ht, hr, -⟩ := h
  exact ⟨hc, hk, ht, Nat.zero_lt_of_lt hr, Nat.zero_le _⟩

theorem takeJobStart_lengthSound {s : State} (h : s.LengthSound) (j : JobFields) : (takeJobStart j s).1.LengthSound := by
  have hstart (params : JobParams) (tracking : TrackingSettings) : (startJob params tracking s).LengthSound := by
    obtain ⟨⟨ha, hb, -⟩, h1, h2, -, -⟩ := State.lengthSound_iff.1 h
    exact State.lengthSound_iff.2 ⟨⟨ha.startJob, hb.startJob, Nat.zero_le _⟩, h1, h2, h1, Nat.zero_le _⟩
  unfold takeJobStart
  split
  · exact h
  · split
    · split
      · exact h
      · split
        · exact h
        · exact hstart _ _
    · exact h

theorem takenOf_lengthSound {i : Instr} {f : State → Taken} (hi : takenOf i = some f) {s : State} (h : s.LengthSound) :
    (f s).1.LengthSound := by
  cases i <;> cases hi
  case setCalibration p fa fb => exact takeSetCalibration_lengthSound h fa fb
  case setTrim p enc trim => exact takeSetTrim_lengthSound h enc trim
  case selectSource p source => exact takeSelectSource_lengthSound h source
  case setStrobe p q => exact takeSetStrobe_lengthSound h q
  case jobStart p j => exact takeJobStart_lengthSound h j
  all_goals exact h.congr (by simp) (by simp)

/-- Settles O54: a count keeps each remainder below its divisor and holds each position, and the divider keeps its surplus. -/
theorem lengthStaysWithinItsBounds : Obligations.LengthStaysWithinItsBounds := by
  intro s t h hstep
  unfold step at hstep
  split at hstep
  · cases hstep
    have hdue := takeDue_lengthSound h
    unfold clockCycle
    refine .ite h (takeDue_lengthSound ?_)
    dsimp only
    have hcycled (u : State) (hu : u.LengthSound) : (if u.running then u.withStrobe u.strobe.cycle else u).LengthSound :=
      .ite (State.lengthSound_iff.2 ⟨(State.lengthSound_iff.1 hu).1, (State.lengthSound_iff.1 hu).2.cycle⟩) hu
    exact hcycled _ (.ite hdue hdue)
  next c rest _ =>
    have h' : State.LengthSound { s with pending := rest } := h
    obtain ⟨g, hg, rfl⟩ | ⟨f, p, r, hf, rfl⟩ | ⟨p, r, rfl⟩ := exec_cases hstep
    · exact eventOf_lengthSound hg h'
    · exact takenOf_lengthSound hf h'
    · exact h'

/-! ## Exact accumulation (R10, R11) -/

/-- A forward count whose position meets no hold adds the whole units of its length (R10, R11). -/
theorem Measure.forward_of_below {m : Measure} (h : m.position + (m.remainder + m.numerator) / m.divisor ≤ topOfPosition) :
    m.forward = ({ m with remainder := (m.remainder + m.numerator) % m.divisor,
                          position := m.position + (m.remainder + m.numerator) / m.divisor },
      (m.remainder + m.numerator) / m.divisor) := by
  simp only [Measure.forward, Nat.min_eq_left h, Nat.add_sub_cancel_left]

/-- What is left below the divisor and a further length hold the whole units that the sum holds beyond those before. -/
theorem add_div_mod_of_mod_add (a b : Nat) {d : Nat} (hd : 0 < d) :
    a / d + (a % d + b) / d = (a + b) / d ∧ (a % d + b) % d = (a + b) % d := by
  have h : a + b = d * (a / d) + (a % d + b) := by have := Nat.div_add_mod a d; omega
  rw [h, Nat.mul_add_div hd, Nat.mul_add_mod]
  exact ⟨rfl, rfl⟩

/-- Any number of forward counts that meet no hold (R10, R11). -/
theorem Measure.iterate_forward {m : Measure} (h : m.Sound) (k : Nat)
    (hk : m.position + (m.remainder + k * m.numerator) / m.divisor ≤ topOfPosition) :
    (fun x : Measure => x.forward.1)^[k] m =
      { m with remainder := (m.remainder + k * m.numerator) % m.divisor,
               position := m.position + (m.remainder + k * m.numerator) / m.divisor } := by
  have hd := h.divisor_pos
  obtain ⟨-, -, -, hr, -⟩ := h
  induction k with
  | zero => simp [Nat.div_eq_of_lt hr, Nat.mod_eq_of_lt hr]
  | succ k ih =>
    obtain ⟨hdiv, hmod⟩ := add_div_mod_of_mod_add (m.remainder + k * m.numerator) m.numerator hd
    have hsum : m.remainder + (k + 1) * m.numerator = m.remainder + k * m.numerator + m.numerator := by ring
    rw [hsum] at hk ⊢
    have hbelow := (Nat.add_le_add_left (Nat.div_le_div_right (c := m.divisor)
      (Nat.le_add_right (m.remainder + k * m.numerator) m.numerator)) m.position).trans hk
    rw [Function.iterate_succ_apply', ih hbelow]
    set x : Measure := { m with remainder := (m.remainder + k * m.numerator) % m.divisor,
                                position := m.position + (m.remainder + k * m.numerator) / m.divisor } with hx
    have hposition : x.position + (x.remainder + x.numerator) / x.divisor =
        m.position + (m.remainder + k * m.numerator + m.numerator) / m.divisor := by
      rw [← hdiv, ← Nat.add_assoc]
      rfl
    have hremainder : (x.remainder + x.numerator) % x.divisor =
        (m.remainder + k * m.numerator + m.numerator) % m.divisor := hmod
    rw [Measure.forward_of_below (hposition ▸ hk), hposition, hremainder]

/-- A reverse count within the remainder loses no unit (R11). -/
theorem Measure.reverse_of_le {m : Measure} (h : m.numerator ≤ m.remainder) :
    m.reverse = ({ m with remainder := m.remainder - m.numerator }, 0) := if_pos h

/-- A reverse count that loses units and does not come to the bottom (R11). -/
theorem Measure.reverse_of_units {m : Measure} (h : m.remainder < m.numerator)
    (hu : ceilDiv (m.numerator - m.remainder) m.divisor ≤ m.position) :
    m.reverse =
      ({ m with remainder := m.remainder + ceilDiv (m.numerator - m.remainder) m.divisor * m.divisor - m.numerator,
                position := m.position - ceilDiv (m.numerator - m.remainder) m.divisor },
        ceilDiv (m.numerator - m.remainder) m.divisor) := by
  rw [Measure.reverse, if_neg (by omega)]
  exact if_pos hu

/-- A reverse count that would take the position below 0 (R12). -/
theorem Measure.reverse_of_hold {m : Measure} (h : m.remainder < m.numerator)
    (hu : m.position < ceilDiv (m.numerator - m.remainder) m.divisor) :
    m.reverse = ({ m with remainder := 0, position := 0 }, m.position) := by
  rw [Measure.reverse, if_neg (by omega)]
  exact if_neg (by omega)

/-- A forward count that meets no hold is undone by a reverse one (R11). -/
theorem Measure.reverse_forward {m : Measure} (h : m.Sound)
    (hk : m.position + (m.remainder + m.numerator) / m.divisor ≤ topOfPosition) :
    m.forward.1.reverse = (m, m.forward.2) := by
  have hd := h.divisor_pos
  obtain ⟨-, -, -, hr, -⟩ := h
  rw [Measure.forward_of_below hk]
  set q := (m.remainder + m.numerator) / m.divisor with hq
  set r := (m.remainder + m.numerator) % m.divisor with hrem
  have hsum : m.divisor * q + r = m.remainder + m.numerator := Nat.div_add_mod _ _
  have hlt : r < m.divisor := Nat.mod_lt _ hd
  change Measure.reverse { m with remainder := r, position := m.position + q } = (m, q)
  rcases Nat.eq_zero_or_pos q with h0 | h1
  · rw [h0] at hsum
    rw [Measure.reverse_of_le (show m.numerator ≤ r by omega)]
    change (({ m with remainder := r - m.numerator, position := m.position + q } : Measure), 0) = (m, q)
    rw [show r - m.numerator = m.remainder by omega, h0, Nat.add_zero]
  · have hone : m.divisor * 1 ≤ m.divisor * q := Nat.mul_le_mul_left _ h1
    have hunits : ceilDiv (m.numerator - r) m.divisor = q := by
      have hle : m.numerator - r + m.divisor - 1 = m.divisor * q + (m.divisor - 1 - m.remainder) := by omega
      rw [ceilDiv, hle, Nat.mul_add_div hd, Nat.div_eq_of_lt (by omega), Nat.add_zero]
    have hback : r + q * m.divisor - m.numerator = m.remainder := by
      rw [Nat.mul_comm]
      omega
    rw [Measure.reverse_of_units (show r < m.numerator by omega)
      (show ceilDiv (m.numerator - r) m.divisor ≤ m.position + q by omega)]
    change (({ m with remainder := r + ceilDiv (m.numerator - r) m.divisor * m.divisor - m.numerator,
                      position := m.position + q - ceilDiv (m.numerator - r) m.divisor } : Measure),
      ceilDiv (m.numerator - r) m.divisor) = (m, q)
    rw [hunits, hback, Nat.add_sub_cancel]

/-- Settles O12, by induction on the number of counts; the units of the count back are those of the count forward. -/
theorem countsAccumulateWithoutLoss : Obligations.CountsAccumulateWithoutLoss := fun _ h =>
  ⟨fun k hk => by rw [Measure.iterate_forward h k hk]; exact ⟨rfl, rfl⟩, Measure.reverse_forward h⟩

end Sys2Proof.Machine
end

