-- ==== Sys2Proof/Proofs/Settings.lean ====
section
/-! PROOFS. What the stations have set changes only by the commands that set it (R1, R3, R6, R8, R9, R22, R32, R33, R41, R118, R160,
R188), and the job state moves only as its table gives (R158). -/

namespace Sys2Proof.Machine

/-! ## The settings of the part -/

/-- What the stations have set, the active source, the line report and P. -/
structure Settings where
  geometry : Geometry
  circumference : Encoder → Nat
  counts : Encoder → Nat
  trim : Encoder → Int
  strobe : Nat
  motion : MotionSettings
  nextGate : Option Nat
  encoderFilter : Encoder → Nat
  markFilter : Nat
  markEdge : Edge
  spliceFilter : Nat
  spliceEdge : Edge
  active : Encoder
  report : LineReport
  staged : Option Plan
  plan : Option Plan
  tracking : TrackingSettings
  params : JobParams
  master : Port → Bool
  enabled : Port → List EventKind
  p : Nat

def State.settings (s : State) : Settings where
  geometry := s.geometry
  circumference := fun e => (s.length.measure e).circumference
  counts := fun e => (s.length.measure e).counts
  trim := fun e => (s.length.measure e).trim
  strobe := s.strobe.interval
  motion := s.motion.settings
  nextGate := s.motion.nextGate
  encoderFilter := fun e => (s.inputs.encoder e).filter
  markFilter := s.inputs.mark.filter
  markEdge := s.inputs.mark.edge
  spliceFilter := s.inputs.splice.filter
  spliceEdge := s.inputs.splice.edge
  active := s.length.active
  report := s.motion.report
  staged := s.plans.staged
  plan := s.plans.active
  tracking := s.tracker.settings
  params := s.job.params
  master := fun p => (s.alerts.get p).master
  enabled := fun p => (s.alerts.get p).enabled
  p := s.length.p

/-- The settings after a gate close: a waiting gate period comes into force (R33). -/
def Settings.gateClosed (a : Settings) : Settings :=
  { a with motion := { a.motion with gate := a.nextGate.getD a.motion.gate }, nextGate := none }

/-- Which commands can change which settings; no command at all is an idle step. -/
def Allowed (i : Option Instr) (a b : Settings) : Prop :=
  (b.geometry ≠ a.geometry → ∃ p g, i = some (.setGeometry p g)) ∧
  (∀ e, b.circumference e ≠ a.circumference e ∨ b.counts e ≠ a.counts e → ∃ p x y, i = some (.setCalibration p x y)) ∧
  (∀ e, b.trim e ≠ a.trim e → ∃ p x y, i = some (.setTrim p x y)) ∧
  (b.strobe ≠ a.strobe → ∃ p q, i = some (.setStrobe p q)) ∧
  ({ b.motion with gate := a.motion.gate } ≠ a.motion → ∃ p m, i = some (.setMotion p m)) ∧
  (b.motion.gate ≠ a.motion.gate →
    (i = some .gateClose ∨ i = some .interval ∨ i = none) ∧ a.nextGate = some b.motion.gate) ∧
  (b.nextGate ≠ a.nextGate → (∃ p m, i = some (.setMotion p m)) ∨
    ((i = some .gateClose ∨ i = some .interval ∨ i = none) ∧ b.nextGate = none)) ∧
  (∀ e, b.encoderFilter e ≠ a.encoderFilter e → ∃ p x y, i = some (.setCalibration p x y)) ∧
  (b.markFilter ≠ a.markFilter ∨ b.markEdge ≠ a.markEdge ∨ b.spliceFilter ≠ a.spliceFilter ∨ b.spliceEdge ≠ a.spliceEdge →
    ∃ p mf me sf se, i = some (.setSensors p mf me sf se)) ∧
  (b.active ≠ a.active → (∃ p x, i = some (.selectSource p x)) ∨ ∃ ph, i = some (.count .b ph)) ∧
  (b.report ≠ a.report → ∃ p x, i = some (.lineState p x)) ∧
  (b.staged ≠ a.staged → (∃ p x y, i = some (.loadPlan p x y)) ∨ ∃ p, i = some (.setStart p)) ∧
  (b.plan ≠ a.plan → ∃ p, i = some (.setStart p)) ∧
  (b.tracking ≠ a.tracking → ∃ p j, i = some (.jobStart p j)) ∧
  (b.params ≠ a.params → (∃ p j, i = some (.jobStart p j)) ∨ ∃ p x, i = some (.setTarget p x)) ∧
  (∀ p, b.master p ≠ a.master p ∨ b.enabled p ≠ a.enabled p → ∃ x y, i = some (.setAlerts p x y)) ∧
  (b.p ≠ a.p → (∃ e ph, i = some (.count e ph)) ∨ ∃ p j, i = some (.jobStart p j))

theorem Allowed.of_eq {i : Option Instr} {a b : Settings} (h : b = a) : Allowed i a b := by
  subst h
  simp [Allowed]

/-- The commands that close a gate, and an idle step, can put a waiting gate period in force. -/
theorem Allowed.of_gate {i : Option Instr} (hi : i = some .gateClose ∨ i = some .interval ∨ i = none) {a b : Settings}
    (h : b = a ∨ b = a.gateClosed) : Allowed i a b := by
  rcases h with h | rfl
  · exact .of_eq h
  · have hgate : a.nextGate.getD a.motion.gate ≠ a.motion.gate → a.nextGate = some (a.nextGate.getD a.motion.gate) := by
      cases a.nextGate <;> simp
    simpa [Allowed, Settings.gateClosed, hi] using hgate

/-! ## Parts of the state that hold no setting -/

/-- The enables of every station stand. -/
def EnablesKept (s t : State) : Prop :=
  ∀ p, (t.alerts.get p).master = (s.alerts.get p).master ∧ (t.alerts.get p).enabled = (s.alerts.get p).enabled

theorem OnlyPosts.enablesKept {s t : State} (h : OnlyPosts s t) : EnablesKept s t := h.enables

/-! ## The figures of the encoders (R8, R9) -/

/-- What a station has set of an encoder. -/
def Measure.figures (m : Measure) : Nat × Nat × Int := (m.circumference, m.counts, m.trim)

def LengthCounter.figures (c : LengthCounter) : Encoder → Nat × Nat × Int := fun e => (c.measure e).figures

theorem LengthCounter.figures_setMeasure {c : LengthCounter} {e : Encoder} {m : Measure}
    (h : m.figures = (c.measure e).figures) : (c.setMeasure e m).figures = c.figures := by
  funext f
  cases e with
  | a =>
    cases f with
    | a => exact h
    | b => rfl
  | b =>
    cases f with
    | a => rfl
    | b => exact h

theorem Measure.step_figures (m : Measure) (d : Direction) : (m.step d).1.figures = m.figures := by
  cases d with
  | forward => rfl
  | reverse =>
    change m.reverse.1.figures = _
    unfold Measure.reverse
    dsimp only
    split
    · rfl
    · split <;> rfl

theorem LengthCounter.heard_figures (c : LengthCounter) (e : Encoder) : (c.heard e).figures = c.figures := by
  have hset : (c.setMeasure e { c.measure e with silent := false, silence := 0 }).figures = c.figures :=
    LengthCounter.figures_setMeasure rfl
  unfold LengthCounter.heard
  dsimp only
  split <;> exact hset

theorem LengthCounter.counted_figures (c : LengthCounter) (e : Encoder) (d : Direction) :
    (c.counted e d).figures = c.figures := by
  unfold LengthCounter.counted LengthCounter.raiseSilence
  dsimp only
  rw [LengthCounter.figures_setMeasure (by rfl)]
  exact (LengthCounter.figures_setMeasure (Measure.step_figures _ d)).trans (c.heard_figures e)

theorem silenceOf_figures (e : Encoder) (s : State) : (silenceOf e s).length.figures = s.length.figures := by
  funext f
  cases e with
  | a =>
    rw [silenceOf, silenceA_length]
    cases f <;> rfl
  | b => cases f <;> rfl

/-- A slip check changes the span and its own figures alone (R20, R21). -/
theorem slipAtCount_length (e : Encoder) (d : Direction) (s : State) : (slipAtCount e d s).length =
    { s.length with span := (slipAtCount e d s).length.span, lastDeviation := (slipAtCount e d s).length.lastDeviation,
                    slipCount := (slipAtCount e d s).length.slipCount } := by
  cases e with
  | b => rfl
  | a =>
    cases d with
    | reverse => rfl
    | forward =>
      change (slipCheck s).length = { s.length with span := (slipCheck s).length.span, lastDeviation := (slipCheck s).length.lastDeviation, slipCount := (slipCheck s).length.slipCount }
      unfold slipCheck
      dsimp only
      split
      · rfl
      · split
        · rw [(State.postIf_frame _ _ _).2.2.2.1]
          rfl
        · rfl

theorem slipAtCount_figures (e : Encoder) (d : Direction) (s : State) :
    (slipAtCount e d s).length.figures = s.length.figures := by
  rw [slipAtCount_length]
  rfl

theorem counted_figures (e : Encoder) (d : Direction) (s : State) : (counted e d s).length.figures = s.length.figures := by
  unfold counted
  dsimp only
  rw [slipAtCount_figures]
  split
  · rw [silenceOf_figures]
    simpa using s.length.counted_figures e d
  · simpa using s.length.counted_figures e d

/-! ## The active source (R15, R17) -/

theorem LengthCounter.heard_active (c : LengthCounter) (e : Encoder) : (c.heard e).active = c.active := by
  unfold LengthCounter.heard
  dsimp only
  split <;> simp [LengthCounter.openSpan]

theorem LengthCounter.counted_active (c : LengthCounter) (e : Encoder) (d : Direction) : (c.counted e d).active = c.active := by
  simp [LengthCounter.counted, LengthCounter.raiseSilence, LengthCounter.heard_active]

/-- Only a count of B, at which A falls silent, can change the active source (R17, R18). -/
theorem counted_active_of_a (d : Direction) (s : State) : (counted .a d s).length.active = s.length.active := by
  unfold counted
  dsimp only
  rw [slipAtCount_length]
  split
  · simpa [otherEncoder, silenceOf, silenceB_length] using s.length.counted_active .a d
  · simpa using s.length.counted_active .a d

/-! ## The tracking settings (R118) -/

theorem loseTrack_settings (l : MarkLock) (s : State) : (loseTrack l s).tracker.settings = s.tracker.settings := by
  unfold loseTrack
  dsimp only
  split <;> simp

theorem missMark_settings (l : MarkLock) (s : State) : (missMark l s).tracker.settings = s.tracker.settings := by
  unfold missMark
  dsimp only
  split <;> simp [loseTrack_settings]

theorem missedMarks_settings (fuel : Nat) (s : State) : (missedMarks fuel s).tracker.settings = s.tracker.settings := by
  induction fuel generalizing s with
  | zero => rfl
  | succ fuel ih =>
    unfold missedMarks
    split
    · split
      · rw [ih, missMark_settings]
      · rfl
    · rfl

theorem trackChange_settings (old : Nat) (s : State) : (trackChange old s).tracker.settings = s.tracker.settings := by
  unfold trackChange
  split
  · rw [missedMarks_settings]
    rfl
  · rfl

theorem changeOfP_settings (old : Nat) (s : State) : (changeOfP old s).tracker.settings = s.tracker.settings := by
  unfold changeOfP
  dsimp only
  split <;> simp [trackChange_settings]

theorem markSeen_settings (s : State) : (markSeen s).tracker.settings = s.tracker.settings := by
  unfold markSeen classMark goodMark relockMark lockMark
  dsimp only
  repeat' split
  all_goals simp

/-! ## Parts of the state that leave the settings standing -/

/-- The filter times and edge choices of the inputs (R3, R6). -/
def Inputs.chosen (i : Inputs) : (Encoder → Nat) × Nat × Edge × Nat × Edge :=
  (fun e => (i.encoder e).filter, i.mark.filter, i.mark.edge, i.splice.filter, i.splice.edge)

/-- The settings stand, but for the active source and P, where what the other parts hold of them does. -/
theorem settings_of_figures {s t : State} (hg : t.geometry = s.geometry) (hl : t.length.figures = s.length.figures)
    (hd : t.strobe.interval = s.strobe.interval)
    (hm : t.motion.settings = s.motion.settings ∧ t.motion.nextGate = s.motion.nextGate ∧ t.motion.report = s.motion.report)
    (hi : t.inputs.chosen = s.inputs.chosen) (hp : t.plans = s.plans) (ht : t.tracker.settings = s.tracker.settings)
    (hj : t.job.params = s.job.params) (ha : EnablesKept s t) :
    t.settings = { s.settings with active := t.length.active, p := t.length.p } := by
  obtain ⟨hm1, hm2, hm3⟩ := hm
  simp only [Inputs.chosen, Prod.mk.injEq] at hi
  obtain ⟨hi1, hi2, hi3, hi4, hi5⟩ := hi
  unfold State.settings
  rw [hg, hd, hm1, hm2, hm3, hi1, hi2, hi3, hi4, hi5, hp, ht, hj]
  congr
  · exact funext fun e => congrArg (·.1) (congrFun hl e)
  · exact funext fun e => congrArg (·.2.1) (congrFun hl e)
  · exact funext fun e => congrArg (·.2.2) (congrFun hl e)
  · exact funext fun p => (ha p).1
  · exact funext fun p => (ha p).2

/-- The settings stand where the parts that hold them do. -/
theorem settings_congr {s t : State} (hg : t.geometry = s.geometry) (hl : t.length = s.length)
    (hd : t.strobe = s.strobe) (hm : t.motion = s.motion) (hi : t.inputs = s.inputs) (hp : t.plans = s.plans)
    (ht : t.tracker.settings = s.tracker.settings) (hj : t.job.params = s.job.params) (ha : EnablesKept s t) :
    t.settings = s.settings := by
  rw [settings_of_figures hg (by rw [hl]) (by rw [hd]) (by simp [hm]) (by rw [hi]) hp ht hj ha, hl]
  rfl

/-! ## The clock and the inputs -/

theorem Inputs.accept_chosen (i : Inputs) (e : Encoder) {x : EncoderInput} (h : x.filter = (i.encoder e).filter) :
    (i.accept e x).chosen = i.chosen := by
  have hfilter : (fun f => ((i.accept e x).encoder f).filter) = fun f => (i.encoder f).filter := by
    funext f
    cases e with
    | a =>
      cases f with
      | a => exact h
      | b => rfl
    | b =>
      cases f with
      | a => rfl
      | b => exact h
  refine Prod.ext hfilter ?_
  cases e <;> rfl

theorem Inputs.newGate_chosen (i : Inputs) : i.newGate.chosen = i.chosen := by
  have hfilter : (fun f => (i.newGate.encoder f).filter) = fun f => (i.encoder f).filter := by
    funext f
    cases f <;> rfl
  exact Prod.ext hfilter rfl

theorem Inputs.takeLevels_chosen (i : Inputs) (v : InputLevels) : (i.takeLevels v).chosen = i.chosen := by
  have hfilter : (fun f => ((i.takeLevels v).encoder f).filter) = fun f => (i.encoder f).filter := by
    funext f
    cases f <;> rfl
  exact Prod.ext hfilter rfl

/-- A count changes of the settings the active source, and that only at a count of B, and P (R13, R17). -/
theorem acceptEdge_settings (e : Encoder) (ph : Phase) (s : State) :
    (acceptEdge e ph s).settings =
      { s.settings with active := (acceptEdge e ph s).length.active, p := (acceptEdge e ph s).length.p } ∧
    (e = .a → (acceptEdge e ph s).length.active = s.length.active) := by
  have hfilter : ((s.inputs.encoder e).edge ph).filter = (s.inputs.encoder e).filter := by cases ph <;> rfl
  have hinputs : (acceptEdge e ph s).inputs.chosen = s.inputs.chosen := by
    unfold acceptEdge
    dsimp only
    split <;> simp [Inputs.accept_chosen s.inputs e hfilter]
  have hcount (d : Direction) (u : State) : (applyCount e d u).length = (counted e d u).length ∧
      (applyCount e d u).strobe.interval = u.strobe.interval ∧
      (applyCount e d u).tracker.settings = u.tracker.settings := by
    have hu : (counted e d u).strobe = u.strobe ∧ (counted e d u).tracker = u.tracker := by
      unfold counted
      dsimp only
      split <;> simp
    rw [applyCount_eq]
    split
    · exact ⟨rfl, by rw [hu.1], by rw [hu.2]⟩
    · refine ⟨by simp, ?_, by rw [changeOfP_settings, hu.2]⟩
      rw [changeOfP_strobe, hu.1]
      rfl
  refine ⟨settings_of_figures (by simp) ?_ ?_ (by simp) hinputs (by simp) ?_ (by simp)
    (acceptEdge_moves e ph s).posts.enablesKept, fun he => ?_⟩
  all_goals
    unfold acceptEdge
    dsimp only
    split
  · rfl
  · rw [(hcount _ _).1, counted_figures]
    rfl
  · rfl
  · exact (hcount _ _).2.1
  · rfl
  · exact (hcount _ _).2.2
  · rfl
  · subst he
    rw [(hcount _ _).1, counted_active_of_a]
    rfl

/-- The settings stand, or a gate close has put the waiting gate period in force (R33). -/
def GateKept (s t : State) : Prop := t.settings = s.settings ∨ t.settings = s.settings.gateClosed

theorem GateKept.trans {s t u : State} (h : GateKept s t) (g : GateKept t u) : GateKept s u := by
  unfold GateKept at *
  rcases h with h | h <;> rcases g with g | g <;> rw [g, h]
  · exact .inl rfl
  · exact .inr rfl
  · exact .inr rfl
  · exact .inr rfl

theorem GateKept.ite {s t u : State} {c : Prop} [Decidable c] (h : GateKept s t) (g : GateKept s u) :
    GateKept s (if c then t else u) := by
  split
  · exact h
  · exact g

theorem gateClosed_settings (s : State) : (gateClosed s).settings = s.settings.gateClosed := by
  have hposts := (OnlyPosts.postAll ((s.withMotion (s.motion.close s.p)).withInputs s.inputs.newGate)
    (closeEvents s.motion (s.motion.close s.p))).enablesKept
  have hkept : (gateClosed s).settings = ((s.withMotion (s.motion.close s.p)).withInputs s.inputs.newGate).settings :=
    settings_congr (by simp [gateClosed]) (by simp [gateClosed]) (by simp [gateClosed]) (by simp [gateClosed])
      (by simp [gateClosed]) (by simp [gateClosed]) (by simp [gateClosed]) (by simp [gateClosed]) hposts
  rw [hkept]
  exact congrArg (fun f => { s.settings.gateClosed with encoderFilter := f }) (congrArg (·.1) s.inputs.newGate_chosen)

theorem evaluate_settings (s : State) : (evaluate s).settings = s.settings :=
  settings_congr (by simp) (by simp) (by simp) (by simp) (by simp) (by simp) (by simp) (by simp)
    (evaluate_moves s).posts.enablesKept

theorem closeGate_settings (s : State) : (closeGate s).settings = s.settings.gateClosed := by
  rw [closeGate_eq]
  split
  · rw [evaluate_settings, gateClosed_settings]
  · rw [gateClosed_settings]

theorem closeGateIfDue_gateKept (s : State) : GateKept s (closeGateIfDue s) :=
  .ite (.inr (closeGate_settings s)) (.inl rfl)

theorem takeNoMotion_settings (s : State) : (takeNoMotion s).settings = s.settings := by
  have hposts := (OnlyPosts.post (s.withMotion { s.motion with timerOn := false, checkOpen := false }) .noMotion).enablesKept
  exact settings_congr (t := takeNoMotion s)
    (s := s.withMotion { s.motion with timerOn := false, checkOpen := false }) rfl rfl rfl rfl rfl rfl rfl rfl hposts

theorem takeNoMotionIfDue_gateKept (s : State) : GateKept s (takeNoMotionIfDue s) :=
  .ite (.inl (takeNoMotion_settings s)) (.inl rfl)

theorem endWarmUp_settings (v : InputLevels) (s : State) : (endWarmUp v s).settings = s.settings := by
  refine (settings_of_figures (t := endWarmUp v s) (s := s) rfl (funext fun e => by cases e <;> rfl) rfl ⟨rfl, rfl, rfl⟩
    (s.inputs.takeLevels_chosen v) rfl rfl rfl fun p => ?_).trans rfl
  cases p <;> exact ⟨rfl, rfl⟩

theorem takeDue_gateKept (s : State) : GateKept s (takeDue s) := by
  have hfree (u : State) : GateKept u { u with free := u.free + 1 } := .inl rfl
  refine GateKept.trans (t := if s.warmUpDue then endWarmUp s.inputs.pins s else s)
    (.ite (.inl (endWarmUp_settings _ s)) (.inl rfl)) ?_
  unfold takeDue
  refine .ite ((hfree _).trans (.ite ?_ ?_)) ?_
  · exact (takeNoMotionIfDue_gateKept _).trans (closeGateIfDue_gateKept _)
  · exact (closeGateIfDue_gateKept _).trans (takeNoMotionIfDue_gateKept _)
  · exact (takeNoMotionIfDue_gateKept _).trans (closeGateIfDue_gateKept _)

theorem endInterval_settings (s : State) : (endInterval s).settings = s.settings := by
  have hmotion : (endInterval s).motion.settings = s.motion.settings ∧ (endInterval s).motion.nextGate = s.motion.nextGate ∧
      (endInterval s).motion.report = s.motion.report := by
    unfold endInterval
    dsimp only
    split <;> exact ⟨rfl, rfl, rfl⟩
  exact (settings_of_figures (by simp) (by simp) (by simp) hmotion (by simp) (by simp) (by simp) (by simp)
    (OnlyPosts.of_eq (by simp)).enablesKept).trans (by simp [State.settings])

theorem Strobe.cycle_interval (d : Strobe) : d.cycle.interval = d.interval := by
  unfold Strobe.cycle
  dsimp only
  repeat' split
  all_goals rfl

theorem withStrobe_settings {s : State} {d : Strobe} (h : d.interval = s.strobe.interval) :
    (s.withStrobe d).settings = s.settings := congrArg (fun q => { s.settings with strobe := q }) h

theorem clockCycle_gateKept (s : State) : GateKept s (clockCycle s) := by
  unfold clockCycle
  refine .ite (.inl rfl) ((takeDue_gateKept s).trans (GateKept.trans (.trans (.ite ?_ ?_) (.ite ?_ (.inl rfl)))
    (takeDue_gateKept _)))
  · exact .inl rfl
  · exact .inl (endInterval_settings _)
  · exact .inl (withStrobe_settings (Strobe.cycle_interval _))

/-! ## Events -/

theorem withInputs_settings {s : State} {i : Inputs} (h : i.chosen = s.inputs.chosen) :
    (s.withInputs i).settings = s.settings :=
  (settings_of_figures (s := s) (t := s.withInputs i) rfl rfl rfl ⟨rfl, rfl, rfl⟩ h rfl rfl rfl (OnlyPosts.of_eq rfl).enablesKept).trans rfl

theorem glitchAt_settings (e : Encoder) (s : State) : (glitchAt e s).settings = s.settings :=
  (settings_congr (t := glitchAt e s) (s := s.withInputs (s.inputs.accept e (s.inputs.encoder e).glitch))
    (by simp) (by simp) (by simp) (by simp) (by simp [glitchAt]) (by simp) (by simp) (by simp)
    (OnlyPosts.postIf _ _ _).enablesKept).trans (withInputs_settings (s.inputs.accept_chosen e rfl))

theorem markSeen_moved_settings (s : State) : (markSeen s).settings = s.settings :=
  settings_congr (by simp) (by simp) (by simp) (by simp) (by simp) (by simp) (markSeen_settings s) (by simp)
    (markSeen_moves s).posts.enablesKept

theorem spliceSeen_settings (s : State) : (spliceSeen s).settings = s.settings :=
  settings_congr (by simp) (by simp) (by simp) (by simp) (by simp) (by simp) (by simp) (by simp)
    (spliceSeen_moves s).posts.enablesKept

theorem Allowed.of_count {e : Encoder} {ph : Phase} {a b : Settings} (h : b = { a with active := b.active, p := b.p })
    (he : e = .a → b.active = a.active) : Allowed (some (.count e ph)) a b := by
  rw [h]
  cases e with
  | a => simp [Allowed, he rfl]
  | b => simp [Allowed]

theorem Allowed.ite {i : Option Instr} {a : Settings} {s t : State} {c : Prop} [Decidable c] (h : Allowed i a s.settings)
    (g : Allowed i a t.settings) : Allowed i a (if c then s else t).settings := by
  split
  · exact h
  · exact g

/-- Every event but reset changes the settings only as it may. -/
theorem eventOf_allowed {i : Instr} {g : State → State} (h : eventOf i = some g) (hr : i ≠ .reset) (s : State) :
    Allowed (some i) s.settings (g s).settings := by
  have same {t : State} (h : t.settings = s.settings) : Allowed (some i) s.settings t.settings := .of_eq h
  cases i <;> cases h
  case reset => exact absurd rfl hr
  case resetRelease => exact .ite (same rfl) (same rfl)
  case endOfWarmUp levels => exact .ite (same (endWarmUp_settings levels s)) (same rfl)
  case interval =>
    refine .ite (same rfl) (.of_gate (by simp) ?_)
    rw [endInterval_settings]
    exact takeDue_gateKept s
  case gateClose => exact .of_gate (by simp) (closeGateIfDue_gateKept s)
  case noMotion => exact .ite (same (takeNoMotion_settings s)) (same rfl)
  case count e ph => exact .ite (.of_count (acceptEdge_settings e ph s).1 (acceptEdge_settings e ph s).2) (same rfl)
  case illegalTransition e => exact .ite (same (glitchAt_settings e s)) (same rfl)
  case markArrival =>
    exact .ite (same ((markSeen_moved_settings _).trans (withInputs_settings rfl))) (same rfl)
  case spliceArrival => exact .ite (same ((spliceSeen_settings _).trans (withInputs_settings rfl))) (same rfl)
  case strobePulse => exact .ite (same rfl) (same rfl)
  case strobePulseEnd => exact .ite (same rfl) (same rfl)

/-! ## Requests -/

theorem takeSetGeometry_settings (g : Geometry) (s : State) :
    ∃ x, (takeSetGeometry g s).1.settings = { s.settings with geometry := x } := by
  unfold takeSetGeometry
  repeat' split
  · exact ⟨_, rfl⟩
  · exact ⟨_, rfl⟩
  · exact ⟨g, rfl⟩

theorem takeSetCalibration_settings (fa fb : CalibrationFields) (s : State) : ∃ x y z,
    (takeSetCalibration fa fb s).1.settings = { s.settings with circumference := x, counts := y, encoderFilter := z } := by
  have hsame : ∃ x y z, s.settings = { s.settings with circumference := x, counts := y, encoderFilter := z } :=
    ⟨_, _, _, rfl⟩
  unfold takeSetCalibration
  split
  · exact hsame
  · split
    · exact hsame
    · split
      next ta tb _ _ =>
        let t : State := { s with
          length := { s.length with a := s.length.a.calibrate fa, b := s.length.b.calibrate fb }
          inputs := { s.inputs with encA := { s.inputs.encA with filter := ta }, encB := { s.inputs.encB with filter := tb } } }
        have htrim : t.settings.trim = s.settings.trim := funext fun e => by cases e <;> rfl
        exact ⟨_, _, _, congrArg (fun x => { t.settings with trim := x }) htrim⟩
      · exact hsame

theorem takeSetSensors_settings (mf me sf se : Nat) (s : State) : ∃ w x y z, (takeSetSensors mf me sf se s).1.settings =
    { s.settings with markFilter := w, markEdge := x, spliceFilter := y, spliceEdge := z } := by
  unfold takeSetSensors
  split
  · exact ⟨_, _, _, _, rfl⟩
  · split
    · exact ⟨_, _, _, _, rfl⟩
    · exact ⟨_, _, _, _, rfl⟩

theorem takeSetTrim_settings (enc : Nat) (trim : Int) (s : State) :
    ∃ x, (takeSetTrim enc trim s).1.settings = { s.settings with trim := x } := by
  unfold takeSetTrim
  split
  · exact ⟨_, rfl⟩
  next e _ =>
    split
    · exact ⟨_, rfl⟩
    · let t : State := s.withLength (s.length.setMeasure e { s.length.measure e with trim := trim })
      have hc : t.settings.circumference = s.settings.circumference := funext fun f => by cases e <;> cases f <;> rfl
      have hk : t.settings.counts = s.settings.counts := funext fun f => by cases e <;> cases f <;> rfl
      have hp : t.length.p = s.length.p := LengthCounter.setMeasure_p _ _ _
      have ha : t.length.active = s.length.active := LengthCounter.setMeasure_active _ _ _
      refine ⟨t.settings.trim, ?_⟩
      change t.settings = _
      calc t.settings = { t.settings with circumference := s.settings.circumference, counts := s.settings.counts,
                                          p := s.length.p, active := s.length.active } := by rw [← hc, ← hk, ← hp, ← ha]; rfl
        _ = { s.settings with trim := t.settings.trim } := rfl

theorem takeSelectSource_settings (source : Nat) (s : State) :
    ∃ x, (takeSelectSource source s).1.settings = { s.settings with active := x } := by
  unfold takeSelectSource LengthCounter.select
  repeat' split
  all_goals exact ⟨_, rfl⟩

theorem takeSetStrobe_settings (q : Nat) (s : State) :
    ∃ x, (takeSetStrobe q s).1.settings = { s.settings with strobe := x } := by
  unfold takeSetStrobe
  split
  all_goals exact ⟨_, rfl⟩

theorem takeSetMotion_settings (f : MotionFields) (s : State) : ∃ (x : MotionSettings) (y : Option Nat), (takeSetMotion f s).1.settings =
    { s.settings with motion := { x with gate := s.settings.motion.gate }, nextGate := y } := by
  unfold takeSetMotion
  split
  · exact ⟨s.motion.settings, _, rfl⟩
  · split
    · exact ⟨s.motion.settings, _, rfl⟩
    next gate _ =>
      split
      · exact ⟨s.motion.settings, _, rfl⟩
      · exact ⟨(s.motion.store f gate).settings, _, rfl⟩

theorem takeLineState_settings (n : Nat) (s : State) :
    ∃ x, (takeLineState n s).1.settings = { s.settings with report := x } := by
  unfold takeLineState
  split
  · exact ⟨_, rfl⟩
  next r _ =>
    cases r with
    | running =>
      unfold Motion.reported
      dsimp only
      split
      all_goals exact ⟨_, rfl⟩
    | stopped => exact ⟨_, rfl⟩
    | jogging => exact ⟨_, rfl⟩

theorem takeLoadPlan_settings (plan : Nat) (knives : List Nat) (s : State) :
    ∃ x, (takeLoadPlan plan knives s).1.settings = { s.settings with staged := x } := by
  unfold takeLoadPlan
  repeat' split
  all_goals exact ⟨_, rfl⟩

theorem takeJobStart_settings (j : JobFields) (s : State) : ∃ x y z,
    (takeJobStart j s).1.settings = { s.settings with tracking := x, params := y, p := z } := by
  have hsame : ∃ x y z, s.settings = { s.settings with tracking := x, params := y, p := z } := ⟨_, _, _, rfl⟩
  have hstart (params : JobParams) (tracking : TrackingSettings) : ∃ x y z,
      (startJob params tracking s).settings = { s.settings with tracking := x, params := y, p := z } := by
    have hc : (startJob params tracking s).settings.circumference = s.settings.circumference :=
      funext fun e => by cases e <;> rfl
    have hk : (startJob params tracking s).settings.counts = s.settings.counts := funext fun e => by cases e <;> rfl
    have ht : (startJob params tracking s).settings.trim = s.settings.trim := funext fun e => by cases e <;> rfl
    refine ⟨tracking, params, 0, ?_⟩
    calc (startJob params tracking s).settings =
        { (startJob params tracking s).settings with
          circumference := s.settings.circumference, counts := s.settings.counts, trim := s.settings.trim } := by
            rw [← hc, ← hk, ← ht]
      _ = { s.settings with tracking := tracking, params := params, p := 0 } := rfl
  unfold takeJobStart
  split
  · exact hsame
  · split
    · split
      · exact hsame
      · split
        · exact hsame
        · exact hstart _ _
    · exact hsame

theorem takeSetTarget_settings (length : Nat) (s : State) :
    ∃ x, (takeSetTarget length s).1.settings = { s.settings with params := x } := by
  rcases takeSetTarget_cases length s with h | h
  · exact ⟨_, congrArg State.settings h⟩
  · have ht := settings_congr (s := s.withTarget length) (by simp) (by simp) (by simp) (by simp) (by simp) (by simp)
      (by simp) (by rw [h.moves.job]) h.moves.posts.enablesKept
    exact ⟨_, ht.trans rfl⟩

theorem takeSetAlerts_settings (p : Port) (master : Nat) (codes : List Nat) (s : State) : ∃ x y,
    (takeSetAlerts p master codes s).1.settings =
      { s.settings with master := Function.update s.settings.master p x, enabled := Function.update s.settings.enabled p y } := by
  have hsame : ∃ x y, s.settings =
      { s.settings with master := Function.update s.settings.master p x, enabled := Function.update s.settings.enabled p y } :=
    ⟨s.settings.master p, s.settings.enabled p, by simp⟩
  unfold takeSetAlerts
  split
  next on kinds _ _ =>
    let t : State := { s with alerts := s.alerts.set p ((s.alerts.get p).enable on kinds) }
    have hm : t.settings.master = Function.update s.settings.master p (t.settings.master p) := by
      funext q
      cases p <;> cases q <;> rfl
    have he : t.settings.enabled = Function.update s.settings.enabled p (t.settings.enabled p) := by
      funext q
      cases p <;> cases q <;> rfl
    refine ⟨t.settings.master p, t.settings.enabled p, ?_⟩
    rw [← hm, ← he]
    rfl
  · exact hsame

theorem startSet_settings (s : State) : ∃ x y, (startSet s).1.settings = { s.settings with staged := x, plan := y } := by
  have he := setOpened_eq s
  have hopened : ∃ x y, (setOpened s).settings = { s.settings with staged := x, plan := y } := by
    have hposts := (OnlyPosts.postAll s (openEvents s)).enablesKept
    have hm : (setOpened s).settings.master = s.settings.master := by
      rw [he]
      exact funext fun p => (hposts p).1
    have hn : (setOpened s).settings.enabled = s.settings.enabled := by
      rw [he]
      exact funext fun p => (hposts p).2
    refine ⟨s.plans.swap.staged, s.plans.swap.active, ?_⟩
    calc (setOpened s).settings =
        { (setOpened s).settings with master := s.settings.master, enabled := s.settings.enabled } := by rw [← hm, ← hn]
      _ = { s.settings with staged := s.plans.swap.staged, plan := s.plans.swap.active } := by
        rw [he]
        rfl
  obtain ⟨x, y, hxy⟩ := hopened
  have hplaced := placeSetEnd_matches (nextInCycle 9999 s.job.setCounter) s.p (setOpened s)
  have hlast := OnlyPosts.post ((placeSetEnd (nextInCycle 9999 s.job.setCounter) s.p (setOpened s)).1.toJobState .winding)
    .setStarted
  refine ⟨x, y, ?_⟩
  rw [startSet_eq, ← hxy]
  exact settings_congr (by simp) (by simp) (by simp) (by simp) (by simp) (by simp) (by simp)
    (by simp [State.toJobState]) fun p => ⟨((hlast.enables p).1).trans (hplaced.moves.posts.enables p).1,
      ((hlast.enables p).2).trans (hplaced.moves.posts.enables p).2⟩

theorem takeSetStart_settings (s : State) :
    ∃ x y, (takeSetStart s).1.settings = { s.settings with staged := x, plan := y } := by
  unfold takeSetStart
  split
  · exact ⟨_, _, rfl⟩
  · split
    · exact ⟨_, _, rfl⟩
    · exact startSet_settings s

theorem takeSetClose_posts (s : State) : OnlyPosts s (takeSetClose s).1 := by
  unfold takeSetClose
  split
  · exact .of_eq rfl
  next hj =>
    split
    · exact .of_eq rfl
    · split
      next n set _ _ =>
        have hback := setReturned_matches (s := s) set (by simpa using fun h => by simp [h] at hj)
        have hcancel := cancelSetStops_matches set.number (slotClosed n set s)
        exact ((hback.moves.posts.then_eq rfl).trans hcancel.moves.posts).trans
          (.trans (.of_eq rfl) (.post ((cancelSetStops set.number (slotClosed n set s)).toJobState .ready) .setClosed))
      · exact .of_eq rfl

theorem endCut_posts (s : State) : OnlyPosts s (endCut s) :=
  (OnlyPosts.of_eq (t := s.toJobState .winding) rfl).trans (endCut_matches s).moves.posts

theorem takeSpliceMade_posts (first last : Nat) (records : List Nat) (s : State) :
    OnlyPosts s (takeSpliceMade first last records s).1 := by
  obtain h | ⟨popen, u, -, hu, h⟩ := takeSpliceMade_cases first last records s
  · exact .of_eq (by rw [h])
  · rw [h]
    exact hu.moves.posts.trans (endCut_posts u)

theorem takeCutCancel_posts (s : State) : OnlyPosts s (takeCutCancel s).1 := by
  obtain h | ⟨popen, -, h⟩ := takeCutCancel_cases s
  · exact .of_eq (by rw [h])
  · rw [h]
    exact endCut_posts s

theorem takeJobEnd_tracking (s : State) : (takeJobEnd s).1.tracker.settings = s.tracker.settings := by
  unfold takeJobEnd
  split <;> rfl

theorem takeAckEvents_enables (p : Port) (codes : List Nat) (s : State) : EnablesKept s (takeAckEvents p codes s).1 := by
  unfold takeAckEvents
  split
  · exact fun q => ⟨rfl, rfl⟩
  · exact fun q => by cases p <;> cases q <;> exact ⟨rfl, rfl⟩

/-! ## The job controller (R158) -/

theorem endCut_job (s : State) : (endCut s).job = { s.job with state := .winding } := (endCut_matches s).moves.job

theorem takeCutOpen_job (s : State) : (takeCutOpen s).1.job = s.job ∨
    s.job.state = .winding ∧ s.motion.standstill = true ∧
      (takeCutOpen s).1.job = { s.job with state := .cutOpen s.length.p } := by
  unfold takeCutOpen
  split
  · exact .inl rfl
  next hj =>
    split
    · exact .inl rfl
    next hm => exact .inr ⟨by simpa using hj, by simpa using hm, rfl⟩

theorem takeSpliceMade_job (first last : Nat) (records : List Nat) (s : State) :
    (takeSpliceMade first last records s).1.job = s.job ∨
      s.job.state.isCutOpen = true ∧ (takeSpliceMade first last records s).1.job = { s.job with state := .winding } := by
  obtain h | ⟨popen, u, hj, hu, h⟩ := takeSpliceMade_cases first last records s
  · exact .inl (by rw [h])
  · exact .inr ⟨by rw [hj]; rfl, by rw [h, endCut_job, hu.moves.job]⟩

theorem takeCutCancel_job (s : State) : (takeCutCancel s).1.job = s.job ∨
    s.job.state.isCutOpen = true ∧ (takeCutCancel s).1.job = { s.job with state := .winding } := by
  obtain h | ⟨popen, hj, h⟩ := takeCutCancel_cases s
  · exact .inl (by rw [h])
  · exact .inr ⟨by rw [hj]; rfl, by rw [h, endCut_job]⟩

theorem takeJobStart_job (j : JobFields) (s : State) : (takeJobStart j s).1.job = s.job ∨
    s.job.state = .noJob ∧ s.motion.standstill = true ∧ (takeJobStart j s).1.job.state = .ready := by
  unfold takeJobStart
  split
  · exact .inl rfl
  next hj =>
    split
    · split
      · exact .inl rfl
      · split
        · exact .inl rfl
        next hm => exact .inr ⟨by simpa using hj, by simpa using hm, rfl⟩
    · exact .inl rfl

theorem takeJobEnd_job (s : State) : (takeJobEnd s).1.job = s.job ∨
    s.job.state = .ready ∧ (takeJobEnd s).1.job = { s.job with state := .noJob } := by
  unfold takeJobEnd
  split
  · exact .inl rfl
  next hj => exact .inr ⟨by simpa using hj, rfl⟩

theorem startSet_job (s : State) : (startSet s).1.job =
    { s.job with state := .winding, setCounter := nextInCycle 9999 s.job.setCounter } := by
  have hplaced := (placeSetEnd_matches (nextInCycle 9999 s.job.setCounter) s.p (setOpened s)).moves.job
  rw [startSet_eq]
  simp only [State.post_job, State.toJobState, State.withJob_job, hplaced]
  rw [setOpened_eq]

theorem takeSetStart_job (s : State) : (takeSetStart s).1.job = s.job ∨
    s.job.state = .ready ∧ s.motion.standstill = true ∧ (takeSetStart s).1.job =
      { s.job with state := .winding, setCounter := nextInCycle 9999 s.job.setCounter } := by
  unfold takeSetStart
  split
  · exact .inl rfl
  next hj =>
    split
    · exact .inl rfl
    next hm => exact .inr ⟨by simpa using hj, by simpa using hm, startSet_job s⟩

theorem closeSet_job {s : State} (hj : s.job.state ≠ .noJob) (n : Nat) (set : SetRecord) :
    (closeSet n set s).1.job = { s.job with state := .ready } := by
  have hback := (setReturned_matches set hj).moves.job
  have hcancel := (cancelSetStops_matches set.number (slotClosed n set s)).moves.job
  have hslot : (slotClosed n set s).job = (setReturned set s).1.job := rfl
  rw [closeSet_eq]
  simp only [State.post_job, State.toJobState, State.withJob_job, hcancel, hslot, hback]

theorem takeSetClose_job (s : State) : (takeSetClose s).1.job = s.job ∨
    s.job.state = .winding ∧ s.motion.standstill = true ∧ (takeSetClose s).1.job = { s.job with state := .ready } := by
  unfold takeSetClose
  split
  · exact .inl rfl
  next hj =>
    split
    · exact .inl rfl
    next hm =>
      split
      · exact .inr ⟨by simpa using hj, by simpa using hm, closeSet_job (by simpa using fun h => by simp [h] at hj) _ _⟩
      · exact .inl rfl

/-- A request that moves the job state moves it as the table of R158 gives. -/
theorem takenOf_jobState {i : Instr} {f : State → Taken} (h : takenOf i = some f) {s : State}
    (hj : (f s).1.job.state ≠ s.job.state) :
    ((∃ p j, i = .jobStart p j) ∧ s.job.state = .noJob ∧ (f s).1.job.state = .ready ∧ s.motion.standstill = true) ∨
    ((∃ p, i = .setStart p) ∧ s.job.state = .ready ∧ (f s).1.job.state = .winding ∧ s.motion.standstill = true) ∨
    ((∃ p, i = .setClose p) ∧ s.job.state = .winding ∧ (f s).1.job.state = .ready ∧ s.motion.standstill = true) ∨
    ((∃ p, i = .jobEnd p) ∧ s.job.state = .ready ∧ (f s).1.job.state = .noJob) ∨
    ((∃ p, i = .cutOpen p) ∧ s.job.state = .winding ∧ (f s).1.job.state = .cutOpen s.length.p ∧
      s.motion.standstill = true) ∨
    (((∃ p a b l, i = .spliceMade p a b l) ∨ ∃ p, i = .cutCancel p) ∧ s.job.state.isCutOpen = true ∧
      (f s).1.job.state = .winding) := by
  have stands {t : State} (ht : t.job = s.job) (hne : t.job.state ≠ s.job.state) : False := hne (by rw [ht])
  cases i <;> cases h
  case jobStart p j =>
    rcases takeJobStart_job j s with h | ⟨h1, h2, h3⟩
    · exact (stands h hj).elim
    · simp [h1, h2, h3]
  case setStart p =>
    rcases takeSetStart_job s with h | ⟨h1, h2, h3⟩
    · exact (stands h hj).elim
    · simp [h1, h2, h3]
  case setClose p =>
    rcases takeSetClose_job s with h | ⟨h1, h2, h3⟩
    · exact (stands h hj).elim
    · simp [h1, h2, h3]
  case jobEnd p =>
    rcases takeJobEnd_job s with h | ⟨h1, h2⟩
    · exact (stands h hj).elim
    · simp [h1, h2]
  case cutOpen p =>
    rcases takeCutOpen_job s with h | ⟨h1, h2, h3⟩
    · exact (stands h hj).elim
    · simp [h1, h2, h3]
  case spliceMade p a b l =>
    rcases takeSpliceMade_job a b l s with h | ⟨h1, h2⟩
    · exact (stands h hj).elim
    · simp [h1, h2]
  case cutCancel p =>
    rcases takeCutCancel_job s with h | ⟨h1, h2⟩
    · exact (stands h hj).elim
    · simp [h1, h2]
  case setTarget p length =>
    rcases takeSetTarget_cases length s with h | h
    · exact (stands (by rw [h]) hj).elim
    · exact (hj (by rw [h.moves.job]; rfl)).elim
  all_goals exact (stands (by simp) hj).elim

/-- No event but reset moves the job state. -/
theorem eventOf_job {i : Instr} {g : State → State} (h : eventOf i = some g) (hr : i ≠ .reset) (s : State) :
    (g s).job = s.job := by
  cases i <;> cases h
  case reset => exact absurd rfl hr
  case gateClose => simp
  case noMotion => simp
  all_goals
    dsimp only
    split <;> simp

/-- Settles O52: of the takings only those of the table move the job state, and of the events only reset. -/
theorem jobStateMovesAsTheTableGives : Obligations.JobStateMovesAsTheTableGives := by
  intro i s t hexec hidle hj
  cases i with
  | none =>
    have ht : t = clockCycle s := by simpa [State.answerTo, step, hidle rfl] using hexec.symm
    exact absurd (by rw [ht]; simp) hj
  | some c =>
    by_cases hc : c = .reset
    · subst hc
      have ht : resetPart s = t := by simpa [State.answerTo, exec, execReset] using hexec
      exact .inl ⟨rfl, by rw [← ht]; rfl⟩
    · right
      obtain ⟨g, hg, rfl⟩ | ⟨f, p, r, hf, rfl⟩ | ⟨p, r, rfl⟩ := exec_cases hexec
      · exact absurd (by rw [eventOf_job hg hc]) hj
      · simpa using takenOf_jobState hf hj
      · exact absurd rfl hj

/-- The taking of every request changes the settings only as it may. -/
theorem takenOf_allowed {i : Instr} {f : State → Taken} (h : takenOf i = some f) (s : State) :
    Allowed (some i) s.settings (f s).1.settings := by
  cases i <;> cases h
  case setGeometry p g =>
    obtain ⟨x, hx⟩ := takeSetGeometry_settings g s
    simp [Allowed, hx]
  case setCalibration p fa fb =>
    obtain ⟨x, y, z, hx⟩ := takeSetCalibration_settings fa fb s
    simp [Allowed, hx]
  case setSensors p mf me sf se =>
    obtain ⟨w, x, y, z, hx⟩ := takeSetSensors_settings mf me sf se s
    simp [Allowed, hx]
  case setTrim p enc trim =>
    obtain ⟨x, hx⟩ := takeSetTrim_settings enc trim s
    simp [Allowed, hx]
  case selectSource p source =>
    obtain ⟨x, hx⟩ := takeSelectSource_settings source s
    simp [Allowed, hx]
  case setStrobe p q =>
    obtain ⟨x, hx⟩ := takeSetStrobe_settings q s
    simp [Allowed, hx]
  case setMotion p m =>
    obtain ⟨x, y, hx⟩ := takeSetMotion_settings m s
    simp [Allowed, hx]
  case lineState p n =>
    obtain ⟨x, hx⟩ := takeLineState_settings n s
    simp [Allowed, hx]
  case loadPlan p plan knives =>
    obtain ⟨x, hx⟩ := takeLoadPlan_settings plan knives s
    simp [Allowed, hx]
  case jobStart p j =>
    obtain ⟨x, y, z, hx⟩ := takeJobStart_settings j s
    simp [Allowed, hx]
  case setTarget p length =>
    obtain ⟨x, hx⟩ := takeSetTarget_settings length s
    simp [Allowed, hx]
  case setStart p =>
    obtain ⟨x, y, hx⟩ := takeSetStart_settings s
    simp [Allowed, hx]
  case setAlerts p master codes =>
    obtain ⟨x, y, hx⟩ := takeSetAlerts_settings p master codes s
    simp [Allowed, hx, Function.update_apply]
    exact fun q h => by rcases h with ⟨rfl, -⟩ | ⟨rfl, -⟩ <;> rfl
  case defect p d =>
    exact .of_eq (settings_congr (by simp) (by simp) (by simp) (by simp) (by simp) (by simp) (by simp) (by simp)
      (takeDefect_matches d s).moves.posts.enablesKept)
  case laneStatus p job set lane status =>
    exact .of_eq (settings_congr (by simp) (by simp) (by simp) (by simp) (by simp) (by simp) (by simp) (by simp)
      (takeLaneStatus_matches job set lane status s).moves.posts.enablesKept)
  case spliceMade p a b l =>
    exact .of_eq (settings_congr (by simp) (by simp) (by simp) (by simp) (by simp) (by simp) (by simp)
      (by rcases takeSpliceMade_job a b l s with h | ⟨-, h⟩ <;> rw [h])
      (takeSpliceMade_posts a b l s).enablesKept)
  case cutCancel p =>
    exact .of_eq (settings_congr (by simp) (by simp) (by simp) (by simp) (by simp) (by simp) (by simp)
      (by rcases takeCutCancel_job s with h | ⟨-, h⟩ <;> rw [h])
      (takeCutCancel_posts s).enablesKept)
  case cutOpen p =>
    exact .of_eq (settings_congr (by simp) (by simp) (by simp) (by simp) (by simp) (by simp) (by simp)
      (by rcases takeCutOpen_job s with h | ⟨-, -, h⟩ <;> rw [h]) (OnlyPosts.of_eq (by simp)).enablesKept)
  case jobEnd p =>
    exact .of_eq (settings_congr (by simp) (by simp) (by simp) (by simp) (by simp) (by simp) (takeJobEnd_tracking s)
      (by rcases takeJobEnd_job s with h | ⟨-, h⟩ <;> rw [h]) (OnlyPosts.of_eq (by simp)).enablesKept)
  case addStop p form length =>
    exact .of_eq (settings_congr (by simp) (by simp) (by simp) (by simp) (by simp) (by simp) (by simp) (by simp)
      (takeAddStop_matches p form length s).moves.posts.enablesKept)
  case cancelStop p id =>
    exact .of_eq (settings_congr (by simp) (by simp) (by simp) (by simp) (by simp) (by simp) (by simp) (by simp)
      (takeCancelStop_matches p id s).moves.posts.enablesKept)
  case setClose p =>
    exact .of_eq (settings_congr (by simp) (by simp) (by simp) (by simp) (by simp) (by simp) (by simp)
      (by rcases takeSetClose_job s with h | ⟨-, -, h⟩ <;> rw [h]) (takeSetClose_posts s).enablesKept)
  case ackEvents p codes =>
    exact .of_eq (settings_congr (by simp) (by simp) (by simp) (by simp) (by simp) (by simp) (by simp) (by simp)
      (takeAckEvents_enables p codes s))
  all_goals
    exact .of_eq (settings_congr (by simp) (by simp) (by simp) (by simp) (by simp) (by simp) (by simp) (by simp)
      (OnlyPosts.of_eq (by simp)).enablesKept)

theorem eventOf_pending {i : Instr} {g : State → State} (h : eventOf i = some g) (hr : i ≠ .reset) (s : State) :
    (g s).pending = s.pending := by
  cases i <;> cases h
  case reset => exact absurd rfl hr
  case gateClose => simp
  case noMotion => simp
  all_goals
    dsimp only
    split <;> simp

theorem exec_pending {i : Instr} {s t : State} (hr : i ≠ .reset) (h : exec i s = .next t) : t.pending = s.pending := by
  obtain ⟨g, hg, rfl⟩ | ⟨f, p, r, hf, rfl⟩ | ⟨p, r, rfl⟩ := exec_cases h
  · exact eventOf_pending hg hr s
  · exact (takenOf_frame hf s).2.2.2
  · rfl

theorem exec_allowed {i : Instr} {s t : State} (hr : i ≠ .reset) (h : exec i s = .next t) :
    Allowed (some i) s.settings t.settings := by
  obtain ⟨g, hg, rfl⟩ | ⟨f, p, r, hf, rfl⟩ | ⟨p, r, rfl⟩ := exec_cases h
  · exact eventOf_allowed hg hr s
  · exact takenOf_allowed hf s
  · exact .of_eq rfl

/-- Settles O51: each taking and each event names the settings it can change, and a clock cycle none but the gate period. -/
theorem settingsChangeOnlyByTheirCommands : Obligations.SettingsChangeOnlyByTheirCommands := by
  intro i s t hexec hidle hr
  have hboth : Allowed i s.settings t.settings ∧ t.pending = s.pending := by
    cases i with
    | none =>
      have ht : t = clockCycle s := by simpa [State.answerTo, step, hidle rfl] using hexec.symm
      rw [ht]
      exact ⟨.of_gate (by simp) (clockCycle_gateKept s), by simp⟩
    | some c =>
      have hc : c ≠ .reset := fun h => hr (by rw [h])
      exact ⟨exec_allowed hc hexec, exec_pending hc hexec⟩
  obtain ⟨⟨h1, h2, h3, h4, h5, h6, h7, h8, h9, h10, h11, h12, h13, h14, h15, h16, h17⟩, hpending⟩ := hboth
  exact ⟨h1, h2, h3, h4, h5, h6, h7, h8, h9, h10, h11, h12, h13, h14, h15, h16, h17, hpending⟩

end Sys2Proof.Machine
end

