-- ==== Sys2Proof/Proofs/SetsAndLanes.lean ====
section
/-! PROOFS. The lane lookup (R48, R49), the naming of a set (R84), and the requests to the roll map and to a cut that leave one
slot or the job state changed: LANE-STATUS (R90), RELEASE-SET (R99), CUT-OPEN (R106), and the cut shift (R110, R111). -/

namespace Sys2Proof.Machine

/-! ## The lane lookup (R48, R49) -/

theorem headD_eq_getD (knives : List Nat) : knives.headD 0 = knives.getD 0 0 := by cases knives <;> rfl

/-- The lane of a lower position is not above the lane of a higher one. -/
theorem laneAt_mono {plan : Nat} {knives : List Nat} (h : planAllowed plan knives = true) {p q : Nat} (hpq : p ≤ q)
    (hp : knives.getD 0 0 ≤ p) (hq : q < knives.getD (knives.length - 1) 0) : laneAt knives p ≤ laneAt knives q := by
  obtain ⟨a1, a2⟩ := laneAt_bounds h hp (by omega)
  obtain ⟨b1, b2⟩ := laneAt_bounds h (by omega : knives.getD 0 0 ≤ q) hq
  have ha := (laneAt_eq_iff h a1 a2).1 rfl
  have hb := (laneAt_eq_iff h b1 b2).1 rfl
  by_contra hlt
  have := knife_le_of_planAllowed h (by omega : laneAt knives q ≤ laneAt knives p - 1) (by omega)
  omega

/-- The lanes from that of one position to that of another are those with a position of their own between the two. -/
theorem between_lanes_iff {plan : Nat} {knives : List Nat} (h : planAllowed plan knives = true) {lo hi i : Nat}
    (hlo : knives.getD 0 0 ≤ lo) (hle : lo ≤ hi) (hhi : hi < knives.getD (knives.length - 1) 0) (h1 : 1 ≤ i)
    (hi' : i < knives.length) :
    (laneAt knives lo ≤ i ∧ i ≤ laneAt knives hi) ↔
      ∃ p, lo ≤ p ∧ p ≤ hi ∧ knives.getD (i - 1) 0 ≤ p ∧ p < knives.getD i 0 := by
  obtain ⟨a1, a2⟩ := laneAt_bounds h hlo (by omega)
  obtain ⟨b1, b2⟩ := laneAt_bounds h (by omega : knives.getD 0 0 ≤ hi) hhi
  obtain ⟨ha, ha'⟩ := (laneAt_eq_iff h a1 a2).1 rfl
  obtain ⟨hb, hb'⟩ := (laneAt_eq_iff h b1 b2).1 rfl
  constructor
  · rintro ⟨hf, hl⟩
    have hleft := knife_le_of_planAllowed h (by omega : i - 1 ≤ laneAt knives hi - 1) (by omega)
    have hright := knife_le_of_planAllowed h hf hi'
    have hown := knife_lt_of_planAllowed h (by omega : i - 1 < i) hi'
    exact ⟨max lo (knives.getD (i - 1) 0), by omega, by omega, by omega, by omega⟩
  · rintro ⟨p, hp1, hp2, hp3, hp4⟩
    rw [← (laneAt_eq_iff h h1 hi').2 ⟨hp3, hp4⟩]
    exact ⟨laneAt_mono h hp1 hlo (by omega), laneAt_mono h hp2 (by omega) hhi⟩

/-- Settles O23: the extent held between the outer knives runs from the first to the last lane, and a lane between them has a
position of its own in it. -/
theorem lookupAnswersTheLanesTouched : Obligations.LookupAnswersTheLanesTouched := by
  intro plan knives xs xe h hx x n
  have hn : 2 ≤ knives.length := two_le_length_of_planAllowed h
  have hends : knives.getD 0 0 < knives.getD (knives.length - 1) 0 := knife_lt_of_planAllowed h (by omega) (by omega)
  simp only [lookupLanes, headD_eq_getD, getLastD_eq_getD, x, n]
  refine ⟨trivial, ?_, ?_⟩
  · split
    next hout => exact ⟨fun _ => hout, fun _ => rfl⟩
    next hin => exact ⟨nofun, fun hout => absurd hout hin⟩
  split
  · nofun
  next hin =>
    rintro r ⟨⟩
    have hlow : knives.getD 0 0 ≤ max xs (knives.getD 0 0) := le_max_right _ _
    have hhigh : min xe (knives.getD (knives.length - 1) 0 - 1) < knives.getD (knives.length - 1) 0 := by omega
    have hle : max xs (knives.getD 0 0) ≤ min xe (knives.getD (knives.length - 1) 0 - 1) := by omega
    refine ⟨rfl, laneAt_mono h hle hlow hhigh, fun i h1 hi => ?_⟩
    rw [between_lanes_iff h hlow hle hhigh h1 (by omega)]
    have hfirst := knife_le_of_planAllowed h (by omega : 0 ≤ i - 1) (by omega)
    have hlast := knife_le_of_planAllowed h hi (by omega)
    exact exists_congr fun p => by omega

/-! ## Naming a set (R84) -/

theorem Slot.isSet_eq_holdsSet (job set : Nat) (x : Slot) : x.isSet job set = x.holdsSet job set := by cases x <;> rfl

/-- The last item that passes a test is the one behind which no other passes it. -/
theorem getLast?_filter_eq_some_iff {p : Nat → Bool} {l : List Nat} {n : Nat} :
    (l.filter p).getLast? = some n ↔
      p n = true ∧ ∃ i < l.length, l[i]? = some n ∧ ∀ m ∈ l.drop (i + 1), p m = false := by
  rw [← List.head?_reverse, ← List.filter_reverse, List.head?_filter, List.find?_eq_some_iff_append]
  constructor
  · rintro ⟨hp, as, bs, hl, has⟩
    have hl' : l = bs.reverse ++ n :: as.reverse := by simpa using congrArg List.reverse hl
    refine ⟨hp, bs.length, by simp [hl'], by simp [hl'], fun m hm => ?_⟩
    have hm' : m ∈ as := by
      simpa [hl', List.drop_append, List.drop_eq_nil_of_le (as := bs.reverse) (i := bs.length + 1) (by simp)] using hm
    simpa using has m hm'
  · rintro ⟨hp, i, hi, hn, hafter⟩
    refine ⟨hp, (l.drop (i + 1)).reverse, (l.take i).reverse, ?_, fun a ha => by simp [hafter a (by simpa using ha)]⟩
    have hget : l[i] = n := by simpa [List.getElem?_eq_getElem hi] using hn
    conv_lhs => rw [← List.take_append_drop i l, List.drop_eq_getElem_cons hi, hget]
    simp

/-- A sound slot list names exactly the WINDING slot (R78). -/
theorem windingNumber_eq_some_iff {s : State} (h : s.SlotsSound) {n : Nat} :
    s.roll.windingNumber = some n ↔ n ∈ [1, 2, 3, 4] ∧ (s.roll.slot n).isWinding = true := by
  obtain ⟨hcount, -⟩ := h
  have hone : s.roll.slots.toList.countP (·.isWinding) ≤ 1 := by rw [hcount]; split <;> omega
  constructor
  · intro hn
    obtain ⟨hr, r, hslot, -⟩ := RollMap.windingNumber_spec hn
    exact ⟨hr, by rw [hslot]; rfl⟩
  · rintro ⟨hr, hw⟩
    obtain ⟨k, hk⟩ : ∃ k, s.roll.windingNumber = some k := by
      obtain ⟨r, hslot⟩ := Slot.isWinding_iff.1 hw
      rw [← Option.isSome_iff_exists, RollMap.windingNumber_isSome, RollMap.windingSet_eq]
      fin_cases hr <;> simp_all [Slot.winding?]
    obtain ⟨hkr, r, hslot, -⟩ := RollMap.windingNumber_spec hk
    rw [hk, RollMap.winding_unique hone hkr hr (by rw [hslot]; rfl) hw]

/-- The slot that a job and a set number name, if there is one (R84): the WINDING one for set 0; else one that holds the pair,
first the WINDING one, then the latest of the close list. -/
def RollMap.named (m : RollMap) (job set : Nat) : Option Nat :=
  if set = 0 then m.windingNumber
  else (m.windingNumber.filter (fun n => (m.slot n).holdsSet job set)).or
    (m.closeList.filter (fun n => (m.slot n).holdsSet job set)).getLast?

theorem RollMap.find_eq {m : RollMap} {job set : Nat} (hs : set ≤ 9999) :
    m.find job set = match m.named job set with | none => .error .notFound | some n => .ok n := by
  simp only [RollMap.find, RollMap.named, if_neg (by omega : ¬ 9999 < set), Slot.isSet_eq_holdsSet]
  split
  · cases m.windingNumber <;> rfl
  · cases m.windingNumber.filter (fun n => (m.slot n).holdsSet job set) <;>
      cases (m.closeList.filter (fun n => (m.slot n).holdsSet job set)).getLast? <;> rfl

/-- In a sound slot list the slot named is the one that R84 names. -/
theorem named_eq_some_iff {s : State} (h : s.SlotsSound) {job set n : Nat} :
    s.roll.named job set = some n ↔ s.Names job set n := by
  have hrange := h.2.2.1
  unfold RollMap.named State.Names
  split
  next h0 =>
    subst h0
    simp only [windingNumber_eq_some_iff h, ne_eq, not_true_eq_false, false_implies, and_true, true_implies]
  next h0 =>
    simp only [h0, false_implies, ne_eq, not_false_eq_true, true_implies, true_and, Option.or_eq_some_iff,
      Option.filter_eq_some_iff, Option.filter_eq_none_iff, windingNumber_eq_some_iff h, getLast?_filter_eq_some_iff]
    constructor
    · rintro (⟨⟨hr, hw⟩, hh⟩ | ⟨hno, hh, i, hi, hget, hlate⟩)
      · exact ⟨hr, hh, .inl hw⟩
      · have hm := hrange n (List.mem_of_getElem? hget)
        exact ⟨by simp only [List.mem_cons, List.not_mem_nil, or_false]; omega, hh,
          .inr ⟨fun m hm hw => by simpa using hno m ⟨hm, hw⟩, i, hi, hget, hlate⟩⟩
    · rintro ⟨hr, hh, hw | ⟨hno, i, hi, hget, hlate⟩⟩
      · exact .inl ⟨⟨hr, hw⟩, hh⟩
      · exact .inr ⟨fun m hm => by simpa using hno m hm.1 hm.2, hh, i, hi, hget, hlate⟩

theorem find_eq_ok_iff {s : State} (h : s.SlotsSound) {job set n : Nat} (hs : set ≤ 9999) :
    s.roll.find job set = .ok n ↔ s.Names job set n := by
  rw [RollMap.find_eq hs, ← named_eq_some_iff h]
  cases s.roll.named job set <;> simp

theorem find_eq_notFound {s : State} (h : s.SlotsSound) {job set : Nat} (hs : set ≤ 9999)
    (hn : ∀ n, ¬ s.Names job set n) : s.roll.find job set = .error .notFound := by
  rw [RollMap.find_eq hs]
  cases hk : s.roll.named job set with
  | none => rfl
  | some k => exact absurd ((named_eq_some_iff h).1 hk) (hn k)

/-! ## RELEASE-SET (R99) -/

/-- Settles O27: the naming of R84 in a sound slot list, and the branches of the taking. -/
theorem releaseSetFreesAClosedSet : Obligations.ReleaseSetFreesAClosedSet := by
  refine ⟨fun job set s => ⟨fun h => by rw [RollMap.find, if_pos h], fun hs h => ⟨fun n => find_eq_ok_iff h hs,
    find_eq_notFound h hs⟩⟩, fun p job set s ht => ⟨fun st hst => ?_, fun n r hn => ⟨fun hc => ?_, fun hc => ?_⟩⟩⟩
  · exact exec_eq_replied rfl rfl ht (by simp only [takeReleaseSet, hst]; rfl)
  · exact exec_eq_replied rfl rfl ht (by simp only [takeReleaseSet, hn, hc]; rfl)
  · refine exec_eq_replied rfl rfl ht ?_
    rcases hc with hc | hc <;> · simp only [takeReleaseSet, hn, hc]; rfl

/-! ## LANE-STATUS (R90) -/

theorem namedStatus?_eq_none {n : Nat} (h : 2 < n) : namedStatus? n = none := by
  match n, h with
  | _ + 3, _ => rfl

theorem exists_namedStatus? {n : Nat} (h : n ≤ 2) : ∃ x, namedStatus? n = some x := by
  match n, h with
  | 0, _ => exact ⟨.good, rfl⟩
  | 1, _ => exact ⟨.hold, rfl⟩
  | 2, _ => exact ⟨.reject, rfl⟩

/-- A lane of a set, by its number from 1 on, given a status (R90). -/
def SetRecord.withStatus (r : SetRecord) (lane : Nat) (x : LaneRecord) (st : LaneStatus) : SetRecord :=
  { r with lanes := r.lanes.set (lane - 1) { x with status := st } }

theorem takeLaneStatus_badStatus {job set lane status : Nat} (h : 2 < status) (s : State) :
    takeLaneStatus job set lane status s = s.refuse .outOfRange := by
  simp only [takeLaneStatus, namedStatus?_eq_none h]

theorem takeLaneStatus_notNamed {job set lane status : Nat} {s : State} {st : Status} (h : status ≤ 2)
    (hf : s.roll.find job set = .error st) : takeLaneStatus job set lane status s = s.refuse st := by
  obtain ⟨x, hx⟩ := exists_namedStatus? h
  simp only [takeLaneStatus, hx, hf]

section NamedSlot
variable {job set lane status n : Nat} {s : State} (hf : s.roll.find job set = .ok n)
include hf

theorem takeLaneStatus_released {r : SetRecord} (h : status ≤ 2) (hs : s.roll.slot n = .released r) :
    takeLaneStatus job set lane status s = s.refuse .wrongState := by
  obtain ⟨x, hx⟩ := exists_namedStatus? h
  simp only [takeLaneStatus, hx, hf, hs]

variable {slot : SetRecord → Slot} (hslot : slot = .winding ∨ slot = .closed) {r : SetRecord}
  (hs : s.roll.slot n = slot r)
include hslot hs

theorem takeLaneStatus_badLane (h : status ≤ 2) (hl : lane = 0 ∨ r.lanes.length < lane) :
    takeLaneStatus job set lane status s = s.refuse .outOfRange := by
  obtain ⟨x, hx⟩ := exists_namedStatus? h
  have hnone : (if lane = 0 then none else r.lanes[lane - 1]?) = none := by
    split
    · rfl
    · exact List.getElem?_eq_none (by omega)
  rcases hslot with rfl | rfl <;> simp only [takeLaneStatus, hx, hf, hs, hnone]

/-- The lane takes the table's status, and LANE-HOLD is posted where the table says so (R90). -/
theorem takeLaneStatus_lane {x : LaneRecord} {named : NamedStatus} (hnamed : namedStatus? status = some named)
    (hl : 1 ≤ lane) (hx : r.lanes[lane - 1]? = some x) :
    takeLaneStatus job set lane status s =
      (State.postIf (x.status.named named).2 .laneHold
        { s with roll := s.roll.setSlot n (slot (r.withStatus lane x (x.status.named named).1)) }, .done []) := by
  have hsome : (if lane = 0 then none else r.lanes[lane - 1]?) = some x := by rw [if_neg (by omega), hx]
  rcases hslot with rfl | rfl <;> · simp only [takeLaneStatus, hnamed, hf, hs, hsome]; rfl

end NamedSlot

/-- Settles O26: the branches of the taking, and the table of R90 by the status named. -/
theorem laneStatusFollowsTheTable : Obligations.LaneStatusFollowsTheTable := by
  refine ⟨fun p job set lane status st s ht hf => ?_, fun p job set lane status n r x s ht hf => ?_⟩
  · split
    next h => exact exec_eq_replied rfl rfl ht (takeLaneStatus_badStatus h s)
    next h => exact exec_eq_replied rfl rfl ht (takeLaneStatus_notNamed (by omega) hf)
  · refine ⟨fun h => exec_eq_replied rfl rfl ht (takeLaneStatus_badStatus h s),
      fun h hs => exec_eq_replied rfl rfl ht (takeLaneStatus_released hf h hs), fun slot hslot hs h =>
      ⟨fun hl => exec_eq_replied rfl rfl ht (takeLaneStatus_badLane hf hslot hs h hl), fun hl hx => ⟨?_, ?_, ?_, ?_⟩⟩⟩
    · rintro rfl
      exact exec_eq_replied rfl rfl ht (takeLaneStatus_lane (named := .good) hf hslot hs rfl hl hx)
    · rintro rfl
      exact exec_eq_replied rfl rfl ht (takeLaneStatus_lane (named := .reject) hf hslot hs rfl hl hx)
    · rintro rfl cause hc
      refine exec_eq_replied rfl rfl ht ((takeLaneStatus_lane hf hslot hs rfl hl hx).trans ?_)
      rw [hc]
      rfl
    · rintro rfl hc
      refine exec_eq_replied rfl rfl ht ((takeLaneStatus_lane hf hslot hs rfl hl hx).trans ?_)
      rcases hc with hc | hc <;> · rw [hc]; rfl

/-! ## CUT-OPEN (R106) -/

/-- A field of four bytes that holds its figure, byte by byte (13.1). -/
theorem fieldU_four {v : Nat} (h : v ≤ topOfPosition) :
    fieldU 4 v = [BitVec.ofNat 8 (v / 16777216), BitVec.ofNat 8 (v / 65536), BitVec.ofNat 8 (v / 256), BitVec.ofNat 8 v] := by
  have hfit : v < 256 ^ 4 := by
    have : topOfPosition = 4294967295 := rfl
    omega
  rw [fieldU, if_pos hfit]
  simp [bytesOf]

/-- Settles O28: the three branches of the taking. -/
theorem cutOpenRecordsTheBase : Obligations.CutOpenRecordsTheBase := by
  refine fun p s ht => ⟨fun hj => ?_, fun hj hm => ?_, fun hj hm hp => ?_⟩
  · exact exec_eq_replied rfl rfl ht (if_pos hj)
  · exact exec_eq_replied rfl rfl ht ((if_neg (not_not.2 hj)).trans (if_pos hm))
  · refine exec_eq_replied rfl rfl ht ?_
    rw [takeCutOpen, if_neg (not_not.2 hj), if_neg (by simp [hm]), State.p, fieldU_four hp]
    rfl

/-! ## The cut shift (R110, R111) -/

theorem cutShift_roll (popen cut : Nat) (s : State) : (cutShift popen cut s).roll = s.roll.shift popen cut s.geometry.s := rfl

theorem cutShift_queue (popen cut : Nat) (s : State) : (cutShift popen cut s).queue = s.queue.shift popen cut s.geometry.s := rfl

theorem RollMap.shift_windingSet (m : RollMap) (popen cut : Nat) (table : Int) :
    (m.shift popen cut table).windingSet =
      m.windingSet.map (fun r => { r with start := min (r.start + cut) topOfPosition }) :=
  RollMap.windingSet_mapWinding _ m

/-- Settles O31: the shift raises setStart and the held-side web marks alike. -/
theorem cutShiftKeepsRollPositions : Obligations.CutShiftKeepsRollPositions := by
  intro popen cut set s hset htop
  refine ⟨{ set with start := set.start + cut }, ?_, rfl, ?_, fun it hit hheld => ?_, fun r hr => ?_⟩
  · rw [cutShift_roll, RollMap.shift_windingSet, hset, Option.map_some, min_eq_left htop]
  · rw [cutShift_roll]
    exact List.length_map _
  · refine ⟨{ it with body := it.body.shift cut }, ?_, rfl, rfl, ?_⟩
    · rw [cutShift_roll]
      exact List.mem_map.2 ⟨it, hit, by simp [onHeldSide, hheld]⟩
    · simp only [RecordBody.shift]
      omega
  · rw [cutShift_queue]
    refine ⟨_, (sortRecords_perm _).mem_iff.2 (List.mem_map.2 ⟨r, hr, rfl⟩), ?_⟩
    by_cases h : r.body.web + s.geometry.s ≤ popen <;> simp [onHeldSide, h, RecordBody.shift]

end Sys2Proof.Machine
end

