-- ==== Sys2Proof/Proofs/ClockAndMotion.lean ====
section
/-! PROOFS. One step (log entry 1), reset and warm-up (R194, R195), the interval (R193), and the events and requests of the motion
monitor (R32 to R35), the sensor inputs (R5) and the STROBE output (R23). -/

namespace Sys2Proof.Machine

/-! ## When the blocks run, and what is due -/

theorem State.running_iff (s : State) : s.running = true ↔ s.time.inReset = false ∧ s.time.warmUp = .ended := by
  simp [State.running]

theorem State.gateDue_iff (s : State) :
    s.gateDue = true ↔ (s.time.inReset = false ∧ s.time.warmUp = .ended) ∧ s.motion.settings.gate ≤ s.motion.gateClock := by
  rw [State.gateDue, Bool.and_eq_true, s.running_iff, decide_eq_true_iff]

theorem State.noMotionDue_iff (s : State) :
    s.noMotionDue = true ↔ (s.time.inReset = false ∧ s.time.warmUp = .ended) ∧ s.motion.timerOn = true ∧ s.motion.timer = 0 := by
  rw [State.noMotionDue, Bool.and_eq_true, Bool.and_eq_true, s.running_iff, decide_eq_true_iff, and_assoc]

theorem State.warmUpDue_iff (s : State) :
    s.warmUpDue = true ↔ s.time.inReset = false ∧ s.time.warmUp = .counting 4 := by
  simp [State.warmUpDue]

theorem takeDue_of_nothingDue {s : State} (h : s.NothingDue) : takeDue s = s := by
  obtain ⟨hg, hn, hw⟩ := h
  simp [takeDue, takeNoMotionIfDue, closeGateIfDue, hg, hn, hw]

/-- Only the end of warm-up changes the time base or a port. -/
theorem takeDue_of_running {s : State} (h : s.running = true) :
    (takeDue s).time = s.time ∧ (takeDue s).ports = s.ports := by
  have hw : s.warmUpDue = false := by
    rw [Bool.eq_false_iff, Ne, s.warmUpDue_iff, ((s.running_iff).1 h).2]
    rintro ⟨-, hcount⟩
    cases hcount
  unfold takeDue
  simp only [hw, Bool.false_eq_true, if_false]
  split
  · split <;> simp
  · simp

theorem State.cycleCounted_ports (s : State) : s.cycleCounted.ports = s.ports := by
  unfold State.cycleCounted
  split <;> rfl

theorem State.cycleCounted_running {s : State} (h : s.running = true) : s.cycleCounted.running = true := by
  obtain ⟨hr, hw⟩ := (s.running_iff).1 h
  rw [State.running_iff, State.cycleCounted]
  split <;> simp [State.intervalEnded, hr, hw]

/-- The part after a cycle of a running clock: the cycle counted, and STROBE held for one more cycle (R23, R193). -/
theorem clockCycle_eq {s : State} (h : s.time.inReset = false) :
    clockCycle s =
      takeDue { (takeDue s).cycleCounted with
        strobe := if (takeDue s).cycleCounted.running then (takeDue s).cycleCounted.strobe.cycled
          else (takeDue s).cycleCounted.strobe } := by
  have hc : (if (takeDue s).time.cycle + 1 < 24000 then
      (takeDue s).withTime { (takeDue s).time with cycle := (takeDue s).time.cycle + 1 } else endInterval (takeDue s)) =
      (takeDue s).cycleCounted := by
    rw [State.cycleCounted, endInterval_eq]
    rfl
  simp only [clockCycle, h, Bool.false_eq_true, if_false, hc, strobe_cycle_eq]
  split <;> rfl

/-! ## The step (log entry 1) -/

/-- Settles O1: the queue's front is matched by the step. -/
theorem stepTakesTheFrontCommand : Obligations.StepTakesTheFrontCommand := by
  intro c rest s h
  rw [step, h]

theorem step_idle {s : State} (h : s.pending = []) : step s = .next (clockCycle s) := by rw [step, h]

/-- Settles O2: a cycle takes what is due, counts, holds STROBE and takes what is due. -/
theorem idleStepRunsOneClockCycle : Obligations.IdleStepRunsOneClockCycle := by
  refine fun s hs => ⟨fun hr => ?_, fun hr hd hc => ?_, fun hr => ?_⟩
  · rw [step_idle hs, clockCycle, if_pos hr]
  · have hin := ((s.running_iff).1 hr).1
    have hcount : s.cycleCounted = { s with time := { s.time with cycle := s.time.cycle + 1 } } := if_pos hc
    rw [step_idle hs, clockCycle_eq hin, takeDue_of_nothingDue hd, hcount]
    rw [takeDue_of_nothingDue (by exact hd), if_pos (by exact hr)]
    rfl
  · refine ⟨takeDue s, clockCycle s, takeDue_dueTaken s, ?_, step_idle hs, fun hrun => ?_⟩
    · rw [clockCycle_eq hr]
      exact takeDue_dueTaken _
    · obtain ⟨htime, hports⟩ := takeDue_of_running hrun
      have hrun' : (takeDue s).running = true := by rw [State.running, htime]; exact hrun
      rw [clockCycle_eq hr, (takeDue_of_running (by exact State.cycleCounted_running hrun')).2]
      exact ((takeDue s).cycleCounted_ports).trans hports

/-! ## Reset, warm-up and the outputs (R194, R195) -/

/-- Settles O3: the reset values, block by block. -/
theorem resetRestoresEveryBlock : Obligations.ResetRestoresEveryBlock := by
  refine ⟨fun s => rfl, by decide, by decide, by decide, fun e => by cases e <;> decide, by decide, by decide, by decide,
    by decide, by decide, by decide, by decide, by decide, by decide, by decide, fun p => by cases p <;> decide,
    fun p => by cases p <;> decide⟩

theorem LengthCounter.openSpan_eq (c : LengthCounter) : c.openSpan = { c with
    span := if c.active = .a ∧ c.a.silent = false ∧ c.b.silent = false then
      some { pa0 := c.a.position, pb0 := c.b.position } else none } := by
  simp only [LengthCounter.openSpan, LengthCounter.slipRuns, Bool.and_eq_true, decide_eq_true_iff, Bool.not_eq_true', and_assoc]

theorem byteLevels_getElem (b : Byte) {j : Nat} (h : j < 8) :
    (byteLevels b)[j]? = some (if b.toNat.testBit (7 - j) then .high else .low) := by
  simp only [byteLevels, List.getElem?_map, List.getElem?_range h, Option.map_some, PinLevel.driven, BitVec.getMsbD,
    BitVec.getLsbD, h, decide_true, Bool.true_and]

@[simp] theorem byteLevels_length (b : Byte) : (byteLevels b).length = 8 := by simp [byteLevels]

/-- The levels of a transaction, byte after byte and eight to a byte. -/
theorem flatMap_byteLevels_getElem (l : List Byte) {i j : Nat} (hj : j < 8) :
    (l.flatMap byteLevels)[8 * i + j]? = l[i]?.bind (fun b => (byteLevels b)[j]?) := by
  induction l generalizing i with
  | nil => simp
  | cons b l ih =>
    cases i with
    | zero => simp [List.getElem?_append_left, hj]
    | succ i =>
      rw [List.flatMap_cons, List.getElem?_append_right (by simp; omega), byteLevels_length,
        show 8 * (i + 1) + j - 8 = 8 * i + j by omega, ih, List.getElem?_cons_succ]

theorem exec_endOfWarmUp {v : InputLevels} {s : State} (h : s.warmUpDue = true) :
    exec (.endOfWarmUp v) s = .next (endWarmUp v s) := congrArg _ (if_pos h)

theorem exec_resetRelease {s : State} (h : s.time.inReset = true) :
    exec .resetRelease s = .next (s.withTime { inReset := false, cycle := 0, warmUp := .counting 0 }) := congrArg _ (if_pos h)

/-- Settles O4: the two events of R194, the table of R195, and the bits of a transaction. -/
theorem releaseAndWarmUpFollowR194 : Obligations.ReleaseAndWarmUpFollowR194 := by
  refine ⟨fun s h => exec_resetRelease h, fun v s hr hc => ?_, fun s => ⟨fun h => ?_, fun h => ?_⟩, fun r => ⟨?_, ?_⟩⟩
  · rw [exec_endOfWarmUp ((s.warmUpDue_iff).2 ⟨hr, hc⟩), endWarmUp, LengthCounter.openSpan_eq]
    rfl
  · simp only [State.outputs, h, Bool.false_and]
    rfl
  · simp only [State.outputs, h, Bool.true_and, PinLevel.driven, State.stopAsserted, List.any_eq_true]
    exact ⟨trivial, trivial, fun p => by cases p <;> exact ⟨rfl, rfl⟩⟩
  · simp [PortRegs.sdoLevels, List.length_flatMap, mul_comm]
  · intro i hi b hb j hj
    have hb' : r.sdo[i]? = some b := hb
    rw [PortRegs.sdoLevels, flatMap_byteLevels_getElem _ hj, hb', Option.bind_some, byteLevels_getElem b hj]

/-! ## The interval (R193) -/

/-- Settles O5: the interval takes what is due first; with nothing due only the counts of time change. -/
theorem intervalAdvancesTheClocks : Obligations.IntervalAdvancesTheClocks := by
  have hexec {s : State} (h : s.time.inReset = false) : exec .interval s = .next (takeDue s).intervalEnded := by
    have hrun : exec .interval s = .next (endInterval (takeDue s)) := congrArg _ (if_neg (by simp [h]))
    rw [hrun, endInterval_eq]
  refine ⟨fun s => ⟨s.gateDue_iff, s.noMotionDue_iff, s.warmUpDue_iff⟩, fun s h => congrArg _ (if_pos h),
    fun s h => ⟨takeDue s, takeDue_dueTaken s, hexec h⟩, fun s h hd => ⟨fun n hn => ?_, fun hw => ?_⟩⟩
  · rw [hexec h, takeDue_of_nothingDue hd, State.intervalEnded]
    simp [hn]
  · rw [hexec h, takeDue_of_nothingDue hd, State.intervalEnded]
    simp [h, hw]

/-! ## The motion monitor (R32 to R35) -/

/-- Settles O8: NO-MOTION is due, and is taken. -/
theorem noMotionIsPostedOnce : Obligations.NoMotionIsPostedOnce := by
  intro s hr hon ht
  exact congrArg _ (if_pos ((s.noMotionDue_iff).2 ⟨(s.running_iff).1 hr, hon, ht⟩))

theorem gatePeriod?_eq_some_iff {code gate : Nat} :
    gatePeriod? code = some gate ↔ code ≤ 3 ∧ gate = [5, 10, 20, 50].getD code 0 := by
  match code with
  | 0 => simp [gatePeriod?, eq_comm]
  | 1 => simp [gatePeriod?, eq_comm]
  | 2 => simp [gatePeriod?, eq_comm]
  | 3 => simp [gatePeriod?, eq_comm]
  | n + 4 => simp [gatePeriod?]

theorem motionInRange_iff (m : MotionFields) : motionInRange m = true ↔
    (50 ≤ m.decel ∧ m.decel ≤ 5000) ∧ m.reaction ≤ 1000 ∧ m.tolerance ≤ 5000 ∧
      (100 ≤ m.overrun ∧ m.overrun ≤ 1000000) ∧ (500 ≤ m.timeout ∧ m.timeout ≤ 10000) ∧
      (1000 ≤ m.silence ∧ m.silence ≤ 100000) ∧ (10000 ≤ m.check ∧ m.check ≤ 1000000) ∧
      (100 ≤ m.slip ∧ m.slip ≤ 50000) := by
  simp only [motionInRange, Bool.and_eq_true, decide_eq_true_iff, and_assoc]

/-- Settles O9: the branches of the taking. -/
theorem setMotionStoresNineSettings : Obligations.SetMotionStoresNineSettings := by
  refine fun p m s ht => ⟨fun hm => exec_eq_replied rfl rfl ht (if_pos hm), fun hm hok => ?_, fun hm hok => ?_⟩
  · refine exec_eq_replied rfl rfl ht ?_
    rw [takeSetMotion, if_neg (by simp [hm])]
    cases hg : gatePeriod? m.gate with
    | none => rfl
    | some gate =>
      have hbad : motionInRange m = false := by
        rw [Bool.eq_false_iff, Ne, motionInRange_iff]
        exact fun h => hok ⟨(gatePeriod?_eq_some_iff.1 hg).1, h⟩
      exact if_pos hbad
  · obtain ⟨hgate, hrange⟩ := hok
    refine exec_eq_replied rfl rfl ht ?_
    rw [takeSetMotion, if_neg (by simp [hm]), gatePeriod?_eq_some_iff.2 ⟨hgate, rfl⟩]
    exact if_neg (by simp [(motionInRange_iff m).2 hrange])

theorem takeLineState_eq {n : Nat} {r : LineReport} (h : lineReport? n = some r) (s : State) :
    takeLineState n s = (s.withMotion (s.motion.reported r), .done []) := by rw [takeLineState, h]

/-- Settles O10: the report named by its code. -/
theorem lineStateSetsTheMotionCheck : Obligations.LineStateSetsTheMotionCheck := by
  refine fun p report s ht => ⟨fun hr => ?_, fun hr hm => ?_, fun hr hm => ?_, fun hr => ?_, fun hr => ?_⟩
  · refine exec_eq_replied rfl rfl ht ?_
    match report, hr with
    | _ + 3, _ => rfl
  · subst hr
    refine exec_eq_replied rfl rfl ht ((takeLineState_eq (r := .running) rfl s).trans ?_)
    rw [Motion.reported, if_pos hm]
    rfl
  · subst hr
    refine exec_eq_replied rfl rfl ht ((takeLineState_eq (r := .running) rfl s).trans ?_)
    rw [Motion.reported, if_neg (by simp [hm])]
    rfl
  · subst hr
    exact exec_eq_replied rfl rfl ht (takeLineState_eq (r := .stopped) rfl s)
  · subst hr
    exact exec_eq_replied rfl rfl ht (takeLineState_eq (r := .jogging) rfl s)

/-! ## The inputs and the STROBE output (R5, R23) -/

theorem Inputs.encoder_accept (i : Inputs) (e : Encoder) (x : EncoderInput) :
    (i.accept e x).encoder e = x ∧ (i.accept e x).encoder (otherEncoder e) = i.encoder (otherEncoder e) ∧
      (i.accept e x).mark = i.mark ∧ (i.accept e x).splice = i.splice := by
  cases e <;> exact ⟨rfl, rfl, rfl, rfl⟩

theorem exec_illegalTransition {s : State} (h : s.running = true) (e : Encoder) :
    exec (.illegalTransition e) s = .next (glitchAt e s) := congrArg _ (if_pos h)

/-- Settles O13: the new pair of levels is accepted, and the first glitch of a gate is posted. -/
theorem illegalTransitionCountsAGlitch : Obligations.IllegalTransitionCountsAGlitch := by
  intro e s hr x
  obtain ⟨hself, hother, hmark, hsplice⟩ := s.inputs.encoder_accept e x.glitch
  refine ⟨glitchAt e s, exec_illegalTransition hr e, ?_, ?_, ⟨?_, ?_⟩, fun hp => ?_, fun hp => ?_, ?_⟩
  · simpa [glitchAt, EncoderInput.glitch, holdAt, x] using hself
  · simpa [glitchAt] using hother
  · simpa [glitchAt] using hmark
  · simpa [glitchAt] using hsplice
  · simp only [x] at hp
    simp [glitchAt, State.postIf, hp]
  · simp only [x] at hp
    simp only [glitchAt, State.postIf, hp, Bool.not_false, if_true]
    rfl
  · cases hp : (s.inputs.encoder e).glitchPosted <;>
      simp only [glitchAt, State.postIf, hp, Bool.not_false, Bool.not_true, Bool.false_eq_true, if_true, if_false] <;> rfl

/-- Settles O14: a pulse can begin, and one under way ends. -/
theorem strobePulsesFollowTheOwedCount : Obligations.StrobePulsesFollowTheOwedCount := by
  refine fun s hr => ⟨fun hl ho => ?_, fun hh => ?_⟩
  · exact congrArg _ (if_pos (by simp [hr, Strobe.canBegin, hl, ho]))
  · exact congrArg _ (if_pos (by simp [hr, hh]))

end Sys2Proof.Machine
end

