-- ==== Sys2Proof/Proofs/SettingsRequests.lean ====
section
/-! PROOFS. The requests that replace settings (R1, R6, R8, R15, R42) and the start and end of a job (R161 to R163): the checks as
propositions, and the branches of each taking. -/

namespace Sys2Proof.Machine

/-! ## Geometry (R1) -/

theorem geometryAllowed_iff (g : Geometry) : geometryAllowed g = true ↔
    (∀ x ∈ [g.c, g.e, g.m, g.k, g.s, g.w], -200000 ≤ x ∧ x ≤ 200000) ∧
      g.c < g.k ∧ g.e < g.k ∧ g.m < g.w ∧ g.k < g.s ∧ g.s < g.w ∧ 0 < g.s := by
  simp [geometryAllowed, offsetInRange, and_assoc]

/-- Settles O17: the two checks of the taking. -/
theorem setGeometryReplacesSixOffsets : Obligations.SetGeometryReplacesSixOffsets := by
  refine fun p g s ht => ⟨fun hj => exec_eq_replied rfl rfl ht (if_pos hj), fun hj hbad => ?_, fun hj hok => ?_⟩
  · rw [← geometryAllowed_iff, Bool.not_eq_true] at hbad
    exact exec_eq_replied rfl rfl ht ((if_neg (not_not.2 hj)).trans (if_pos hbad))
  · rw [← geometryAllowed_iff] at hok
    exact exec_eq_replied rfl rfl ht ((if_neg (not_not.2 hj)).trans (if_neg (by simp [hok])))

/-! ## Calibration and sensors (R6, R8) -/

theorem encoderFilter?_eq_some_iff {code t : Nat} :
    encoderFilter? code = some t ↔ code ≤ 4 ∧ t = [0, 6, 12, 24, 48].getD code 0 := by
  match code with
  | 0 => simp [encoderFilter?, eq_comm]
  | 1 => simp [encoderFilter?, eq_comm]
  | 2 => simp [encoderFilter?, eq_comm]
  | 3 => simp [encoderFilter?, eq_comm]
  | 4 => simp [encoderFilter?, eq_comm]
  | n + 5 => simp [encoderFilter?]

theorem encoderFilter?_eq_none {code : Nat} (h : ¬ code ≤ 4) : encoderFilter? code = none :=
  Option.eq_none_iff_forall_ne_some.2 fun _ ht => h (encoderFilter?_eq_some_iff.1 ht).1

theorem lineFilter?_eq_some_iff {code t : Nat} :
    lineFilter? code = some t ↔ code ≤ 4 ∧ t = [0, 1200, 2400, 4800, 12000].getD code 0 := by
  match code with
  | 0 => simp [lineFilter?, eq_comm]
  | 1 => simp [lineFilter?, eq_comm]
  | 2 => simp [lineFilter?, eq_comm]
  | 3 => simp [lineFilter?, eq_comm]
  | 4 => simp [lineFilter?, eq_comm]
  | n + 5 => simp [lineFilter?]

theorem lineFilter?_eq_none {code : Nat} (h : ¬ code ≤ 4) : lineFilter? code = none :=
  Option.eq_none_iff_forall_ne_some.2 fun _ ht => h (lineFilter?_eq_some_iff.1 ht).1

theorem edge?_eq_some_iff {code : Nat} {e : Edge} :
    edge? code = some e ↔ code ≤ 1 ∧ e = if code = 0 then .rising else .falling := by
  match code with
  | 0 => simp [edge?, eq_comm]
  | 1 => simp [edge?, eq_comm]
  | n + 2 => simp [edge?]

theorem edge?_eq_none {code : Nat} (h : ¬ code ≤ 1) : edge? code = none :=
  Option.eq_none_iff_forall_ne_some.2 fun _ ht => h (edge?_eq_some_iff.1 ht).1

theorem calibrationInRange_iff (f : CalibrationFields) : calibrationInRange f = true ↔
    (100000 ≤ f.circumference ∧ f.circumference ≤ 2000000) ∧ (100 ≤ f.counts ∧ f.counts ≤ 80000) := by
  rw [calibrationInRange, Bool.and_eq_true, decide_eq_true_iff, decide_eq_true_iff]

theorem Measure.calibrate_eq (m : Measure) (f : CalibrationFields) : m.calibrate f =
    { m with circumference := f.circumference, counts := f.counts,
             remainder := if f.circumference ≠ m.circumference ∨ f.counts ≠ m.counts then 0 else m.remainder } := by
  have hsplit : (m.circumference = f.circumference ∧ m.counts = f.counts) ↔
      ¬ (f.circumference ≠ m.circumference ∨ f.counts ≠ m.counts) := by
    rw [not_or, not_not, not_not, eq_comm, eq_comm (a := m.counts)]
  simp only [Measure.calibrate, hsplit, ite_not]

/-- A figure out of range, or a filter code that stands for no time, is refused (R8). -/
theorem takeSetCalibration_outOfRange {fa fb : CalibrationFields} {s : State} (hj : s.job.state = .noJob)
    (h : ¬ ((calibrationInRange fa = true ∧ fa.filter ≤ 4) ∧ calibrationInRange fb = true ∧ fb.filter ≤ 4)) :
    takeSetCalibration fa fb s = s.refuse .outOfRange := by
  rw [takeSetCalibration, if_neg (not_not.2 hj)]
  split
  · rfl
  next hrange =>
    rw [Bool.not_eq_false, Bool.and_eq_true] at hrange
    by_cases ha : fa.filter ≤ 4
    · have hb : ¬ fb.filter ≤ 4 := fun hb => h ⟨⟨hrange.1, ha⟩, hrange.2, hb⟩
      rw [encoderFilter?_eq_none hb, encoderFilter?_eq_some_iff.2 ⟨ha, rfl⟩]
    · rw [encoderFilter?_eq_none ha]

/-- Settles O18: the checks of the taking, and the remainder kept by unchanged figures. -/
theorem setCalibrationReplacesBothEncoders : Obligations.SetCalibrationReplacesBothEncoders := by
  refine fun p fa fb s ht => ⟨fun hj => exec_eq_replied rfl rfl ht (if_pos hj), fun hj hbad => ?_, fun hj ha hb => ?_⟩
  · refine exec_eq_replied rfl rfl ht (takeSetCalibration_outOfRange hj fun h => hbad ?_)
    simp only [calibrationInRange_iff, and_assoc] at h ⊢
    exact h
  · refine exec_eq_replied rfl rfl ht ?_
    obtain ⟨ha1, ha2, ha3⟩ := ha
    obtain ⟨hb1, hb2, hb3⟩ := hb
    rw [takeSetCalibration, if_neg (not_not.2 hj), (calibrationInRange_iff fa).2 ⟨ha1, ha2⟩,
      (calibrationInRange_iff fb).2 ⟨hb1, hb2⟩, if_neg (by decide), encoderFilter?_eq_some_iff.2 ⟨ha3, rfl⟩,
      encoderFilter?_eq_some_iff.2 ⟨hb3, rfl⟩]
    simp only [Measure.calibrate_eq]
    rfl

/-- A filter or edge code that stands for nothing is refused (R6). -/
theorem takeSetSensors_outOfRange {mf me sf se : Nat} {s : State} (hj : s.job.state.setOpen = false)
    (h : ¬ (mf ≤ 4 ∧ me ≤ 1 ∧ sf ≤ 4 ∧ se ≤ 1)) : takeSetSensors mf me sf se s = s.refuse .outOfRange := by
  rw [takeSetSensors, if_neg (by simp [hj])]
  split
  next h1 h2 h3 h4 =>
    exact absurd ⟨(lineFilter?_eq_some_iff.1 h1).1, (edge?_eq_some_iff.1 h2).1, (lineFilter?_eq_some_iff.1 h3).1,
      (edge?_eq_some_iff.1 h4).1⟩ h
  · rfl

/-- Settles O19: the checks of the taking. -/
theorem setSensorsReplacesBothLines : Obligations.SetSensorsReplacesBothLines := by
  refine fun p mf me sf se s ht => ⟨fun hj => exec_eq_replied rfl rfl ht (if_pos hj), fun hj hbad =>
    exec_eq_replied rfl rfl ht (takeSetSensors_outOfRange hj hbad), fun hj h1 h2 h3 h4 => exec_eq_replied rfl rfl ht ?_⟩
  rw [takeSetSensors, if_neg (by simp [hj]), lineFilter?_eq_some_iff.2 ⟨h1, rfl⟩, edge?_eq_some_iff.2 ⟨h2, rfl⟩,
    lineFilter?_eq_some_iff.2 ⟨h3, rfl⟩, edge?_eq_some_iff.2 ⟨h4, rfl⟩]
  rfl

/-! ## The active source (R15, R20) -/

/-- The source selected, with the span of R20: kept by the active source, opened fresh by A with B ALIVE, abandoned by B. -/
theorem LengthCounter.select_eq {c : LengthCounter} {e : Encoder} (h : (c.measure e).silent = false) :
    c.select e = { c with
      active := e
      span := if c.active = e then c.span
        else if e = .a ∧ c.b.silent = false then some { pa0 := c.a.position, pb0 := c.b.position } else none } := by
  unfold LengthCounter.select
  split
  next ha => rw [← ha]
  next ha =>
    rw [LengthCounter.openSpan_eq]
    cases e with
    | a =>
      have ha' : c.a.silent = false := h
      simp [ha']
    | b => simp

section SelectSource
variable {source : Nat} {e : Encoder} (he : encoder? source = some e) {s : State}
include he

theorem takeSelectSource_silent (h : (s.length.measure e).silent = true) :
    takeSelectSource source s = s.refuse .wrongState := by
  rw [takeSelectSource, he]
  exact if_pos h

theorem takeSelectSource_moving (h : (s.length.measure e).silent = false) (hm : s.motion.standstill = false) :
    takeSelectSource source s = s.refuse .notStandstill := by
  rw [takeSelectSource, he]
  exact (if_neg (by simp [h])).trans (if_pos hm)

theorem takeSelectSource_done (h : (s.length.measure e).silent = false) (hm : s.motion.standstill = true) :
    takeSelectSource source s = (s.withLength (s.length.select e), .done []) := by
  rw [takeSelectSource, he]
  exact (if_neg (by simp [h])).trans (if_neg (by simp [hm]))

end SelectSource

/-- Settles O20: the checks in their order, and the span of the source selected. -/
theorem selectSourceSwitchesAtStandstill : Obligations.SelectSourceSwitchesAtStandstill := by
  refine fun p source s ht => ⟨fun h => exec_eq_replied rfl rfl ht ?_, fun e hsource => ?_⟩
  · rw [takeSelectSource, encoder?_eq_none h]
    rfl
  · have he : encoder? source = some e := hsource ▸ encoder?_code e
    refine ⟨fun h => exec_eq_replied rfl rfl ht (takeSelectSource_silent he h),
      fun h hm => exec_eq_replied rfl rfl ht (takeSelectSource_moving he h hm),
      fun h hm => exec_eq_replied rfl rfl ht ?_⟩
    rw [takeSelectSource_done he h hm, LengthCounter.select_eq h]
    rfl

/-! ## Knife plans (R42 to R44) -/

theorem clashesWithActive_iff (t : PlanTable) (plan : Nat) (knives : List Nat) :
    clashesWithActive t plan knives = true ↔ ∃ a : Plan, t.active = some a ∧ a.id = plan ∧ a.knives ≠ knives := by
  unfold clashesWithActive
  split
  next h => simp [h]
  next a h => simp [h]

theorem fieldU_two {v : Nat} (h : v ≤ 65535) : fieldU 2 v = [BitVec.ofNat 8 (v / 256), BitVec.ofNat 8 v] := by
  rw [fieldU, if_pos (by omega)]
  simp [bytesOf]

theorem fieldU_one {v : Nat} (h : v ≤ 255) : fieldU 1 v = [BitVec.ofNat 8 v] := by
  rw [fieldU, if_pos (by omega)]
  simp [bytesOf]

/-- Settles O21: the checks in their order, and the reply's two figures. -/
theorem loadPlanStagesACheckedPlan : Obligations.LoadPlanStagesACheckedPlan := by
  refine fun p plan knives s ht => ⟨fun hbad => ?_, fun hok hc => ?_, fun hok hc => ?_⟩
  · rw [← planAllowed_iff, Bool.not_eq_true] at hbad
    exact exec_eq_replied rfl rfl ht (if_pos hbad)
  · have hallowed := (planAllowed_iff plan knives).2 hok
    exact exec_eq_replied rfl rfl ht ((if_neg (by simp [hallowed])).trans (if_pos ((clashesWithActive_iff _ _ _).2 hc)))
  · have hallowed := (planAllowed_iff plan knives).2 hok
    obtain ⟨⟨-, hid⟩, ⟨-, hlen⟩, -⟩ := hok
    rw [← clashesWithActive_iff] at hc
    refine exec_eq_replied rfl rfl ht ?_
    rw [takeLoadPlan, if_neg (by simp [hallowed]), if_neg hc, fieldU_two hid, laneCount, fieldU_one (by omega)]
    rfl

/-! ## The start and the end of a job (R161 to R163) -/

theorem severity?_eq_some_iff {n : Nat} {sev : Severity} : severity? n = some sev ↔ sev.rank = n := by
  match n with
  | 0 => cases sev <;> simp [severity?, Severity.rank]
  | 1 => cases sev <;> simp [severity?, Severity.rank]
  | 2 => cases sev <;> simp [severity?, Severity.rank]
  | 3 => cases sev <;> simp [severity?, Severity.rank]
  | n + 4 => cases sev <;> simp [severity?, Severity.rank]

theorem Severity.rank_injective {a b : Severity} (h : a.rank = b.rank) : a = b := by
  cases a <;> cases b <;> simp [Severity.rank] at h ⊢

theorem exists_severity {n : Nat} : (∃ sev, severity? n = some sev) ↔ 1 ≤ n ∧ n ≤ 3 := by
  simp only [severity?_eq_some_iff]
  constructor
  · rintro ⟨sev, rfl⟩
    cases sev <;> decide
  · rintro ⟨h1, h3⟩
    obtain rfl | rfl | rfl : n = 1 ∨ n = 2 ∨ n = 3 := by omega
    · exact ⟨.minor, rfl⟩
    · exact ⟨.major, rfl⟩
    · exact ⟨.critical, rfl⟩

theorem exists_onOff {n : Nat} : (∃ on, onOff? n = some on) ↔ n ≤ 1 := by simp [onOff?_eq_some]

theorem withinTenThousand_iff (x : Int) : withinTenThousand x = true ↔ -10000 ≤ x ∧ x ≤ 10000 := by
  simp [withinTenThousand]

theorem jobTarget?_eq_some_iff {j : JobFields} {target : Option Nat} : jobTarget? j = some target ↔
    (j.targetPresent = 0 ∨ (j.targetPresent = 1 ∧ 10000 ≤ j.target ∧ j.target ≤ 2000000000)) ∧
      target = if j.targetPresent = 1 then some j.target else none := by
  unfold jobTarget?
  split
  next h => simp [h, eq_comm]
  next h =>
    by_cases hr : 10000 ≤ j.target ∧ j.target ≤ 2000000000
    · simp [h, hr, eq_comm]
    · simp only [if_neg hr, h]
      simp [hr]
  next h0 h1 => exact ⟨nofun, fun ⟨hr, _⟩ => (hr.elim h0 fun h => h1 h.1).elim⟩

theorem trackingInRange_iff (j : JobFields) : trackingInRange j = true ↔
    (500 ≤ j.expected ∧ j.expected ≤ 20000) ∧ (5 ≤ j.window ∧ j.window ≤ j.expected / 4) ∧
      (1 ≤ j.lossCount ∧ j.lossCount ≤ 15) ∧ j.stopOnLoss ≤ 1 ∧ j.align ≤ 1 ∧
      (-10000 ≤ j.cutOffset ∧ j.cutOffset ≤ 10000) := by
  simp only [trackingInRange, Bool.and_eq_true, decide_eq_true_iff, withinTenThousand_iff, and_assoc]

/-- With tracking off the six other settings are held as sent and not judged (R118). -/
theorem jobTracking?_eq_some_iff {j : JobFields} {t : TrackingSettings} : jobTracking? j = some t ↔
    (j.tracking ≤ 1 ∧ (j.tracking = 1 → trackingInRange j = true)) ∧
      t = { tracking := decide (j.tracking = 1), expected := j.expected, window := j.window, lossCount := j.lossCount,
            stopOnLoss := j.stopOnLoss, align := j.align, cutOffset := j.cutOffset } := by
  unfold jobTracking?
  split
  next h =>
    have hno : ¬ j.tracking ≤ 1 := fun hle => by simpa [h] using exists_onOff.2 hle
    simp [hno]
  next on h =>
    obtain ⟨hle, rfl⟩ := onOff?_eq_some.1 h
    by_cases h1 : j.tracking = 1 <;> cases hr : trackingInRange j <;> simp [h1, hle, eq_comm]

theorem jobNumbersInRange_iff (j : JobFields) : jobNumbersInRange j = true ↔
    (1 ≤ j.job ∧ j.job ≤ 65535) ∧ j.spliceLimit ≤ 8 ∧ (j.classes < 65536 ∧ j.classes % 2 = 0) ∧
      (-10000 ≤ j.stopOffset ∧ j.stopOffset ≤ 10000) := by
  have hbit : (!j.classes.testBit 0) = true ↔ j.classes % 2 = 0 := by
    rw [Nat.testBit_zero]
    simp
  simp only [jobNumbersInRange, Bool.and_eq_true, decide_eq_true_iff, withinTenThousand_iff, hbit, and_assoc]

/-- The parameters of a request whose fields are all in range (R160, R161). -/
theorem jobParams?_eq_some_iff {j : JobFields} {params : JobParams} : jobParams? j = some params ↔
    ((j.targetPresent = 0 ∨ (j.targetPresent = 1 ∧ 10000 ≤ j.target ∧ j.target ≤ 2000000000)) ∧ j.enforce ≤ 1 ∧
      j.stopOnDefect ≤ 1 ∧ j.holdOnCritical ≤ 1 ∧ jobNumbersInRange j = true) ∧
    ∃ sev : Severity, sev.rank = j.severity ∧ params =
      { number := j.job, target := if j.targetPresent = 1 then some j.target else none, spliceLimit := j.spliceLimit,
        enforce := decide (j.enforce = 1), classes := j.classes, stopSeverity := sev,
        stopOnDefect := decide (j.stopOnDefect = 1), stopOffset := j.stopOffset,
        holdOnCritical := decide (j.holdOnCritical = 1) } := by
  unfold jobParams?
  split
  next target enforce sev onDefect hold h1 h2 h3 h4 h5 =>
    obtain ⟨ht, rfl⟩ := jobTarget?_eq_some_iff.1 h1
    obtain ⟨he, rfl⟩ := onOff?_eq_some.1 h2
    obtain ⟨hd, rfl⟩ := onOff?_eq_some.1 h4
    obtain ⟨hh, rfl⟩ := onOff?_eq_some.1 h5
    rw [severity?_eq_some_iff] at h3
    have hone (sev' : Severity) : sev'.rank = j.severity ↔ sev' = sev :=
      ⟨fun h => Severity.rank_injective (h.trans h3.symm), fun h => h ▸ h3⟩
    cases hr : jobNumbersInRange j
    · simp
    · simp [ht, he, hd, hh, hone, eq_comm]
  next hnone =>
    refine ⟨nofun, fun ⟨⟨ht, he, hd, hh, _⟩, sev, hsev, _⟩ => ?_⟩
    exact (hnone _ _ _ _ _ (jobTarget?_eq_some_iff.2 ⟨ht, rfl⟩) (onOff?_eq_some.2 ⟨he, rfl⟩)
      (severity?_eq_some_iff.2 hsev) (onOff?_eq_some.2 ⟨hd, rfl⟩) (onOff?_eq_some.2 ⟨hh, rfl⟩)).elim

theorem takeJobStart_outOfRange {j : JobFields} {s : State} (hj : s.job.state = .noJob)
    (h : ∀ params tracking, jobParams? j = some params → jobTracking? j ≠ some tracking) :
    takeJobStart j s = s.refuse .outOfRange := by
  rw [takeJobStart, if_neg (not_not.2 hj)]
  split
  next params tracking h1 h2 => exact absurd h2 (h params tracking h1)
  · rfl

section InRange
variable {j : JobFields} {params : JobParams} {tracking : TrackingSettings} (hp : jobParams? j = some params)
  (ht : jobTracking? j = some tracking) {s : State} (hj : s.job.state = .noJob)
include hp ht hj

theorem takeJobStart_noPlan (h : s.plans.active = none ∧ s.plans.staged = none) :
    takeJobStart j s = s.refuse .wrongState := by
  rw [takeJobStart, if_neg (not_not.2 hj), hp, ht]
  exact if_pos (by simp [h])

theorem takeJobStart_moving (h : s.plans.active ≠ none ∨ s.plans.staged ≠ none) (hm : s.motion.standstill = false) :
    takeJobStart j s = s.refuse .notStandstill := by
  rw [takeJobStart, if_neg (not_not.2 hj), hp, ht]
  exact (if_neg (by simpa [imp_iff_not_or] using h)).trans (if_pos hm)

theorem takeJobStart_done (h : s.plans.active ≠ none ∨ s.plans.staged ≠ none) (hm : s.motion.standstill = true) :
    takeJobStart j s = (startJob params tracking s, .done (fieldU 2 params.number)) := by
  rw [takeJobStart, if_neg (not_not.2 hj), hp, ht]
  exact (if_neg (by simpa [imp_iff_not_or] using h)).trans (if_neg (by simp [hm]))

end InRange

theorem startJob_eq (params : JobParams) (tracking : TrackingSettings) (s : State) : startJob params tracking s =
    { s with
      job := { state := .ready, params := params, setCounter := 0 }
      length := { s.length with
        a := s.length.a.startJob, b := s.length.b.startJob, p := 0
        span := if s.length.active = .a ∧ s.length.a.silent = false ∧ s.length.b.silent = false then
          some { pa0 := 0, pb0 := 0 } else none }
      strobe := { s.strobe with count := 0, owed := 0 }
      motion := { s.motion with baseline := 0 }
      tracker := trackerAtJobStart tracking
      queue := { s.queue with flow := .zero, highMark := none }
      stops := { s.stops with entries := [], changes := (s.stops.changes + s.stops.entries.length) % 65536 } } := by
  simp only [startJob, LengthCounter.startJob, LengthCounter.openSpan_eq]
  rfl

/-- Settles O37: the fields in range are those that give parameters and tracking settings, and the checks follow in order. -/
theorem jobStartPreparesEveryBlock : Obligations.JobStartPreparesEveryBlock := by
  intro p j sev s ht out sound afresh span params settings
  have hsound : sound → (∃ params, jobParams? j = some params) ∧ jobTracking? j = some settings := by
    rintro ⟨hjob, htarget, hlimit, henf, hcls, hsev, hdef, hoff, hhold, htrk, hrange⟩
    obtain ⟨sev', hsev'⟩ := exists_severity.2 hsev
    exact ⟨⟨_, jobParams?_eq_some_iff.2 ⟨⟨htarget, henf, hdef, hhold, (jobNumbersInRange_iff j).2 ⟨hjob, hlimit, hcls, hoff⟩⟩,
        sev', severity?_eq_some_iff.1 hsev', rfl⟩⟩,
      jobTracking?_eq_some_iff.2 ⟨⟨htrk, fun h1 => (trackingInRange_iff j).2 (hrange h1)⟩, rfl⟩⟩
  have hunsound (params' : JobParams) (tracking : TrackingSettings) (h1 : jobParams? j = some params')
      (h2 : jobTracking? j = some tracking) : sound := by
    obtain ⟨⟨htarget, henf, hdef, hhold, hnum⟩, sev', hsev, -⟩ := jobParams?_eq_some_iff.1 h1
    obtain ⟨⟨htrk, hrange⟩, -⟩ := jobTracking?_eq_some_iff.1 h2
    obtain ⟨hjob, hlimit, hcls, hoff⟩ := (jobNumbersInRange_iff j).1 hnum
    exact ⟨hjob, htarget, hlimit, henf, hcls, exists_severity.1 ⟨sev', severity?_eq_some_iff.2 hsev⟩, hdef, hoff, hhold,
      htrk, fun h => (trackingInRange_iff j).1 (hrange h)⟩
  refine ⟨fun hj => exec_eq_replied rfl rfl ht (if_pos hj), fun hj hbad => ?_, fun hj hs h1 h2 => ?_,
    fun hj hs hpl hm => ?_, fun hj hs hpl hm hsev => ?_⟩
  · exact exec_eq_replied rfl rfl ht (takeJobStart_outOfRange hj fun _ _ h1 h2 => hbad (hunsound _ _ h1 h2))
  · obtain ⟨⟨params', hp⟩, htr⟩ := hsound hs
    exact exec_eq_replied rfl rfl ht (takeJobStart_noPlan hp htr hj ⟨h1, h2⟩)
  · obtain ⟨⟨params', hp⟩, htr⟩ := hsound hs
    exact exec_eq_replied rfl rfl ht (takeJobStart_moving hp htr hj hpl hm)
  · obtain ⟨⟨params', hp⟩, htr⟩ := hsound hs
    obtain ⟨hfields, sev', hsev', hparams⟩ := jobParams?_eq_some_iff.1 hp
    have hone : sev' = sev := Severity.rank_injective (hsev'.trans hsev.symm)
    subst hone hparams
    have hnumber : j.job ≤ 65535 := hs.1.2
    refine exec_eq_replied rfl rfl ht ((takeJobStart_done hp htr hj hpl hm).trans ?_)
    rw [startJob_eq, fieldU_two hnumber]
    rfl

/-- Settles O38: both lists emptied and counted. -/
theorem jobEndEmptiesQueueAndList : Obligations.JobEndEmptiesQueueAndList := by
  refine fun p s ht => ⟨fun hj => exec_eq_replied rfl rfl ht (if_pos hj), fun hj => exec_eq_replied rfl rfl ht ?_⟩
  rw [takeJobEnd, if_neg (not_not.2 hj)]
  simp only [endJob, emptyStops, PathQueue.endJob, flowFields, List.append_assoc]
  rfl

end Sys2Proof.Machine
end

