-- ==== Sys2Proof/Proofs/Bytes.lean ====
section
/-! SUPPORT. Bytes of frames (10.3, 13.1): the number that a field spells, where a field stands in the bytes put after one
another, and the check byte. -/

namespace Sys2Proof.Machine

/-! ## The number that bytes spell (13.1) -/

theorem valueOf_foldl (bs : List Byte) (a : Nat) :
    bs.foldl (fun a b => a * 256 + b.toNat) a = a * 256 ^ bs.length + valueOf bs := by
  unfold valueOf
  induction bs generalizing a with
  | nil => simp
  | cons b bs ih =>
    rw [List.foldl_cons, List.foldl_cons, ih, ih (0 * 256 + b.toNat), List.length_cons, pow_succ]
    ring

theorem valueOf_cons (b : Byte) (bs : List Byte) : valueOf (b :: bs) = b.toNat * 256 ^ bs.length + valueOf bs := by
  conv_lhs => rw [valueOf, List.foldl_cons, valueOf_foldl]
  rw [Nat.zero_mul, Nat.zero_add]

/-- The low bytes of a number spell it, modulo their width. -/
theorem valueOf_bytesOf (n v : Nat) : valueOf (bytesOf n v) = v % 256 ^ n := by
  induction n with
  | zero => simp [bytesOf, valueOf, Nat.mod_one]
  | succ n ih =>
    rw [bytesOf, valueOf_cons, ih, bytesOf_length, BitVec.toNat_ofNat, Nat.mod_pow_succ (b := 256), Nat.add_comm, Nat.mul_comm]

theorem valueOf_bytesOf_of_lt {n v : Nat} (h : v < 256 ^ n) : valueOf (bytesOf n v) = v := by
  rw [valueOf_bytesOf, Nat.mod_eq_of_lt h]

/-- The bytes of a signed field spell its figure, two's complement (13.1). -/
theorem signedOf_bytesOf {n : Nat} {v : Int} (h1 : -(256 ^ n : Int) ≤ 2 * v) (h2 : 2 * v < (256 ^ n : Int)) :
    signedOf (bytesOf n (v % (256 ^ n : Int)).toNat) = v := by
  have hpos : (0 : Int) < 256 ^ n := by positivity
  have hcast : ((256 ^ n : Nat) : Int) = (256 : Int) ^ n := by push_cast; rfl
  have hlt : (v % (256 ^ n : Int)).toNat < 256 ^ n := by
    have := Int.emod_lt_of_pos v hpos
    have := Int.emod_nonneg v hpos.ne'
    omega
  have hsplit : v % (256 ^ n : Int) = if 0 ≤ v then v else v + 256 ^ n := by
    split
    next hv => exact Int.emod_eq_of_lt hv (by omega)
    next hv =>
      rw [← Int.add_emod_right]
      exact Int.emod_eq_of_lt (by omega) (by omega)
  rw [signedOf, bytesOf_length, valueOf_bytesOf_of_lt hlt, hsplit]
  split <;> split <;> omega

/-! ## Fields put after one another -/

theorem readU_append_right {a b : List Byte} {off n : Nat} (h : a.length ≤ off) :
    readU (a ++ b) off n = readU b (off - a.length) n := by
  rw [readU, readU, List.drop_append, List.drop_eq_nil_of_le h, List.nil_append]

theorem readS_append_right {a b : List Byte} {off n : Nat} (h : a.length ≤ off) :
    readS (a ++ b) off n = readS b (off - a.length) n := by
  rw [readS, readS, List.drop_append, List.drop_eq_nil_of_le h, List.nil_append]

theorem take_drop_append_left {a b : List Byte} {off n : Nat} (h : off + n ≤ a.length) :
    ((a ++ b).drop off).take n = (a.drop off).take n := by
  rw [List.drop_append_of_le_length (by omega), List.take_append_of_le_length (by rw [List.length_drop]; omega)]

theorem readU_append_left {a b : List Byte} {off n : Nat} (h : off + n ≤ a.length) :
    readU (a ++ b) off n = readU a off n := by
  rw [readU, readU, take_drop_append_left h]

theorem readS_append_left {a b : List Byte} {off n : Nat} (h : off + n ≤ a.length) :
    readS (a ++ b) off n = readS a off n := by
  rw [readS, readS, take_drop_append_left h]

theorem readU_whole {a : List Byte} {n : Nat} (h : a.length = n) : readU a 0 n = valueOf a := by
  rw [readU, List.drop_zero, List.take_of_length_le h.le]

theorem readS_whole {a : List Byte} {n : Nat} (h : a.length = n) : readS a 0 n = signedOf a := by
  rw [readS, List.drop_zero, List.take_of_length_le h.le]

theorem readU_bytesOf {n v : Nat} (h : v < 256 ^ n) : readU (bytesOf n v) 0 n = v := by
  rw [readU_whole (bytesOf_length n v), valueOf_bytesOf_of_lt h]

theorem readS_signedBytes {n : Nat} {v : Int} (h1 : -(256 ^ n : Int) ≤ 2 * v) (h2 : 2 * v < (256 ^ n : Int)) :
    readS (signedBytes n v) 0 n = v := by
  rw [readS_whole (signedBytes_length n v), signedBytes, signedOf_bytesOf h1 h2]

/-! ## Reply fields -/

@[simp] theorem fieldU_length (n v : Nat) : (fieldU n v).length = n := by
  unfold fieldU
  split <;> exact bytesOf_length _ _

@[simp] theorem fieldS_length (n : Nat) (v : Int) : (fieldS n v).length = n := by
  unfold fieldS
  split <;> exact bytesOf_length _ _

theorem readU_fieldU {n v : Nat} (h : v < 256 ^ n) : readU (fieldU n v) 0 n = v := by
  rw [fieldU, if_pos h, readU_bytesOf h]

theorem readS_fieldS {n : Nat} {v : Int} (h1 : -(256 ^ n : Int) ≤ 2 * v) (h2 : 2 * v < (256 ^ n : Int)) :
    readS (fieldS n v) 0 n = v := by
  rw [fieldS, if_pos ⟨h1, h2⟩, readS_whole (bytesOf_length _ _), signedOf_bytesOf h1 h2]

/-- The items of a list in fields of one width each stand at multiples of that width. -/
theorem drop_flatMap {α : Type} {f : α → List Byte} {w : Nat} (hf : ∀ x, (f x).length = w) {l : List α} {i : Nat} {x : α}
    (hx : l[i]? = some x) : (l.flatMap f).drop (w * i) = f x ++ (l.drop (i + 1)).flatMap f := by
  induction l generalizing i with
  | nil => simp at hx
  | cons y l ih =>
    cases i with
    | zero =>
      obtain rfl : y = x := by simpa using hx
      simp
    | succ i =>
      rw [List.getElem?_cons_succ] at hx
      rw [List.flatMap_cons, List.drop_append, List.drop_eq_nil_of_le (by rw [hf]; exact Nat.le_mul_of_pos_right w i.succ_pos),
        List.nil_append, hf, Nat.mul_succ, Nat.add_sub_cancel, ih hx, List.drop_succ_cons]

theorem length_flatMap_of_width {α : Type} {f : α → List Byte} {w : Nat} (hf : ∀ x, (f x).length = w) (l : List α) :
    (l.flatMap f).length = w * l.length := by
  simp [List.length_flatMap, hf, Nat.mul_comm]

theorem readU_flatMap {α : Type} {f : α → List Byte} {w : Nat} (hf : ∀ x, (f x).length = w) {l : List α} {i k n : Nat} {x : α}
    (hx : l[i]? = some x) (hk : k + n ≤ w) : readU (l.flatMap f) (w * i + k) n = readU (f x) k n := by
  rw [readU, ← List.drop_drop, drop_flatMap hf hx, ← readU, readU_append_left (by rw [hf]; exact hk)]

theorem readS_flatMap {α : Type} {f : α → List Byte} {w : Nat} (hf : ∀ x, (f x).length = w) {l : List α} {i k n : Nat} {x : α}
    (hx : l[i]? = some x) (hk : k + n ≤ w) : readS (l.flatMap f) (w * i + k) n = readS (f x) k n := by
  rw [readS, ← List.drop_drop, drop_flatMap hf hx, ← readS, readS_append_left (by rw [hf]; exact hk)]

/-! ## The check byte (10.3) -/

theorem frameSum_toNat (bs : List Byte) : (frameSum bs).toNat = (bs.map BitVec.toNat).sum % 256 := by
  induction bs with
  | nil => rfl
  | cons b bs ih =>
    rw [frameSum, List.foldr_cons, ← frameSum, BitVec.toNat_add, ih, List.map_cons, List.sum_cons, Nat.add_mod_mod]

theorem frameSum_eq_zero_iff (bs : List Byte) : frameSum bs = 0 ↔ (bs.map BitVec.toNat).sum % 256 = 0 := by
  rw [← frameSum_toNat, ← BitVec.toNat_inj]
  rfl

theorem frameSum_append (a b : List Byte) : frameSum (a ++ b) = frameSum a + frameSum b := by
  induction a with
  | nil => exact (BitVec.zero_add _).symm
  | cons x a ih =>
    have hcons (l : List Byte) : frameSum (x :: l) = x + frameSum l := rfl
    rw [List.cons_append, hcons, ih, hcons, BitVec.add_assoc]

theorem frameSum_withCheck (bs : List Byte) : frameSum (withCheck bs) = 0 := by
  rw [withCheck, frameSum_append]
  simp [frameSum]

end Sys2Proof.Machine
end

