-- ==== Sys2Proof/Proofs/PortsAndReplies.lean ====
section
/-! PROOFS. The station ports: what a transaction makes of its port (R172 to R178), which requests a port turns away (R173, R174,
R179), and the reply to a request taken (R176). -/

namespace Sys2Proof.Machine

/-! ## The checks of a frame (R174) -/

/-- The frame passes the checks of length and sum (R174). -/
def IsFramed (bytes : List Byte) (cut : Bool) : Prop :=
  cut = false ∧ 3 ≤ bytes.length ∧ (bytes.getD 1 0).toNat ≤ 200 ∧ bytes.length = 3 + (bytes.getD 1 0).toNat ∧
    (bytes.map BitVec.toNat).sum % 256 = 0

theorem readU_one_eq (bytes : List Byte) (h : 2 ≤ bytes.length) : readU bytes 1 1 = (bytes.getD 1 0).toNat := by
  match bytes, h with
  | a :: b :: rest, _ => simp [readU, valueOf]

theorem isFramed_iff (bytes : List Byte) (cut : Bool) :
    IsFramed bytes cut ↔ cut = false ∧ frameLengthOk bytes = true ∧ frameSum bytes = 0 := by
  rw [frameSum_eq_zero_iff, frameLengthOk, IsFramed]
  by_cases h : 3 ≤ bytes.length
  · simp [readU_one_eq bytes (by omega), and_assoc]
  · simp [h]

theorem framePayload_eq {bytes : List Byte} {cut : Bool} (h : IsFramed bytes cut) :
    framePayload bytes = (bytes.drop 2).take (bytes.getD 1 0).toNat := by
  rw [framePayload, readU_one_eq bytes (by have := h.2.1; omega)]

theorem checkFrame_unframed {bytes : List Byte} {cut : Bool} (h : ¬ IsFramed bytes cut) (p : Port) :
    checkFrame p bytes cut = .answer .frameError := by
  rw [isFramed_iff] at h
  unfold checkFrame
  cases cut with
  | true => rfl
  | false =>
    cases hl : frameLengthOk bytes with
    | false => rfl
    | true =>
      have hs : frameSum bytes ≠ 0 := fun hs => h ⟨rfl, hl, hs⟩
      exact if_pos hs

theorem checkFrame_framed {bytes : List Byte} {cut : Bool} (h : IsFramed bytes cut) (p : Port) :
    checkFrame p bytes cut =
      match Kind.ofByte (bytes.headD 0) with
      | none => .answer .unknownKind
      | some k =>
        if k.permitted p = false then .answer .notPermitted
        else
          match readRequest p k ((bytes.drop 2).take (bytes.getD 1 0).toNat) with
          | none => .answer .frameError
          | some i => .dispatch i := by
  rw [← framePayload_eq h]
  obtain ⟨hc, hl, hs⟩ := (isFramed_iff bytes cut).1 h
  simp only [checkFrame, hc, hl, hs, Bool.false_eq_true, Bool.true_eq_false, if_false, ne_eq, not_true_eq_false] <;> rfl

section Permitted
variable {bytes : List Byte} {cut : Bool} (h : IsFramed bytes cut) {k : Kind}
  (hk : Kind.ofByte (bytes.headD 0) = some k) {p : Port} (hp : k.permitted p = true)
include h hk hp

theorem checkFrame_unreadable (hq : readRequest p k ((bytes.drop 2).take (bytes.getD 1 0).toNat) = none) :
    checkFrame p bytes cut = .answer .frameError := by
  rw [checkFrame_framed h, hk]
  simp only [hp, Bool.true_eq_false, if_false, hq]

theorem checkFrame_read {i : Instr} (hq : readRequest p k ((bytes.drop 2).take (bytes.getD 1 0).toNat) = some i) :
    checkFrame p bytes cut = .dispatch i := by
  rw [checkFrame_framed h, hk]
  simp only [hp, Bool.true_eq_false, if_false, hq]

end Permitted

/-! ## Transactions (R172, R173, R177, R178) -/

theorem PortRegs.send_of_ready {r : PortRegs} {early : Bool} (h : r.atSelect early = .ready) (inReset : Bool) (p : Port)
    (bytes : List Byte) (cut : Bool) : r.send inReset ⟨p, early⟩ bytes cut =
      (PortRegs.takeFrame { r with sdo := statusAndFiller .ready bytes.length } p bytes cut).release := by
  simp only [PortRegs.send, h]

theorem PortRegs.send_of_not_ready {r : PortRegs} {early : Bool} (h : r.atSelect early ≠ .ready) (inReset : Bool) (p : Port)
    (bytes : List Byte) (cut : Bool) : r.send inReset ⟨p, early⟩ bytes cut =
      (PortRegs.discard { r with sdo := statusAndFiller (r.atSelect early) bytes.length } inReset).release := by
  unfold PortRegs.send
  cases hs : r.atSelect early with
  | ready => exact absurd hs h
  | _ => rfl

section ReadyPort
variable {p : Port} {early : Bool} {bytes : List Byte} {cut : Bool} {s : State}
  (h : (s.port p).atSelect early = .ready)
include h

theorem exec_send_answer {st : Status} (hv : checkFrame p bytes cut = .answer st) :
    exec (.send ⟨p, early⟩ bytes cut) s = .next (s.withPort p { s.port p with
      state := .reply, noted := .reply, received := [], request := none,
      sdo := statusAndFiller ((s.port p).atSelect early) bytes.length,
      reply := replyFrame (bytes.headD 0) (.refused st) }) := by
  refine congrArg Host.Outcome.next (congrArg (s.withPort p) ?_)
  rw [PortRegs.send_of_ready h, PortRegs.takeFrame, hv, h]
  rfl

theorem exec_send_dispatch {i : Instr} (hv : checkFrame p bytes cut = .dispatch i) :
    exec (.send ⟨p, early⟩ bytes cut) s = .next (s.withPort p { s.port p with
      state := .working, noted := .working, received := bytes, request := some i,
      sdo := statusAndFiller ((s.port p).atSelect early) bytes.length }) := by
  refine congrArg Host.Outcome.next (congrArg (s.withPort p) ?_)
  rw [PortRegs.send_of_ready h, PortRegs.takeFrame, hv, h]
  rfl

end ReadyPort

theorem exec_send_discard {p : Port} {early : Bool} {s : State} (h : (s.port p).atSelect early ≠ .ready) (bytes : List Byte)
    (cut : Bool) : exec (.send ⟨p, early⟩ bytes cut) s = .next (s.withPort p
      (PortRegs.discard { s.port p with sdo := statusAndFiller ((s.port p).atSelect early) bytes.length }
        s.time.inReset).release) :=
  congrArg Host.Outcome.next (congrArg (s.withPort p) (PortRegs.send_of_not_ready h _ p bytes cut))

/-- Settles O41: outside READY the frame is discarded; in READY the first check that fails decides. -/
theorem sendIsCheckedInOrder : Obligations.SendIsCheckedInOrder := by
  refine ⟨?_, fun p early first clocked s => rfl⟩
  intro p early bytes cut s r st size framed sdo out answered
  refine ⟨fun h hr => ?_, fun h hr => ?_, fun h hf => exec_send_answer h (checkFrame_unframed hf p), fun h hf hk => ?_,
    fun k h hf hk => ⟨fun hp => ?_, fun hp hq => ?_, fun i hp hq => ?_⟩⟩
  · exact (exec_send_discard h bytes cut).trans (by rw [hr]; rfl)
  · exact (exec_send_discard h bytes cut).trans (by rw [hr]; rfl)
  · exact exec_send_answer h (by rw [checkFrame_framed hf, hk])
  · exact exec_send_answer h (by rw [checkFrame_framed hf, hk]; exact if_pos hp)
  · exact exec_send_answer h (checkFrame_unreadable hf hk hp hq)
  · exact exec_send_dispatch h (checkFrame_read hf hk hp hq)

theorem exec_fetch (p : Port) (early : Bool) (clocked : Nat) (s : State) :
    exec (.fetch ⟨p, early⟩ clocked) s = .next (s.withPort p ((s.port p).fetch early clocked)) := rfl

/-- Settles O42: the reply in full, in part, and none. -/
theorem fetchReadsTheReplyInFull : Obligations.FetchReadsTheReplyInFull := by
  intro p early clocked s r selected
  refine ⟨fun h hfull => ?_, fun h hpart => ?_, fun st h hne => ?_⟩
  · have hat : (s.port p).atSelect early = .reply := h
    have hfull' : (s.port p).reply.length ≤ clocked := hfull
    simp only [exec_fetch, PortRegs.fetch, hat, if_pos hfull', List.take_of_length_le hfull']
    rfl
  · have hat : (s.port p).atSelect early = .reply := h
    have hpart' : clocked < (s.port p).reply.length := hpart
    have hnone : clocked - (s.port p).reply.length = 0 := by omega
    simp only [exec_fetch, PortRegs.fetch, hat, if_neg (Nat.not_le.2 hpart'), hnone, List.replicate_zero, List.append_nil]
    rfl
  · have hat : (s.port p).atSelect early = st := h
    rw [exec_fetch, PortRegs.fetch]
    cases st with
    | reply => exact absurd rfl hne
    | _ => simp only [hat]; rfl

/-! ## Requests turned away (R173, R174, R179) -/

/-- Settles O43: the table of R179, and the branches of the passage in which no block takes the request. -/
theorem requestsAreTurnedAwayAtThePort : Obligations.RequestsAreTurnedAwayAtThePort := by
  refine ⟨fun k => by cases k <;> decide, fun i p k payload s hi => ?_⟩
  obtain ⟨f, -, hexec⟩ := exec_request hi
  rw [hexec s]
  refine ⟨fun hs hk => ?_, fun hs hr => ?_⟩
  · simp only [serve, hs, hk, Bool.false_eq_true, if_false]
    rfl
  · have hdiscard : serve p k i s f = s.withPort p ((s.port p).discard s.time.inReset).release := by
      rcases hs with hs | hs | ⟨hs, hq⟩
      · simp only [serve, hs]
      · simp only [serve, hs]
      · simp only [serve, hs, if_neg hq]
    rw [hdiscard, hr]
    rfl

end Sys2Proof.Machine
end

