-- ==== Sys2Proof/Proofs/ReplyLayouts.lean ====
section
/-! PROOFS. The reads (R180 to R183, R189, 13.3 to 13.9): where each figure stands in its reply. A payload is its fields put after
one another, so a field is found by passing over those before it. -/

namespace Sys2Proof.Machine

/-! ## Passing over fields -/

@[simp] theorem readU_pass_fieldU {w v off n : Nat} {b : List Byte} (h : w ≤ off) :
    readU (fieldU w v ++ b) off n = readU b (off - w) n := by
  rw [readU_append_right (by simpa using h), fieldU_length]

@[simp] theorem readU_pass_fieldS {w off n : Nat} {v : Int} {b : List Byte} (h : w ≤ off) :
    readU (fieldS w v ++ b) off n = readU b (off - w) n := by
  rw [readU_append_right (by simpa using h), fieldS_length]

@[simp] theorem readS_pass_fieldU {w v off n : Nat} {b : List Byte} (h : w ≤ off) :
    readS (fieldU w v ++ b) off n = readS b (off - w) n := by
  rw [readS_append_right (by simpa using h), fieldU_length]

@[simp] theorem readS_pass_fieldS {w off n : Nat} {v : Int} {b : List Byte} (h : w ≤ off) :
    readS (fieldS w v ++ b) off n = readS b (off - w) n := by
  rw [readS_append_right (by simpa using h), fieldS_length]

@[simp] theorem readU_first {n v : Nat} (b : List Byte) : readU (fieldU n v ++ b) 0 n = readU (fieldU n v) 0 n :=
  readU_append_left (by simp)

@[simp] theorem readS_first {n : Nat} {v : Int} (b : List Byte) : readS (fieldS n v ++ b) 0 n = readS (fieldS n v) 0 n :=
  readS_append_left (by simp)

theorem flagBit_le (n : Nat) (b : Bool) : flagBit n b ≤ 2 ^ n := by cases b <;> simp [flagBit]

/-! ## READ-STATUS (R180, 13.5) -/

/-- Six flags as the bits of a number (13.1). -/
theorem testBit_flags (b0 b1 b2 b3 b4 b5 : Bool) :
    let w : Nat := flagBit 0 b0 + flagBit 1 b1 + flagBit 2 b2 + flagBit 3 b3 + flagBit 4 b4 + flagBit 5 b5
    w < 64 ∧ w.testBit 0 = b0 ∧ w.testBit 1 = b1 ∧ w.testBit 2 = b2 ∧ w.testBit 3 = b3 ∧ w.testBit 4 = b4 ∧
      w.testBit 5 = b5 := by
  revert b0 b1 b2 b3 b4 b5
  decide

theorem headFields_eq (pl : StopPlanner) : headFields pl =
    fieldU 1 (match pl.head with | none => 0 | some e => e.id) ++
      fieldU 1 (match pl.head with | none => 0 | some e => if e.active then 2 else 1) := by
  unfold headFields
  split <;> simp_all

theorem exec_readStatus {p : Port} {s : State} (h : s.Takes p .readStatus (.readStatus p)) :
    exec (.readStatus p) s = .next (s.replied p .readStatus .done (statusPayload s)) := exec_eq_replied rfl rfl h rfl

theorem statusPayload_length (s : State) : (statusPayload s).length = 29 := by simp [statusPayload, headFields_eq]

theorem mem_of_head {pl : StopPlanner} {e : StopEntry} (h : pl.head = some e) : e ∈ pl.entries := by
  unfold StopPlanner.head at h
  rcases Option.or_eq_some_iff.1 h with ha | ⟨-, hh⟩
  · exact (activeEntry_mem ha).1
  · exact List.mem_of_head? hh

/-- Where the fields of 13.5 stand. -/
theorem statusPayload_fields (s : State) :
    let bytes : List Byte := statusPayload s
    readU bytes 0 4 = readU (fieldU 4 s.p) 0 4 ∧ readU bytes 4 2 = readU (fieldU 2 s.motion.speed) 0 2 ∧
    readU bytes 6 4 = readU (fieldU 4 s.motion.braking) 0 4 ∧ readU bytes 10 1 = readU (fieldU 1 (statusFlags s)) 0 1 ∧
    readU bytes 11 1 = readU (fieldU 1 s.motion.report.code) 0 1 ∧
    readU bytes 12 1 = readU (fieldU 1 s.job.state.code) 0 1 ∧
    readU bytes 13 2 = readU (fieldU 2 s.job.params.number) 0 2 ∧ readU bytes 15 2 = readU (fieldU 2 s.job.setCounter) 0 2 ∧
    readU bytes 17 4 = readU (fieldU 4 s.rollLengthRead) 0 4 ∧
    readU bytes 21 2 = readU (fieldU 2 (planId s.plans.active)) 0 2 ∧
    readU bytes 23 2 = readU (fieldU 2 (planId s.plans.staged)) 0 2 ∧
    readU bytes 25 1 = readU (fieldU 1 s.tracker.state.code) 0 1 ∧
    readU bytes 26 1 = readU (fieldU 1 s.stops.entries.length) 0 1 ∧
    readU bytes 27 1 = readU (fieldU 1 (match s.stops.head with | none => 0 | some e => e.id)) 0 1 ∧
    readU bytes 28 1 =
      readU (fieldU 1 (match s.stops.head with | none => 0 | some e => if e.active then 2 else 1)) 0 1 := by
  simp [statusPayload, headFields_eq]

/-- Settles O46: each figure is within its field, and the flags are the bits of one. -/
theorem statusReplyHoldsTheStateAtItsOffsets : Obligations.StatusReplyHoldsTheStateAtItsOffsets := by
  intro p s ht hp hv hb hj hc hpa hps hl hid
  have htop : topOfPosition = 4294967295 := rfl
  obtain ⟨fp, fv, fb, fflags, freport, fjob, fnum, fset, froll, fact, fstg, ftrk, fcount, fhead, fstate⟩ :=
    statusPayload_fields s
  obtain ⟨hw, h0, h1, h2, h3, h4, h5⟩ := testBit_flags (decide (s.motion.direction = .reverse)) s.motion.standstill
    s.stopAsserted (decide (s.length.active = .b)) s.length.a.silent s.length.b.silent
  have hflags : readU (statusPayload s) 10 1 = statusFlags s := by
    rw [fflags, readU_fieldU (lt_trans (by exact hw) (by decide))]
  have hroll : s.rollLengthRead = match s.roll.windingSet with | none => 0 | some r => s.length.p - r.start := by
    unfold State.rollLengthRead
    cases s.roll.windingSet <;> rfl
  have hrolled : s.rollLengthRead ≤ s.length.p := by
    rw [hroll]
    split <;> omega
  have hheadId : (match s.stops.head with | none => 0 | some e => e.id) < 256 ^ 1 := by
    split
    · decide
    next e he => exact hid e (mem_of_head he)
  have hheadState : (match s.stops.head with | none => 0 | some e => if e.active then 2 else 1) < 256 ^ 1 := by
    split
    · decide
    · split <;> decide
  refine ⟨_, exec_readStatus ht, statusPayload_length s, ?_, ?_, ?_, ?_, ?_, ?_, ?_, ?_, ?_, ?_, ?_, ?_, ?_, ?_, ?_, ?_, ?_, ?_,
    ?_, ?_⟩
  · rw [fp, State.p, readU_fieldU (Nat.lt_of_le_of_lt hp (by decide))]
  · rw [fv, readU_fieldU hv]
  · rw [fb, readU_fieldU (Nat.lt_of_le_of_lt hb (by decide))]
  · rw [hflags, statusFlags, h0, decide_eq_true_iff]
  · rw [hflags, statusFlags, h1]
  · rw [hflags, statusFlags, h2, State.stopAsserted, List.any_eq_true]
  · rw [hflags, statusFlags, h3, decide_eq_true_iff]
  · rw [hflags, statusFlags, h4]
  · rw [hflags, statusFlags, h5]
  · rw [freport, readU_fieldU (by cases s.motion.report <;> decide)]
    cases s.motion.report <;> rfl
  · rw [fjob, readU_fieldU (by cases s.job.state <;> simp [JobState.code])]
    cases s.job.state <;> rfl
  · rw [fnum, readU_fieldU hj]
  · rw [fset, readU_fieldU hc]
  · rw [froll, readU_fieldU (Nat.lt_of_le_of_lt (hrolled.trans hp) (by decide)), hroll] <;> rfl
  · rw [fact, readU_fieldU hpa]
  · rw [fstg, readU_fieldU hps]
  · rw [ftrk, readU_fieldU (by cases s.tracker.state <;> simp [TrackerState.code])]
    cases s.tracker.state <;> rfl
  · rw [fcount, readU_fieldU hl]
  · rw [fhead, readU_fieldU hheadId] <;> rfl
  · rw [fstate, readU_fieldU hheadState] <;> rfl

end Sys2Proof.Machine
end

