-- ==== Sys2Proof/Proofs/Reads.lean ====
section
/-! PROOFS. The seven reads (R101, R102, R181 to R183, R189): the payload of each against its layout, and the branches of its
taking. -/

namespace Sys2Proof.Machine

/-! ## Items of a payload -/

/-- An item's bytes stand at an offset of a payload. -/
def StandsAt (bytes : List Byte) (off : Nat) (item : List Byte) : Prop := (bytes.drop off).take item.length = item

section Item
variable {bytes item : List Byte} {off : Nat} (h : StandsAt bytes off item)
include h

theorem StandsAt.readU {k n : Nat} (hk : k + n ≤ item.length) : readU bytes (off + k) n = readU item k n := by
  conv_rhs => rw [Machine.readU, ← h, List.drop_take, List.take_take, List.drop_drop, min_eq_left (by omega)]
  rfl

theorem StandsAt.readU_zero {n : Nat} (hn : n ≤ item.length) : Machine.readU bytes off n = Machine.readU item 0 n :=
  h.readU (k := 0) (by omega)

theorem StandsAt.readS {k n : Nat} (hk : k + n ≤ item.length) : readS bytes (off + k) n = readS item k n := by
  conv_rhs => rw [Machine.readS, ← h, List.drop_take, List.take_take, List.drop_drop, min_eq_left (by omega)]
  rfl

end Item

/-- The items of a list in fields of one width each stand behind the head of a payload. -/
theorem standsAt_flatMap {α : Type} {f : α → List Byte} {w : Nat} (hf : ∀ x, (f x).length = w) {head : List Byte} {off : Nat}
    (hh : head.length = off) {l : List α} {i : Nat} {x : α} (hx : l[i]? = some x) :
    StandsAt (head ++ l.flatMap f) (off + w * i) (f x) := by
  rw [StandsAt, ← List.drop_drop, ← hh, List.drop_left, drop_flatMap hf hx, List.take_left]

/-! ## Lane records (13.6) -/

theorem laneStatusFields_eq (st : LaneStatus) : laneStatusFields st =
    fieldU 1 (match st with | .good => 0 | .hold _ => 1 | .reject => 2) ++
      fieldU 1 (match st with | .hold (some .spliceLimit) => 1 | .hold (some .critical) => 2 | _ => 0) := by
  match st with
  | .good => rfl
  | .hold none => rfl
  | .hold (some .spliceLimit) => rfl
  | .hold (some .critical) => rfl
  | .reject => rfl

@[simp] theorem laneFields_length (x : LaneRecord) : (laneFields x).length = 12 := by
  simp [laneFields, laneStatusFields_eq]

theorem holdsLane_of_standsAt {bytes : List Byte} {off : Nat} {x : LaneRecord} (h : StandsAt bytes off (laneFields x)) :
    HoldsLane bytes off x := by
  have hl : (laneFields x).length = 12 := laneFields_length x
  refine ⟨fun hv => ?_, ?_, ?_, fun hv => ?_, fun hv => ?_, fun hv => ?_, fun hv => ?_, fun hv => ?_⟩
  · rw [h.readU_zero (by omega)]
    simp [laneFields, readU_fieldU hv]
  · rw [h.readU (by omega)]
    cases hst : x.status <;> simp [laneFields, laneStatusFields_eq, hst, readU_fieldU]
  · rw [h.readU (by omega)]
    match hst : x.status with
    | .good => simp [laneFields, laneStatusFields_eq, hst, readU_fieldU]
    | .hold none => simp [laneFields, laneStatusFields_eq, hst, readU_fieldU]
    | .hold (some .spliceLimit) => simp [laneFields, laneStatusFields_eq, hst, readU_fieldU]
    | .hold (some .critical) => simp [laneFields, laneStatusFields_eq, hst, readU_fieldU]
    | .reject => simp [laneFields, laneStatusFields_eq, hst, readU_fieldU]
  all_goals
    rw [h.readU (by omega)]
    simp [laneFields, laneStatusFields_eq, readU_fieldU hv]

/-! ## READ-SET (R101, R197, 13.6) -/

/-- Four flags as the bits of a number (13.1). -/
theorem testBit_marks (b0 b1 b2 b3 : Bool) :
    let w : Nat := flagBit 0 b0 + flagBit 1 b1 + flagBit 2 b2 + flagBit 3 b3
    w < 16 ∧ w.testBit 0 = b0 ∧ w.testBit 1 = b1 ∧ w.testBit 2 = b2 ∧ w.testBit 3 = b3 := by
  revert b0 b1 b2 b3
  decide

/-- The head of a READ-SET payload, before that many lane records. -/
def setHead (p : Nat) (m : RollMap) (n : Nat) (x : Slot) (r : SetRecord) (first count : Nat) : List Byte :=
  fieldU 1 n ++ fieldU 1 x.code ++ fieldU 1 (m.closeOrder n) ++ fieldU 2 r.job ++ fieldU 2 r.number ++ fieldU 2 r.plan ++
  fieldU 1 r.lanes.length ++ fieldU 4 r.start ++ fieldU 4 (r.target.getD 0) ++ fieldU 4 (setLengthRead p x r) ++
  fieldU 1 (setMarks x r) ++ fieldU 4 (r.mixed.getD 0) ++ fieldU 2 r.trimTally ++ fieldU 2 r.unplacedTally ++
  fieldU 2 r.removedTally ++ fieldU 2 r.repeatTally ++ fieldU 2 r.markFaultTally ++ fieldU 2 r.unwoundCount ++
  fieldU 1 first ++ fieldU 1 count

theorem setPayload_eq (p : Nat) (m : RollMap) (n : Nat) (x : Slot) (r : SetRecord) (first : Nat) :
    setPayload p m n x r first =
      setHead p m n x r first (lanesFrom first r).length ++ (lanesFrom first r).flatMap laneFields := rfl

theorem setHead_length (p : Nat) (m : RollMap) (n : Nat) (x : Slot) (r : SetRecord) (first count : Nat) :
    (setHead p m n x r first count).length = 41 := by
  unfold setHead
  simp

theorem lanesFrom_length (first : Nat) (r : SetRecord) :
    (lanesFrom first r).length = min 12 (r.lanes.length - (first - 1)) := by simp [lanesFrom]

theorem closeOrder_eq (m : RollMap) (n : Nat) :
    m.closeOrder n = if n ∈ m.closeList then m.closeList.idxOf n + 1 else 0 := by
  unfold RollMap.closeOrder
  split
  next h => rw [if_neg (List.idxOf?_eq_none_iff.1 h)]
  next i h =>
    have hmem : n ∈ m.closeList := by
      by_contra hn
      rw [List.idxOf?_eq_none_iff.2 hn] at h
      cases h
    rw [if_pos hmem, List.idxOf_eq_getD_idxOf?, h]
    rfl

theorem setLengthRead_eq (s : State) (n : Nat) (r : SetRecord) : setLengthRead s.p (s.roll.slot n) r =
    match s.roll.slot n with | .winding _ => s.length.p - r.start | _ => r.closedLength.getD 0 := by
  cases s.roll.slot n <;> rfl

section SetHead
variable {p : Nat} {m : RollMap} {n : Nat} {x : Slot} {r : SetRecord} {first count : Nat}

/-- Where the fields of 13.6 stand before the lane records. -/
theorem setHead_fields :
    let bytes : List Byte := setHead p m n x r first count
    (readU bytes 0 1 = readU (fieldU 1 n) 0 1 ∧ readU bytes 1 1 = readU (fieldU 1 x.code) 0 1 ∧
      readU bytes 2 1 = readU (fieldU 1 (m.closeOrder n)) 0 1 ∧ readU bytes 3 2 = readU (fieldU 2 r.job) 0 2 ∧
      readU bytes 5 2 = readU (fieldU 2 r.number) 0 2 ∧ readU bytes 7 2 = readU (fieldU 2 r.plan) 0 2 ∧
      readU bytes 9 1 = readU (fieldU 1 r.lanes.length) 0 1 ∧ readU bytes 10 4 = readU (fieldU 4 r.start) 0 4 ∧
      readU bytes 14 4 = readU (fieldU 4 (r.target.getD 0)) 0 4 ∧
      readU bytes 18 4 = readU (fieldU 4 (setLengthRead p x r)) 0 4) ∧
    (readU bytes 22 1 = readU (fieldU 1 (setMarks x r)) 0 1 ∧ readU bytes 23 4 = readU (fieldU 4 (r.mixed.getD 0)) 0 4 ∧
      readU bytes 27 2 = readU (fieldU 2 r.trimTally) 0 2 ∧ readU bytes 29 2 = readU (fieldU 2 r.unplacedTally) 0 2 ∧
      readU bytes 31 2 = readU (fieldU 2 r.removedTally) 0 2 ∧ readU bytes 33 2 = readU (fieldU 2 r.repeatTally) 0 2 ∧
      readU bytes 35 2 = readU (fieldU 2 r.markFaultTally) 0 2 ∧ readU bytes 37 2 = readU (fieldU 2 r.unwoundCount) 0 2 ∧
      readU bytes 39 1 = readU (fieldU 1 first) 0 1 ∧ readU bytes 40 1 = readU (fieldU 1 count) 0 1) := by
  intro bytes
  unfold bytes setHead
  simp

end SetHead

/-- The payload of READ-SET holds its figures (13.6). -/
theorem setPayload_holds (n : Nat) (r : SetRecord) (first : Nat) (s : State) :
    HoldsSet (setPayload s.p s.roll n (s.roll.slot n) r first) n r first s := by
  have hcount : (lanesFrom first r).length = min 12 (r.lanes.length - (first - 1)) := lanesFrom_length first r
  obtain ⟨hw, hb0, hb1, hb2, hb3⟩ := testBit_marks (match s.roll.slot n with | .released _ => true | _ => false)
    r.mapIncomplete r.lengthFallback r.mixed.isSome
  have hhead {off k : Nat} (h : off + k ≤ 41) : readU (setPayload s.p s.roll n (s.roll.slot n) r first) off k =
      readU (setHead s.p s.roll n (s.roll.slot n) r first (lanesFrom first r).length) off k := by
    rw [setPayload_eq, readU_append_left (by rw [setHead_length]; exact h)]
  obtain ⟨⟨f0, f1, f2, f3, f5, f7, f9, f10, f14, f18⟩, f22, f23, f27, f29, f31, f33, f35, f37, f39, f40⟩ :=
    setHead_fields (p := s.p) (m := s.roll) (n := n) (x := s.roll.slot n) (r := r) (first := first)
      (count := (lanesFrom first r).length)
  have hmarks : readU (setPayload s.p s.roll n (s.roll.slot n) r first) 22 1 = setMarks (s.roll.slot n) r := by
    rw [hhead (by decide), f22, readU_fieldU (lt_trans (by exact hw) (by decide))]
  refine ⟨?_, fun hv => ?_, ?_, fun hv => ?_, fun hv => ?_, fun hv => ?_, fun hv => ?_, fun hv => ?_, fun hv => ?_,
    fun hv => ?_, fun hv => ?_, ?_, ?_, ?_, ?_, fun hv => ?_, fun hv => ?_, fun hv => ?_, fun hv => ?_, fun hv => ?_,
    fun hv => ?_, fun hv => ?_, fun hv => ?_, ?_, ?_⟩
  · rw [setPayload_eq, List.length_append, setHead_length, length_flatMap_of_width laneFields_length, hcount]
  · rw [hhead (by decide), f0, readU_fieldU hv]
  · rw [hhead (by decide), f1]
    cases s.roll.slot n <;> simp [Slot.code, readU_fieldU]
  · rw [← closeOrder_eq] at hv ⊢
    rw [hhead (by decide), f2, readU_fieldU hv]
  · rw [hhead (by decide), f3, readU_fieldU hv]
  · rw [hhead (by decide), f5, readU_fieldU hv]
  · rw [hhead (by decide), f7, readU_fieldU hv]
  · rw [hhead (by decide), f9, readU_fieldU hv]
  · rw [hhead (by decide), f10, readU_fieldU hv]
  · rw [hhead (by decide), f14, readU_fieldU hv]
  · have hlen : setLengthRead s.p (s.roll.slot n) r < 256 ^ 4 := (setLengthRead_eq s n r).trans_lt hv
    rw [hhead (by decide), f18]
    exact (readU_fieldU hlen).trans (setLengthRead_eq s n r)
  · rw [holdsFlag, hmarks]
    exact hb0
  · rw [holdsFlag, hmarks]
    exact hb1
  · rw [holdsFlag, hmarks]
    exact hb2
  · rw [holdsFlag, hmarks]
    exact hb3
  · rw [hhead (by decide), f23, readU_fieldU hv]
  · rw [hhead (by decide), f27, readU_fieldU hv]
  · rw [hhead (by decide), f29, readU_fieldU hv]
  · rw [hhead (by decide), f31, readU_fieldU hv]
  · rw [hhead (by decide), f33, readU_fieldU hv]
  · rw [hhead (by decide), f35, readU_fieldU hv]
  · rw [hhead (by decide), f37, readU_fieldU hv]
  · rw [hhead (by decide), f39, readU_fieldU hv]
  · rw [hhead (by decide), f40, hcount, readU_fieldU (by omega)]
  · intro i hi x hx
    rw [setPayload_eq]
    refine holdsLane_of_standsAt (standsAt_flatMap laneFields_length (setHead_length ..) ?_)
    have hx' : r.lanes[first - 1 + i]? = some x := hx
    rw [lanesFrom, List.getElem?_take_of_lt (by omega), List.getElem?_drop, hx']

/-! ## READ-LANE (R102, 13.7) -/

theorem page_length {α : Type} (top start : Nat) (l : List α) : (page top start l).length = min top (l.length - start) := by
  simp [page]

theorem page_getElem? {α : Type} {top start i : Nat} (h : i < top) (l : List α) : (page top start l)[i]? = l[start + i]? := by
  rw [page, List.getElem?_take_of_lt h, List.getElem?_drop]

/-- Two flags as the bits of a number (13.1). -/
theorem testBit_entryFlags (b0 b1 : Bool) :
    let w : Nat := flagBit 0 b0 + flagBit 1 b1
    w < 4 ∧ w.testBit 0 = b0 ∧ w.testBit 1 = b1 ∧ w = (if b0 then 1 else 0) + (if b1 then 2 else 0) := by
  revert b0 b1
  decide

@[simp] theorem defectFieldsOf_length (e : DefectEntry) : (defectFieldsOf e).length = 16 := by simp [defectFieldsOf]

@[simp] theorem spliceFieldsOf_length (e : SpliceEntry) : (spliceFieldsOf e).length = 9 := by simp [spliceFieldsOf]

theorem holdsDefect_of_standsAt {bytes : List Byte} {off : Nat} {e : DefectEntry} (h : StandsAt bytes off (defectFieldsOf e)) :
    HoldsDefect bytes off e := by
  have hl := defectFieldsOf_length e
  obtain ⟨hw, hb0, hb1, -⟩ := testBit_entryFlags e.oldPlan (!e.wound)
  have hflags : readU bytes (off + 15) 1 = flagBit 0 e.oldPlan + flagBit 1 (!e.wound) := by
    rw [h.readU (by omega)]
    simp [defectFieldsOf, readU_fieldU (n := 1) (lt_trans hw (by decide))]
  refine ⟨fun hv => ?_, fun hv => ?_, fun hv => ?_, ?_, fun hv => ?_, fun h1 h2 => ?_, fun hv => ?_, ?_, ?_⟩
  · rw [h.readU_zero (by omega)]
    simp [defectFieldsOf, readU_fieldU hv]
  · rw [h.readU (by omega)]
    simp [defectFieldsOf, readU_fieldU hv]
  · rw [h.readU (by omega)]
    simp [defectFieldsOf, readU_fieldU hv]
  · rw [h.readU (by omega)]
    cases hs : e.severity <;> simp [defectFieldsOf, hs, Severity.rank, readU_fieldU]
  · rw [h.readU (by omega)]
    simp [defectFieldsOf, readU_fieldU hv]
  · rw [h.readS (by omega)]
    simp [defectFieldsOf, readS_fieldS h1 h2]
  · rw [h.readU (by omega)]
    simp [defectFieldsOf, readU_fieldU hv]
  · rw [holdsFlag, hflags, hb0]
  · rw [holdsFlag, hflags, hb1]

theorem holdsSplice_of_standsAt {bytes : List Byte} {off : Nat} {e : SpliceEntry} (h : StandsAt bytes off (spliceFieldsOf e)) :
    HoldsSplice bytes off e := by
  have hl := spliceFieldsOf_length e
  obtain ⟨hw, -, -, hsum⟩ := testBit_entryFlags e.oldPlan (!e.wound)
  refine ⟨fun hv => ?_, ?_, fun h1 h2 => ?_, ?_⟩
  · rw [h.readU_zero (by omega)]
    simp [spliceFieldsOf, readU_fieldU hv]
  · rw [h.readU (by omega)]
    cases hk : e.kind <;> simp [spliceFieldsOf, hk, readU_fieldU]
  · rw [h.readS (by omega)]
    simp [spliceFieldsOf, readS_fieldS h1 h2]
  · rw [h.readU (by omega)]
    have hflags : readU (spliceFieldsOf e) 8 1 = flagBit 0 e.oldPlan + flagBit 1 (!e.wound) := by
      simp [spliceFieldsOf, readU_fieldU (n := 1) (lt_trans hw (by decide))]
    rw [hflags, hsum]
    cases e.wound <;> rfl

/-- The head of a READ-LANE payload, before that many of its entries. -/
def laneHead (x : LaneRecord) (code count rest : Nat) : List Byte :=
  fieldU 2 x.edits ++ fieldU 1 code ++ fieldU 1 count ++ fieldU 1 rest

section LanePage
variable {α : Type} (x : LaneRecord) (code start : Nat) (l : List α) (f : α → List Byte)

theorem lanePage_eq : lanePage x code start l f =
    laneHead x code (min 10 (l.length - start)) (l.length - start - 10) ++ (page 10 start l).flatMap f := by
  have hrest : l.length - start - min 10 (l.length - start) = l.length - start - 10 := by omega
  rw [lanePage, laneHead, page_length, hrest]

theorem laneHead_length (x : LaneRecord) (code count rest : Nat) : (laneHead x code count rest).length = 5 := by
  simp [laneHead]

theorem lanePage_holds {w : Nat} (hf : ∀ y, (f y).length = w) (hc : code < 256) :
    HoldsLanePage (lanePage x code start l f) x code start l.length w := by
  rw [lanePage_eq]
  refine ⟨?_, fun hv => ?_, ?_, ?_, fun hv => ?_⟩
  · rw [List.length_append, laneHead_length, length_flatMap_of_width hf, page_length]
  · simp [laneHead, readU_fieldU hv]
  · simp [laneHead, readU_fieldU (n := 1) (by simpa using hc)]
  · have hcount : min 10 (l.length - start) < 256 ^ 1 := by omega
    simp [laneHead, readU_fieldU hcount]
  · simp [laneHead, readU_fieldU hv]

theorem standsAt_lanePage {w : Nat} (hf : ∀ y, (f y).length = w) {i : Nat} (hi : i < 10) {e : α} (he : l[start + i]? = some e) :
    StandsAt (lanePage x code start l f) (5 + w * i) (f e) := by
  rw [lanePage_eq]
  exact standsAt_flatMap hf (laneHead_length ..) ((page_getElem? hi l).trans he)

end LanePage

end Sys2Proof.Machine
end

