-- ==== Sys2Proof/Proofs/ReadsOfLists.lean ====
section
/-! PROOFS. READ-QUEUE, READ-STOPS, READ-COUNTERS and READ-EVENTS (R181 to R183, R189), and the branches of the seven reads. -/

namespace Sys2Proof.Machine

/-! ## READ-QUEUE (R181, 13.9) -/

theorem kindFields_eq (k : RecordKind) : kindFields k =
    fieldU 1 (match k with | .defect _ _ _ => 0 | .sensedSplice => 1 | .repairSplice => 2) ++
      (fieldU 2 (match k with | .defect tag _ _ => tag | _ => 0) ++
        (fieldU 1 (match k with | .defect _ cls _ => cls | _ => 0) ++
          fieldU 1 (match k with | .defect _ _ sev => sev.rank | _ => 0))) := by
  cases k <;> simp [kindFields]

theorem slitFields_eq (x : Option LaneRange) : slitFields x =
    fieldU 1 (match x with | none => 0 | some _ => 1) ++
      (fieldU 1 (match x with | none => 0 | some r => r.first) ++
        (fieldU 1 (match x with | none => 0 | some r => r.last) ++
          fieldU 2 (match x with | none => 0 | some r => r.plan))) := by
  cases x <;> simp [slitFields]

theorem idOrZero_eq (x : Option Nat) : idOrZero x = x.getD 0 := by cases x <;> rfl

@[simp] theorem recordFields_length (r : PathRecord) : (recordFields r).length = 24 := by
  simp [recordFields, kindFields_eq, slitFields_eq]

theorem holdsRecord_of_standsAt {bytes : List Byte} {off : Nat} {r : PathRecord} (h : StandsAt bytes off (recordFields r)) :
    HoldsRecord bytes off r := by
  have hl := recordFields_length r
  refine ⟨fun hv => ?_, ?_, fun hv => ?_, fun hv => ?_, ?_, fun hv => ?_, fun hv => ?_, fun hv => ?_, fun h1 h2 => ?_, ?_,
    fun hv => ?_, fun hv => ?_, fun hv => ?_, fun hv => ?_⟩
  · rw [h.readU_zero (by omega)]
    simp [recordFields, readU_fieldU hv]
  · rw [h.readU (by omega)]
    cases hk : r.body.kind <;> simp [recordFields, kindFields_eq, hk, readU_fieldU]
  · rw [h.readU (by omega)]
    cases hk : r.body.kind <;> simp_all [recordFields, kindFields_eq, readU_fieldU]
  · rw [h.readU (by omega)]
    cases hk : r.body.kind <;> simp_all [recordFields, kindFields_eq, readU_fieldU]
  · rw [h.readU (by omega)]
    match hk : r.body.kind with
    | .defect _ _ .minor => simp [recordFields, kindFields_eq, hk, Severity.rank, readU_fieldU]
    | .defect _ _ .major => simp [recordFields, kindFields_eq, hk, Severity.rank, readU_fieldU]
    | .defect _ _ .critical => simp [recordFields, kindFields_eq, hk, Severity.rank, readU_fieldU]
    | .sensedSplice => simp [recordFields, kindFields_eq, hk, readU_fieldU]
    | .repairSplice => simp [recordFields, kindFields_eq, hk, readU_fieldU]
  · rw [h.readU (by omega)]
    simp [recordFields, kindFields_eq, readU_fieldU hv]
  · rw [h.readU (by omega)]
    simp [recordFields, kindFields_eq, readU_fieldU hv]
  · rw [h.readU (by omega)]
    simp [recordFields, kindFields_eq, readU_fieldU hv]
  · rw [h.readS (by omega)]
    simp [recordFields, kindFields_eq, readS_fieldS h1 h2]
  · rw [h.readU (by omega)]
    cases hs : r.slit <;> simp [recordFields, kindFields_eq, slitFields_eq, hs, readU_fieldU]
  · rw [h.readU (by omega)]
    cases hs : r.slit <;> simp_all [recordFields, kindFields_eq, slitFields_eq, readU_fieldU]
  · rw [h.readU (by omega)]
    cases hs : r.slit <;> simp_all [recordFields, kindFields_eq, slitFields_eq, readU_fieldU]
  · rw [h.readU (by omega)]
    cases hs : r.slit <;> simp_all [recordFields, kindFields_eq, slitFields_eq, readU_fieldU]
  · rw [h.readU (by omega)]
    simp [recordFields, kindFields_eq, slitFields_eq, idOrZero_eq, readU_fieldU hv]

/-- The head of a READ-QUEUE payload, before that many of its records. -/
def queueHead (q : PathQueue) (count rest : Nat) : List Byte :=
  fieldU 1 q.records.length ++ fieldU 2 q.changes ++ fieldU 1 count ++ fieldU 1 rest

theorem queueHead_length (q : PathQueue) (count rest : Nat) : (queueHead q count rest).length = 5 := by simp [queueHead]

theorem queuePayload_eq (q : PathQueue) (start : Nat) : queuePayload q start =
    queueHead q (min 6 (q.records.length - start)) (q.records.length - start - 6) ++
      (page 6 start q.records).flatMap recordFields := by
  have hrest : q.records.length - start - min 6 (q.records.length - start) = q.records.length - start - 6 := by omega
  rw [queuePayload, queueHead, page_length, hrest]

theorem queuePayload_holds (start : Nat) (q : PathQueue) : HoldsQueue (queuePayload q start) start q := by
  rw [queuePayload_eq]
  refine ⟨?_, fun hv => ?_, fun hv => ?_, ?_, fun hv => ?_, fun i hi r hr => ?_⟩
  · rw [List.length_append, queueHead_length, length_flatMap_of_width recordFields_length, page_length]
  · simp [queueHead, readU_fieldU hv]
  · simp [queueHead, readU_fieldU hv]
  · have hcount : min 6 (q.records.length - start) < 256 ^ 1 := by omega
    simp [queueHead, readU_fieldU hcount]
  · simp [queueHead, readU_fieldU hv]
  · exact holdsRecord_of_standsAt (standsAt_flatMap recordFields_length (queueHead_length ..)
      ((page_getElem? (by omega) q.records).trans hr))

/-! ## READ-STOPS (R182, 13.8) -/

theorem StopKind.code_eq (k : StopKind) : k.code = k.layoutCode := by cases k <;> rfl

/-- Three flags as the bits of a number (13.1). -/
theorem testBit_stopFlags (b0 b1 b2 : Bool) :
    let w : Nat := flagBit 0 b0 + flagBit 1 b1 + flagBit 2 b2
    w < 8 ∧ w.testBit 0 = b0 ∧ w.testBit 1 = b1 ∧ w.testBit 2 = b2 := by
  revert b0 b1 b2
  decide

@[simp] theorem stopFields_length (headId : Option Nat) (e : StopEntry) : (stopFields headId e).length = 31 := by
  simp [stopFields]

theorem holdsStop_of_standsAt {bytes : List Byte} {off : Nat} {headId : Option Nat} {e : StopEntry}
    (h : StandsAt bytes off (stopFields headId e)) : HoldsStop bytes off (decide (headId = some e.id)) e := by
  have hl := stopFields_length headId e
  obtain ⟨hw, hb0, hb1, hb2⟩ := testBit_stopFlags (decide (headId = some e.id)) e.late e.overrun
  have hflags : readU bytes (off + 25) 1 =
      flagBit 0 (decide (headId = some e.id)) + flagBit 1 e.late + flagBit 2 e.overrun := by
    rw [h.readU (by omega)]
    simp [stopFields, readU_fieldU (n := 1) (lt_trans hw (by decide))]
  refine ⟨fun hv => ?_, ?_, ?_, ?_, fun hv => ?_, fun h1 h2 => ?_, fun h1 h2 => ?_, fun h1 h2 => ?_, ?_, ?_, ?_, ?_, ?_,
    fun h1 h2 => ?_⟩
  · rw [h.readU_zero (by omega)]
    simp [stopFields, readU_fieldU hv]
  · rw [h.readU (by omega)]
    cases hk : e.kind <;> simp [stopFields, hk, StopKind.code, StopKind.layoutCode, readU_fieldU]
  · rw [h.readU (by omega)]
    cases hk : e.kind <;> simp [stopFields, hk, StopKind.priority, readU_fieldU]
  · rw [h.readU (by omega)]
    cases hk : e.origin <;> simp [stopFields, hk, StopOrigin.code, readU_fieldU]
  · rw [h.readU (by omega)]
    have hv' : e.ref.number < 256 ^ 2 := by
      cases hr : e.ref <;> simp_all [StopRef.number]
    cases hr : e.ref <;> simp_all [stopFields, StopRef.number, readU_fieldU]
  · rw [h.readS (by omega)]
    simp [stopFields, readS_fieldS h1 h2]
  · rw [h.readS (by omega)]
    simp [stopFields, readS_fieldS h1 h2]
  · rw [h.readS (by omega)]
    simp [stopFields, readS_fieldS h1 h2]
  · rw [h.readU (by omega)]
    have hv : e.insertion % 4294967296 < 256 ^ 4 := Nat.mod_lt _ (by decide)
    simp [stopFields, readU_fieldU hv]
  · rw [h.readU (by omega)]
    cases ha : e.active <;> simp [stopFields, ha, flagCode, readU_fieldU]
  · rw [holdsFlag, hflags, hb0]
  · rw [holdsFlag, hflags, hb1]
  · rw [holdsFlag, hflags, hb2]
  · rw [h.readS (by omega)]
    simp [stopFields, readS_fieldS h1 h2]

@[simp] theorem lastStopFields_length (o : Option LastStop) : (lastStopFields o).length = 24 := by
  cases o <;> simp [lastStopFields]

theorem holdsLastStop_of_standsAt {bytes : List Byte} {o : Option LastStop} (h : StandsAt bytes 5 (lastStopFields o)) :
    HoldsLastStop bytes o := by
  refine ⟨?_, ?_⟩
  · rintro rfl
    simpa [StandsAt, lastStopFields] using h
  · intro r hr
    obtain rfl : o = some r := hr
    have hl := lastStopFields_length (some r)
    have hat (k n : Nat) (hk : k + n ≤ 24) : readU bytes (5 + k) n = readU (lastStopFields (some r)) k n :=
      h.readU (by omega)
    have hatS (k n : Nat) (hk : k + n ≤ 24) : readS bytes (5 + k) n = readS (lastStopFields (some r)) k n :=
      h.readS (by omega)
    refine ⟨?_, fun hv => ?_, ?_, fun h1 h2 => ?_, fun hv => ?_, fun h1 h2 => ?_, ?_, ?_, fun h1 h2 => ?_⟩
    · rw [hat 0 1 (by decide)]
      simp [lastStopFields, readU_fieldU]
    · rw [hat 1 1 (by decide)]
      simp [lastStopFields, readU_fieldU hv]
    · rw [hat 2 1 (by decide)]
      cases hk : r.kind <;> simp [lastStopFields, hk, StopKind.code, StopKind.layoutCode, readU_fieldU]
    · rw [hatS 3 5 (by decide)]
      simp [lastStopFields, readS_fieldS h1 h2]
    · rw [hat 8 4 (by decide)]
      simp [lastStopFields, readU_fieldU hv]
    · rw [hatS 12 5 (by decide)]
      simp [lastStopFields, readS_fieldS h1 h2]
    · rw [hat 17 1 (by decide)]
      cases hk : r.outcome <;> simp [lastStopFields, hk, StopOutcome.code, readU_fieldU]
    · rw [hat 18 1 (by decide)]
      cases hk : r.late <;> simp [lastStopFields, hk, flagCode, readU_fieldU]
    · rw [hatS 19 5 (by decide)]
      simp [lastStopFields, readS_fieldS h1 h2]

/-- The head of a READ-STOPS payload, before the last stop record and that many of its entries. -/
def stopsHead (pl : StopPlanner) (count rest : Nat) : List Byte :=
  fieldU 1 pl.entries.length ++ fieldU 2 pl.changes ++ fieldU 1 count ++ fieldU 1 rest

theorem stopsHead_length (pl : StopPlanner) (count rest : Nat) : (stopsHead pl count rest).length = 5 := by simp [stopsHead]

theorem stopsPayload_eq (pl : StopPlanner) (start : Nat) : stopsPayload pl start =
    stopsHead pl (min 5 (pl.entries.length - start)) (pl.entries.length - start - 5) ++
      (lastStopFields pl.lastStop ++ (page 5 start pl.entries).flatMap (stopFields (pl.head.map (·.id)))) := by
  have hrest : pl.entries.length - start - min 5 (pl.entries.length - start) = pl.entries.length - start - 5 := by omega
  simp only [stopsPayload, stopsHead, page_length, hrest, List.append_assoc]

theorem stopsPayload_holds (start : Nat) (pl : StopPlanner) : HoldsStops (stopsPayload pl start) start pl := by
  rw [stopsPayload_eq]
  refine ⟨?_, fun hv => ?_, fun hv => ?_, ?_, fun hv => ?_, holdsLastStop_of_standsAt ?_, fun i hi e he => ?_⟩
  · rw [List.length_append, stopsHead_length, List.length_append, lastStopFields_length,
      length_flatMap_of_width (stopFields_length _), page_length]
    omega
  · simp [stopsHead, readU_fieldU hv]
  · simp [stopsHead, readU_fieldU hv]
  · have hcount : min 5 (pl.entries.length - start) < 256 ^ 1 := by omega
    simp [stopsHead, readU_fieldU hcount]
  · simp [stopsHead, readU_fieldU hv]
  · rw [StandsAt, List.drop_left' (stopsHead_length ..), List.take_left]
  · rw [← List.append_assoc]
    exact holdsStop_of_standsAt (standsAt_flatMap (stopFields_length _) (by simp [stopsHead_length])
      ((page_getElem? (by omega) pl.entries).trans he))

/-! ## READ-COUNTERS (R183, 13.3) -/

theorem TrackerState.repeatRead_eq (t : TrackerState) :
    t.repeatRead = match t with | .unlocked => 0 | .locked l => l.rm | .lost l => l.rm := by cases t <;> rfl

theorem TrackerState.missed_eq (t : TrackerState) :
    t.missed = match t with | .unlocked => 0 | .locked l => l.missed | .lost l => l.missed := by cases t <;> rfl

theorem countersPayload_length (s : State) : (countersPayload s).length = 56 := by
  unfold countersPayload flowFields
  simp

/-- Where the counters of 13.3 stand. -/
theorem countersPayload_fields (s : State) :
    let bytes : List Byte := countersPayload s
    (readU bytes 0 4 = readU (fieldU 4 s.queue.flow.taken) 0 4 ∧ readU bytes 4 4 = readU (fieldU 4 s.queue.flow.returned) 0 4 ∧
      readU bytes 8 4 = readU (fieldU 4 s.queue.flow.delivered) 0 4 ∧
      readU bytes 12 4 = readU (fieldU 4 s.queue.flow.trimmed) 0 4 ∧
      readU bytes 16 4 = readU (fieldU 4 s.queue.flow.removed) 0 4 ∧
      readU bytes 20 4 = readU (fieldU 4 s.queue.flow.unmapped) 0 4 ∧
      readU bytes 24 1 = readU (fieldU 1 s.queue.records.length) 0 1) ∧
    (readU bytes 25 2 = readU (fieldU 2 s.inputs.encA.glitches) 0 2 ∧
      readU bytes 27 2 = readU (fieldU 2 s.inputs.encB.glitches) 0 2 ∧
      readU bytes 29 2 = readU (fieldU 2 s.length.slipCount) 0 2 ∧
      readS bytes 31 4 = readS (fieldS 4 s.length.lastDeviation) 0 4 ∧
      readU bytes 35 2 = readU (fieldU 2 s.roll.mapsLost) 0 2) ∧
    (readU bytes 37 2 = readU (fieldU 2 s.tracker.good) 0 2 ∧ readU bytes 39 2 = readU (fieldU 2 s.tracker.extra) 0 2 ∧
      readU bytes 41 2 = readU (fieldU 2 s.tracker.rescanned) 0 2 ∧
      readU bytes 43 2 = readU (fieldU 2 s.tracker.missed) 0 2 ∧ readU bytes 45 2 = readU (fieldU 2 s.tracker.losses) 0 2 ∧
      readU bytes 47 2 = readU (fieldU 2 s.tracker.state.repeatRead) 0 2 ∧
      readU bytes 49 1 = readU (fieldU 1 s.tracker.state.missed) 0 1) ∧
    (readU bytes 50 2 = readU (fieldU 2 s.ports.l.discarded) 0 2 ∧ readU bytes 52 2 = readU (fieldU 2 s.ports.i.discarded) 0 2 ∧
      readU bytes 54 2 = readU (fieldU 2 s.ports.o.discarded) 0 2) := by
  intro bytes
  unfold bytes countersPayload flowFields
  simp

theorem countersPayload_holds (s : State) : HoldsCounters (countersPayload s) s := by
  obtain ⟨⟨f0, f4, f8, f12, f16, f20, f24⟩, ⟨f25, f27, f29, f31, f35⟩, ⟨f37, f39, f41, f43, f45, f47, f49⟩, f50, f52, f54⟩ :=
    countersPayload_fields s
  refine ⟨countersPayload_length s, ⟨fun hv => ?_, fun hv => ?_, fun hv => ?_, fun hv => ?_, fun hv => ?_, fun hv => ?_,
    fun hv => ?_⟩, ⟨fun hv => ?_, fun hv => ?_, fun hv => ?_, fun h1 h2 => ?_, fun hv => ?_⟩, ⟨fun hv => ?_, fun hv => ?_,
    fun hv => ?_, fun hv => ?_, fun hv => ?_, fun hv => ?_, fun hv => ?_⟩, fun hv => ?_, fun hv => ?_, fun hv => ?_⟩
  · rw [f0, readU_fieldU hv]
  · rw [f4, readU_fieldU hv]
  · rw [f8, readU_fieldU hv]
  · rw [f12, readU_fieldU hv]
  · rw [f16, readU_fieldU hv]
  · rw [f20, readU_fieldU hv]
  · rw [f24, readU_fieldU hv]
  · rw [f25, readU_fieldU hv]
  · rw [f27, readU_fieldU hv]
  · rw [f29, readU_fieldU hv]
  · rw [f31, readS_fieldS h1 h2]
  · rw [f35, readU_fieldU hv]
  · rw [f37, readU_fieldU hv]
  · rw [f39, readU_fieldU hv]
  · rw [f41, readU_fieldU hv]
  · rw [f43, readU_fieldU hv]
  · rw [f45, readU_fieldU hv]
  · have hr := s.tracker.state.repeatRead_eq
    rw [f47]
    exact (readU_fieldU (hr.trans_lt hv)).trans hr
  · have hm := s.tracker.state.missed_eq
    rw [f49]
    exact (readU_fieldU (hm.trans_lt hv)).trans hm
  · rw [f50, readU_fieldU hv]
  · rw [f52, readU_fieldU hv]
  · rw [f54, readU_fieldU hv]

/-! ## READ-EVENTS (R189, 13.3) -/

/-- A sum of different powers of two has exactly their bits set. -/
theorem testBit_sum_two_pow {l : List Nat} (h : l.Nodup) (i : Nat) : (l.map (2 ^ ·)).sum.testBit i = decide (i ∈ l) := by
  have hperm := l.perm_insertionSort (· ≤ ·)
  have hsorted : (l.insertionSort (· ≤ ·)).SortedLT :=
    List.sortedLE_insertionSort.sortedLT_of_nodup (hperm.nodup_iff.2 h)
  have hbits := Nat.bitIndices_sum_map_two_pow hsorted
  rw [← (hperm.map (2 ^ ·)).sum_eq, Bool.eq_iff_iff, ← Nat.mem_bitIndices, hbits, decide_eq_true_iff, hperm.mem_iff]

theorem enableWord_testBit {l : List EventKind} (h : l.Nodup) (k : EventKind) :
    (enableWord l).testBit k.code = decide (k ∈ l) := by
  have hw : enableWord l = ((l.map EventKind.code).map (2 ^ ·)).sum := by rw [enableWord, List.map_map]; rfl
  rw [hw, testBit_sum_two_pow (h.map fun _ _ => EventKind.code_injective)]
  congr 1
  rw [List.mem_map_of_injective fun _ _ => EventKind.code_injective]

theorem enableWord_lt {l : List EventKind} (h : l.Nodup) : enableWord l < 256 ^ 4 := by
  have hw : enableWord l = ((l.map EventKind.code).map (2 ^ ·)).sum := by rw [enableWord, List.map_map]; rfl
  refine Nat.lt_of_lt_of_eq (Nat.lt_pow_two_of_testBit (n := 32) _ fun i hi => ?_) (by decide)
  rw [hw, testBit_sum_two_pow (h.map fun _ _ => EventKind.code_injective), decide_eq_false_iff_not, List.mem_map]
  rintro ⟨k, -, rfl⟩
  have := k.code_range
  omega

/-- A pending event of a READ-EVENTS reply. -/
def pendingFields (e : EventKind × Nat) : List Byte := fieldU 1 e.1.code ++ fieldU 1 e.2

theorem pendingFields_length (e : EventKind × Nat) : (pendingFields e).length = 2 := by simp [pendingFields]

/-- The head of a READ-EVENTS payload, before its pending events. -/
def eventsHead (st : Station) : List Byte :=
  fieldU 1 (flagCode st.master) ++ fieldU 1 (flagCode st.line) ++ fieldU 4 (enableWord st.enabled) ++
  fieldU 1 st.pending.length

theorem eventsHead_length (st : Station) : (eventsHead st).length = 7 := by simp [eventsHead]

theorem eventsPayload_eq (st : Station) : eventsPayload st = eventsHead st ++ st.pending.flatMap pendingFields := rfl

theorem eventsPayload_holds (st : Station) : HoldsEvents (eventsPayload st) st := by
  rw [eventsPayload_eq]
  refine ⟨?_, ?_, ?_, fun hn k _ => ?_, fun hv => ?_, fun i hi e he => ?_⟩
  · rw [List.length_append, eventsHead_length, length_flatMap_of_width pendingFields_length]
  · cases hm : st.master <;> simp [eventsHead, hm, flagCode, readU_fieldU]
  · cases hl : st.line <;> simp [eventsHead, hl, flagCode, readU_fieldU]
  · rw [← enableWord_testBit hn]
    simp [eventsHead, readU_fieldU (enableWord_lt hn)]
  · simp [eventsHead, readU_fieldU hv]
  · have h : StandsAt (eventsHead st ++ st.pending.flatMap pendingFields) (7 + 2 * i) (pendingFields e) :=
      standsAt_flatMap pendingFields_length (eventsHead_length st) he
    have hl := pendingFields_length e
    have hc : e.1.code < 256 ^ 1 := lt_of_le_of_lt e.1.code_range.2 (by decide)
    refine ⟨?_, fun hv => ?_⟩
    · rw [h.readU_zero (by omega)]
      simp [pendingFields, readU_fieldU hc]
    · rw [show 8 + 2 * i = 7 + 2 * i + 1 by omega, h.readU (by omega)]
      simp [pendingFields, readU_fieldU hv]

/-! ## The branches of the reads -/

theorem takeReadQueue_done {start : Nat} {s : State} (h : start ≤ s.queue.records.length) :
    takeReadQueue start s = (s, .done (queuePayload s.queue start)) := if_neg (Nat.not_lt.2 h)

theorem takeReadStops_done {start : Nat} {s : State} (h : start ≤ s.stops.entries.length) :
    takeReadStops start s = (s, .done (stopsPayload s.stops start)) := if_neg (Nat.not_lt.2 h)

section NamedSet
variable {job set n : Nat} {r : SetRecord} {s : State} (hf : s.roll.find job set = .ok n)
  (hr : (s.roll.slot n).record? = some r)
include hf hr

theorem takeReadSet_outOfRange {first : Nat} (h : first = 0 ∨ r.lanes.length < first) :
    takeReadSet job set first s = s.refuse .outOfRange := by
  simp only [takeReadSet, hf, hr]
  exact if_pos h

theorem takeReadSet_done {first : Nat} (h1 : 1 ≤ first) (h2 : first ≤ r.lanes.length) :
    takeReadSet job set first s = (s, .done (setPayload s.p s.roll n (s.roll.slot n) r first)) := by
  simp only [takeReadSet, hf, hr]
  exact if_neg (by omega)

theorem takeReadLane_badLane {lane list start : Nat} (hl : list ≤ 1) (h : lane = 0 ∨ r.lanes.length < lane) :
    takeReadLane job set lane list start s = s.refuse .outOfRange := by
  have hnone : (if lane = 0 then none else r.lanes[lane - 1]?) = none := by
    split
    · rfl
    · exact List.getElem?_eq_none (by omega)
  simp only [takeReadLane, if_neg (Nat.not_lt.2 hl), hf, hr, hnone]

variable {lane : Nat} (h1 : 1 ≤ lane) {x : LaneRecord} (hx : r.lanes[lane - 1]? = some x)
include h1 hx

theorem takeReadLane_lane {list start : Nat} (hl : list ≤ 1) : takeReadLane job set lane list start s =
    if list = 0 then
      if x.defects.length < start then s.refuse .outOfRange
      else (s, .done (lanePage x 0 start x.defects defectFieldsOf))
    else if x.splices.length < start then s.refuse .outOfRange
    else (s, .done (lanePage x 1 start x.splices spliceFieldsOf)) := by
  have hsome : (if lane = 0 then none else r.lanes[lane - 1]?) = some x := by rw [if_neg (by omega), hx]
  simp only [takeReadLane, if_neg (Nat.not_lt.2 hl), hf, hr, hsome]

end NamedSet

theorem takeReadLane_notNamed {job set lane list start : Nat} {s : State} {st : Status} (hl : list ≤ 1)
    (hf : s.roll.find job set = .error st) : takeReadLane job set lane list start s = s.refuse st := by
  simp only [takeReadLane, if_neg (Nat.not_lt.2 hl), hf]

/-- Settles O45: the branches of each taking, and the layout of each payload. -/
theorem readsChangeOnlyTheirPort : Obligations.ReadsChangeOnlyTheirPort := by
  intro p s reads
  refine ⟨fun ht => ⟨_, exec_readStatus ht, statusPayload_length s⟩,
    fun ht => ⟨_, exec_eq_replied rfl rfl ht rfl, countersPayload_holds s⟩,
    fun ht => ⟨_, exec_eq_replied rfl rfl ht rfl, eventsPayload_holds _⟩, fun start ht => ⟨fun h => ?_, fun h => ?_⟩,
    fun start ht => ⟨fun h => ?_, fun h => ?_⟩, fun job set first st ht hf => ?_,
    fun job set lane list start ht => ⟨fun h => ?_, fun hl st hf => ?_, fun hl n r hf hr => ⟨fun h => ?_, fun h1 x hx h => ?_⟩⟩,
    fun job set first n r ht hf hr => ⟨fun h1 h2 => ?_, fun h => ?_⟩,
    fun job set lane start n r x hf hr h1 hx => ⟨fun ht h => ?_, fun ht h => ?_⟩⟩
  · exact ⟨_, exec_eq_replied rfl rfl ht (takeReadQueue_done h), queuePayload_holds start s.queue⟩
  · exact exec_eq_replied rfl rfl ht (if_pos h)
  · exact ⟨_, exec_eq_replied rfl rfl ht (takeReadStops_done h), stopsPayload_holds start s.stops⟩
  · exact exec_eq_replied rfl rfl ht (if_pos h)
  · exact exec_eq_replied rfl rfl ht (by simp only [takeReadSet, hf]; rfl)
  · exact exec_eq_replied rfl rfl ht (if_pos h)
  · exact exec_eq_replied rfl rfl ht (takeReadLane_notNamed hl hf)
  · exact exec_eq_replied rfl rfl ht (takeReadLane_badLane hf hr hl h)
  · refine exec_eq_replied rfl rfl ht ((takeReadLane_lane hf hr h1 hx hl).trans ?_)
    rcases h with ⟨rfl, h⟩ | ⟨rfl, h⟩
    · exact if_pos h
    · exact if_pos h
  · exact ⟨_, exec_eq_replied rfl rfl ht (takeReadSet_done hf hr h1 h2), setPayload_holds n r first s⟩
  · exact exec_eq_replied rfl rfl ht (takeReadSet_outOfRange hf hr h)
  · exact ⟨_, exec_eq_replied rfl rfl ht ((takeReadLane_lane hf hr h1 hx (by decide)).trans (if_neg (Nat.not_lt.2 h))),
      lanePage_holds x 0 start x.defects _ defectFieldsOf_length (by decide), fun i hi e he =>
      holdsDefect_of_standsAt (standsAt_lanePage x 0 start x.defects _ defectFieldsOf_length hi he)⟩
  · exact ⟨_, exec_eq_replied rfl rfl ht ((takeReadLane_lane hf hr h1 hx (by decide)).trans (if_neg (Nat.not_lt.2 h))),
      lanePage_holds x 1 start x.splices _ spliceFieldsOf_length (by decide), fun i hi e he =>
      holdsSplice_of_standsAt (standsAt_lanePage x 1 start x.splices _ spliceFieldsOf_length hi he)⟩

end Sys2Proof.Machine
end

