-- ==== Sys2Proof/Proofs/RepliesToRequests.lean ====
section
/-! PROOFS. The reply to every request (R176): a frame whose bytes sum to 0, a payload of at most 200 bytes, and nothing changed by
a refusal. -/

namespace Sys2Proof.Machine

/-! ## The reply frame (R176) -/

theorem Status.code_eq (st : Status) : (BitVec.ofNat 8 st.code : Byte) = st.layoutCode := by cases st <;> rfl

theorem replyFrame_isReplyFrame (kind : Byte) (st : Status) (payload : List Byte) :
    IsReplyFrame (replyFrame kind { status := st, payload := payload }) st kind payload := by
  refine ⟨?_, ?_, (frameSum_eq_zero_iff _).1 (frameSum_withCheck _)⟩
  · rw [replyFrame, withCheck, List.take_left' (by simp; omega), Status.code_eq]
  · simp [replyFrame, withCheck]
    omega

/-! ## What a taking answers -/

/-- A taking answers with a payload that fits a reply frame, and where it answers with another status than DONE with none; then
it has changed nothing, a defect refused for a full queue aside (R60, R176). -/
structure Answers (k : Kind) (s : State) (t : Taken) : Prop where
  fits : s.AlertsSound → t.2.payload.length ≤ 200
  empty : t.2.status ≠ .done → t.2.payload = []
  unchanged : t.2.status ≠ .done → ¬ (k = .defect ∧ t.2.status = .listFull) → t.1 = s

section Answers
variable {k : Kind} {s : State}

theorem Answers.refuse (st : Status) : Answers k s (s.refuse st) := ⟨fun _ => by simp [State.refuse, Reply.refused], fun _ => rfl, fun _ _ => rfl⟩

theorem Answers.done {t : State} {payload : List Byte} (h : s.AlertsSound → payload.length ≤ 200) :
    Answers k s (t, .done payload) := ⟨h, fun hn => absurd rfl hn, fun hn => absurd rfl hn⟩

theorem Answers.done_nil {t : State} : Answers k s (t, .done []) := .done fun _ => by simp

theorem Answers.ite {c : Prop} [Decidable c] {t u : Taken} (h : Answers k s t) (g : Answers k s u) :
    Answers k s (if c then t else u) := by
  split <;> assumption

end Answers

/-! ## The takings of settings, reads and alerts -/

section Takings
variable {k : Kind} (s : State)

theorem takeSetGeometry_answers (g : Geometry) : Answers k s (takeSetGeometry g s) :=
  .ite (.refuse _) (.ite (.refuse _) .done_nil)

theorem takeSetCalibration_answers (fa fb : CalibrationFields) : Answers k s (takeSetCalibration fa fb s) := by
  refine .ite (.refuse _) (.ite (.refuse _) ?_)
  split
  · exact .done_nil
  · exact .refuse _

theorem takeSetSensors_answers (mf me sf se : Nat) : Answers k s (takeSetSensors mf me sf se s) := by
  refine .ite (.refuse _) ?_
  split
  · exact .done_nil
  · exact .refuse _

theorem takeSetTrim_answers (enc : Nat) (trim : Int) : Answers k s (takeSetTrim enc trim s) := by
  unfold takeSetTrim
  split
  · exact .refuse _
  · exact .ite (.refuse _) .done_nil

theorem takeSelectSource_answers (source : Nat) : Answers k s (takeSelectSource source s) := by
  unfold takeSelectSource
  split
  · exact .refuse _
  · exact .ite (.refuse _) (.ite (.refuse _) .done_nil)

theorem takeSetStrobe_answers (q : Nat) : Answers k s (takeSetStrobe q s) := .ite (.refuse _) .done_nil

theorem takeSetMotion_answers (f : MotionFields) : Answers k s (takeSetMotion f s) := by
  refine .ite (.refuse _) ?_
  split
  · exact .refuse _
  · exact .ite (.refuse _) .done_nil

theorem takeLineState_answers (report : Nat) : Answers k s (takeLineState report s) := by
  unfold takeLineState
  split
  · exact .refuse _
  · exact .done_nil

theorem takeLoadPlan_answers (plan : Nat) (knives : List Nat) : Answers k s (takeLoadPlan plan knives s) :=
  .ite (.refuse _) (.ite (.refuse _) (.done fun _ => by simp))

theorem takeLaneStatus_answers (job set lane status : Nat) : Answers k s (takeLaneStatus job set lane status s) := by
  unfold takeLaneStatus
  split
  · exact .refuse _
  split
  · exact .refuse _
  split
  · exact .refuse _
  · exact .refuse _
  · split
    · exact .refuse _
    · exact .done_nil
  · split
    · exact .refuse _
    · exact .done_nil

theorem takeReleaseSet_answers (job set : Nat) : Answers k s (takeReleaseSet job set s) := by
  unfold takeReleaseSet
  split
  · exact .refuse _
  split
  · exact .done_nil
  · exact .refuse _
  · exact .refuse _
  · exact .refuse _

theorem takeReadSet_answers (job set first : Nat) : Answers k s (takeReadSet job set first s) := by
  unfold takeReadSet
  split
  · exact .refuse _
  next n _ =>
    split
    · exact .refuse _
    next r _ =>
      refine .ite (.refuse _) (.done fun _ => ?_)
      rw [(setPayload_holds n r first s).1]
      omega

theorem takeReadLane_answers (job set lane list start : Nat) : Answers k s (takeReadLane job set lane list start s) := by
  refine .ite (.refuse _) ?_
  split
  · exact .refuse _
  split
  · exact .refuse _
  split
  · exact .refuse _
  next x _ =>
    refine .ite (.ite (.refuse _) (.done fun _ => ?_)) (.ite (.refuse _) (.done fun _ => ?_))
    · rw [(lanePage_holds x 0 start x.defects _ defectFieldsOf_length (by decide)).1]
      omega
    · rw [(lanePage_holds x 1 start x.splices _ spliceFieldsOf_length (by decide)).1]
      omega

theorem takeReadQueue_answers (start : Nat) : Answers k s (takeReadQueue start s) :=
  .ite (.refuse _) (.done fun _ => by rw [(queuePayload_holds start s.queue).1]; omega)

theorem takeReadStops_answers (start : Nat) : Answers k s (takeReadStops start s) :=
  .ite (.refuse _) (.done fun _ => by rw [(stopsPayload_holds start s.stops).1]; omega)

/-- Each of the 24 kinds is pending at most once (R186). -/
theorem Station.Sound.pending_length {st : Station} (h : st.Sound) : st.pending.length ≤ 24 := by
  have hnodup : (st.pending.map (·.1)).Nodup :=
    List.pairwise_map.2 (h.1.imp fun {a b} hab he => by rw [he] at hab; exact lt_irrefl _ hab)
  have hsub := (hnodup.subperm (l₂ := EventKind.all) fun k _ => k.mem_all).length_le
  simpa [EventKind.all] using hsub

theorem takeReadEvents_answers (p : Port) : Answers k s (takeReadEvents p s) :=
  .done fun h => by
    rw [(eventsPayload_holds (s.alerts.get p)).1]
    have := (h.get p).pending_length
    omega

theorem takeAckEvents_answers (p : Port) (codes : List Nat) : Answers k s (takeAckEvents p codes s) := by
  unfold takeAckEvents
  split
  · exact .refuse _
  · exact .done_nil

theorem takeSetAlerts_answers (p : Port) (master : Nat) (codes : List Nat) : Answers k s (takeSetAlerts p master codes s) := by
  unfold takeSetAlerts
  split
  · exact .done_nil
  · exact .refuse _

/-! ## The takings of jobs, cuts and stops -/

theorem takeCutOpen_answers : Answers k s (takeCutOpen s) := .ite (.refuse _) (.ite (.refuse _) (.done fun _ => by simp))

theorem takeSpliceMade_answers (first last : Nat) (records : List Nat) : Answers k s (takeSpliceMade first last records s) := by
  unfold takeSpliceMade
  split
  · exact .ite (.done fun _ => by simp) (.refuse _)
  · exact .refuse _

theorem takeCutCancel_answers : Answers k s (takeCutCancel s) := by
  unfold takeCutCancel
  split
  · exact .done_nil
  · exact .refuse _

theorem takeJobStart_answers (j : JobFields) : Answers k s (takeJobStart j s) := by
  refine .ite (.refuse _) ?_
  split
  · exact .ite (.refuse _) (.ite (.refuse _) (.done fun _ => by simp))
  · exact .refuse _

theorem takeJobEnd_answers : Answers k s (takeJobEnd s) := .ite (.refuse _) (.done fun _ => by simp [flowFields])

theorem takeSetStart_answers : Answers k s (takeSetStart s) := .ite (.refuse _) (.ite (.refuse _) (.done fun _ => by simp))

theorem takeSetClose_answers : Answers k s (takeSetClose s) := by
  refine .ite (.refuse _) (.ite (.refuse _) ?_)
  split
  · exact .done fun _ => by simp
  · exact .refuse _

/-- An offer refused posts nothing when it comes from a station (R141). -/
theorem offerStop_refused {o : StopOffer} (ho : o.origin ≠ .internal) (h : (offerStop o s).2 = none) : (offerStop o s).1 = s := by
  unfold offerStop at h ⊢
  split
  next hroom =>
    rw [if_pos hroom] at h
    cases h
  next hfull =>
    rw [if_neg hfull] at h
    cases hv : victimOf o.kind.priority s.stops.entries with
    | some v =>
      rw [hv] at h
      cases h
    | none => simp [State.postIf, ho]

/-- An offer taken is answered DONE, whatever the part has become before it. -/
theorem answerOffer_taken {o : StopOffer} {u : State} (h : (offerStop o u).2.isSome = true) : Answers k s (answerOffer o u) := by
  unfold answerOffer
  split
  · exact .done fun _ => by simp
  next t ht => simp [ht] at h

theorem answerOffer_answers {o : StopOffer} (ho : o.origin ≠ .internal) : Answers k s (answerOffer o s) := by
  cases h : (offerStop o s).2 with
  | some id => exact answerOffer_taken s (by rw [h]; rfl)
  | none =>
    have hpair : offerStop o s = (s, none) := Prod.ext (offerStop_refused s ho h) h
    unfold answerOffer
    rw [hpair]
    exact .refuse _

theorem takeAddStop_answers {p : Port} (hp : p ≠ .i) (form length : Nat) : Answers k s (takeAddStop p form length s) := by
  have ho : originOf p ≠ .internal := by cases p <;> simp [originOf] at hp ⊢
  unfold takeAddStop
  split
  · exact answerOffer_answers s ho
  · refine .ite (.refuse _) ?_
    split
    · exact .refuse _
    · exact answerOffer_answers s ho
  · exact .refuse _

theorem takeCancelStop_answers (p : Port) (id : Nat) : Answers k s (takeCancelStop p id s) := by
  refine .ite (.refuse _) ?_
  split
  · exact .refuse _
  · exact .ite (.refuse _) .done_nil

/-- An offer of the priority of SET-END is taken unless a full list has no room for one (R141, R153). -/
theorem offerStop_isSome {o : StopOffer} (ho : o.kind = .setEnd) (h : setEndHasNoRoom s.stops = false) :
    (offerStop o s).2.isSome = true := by
  unfold offerStop
  split
  · rfl
  next hfull =>
    cases hv : victimOf o.kind.priority s.stops.entries with
    | some v => rfl
    | none =>
      rw [ho] at hv
      simp [setEndHasNoRoom, hv] at h
      omega

theorem State.withTarget_stops (length : Nat) : (s.withTarget length).stops = s.stops := by
  obtain ⟨-, -, -, -, -, -, -, -, -, h, -⟩ := State.withTarget_frame s length
  exact h

theorem takeSetTarget_answers (length : Nat) : Answers k s (takeSetTarget length s) := by
  unfold takeSetTarget
  split
  · refine .ite (.refuse _) ?_
    dsimp only
    split
    · exact .ite (.refuse _) (.done fun _ => by simp)
    · cases hroom : setEndHasNoRoom s.stops with
      | true => exact .refuse _
      | false =>
        rw [← s.withTarget_stops length] at hroom
        exact answerOffer_taken s (offerStop_isSome _ rfl hroom)
  · exact .refuse _

/-- A defect refused for a full queue posts QUEUE-FULL and marks the winding set (R60). -/
theorem takeDefect_answers (d : DefectFields) : Answers .defect s (takeDefect d s) := by
  refine .ite (.refuse _) ?_
  split
  · exact .refuse _
  · refine .ite (.refuse _) (.ite (.refuse _) (.ite ?_ ?_))
    · exact ⟨fun _ => by simp [Reply.refused], fun _ => rfl, fun _ hn => absurd ⟨rfl, rfl⟩ hn⟩
    · unfold intakeDefect
      exact .ite (.done fun _ => by simp) (.done fun _ => by simp)

end Takings

/-! ## Every request -/

/-- Every taking answers as R176 has it. ADD-STOP is not permitted on port I, whose origin is internal (R179). -/
theorem takenOf_answers {i : Instr} {p : Port} {k : Kind} {payload : List Byte} {f : State → Taken}
    (hi : requestParts i = some (p, k, payload)) (hf : takenOf i = some f) (hp : k.permitted p = true) (s : State) :
    Answers k s (f s) := by
  cases i with
  | addStop q form length =>
    cases hi
    cases hf
    exact takeAddStop_answers s (by simpa [Kind.permitted] using hp) form length
  | defect q d =>
    cases hi
    cases hf
    exact takeDefect_answers s d
  | setGeometry _ g => cases hf; exact takeSetGeometry_answers s g
  | setCalibration _ fa fb => cases hf; exact takeSetCalibration_answers s fa fb
  | setSensors _ mf me sf se => cases hf; exact takeSetSensors_answers s mf me sf se
  | setTrim _ enc trim => cases hf; exact takeSetTrim_answers s enc trim
  | selectSource _ source => cases hf; exact takeSelectSource_answers s source
  | setStrobe _ q => cases hf; exact takeSetStrobe_answers s q
  | setMotion _ m => cases hf; exact takeSetMotion_answers s m
  | lineState _ report => cases hf; exact takeLineState_answers s report
  | loadPlan _ plan knives => cases hf; exact takeLoadPlan_answers s plan knives
  | laneStatus _ job set lane status => cases hf; exact takeLaneStatus_answers s job set lane status
  | releaseSet _ job set => cases hf; exact takeReleaseSet_answers s job set
  | readSet _ job set first => cases hf; exact takeReadSet_answers s job set first
  | readLane _ job set lane list start => cases hf; exact takeReadLane_answers s job set lane list start
  | cutOpen _ => cases hf; exact takeCutOpen_answers s
  | spliceMade _ first last records => cases hf; exact takeSpliceMade_answers s first last records
  | cutCancel _ => cases hf; exact takeCutCancel_answers s
  | cancelStop q id => cases hf; exact takeCancelStop_answers s q id
  | setTarget _ length => cases hf; exact takeSetTarget_answers s length
  | readStops _ start => cases hf; exact takeReadStops_answers s start
  | jobStart _ j => cases hf; exact takeJobStart_answers s j
  | jobEnd _ => cases hf; exact takeJobEnd_answers s
  | setStart _ => cases hf; exact takeSetStart_answers s
  | setClose _ => cases hf; exact takeSetClose_answers s
  | readStatus _ => cases hf; exact .done fun _ => by rw [statusPayload_length]; decide
  | readQueue _ start => cases hf; exact takeReadQueue_answers s start
  | readCounters _ => cases hf; exact .done fun _ => by rw [countersPayload_length]; decide
  | readEvents q => cases hf; exact takeReadEvents_answers s q
  | ackEvents q codes => cases hf; exact takeAckEvents_answers s q codes
  | setAlerts q master codes => cases hf; exact takeSetAlerts_answers s q master codes
  | _ => cases hi

/-- Settles O44: the reply frame, the kind codes, and what each taking answers. -/
theorem refusedRequestsChangeNothing : Obligations.RefusedRequestsChangeNothing := by
  refine ⟨replyFrame_isReplyFrame, fun k => by cases k <;> rfl, fun i p k payload s hi ht => ?_⟩
  obtain ⟨f, hf, -⟩ := exec_request hi
  have hans := takenOf_answers hi hf ht.1 s
  obtain ⟨-, hports, -, -⟩ := takenOf_frame hf s
  have hport (q : Port) : (f s).1.port q = s.port q := by rw [State.port, hports, State.port]
  refine ⟨_, (f s).2.status, (f s).2.payload, exec_eq_replied hi hf ht rfl, ?_, fun q hq => ?_, hans.fits, hans.empty,
    fun hn hq => ?_⟩
  · rw [State.replied, State.port, ByPort.get_set_self, hport]
  · rw [State.replied, State.port, ByPort.get_set_other _ _ hq, ← hport q]
    rfl
  · rw [hans.unchanged hn hq, hans.empty hn]

end Sys2Proof.Machine
end

