-- ==== Sys2Proof/Proofs/FramesReadBack.lean ====
section
/-! PROOFS. The frame of a request read back (10.3, R174, 13.1 to 13.4): each field of a payload is found by passing over those
before it, and spells its figure. -/

namespace Sys2Proof.Machine

/-! ## Fields of a request -/

@[simp] theorem readU_pass_bytesOf {w v off n : Nat} {b : List Byte} (h : w ≤ off) :
    readU (bytesOf w v ++ b) off n = readU b (off - w) n := by
  rw [readU_append_right (by simpa using h), bytesOf_length]

@[simp] theorem readU_pass_signedBytes {w off n : Nat} {v : Int} {b : List Byte} (h : w ≤ off) :
    readU (signedBytes w v ++ b) off n = readU b (off - w) n := by
  rw [readU_append_right (by simpa using h), signedBytes_length]

@[simp] theorem readS_pass_bytesOf {w v off n : Nat} {b : List Byte} (h : w ≤ off) :
    readS (bytesOf w v ++ b) off n = readS b (off - w) n := by
  rw [readS_append_right (by simpa using h), bytesOf_length]

@[simp] theorem readS_pass_signedBytes {w off n : Nat} {v : Int} {b : List Byte} (h : w ≤ off) :
    readS (signedBytes w v ++ b) off n = readS b (off - w) n := by
  rw [readS_append_right (by simpa using h), signedBytes_length]

@[simp] theorem readU_first_bytesOf {n v : Nat} (b : List Byte) : readU (bytesOf n v ++ b) 0 n = readU (bytesOf n v) 0 n :=
  readU_append_left (by simp)

@[simp] theorem readS_first_signedBytes {n : Nat} {v : Int} (b : List Byte) :
    readS (signedBytes n v ++ b) 0 n = readS (signedBytes n v) 0 n :=
  readS_append_left (by simp)

theorem readU_fits {n v : Nat} (h : fitsU n v) : readU (bytesOf n v) 0 n = v := readU_bytesOf h

theorem readS_fits {n : Nat} {v : Int} (h : fitsS n v) : readS (signedBytes n v) 0 n = v := readS_signedBytes h.1 h.2

/-! ## Payloads of a fixed layout -/

theorem whenLength_eq {bs : List Byte} {n : Nat} (h : bs.length = n) (i : Instr) : whenLength bs n i = some i := if_pos h

theorem readGeometry_geometryBytes {g : Geometry} (h : g.WellFormed) : readGeometry (geometryBytes g) = g := by
  obtain ⟨hc, he, hm, hk, hs, hw⟩ := h
  simp [readGeometry, geometryBytes, readS_fits hc, readS_fits he, readS_fits hm, readS_fits hk, readS_fits hs, readS_fits hw]

theorem readCalibration_calibrationBytes {fa fb : CalibrationFields} (ha : fa.WellFormed) (hb : fb.WellFormed) :
    readCalibration (calibrationBytes fa ++ calibrationBytes fb) 0 = fa ∧
      readCalibration (calibrationBytes fa ++ calibrationBytes fb) 9 = fb := by
  obtain ⟨ha1, ha2, ha3⟩ := ha
  obtain ⟨hb1, hb2, hb3⟩ := hb
  simp [readCalibration, calibrationBytes, readU_fits ha1, readU_fits ha2, readU_fits ha3, readU_fits hb1, readU_fits hb2,
    readU_fits hb3]

theorem readMotion_motionBytes {m : MotionFields} (h : m.WellFormed) : readMotion (motionBytes m) = m := by
  obtain ⟨h1, h2, h3, h4, h5, h6, h7, h8, h9⟩ := h
  simp [readMotion, motionBytes, readU_fits h1, readU_fits h2, readU_fits h3, readU_fits h4, readU_fits h5, readU_fits h6,
    readU_fits h7, readU_fits h8, readU_fits h9]

theorem readDefect_defectBytes {d : DefectFields} (h : d.WellFormed) : readDefect (defectBytes d) = d := by
  obtain ⟨h1, h2, h3, h4, h5, h6, h7⟩ := h
  simp [readDefect, defectBytes, readU_fits h1, readU_fits h2, readU_fits h3, readU_fits h4, readU_fits h5, readU_fits h6,
    readU_fits h7]

theorem readJob_jobBytes {j : JobFields} (h : j.WellFormed) : readJob (jobBytes j) = j := by
  obtain ⟨h1, h2, h3, h4, h5, h6, h7, h8, h9, h10, h11, h12, h13, h14, h15, h16, h17⟩ := h
  unfold readJob jobBytes
  simp [readU_fits h1, readU_fits h2, readU_fits h3, readU_fits h4, readU_fits h5, readU_fits h6,
    readU_fits h7, readU_fits h8, readS_fits h9, readU_fits h10, readU_fits h11, readU_fits h12, readU_fits h13,
    readU_fits h14, readU_fits h15, readU_fits h16, readS_fits h17]

/-! ## Counted lists -/

theorem readList_flatMap {w : Nat} {l : List Nat} (h : ∀ x ∈ l, fitsU w x) (head : List Byte) :
    readList (head ++ l.flatMap (bytesOf w)) head.length w l.length = l := by
  induction l generalizing head with
  | nil => rfl
  | cons x l ih =>
    have hrest := ih (fun y hy => h y (List.mem_cons_of_mem _ hy)) (head ++ bytesOf w x)
    rw [List.append_assoc, List.length_append, bytesOf_length] at hrest
    rw [List.flatMap_cons, List.length_cons, readList, hrest, readU_append_right le_rfl, Nat.sub_self, readU_first_bytesOf,
      readU_fits (h x List.mem_cons_self)]

/-- A counted payload is read back whole: a fixed part, the count, and the items (13.3). -/
theorem whenCounted_countedBytes {w : Nat} {l : List Nat} (h : ∀ x ∈ l, fitsU w x) (hl : l.length < 256) {head : List Byte}
    {fixed : Nat} (hf : fixed = head.length + 1) (f : List Nat → Instr) :
    whenCounted (head ++ countedBytes w l) fixed w f = some (f l) := by
  have hcount : readU (head ++ countedBytes w l) (fixed - 1) 1 = l.length := by
    rw [hf, Nat.add_sub_cancel, readU_append_right le_rfl, Nat.sub_self, countedBytes, readU_first_bytesOf, readU_fits (by simpa using hl)]
  have hitems : readList (head ++ countedBytes w l) fixed w l.length = l := by
    have := readList_flatMap h (head ++ bytesOf 1 l.length)
    rwa [List.length_append, bytesOf_length, ← hf, List.append_assoc] at this
  have hlen : (head ++ countedBytes w l).length = fixed + w * l.length := by
    rw [List.length_append, countedBytes_length]
    omega
  rw [whenCounted, if_neg (by omega), hcount, if_pos hlen, hitems]

/-! ## Every request -/

/-- The payload of a well-formed request is read as that request (13.3, 13.4). -/
theorem readRequest_requestParts {i : Instr} {p : Port} {k : Kind} {payload : List Byte} (w : i.WellFormed)
    (h : requestParts i = some (p, k, payload)) : readRequest p k payload = some i := by
  cases i <;> cases h
  case setGeometry g =>
    exact (whenLength_eq (by simp [geometryBytes]) _).trans (by rw [readGeometry_geometryBytes w])
  case setCalibration fa fb =>
    obtain ⟨ha, hb⟩ := readCalibration_calibrationBytes w.1 w.2
    exact (whenLength_eq (by simp [calibrationBytes]) _).trans (by rw [ha, hb])
  case setSensors mf me sf se =>
    obtain ⟨h1, h2, h3, h4⟩ := w
    exact (whenLength_eq (by simp) _).trans (by simp [readU_fits h1, readU_fits h2, readU_fits h3, readU_fits h4])
  case setTrim enc t =>
    exact (whenLength_eq (by simp) _).trans (by simp [readU_fits w.1, readS_fits w.2])
  case selectSource x => exact (whenLength_eq (by simp) _).trans (by rw [readU_fits w])
  case setStrobe q => exact (whenLength_eq (by simp) _).trans (by rw [readU_fits w])
  case setMotion m => exact (whenLength_eq (by simp [motionBytes]) _).trans (by rw [readMotion_motionBytes w])
  case lineState x => exact (whenLength_eq (by simp) _).trans (by rw [readU_fits w])
  case loadPlan plan knives =>
    obtain ⟨hp, hl, hk⟩ := w
    exact (whenCounted_countedBytes hk (by omega) (by simp) _).trans (by rw [readU_first_bytesOf, readU_fits hp])
  case defect d => exact (whenLength_eq (by simp [defectBytes]) _).trans (by rw [readDefect_defectBytes w])
  case laneStatus job set lane st =>
    obtain ⟨h1, h2, h3, h4⟩ := w
    exact (whenLength_eq (by simp) _).trans (by simp [readU_fits h1, readU_fits h2, readU_fits h3, readU_fits h4])
  case releaseSet job set => exact (whenLength_eq (by simp) _).trans (by simp [readU_fits w.1, readU_fits w.2])
  case readSet job set first =>
    obtain ⟨h1, h2, h3⟩ := w
    exact (whenLength_eq (by simp) _).trans (by simp [readU_fits h1, readU_fits h2, readU_fits h3])
  case readLane job set lane list start =>
    obtain ⟨h1, h2, h3, h4, h5⟩ := w
    exact (whenLength_eq (by simp) _).trans
      (by simp [readU_fits h1, readU_fits h2, readU_fits h3, readU_fits h4, readU_fits h5])
  case spliceMade first last nums =>
    obtain ⟨hf, hs, hl, hn⟩ := w
    exact (whenCounted_countedBytes hn (by omega) (by simp) _).trans (by simp [readU_fits hf, readU_fits hs])
  case addStop form length => exact (whenLength_eq (by simp) _).trans (by simp [readU_fits w.1, readU_fits w.2])
  case cancelStop x => exact (whenLength_eq (by simp) _).trans (by rw [readU_fits w])
  case setTarget x => exact (whenLength_eq (by simp) _).trans (by rw [readU_fits w])
  case readStops x => exact (whenLength_eq (by simp) _).trans (by rw [readU_fits w])
  case readQueue x => exact (whenLength_eq (by simp) _).trans (by rw [readU_fits w])
  case jobStart j => exact (whenLength_eq (by simp [jobBytes]) _).trans (by rw [readJob_jobBytes w])
  case ackEvents kinds =>
    exact whenCounted_countedBytes (head := []) w.2 (by have := w.1; omega) (by simp) _
  case setAlerts master kinds =>
    obtain ⟨hm, hl, hk⟩ := w
    exact (whenCounted_countedBytes hk (by omega) (by simp) _).trans (by rw [readU_first_bytesOf, readU_fits hm])
  all_goals rfl

/-- A well-formed request has a payload that a frame can carry (10.3). -/
theorem payload_length_le {i : Instr} {p : Port} {k : Kind} {payload : List Byte} (w : i.WellFormed)
    (h : requestParts i = some (p, k, payload)) : payload.length ≤ 200 := by
  suffices hs : Laws.PayloadFits.Statement i from hs w _ h
  cases i
  case setGeometry => apply Laws.PayloadFits.setGeometry
  case setCalibration => apply Laws.PayloadFits.setCalibration
  case setMotion => apply Laws.PayloadFits.setMotion
  case loadPlan => apply Laws.PayloadFits.loadPlan
  case defect => apply Laws.PayloadFits.defect
  case spliceMade => apply Laws.PayloadFits.spliceMade
  case jobStart => apply Laws.PayloadFits.jobStart
  case ackEvents => apply Laws.PayloadFits.ackEvents
  case setAlerts => apply Laws.PayloadFits.setAlerts
  all_goals
    rintro - _ ⟨⟩
    all_goals simp

/-! ## The frame -/

theorem Kind.ofByte_byte (k : Kind) : Kind.ofByte k.byte = some k := by
  cases k <;> rfl

section Frame
variable {payload : List Byte} (hl : payload.length ≤ 200) (k : Kind)
include hl

theorem requestFrame_lengthByte : ((requestFrame k payload).getD 1 0).toNat = payload.length := by
  simp [requestFrame, withCheck]
  omega

theorem requestFrame_payload :
    ((requestFrame k payload).drop 2).take ((requestFrame k payload).getD 1 0).toNat = payload := by
  rw [requestFrame_lengthByte hl]
  simp [requestFrame, withCheck]

theorem requestFrame_isFramed : IsFramed (requestFrame k payload) false := by
  refine ⟨rfl, ?_, ?_, ?_, (frameSum_eq_zero_iff _).1 (frameSum_withCheck _)⟩
  · simp [requestFrame, withCheck]
  · rwa [requestFrame_lengthByte hl]
  · rw [requestFrame_lengthByte hl]
    simp [requestFrame, withCheck]
    omega

end Frame

/-- Settles O47, by cases over the requests: the payload of each is read back field by field, and its frame is one that
passes the checks of length and sum. -/
theorem everyRequestFrameReadsBack : Obligations.EveryRequestFrameReadsBack := by
  intro i p k payload w h hp
  have hl := payload_length_le w h
  refine ⟨hl, checkFrame_read (requestFrame_isFramed hl k) (Kind.ofByte_byte k) hp ?_⟩
  rw [requestFrame_payload hl]
  exact readRequest_requestParts w h

end Sys2Proof.Machine
end

