-- ==== Sys2Proof/Proofs/PostsAndGate.lean ====
section
/-! PROOFS. Which posts a kind's pending count depends on (R186), and what a gate close measures, posts and hands on (R25 to R29,
R33, R35). -/

namespace Sys2Proof.Machine

/-! ## The pending entry of one kind -/

/-- A post of another kind leaves a kind's entry as it was, in any list. -/
theorem filter_bumpPending_other {k j : EventKind} (h : j ≠ k) (l : List (EventKind × Nat)) :
    (bumpPending j l).filter (fun e => decide (e.1 = k)) = l.filter (fun e => decide (e.1 = k)) := by
  induction l with
  | nil => simp [bumpPending, h]
  | cons e rest ih =>
    obtain ⟨i, n⟩ := e
    unfold bumpPending
    by_cases hi : i = j
    · simp [hi, h]
    by_cases hlt : j.code < i.code
    · simp [hi, hlt, h]
    · simp [hi, hlt, List.filter_cons, ih]

/-- A kind's entry after a post of the kind: counted from 1, or one higher. -/
def bumpedEntry (k : EventKind) : List (EventKind × Nat) → List (EventKind × Nat)
  | [] => [(k, 1)]
  | (_, n) :: rest => (k, holdAt 255 (n + 1)) :: rest

/-- In a list in the order of 11.1 the entry that a post leaves depends on the kind's own entry alone. -/
theorem filter_bumpPending_self {k : EventKind} {l : List (EventKind × Nat)}
    (h : l.Pairwise (fun a b => a.1.code < b.1.code)) :
    (bumpPending k l).filter (fun e => decide (e.1 = k)) = bumpedEntry k (l.filter (fun e => decide (e.1 = k))) := by
  induction l with
  | nil => simp [bumpPending, bumpedEntry]
  | cons e rest ih =>
    obtain ⟨i, n⟩ := e
    obtain ⟨hlt, hrest⟩ := List.pairwise_cons.1 h
    unfold bumpPending
    by_cases hi : i = k
    · simp [hi, bumpedEntry]
    by_cases hk : k.code < i.code
    · have hnone : rest.filter (fun e => decide (e.1 = k)) = [] := by
        refine List.filter_eq_nil_iff.2 fun e he hek => ?_
        have := hlt e he
        rw [of_decide_eq_true hek] at this
        exact absurd this (by simp only; omega)
      simp [hi, hk, hnone, bumpedEntry]
    · simp [hi, hk, ih hrest]

/-! ## Kinds pending alike (R186) -/

namespace State

theorem PendsAs.refl (s : State) (k : EventKind) : s.PendsAs k s := fun _ _ => rfl

theorem PendsAs.of_alerts {s t : State} (h : t.alerts = s.alerts) (k : EventKind) : t.PendsAs k s := by
  intro p _
  rw [h]

theorem PendsAs.symm {s t : State} {k : EventKind} (h : t.PendsAs k s) : s.PendsAs k t := fun p hp => (h p hp).symm

theorem PendsAs.trans {s t u : State} {k : EventKind} (h : t.PendsAs k s) (g : s.PendsAs k u) : t.PendsAs k u :=
  fun p hp => (h p hp).trans (g p hp)

/-- A post of another kind leaves the kind pending as it was. -/
theorem pendsAs_post_other {k j : EventKind} (h : j ≠ k) (s : State) : (s.post j).PendsAs k s := by
  intro p _
  rw [State.post_alerts, ByPort.get_map, Station.post_pending, filter_bumpPending_other h]

theorem pendsAs_postAll_of_not_mem {k : EventKind} {ks : List EventKind} (h : k ∉ ks) (s : State) :
    (s.postAll ks).PendsAs k s := by
  induction ks generalizing s with
  | nil => exact .refl s k
  | cons j ks ih =>
    rw [List.mem_cons, not_or] at h
    exact (ih h.2 (s.post j)).trans (pendsAs_post_other (Ne.symm h.1) s)

theorem PendsAs.post {s t : State} {k : EventKind} (h : t.PendsAs k s) (ht : t.AlertsSound) (hs : s.AlertsSound)
    (j : EventKind) : (t.post j).PendsAs k (s.post j) := by
  by_cases hj : j = k
  · subst hj
    intro p hp
    rw [State.post_alerts, State.post_alerts, ByPort.get_map, ByPort.get_map, Station.post_pending, Station.post_pending,
      filter_bumpPending_self (ht.get p).1, filter_bumpPending_self (hs.get p).1, h p hp]
  · exact (pendsAs_post_other hj t).trans (h.trans (pendsAs_post_other hj s).symm)

theorem PendsAs.postAll {s t : State} {k : EventKind} (h : t.PendsAs k s) (ht : t.AlertsSound) (hs : s.AlertsSound)
    (ks : List EventKind) : (t.postAll ks).PendsAs k (s.postAll ks) := by
  induction ks generalizing s t with
  | nil => exact h
  | cons j ks ih => exact ih (h.post ht hs j) (ht.post j) (hs.post j)

/-- A kind's pending count follows how often a list of posts names the kind. -/
theorem postAll_pendsAs_postTimes {s : State} (hs : s.AlertsSound) (k : EventKind) (ks : List EventKind) :
    (s.postAll ks).PendsAs k (s.postTimes (ks.count k) k) := by
  induction ks generalizing s with
  | nil => exact .refl s k
  | cons j ks ih =>
    have hrest := ih (hs.post j)
    by_cases hj : j = k
    · subst hj
      rwa [List.count_cons_self]
    · rw [List.count_cons_of_ne hj]
      exact hrest.trans ((pendsAs_post_other hj s).postAll (hs.post j) hs _)

theorem PendsAs.of_posts {s t : State} (hs : s.AlertsSound) {ks : List EventKind} (h : t.alerts = (s.postAll ks).alerts)
    {k : EventKind} {n : Nat} (hn : ks.count k = n) : t.PendsAs k (s.postTimes n k) := by
  subst hn
  exact (PendsAs.of_alerts h k).trans (postAll_pendsAs_postTimes hs k ks)

theorem PendsAs.of_posts_without {s t : State} {ks : List EventKind} (h : t.alerts = (s.postAll ks).alerts)
    {k : EventKind} (hk : k ∉ ks) : t.PendsAs k s :=
  (PendsAs.of_alerts h k).trans (pendsAs_postAll_of_not_mem hk s)

end State

/-- An evaluation posts no kind but its own (R144, R148, R151). -/
theorem evaluate_pendsAs {k : EventKind} (h : k ∉ evaluationPosts) (s : State) : (evaluate s).PendsAs k s := by
  obtain ⟨ks, hks, hposts⟩ := (evaluate_evaluated s).posts
  exact .of_posts_without hposts fun hmem => h (hks k hmem)

/-! ## The gate close -/

section Close
variable (m : Motion) (p : Nat)

theorem Motion.close_ring : (m.close p).ring =
    { d1 := m.ring.d2, d2 := m.ring.d3, d3 := m.ring.d4, d4 := (p : Int) - m.baseline } := rfl

theorem Motion.close_ring_sum :
    (m.close p).ring.sum = m.ring.d2 + m.ring.d3 + m.ring.d4 + ((p : Int) - m.baseline) := rfl

theorem Motion.close_direction_iff : (m.close p).direction = .forward ↔ 0 ≤ (m.close p).ring.sum := by
  rw [show (m.close p).direction = if 0 ≤ (m.close p).ring.sum then .forward else .reverse from rfl]
  split <;> simp [*]

theorem Motion.close_overspeed_iff :
    (m.close p).overspeed = true ↔ 20000 < (m.close p).ring.sum.natAbs * 25 / m.settings.gate := decide_eq_true_iff

theorem Motion.close_standstill_iff : (m.close p).standstill = true ↔
    (m.standstill = true ∧ (p : Int) - m.baseline = 0) ∨
    (m.standstill = false ∧ m.ring.d2 = 0 ∧ m.ring.d3 = 0 ∧ m.ring.d4 = 0 ∧ (p : Int) - m.baseline = 0) := by
  rw [show (m.close p).standstill = standstillAfter m.standstill (m.close p).ring ((p : Int) - m.baseline) from rfl,
    Motion.close_ring]
  cases m.standstill <;> simp [standstillAfter, Ring.still]

/-- The timer after a close (R35): it is `Motion.timerAfter` of the new STANDSTILL. -/
theorem Motion.close_timer :
    ((m.close p).timer, (m.close p).timerOn) = m.timerAfter (m.close p).standstill := rfl

end Close

theorem Motion.timerAfter_moved {m : Motion} (h : m.standstill = true) : m.timerAfter false = (m.timer, false) := by
  simp [Motion.timerAfter, h]

theorem Motion.timerAfter_checked {m : Motion} (h : m.standstill = false) (hr : m.report = .running) (hc : m.checkOpen = true) :
    m.timerAfter true = (m.settings.timeout, true) := by
  simp [Motion.timerAfter, h, hr, hc]

theorem Motion.timerAfter_unchecked {m : Motion} (h : m.standstill = false) (hc : m.report ≠ .running ∨ m.checkOpen = false) :
    m.timerAfter true = (m.timer, m.timerOn) := by
  rcases hc with hc | hc <;> simp [Motion.timerAfter, h, hc]

theorem Motion.timerAfter_same (m : Motion) : m.timerAfter m.standstill = (m.timer, m.timerOn) := by
  cases h : m.standstill <;> simp [Motion.timerAfter, h]

theorem motionHandedOn_iff (before after : Motion) : motionHandedOn before after = true ↔
    before.braking ≠ after.braking ∨ before.direction ≠ after.direction ∨ before.standstill ≠ after.standstill :=
  decide_eq_true_iff

theorem State.postAll_eq (ks : List EventKind) (s : State) : s.postAll ks = { s with alerts := (s.postAll ks).alerts } := by
  induction ks generalizing s with
  | nil => rfl
  | cons k ks ih => exact ih (s.post k)

theorem gateClosed_eq (s : State) : gateClosed s =
    { s with motion := s.motion.close s.length.p, inputs := s.inputs.newGate,
             alerts := (State.postAll (closeEvents s.motion (s.motion.close s.length.p)) s).alerts } := by
  have hal := State.postAll_alerts_congr (s := (s.withMotion (s.motion.close s.p)).withInputs s.inputs.newGate) (t := s) rfl
  rw [gateClosed, State.postAll_eq, hal]
  rfl

/-- The events of a close, by what begins with it (R27, R28). -/
theorem closeEvents_eq (before after : Motion) : closeEvents before after =
    (if after.overspeed = true ∧ before.overspeed = false then [.overspeed] else []) ++
    (if before.standstill = false ∧ after.standstill = true then [.standstillReached] else []) ++
    (if before.standstill = true ∧ after.standstill = false then [.motion] else []) := by
  simp [closeEvents, and_comm]

theorem closeGate_of_same {s : State} (hb : (s.motion.close s.length.p).braking = s.motion.braking)
    (hd : (s.motion.close s.length.p).direction = s.motion.direction)
    (hs : (s.motion.close s.length.p).standstill = s.motion.standstill) : closeGate s = gateClosed s := by
  rw [closeGate_eq, if_neg]
  rw [motionHandedOn_iff]
  exact fun h => h.elim (fun h => h hb.symm) fun h => h.elim (fun h => h hd.symm) fun h => h hs.symm

theorem closeGate_of_changed {s : State} (h : (s.motion.close s.length.p).braking ≠ s.motion.braking ∨
    (s.motion.close s.length.p).direction ≠ s.motion.direction ∨
    (s.motion.close s.length.p).standstill ≠ s.motion.standstill) : closeGate s = evaluate (gateClosed s) := by
  rw [closeGate_eq, if_pos]
  rw [motionHandedOn_iff]
  exact h.imp Ne.symm (Or.imp Ne.symm Ne.symm)

/-- A close hands on to the evaluation alone, or to nothing (R29). -/
theorem closeGate_evaluated (s : State) : Evaluated (gateClosed s) (closeGate s) := by
  rw [closeGate_eq]
  split
  · exact evaluate_evaluated _
  · exact .refl _

theorem PathRecord.GaveUp.without {r r' : PathRecord} (h : r.GaveUp r') :
    { r' with stopId := none } = { r with stopId := none } := by
  rcases h with rfl | rfl <;> rfl

/-- An evaluation changes no record but for its stop entry id (R72). -/
theorem Evaluated.records_without {s t : State} (h : Evaluated s t) :
    t.queue.records.map (fun r => { r with stopId := none }) = s.queue.records.map (fun r => { r with stopId := none }) := by
  obtain ⟨f, hf, hr⟩ := h.records
  rw [hr, List.map_map]
  exact List.map_congr_left fun r _ => (hf r).without

/-- Settles O6, from the figures of `Motion.close` and the two branches of the hand-on (R29). -/
theorem gateCloseMeasuresTheWeb : Obligations.GateCloseMeasuresTheWeb := by
  intro s hr hg delta sum raw
  have hm : (closeGate s).motion = s.motion.close s.length.p := closeGate_motion s
  have hev := closeGate_evaluated s
  have hgc := gateClosed_eq s
  have hin : (closeGate s).inputs = s.inputs.newGate := by rw [hev.frame, hgc]
  have htimer := Motion.close_timer s.motion s.length.p
  have hevents : closeEvents s.motion (s.motion.close s.length.p) =
      (if 20000 < raw ∧ s.motion.overspeed = false then [.overspeed] else []) ++
      (if s.motion.standstill = false ∧ (s.motion.close s.length.p).standstill = true then [.standstillReached] else []) ++
      (if s.motion.standstill = true ∧ (s.motion.close s.length.p).standstill = false then [.motion] else []) := by
    rw [closeEvents_eq]
    simp only [Motion.close_overspeed_iff]
    rfl
  refine ⟨closeGate s, exec_gateClose_of_due hr hg, ?_⟩
  rw [hm, hin]
  refine ⟨rfl, rfl, rfl, Motion.close_direction_iff _ _, rfl, Motion.close_overspeed_iff _ _, Motion.close_standstill_iff _ _,
    rfl, rfl, rfl, rfl, fun h0 h1 => ?_, fun h0 h1 hrun hopen => ?_, fun h0 h1 hcheck => ?_, fun hsame => ?_,
    fun hb hd hs => ?_, rfl, ?_, ?_, by simp⟩
  · rw [h1, Motion.timerAfter_moved h0] at htimer
    exact congrArg Prod.snd htimer
  · rw [h1, Motion.timerAfter_checked h0 hrun hopen] at htimer
    exact ⟨congrArg Prod.snd htimer, congrArg Prod.fst htimer⟩
  · rw [h1, Motion.timerAfter_unchecked h0 hcheck] at htimer
    exact ⟨congrArg Prod.snd htimer, congrArg Prod.fst htimer⟩
  · rw [← hsame, Motion.timerAfter_same] at htimer
    exact ⟨congrArg Prod.snd htimer, congrArg Prod.fst htimer⟩
  · rw [closeGate_of_same hb hd hs]
    simp
  · intro posts measured
    have hmeasured : gateClosed s = measured := by rw [hgc, hevents]
    refine ⟨fun hb hd hs => by rw [closeGate_of_same hb hd hs, hmeasured],
      fun h => by rw [closeGate_of_changed h, hmeasured], fun k hk => ?_⟩
    have hposts : (gateClosed s).PendsAs k (State.postAll posts s) := .of_alerts (by rw [hmeasured]) k
    obtain ⟨ks, hks, hal⟩ := hev.posts
    exact (State.PendsAs.of_posts_without hal fun h => hk (hks k h)).trans hposts
  · have hq := hev.queue
    have hrec := hev.records_without
    have hn := hev.numbers
    rw [hgc] at hq hrec hn
    exact ⟨hq, hrec, hn⟩

end Sys2Proof.Machine
end

