-- ==== Sys2Proof/Proofs/StopOffers.lean ====
section
/-! SUPPORT. Offers to the stop planner: the entry id given next (R137), the victim of an arbitration (R141), and what an offer, a
cancellation and a change of target make of the part, each by the list before its evaluation (R140 to R142, R153, R154). -/

namespace Sys2Proof.Machine

/-! ## The next number in a cycle (R56, R137) -/

theorem cycle_step {top n j : Nat} (h1 : 1 ≤ n) (h2 : n ≤ top) :
    (nextInCycle top n - 1 + j) % top = (n - 1 + (j + 1)) % top := by
  unfold nextInCycle
  split
  · congr 1
    omega
  · rw [show n = top by omega, show top - 1 + (j + 1) = j + top by omega, Nat.add_mod_right, Nat.sub_self, Nat.zero_add]

/-- The search ends at the `j`-th number of the cycle, every one before it in use, and at one in use only when it ends early. -/
theorem nextFree_passes {top : Nat} {used : List Nat} (fuel : Nat) {n : Nat} (h1 : 1 ≤ n) (h2 : n ≤ top) :
    ∃ j ≤ fuel, nextFree top used fuel n = (n - 1 + j) % top + 1 ∧ (∀ i < j, (n - 1 + i) % top + 1 ∈ used) ∧
      (j < fuel → nextFree top used fuel n ∉ used) := by
  have here : (n - 1 + 0) % top + 1 = n := by rw [Nat.add_zero, Nat.mod_eq_of_lt (by omega)]; omega
  induction fuel generalizing n with
  | zero => exact ⟨0, le_rfl, here.symm, by simp, by simp⟩
  | succ fuel ih =>
    unfold nextFree
    split
    next hused =>
      obtain ⟨hlo, hhi⟩ := nextInCycle_range (top := top) (n := n) (by omega)
      obtain ⟨j, hj, hfree, hpassed, hearly⟩ :=
        ih hlo (hhi h2) (by rw [Nat.add_zero, Nat.mod_eq_of_lt (by have := hhi h2; omega)]; omega)
      refine ⟨j + 1, by omega, by rw [hfree, cycle_step h1 h2], fun i hi => ?_, fun h => hearly (by omega)⟩
      cases i with
      | zero => rwa [here]
      | succ i =>
        rw [← cycle_step h1 h2]
        exact hpassed i (by omega)
    next hfree => exact ⟨0, by omega, here.symm, by simp, fun _ => hfree⟩

/-- With room in the cycle the number found is not in use, wherever the search begins. -/
theorem nextFree_not_mem {top : Nat} {used : List Nat} (n : Nat) (hl : used.length < top) :
    nextFree top used used.length n ∉ used := by
  by_cases hin : 1 ≤ n ∧ n ≤ top
  · exact (nextFree_spec hin.1 hin.2 hl).1
  by_cases hn : n ∈ used
  · obtain ⟨k, hk⟩ : ∃ k, used.length = k + 1 := Nat.exists_eq_succ_of_ne_zero (List.length_pos_of_mem hn).ne'
    have hnext : nextInCycle top n = 1 := by
      unfold nextInCycle
      split <;> omega
    rw [hk, nextFree, if_pos hn, hnext]
    obtain ⟨j, hj, hfree, hpassed, hearly⟩ := nextFree_passes (used := used) k (n := 1) le_rfl (by omega : 1 ≤ top)
    intro hmem
    obtain rfl : j = k := by
      by_contra hne
      exact hearly (by omega) hmem
    have hsub : n :: List.range' 1 (j + 1) ⊆ used := by
      intro x hx
      rcases List.mem_cons.1 hx with rfl | hx
      · exact hn
      obtain ⟨hx1, hx2⟩ := List.mem_range'_1.1 hx
      have hx' : (1 - 1 + (x - 1)) % top + 1 = x := by rw [Nat.mod_eq_of_lt (by omega)]; omega
      rcases Nat.lt_or_ge (x - 1) j with hlt | hge
      · rw [← hx']
        exact hpassed (x - 1) hlt
      · rw [hfree, show j = x - 1 by omega, hx'] at hmem
        exact hmem
    have hnodup : (n :: List.range' 1 (j + 1)).Nodup :=
      List.nodup_cons.2 ⟨fun h => hin (by have := List.mem_range'_1.1 h; omega), List.nodup_range'⟩
    have hlen := (List.subperm_of_subset hnodup hsub).length_le
    rw [List.length_cons, List.length_range'] at hlen
    omega
  · have : nextFree top used used.length n = n := by
      cases used with
      | nil => rfl
      | cons u us => exact if_neg hn
    rwa [this]

theorem nextFree_firstFree {top : Nat} {used : List Nat} {n : Nat} (h1 : 1 ≤ n) (h2 : n ≤ top) (hl : used.length < top)
    {held : Nat → Prop} (hh : ∀ k, held k ↔ k ∈ used) : FirstFree top n held (nextFree top used used.length n) := by
  obtain ⟨hnot, hlo, hhi, -⟩ := nextFree_spec h1 h2 hl
  obtain ⟨j, hj, hfree, hpassed, -⟩ := nextFree_passes (used := used) used.length h1 h2
  exact ⟨⟨hlo, hhi⟩, fun h => hnot ((hh _).1 h), j, by omega, hfree, fun i hi => (hh _).2 (hpassed i hi)⟩

theorem StopPlanner.Sound.freshId_firstFree {pl : StopPlanner} (h : pl.Sound) :
    FirstFree 255 pl.nextId (fun n => ∃ e ∈ pl.entries, e.id = n) pl.freshId := by
  obtain ⟨hlen, -, -, -, -, ⟨h1, h2⟩, -⟩ := h
  have hl : (pl.entries.map (·.id)).length = pl.entries.length := List.length_map _
  rw [StopPlanner.freshId, ← hl]
  exact nextFree_firstFree h1 h2 (by omega) fun k => by simp

theorem StopPlanner.Sound.insertion_lt {pl : StopPlanner} (h : pl.Sound) : ∀ x ∈ pl.entries, x.insertion < pl.insertions :=
  fun x hx => (h.2.2.2.2.1 x hx).2.2

/-- The id given next is not in use, in any list with room (R137). -/
theorem StopPlanner.freshId_not_mem {pl : StopPlanner} (h : pl.entries.length < 255) :
    ∀ x ∈ pl.entries, x.id ≠ pl.freshId := by
  intro x hx hid
  refine nextFree_not_mem (top := 255) (used := pl.entries.map (·.id)) pl.nextId (by rwa [List.length_map]) ?_
  rw [List.length_map, show nextFree 255 (pl.entries.map (·.id)) pl.entries.length pl.nextId = x.id from hid.symm]
  exact List.mem_map_of_mem hx

/-! ## The victim of an arbitration (R141) -/

/-- `v` goes before `x` in an arbitration: the lower priority, then the greater target, then the later insertion. -/
def StopEntry.GoesBefore (v x : StopEntry) : Prop :=
  v.kind.priority < x.kind.priority ∨ (v.kind.priority = x.kind.priority ∧
    (x.target < v.target ∨ (x.target = v.target ∧ x.insertion ≤ v.insertion)))

theorem StopEntry.GoesBefore.refl (v : StopEntry) : v.GoesBefore v := .inr ⟨rfl, .inr ⟨rfl, le_rfl⟩⟩

theorem StopEntry.GoesBefore.trans {a b c : StopEntry} (h : a.GoesBefore b) (g : b.GoesBefore c) : a.GoesBefore c := by
  unfold StopEntry.GoesBefore at *
  omega

/-- One step of the search for the victim. -/
def weakerOf (best : Option StopEntry) (e : StopEntry) : Option StopEntry :=
  match best with
  | none => some e
  | some b =>
    if e.kind.priority < b.kind.priority ∨ (e.kind.priority = b.kind.priority ∧ b.target ≤ e.target) then some e
    else some b

theorem victimOf_eq (priority : Nat) (l : List StopEntry) : victimOf priority l =
    (l.filter (fun e => !e.active && decide (e.kind.priority < priority))).foldl weakerOf none := rfl

theorem weakerOf_eq {b e : StopEntry} (h : b.before e = true) :
    ∃ w, weakerOf (some b) e = some w ∧ (w = b ∨ w = e) ∧ w.GoesBefore b ∧ w.GoesBefore e := by
  replace h := of_decide_eq_true h
  by_cases hc : e.kind.priority < b.kind.priority ∨ (e.kind.priority = b.kind.priority ∧ b.target ≤ e.target)
  · refine ⟨e, if_pos hc, .inr rfl, ?_, .refl e⟩
    unfold StopEntry.GoesBefore
    omega
  · refine ⟨b, if_neg hc, .inl rfl, .refl b, ?_⟩
    unfold StopEntry.GoesBefore
    omega

theorem foldl_weakerOf {b : StopEntry} {l : List StopEntry} (h : (b :: l).Pairwise (fun x y => x.before y = true)) :
    ∃ v ∈ b :: l, l.foldl weakerOf (some b) = some v ∧ ∀ x ∈ b :: l, v.GoesBefore x := by
  induction l generalizing b with
  | nil => exact ⟨b, by simp, rfl, by simpa using .refl b⟩
  | cons e l ih =>
    obtain ⟨hb, hl⟩ := List.pairwise_cons.1 h
    obtain ⟨hel, hrest⟩ := List.pairwise_cons.1 hl
    obtain ⟨w, hw, hwhich, hwb, hwe⟩ := weakerOf_eq (hb e (by simp))
    have hpair : (w :: l).Pairwise (fun x y => x.before y = true) := by
      refine List.pairwise_cons.2 ⟨fun y hy => ?_, hrest⟩
      rcases hwhich with rfl | rfl
      · exact hb y (by simp [hy])
      · exact hel y hy
    obtain ⟨v, hv, hfold, hall⟩ := ih hpair
    refine ⟨v, ?_, by rw [List.foldl_cons, hw, hfold], fun x hx => ?_⟩
    · rcases List.mem_cons.1 hv with rfl | hv
      · rcases hwhich with rfl | rfl <;> simp
      · simp [hv]
    · have hvw := hall w (by simp)
      rcases List.mem_cons.1 hx with rfl | hx
      · exact hvw.trans hwb
      rcases List.mem_cons.1 hx with rfl | hx
      · exact hvw.trans hwe
      · exact hall x (by simp [hx])

theorem StopPlanner.isVictim_of_victimOf {pl : StopPlanner} (h : pl.Sound) {priority : Nat} {v : StopEntry}
    (hv : victimOf priority pl.entries = some v) : pl.IsVictim priority v := by
  have hpair := h.2.1.filter (p := fun e => !e.active && decide (e.kind.priority < priority))
  have hmem (x : StopEntry) : x ∈ pl.entries.filter (fun e => !e.active && decide (e.kind.priority < priority)) ↔
      x ∈ pl.entries ∧ x.active = false ∧ x.kind.priority < priority := by simp
  rw [victimOf_eq] at hv
  generalize pl.entries.filter (fun e => !e.active && decide (e.kind.priority < priority)) = l at hpair hmem hv
  cases l with
  | nil => simp at hv
  | cons b l =>
    obtain ⟨w, hw, hfold, hall⟩ := foldl_weakerOf hpair
    obtain rfl : w = v := Option.some.inj (hfold.symm.trans hv)
    obtain ⟨hin, ha, hp⟩ := (hmem w).1 hw
    exact ⟨hin, ha, hp, fun x hx hxa hxp => hall x ((hmem x).2 ⟨hx, hxa, hxp⟩)⟩

/-- Two victims are one: each goes before the other, and no two entries have one insertion number. -/
theorem StopPlanner.IsVictim.unique {pl : StopPlanner} (h : pl.Sound) {priority : Nat} {v w : StopEntry}
    (hv : pl.IsVictim priority v) (hw : pl.IsVictim priority w) : v = w := by
  obtain ⟨hvm, hva, hvp, hvall⟩ := hv
  obtain ⟨hwm, hwa, hwp, hwall⟩ := hw
  have hvw := hvall w hwm hwa hwp
  have hwv := hwall v hvm hva hvp
  exact List.inj_on_of_nodup_map h.2.2.2.1 hvm hwm (show v.insertion = w.insertion by omega)

theorem victimOf_eq_none_iff {priority : Nat} {l : List StopEntry} :
    victimOf priority l = none ↔ ∀ x ∈ l, x.active = false → priority ≤ x.kind.priority := by
  rw [(victimOf_spec priority l).1]
  exact forall₂_congr fun x _ => by cases x.active <;> simp

/-- In a sound list the search finds the victim. -/
theorem StopPlanner.IsVictim.victimOf {pl : StopPlanner} (h : pl.Sound) {priority : Nat} {v : StopEntry}
    (hv : pl.IsVictim priority v) : victimOf priority pl.entries = some v := by
  cases hw : Machine.victimOf priority pl.entries with
  | none =>
    obtain ⟨hvm, hva, hvp, -⟩ := hv
    have := victimOf_eq_none_iff.1 hw v hvm hva
    omega
  | some w => rw [(isVictim_of_victimOf h hw).unique h hv]

/-! ## An insertion (R140) -/

/-- The part with an offer's entry in the list, before the evaluation: the entry stands at its place in target order (R135), in any
list. -/
def State.stopPlaced (o : StopOffer) (s : State) : State :=
  { s with
    stops := StopPlanner.changed
      { s.stops with entries := placeStop (o.entry s.stops.freshId s.stops.insertions) s.stops.entries,
                     nextId := nextInCycle 255 s.stops.freshId, insertions := s.stops.insertions + 1 } 1
    queue := s.queue.withStopId (fun r => decide (o.ref = .record r.body.number)) (some s.stops.freshId) }

theorem insertStop_placed (o : StopOffer) (s : State) : insertStop o s = (evaluate (s.stopPlaced o), s.stops.freshId) := by
  cases h : o.ref with
  | record n =>
    have hn : (fun r : PathRecord => decide (o.ref = .record r.body.number)) = fun r => decide (r.body.number = n) := by
      funext r
      rw [h]
      simp [eq_comm]
    unfold State.stopPlaced
    rw [hn]
    simp [insertStop, h, storeStopId_eq, State.withStops]
  | _ =>
    have hn : s.queue.records.any (fun r => decide (o.ref = .record r.body.number)) = false := by simp [h]
    unfold State.stopPlaced
    rw [withStopId_none _ hn]
    simp [insertStop, h, State.withStops]

/-- Where every entry has an earlier insertion number the place is behind the targets up to its own. -/
theorem stopPlaced_eq (o : StopOffer) {s : State} (h : ∀ x ∈ s.stops.entries, x.insertion < s.stops.insertions) :
    s.stopPlaced o = s.stopInserted o := by
  rw [State.stopPlaced, placeStop_eq_placedIn h]
  rfl

section Placed
variable (o : StopOffer) {s : State} (h : s.stops.entries.length < 255)
include h

/-- The entry an offer becomes stands in the list, as the only one with its id (R137). -/
theorem stopPlaced_holdsOnce : (s.stopPlaced o).stops.HoldsOnce (o.entry s.stops.freshId s.stops.insertions) := by
  refine ⟨mem_placeStop.2 (.inl rfl), fun y hy hid => ?_⟩
  rcases mem_placeStop.1 hy with rfl | hy
  · rfl
  · exact absurd hid (StopPlanner.freshId_not_mem h y hy)

theorem stopPlaced_keeps {e : StopEntry} (he : s.stops.HoldsOnce e) : (s.stopPlaced o).stops.HoldsOnce e := by
  refine ⟨mem_placeStop.2 (.inr he.1), fun y hy hid => ?_⟩
  rcases mem_placeStop.1 hy with rfl | hy
  · exact absurd hid.symm (StopPlanner.freshId_not_mem h e he.1)
  · exact he.2 y hy hid

/-- In motion and in a cut the new entry is still in the list after the evaluation, as it was placed. -/
theorem evaluate_stopPlaced_entry (hq : s.motion.standstill = false ∨ s.job.state.isCutOpen = true) :
    ∃ e ∈ (evaluate (s.stopPlaced o)).stops.entries, e.SameAs (o.entry s.stops.freshId s.stops.insertions) := by
  obtain ⟨x, hx, hsame⟩ := (evaluate_evaluated (s.stopPlaced o)).stays hq _ (stopPlaced_holdsOnce o h)
  exact ⟨x, hx.1, hsame⟩

end Placed

/-- In motion and in a cut the records hold after the evaluation what the insertion gave them. -/
theorem evaluate_stopPlaced_queue (o : StopOffer) {s : State}
    (hq : s.motion.standstill = false ∨ s.job.state.isCutOpen = true) :
    (evaluate (s.stopPlaced o)).queue = (s.stopPlaced o).queue := (evaluate_evaluated _).queueStays hq

/-! ## An offer (R140, R141) -/

theorem offerStop_with_room (o : StopOffer) {s : State} (h : s.stops.entries.length < 16) :
    offerStop o s = (evaluate (s.stopPlaced o), some s.stops.freshId) := by
  rw [offerStop, if_pos h, insertStop_placed]

theorem offerStop_of_room (o : StopOffer) {s : State} (h : s.stops.entries.length < 16)
    (hs : ∀ x ∈ s.stops.entries, x.insertion < s.stops.insertions) :
    offerStop o s = (evaluate (s.stopInserted o), some s.stops.freshId) := by
  rw [offerStop_with_room o h, stopPlaced_eq o hs]

theorem offerStop_without_victim (o : StopOffer) {s : State} (h : 16 ≤ s.stops.entries.length)
    (hv : ∀ x ∈ s.stops.entries, x.active = false → o.kind.priority ≤ x.kind.priority) :
    offerStop o s =
      ({ s with alerts := if o.origin = .internal then s.alerts.map (Station.post .stopDropped) else s.alerts }, none) := by
  rw [offerStop, if_neg (by omega), victimOf_eq_none_iff.2 hv]
  by_cases ho : o.origin = .internal
  · simp [State.postIf, ho, State.post]
  · simp [State.postIf, ho]

/-- The part between an eviction and the insertion it makes room for (R141; log entry 21). -/
def State.evicted (s : State) (v : StopEntry) : State :=
  evaluate { s.stopRemoved v with alerts := s.alerts.map (Station.post .stopDropped) }

theorem evaluate_insertions_lt {s : State} (h : ∀ x ∈ s.stops.entries, x.insertion < s.stops.insertions) :
    ∀ x ∈ (evaluate s).stops.entries, x.insertion < (evaluate s).stops.insertions := by
  have hev := evaluate_evaluated s
  intro x hx
  obtain ⟨e, he, -, -, -, -, -, -, -, hins⟩ := hev.entries x hx
  rw [hins, hev.numbers.2]
  exact h e he

theorem State.evicted_insertions_lt {s : State} (h : s.stops.Sound) (v : StopEntry) :
    ∀ x ∈ (s.evicted v).stops.entries, x.insertion < (s.evicted v).stops.insertions :=
  evaluate_insertions_lt fun x hx => h.insertion_lt x (List.mem_of_mem_filter hx)

theorem offerStop_evicting (o : StopOffer) {s : State} (hs : s.stops.Sound) (h : 16 ≤ s.stops.entries.length) {v : StopEntry}
    (hv : s.stops.IsVictim o.kind.priority v) :
    offerStop o s = (evaluate ((s.evicted v).stopInserted o), some (s.evicted v).stops.freshId) := by
  have hpost : evaluate ((removeStop v s).post .stopDropped) = s.evicted v := by rw [removeStop_eq]; rfl
  rw [offerStop, if_neg (by omega), hv.victimOf hs]
  simp only [hpost]
  rw [insertStop_eq o (State.evicted_insertions_lt hs v)]

/-- What an offer makes of the part is what R140 and R141 say. -/
theorem offerStop_taken (o : StopOffer) {s : State} (hs : s.stops.Sound) :
    OfferTaken o s (offerStop o s).1 (offerStop o s).2 := by
  refine ⟨fun h => ?_, fun h hno => ?_, fun h v _ hv => ?_⟩
  · rw [offerStop_of_room o h hs.insertion_lt]
    exact ⟨rfl, rfl⟩
  · rw [offerStop_without_victim o h hno]
    exact ⟨rfl, rfl⟩
  · intro u
    rw [offerStop_evicting o hs h hv]
    exact ⟨rfl, rfl⟩

theorem cancelStopId_eq {id : Nat} {e : StopEntry} {s : State}
    (h : s.stops.entries.find? (fun x => decide (x.id = id)) = some e) : cancelStopId id s = evaluate (s.stopRemoved e) := by
  simp only [cancelStopId, h, removeStop_eq]

/-- A change of target is an evaluation of the part with the entry moved (R153, R154). -/
theorem retargetStop_eq {e : StopEntry} {web target : Int} {s : State}
    (h : ∀ x ∈ s.stops.entries, x.insertion < s.stops.insertions) :
    retargetStop e web target s = evaluate (s.stopMoved e web target) := by
  rw [retargetStop, State.stopMoved]
  dsimp only
  rw [placeStop_eq_placedIn fun x hx => h x (List.mem_of_mem_filter hx)]
  rfl

/-! ## The list before the evaluation -/

theorem stopRemoved_keeps {v e : StopEntry} {s : State} (he : s.stops.HoldsOnce e) (hne : e.id ≠ v.id) :
    (s.stopRemoved v).stops.HoldsOnce e :=
  ⟨List.mem_filter.2 ⟨he.1, decide_eq_true hne⟩, fun y hy => he.2 y (List.mem_of_mem_filter hy)⟩

end Sys2Proof.Machine
end

