-- ==== Sys2Proof/Proofs/EvaluationRows.lean ====
section
/-! PROOFS. The rows of an evaluation (R143 to R151): the activation of the head, the overrun test, completions with their sweep,
and arbitration in a full list (R141). -/

namespace Sys2Proof.Machine

/-! ## Entries taken out one after the other (R142, R149, R155) -/

/-- Entries leave the list one after the other. -/
def State.stopsRemoved (l : List StopEntry) (s : State) : State := l.foldl (fun u e => u.stopRemoved e) s

/-- A record after the entries have left the list: it has given up the id of any of them that was made for it (R72). -/
def clearedFromAll (l : List StopEntry) (r : PathRecord) : PathRecord := l.foldl (fun r e => e.clearedFrom r) r

theorem clearedFrom_of_stopId_ne {e : StopEntry} {r : PathRecord} (h : r.stopId ≠ some e.id) : e.clearedFrom r = r :=
  if_neg fun hr => h hr.2

theorem clearedFrom_body (e : StopEntry) (r : PathRecord) : (e.clearedFrom r).body = r.body := by
  unfold StopEntry.clearedFrom
  split <;> rfl

theorem clearedFrom_stopId (e : StopEntry) (r : PathRecord) {id : Nat} : (e.clearedFrom r).stopId = some id ↔
    r.stopId = some id ∧ ¬ (e.ref = .record r.body.number ∧ e.id = id) := by
  unfold StopEntry.clearedFrom
  by_cases h : e.ref = .record r.body.number ∧ r.stopId = some e.id
  · rw [if_pos h]
    simp only [reduceCtorEq, h.1, h.2, Option.some.injEq, true_and, false_iff, not_and, not_not, imp_self]
  · rw [if_neg h]
    refine ⟨fun hid => ⟨hid, fun ⟨hr, he⟩ => h ⟨hr, he ▸ hid⟩⟩, And.left⟩

theorem clearedFromAll_body (l : List StopEntry) (r : PathRecord) : (clearedFromAll l r).body = r.body := by
  induction l generalizing r with
  | nil => rfl
  | cons e l ih => exact (ih _).trans (clearedFrom_body e r)

/-- A record keeps an id that no entry taken out was made for it with. -/
theorem clearedFromAll_stopId (l : List StopEntry) (r : PathRecord) {id : Nat} : (clearedFromAll l r).stopId = some id ↔
    r.stopId = some id ∧ ∀ e ∈ l, ¬ (e.ref = .record r.body.number ∧ e.id = id) := by
  induction l generalizing r with
  | nil => simp [clearedFromAll]
  | cons e l ih =>
    rw [clearedFromAll, List.foldl_cons, ← clearedFromAll, ih, clearedFrom_stopId, clearedFrom_body, List.forall_mem_cons]
    tauto

theorem clearedFromAll_gaveUp (l : List StopEntry) (r : PathRecord) : r.GaveUp (clearedFromAll l r) := by
  induction l generalizing r with
  | nil => exact .inl rfl
  | cons e l ih => exact (e.gaveUp_clearedFrom r).trans (ih _)

theorem stopsRemoved_frame (l : List StopEntry) (s : State) :
    s.stopsRemoved l = { s with stops := (s.stopsRemoved l).stops, queue := (s.stopsRemoved l).queue } := by
  induction l generalizing s with
  | nil => rfl
  | cons e l ih => exact ih (s.stopRemoved e)

theorem stopsRemoved_entries (l : List StopEntry) (s : State) :
    (s.stopsRemoved l).stops.entries = s.stops.entries.filter (fun x => decide (x.id ∉ l.map (·.id))) := by
  induction l generalizing s with
  | nil => simp [State.stopsRemoved]
  | cons e l ih =>
    rw [State.stopsRemoved, List.foldl_cons, ← State.stopsRemoved, ih]
    rw [State.stopRemoved, List.filter_filter]
    refine List.filter_congr fun x _ => ?_
    rw [← Bool.decide_and, decide_eq_decide, List.map_cons, List.mem_cons, not_or, and_comm]

theorem stopsRemoved_stops (l : List StopEntry) (s : State) :
    (s.stopsRemoved l).stops = { s.stops with entries := (s.stopsRemoved l).stops.entries,
                                              changes := (s.stopsRemoved l).stops.changes } ∧
      (s.stopsRemoved l).stops.changes % 65536 = (s.stops.changes + l.length) % 65536 := by
  induction l generalizing s with
  | nil => exact ⟨rfl, rfl⟩
  | cons e l ih =>
    obtain ⟨hframe, hchanges⟩ := ih (s.stopRemoved e)
    refine ⟨hframe, hchanges.trans ?_⟩
    rw [show (s.stopRemoved e).stops.changes = (s.stops.changes + 1) % 65536 from rfl, List.length_cons]
    omega

theorem stopsRemoved_queue (l : List StopEntry) (s : State) :
    (s.stopsRemoved l).queue = { s.queue with records := s.queue.records.map (clearedFromAll l),
                                              changes := (s.stopsRemoved l).queue.changes } := by
  induction l generalizing s with
  | nil =>
    rw [show clearedFromAll [] = id from rfl, List.map_id]
    rfl
  | cons e l ih =>
    refine (ih (s.stopRemoved e)).trans ?_
    rw [stopRemoved_records, List.map_map]
    rfl

/-- An entry that was made for a record which holds its id. -/
def StopEntry.heldIn (e : StopEntry) (q : PathQueue) : Bool :=
  q.records.any (fun r => decide (e.ref = .record r.body.number ∧ r.stopId = some e.id))

theorem heldIn_of_stopRemoved {e x : StopEntry} {s : State} (h : x.id ≠ e.id) :
    x.heldIn (s.stopRemoved e).queue = x.heldIn s.queue := by
  unfold StopEntry.heldIn
  rw [stopRemoved_records, List.any_map]
  congr 1
  funext r
  simp only [Function.comp_apply, clearedFrom_body, clearedFrom_stopId, decide_eq_decide]
  refine and_congr_right fun _ => ⟨And.left, fun hid => ⟨hid, fun he => h he.2.symm⟩⟩

/-- The queue's change count rises by 1 for each id given up (R181). -/
theorem stopsRemoved_queue_changes {l : List StopEntry} (h : (l.map (·.id)).Nodup) (s : State) :
    (s.stopsRemoved l).queue.changes % 65536 = (s.queue.changes + l.countP (fun x => x.heldIn s.queue)) % 65536 := by
  induction l generalizing s with
  | nil => rfl
  | cons e l ih =>
    obtain ⟨hnot, hnodup⟩ := List.nodup_cons.1 h
    have hheld : l.countP (fun x => x.heldIn (s.stopRemoved e).queue) = l.countP (fun x => x.heldIn s.queue) :=
      List.countP_congr fun x hx => by
        rw [heldIn_of_stopRemoved fun hid => hnot (List.mem_map.2 ⟨x, hx, hid⟩)]
    have hone : (s.stopRemoved e).queue.changes = if e.heldIn s.queue then (s.queue.changes + 1) % 65536 else s.queue.changes := rfl
    rw [State.stopsRemoved, List.foldl_cons, ← State.stopsRemoved, ih hnodup, hheld, hone, List.countP_cons]
    cases e.heldIn s.queue
    · rfl
    · simp only [if_true]
      omega

/-! ## The sweep (R149) -/

/-- The part with a last stop record and station records (R148). -/
def State.withLastStop (o : Option LastStop) (a : ByPort Station) (s : State) : State :=
  { s with stops := { s.stops with lastStop := o }, alerts := a }

theorem stopsRemoved_withLastStop (l : List StopEntry) (o : Option LastStop) (a : ByPort Station) (s : State) :
    (s.withLastStop o a).stopsRemoved l = (s.stopsRemoved l).withLastStop o a := by
  induction l generalizing s with
  | nil => rfl
  | cons e l ih => exact ih (s.stopRemoved e)

theorem completeStop_eq_withLastStop (e : StopEntry) (late : Bool) (shortfall : Nat) (s : State) :
    completeStop e late shortfall s =
      (s.stopRemoved e).withLastStop (some (s.stopRecord e late shortfall)) (s.post .stopReached).alerts :=
  completeStop_eq e late shortfall s

/-- The state after a sweep that takes out the entries given, in their order. -/
def State.swept (l : List StopEntry) (s : State) : State :=
  (s.stopsRemoved l).withLastStop (l.getLast?.elim s.stops.lastStop fun x => some (s.stopRecord x false 0))
    (s.postAll (List.replicate l.length .stopReached)).alerts

theorem completeStop_swept (e : StopEntry) (l : List StopEntry) (s : State) :
    (completeStop e false 0 s).swept l = s.swept (e :: l) := by
  have halerts : (State.postAll (List.replicate l.length .stopReached) (completeStop e false 0 s)).alerts =
      (s.postAll (List.replicate (e :: l).length .stopReached)).alerts :=
    State.postAll_alerts_congr (s := completeStop e false 0 s) (t := s.post .stopReached) (by rw [completeStop_eq]) _
  have hlast : (l.getLast?.elim (completeStop e false 0 s).stops.lastStop fun x =>
      some ((completeStop e false 0 s).stopRecord x false 0)) =
      (e :: l).getLast?.elim s.stops.lastStop fun x => some (s.stopRecord x false 0) := by
    rw [completeStop_eq, List.getLast?_cons]
    cases l.getLast? <;> rfl
  rw [State.swept, State.swept, halerts, hlast, completeStop_eq_withLastStop, stopsRemoved_withLastStop]
  rfl

theorem sweepStops_eq {s : State} {l : List StopEntry} (hl : s.stops.entries.filter s.inReach = l)
    (h : (s.stops.entries.map (·.id)).Nodup) {fuel : Nat} (hf : l.length ≤ fuel) : sweepStops fuel s = s.swept l := by
  induction l generalizing s fuel with
  | nil =>
    have hnone : s.stops.entries.find? s.inReach = none := by rw [← List.head?_filter, hl]; rfl
    cases fuel with
    | zero => rfl
    | succ n =>
      rw [sweepStops]
      simp only [hnone]
      rfl
  | cons e l ih =>
    obtain ⟨n, rfl⟩ : ∃ n, fuel = n + 1 := ⟨fuel - 1, by simp at hf; omega⟩
    have hsome : s.stops.entries.find? s.inReach = some e := by rw [← List.head?_filter, hl]; rfl
    have hids : ((e :: l).map (·.id)).Nodup := by
      rw [← hl]
      exact h.sublist (List.filter_sublist.map _)
    have hentries : (completeStop e false 0 s).stops.entries = s.stops.entries.filter (fun x => decide (x.id ≠ e.id)) := by
      rw [completeStop_eq]
    have hrest : (completeStop e false 0 s).stops.entries.filter (completeStop e false 0 s).inReach = l := by
      have hreach : (completeStop e false 0 s).inReach = s.inReach := by
        rw [completeStop_eq]
        rfl
      rw [hreach, hentries, List.filter_filter]
      simp only [Bool.and_comm]
      rw [← List.filter_filter, hl, List.filter_cons_of_neg (by simp), List.filter_eq_self]
      intro x hx
      exact decide_eq_true fun hid => (List.nodup_cons.1 hids).1 (List.mem_map.2 ⟨x, hx, hid⟩)
    rw [sweepStops]
    simp only [hsome]
    rw [ih hrest (by rw [hentries]; exact h.sublist (List.filter_sublist.map _)) (by simpa using hf), completeStop_swept]

/-! ## A completion and its sweep (R148 to R150) -/

theorem State.inReach_iff {s : State} {e : StopEntry} : s.inReach e = true ↔
    e.active = false ∧ e.target ≤ (s.length.p : Int) + s.motion.settings.tolerance := by
  rw [State.inReach, Bool.and_eq_true, Bool.not_eq_true', decide_eq_true_iff]
  rfl

/-- The entries that the sweep after a completion takes (R149). -/
def State.sweptAfter (u : State) (e : StopEntry) : List StopEntry :=
  (u.stops.entries.filter (fun x => decide (x.id ≠ e.id))).filter u.inReach

theorem completeAndSweep_eq (e : StopEntry) {u : State} (h : (u.stops.entries.map (·.id)).Nodup) :
    completeAndSweep e u = (u.stopsRemoved (e :: u.sweptAfter e)).withLastStop
      ((u.sweptAfter e).getLast?.elim (some (u.stopRecord e e.late e.shortfall)) fun x => some (u.stopRecord x false 0))
      (u.postAll (List.replicate ((u.sweptAfter e).length + 1) .stopReached)).alerts := by
  have hentries : (completeStop e e.late e.shortfall u).stops.entries =
      u.stops.entries.filter (fun x => decide (x.id ≠ e.id)) := by rw [completeStop_eq]
  have hreach : (completeStop e e.late e.shortfall u).inReach = u.inReach := by
    rw [completeStop_eq]
    rfl
  have halerts : (State.postAll (List.replicate (u.sweptAfter e).length .stopReached)
      (completeStop e e.late e.shortfall u)).alerts =
      (u.postAll (List.replicate ((u.sweptAfter e).length + 1) .stopReached)).alerts :=
    State.postAll_alerts_congr (t := u.post .stopReached) (by rw [completeStop_eq]) _
  have hlength : (u.sweptAfter e).length ≤ u.stops.entries.length :=
    (List.length_filter_le _ _).trans (List.length_filter_le _ _)
  rw [completeAndSweep, sweepStops_eq (l := u.sweptAfter e) (by rw [hentries, hreach]; rfl)
    (by rw [hentries]; exact h.sublist (List.filter_sublist.map _)) hlength, State.swept, halerts,
    completeStop_eq_withLastStop, stopsRemoved_withLastStop]
  rfl

theorem State.sweptAfter_ids {u : State} {e : StopEntry} (h : (u.stops.entries.map (·.id)).Nodup) :
    ((e :: u.sweptAfter e).map (·.id)).Nodup := by
  refine List.nodup_cons.2 ⟨fun hmem => ?_, h.sublist ((List.filter_sublist.trans List.filter_sublist).map _)⟩
  obtain ⟨x, hx, hid⟩ := List.mem_map.1 hmem
  exact of_decide_eq_true (List.mem_filter.1 (List.mem_of_mem_filter hx)).2 hid

theorem StopPlanner.eq_of_numbers {a b : StopPlanner} (hn : a.nextId = b.nextId) (hi : a.insertions = b.insertions) :
    a = { b with entries := a.entries, lastStop := a.lastStop, changes := a.changes } := by
  rw [← hn, ← hi]

/-- The part in which an entry completes, against the part `s` that the evaluation began with: the entry may just have been
activated, with its events (R144, R145). -/
structure Completing (first e : StopEntry) (before : List EventKind) (activations : Nat) (s u : State) : Prop where
  frame : u = { s with stops := u.stops, alerts := (s.postAll before).alerts }
  stops : u.stops = { s.stops with entries := u.stops.entries, changes := u.stops.changes }
  changes : u.stops.changes % 65536 = (s.stops.changes + activations) % 65536
  ids : u.stops.entries.map (·.id) = s.stops.entries.map (·.id)
  others : u.stops.entries.filter (fun x => decide (x.id ≠ first.id)) = s.stops.entries.filter (fun x => decide (x.id ≠ first.id))
  same : e.SameAs first

section Completing
variable {first e : StopEntry} {before : List EventKind} {activations : Nat} {s u : State}
  (h : Completing first e before activations s u) (hids : (s.stops.entries.map (·.id)).Nodup)
include h

theorem Completing.swept_eq : u.sweptAfter e = s.sweptWith first := by
  have hreach : u.inReach = s.inReach := by rw [h.frame]; rfl
  rw [State.sweptAfter, h.same.1, h.others, hreach, List.filter_filter, State.sweptWith]
  refine List.filter_congr fun x _ => ?_
  rw [Bool.eq_iff_iff]
  rw [Bool.and_eq_true, State.inReach_iff, decide_eq_true_iff, decide_eq_true_iff]
  tauto

theorem Completing.record_eq (late : Bool) (shortfall : Nat) : u.stopRecord e late shortfall = s.recordOf first late shortfall := by
  obtain ⟨hid, hkind, -, -, -, -, htarget, -⟩ := h.same
  rw [h.frame, State.stopRecord, hid, hkind, htarget]
  rfl

theorem Completing.record_eq_of_swept (x : StopEntry) (late : Bool) (shortfall : Nat) :
    u.stopRecord x late shortfall = s.recordOf x late shortfall := by
  rw [h.frame]
  rfl

include hids

/-- The entries that are left: neither the completed one nor one that the sweep took. -/
theorem Completing.entries_left : (u.stopsRemoved (e :: s.sweptWith first)).stops.entries =
    s.stops.entries.filter (fun x => decide (x.id ≠ first.id ∧ x ∉ s.sweptWith first)) := by
  have hleft : (u.stopsRemoved (e :: s.sweptWith first)).stops.entries =
      (u.stops.entries.filter (fun x => decide (x.id ≠ first.id))).filter
        (fun x => decide (x.id ∉ (s.sweptWith first).map (·.id))) := by
    rw [stopsRemoved_entries, List.filter_filter]
    refine List.filter_congr fun x _ => ?_
    rw [← Bool.decide_and, decide_eq_decide, List.map_cons, List.mem_cons, not_or, h.same.1, and_comm]
  rw [hleft, h.others, List.filter_filter]
  refine List.filter_congr fun x hx => ?_
  rw [← Bool.decide_and, decide_eq_decide, and_comm]
  refine and_congr_right fun _ => not_congr ⟨fun hmem => ?_, fun hmem => List.mem_map_of_mem hmem⟩
  obtain ⟨y, hy, hid⟩ := List.mem_map.1 hmem
  rwa [← List.inj_on_of_nodup_map hids (List.mem_of_mem_filter hy) hx hid]

/-- A completion and its sweep are what R148 to R150 say. -/
theorem Completing.follows : CompletionFollows first e.late e.shortfall before activations s (completeAndSweep e u) := by
  have hidsu : (u.stops.entries.map (·.id)).Nodup := h.ids ▸ hids
  have hqueue : u.queue = s.queue := by rw [h.frame]
  have hnodup := State.sweptAfter_ids (e := e) hidsu
  have hswept := h.swept_eq
  rw [hswept] at hnodup
  rw [completeAndSweep_eq e hidsu, hswept]
  obtain ⟨hstops, hchanges⟩ := stopsRemoved_stops (e :: s.sweptWith first) u
  have hq := stopsRemoved_queue (e :: s.sweptWith first) u
  have hqchanges := stopsRemoved_queue_changes hnodup u
  have hframe := stopsRemoved_frame (e :: s.sweptWith first) u
  rw [hqueue] at hq hqchanges
  have hrecords : (u.stopsRemoved (e :: s.sweptWith first)).queue.records =
      s.queue.records.map (clearedFromAll (e :: s.sweptWith first)) := by rw [hq]
  have hqueue' : (u.stopsRemoved (e :: s.sweptWith first)).queue = { s.queue with
      records := (u.stopsRemoved (e :: s.sweptWith first)).queue.records,
      changes := (u.stopsRemoved (e :: s.sweptWith first)).queue.changes } := by rw [hrecords]; exact hq
  refine ⟨h.entries_left hids, ?_, ?_, ?_, fun x hx r hr href hid => ?_, ⟨?_, ?_⟩, ⟨?_, ?_⟩, ?_⟩
  · cases hlast : (s.sweptWith first).getLast? with
    | none => exact congrArg some (h.record_eq _ _)
    | some x => exact congrArg some (h.record_eq_of_swept x _ _)
  · rw [State.postAll_append]
    exact State.postAll_alerts_congr (by rw [h.frame]) _
  · refine (congrArg (List.map _) hrecords).trans ?_
    rw [List.map_map]
    exact List.map_congr_left fun r _ => (clearedFromAll_gaveUp _ r).without
  · replace hr : r ∈ (u.stopsRemoved (e :: s.sweptWith first)).queue.records := hr
    rw [hrecords] at hr
    obtain ⟨r', hr', rfl⟩ := List.mem_map.1 hr
    obtain ⟨-, hnone⟩ := (clearedFromAll_stopId _ r').1 hid
    rw [clearedFromAll_body] at href
    rcases List.mem_cons.1 hx with rfl | hx
    · exact hnone e (by simp) ⟨h.same.2.2.2.1.trans href, h.same.1⟩
    · exact hnone x (by simp [hx]) ⟨href, rfl⟩
  · refine StopPlanner.eq_of_numbers ((congrArg (·.nextId) hstops).trans ?_) ((congrArg (·.insertions) hstops).trans ?_)
    · rw [h.stops]
    · rw [h.stops]
  · refine hchanges.trans ?_
    rw [List.length_cons]
    have := h.changes
    omega
  · exact hqueue'
  · refine hqchanges.trans ?_
    rw [List.countP_cons, List.countP_cons]
    have hheld : e.heldIn s.queue = first.heldIn s.queue := by
      unfold StopEntry.heldIn
      rw [h.same.1, h.same.2.2.2.1]
    rw [hheld]
    rfl
  · refine (congrArg (State.withLastStop _ _) hframe).trans ?_
    rw [h.frame]
    rfl

end Completing

/-! ## The passes of an evaluation (R143, R144) -/

theorem activeEntry_eq_none {pl : StopPlanner} (h : ∀ x ∈ pl.entries, x.active = false) : pl.activeEntry = none :=
  List.find?_eq_none.2 fun x hx => by simp [h x hx]

theorem filter_active_eq {pl : StopPlanner} {e : StopEntry} (he : e ∈ pl.entries) (ha : e.active = true)
    (h : pl.entries.countP (·.active) = 1) : pl.entries.filter (·.active) = [e] := by
  rw [List.countP_eq_length_filter] at h
  obtain ⟨x, hx⟩ := List.length_eq_one_iff.1 h
  have hmem : e ∈ pl.entries.filter (·.active) := List.mem_filter.2 ⟨he, ha⟩
  rw [hx, List.mem_singleton] at hmem
  rw [hx, hmem]

theorem activeEntry_eq {pl : StopPlanner} {e : StopEntry} (he : e ∈ pl.entries) (ha : e.active = true)
    (h : pl.entries.countP (·.active) = 1) : pl.activeEntry = some e := by
  rw [StopPlanner.activeEntry, ← List.head?_filter, filter_active_eq he ha h]
  rfl

/-- With no entry ACTIVE and none to activate an evaluation changes nothing. -/
theorem evaluatePasses_done {s : State} (ha : ∀ x ∈ s.stops.entries, x.active = false)
    (h : ∀ x ∈ s.stops.entries, s.activates x = false) (fuel : Nat) : evaluatePasses fuel s = s := by
  cases fuel with
  | zero => rfl
  | succ n =>
    unfold evaluatePasses
    rw [activeEntry_eq_none ha]
    dsimp only
    split
    next => rfl
    next e he => rw [if_neg (by simp [h e (List.mem_of_mem_head? he)])]

theorem evaluate_of_closed {s : State} (hc : s.job.state.isCutOpen = false) :
    evaluate s = evaluatePasses (s.stops.entries.length + 1) s := if_neg (by simp [hc])

section Head
variable {h : StopEntry} {rest : List StopEntry} {s : State} (hc : s.job.state.isCutOpen = false)
  (he : s.stops.entries = h :: rest) (ha : ∀ e ∈ h :: rest, e.active = false)
include hc he ha

theorem evaluate_head_waits (hw : s.activates h = false) : evaluate s = s := by
  rw [evaluate_of_closed hc, evaluatePasses, activeEntry_eq_none (by rwa [he]), he]
  simp [hw]

theorem evaluate_head_in_motion (hm : s.motion.standstill = false) (hw : s.activates h = true) :
    evaluate s = activateStop h s := by
  rw [evaluate_of_closed hc, evaluatePasses, activeEntry_eq_none (by rwa [he]), he]
  simp [hw, hm]

theorem evaluate_head_at_standstill (hm : s.motion.standstill = true) (hw : s.activates h = true) :
    evaluate s = evaluatePasses s.stops.entries.length (completeAndSweep (s.activated h) (activateStop h s)) := by
  rw [evaluate_of_closed hc, evaluatePasses, activeEntry_eq_none (by rwa [he]), he]
  simp [hw, hm]

end Head

theorem replaceStop_head {e h : StopEntry} {rest : List StopEntry} (hid : e.id = h.id) (hr : ∀ x ∈ rest, x.id ≠ h.id) :
    replaceStop e (h :: rest) = e :: rest := by
  rw [replaceStop, List.map_cons, if_pos hid.symm]
  congr 1
  conv_rhs => rw [← List.map_id rest]
  exact List.map_congr_left fun x hx => if_neg (by rw [hid]; exact hr x hx)

theorem replaceStop_others (e : StopEntry) (l : List StopEntry) :
    (replaceStop e l).filter (fun x => decide (x.id ≠ e.id)) = l.filter (fun x => decide (x.id ≠ e.id)) := by
  induction l with
  | nil => rfl
  | cons x l ih =>
    rw [replaceStop, List.map_cons, ← replaceStop]
    by_cases hx : x.id = e.id
    · rw [if_pos hx, List.filter_cons_of_neg (by simp), List.filter_cons_of_neg (by simpa using hx), ih]
    · rw [if_neg hx, List.filter_cons_of_pos (by simpa using hx), List.filter_cons_of_pos (by simpa using hx), ih]

/-- An entry just activated completes (R145). -/
theorem activateStop_completing (h : StopEntry) (s : State) :
    Completing h (s.activated h) (s.activationPosts h) 1 s (activateStop h s) where
  frame := by rw [activateStop_eq]
  stops := by rw [activateStop_eq]; rfl
  changes := by
    rw [activateStop_eq]
    exact Nat.mod_mod _ _
  ids := by
    rw [activateStop_eq]
    exact replaceStop_ids _ _
  others := by
    rw [activateStop_eq]
    exact replaceStop_others (s.activated h) _
  same := s.activated_sameAs h

theorem completing_active (e : StopEntry) (s : State) : Completing e e [] 0 s s where
  frame := rfl
  stops := rfl
  changes := rfl
  ids := rfl
  others := rfl
  same := .refl e

/-- After a completion with its sweep at S = 0 nothing is left to activate. -/
theorem CompletionFollows.done {first : StopEntry} {late : Bool} {shortfall activations : Nat} {before : List EventKind}
    {s t : State} (h : CompletionFollows first late shortfall before activations s t) (hb : s.motion.braking = 0)
    (ha : ∀ x ∈ s.stops.entries, x.id ≠ first.id → x.active = false) (fuel : Nat) : evaluatePasses fuel t = t := by
  obtain ⟨hentries, -, -, -, -, -, -, hframe⟩ := h
  have hmem : ∀ x ∈ t.stops.entries, x ∈ s.stops.entries ∧ x.id ≠ first.id ∧ x ∉ s.sweptWith first := by
    intro x hx
    rw [hentries] at hx
    obtain ⟨hx, hleft⟩ := List.mem_filter.1 hx
    exact ⟨hx, of_decide_eq_true hleft⟩
  refine evaluatePasses_done (fun x hx => ha x (hmem x hx).1 (hmem x hx).2.1) (fun x hx => ?_) fuel
  obtain ⟨hxs, hid, hnot⟩ := hmem x hx
  have hbeyond : ¬ x.target ≤ (s.length.p : Int) + s.motion.settings.tolerance := fun hle =>
    hnot (List.mem_filter.2 ⟨hxs, decide_eq_true ⟨hid, ha x hxs hid, hle⟩⟩)
  have hact : t.activates x = s.activates x := by rw [hframe]; rfl
  rw [hact, State.activates, decide_eq_false_iff_not]
  simp only [State.remaining, State.p, hb]
  omega

/-! ## The rows of R144 -/

theorem State.activates_iff_at_standstill {s : State} (hm : s.motion.standstill = true) (hb : s.motion.braking = 0)
    (e : StopEntry) : s.activates e = true ↔ e.target ≤ s.length.p := by
  rw [State.activates, decide_eq_true_iff]
  simp only [State.remaining, State.p, hb, hm, true_and]
  omega

theorem State.activated_shortfall (s : State) (e : StopEntry) :
    (s.activated e).shortfall = ((s.motion.braking : Int) - (e.target - s.length.p)).toNat := rfl

theorem State.activated_late (s : State) (e : StopEntry) :
    (s.activated e).late = (e.late || decide (0 < (s.activated e).shortfall)) := by
  rw [State.activated_shortfall]
  refine congrArg (e.late || ·) (decide_eq_decide.2 ?_)
  simp only [State.remaining, State.p]
  omega

theorem State.activationPosts_eq (s : State) (e : StopEntry) :
    s.activationPosts e = .stopRequested :: if 0 < (s.activated e).shortfall then [.stopLate] else [] := by
  refine congrArg (EventKind.stopRequested :: ·) (if_congr ?_ rfl rfl)
  rw [State.activated_shortfall]
  simp only [State.remaining, State.p]
  omega

/-- The head in motion (R144). -/
theorem evaluate_in_motion {h : StopEntry} {rest : List StopEntry} {s : State} (hc : s.job.state.isCutOpen = false)
    (hm : s.motion.standstill = false) (he : s.stops.entries = h :: rest) (ha : ∀ e ∈ h :: rest, e.active = false)
    (hr : ∀ e ∈ rest, e.id ≠ h.id) (hd : s.motion.direction = .forward) (htogo : h.target - s.length.p ≤ s.motion.braking) :
    let short : Nat := ((s.motion.braking : Int) - (h.target - s.length.p)).toNat
    (evaluate s).stops = { s.stops with
        entries := { h with active := true, shortfall := short, late := h.late || decide (0 < short) } :: rest
        changes := (s.stops.changes + 1) % 65536 } ∧
      (evaluate s).stopAsserted = true ∧
      (evaluate s).alerts = (if 0 < short then
        (s.alerts.map (Station.post .stopRequested)).map (Station.post .stopLate)
        else s.alerts.map (Station.post .stopRequested)) ∧
      evaluate s = { s with stops := (evaluate s).stops, alerts := (evaluate s).alerts } := by
  intro short
  have heval : evaluate s = activateStop h s :=
    evaluate_head_in_motion hc he ha hm ((State.activates_iff_of_inMotion hm h).2 ⟨hd, htogo⟩)
  have hactivated : s.activated h = { h with active := true, shortfall := short, late := h.late || decide (0 < short) } :=
    congrArg (fun late => { h with active := true, shortfall := short, late := late }) (s.activated_late h)
  have hstops : (activateStop h s).stops = { s.stops with
      entries := { h with active := true, shortfall := short, late := h.late || decide (0 < short) } :: rest
      changes := (s.stops.changes + 1) % 65536 } := by
    rw [activateStop_eq, he, replaceStop_head (h := h) (s.activated_sameAs h).1 hr, hactivated]
    rfl
  rw [heval]
  refine ⟨hstops, by simp [State.stopAsserted, hstops], ?_, by rw [activateStop_eq]⟩
  rw [activateStop_eq, State.activationPosts_eq]
  change (s.postAll (.stopRequested :: if 0 < short then [.stopLate] else [])).alerts = _
  split <;> rfl

/-- The head at standstill (R144, R145). -/
theorem evaluate_at_standstill {h : StopEntry} {rest : List StopEntry} {s : State} (hc : s.job.state.isCutOpen = false)
    (hm : s.motion.standstill = true) (hb : s.motion.braking = 0) (he : s.stops.entries = h :: rest)
    (ha : ∀ e ∈ h :: rest, e.active = false) (hids : ((h :: rest).map (·.id)).Nodup) (hreached : h.target ≤ s.length.p) :
    CompletionFollows h (h.late || decide (h.target < s.length.p)) ((s.length.p : Int) - h.target).toNat
      (.stopRequested :: if h.target < s.length.p then [.stopLate] else []) 1 s (evaluate s) := by
  have hshort : (s.activated h).shortfall = ((s.length.p : Int) - h.target).toNat := by
    rw [State.activated_shortfall, hb]
    congr 1
    omega
  have hpositive : 0 < ((s.length.p : Int) - h.target).toNat ↔ h.target < s.length.p := by omega
  have hfollows := (activateStop_completing h s).follows (by rwa [he])
  rw [State.activationPosts_eq, State.activated_late, hshort] at hfollows
  simp only [hpositive] at hfollows
  rw [evaluate_head_at_standstill hc he ha hm ((State.activates_iff_at_standstill hm hb h).2 hreached),
    CompletionFollows.done hfollows hb (fun x hx _ => ha x (he ▸ hx))]
  exact hfollows

section Active
variable {e : StopEntry} {s : State} (hc : s.job.state.isCutOpen = false) (he : e ∈ s.stops.entries) (ha : e.active = true)
  (hids : (s.stops.entries.map (·.id)).Nodup) (hone : s.stops.entries.countP (·.active) = 1)
include hc he ha hone

theorem evaluate_active_in_motion (hm : s.motion.standstill = false) : evaluate s = overrunTest e s := by
  rw [evaluate_of_closed hc, evaluatePasses, activeEntry_eq he ha hone]
  simp [hm]

include hids

/-- An ACTIVE entry at standstill completes (R145, R148). -/
theorem evaluate_active_at_standstill (hm : s.motion.standstill = true) (hb : s.motion.braking = 0) :
    CompletionFollows e e.late e.shortfall [] 0 s (evaluate s) := by
  have hfollows := (completing_active e s).follows hids
  have hothers : ∀ x ∈ s.stops.entries, x.id ≠ e.id → x.active = false := by
    intro x hx hid
    by_contra hxa
    have hmem : x ∈ s.stops.entries.filter (·.active) := List.mem_filter.2 ⟨hx, by simpa using hxa⟩
    rw [filter_active_eq he ha hone, List.mem_singleton] at hmem
    exact hid (congrArg _ hmem)
  have heval : evaluate s = evaluatePasses s.stops.entries.length (completeAndSweep e s) := by
    rw [evaluate_of_closed hc, evaluatePasses, activeEntry_eq he ha hone]
    simp [hm]
  rw [heval, CompletionFollows.done hfollows hb hothers]
  exact hfollows

/-- The overrun test of an ACTIVE entry in motion (R151). -/
theorem evaluate_overrun (hm : s.motion.standstill = false) (hover : e.overrun = false)
    (hp : e.target + s.motion.settings.overrun < s.length.p) :
    (evaluate s).stops = { s.stops with
        entries := s.stops.entries.map (fun x => if x.id = e.id then { x with overrun := true } else x)
        changes := (s.stops.changes + 1) % 65536 } ∧
      (evaluate s).alerts = s.alerts.map (Station.post .stopOverrun) ∧
      evaluate s = { s with stops := (evaluate s).stops, alerts := (evaluate s).alerts } := by
  have hmap : replaceStop { e with overrun := true } s.stops.entries =
      s.stops.entries.map (fun x => if x.id = e.id then { x with overrun := true } else x) :=
    List.map_congr_left fun x hx => by
      by_cases hid : x.id = e.id
      · rw [if_pos hid, if_pos hid, List.inj_on_of_nodup_map hids hx he hid]
      · rw [if_neg hid, if_neg hid]
  rw [evaluate_active_in_motion hc he ha hone hm, overrunTest, if_pos ⟨hp, hover⟩, hmap]
  exact ⟨rfl, rfl, rfl⟩

end Active

/-! ## A full list (R141) -/

theorem State.stopsSound_evicted {s : State} (h : s.stops.Sound) (v : StopEntry) : (s.evicted v).stops.Sound :=
  (evaluate_evaluated _).sound (removeStop_eq v s ▸ removeStop_sound v h)

theorem State.evicted_length {s : State} (h : s.stops.entries.length ≤ 16) {v : StopEntry} (hv : v ∈ s.stops.entries) :
    (s.evicted v).stops.entries.length < 16 := by
  refine lt_of_le_of_lt (evaluate_length_le _) (lt_of_lt_of_le ?_ h)
  have := removeStop_length hv
  rwa [removeStop_eq] at this

/-- Whatever an evaluation leaves was placed by the insertion or was in the list before it. -/
theorem evaluate_stopPlaced_mem {o : StopOffer} {s : State} {x : StopEntry} (hx : x ∈ (evaluate (s.stopPlaced o)).stops.entries) :
    x.insertion = s.stops.insertions ∨ ∃ e ∈ s.stops.entries, x.SameAs e := by
  obtain ⟨y, hy, hxy⟩ := (evaluate_evaluated (s.stopPlaced o)).entries x hx
  have hins : x.insertion = y.insertion := hxy.2.2.2.2.2.2.2
  rcases mem_placeStop.1 hy with rfl | hy
  · exact .inl hins
  · exact .inr ⟨y, hy, hxy⟩

/-- An arbitration with a victim (R141): the victim is out, its event is posted once, and in motion and in a cut every other
entry is still there. -/
theorem offerStop_evicts (o : StopOffer) {s : State} (hs : s.stops.Sound) (hl : s.stops.entries.length = 16) {v : StopEntry}
    (hv : s.stops.IsVictim o.kind.priority v) :
    ∃ (t : State) (id : Nat), offerStop o s = (t, some id) ∧
      (∀ x ∈ t.stops.entries, x.insertion ≠ v.insertion) ∧
      (s.AlertsSound → t.PendsAs .stopDropped (s.postTimes 1 .stopDropped)) ∧
      (s.motion.standstill = false ∨ s.job.state.isCutOpen = true →
        (∃ x ∈ t.stops.entries, x.id = id ∧ x.insertion = s.stops.insertions ∧ x.kind = o.kind ∧ x.ref = o.ref ∧
          x.target = o.target) ∧
        ∀ x ∈ s.stops.entries, x ≠ v → ∃ y ∈ t.stops.entries, y.id = x.id ∧ y.target = x.target) := by
  have hmem : v ∈ s.stops.entries := hv.1
  have hins : (s.evicted v).stops.insertions = s.stops.insertions := (evaluate_evaluated _).numbers.2
  have hlen : (s.evicted v).stops.entries.length < 255 := by have := s.evicted_length hl.le hmem; omega
  refine ⟨_, _, by rw [offerStop_evicting o hs hl.ge hv, ← stopPlaced_eq o (State.evicted_insertions_lt hs v)],
    fun x hx => ?_, fun _ => ?_, fun hq => ?_⟩
  · rcases evaluate_stopPlaced_mem hx with hx | ⟨e, he, -, -, -, -, -, -, -, hxe⟩
    · rw [hx, hins]
      exact (hs.insertion_lt v hmem).ne'
    · obtain ⟨e', he', -, -, -, -, -, -, -, hee⟩ := (evaluate_evaluated _).entries e he
      obtain ⟨hin, hid⟩ := List.mem_filter.1 he'
      rw [hxe, hee]
      exact fun heq => of_decide_eq_true hid (congrArg _ (List.inj_on_of_nodup_map hs.2.2.2.1 hin hmem heq))
  · refine (evaluate_pendsAs (by decide) _).trans ((State.PendsAs.of_alerts (s := s.evicted v) rfl _).trans ?_)
    exact (evaluate_pendsAs (by decide) _).trans (State.PendsAs.of_alerts rfl _)
  · have hq' : (s.evicted v).motion.standstill = false ∨ (s.evicted v).job.state.isCutOpen = true := by
      rwa [State.evicted, (evaluate_evaluated _).frame]
    constructor
    · obtain ⟨x, hx, hid, hkind, -, href, -, -, htarget, hxi⟩ := evaluate_stopPlaced_entry o hlen hq'
      exact ⟨x, hx, hid, hxi.trans hins, hkind, href, htarget⟩
    · intro x hx hne
      have hxid : x.id ≠ v.id := fun hid => hne (hs.id_unique hx hmem hid)
      have hremoved := stopRemoved_keeps (hs.holdsOnce hx) hxid
      obtain ⟨y, hy, hyx⟩ := (evaluate_evaluated
        { s.stopRemoved v with alerts := s.alerts.map (Station.post .stopDropped) }).stays hq x hremoved
      obtain ⟨z, hz, hzy⟩ := (evaluate_evaluated ((s.evicted v).stopPlaced o)).stays hq' y (stopPlaced_keeps o hlen hy)
      have hzx := hzy.trans hyx
      exact ⟨z, hz.1, hzx.1, hzx.2.2.2.2.2.2.1⟩

/-- Settles O36, row by row: the passes of an evaluation for the head and for an ACTIVE entry, and the branches of an offer. -/
theorem headActivatesWithinTheBrakingDistance : Obligations.HeadActivatesWithinTheBrakingDistance := by
  refine ⟨fun h rest s hc hm he ha hr => ?_, fun h rest s hc hm hb he ha hids => ⟨fun hw => ?_, fun hreached => ?_⟩,
    fun e s hc he ha hids hone => ⟨fun hm hb => ?_, fun hm => ⟨fun hover hp => ?_, fun hno => ?_⟩⟩,
    fun o s hs hl => ⟨fun hno => offerStop_without_victim o hl.ge hno, fun v hv => offerStop_evicts o hs hl hv⟩,
    fun o s hs => offerStop_taken o hs, fun id e s hf => cancelStopId_eq hf, fun e web target s hs _ =>
      retargetStop_eq hs.insertion_lt⟩
  · intro togo short
    refine ⟨fun hw => evaluate_head_waits hc he ha ?_, fun hd htogo => evaluate_in_motion hc hm he ha hr hd htogo⟩
    rw [Bool.eq_false_iff, Ne, State.activates_iff_of_inMotion hm]
    rintro ⟨hd, hle⟩
    rcases hw with hrev | hfar
    · exact absurd (hd.symm.trans hrev) (by decide)
    · exact absurd hle (not_le.2 hfar)
  · refine evaluate_head_waits hc he ha ?_
    rw [Bool.eq_false_iff, Ne, State.activates_iff_at_standstill hm hb]
    omega
  · exact evaluate_at_standstill hc hm hb he ha hids hreached
  · exact evaluate_active_at_standstill hc he ha hids hone hm hb
  · exact evaluate_overrun hc he ha hids hone hm hover hp
  · rw [evaluate_active_in_motion hc he ha hone hm, overrunTest, if_neg]
    rintro ⟨hp, hover⟩
    rcases hno with hno | hno
    · exact absurd (hover.symm.trans hno) (by decide)
    · exact absurd hp (not_lt.2 hno)

end Sys2Proof.Machine
end

