-- ==== Sys2Proof/Proofs/StopRequests.lean ====
section
/-! PROOFS. ADD-STOP (R139), CANCEL-STOP (R152) and SET-TARGET (R153): the branches of each taking, and the entry that an insertion
or a change of target leaves in the list. -/

namespace Sys2Proof.Machine

/-! ## A reply at its port -/

theorem State.replied_port {s u : State} (h : u.ports = s.ports) (p : Port) (k : Kind) (st : Status) (b : List Byte) :
    (u.replied p k st b).port p = (s.port p).replied k st b := by
  simp [State.replied, State.port, h]

theorem State.replied_port_other {s u : State} (h : u.ports = s.ports) {p q : Port} (hq : q ≠ p) (k : Kind) (st : Status)
    (b : List Byte) : (u.replied p k st b).port q = s.port q := by
  simp [State.replied, State.port, h, ByPort.get_set_other _ _ hq]

/-! ## CANCEL-STOP (R152) -/

theorem takeCancelStop_outOfRange {id : Nat} (h : id = 0 ∨ 255 < id) (p : Port) (s : State) :
    takeCancelStop p id s = s.refuse .outOfRange := if_pos (by omega)

section InRange
variable {id : Nat} (h1 : 1 ≤ id) (h2 : id ≤ 255) {s : State}
include h1 h2

theorem takeCancelStop_notFound (h : ∀ e ∈ s.stops.entries, e.id ≠ id) (p : Port) :
    takeCancelStop p id s = s.refuse .notFound := by
  have hnone : s.stops.entries.find? (fun e => decide (e.id = id)) = none :=
    List.find?_eq_none.2 fun e he => by simpa using h e he
  rw [takeCancelStop, if_neg (by omega), hnone]

variable {e : StopEntry} (hf : s.stops.entries.find? (fun x => decide (x.id = id)) = some e)
include hf

theorem takeCancelStop_notPermitted {p : Port} (h : p = .o ∧ e.origin ≠ .portO) :
    takeCancelStop p id s = s.refuse .notPermitted := by
  rw [takeCancelStop, if_neg (by omega), hf]
  exact if_pos h

theorem takeCancelStop_found {p : Port} (h : ¬ (p = .o ∧ e.origin ≠ .portO)) :
    takeCancelStop p id s = (evaluate (s.stopRemoved e), .done []) := by
  rw [takeCancelStop, if_neg (by omega), hf, ← removeStop_eq]
  exact if_neg h

end InRange

/-- Settles O34, by the branches of the taking; what the removal leaves is kept by the evaluation. -/
theorem cancelStopRemovesTheEntry : Obligations.CancelStopRemovesTheEntry := by
  refine fun p id s ht => ⟨fun h => exec_eq_replied rfl rfl ht (takeCancelStop_outOfRange h p s),
    fun h1 h2 h => exec_eq_replied rfl rfl ht (takeCancelStop_notFound h1 h2 h p), fun e h1 h2 hf =>
    ⟨fun hp ho => exec_eq_replied rfl rfl ht (takeCancelStop_notPermitted h1 h2 hf ⟨hp, ho⟩), fun hp => ?_⟩⟩
  have hnot : ¬ (p = .o ∧ e.origin ≠ .portO) := by
    rintro ⟨rfl, ho⟩
    exact hp.elim (by simp) ho
  have hid : e.id = id := by simpa using List.find?_some hf
  have hev := evaluate_evaluated (s.stopRemoved e)
  have hports : (evaluate (s.stopRemoved e)).ports = s.ports := by rw [hev.frame]; rfl
  refine ⟨_, exec_eq_replied rfl rfl ht (takeCancelStop_found h1 h2 hf hnot), State.replied_port hports _ _ _ _, rfl,
    fun x hx => ?_, fun hm => evaluate_lastStop_of_inMotion (s := s.stopRemoved e) hm, fun hm hids x hx hne => ?_,
    fun n href r hr hnum hstop => ?_, ?_⟩
  · obtain ⟨y, hy, hxy, -⟩ := hev.entries x hx
    rw [hxy, ← hid]
    exact of_decide_eq_true (List.mem_filter.1 hy).2
  · have honce : s.stops.HoldsOnce x := ⟨hx, fun y hy => List.inj_on_of_nodup_map hids hy hx⟩
    obtain ⟨y, hy, hsame⟩ := hev.stays (.inl hm) x (stopRemoved_keeps honce (by rwa [hid]))
    exact ⟨y, hy.1, hsame.1, hsame.2.2.2.2.2.2.1⟩
  · obtain ⟨f, hgave, hrecords⟩ := hev.records
    replace hr : r ∈ (evaluate (s.stopRemoved e)).queue.records := hr
    rw [hrecords, stopRemoved_records, List.map_map] at hr
    obtain ⟨r', -, rfl⟩ := List.mem_map.1 hr
    rcases hgave (e.clearedFrom r') with heq | heq
    · rw [Function.comp_apply, heq] at hstop hnum
      rw [clearedFrom_body] at hnum
      exact ((clearedFrom_stopId e r').1 hstop).2 ⟨by rw [href, hnum], hid⟩
    · rw [Function.comp_apply, heq] at hstop
      simp at hstop
  · refine ⟨?_, ?_, ?_, ?_, ?_, ?_, ?_, ?_, ?_, ?_, ?_, ?_, fun q hq => State.replied_port_other hports hq _ _ _⟩ <;>
      simp [State.replied, State.stopRemoved]

/-! ## ADD-STOP (R139) -/

theorem answerOffer_placed {o : StopOffer} {s t : State} {id : Nat} (h : offerStop o s = (t, some id)) :
    answerOffer o s = (t, .done (fieldU 1 id ++ fieldS 5 o.target)) := by
  simp only [answerOffer, h]

theorem answerOffer_notPlaced {o : StopOffer} {s t : State} (h : offerStop o s = (t, none)) :
    answerOffer o s = (t, .refused .listFull) := by
  simp only [answerOffer, h]

theorem originOf_eq {p : Port} (h : p ≠ .i) : originOf p = if p = .l then .portL else .portO := by
  cases p
  · rfl
  · exact absurd rfl h
  · rfl

/-- The two forms of ADD-STOP that make an offer (R139). -/
theorem takeAddStop_offers {p : Port} (hp : p ≠ .i) {form length : Nat} {s : State} {ref : StopRef} {web station target : Int}
    (h : (form = 0 ∧ ref = .nothing ∧ web = s.length.p ∧ station = 0 ∧ target = s.length.p) ∨
      (form = 1 ∧ 1 ≤ length ∧ length ≤ 2000000000 ∧ ∃ set, s.roll.windingSet = some set ∧ ref = .set set.number ∧
        web = (set.start : Int) + length - s.geometry.w ∧ station = s.geometry.w ∧ target = (set.start : Int) + length)) :
    takeAddStop p form length s =
      answerOffer ⟨.operator, if p = .l then .portL else .portO, ref, web, station, target⟩ s := by
  rw [← originOf_eq hp]
  rcases h with ⟨rfl, rfl, rfl, rfl, rfl⟩ | ⟨rfl, h1, h2, set, hset, rfl, rfl, rfl, rfl⟩
  · rfl
  · have hin : ¬ rollLengthInRange length = false := by simp [rollLengthInRange, h1, h2]
    unfold takeAddStop
    rw [if_neg hin, hset]
    rfl

theorem takeAddStop_badForm {form : Nat} (h : 1 < form) (p : Port) (length : Nat) (s : State) :
    takeAddStop p form length s = s.refuse .outOfRange := by
  match form, h with
  | _ + 2, _ => rfl

/-- Settles O33, by the forms of the taking and the branches of an offer (R140, R141). -/
theorem addStopPlacesAnOperatorEntry : Obligations.AddStopPlacesAnOperatorEntry := by
  intro p form length s ht
  have hp : p ≠ .i := by
    rintro rfl
    exact absurd ht.1 (by decide)
  refine ⟨fun h => exec_eq_replied rfl rfl ht (takeAddStop_badForm h p length s), fun hf h => ?_, fun hf h1 h2 hset => ?_,
    fun ref web station target hform => ?_⟩
  · subst hf
    have hout : rollLengthInRange length = false := by
      simp only [rollLengthInRange, decide_eq_false_iff_not]
      omega
    exact exec_eq_replied rfl rfl ht (if_pos hout)
  · subst hf
    have hin : ¬ rollLengthInRange length = false := by simp [rollLengthInRange, h1, h2]
    refine exec_eq_replied rfl rfl ht ((if_neg hin).trans ?_)
    rw [hset]
    rfl
  · have htake := takeAddStop_offers hp hform
    have horigin : (if p = .l then StopOrigin.portL else .portO) ≠ .internal := by split <;> decide
    have hpriority : StopKind.operator.priority = 4 := rfl
    generalize ho : (StopOffer.mk .operator (if p = .l then .portL else .portO) ref web station target) = o at htake ⊢
    have hoo : o.origin ≠ .internal := by rw [← ho]; exact horigin
    have htarget : o.target = target := by rw [← ho]
    refine ⟨fun hs => ⟨(offerStop o s).1, (offerStop o s).2, offerStop_taken o hs, fun n hn => ?_, fun hnone => ?_⟩,
      fun hs => hs.freshId_firstFree, fun hfull hno => ?_, fun hroom => ?_⟩
    · exact htarget ▸ exec_eq_replied rfl rfl ht (htake.trans (answerOffer_placed (Prod.ext rfl hn)))
    · refine exec_eq_replied rfl rfl ht (htake.trans (answerOffer_notPlaced (Prod.ext ?_ hnone)))
      exact offerStop_refused s hoo hnone
    · have hkind : o.kind.priority = 4 := by rw [← ho]; rfl
      refine exec_eq_replied rfl rfl ht (htake.trans (answerOffer_notPlaced ?_))
      rw [offerStop_without_victim o hfull (by rwa [hkind]), if_neg hoo]
    · have hports : (evaluate (s.stopPlaced o)).ports = s.ports := by rw [(evaluate_evaluated _).frame]; rfl
      have hnumbers := (evaluate_evaluated (s.stopPlaced o)).numbers
      refine ⟨_, exec_eq_replied rfl rfl ht (htake.trans (answerOffer_placed (offerStop_with_room o hroom))), ?_,
        hnumbers.1, hnumbers.2, fun hq => ?_, ?_⟩
      · rw [← htarget]
        exact State.replied_port hports _ _ _ _
      · obtain ⟨e, he, hid, hk, hor, href, hweb, hst, htg, hins⟩ := evaluate_stopPlaced_entry o (by omega) hq
        subst ho
        exact ⟨e, he, hid, hk, hor, href, hweb, hst, htg, hins⟩
      · refine ⟨?_, ?_, ?_, ?_, ?_, ?_, ?_, ?_, ?_, ?_, ?_, ?_, fun q hq => State.replied_port_other hports hq _ _ _⟩ <;>
          simp [State.replied, State.stopPlaced]

/-! ## A change of target (R153, R154) -/

/-- The part with an entry at its new target, before the evaluation: the entry stands at its place in target order (R135), in any
list. -/
def State.stopRetargeted (e : StopEntry) (web target : Int) (s : State) : State :=
  s.withStops (StopPlanner.changed
    { s.stops with entries := placeStop { e with web := web, target := target, insertion := s.stops.insertions }
                     (s.stops.entries.filter (fun x => decide (x.id ≠ e.id))),
                   insertions := s.stops.insertions + 1 } 1)

theorem retargetStop_retargeted (e : StopEntry) (web target : Int) (s : State) :
    retargetStop e web target s = evaluate (s.stopRetargeted e web target) := rfl

/-- In motion and in a cut the entry is still in the list after the evaluation, at its new target. -/
theorem retargetStop_entry (e : StopEntry) (web target : Int) {s : State}
    (hq : s.motion.standstill = false ∨ s.job.state.isCutOpen = true) :
    ∃ x ∈ (retargetStop e web target s).stops.entries,
      x.SameAs { e with web := web, target := target, insertion := s.stops.insertions } := by
  have honce : (s.stopRetargeted e web target).stops.HoldsOnce
      { e with web := web, target := target, insertion := s.stops.insertions } := by
    refine ⟨mem_placeStop.2 (.inl rfl), fun y hy hid => ?_⟩
    rcases mem_placeStop.1 hy with rfl | hy
    · rfl
    · exact absurd hid (of_decide_eq_true (List.mem_filter.1 hy).2)
  obtain ⟨x, hx, hsame⟩ := (evaluate_evaluated (s.stopRetargeted e web target)).stays hq _ honce
  exact ⟨x, hx.1, hsame⟩

/-! ## The repeat-aligned set end (R131, R132) -/

theorem repeatsTo_firstBoundary (wl wlast : Int) {rm : Nat} (h : 0 < rm) : FirstBoundary wl wlast rm (repeatsTo wl wlast rm) := by
  unfold repeatsTo
  split
  next hle => exact ⟨by simpa using hle, by simp⟩
  next hgt =>
    obtain ⟨n, hn⟩ : ∃ n : Nat, wl = wlast + n := ⟨(wl - wlast).toNat, by omega⟩
    have hto : (wl - wlast).toNat = n := by omega
    rw [hto, hn]
    have hceil (c : Nat) : ceilDiv n rm ≤ c ↔ n ≤ rm * c := ceilDiv_le_iff_le_smul h
    refine ⟨?_, fun i hi => ?_⟩
    · have := (hceil _).1 le_rfl
      have hcast : (n : Int) ≤ rm * (ceilDiv n rm : Nat) := by exact_mod_cast this
      rw [mul_comm] at hcast
      omega
    · have hlt : rm * i < n := not_le.1 fun hle => absurd ((hceil i).2 hle) (not_le.2 hi)
      have hcast : (rm : Int) * i < n := by exact_mod_cast hlt
      rw [mul_comm] at hcast
      omega

theorem TrackingSettings.aligns_iff {t : TrackingSettings} : t.aligns = true ↔ t.tracking = true ∧ t.align = 1 := by
  simp [TrackingSettings.aligns]

theorem setEndWeb_aligned {s : State} {l : MarkLock} (hl : s.tracker.state = .locked l) (ha : s.tracker.settings.aligns = true)
    (start target : Nat) : setEndWeb s start target = alignedWeb s.geometry.w s.tracker.settings l start target := by
  simp [setEndWeb, hl, ha]

theorem setEndWeb_plain {s : State} (h : s.tracker.settings.aligns = false ∨ ∀ l, s.tracker.state ≠ .locked l)
    (start target : Nat) : setEndWeb s start target = (start : Int) + target - s.geometry.w := by
  unfold setEndWeb
  split
  next l hl =>
    rw [if_neg]
    rcases h with h | h
    · simp [h]
    · exact absurd hl (h l)
  next => rfl

/-- The web mark of a SET-END entry is that of R131 and R132. -/
theorem setEndWeb_isSetEndWeb (s : State) (start length : Nat) : s.IsSetEndWeb start length (setEndWeb s start length) := by
  refine ⟨fun l htrack halign hl hrm => ?_, fun h => setEndWeb_plain ?_ start length⟩
  · exact ⟨_, repeatsTo_firstBoundary _ _ hrm, setEndWeb_aligned hl (TrackingSettings.aligns_iff.2 ⟨htrack, halign⟩) _ _⟩
  · rcases h with h | h | h
    · exact .inl (by simp [TrackingSettings.aligns, h])
    · exact .inl (by simp [TrackingSettings.aligns, h])
    · exact .inr h

theorem setEndWeb_withTarget (s : State) (n start length : Nat) :
    setEndWeb (s.withTarget n) start length = setEndWeb s start length := rfl

/-! ## SET-TARGET (R153) -/

theorem takeSetTarget_wrongState {s : State} (h : s.job.state ≠ .winding) (length : Nat) :
    takeSetTarget length s = s.refuse .wrongState := by
  unfold takeSetTarget
  split
  next hj _ => exact absurd hj h
  next => rfl

section Winding
variable {length : Nat} {set : SetRecord} {s : State} (hj : s.job.state = .winding) (hset : s.roll.windingSet = some set)
include hj hset

theorem takeSetTarget_outOfRange (h : ¬ (10000 ≤ length ∧ length ≤ 2000000000)) :
    takeSetTarget length s = s.refuse .outOfRange := by
  have hout : length < 10000 ∨ 2000000000 < length := by omega
  simp only [takeSetTarget, hj, hset, hout, if_true]

variable (hok : 10000 ≤ length ∧ length ≤ 2000000000)
include hok

theorem takeSetTarget_active {e : StopEntry} (he : s.stops.setEnd = some e) (ha : e.active = true) :
    takeSetTarget length s = s.refuse .stopActive := by
  have hin : ¬ (length < 10000 ∨ 2000000000 < length) := by omega
  simp only [takeSetTarget, hj, hset, hin, if_false, he, ha, if_true]

theorem takeSetTarget_moves_entry {e : StopEntry} (he : s.stops.setEnd = some e) (ha : e.active = false) :
    takeSetTarget length s =
      (retargetStop e (setEndWeb s set.start length) (setEndWeb s set.start length + s.geometry.w) (s.withTarget length),
        .done (fieldU 1 e.id ++ fieldS 5 (setEndWeb s set.start length + s.geometry.w))) := by
  have hin : ¬ (length < 10000 ∨ 2000000000 < length) := by omega
  simp only [takeSetTarget, hj, hset, hin, if_false, he, ha, Bool.false_eq_true]
  rfl

variable (he : s.stops.setEnd = none)
include he

theorem takeSetTarget_listFull (hfull : setEndHasNoRoom s.stops = true) : takeSetTarget length s = s.refuse .listFull := by
  have hin : ¬ (length < 10000 ∨ 2000000000 < length) := by omega
  simp only [takeSetTarget, hj, hset, hin, if_false, he, hfull, if_true]

theorem takeSetTarget_offers (hroom : setEndHasNoRoom s.stops = false) :
    takeSetTarget length s =
      answerOffer (setEndOffer (s.withTarget length) set.number set.start length) (s.withTarget length) := by
  have hin : ¬ (length < 10000 ∨ 2000000000 < length) := by omega
  simp only [takeSetTarget, hj, hset, hin, if_false, he, hroom, Bool.false_eq_true]

end Winding

theorem setEndHasNoRoom_iff {pl : StopPlanner} : setEndHasNoRoom pl = true ↔
    16 ≤ pl.entries.length ∧ ∀ e ∈ pl.entries, e.active = false → 3 ≤ e.kind.priority := by
  rw [setEndHasNoRoom, Bool.and_eq_true, decide_eq_true_iff, Option.isNone_iff_eq_none, victimOf_eq_none_iff]
  rfl

/-- An evaluation of a part that differs in stop list and queue alone. -/
theorem evaluate_frame_of {s u : State} (hu : u = { s with stops := u.stops, queue := u.queue }) :
    evaluate u = { s with stops := (evaluate u).stops, queue := (evaluate u).queue, alerts := (evaluate u).alerts } := by
  have hframe := (evaluate_evaluated u).frame
  generalize evaluate u = t at hframe ⊢
  rw [hframe, hu]

/-- What a taken SET-TARGET leaves, whether it moved the entry or inserted one: its id, target and insertion number (R153). -/
theorem takeSetTarget_taken {length id : Nat} {set : SetRecord} {s : State} (hj : s.job.state = .winding)
    (hset : s.roll.windingSet = some set) (hok : 10000 ≤ length ∧ length ≤ 2000000000)
    (h : (∃ e, s.stops.setEnd = some e ∧ e.active = false ∧ e.id = id) ∨
      (s.stops.setEnd = none ∧ s.stops.entries.length < 16 ∧ s.stops.freshId = id)) :
    ∃ t, takeSetTarget length s = (t, .done (fieldU 1 id ++ fieldS 5 (setEndWeb s set.start length + s.geometry.w))) ∧
      t = { s.withTarget length with stops := t.stops, queue := t.queue, alerts := t.alerts } ∧
      (s.motion.standstill = false → ∃ x ∈ t.stops.entries, x.id = id ∧ x.kind = .setEnd ∧
        x.web = setEndWeb s set.start length ∧ x.target = setEndWeb s set.start length + s.geometry.w ∧
        x.insertion = s.stops.insertions) := by
  rcases h with ⟨e, he, ha, rfl⟩ | ⟨he, hlen, rfl⟩
  · refine ⟨_, takeSetTarget_moves_entry hj hset hok he ha, evaluate_frame_of rfl, fun hm => ?_⟩
    obtain ⟨x, hx, hid, hkind, -, -, hweb, -, htarget, hins⟩ := retargetStop_entry e (setEndWeb s set.start length)
      (setEndWeb s set.start length + s.geometry.w) (s := s.withTarget length) (.inl hm)
    exact ⟨x, hx, hid, hkind.trans (setEnd_mem he).2, hweb, htarget, hins⟩
  · have hroom : setEndHasNoRoom s.stops = false := by
      rw [Bool.eq_false_iff, Ne, setEndHasNoRoom_iff]
      omega
    have hlen' : (s.withTarget length).stops.entries.length < 16 := hlen
    refine ⟨_, (takeSetTarget_offers hj hset hok he hroom).trans (answerOffer_placed (offerStop_with_room _ hlen')),
      evaluate_frame_of rfl, fun hm => ?_⟩
    obtain ⟨x, hx, hid, hkind, -, -, hweb, -, htarget, hins⟩ := evaluate_stopPlaced_entry
      (setEndOffer (s.withTarget length) set.number set.start length) (s := s.withTarget length) (by omega) (.inl hm)
    exact ⟨x, hx, hid, hkind, hweb, htarget, hins⟩

/-- Settles O35, by the branches of the taking: the entry moved, the offer made, or the refusal. -/
theorem setTargetRetargetsTheSetEnd : Obligations.SetTargetRetargetsTheSetEnd := by
  intro p length set s ht
  refine ⟨fun h => exec_eq_replied rfl rfl ht (takeSetTarget_wrongState h length), fun hj hset =>
    ⟨fun h => exec_eq_replied rfl rfl ht (takeSetTarget_outOfRange hj hset h),
      fun e hok he ha => exec_eq_replied rfl rfl ht (takeSetTarget_active hj hset hok he ha),
      fun hok he hfull hno => exec_eq_replied rfl rfl ht
        (takeSetTarget_listFull hj hset hok he (setEndHasNoRoom_iff.2 ⟨hfull, hno⟩)), ?_, fun id hok h => ?_⟩⟩
  · intro web bytes u hok hs
    refine ⟨fun e he ha => ?_, fun he => ?_⟩
    · refine exec_eq_replied rfl rfl ht ((takeSetTarget_moves_entry hj hset hok he ha).trans ?_)
      rw [retargetStop_eq (s := s.withTarget length) hs.insertion_lt]
      rfl
    · have hsome (hroom : setEndHasNoRoom s.stops = false) :
          (offerStop (setEndOffer (s.withTarget length) set.number set.start length) u).2.isSome = true :=
        offerStop_isSome u rfl hroom
      have hnone (hfull : setEndHasNoRoom s.stops = true) :
          (offerStop (setEndOffer (s.withTarget length) set.number set.start length) u).2 = none := by
        obtain ⟨hlen, hno⟩ := setEndHasNoRoom_iff.1 hfull
        rw [offerStop_without_victim (s := u) (setEndOffer (s.withTarget length) set.number set.start length) hlen hno]
      refine ⟨_, _, offerStop_taken (s := u) _ hs, fun n hn => ?_, fun hrefused => ?_⟩ <;>
        cases hroom : setEndHasNoRoom s.stops
      · exact exec_eq_replied rfl rfl ht
          ((takeSetTarget_offers hj hset hok he hroom).trans (answerOffer_placed (Prod.ext rfl hn)))
      · exact nomatch (hnone hroom).symm.trans hn
      · exact absurd hrefused (Option.isSome_iff_ne_none.1 (hsome hroom))
      · exact exec_eq_replied rfl rfl ht (takeSetTarget_listFull hj hset hok he hroom)
  · obtain ⟨t, htake, hframe, hentry⟩ := takeSetTarget_taken hj hset hok h
    have hports : t.ports = s.ports := by rw [hframe]; rfl
    refine ⟨_, exec_eq_replied rfl rfl ht htake, State.replied_port hports _ _ _ _, ?_, ?_, hentry, fun hplain => ?_,
      setEndWeb_isSetEndWeb s _ _, ?_⟩
    · rw [State.replied, hframe]
      rfl
    · have hroll : t.roll.windingSet = (s.roll.mapWinding (fun r => { r with target := some length })).windingSet := by
        rw [hframe]
        rfl
      refine hroll.trans ?_
      rw [RollMap.windingSet_mapWinding, hset]
      rfl
    · rw [setEndWeb_plain]
      · omega
      · exact hplain.imp (fun h => by simp [TrackingSettings.aligns, h]) fun h => h
    · rw [State.replied, hframe]
      exact ⟨rfl, rfl, rfl, rfl, rfl, rfl, rfl, rfl, rfl, rfl, fun q hq => ByPort.get_set_other _ _ hq⟩

end Sys2Proof.Machine
end

