-- ==== Sys2Proof/Proofs/MarkArrivals.lean ====
section
/-! PROOFS. A forward mark arrival (R120 to R123, R126) and the set end that it realigns (R131, R133). -/

namespace Sys2Proof.Machine

theorem exec_markArrival {s : State} (h : s.running = true) :
    exec .markArrival s = .next (markSeen (s.withInputs s.inputs.markArrived)) := by
  rw [exec_event rfl, if_pos h]

/-! ## The realignment (R133) -/

theorem recomputeSetEnd_plain {s : State}
    (h : s.tracker.settings.align ≠ 1 ∨ s.stops.setEnd = none ∨ s.roll.windingSet = none) (l : MarkLock) :
    recomputeSetEnd l s = s := by
  unfold recomputeSetEnd
  split
  next ha =>
    split
    next e set he hset =>
      rcases h with h | h | h
      · exact absurd (TrackingSettings.aligns_iff.1 ha).2 h
      · exact nomatch h.symm.trans he
      · exact nomatch h.symm.trans hset
    next => rfl
  next => rfl

section SetEnd
variable {s : State} {e : StopEntry} {set : SetRecord} (he : s.stops.setEnd = some e) (hset : s.roll.windingSet = some set)
include he hset

theorem recomputeSetEnd_frozen (h : e.active = true ∨ set.target = none) (l : MarkLock) : recomputeSetEnd l s = s := by
  unfold recomputeSetEnd
  split
  next =>
    simp only [he, hset]
    split
    next target ha ht =>
      rcases h with h | h
      · exact nomatch ha.symm.trans h
      · exact nomatch ht.symm.trans h
    next => rfl
  next => rfl

theorem recomputeSetEnd_aligned (ha : e.active = false) {target : Nat} (ht : set.target = some target)
    (haligns : s.tracker.settings.aligns = true) (l : MarkLock) :
    recomputeSetEnd l s = retargetStop e (alignedWeb s.geometry.w s.tracker.settings l set.start target)
      (alignedWeb s.geometry.w s.tracker.settings l set.start target + s.geometry.w) s := by
  simp only [recomputeSetEnd, haligns, if_true, he, hset, ha, ht]

end SetEnd

theorem recomputeSetEnd_follows {s : State} (htrack : s.tracker.settings.tracking = true) (l : MarkLock) :
    RealignFollows l s (recomputeSetEnd l s) := by
  refine ⟨fun h => recomputeSetEnd_plain h l, fun e he set hset => ⟨fun h => recomputeSetEnd_frozen he hset h l,
    fun length ht halign ha hrm => ⟨_, repeatsTo_firstBoundary _ _ hrm, ?_⟩⟩⟩
  intro web
  rw [recomputeSetEnd_aligned he hset ha ht (TrackingSettings.aligns_iff.2 ⟨htrack, halign⟩)]
  refine ⟨fun hs => retargetStop_eq hs.insertion_lt, fun hq => ?_⟩
  obtain ⟨x, hx, hid, hkind, -, -, hweb, -, htarget, hins⟩ := retargetStop_entry e web (web + s.geometry.w) hq
  exact ⟨x, hx, hid, hkind.trans (setEnd_mem he).2, hweb, htarget.trans (by rw [hweb]), hins⟩

theorem recomputeSetEnd_eq (l : MarkLock) (s : State) : recomputeSetEnd l s = { s with
    stops := (recomputeSetEnd l s).stops, queue := (recomputeSetEnd l s).queue, alerts := (recomputeSetEnd l s).alerts } := by
  unfold recomputeSetEnd
  split
  · split
    · split
      · exact evaluate_frame_of rfl
      · rfl
    · rfl
  · rfl

theorem recomputeSetEnd_pendsAs {k : EventKind} (h : k ∉ evaluationPosts) (l : MarkLock) (s : State) :
    (recomputeSetEnd l s).PendsAs k s := by
  unfold recomputeSetEnd
  split
  · split
    · split
      · exact evaluate_pendsAs h _
      · exact .refl s k
    · exact .refl s k
  · exact .refl s k

/-! ## The classes of an arrival (R121, R122, R126) -/

theorem markSeen_ignored {s : State}
    (h : s.job.state = .noJob ∨ s.tracker.settings.tracking = false ∨ s.tracker.sense = .reverse) : markSeen s = s := if_pos h

section Forward
variable {s : State} (hj : s.job.state ≠ .noJob) (ht : s.tracker.settings.tracking = true) (hf : s.tracker.sense = .forward)
include hj ht hf

theorem markSeen_unlocked (hs : s.tracker.state = .unlocked) : markSeen s = lockMark ((s.length.p : Int) - s.geometry.m) s := by
  rw [markSeen, if_neg (by simp [hj, ht, hf]), hs]
  rfl

theorem markSeen_locked {l : MarkLock} (hs : s.tracker.state = .locked l) :
    markSeen s = classMark l ((s.length.p : Int) - s.geometry.m) s := by
  rw [markSeen, if_neg (by simp [hj, ht, hf]), hs]
  rfl

theorem markSeen_lost {l : MarkLock} (hs : s.tracker.state = .lost l) :
    markSeen s = relockMark l ((s.length.p : Int) - s.geometry.m) s := by
  rw [markSeen, if_neg (by simp [hj, ht, hf]), hs]
  rfl

end Forward

section Class
variable {l : MarkLock} {wm : Int} {s : State}

theorem classMark_rescan (h : wm - l.wlast ≤ 0) :
    classMark l wm s = s.withTracker { s.tracker with rescanned := holdAt 65535 (s.tracker.rescanned + 1) } := if_pos h

variable (h0 : 0 < wm - l.wlast)
include h0

theorem classMark_extra (h : wm - l.wlast < (s.tracker.settings.expected : Int) - s.tracker.settings.window) :
    classMark l wm s =
      (countMarkFault (s.withTracker { s.tracker with extra := holdAt 65535 (s.tracker.extra + 1) })).post .markFault :=
  (if_neg (not_le.2 h0)).trans (if_pos h)

theorem classMark_good (h1 : (s.tracker.settings.expected : Int) - s.tracker.settings.window ≤ wm - l.wlast)
    (h2 : wm - l.wlast ≤ (s.tracker.settings.expected : Int) + s.tracker.settings.window) :
    classMark l wm s = goodMark l wm s :=
  (if_neg (not_le.2 h0)).trans ((if_neg (not_lt.2 h1)).trans (if_pos h2))

theorem classMark_beyond (h : (s.tracker.settings.expected : Int) + s.tracker.settings.window < wm - l.wlast) :
    classMark l wm s = s :=
  (if_neg (not_le.2 h0)).trans ((if_neg (by omega)).trans (if_neg (not_le.2 h)))

end Class

/-- Settles O32, by the tracker's state and the distance from the last mark. -/
theorem markArrivalIsClassed : Obligations.MarkArrivalIsClassed := by
  intro s hr wm inputs r wd mark counted marked
  have hexec := exec_markArrival hr
  refine ⟨fun h => hexec.trans (congrArg _ (markSeen_ignored h)), fun hj ht hf => ⟨fun hs => ?_, fun l hs h => ?_,
    fun l hs h0 h => ?_, fun l hs h0 h1 h2 => ?_, fun l hs h0 h => ?_, fun l hs => ?_⟩⟩
  · exact hexec.trans (congrArg _ (markSeen_unlocked (s := s.withInputs s.inputs.markArrived) hj ht hf hs))
  all_goals rw [hexec]
  case refine_2 =>
    rw [markSeen_locked (s := s.withInputs s.inputs.markArrived) hj ht hf hs]
    exact congrArg _ (classMark_rescan h)
  case refine_3 =>
    rw [markSeen_locked (s := s.withInputs s.inputs.markArrived) hj ht hf hs]
    exact congrArg _ (classMark_extra (s := s.withInputs s.inputs.markArrived) h0 h)
  case refine_4 =>
    intro l' u
    rw [markSeen_locked (s := s.withInputs s.inputs.markArrived) hj ht hf hs]
    have hgood : classMark l wm (s.withInputs s.inputs.markArrived) = recomputeSetEnd l' u :=
      classMark_good (s := s.withInputs s.inputs.markArrived) h0 h1 h2
    exact ⟨_, congrArg _ hgood, recomputeSetEnd_follows (s := u) ht l', recomputeSetEnd_eq l' u⟩
  case refine_5 =>
    rw [markSeen_locked (s := s.withInputs s.inputs.markArrived) hj ht hf hs]
    exact congrArg _ (classMark_beyond (s := s.withInputs s.inputs.markArrived) h0 h)
  case refine_6 =>
    intro u
    rw [markSeen_lost (s := s.withInputs s.inputs.markArrived) hj ht hf hs]
    refine ⟨recomputeSetEnd (mark l.rm) u, rfl, recomputeSetEnd_follows (s := u) ht _, recomputeSetEnd_eq _ u, fun _ => ?_⟩
    exact (recomputeSetEnd_pendsAs (by decide) _ u).trans (State.PendsAs.of_alerts rfl _)

end Sys2Proof.Machine
end

