-- ==== Sys2Proof/Proofs/PlannerAlike.lean ====
section
/-! SUPPORT. Two parts that are alike to the stop planner stay so: what the planner does depends on its list, the monitor, P, the
job state and the stop entry ids of the records alone (R137 to R151). -/

namespace Sys2Proof.Machine

/-- The part `v` is to the planner what `u` is; a record that both queues hold has one number and one stop entry id in both. -/
structure PlannerSim (u v : State) : Prop where
  stops : v.stops = u.stops
  motion : v.motion = u.motion
  p : v.length.p = u.length.p
  cut : v.job.state.isCutOpen = u.job.state.isCutOpen
  records : ∀ r ∈ v.queue.records, ∀ r' ∈ u.queue.records, r'.joined = r.joined →
    r.body.number = r'.body.number ∧ r.stopId = r'.stopId
  posts : ∀ k ∈ stopPosts, v.PendsAs k u
  alerts : v.AlertsSound ∧ u.AlertsSound

namespace PlannerSim

theorem refl {s : State} (hq : (s.queue.records.map (·.joined)).Nodup) (ha : s.AlertsSound) : PlannerSim s s where
  stops := rfl
  motion := rfl
  p := rfl
  cut := rfl
  records := fun r hr r' hr' hj => by rw [List.inj_on_of_nodup_map hq hr' hr hj]; exact ⟨rfl, rfl⟩
  posts := fun k _ => .refl s k
  alerts := ⟨ha, ha⟩

variable {u v : State}

theorem plannerAs (h : PlannerSim u v) : PlannerAs u v :=
  ⟨h.stops, fun r hr r' hr' hj => (h.records r hr r' hr' hj).2, h.posts⟩

/-- What the planner does not read may change. -/
theorem congr_right {w : State} (h : PlannerSim u v) (hstops : w.stops = v.stops) (hmotion : w.motion = v.motion)
    (hp : w.length.p = v.length.p) (hcut : w.job.state.isCutOpen = v.job.state.isCutOpen) (hqueue : w.queue = v.queue)
    (halerts : w.alerts = v.alerts) : PlannerSim u w where
  stops := hstops.trans h.stops
  motion := hmotion.trans h.motion
  p := hp.trans h.p
  cut := hcut.trans h.cut
  records := by rw [hqueue]; exact h.records
  posts := fun k hk => (State.PendsAs.of_alerts halerts k).trans (h.posts k hk)
  alerts := ⟨h.alerts.1.congr halerts, h.alerts.2⟩

/-- The posts of a step, made alike in both parts. -/
theorem posts_alike (h : PlannerSim u v) {u' v' : State} {ks : List EventKind} (hu : u'.alerts = (u.postAll ks).alerts)
    (hv : v'.alerts = (v.postAll ks).alerts) :
    (∀ k ∈ stopPosts, v'.PendsAs k u') ∧ v'.AlertsSound ∧ u'.AlertsSound :=
  ⟨fun k hk => (State.PendsAs.of_alerts hv k).trans
      (((h.posts k hk).postAll h.alerts.1 h.alerts.2 ks).trans (State.PendsAs.of_alerts hu k).symm),
    (h.alerts.1.postAll ks).congr hv, (h.alerts.2.postAll ks).congr hu⟩

/-- One step of the planner: the same list, the same events, the records of both queues changed alike. -/
theorem step (h : PlannerSim u v) {u' v' : State} {pl : StopPlanner} {fu fv : PathRecord → PathRecord} {ks : List EventKind}
    (hu : u' = { u with stops := pl, queue := u'.queue, alerts := (u.postAll ks).alerts })
    (hv : v' = { v with stops := pl, queue := v'.queue, alerts := (v.postAll ks).alerts })
    (hur : u'.queue.records = u.queue.records.map fu) (hvr : v'.queue.records = v.queue.records.map fv)
    (hj : ∀ r, (fu r).joined = r.joined ∧ (fv r).joined = r.joined)
    (hf : ∀ r r' : PathRecord, r.body.number = r'.body.number → r.stopId = r'.stopId →
      (fv r).body.number = (fu r').body.number ∧ (fv r).stopId = (fu r').stopId) : PlannerSim u' v' := by
  have halerts := h.posts_alike (u' := u') (v' := v') (by rw [hu]) (by rw [hv])
  exact
    { stops := by rw [hu, hv]
      motion := by rw [hu, hv]; exact h.motion
      p := by rw [hu, hv]; exact h.p
      cut := by rw [hu, hv]; exact h.cut
      records := fun r hr r' hr' hjoined => by
        rw [hvr] at hr
        rw [hur] at hr'
        obtain ⟨x, hx, rfl⟩ := List.mem_map.1 hr
        obtain ⟨x', hx', rfl⟩ := List.mem_map.1 hr'
        rw [(hj x').1, (hj x).2] at hjoined
        obtain ⟨hnum, hid⟩ := h.records x hx x' hx' hjoined
        exact hf x x' hnum hid
      posts := halerts.1
      alerts := halerts.2 }

/-- A step that leaves the records as they are. -/
theorem step_list (h : PlannerSim u v) {u' v' : State} {pl : StopPlanner} {ks : List EventKind}
    (hu : u' = { u with stops := pl, alerts := (u.postAll ks).alerts })
    (hv : v' = { v with stops := pl, alerts := (v.postAll ks).alerts }) : PlannerSim u' v' := by
  refine h.step (pl := pl) (fu := id) (fv := id) (ks := ks) (by rw [hu]) (by rw [hv]) (by rw [hu, List.map_id])
    (by rw [hv, List.map_id]) (fun r => ⟨rfl, rfl⟩) fun r r' hn hi => ⟨hn, hi⟩

theorem post (h : PlannerSim u v) (k : EventKind) : PlannerSim (u.post k) (v.post k) := by
  refine h.step_list (pl := u.stops) (ks := [k]) rfl ?_
  rw [← h.stops]
  rfl

theorem postIf (h : PlannerSim u v) (c : Bool) (k : EventKind) : PlannerSim (u.postIf c k) (v.postIf c k) := by
  unfold State.postIf
  split
  · exact h.post k
  · exact h

/-- A post that is not the planner's. -/
theorem post_right (h : PlannerSim u v) {k : EventKind} (hk : k ∉ stopPosts) : PlannerSim u (v.post k) :=
  { h with
    records := h.records
    posts := fun j hj => (State.pendsAs_post_other (ne_of_mem_of_not_mem hj hk).symm v).trans (h.posts j hj)
    alerts := ⟨h.alerts.1.post k, h.alerts.2⟩ }

theorem clearedFrom_alike {e : StopEntry} {r r' : PathRecord} (hn : r.body.number = r'.body.number)
    (hi : r.stopId = r'.stopId) :
    (e.clearedFrom r).body.number = (e.clearedFrom r').body.number ∧ (e.clearedFrom r).stopId = (e.clearedFrom r').stopId := by
  unfold StopEntry.clearedFrom
  rw [hn, hi]
  split
  · exact ⟨hn, rfl⟩
  · exact ⟨hn, hi⟩

theorem clearedFrom_joined (e : StopEntry) (r : PathRecord) : (e.clearedFrom r).joined = r.joined := by
  unfold StopEntry.clearedFrom
  split <;> rfl

theorem stopRemoved (h : PlannerSim u v) (e : StopEntry) : PlannerSim (u.stopRemoved e) (v.stopRemoved e) := by
  refine h.step (ks := []) (fu := e.clearedFrom) (fv := e.clearedFrom) rfl ?_ (stopRemoved_records e u) (stopRemoved_records e v)
    (fun r => ⟨clearedFrom_joined e r, clearedFrom_joined e r⟩) fun r r' hn hi => clearedFrom_alike hn hi
  rw [← h.stops]
  rfl

theorem activateStop (h : PlannerSim u v) (e : StopEntry) : PlannerSim (activateStop e u) (activateStop e v) := by
  have hremaining : v.remaining e = u.remaining e := congrArg (fun p : Nat => e.target - (p : Int)) h.p
  have hposts : v.activationPosts e = u.activationPosts e := by
    rw [State.activationPosts, State.activationPosts, h.motion, hremaining]
  have hactivated : v.activated e = u.activated e := by
    rw [State.activated, State.activated, h.motion, hremaining]
  refine h.step_list (activateStop_eq e u) ?_
  rw [activateStop_eq, hactivated, hposts, h.stops]

theorem overrunTest (h : PlannerSim u v) (e : StopEntry) : PlannerSim (overrunTest e u) (overrunTest e v) := by
  have hp : v.p = u.p := h.p
  unfold Machine.overrunTest
  rw [h.motion, hp]
  split
  · refine h.step_list (ks := [.stopOverrun]) rfl ?_
    rw [h.stops]
    rfl
  · exact h

theorem completeStop (h : PlannerSim u v) (e : StopEntry) (late : Bool) (shortfall : Nat) :
    PlannerSim (completeStop e late shortfall u) (completeStop e late shortfall v) := by
  have hrecord : v.stopRecord e late shortfall = u.stopRecord e late shortfall := by
    have hp : v.p = u.p := h.p
    rw [State.stopRecord, State.stopRecord, h.motion, hp]
  refine h.step (ks := [.stopReached]) (pl := (Machine.completeStop e late shortfall u).stops) (fu := e.clearedFrom)
    (fv := e.clearedFrom) ?_ ?_ ?_ ?_ (fun r => ⟨clearedFrom_joined e r, clearedFrom_joined e r⟩)
    fun r r' hn hi => clearedFrom_alike hn hi
  · rw [completeStop_eq]
    rfl
  · rw [completeStop_eq, completeStop_eq, hrecord, h.stops]
    rfl
  · rw [completeStop_eq]
    exact stopRemoved_records e u
  · rw [completeStop_eq]
    exact stopRemoved_records e v

theorem inReach_eq (h : PlannerSim u v) : v.inReach = u.inReach := by
  have hp : v.p = u.p := h.p
  funext e
  rw [State.inReach, State.inReach, h.motion, hp]

theorem sweepStops (fuel : Nat) (h : PlannerSim u v) : PlannerSim (sweepStops fuel u) (sweepStops fuel v) := by
  induction fuel generalizing u v with
  | zero => exact h
  | succ n ih =>
    unfold Machine.sweepStops
    rw [h.stops, h.inReach_eq]
    split
    · exact h
    next e _ => exact ih (h.completeStop e false 0)

theorem completeAndSweep (h : PlannerSim u v) (e : StopEntry) : PlannerSim (completeAndSweep e u) (completeAndSweep e v) := by
  unfold Machine.completeAndSweep
  rw [h.stops]
  exact (h.completeStop e e.late e.shortfall).sweepStops _

theorem activates_eq (h : PlannerSim u v) (e : StopEntry) : v.activates e = u.activates e := by
  have hp : v.p = u.p := h.p
  rw [State.activates, State.activates, State.remaining, State.remaining, h.motion, hp]

theorem activated_eq (h : PlannerSim u v) (e : StopEntry) : v.activated e = u.activated e := by
  have hp : v.p = u.p := h.p
  rw [State.activated, State.activated, State.remaining, State.remaining, h.motion, hp]

theorem evaluatePasses (fuel : Nat) (h : PlannerSim u v) : PlannerSim (evaluatePasses fuel u) (evaluatePasses fuel v) := by
  induction fuel generalizing u v with
  | zero => exact h
  | succ n ih =>
    unfold Machine.evaluatePasses
    rw [h.stops, h.motion]
    split
    next e _ =>
      split
      · exact ih (h.completeAndSweep e)
      · exact h.overrunTest e
    next =>
      split
      next => exact h
      next e _ =>
        rw [h.activates_eq, h.activated_eq]
        split
        · split
          · exact ih ((h.activateStop e).completeAndSweep _)
          · exact h.activateStop e
        · exact h

theorem evaluate (h : PlannerSim u v) : PlannerSim (evaluate u) (evaluate v) := by
  unfold Machine.evaluate
  rw [h.cut, h.stops]
  split
  · exact h
  · exact h.evaluatePasses _

theorem stopPlaced (h : PlannerSim u v) (o : StopOffer) : PlannerSim (u.stopPlaced o) (v.stopPlaced o) := by
  refine h.step (ks := []) (pl := (u.stopPlaced o).stops)
    (fu := fun r => if decide (o.ref = .record r.body.number) then { r with stopId := some u.stops.freshId } else r)
    (fv := fun r => if decide (o.ref = .record r.body.number) then { r with stopId := some u.stops.freshId } else r) rfl ?_ rfl ?_
    (fun r => ?_) fun r r' hn hi => ?_
  · rw [State.stopPlaced, State.stopPlaced, h.stops]
    rfl
  · rw [← h.stops]
    rfl
  · constructor <;> split <;> rfl
  · rw [hn]
    split
    · exact ⟨hn, rfl⟩
    · exact ⟨hn, hi⟩

theorem offerStop (h : PlannerSim u v) (o : StopOffer) : PlannerSim (offerStop o u).1 (offerStop o v).1 := by
  unfold Machine.offerStop
  rw [h.stops]
  split
  · rw [insertStop_placed, insertStop_placed]
    exact (h.stopPlaced o).evaluate
  · split
    next e _ =>
      rw [insertStop_placed, insertStop_placed, removeStop_eq, removeStop_eq]
      exact ((((h.stopRemoved e).post .stopDropped).evaluate).stopPlaced o).evaluate
    next => exact h.postIf _ _

theorem offerStop_snd (h : PlannerSim u v) (o : StopOffer) : (Machine.offerStop o v).2 = (Machine.offerStop o u).2 := by
  unfold Machine.offerStop
  rw [h.stops]
  split
  · rw [insertStop_placed, insertStop_placed, h.stops]
  · split
    next e _ =>
      rw [insertStop_placed, insertStop_placed, removeStop_eq, removeStop_eq]
      exact congrArg (fun pl : StopPlanner => some pl.freshId) (((h.stopRemoved e).post .stopDropped).evaluate).stops
    next => rfl

theorem cancelStopId (h : PlannerSim u v) (id : Nat) : PlannerSim (cancelStopId id u) (cancelStopId id v) := by
  unfold Machine.cancelStopId
  rw [h.stops]
  split
  · exact h
  next e _ =>
    rw [removeStop_eq, removeStop_eq]
    exact (h.stopRemoved e).evaluate

end PlannerSim

end Sys2Proof.Machine
end

