-- ==== Sys2Proof/Proofs/SpliceArrivals.lean ====
section
/-! PROOFS. A record that joins the queue (R56, R57), what the planner's operations leave of the queue, and a splice arrival with
its splice-limit decision (R64 to R66). -/

namespace Sys2Proof.Machine

/-! ## What the planner touches -/

/-- A record but for its stop entry id. -/
def PathRecord.bare (r : PathRecord) : PathRecord := { r with stopId := none }

/-- Nothing but the stop list, the stop entry ids of records with their change count, and the station records has changed. -/
structure PlannerOnly (s t : State) : Prop where
  frame : t = { s with stops := t.stops, queue := t.queue, alerts := t.alerts }
  queue : t.queue = { s.queue with records := t.queue.records, changes := t.queue.changes }
  records : t.queue.records.map PathRecord.bare = s.queue.records.map PathRecord.bare

namespace PlannerOnly

theorem refl (s : State) : PlannerOnly s s := ⟨rfl, rfl, rfl⟩

theorem trans {s t u : State} (h : PlannerOnly s t) (g : PlannerOnly t u) : PlannerOnly s u :=
  ⟨by rw [g.frame, h.frame], by rw [g.queue, h.queue], g.records.trans h.records⟩

theorem post (s : State) (k : EventKind) : PlannerOnly s (s.post k) := ⟨rfl, rfl, rfl⟩

theorem postIf (s : State) (c : Bool) (k : EventKind) : PlannerOnly s (s.postIf c k) := by
  unfold State.postIf
  split
  · exact post s k
  · exact refl s

theorem evaluate (s : State) : PlannerOnly s (evaluate s) :=
  ⟨(evaluate_evaluated s).frame, (evaluate_evaluated s).queue, (evaluate_evaluated s).records_without⟩

theorem withStopId_bare (q : PathQueue) (which : PathRecord → Bool) (id : Option Nat) :
    (q.withStopId which id).records.map PathRecord.bare = q.records.map PathRecord.bare := by
  rw [PathQueue.withStopId, List.map_map]
  refine List.map_congr_left fun r _ => ?_
  rw [Function.comp_apply]
  split <;> rfl

theorem stopRemoved (e : StopEntry) (s : State) : PlannerOnly s (s.stopRemoved e) := ⟨rfl, rfl, withStopId_bare _ _ _⟩

theorem stopPlaced (o : StopOffer) (s : State) : PlannerOnly s (s.stopPlaced o) := ⟨rfl, rfl, withStopId_bare _ _ _⟩

theorem offerStop (o : StopOffer) (s : State) : PlannerOnly s (offerStop o s).1 := by
  unfold Machine.offerStop
  split
  · rw [insertStop_placed]
    exact (stopPlaced o s).trans (evaluate _)
  · split
    next v _ =>
      rw [insertStop_placed, removeStop_eq]
      exact (((stopRemoved v s).trans (post _ _)).trans (evaluate _)).trans ((stopPlaced o _).trans (evaluate _))
    next => exact postIf _ _ _

variable {s t : State} (h : PlannerOnly s t)
include h

theorem length : t.queue.records.length = s.queue.records.length := by
  have := congrArg List.length h.records
  rwa [List.length_map, List.length_map] at this

/-- Each record of the queue is still there, but for its stop entry id. -/
theorem mem {r : PathRecord} (hr : r ∈ s.queue.records) : ∃ r' ∈ t.queue.records, r'.bare = r.bare := by
  have hmem : r.bare ∈ t.queue.records.map PathRecord.bare := by
    rw [h.records]
    exact List.mem_map_of_mem hr
  exact List.mem_map.1 hmem

/-- And each one that is there was. -/
theorem mem_of {r' : PathRecord} (hr : r' ∈ t.queue.records) : ∃ r ∈ s.queue.records, r.bare = r'.bare := by
  have hmem : r'.bare ∈ s.queue.records.map PathRecord.bare := by
    rw [← h.records]
    exact List.mem_map_of_mem hr
  exact List.mem_map.1 hmem

end PlannerOnly

theorem bare_eq_iff {a b : PathRecord} : a.bare = b.bare ↔ a.body = b.body ∧ a.slit = b.slit ∧ a.joined = b.joined := by
  simp [PathRecord.bare]

/-! ## A record joins (R56, R57) -/

/-- A record that joins after every other takes its place behind the web marks up to its own. -/
theorem placeRecord_eq {r : PathRecord} {l : List PathRecord} (h : ∀ x ∈ l, x.joined < r.joined) :
    placeRecord r l = l.takeWhile (fun x => decide (x.body.web ≤ r.body.web)) ++
      r :: l.dropWhile (fun x => decide (x.body.web ≤ r.body.web)) := by
  induction l with
  | nil => rfl
  | cons x rest ih =>
    have hx := h x (by simp)
    have ih := ih fun y hy => h y (by simp [hy])
    by_cases hle : x.body.web ≤ r.body.web
    · have hbefore : r.before x = false := by simp [PathRecord.before]; omega
      simp [placeRecord, hbefore, ih, hle]
    · have hbefore : r.before x = true := by simp [PathRecord.before]; omega
      simp [placeRecord, hbefore, hle]

/-- The record that joins with a body. -/
def State.joining (s : State) (body : RecordBody) (slit : Option LaneRange) : PathRecord :=
  { body := body, slit := slit, stopId := none, joined := s.queue.nextJoin }

/-- The part with a record entered, at its place in web order in any queue (R56, R57). -/
def State.recordJoined (body : RecordBody) (slit : Option LaneRange) (s : State) : State :=
  { s with queue := { s.queue with
      records := placeRecord (s.joining body slit) s.queue.records
      nextNumber := nextInCycle 65535 body.number
      nextJoin := s.queue.nextJoin + 1
      flow := s.queue.flow.addTaken 1
      changes := wrap16 s.queue.changes 1 } }

/-- The body of a record entered next. -/
def State.nextBody (s : State) (kind : RecordKind) (xs xe length : Nat) (web : Int) : RecordBody :=
  { number := s.freshNumber, kind := kind, xs := xs, xe := xe, length := length, web := web }

theorem enterRecord_joined (kind : RecordKind) (xs xe length : Nat) (web : Int) (slit : Option LaneRange) (s : State) :
    enterRecord kind xs xe length web slit s = (s.recordJoined (s.nextBody kind xs xe length web) slit, s.freshNumber) := rfl

theorem recordJoined_eq {s : State} (h : s.QueueSound) (body : RecordBody) (slit : Option LaneRange) :
    s.recordJoined body slit = s.recordEntered body slit := by
  rw [State.recordJoined, placeRecord_eq fun x hx => h.2.2.2.1 x hx]
  rfl

theorem recordJoined_mem (body : RecordBody) (slit : Option LaneRange) (s : State) :
    s.joining body slit ∈ (s.recordJoined body slit).queue.records := mem_placeRecord.2 (.inl rfl)

/-! ## The splice limit (R66) -/

theorem sensedInLane_eq (n : Nat) : PathRecord.sensedInLane n = fun r => decide (r.body.kind = .sensedSplice) &&
    (match r.slit with
     | none => true
     | some x => x.contains n) := by
  funext r
  unfold PathRecord.sensedInLane
  cases r.slit <;> rfl

/-- With the new record in the queue each lane's count is that of R66. -/
theorem overSpliceLimit_iff (s : State) {body : RecordBody} (hb : body.kind = .sensedSplice) :
    (s.job.params.enforce && overSpliceLimit (s.recordJoined body none)) = true ↔ s.SpliceOverLimit := by
  have hcount (lane : LaneRecord) : lane.spliceCount +
      (s.recordJoined body none).queue.records.countP (PathRecord.sensedInLane lane.number) = s.splicesToCome lane := by
    have hnew : PathRecord.sensedInLane lane.number (s.joining body none) = true := by
      simp [PathRecord.sensedInLane, State.joining, hb]
    have hone : (s.recordJoined body none).queue.records.countP (PathRecord.sensedInLane lane.number) =
        s.queue.records.countP (PathRecord.sensedInLane lane.number) + 1 := by
      rw [show (s.recordJoined body none).queue.records = placeRecord (s.joining body none) s.queue.records from rfl,
        (placeRecord_perm _ _).countP_eq, List.countP_cons, if_pos hnew]
    rw [hone, LaneRecord.spliceCount, State.splicesToCome, sensedInLane_eq, ← Nat.add_assoc] <;> rfl
  rw [Bool.and_eq_true]
  refine and_congr_right fun _ => ?_
  unfold overSpliceLimit
  cases hset : (s.recordJoined body none).roll.windingSet with
  | none =>
    replace hset : s.roll.windingSet = none := hset
    simp [hset]
  | some set =>
    replace hset : s.roll.windingSet = some set := hset
    simp only [hset, List.any_eq_true, decide_eq_true_eq, hcount, Option.mem_def, Option.some.injEq, exists_eq_left']
    rfl

/-! ## A splice arrival (R64, R65) -/

theorem exec_spliceArrival {s : State} (h : s.running = true) :
    exec .spliceArrival s = .next (spliceSeen (s.withInputs s.inputs.spliceArrived)) := by
  rw [exec_event rfl, if_pos h]

theorem isRescan_iff {high : Option Int} {web : Int} : isRescan high web = true ↔ ∃ h, high = some h ∧ web ≤ h + 1000 := by
  cases high <;> simp [isRescan]

/-- The part as a splice that is no rescan leaves the high mark (R64). -/
def State.marked (s : State) : State :=
  { s with queue := { s.queue with highMark := some ((s.length.p : Int) - s.geometry.e) } }

section Spliced
variable {s : State} (hr : ∀ high, s.queue.highMark = some high → high + 1000 < (s.length.p : Int) - s.geometry.e)
include hr

theorem not_rescan : ¬ isRescan s.queue.highMark ((s.p : Int) - s.geometry.e) = true := by
  rw [isRescan_iff]
  rintro ⟨h, hh, hle⟩
  have := hr h hh
  simp only [State.p] at hle
  omega

variable (hj : s.job.state ≠ .noJob)
include hj

theorem spliceSeen_full (hf : 64 ≤ s.queue.records.length) : spliceSeen s = queueFull s.marked := by
  have hnot := not_rescan hr
  simp only [spliceSeen, hj, if_false, hnot, PathQueue.full, hf, decide_true, if_true]
  rfl

/-- The record of a sensed splice in the queue (R65). -/
def State.spliceEntered (s : State) : State :=
  s.marked.recordJoined (s.marked.nextBody .sensedSplice 0 30000 0 ((s.length.p : Int) - s.geometry.e)) none

variable (hl : s.queue.records.length < 64)
include hl

theorem spliceSeen_entered : spliceSeen s =
    if (s.job.params.enforce && overSpliceLimit s.spliceEntered) = true then
      (offerStop (s.spliceStop s.freshNumber ((s.length.p : Int) - s.geometry.e)) s.spliceEntered).1
    else s.spliceEntered := by
  have hnot := not_rescan hr
  have hroom : ¬ 64 ≤ s.queue.records.length := not_le.2 hl
  simp only [spliceSeen, hj, if_false, hnot, PathQueue.full, hroom, decide_false, Bool.false_eq_true]
  rfl

theorem spliceSeen_within (h : ¬ s.SpliceOverLimit) : spliceSeen s = s.spliceEntered := by
  rw [spliceSeen_entered hr hj hl]
  exact if_neg fun h' => h ((overSpliceLimit_iff s.marked rfl).1 h')

theorem spliceSeen_over (h : s.SpliceOverLimit) : spliceSeen s =
    (offerStop (s.spliceStop s.freshNumber ((s.length.p : Int) - s.geometry.e)) s.spliceEntered).1 := by
  rw [spliceSeen_entered hr hj hl]
  exact if_pos ((overSpliceLimit_iff s.marked rfl).2 h)

end Spliced

/-! ## The splice-limit decision (R66) -/

theorem spliceEntered_record (s : State) :
    s.spliceEntered.queue.records = placeRecord (s.joining (s.nextBody .sensedSplice 0 30000 0
      ((s.length.p : Int) - s.geometry.e)) none) s.queue.records := rfl

theorem spliceEntered_eq (s : State) : s.spliceEntered = { s with queue := s.spliceEntered.queue } := rfl

section Decision
variable {s t : State} (o : StopOffer) (ho : o = s.spliceStop s.freshNumber ((s.length.p : Int) - s.geometry.e))
include ho

/-- With room the record keeps the id of the entry made for it (R66, R140). -/
theorem splice_offer_with_room (hl : s.stops.entries.length < 16)
    (hq : s.motion.standstill = false ∨ s.job.state.isCutOpen = true) :
    (∃ r ∈ (offerStop o s.spliceEntered).1.queue.records, r.body.number = s.freshNumber ∧
        r.body.web = (s.length.p : Int) - s.geometry.e ∧ r.slit = none ∧ r.stopId = some s.stops.freshId) ∧
      ∃ e ∈ (offerStop o s.spliceEntered).1.stops.entries, e.SameAs (o.entry s.stops.freshId s.stops.insertions) := by
  have hl' : s.spliceEntered.stops.entries.length < 16 := hl
  rw [offerStop_with_room o hl']
  refine ⟨?_, evaluate_stopPlaced_entry o (by omega) hq⟩
  rw [show (evaluate (s.spliceEntered.stopPlaced o), some s.spliceEntered.stops.freshId).1.queue =
    (s.spliceEntered.stopPlaced o).queue from evaluate_stopPlaced_queue o hq]
  refine ⟨_, List.mem_map_of_mem (recordJoined_mem _ _ s.marked), ?_⟩
  have hnumber : decide (o.ref = .record s.freshNumber) = true := by rw [ho]; exact decide_eq_true rfl
  have hpicked : decide (o.ref = .record (s.marked.joining (s.marked.nextBody .sensedSplice 0 30000 0
      ((s.length.p : Int) - s.geometry.e)) none).body.number) = true := hnumber
  rw [if_pos hpicked]
  exact ⟨rfl, rfl, rfl, rfl⟩

theorem splice_offer_refused (hl : 16 ≤ s.stops.entries.length)
    (hno : ∀ e ∈ s.stops.entries, e.active = false → 2 ≤ e.kind.priority) :
    (offerStop o s.spliceEntered).1 = { s.spliceEntered with alerts := s.alerts.map (Station.post .stopDropped) } := by
  have hkind : o.kind.priority = 2 := by rw [ho]; rfl
  have horigin : o.origin = .internal := by rw [ho]; rfl
  rw [offerStop_without_victim (s := s.spliceEntered) o hl (by rwa [hkind]), if_pos horigin]
  rfl

end Decision

/-- What a splice that finds room leaves, whatever its splice-limit decision: one record more, and else the planner's part. -/
theorem spliceEntered_follows {s t : State} (h : PlannerOnly s.spliceEntered t) :
    t.queue.highMark = some ((s.length.p : Int) - s.geometry.e) ∧ t.queue.records.length = s.queue.records.length + 1 ∧
      t.queue.flow = { s.queue.flow with taken := (s.queue.flow.taken + 1) % 4294967296 } ∧
      ∃ r ∈ t.queue.records, r.slit = none ∧
        r.body = s.nextBody .sensedSplice 0 30000 0 ((s.length.p : Int) - s.geometry.e) := by
  obtain ⟨r, hr, hbare⟩ := h.mem (recordJoined_mem _ _ s.marked)
  obtain ⟨hbody, hslit, -⟩ := bare_eq_iff.1 hbare
  refine ⟨by rw [h.queue]; rfl, ?_, by rw [h.queue]; rfl, r, hr, hslit, hbody⟩
  rw [h.length, spliceEntered_record, length_placeRecord]

theorem spliceEntered_frame {s t : State} (h : PlannerOnly s.spliceEntered t) :
    t.time = s.time ∧ t.inputs = s.inputs ∧ t.geometry = s.geometry ∧ t.length = s.length ∧
      t.strobe = s.strobe ∧ t.motion = s.motion ∧ t.plans = s.plans ∧ t.roll = s.roll ∧ t.tracker = s.tracker ∧
      t.job = s.job ∧ t.ports = s.ports ∧ t.free = s.free ∧ t.pending = s.pending := by
  rw [h.frame]
  exact ⟨rfl, rfl, rfl, rfl, rfl, rfl, rfl, rfl, rfl, rfl, rfl, rfl, rfl⟩

theorem spliceEntered_keeps_none (s : State) : ∃ r ∈ s.spliceEntered.queue.records, r.body.number = s.freshNumber ∧
    r.body.web = (s.length.p : Int) - s.geometry.e ∧ r.slit = none ∧ r.stopId = none :=
  ⟨_, recordJoined_mem _ _ s.marked, rfl, rfl, rfl, rfl⟩

/-- Within the limit nothing is requested (R66). -/
theorem spliceLimitFollows_within {s : State} (h : ¬ s.SpliceOverLimit) :
    SpliceLimitFollows ((s.length.p : Int) - s.geometry.e) s s.spliceEntered := by
  unfold SpliceLimitFollows
  intro keeps
  exact ⟨fun _ => ⟨rfl, rfl, spliceEntered_keeps_none s⟩, fun h' => absurd h' h⟩

/-- Over the limit a SPLICE-LIMIT entry is requested (R66). -/
theorem spliceLimitFollows_over {s : State} (h : s.SpliceOverLimit) :
    SpliceLimitFollows ((s.length.p : Int) - s.geometry.e) s
      (offerStop (s.spliceStop s.freshNumber ((s.length.p : Int) - s.geometry.e)) s.spliceEntered).1 := by
  unfold SpliceLimitFollows
  intro keeps
  refine ⟨fun h' => absurd h h', fun _ => ⟨fun hl hq => ?_, fun hl hno => ?_⟩⟩
  · obtain ⟨hkeeps, e, he, hid, hkind, horigin, href, hweb, hstation, htarget, hins⟩ := splice_offer_with_room _ rfl hl hq
    exact ⟨hkeeps, e, he, hid, hkind, horigin, href, hweb, hstation, htarget, hins⟩
  · have hrefused := splice_offer_refused _ rfl hl hno
    simp only [keeps]
    rw [hrefused]
    exact ⟨rfl, rfl, spliceEntered_keeps_none s⟩

/-- Settles O25, by the branches of the arrival; the queue part follows from what the planner touches. -/
theorem spliceArrivalEntersOneRecord : Obligations.SpliceArrivalEntersOneRecord := by
  intro s hrun web inputs
  have hexec := exec_spliceArrival hrun
  refine ⟨fun hj => hexec.trans (congrArg _ (if_pos hj)), fun high hj hh hle => ?_, fun hj hr => ⟨fun hf => ?_, fun hl => ?_⟩⟩
  · refine hexec.trans (congrArg _ ((if_neg hj).trans (if_pos ?_)))
    exact isRescan_iff.2 ⟨high, hh, hle⟩
  · rw [hexec, spliceSeen_full (s := s.withInputs s.inputs.spliceArrived) hr hj hf]
    rfl
  · obtain ⟨u, hu⟩ : ∃ u, u = s.withInputs s.inputs.spliceArrived := ⟨_, rfl⟩
    rw [← hu] at hexec
    have hjoin (hq : s.QueueSound) : u.spliceEntered =
        u.marked.recordEntered (u.marked.nextBody .sensedSplice 0 30000 0 ((u.length.p : Int) - u.geometry.e)) none :=
      recordJoined_eq (s := u.marked) (by rw [hu]; exact hq) _ _
    by_cases hover : s.SpliceOverLimit
    · have hseen := spliceSeen_over (s := u) (by rw [hu]; exact hr) (by rw [hu]; exact hj) (by rw [hu]; exact hl)
        (by rw [hu]; exact hover)
      have honly := PlannerOnly.offerStop (u.spliceStop u.freshNumber ((u.length.p : Int) - u.geometry.e)) u.spliceEntered
      obtain ⟨h1, h2, h3, h4⟩ := spliceEntered_follows honly
      have hlimit := spliceLimitFollows_over (s := u) (by rw [hu]; exact hover)
      have hframe := spliceEntered_frame honly
      refine ⟨_, hexec.trans (congrArg _ hseen), ?_⟩
      subst hu
      refine ⟨h1, h2, h3, h4, fun he => ?_, hlimit, fun hq hs => ?_, hframe⟩
      · exact nomatch he.symm.trans hover.1
      · intro v
        have htaken := offerStop_taken (s.spliceStop s.freshNumber web)
          (s := (s.withInputs s.inputs.spliceArrived).spliceEntered) hs
        rw [hjoin hq] at htaken ⊢
        exact ⟨_, fun h => absurd hover h, fun _ => htaken⟩
    · have hseen := spliceSeen_within (s := u) (by rw [hu]; exact hr) (by rw [hu]; exact hj) (by rw [hu]; exact hl)
        (by rw [hu]; exact hover)
      have honly := PlannerOnly.refl u.spliceEntered
      obtain ⟨h1, h2, h3, h4⟩ := spliceEntered_follows honly
      have hlimit := spliceLimitFollows_within (s := u) (by rw [hu]; exact hover)
      have hframe := spliceEntered_frame honly
      refine ⟨_, hexec.trans (congrArg _ hseen), ?_⟩
      subst hu
      refine ⟨h1, h2, h3, h4, fun he => ⟨rfl, rfl⟩, hlimit, fun hq hs => ?_, hframe⟩
      intro v
      exact ⟨none, fun _ => ⟨hjoin hq, rfl⟩, fun h => absurd h hover⟩

end Sys2Proof.Machine
end

