-- ==== Sys2Proof/Proofs/Deliveries.lean ====
section
/-! SUPPORT. The delivery of records at the nip (R68, R85): what one delivery makes of the roll map and of the queue, and what a
pass over the queue makes of both. -/

namespace Sys2Proof.Machine

/-! ## One record handed to the roll map -/

/-- A record handed to the roll map, where it has lanes and a set winds: one step of `State.deliverAll`. -/
def State.handed (r : PathRecord) (s : State) : State :=
  match r.slit, s.roll.windingSet with
  | some lanes, some set => deliverToRoll { body := r.body, lanes := lanes } set s
  | _, _ => s

theorem deliverAll_nil (s : State) : s.deliverAll [] = s := rfl

theorem deliverAll_cons (r : PathRecord) (l : List PathRecord) (s : State) :
    s.deliverAll (r :: l) = (s.handed r).deliverAll l := rfl

/-- A delivery as the fold over its lanes leaves it (R85). -/
def RegisterItem.delivery (it : RegisterItem) (set : SetRecord) (s : State) : Delivery :=
  it.lanes.numbers.foldl (enterLane s.geometry.w s.job.params it)
    { set := set, register := s.roll.register, posts := [] }

/-- The part with the record and the register that a delivery leaves, before its posts. -/
def Delivery.stored (d : Delivery) (s : State) : State :=
  { s with roll := { s.roll.mapWinding (fun _ => d.set) with register := d.register } }

theorem deliverToRoll_eq (it : RegisterItem) (set : SetRecord) (s : State) :
    deliverToRoll it set s = { s with
      roll := { s.roll.mapWinding (fun _ => (it.delivery set s).set) with register := (it.delivery set s).register }
      alerts := (s.postAll (it.delivery set s).posts).alerts } := by
  have hposts := State.postAll_eq (it.delivery set s).posts ((it.delivery set s).stored s)
  rw [State.postAll_alerts_congr (s := (it.delivery set s).stored s) (t := s) rfl] at hposts
  exact hposts

theorem deliverToRoll_windingSet (it : RegisterItem) (set : SetRecord) (s : State) :
    (deliverToRoll it set s).roll.windingSet = s.roll.windingSet.map (fun _ => (it.delivery set s).set) := by
  rw [deliverToRoll_eq]
  exact RollMap.windingSet_mapWinding _ _

/-- What a delivery reads and writes: the roll map and the station records, under the geometry and the job parameters. -/
structure RollAlike (u v : State) : Prop where
  roll : v.roll = u.roll
  alerts : v.alerts = u.alerts
  geometry : v.geometry = u.geometry
  params : v.job.params = u.job.params

namespace RollAlike

variable {u v : State}

theorem deliverToRoll (h : RollAlike u v) (it : RegisterItem) (set : SetRecord) :
    RollAlike (deliverToRoll it set u) (deliverToRoll it set v) := by
  have hdelivery : it.delivery set v = it.delivery set u := by
    rw [RegisterItem.delivery, RegisterItem.delivery, h.geometry, h.params, h.roll]
  rw [deliverToRoll_eq, deliverToRoll_eq, hdelivery, h.roll, State.postAll_alerts_congr h.alerts]
  exact ⟨rfl, rfl, h.geometry, h.params⟩

theorem handed (h : RollAlike u v) (r : PathRecord) : RollAlike (u.handed r) (v.handed r) := by
  unfold State.handed
  rw [h.roll]
  split
  · exact h.deliverToRoll _ _
  · exact h

theorem deliverAll (h : RollAlike u v) (l : List PathRecord) : RollAlike (u.deliverAll l) (v.deliverAll l) := by
  induction l generalizing u v with
  | nil => exact h
  | cons r rest ih => exact ih (h.handed r)

end RollAlike

/-- What is made of the roll map does not depend on the station records. -/
theorem handed_roll_congr {u v : State} (hroll : v.roll = u.roll) (hgeometry : v.geometry = u.geometry)
    (hparams : v.job.params = u.job.params) (r : PathRecord) : (v.handed r).roll = (u.handed r).roll := by
  unfold State.handed
  rw [hroll]
  split
  · rw [deliverToRoll_eq, deliverToRoll_eq, RegisterItem.delivery, RegisterItem.delivery, hgeometry, hparams, hroll]
  · exact hroll

theorem handed_of_winding {r : PathRecord} {s : State} {range : LaneRange} {set : SetRecord} (hr : r.slit = some range)
    (hs : s.roll.windingSet = some set) : s.handed r = deliverToRoll { body := r.body, lanes := range } set s := by
  rw [State.handed, hr, hs]

theorem handed_of_none {r : PathRecord} {s : State} (hs : s.roll.windingSet = none) : s.handed r = s := by
  unfold State.handed
  rw [hs]
  split
  next h => exact nomatch h
  next => rfl

theorem handed_eq (r : PathRecord) (s : State) :
    s.handed r = { s with roll := (s.handed r).roll, alerts := (s.handed r).alerts } := by
  unfold State.handed
  split
  · rw [deliverToRoll_eq]
  · rfl

theorem deliverAll_eq (l : List PathRecord) (s : State) :
    s.deliverAll l = { s with roll := (s.deliverAll l).roll, alerts := (s.deliverAll l).alerts } := by
  induction l generalizing s with
  | nil => rfl
  | cons r rest ih =>
    rw [deliverAll_cons, ih (s.handed r), handed_eq r s]

theorem handed_windingSet_isSome (r : PathRecord) (s : State) :
    (s.handed r).roll.windingSet.isSome = s.roll.windingSet.isSome := by
  unfold State.handed
  split
  · rw [deliverToRoll_windingSet, Option.isSome_map]
  · rfl

/-! ## One record taken out of the queue (R68, R73) -/

/-- The queue with a record taken out at the nip and counted as delivered, or as unmapped with no set winding. -/
def PathQueue.handOver (winding : Bool) (q : PathQueue) (r : PathRecord) : PathQueue :=
  { q.leave r with flow := if winding then q.flow.addDelivered 1 else q.flow.addUnmapped 1 }

theorem deliverRecord_eq {r : PathRecord} (hr : r.slit.isSome = true) (s : State) :
    deliverRecord r s = { s.handed r with queue := s.queue.handOver s.roll.windingSet.isSome r } := by
  obtain ⟨lanes, hlanes⟩ := Option.isSome_iff_exists.1 hr
  unfold deliverRecord State.handed
  rw [hlanes]
  cases hset : s.roll.windingSet with
  | none => rfl
  | some set =>
    have halike : RollAlike s ((s.withQueue (s.queue.leave r)).countFlow (Flow.addDelivered 1)) := ⟨rfl, rfl, rfl, rfl⟩
    have hdone := halike.deliverToRoll { body := r.body, lanes := lanes } set
    have hroll := hdone.roll
    have halerts := hdone.alerts
    simp only [deliverToRoll_eq] at hroll halerts ⊢
    rw [hroll, halerts]
    rfl

/-- The queue after the records of a list are taken out one after the other. -/
def PathQueue.handOverAll (winding : Bool) (q : PathQueue) (l : List PathRecord) : PathQueue := l.foldl (handOver winding) q

section HandOver
variable (winding : Bool) (l : List PathRecord) (q : PathQueue)

theorem handOverAll_records : (q.handOverAll winding l).records =
    q.records.filter (fun x => decide (∀ r ∈ l, x.joined ≠ r.joined)) := by
  unfold PathQueue.handOverAll
  induction l generalizing q with
  | nil => simp
  | cons r rest ih =>
    rw [List.foldl_cons, ih, PathQueue.handOver, PathQueue.leave_records, List.filter_filter]
    refine List.filter_congr fun x _ => ?_
    rw [← Bool.decide_and, decide_eq_decide, List.forall_mem_cons, and_comm]

theorem handOverAll_keeps : q.handOverAll winding l = { q with
    records := (q.handOverAll winding l).records, changes := (q.handOverAll winding l).changes,
    flow := { q.flow with delivered := (q.handOverAll winding l).flow.delivered,
                          unmapped := (q.handOverAll winding l).flow.unmapped } } := by
  unfold PathQueue.handOverAll
  induction l generalizing q with
  | nil => rfl
  | cons r rest ih =>
    rw [List.foldl_cons, ih, PathQueue.handOver]
    cases winding <;> rfl

theorem handOverAll_changes : (q.handOverAll winding l).changes % 65536 = (q.changes + l.length) % 65536 := by
  unfold PathQueue.handOverAll
  induction l generalizing q with
  | nil => rfl
  | cons r rest ih =>
    rw [List.foldl_cons, ih, PathQueue.handOver, PathQueue.leave_changes, wrap16, List.length_cons]
    omega

theorem handOverAll_flow :
    (q.handOverAll winding l).flow.delivered % 4294967296 =
      (q.flow.delivered + if winding then l.length else 0) % 4294967296 ∧
    (q.handOverAll winding l).flow.unmapped % 4294967296 =
      (q.flow.unmapped + if winding then 0 else l.length) % 4294967296 := by
  unfold PathQueue.handOverAll
  induction l generalizing q with
  | nil => simp
  | cons r rest ih =>
    rw [List.foldl_cons, (ih _).1, (ih _).2, PathQueue.handOver, List.length_cons]
    cases winding
    · simp [wrap32, Flow.addUnmapped]
      omega
    · simp [wrap32, Flow.addDelivered]
      omega

end HandOver

/-! ## A pass over the queue (R68) -/

theorem dueAtNip_congr {s t : State} (hg : t.geometry = s.geometry) (hl : t.length = s.length) : t.dueAtNip = s.dueAtNip := by
  funext r
  rw [State.dueAtNip, State.dueAtNip, State.p, State.p, hg, hl]

theorem deliverRecord_dueAtNip (r : PathRecord) (s : State) : (deliverRecord r s).dueAtNip = s.dueAtNip :=
  dueAtNip_congr (by simp) (by simp)

theorem dueAtNip_slit {s : State} {r : PathRecord} (h : s.dueAtNip r = true) : r.slit.isSome = true := by
  rw [State.dueAtNip, Bool.and_eq_true] at h
  exact h.1

theorem deliverRecord_queue {r : PathRecord} (hr : r.slit.isSome = true) (s : State) :
    (deliverRecord r s).queue = s.queue.handOver s.roll.windingSet.isSome r := by
  rw [deliverRecord_eq hr]

theorem deliverRecord_records {r : PathRecord} (hr : r.slit.isSome = true) (s : State) :
    (deliverRecord r s).queue.records = s.queue.records.filter (fun x => decide (x.joined ≠ r.joined)) := by
  rw [deliverRecord_queue hr]
  rfl

/-- What every delivery of a pass keeps, the pass keeps; each record delivered is one that was there, and due. -/
theorem deliverDue_induction {C : State → Prop} {s : State} (h0 : C s)
    (hstep : ∀ u r, C u → r ∈ s.queue.records → s.dueAtNip r = true → C (deliverRecord r u)) : C (deliverDue s) := by
  have hpasses (fuel : Nat) (u : State) (hu : C u) (hsub : ∀ r ∈ u.queue.records, r ∈ s.queue.records)
      (hdue : u.dueAtNip = s.dueAtNip) : C (deliverPasses fuel u) := by
    induction fuel generalizing u with
    | zero => exact hu
    | succ n ih =>
      unfold deliverPasses
      split
      · exact hu
      next r hr =>
        have hrdue := List.find?_some hr
        refine ih _ (hstep u r hu (hsub r (List.mem_of_find?_eq_some hr)) (hdue ▸ hrdue)) (fun x hx => hsub x ?_)
          ((deliverRecord_dueAtNip r u).trans hdue)
        rw [deliverRecord_records (dueAtNip_slit hrdue)] at hx
        exact (List.mem_filter.1 hx).1
  unfold deliverDue
  split
  · exact h0
  · exact hpasses _ _ h0 (fun _ => id) rfl

theorem length_leave_lt {q : PathQueue} {r : PathRecord} (hr : r ∈ q.records) :
    (q.records.filter (fun x => decide (x.joined ≠ r.joined))).length < q.records.length :=
  List.length_filter_lt_length_iff_exists.2 ⟨r, hr, by simp⟩

/-- Outside a cut no record that is due stays (R68). -/
theorem deliverDue_none_due {s : State} (hcut : s.job.state.isCutOpen = false) :
    ∀ r ∈ (deliverDue s).queue.records, s.dueAtNip r = false := by
  have hpasses (fuel : Nat) (u : State) (hfuel : u.queue.records.length ≤ fuel) :
      ∀ r ∈ (deliverPasses fuel u).queue.records, u.dueAtNip r = false := by
    induction fuel generalizing u with
    | zero =>
      intro r hr
      rw [deliverPasses, List.length_eq_zero_iff.1 (Nat.le_zero.1 hfuel)] at hr
      exact absurd hr List.not_mem_nil
    | succ n ih =>
      unfold deliverPasses
      split
      next hnone => exact fun r hr => by simpa using List.find?_eq_none.1 hnone r hr
      next x hx =>
        have hlt := length_leave_lt (List.mem_of_find?_eq_some hx)
        rw [← deliverRecord_dueAtNip x]
        refine ih _ ?_
        rw [deliverRecord_records (dueAtNip_slit (List.find?_some hx))]
        omega
  rw [deliverDue, if_neg (by rw [hcut]; exact Bool.false_ne_true)]
  exact hpasses _ _ le_rfl

/-- The first due record of a queue, and the ones due once it has left. -/
theorem filter_due_eq {p : PathRecord → Bool} {l : List PathRecord} {r : PathRecord} (hn : (l.map (·.joined)).Nodup)
    (h : l.find? p = some r) : l.filter p = r :: (l.filter (fun x => decide (x.joined ≠ r.joined))).filter p := by
  obtain ⟨hp, before, after, rfl, hbefore⟩ := List.find?_eq_some_iff_append.1 h
  rw [List.map_append, List.map_cons, List.nodup_middle, List.nodup_cons, List.mem_append] at hn
  have hstay (part : List PathRecord) (hpart : r.joined ∉ part.map (·.joined)) :
      part.filter (fun x => decide (x.joined ≠ r.joined)) = part :=
    List.filter_eq_self.2 fun x hx => decide_eq_true fun heq => hpart (heq ▸ List.mem_map_of_mem hx)
  have hnone : before.filter p = [] := List.filter_eq_nil_iff.2 fun x hx => by simpa using hbefore x hx
  rw [List.filter_append, List.filter_append (l₁ := before), List.filter_cons_of_pos hp, List.filter_cons_of_neg (by simp),
    hstay before (fun h' => hn.1 (.inl h')), hstay after (fun h' => hn.1 (.inr h')), List.filter_append, hnone]
  rfl

/-- Outside a cut a pass hands the due records to the roll map in queue order and takes each of them out of the queue
(R68). -/
theorem deliverDue_eq {s : State} (hn : (s.queue.records.map (·.joined)).Nodup) (hcut : s.job.state.isCutOpen = false) :
    deliverDue s = { s.deliverAll (s.queue.records.filter s.dueAtNip) with
      queue := s.queue.handOverAll s.roll.windingSet.isSome (s.queue.records.filter s.dueAtNip) } := by
  have hpasses (fuel : Nat) (u : State) (hu : (u.queue.records.map (·.joined)).Nodup)
      (hfuel : (u.queue.records.filter u.dueAtNip).length ≤ fuel) :
      deliverPasses fuel u = { u.deliverAll (u.queue.records.filter u.dueAtNip) with
        queue := u.queue.handOverAll u.roll.windingSet.isSome (u.queue.records.filter u.dueAtNip) } := by
    induction fuel generalizing u with
    | zero => rw [List.length_eq_zero_iff.1 (Nat.le_zero.1 hfuel)]; rfl
    | succ n ih =>
      unfold deliverPasses
      split
      next hnone =>
        rw [List.filter_eq_nil_iff.2 fun x hx => by simpa using List.find?_eq_none.1 hnone x hx]
        rfl
      next r hr =>
        have hslit := dueAtNip_slit (List.find?_some hr)
        have hdue := filter_due_eq hu hr
        have hrecords := deliverRecord_records hslit u
        have hrest : (deliverRecord r u).queue.records.filter (deliverRecord r u).dueAtNip =
            (u.queue.records.filter (fun x => decide (x.joined ≠ r.joined))).filter u.dueAtNip := by
          rw [hrecords, deliverRecord_dueAtNip]
        rw [hdue, List.length_cons] at hfuel
        rw [ih _ (by rw [hrecords]; exact hu.sublist (List.filter_sublist.map _)) (by rw [hrest]; omega), hrest, hdue,
          deliverAll_cons]
        have halike : RollAlike (u.handed r) (deliverRecord r u) := by
          rw [deliverRecord_eq hslit]
          exact ⟨rfl, rfl, rfl, rfl⟩
        have hall := halike.deliverAll ((u.queue.records.filter (fun x => decide (x.joined ≠ r.joined))).filter u.dueAtNip)
        rw [deliverAll_eq _ (deliverRecord r u), hall.roll, hall.alerts, deliverAll_eq _ (u.handed r),
          deliverRecord_eq hslit, handed_windingSet_isSome]
        rfl
  rw [deliverDue, if_neg (by rw [hcut]; exact Bool.false_ne_true)]
  exact hpasses _ _ hn (List.length_filter_le _ _)

/-- The records that a pass leaves: those not due, in their order. -/
theorem deliverDue_records {s : State} (hn : (s.queue.records.map (·.joined)).Nodup)
    (hcut : s.job.state.isCutOpen = false) :
    (deliverDue s).queue.records = s.queue.records.filter (fun r => !s.dueAtNip r) := by
  rw [deliverDue_eq hn hcut, handOverAll_records]
  refine List.filter_congr fun x hx => ?_
  rw [Bool.eq_iff_iff, decide_eq_true_iff, Bool.not_eq_true']
  refine ⟨fun h => ?_, fun h r hr heq => ?_⟩
  · by_contra hdue
    exact h x (List.mem_filter.2 ⟨hx, by simpa using hdue⟩) rfl
  · obtain ⟨hr, hdue⟩ := List.mem_filter.1 hr
    rw [List.inj_on_of_nodup_map hn hx hr heq] at h
    exact Bool.false_ne_true (h.symm.trans hdue)

/-- A pass keeps what stays in the queue as it is. -/
theorem deliverDue_sublist (s : State) : (deliverDue s).queue.records.Sublist s.queue.records := by
  refine deliverDue_induction (C := fun u => u.queue.records.Sublist s.queue.records) (List.Sublist.refl _) ?_
  intro u r hu _ hdue
  rw [deliverRecord_records (dueAtNip_slit hdue)]
  exact List.filter_sublist.trans hu

/-- A pass changes but the queue, the roll map and the station records. -/
theorem deliverDue_keeps (s : State) : deliverDue s = { s with
    queue := (deliverDue s).queue, roll := (deliverDue s).roll, alerts := (deliverDue s).alerts } := by
  refine deliverDue_induction (C := fun u => u = { s with queue := u.queue, roll := u.roll, alerts := u.alerts }) rfl ?_
  intro u r hu _ hdue
  rw [deliverRecord_eq (dueAtNip_slit hdue), handed_eq]
  generalize (u.handed r).roll = roll, (u.handed r).alerts = alerts,
    u.queue.handOver u.roll.windingSet.isSome r = queue
  rw [hu]

/-- Of the queue a pass changes but the records, the change count and two flow counters of the queue. -/
theorem deliverDue_queue_keeps (s : State) : (deliverDue s).queue = { s.queue with
    records := (deliverDue s).queue.records, changes := (deliverDue s).queue.changes,
    flow := { s.queue.flow with delivered := (deliverDue s).queue.flow.delivered,
                                unmapped := (deliverDue s).queue.flow.unmapped } } := by
  refine deliverDue_induction (C := fun u => u.queue = { s.queue with
    records := u.queue.records, changes := u.queue.changes,
    flow := { s.queue.flow with delivered := u.queue.flow.delivered, unmapped := u.queue.flow.unmapped } }) rfl ?_
  intro u r hu _ hdue
  rw [deliverRecord_queue (dueAtNip_slit hdue), PathQueue.handOver]
  rw [hu]
  cases u.roll.windingSet.isSome <;> rfl

end Sys2Proof.Machine
end

