-- ==== Sys2Proof/Proofs/LaneEntries.lean ====
section
/-! SUPPORT. Where the entries of the lanes and the items of the register come from: a delivery adds those of its record alone
(R81, R85, R86), and the winding test sets flags alone (R91). -/

namespace Sys2Proof.Machine

/-! ## An entry offered to a lane (R85 to R89) -/

theorem mem_placeDefect {x e : DefectEntry} {l : List DefectEntry} : x ∈ placeDefect e l ↔ x = e ∨ x ∈ l := by
  induction l with
  | nil => simp [placeDefect]
  | cons y rest ih =>
    unfold placeDefect
    split
    · rw [List.mem_cons]
    · rw [List.mem_cons, ih, List.mem_cons, or_left_comm]

theorem mem_placeSplice {x e : SpliceEntry} {l : List SpliceEntry} : x ∈ placeSplice e l ↔ x = e ∨ x ∈ l := by
  induction l with
  | nil => simp [placeSplice]
  | cons y rest ih =>
    unfold placeSplice
    split
    · rw [List.mem_cons]
    · rw [List.mem_cons, ih, List.mem_cons, or_left_comm]

/-- The lane and the events of an offer of a record's entry: every other entry was there, and the events are those of R86 and
R88. -/
structure LaneOffer.EntersFrom (o : LaneOffer) (number : Nat) (lane : LaneRecord) : Prop where
  defects : ∀ e ∈ o.lane.defects, e.record = number ∨ e ∈ lane.defects
  splices : ∀ e ∈ o.lane.splices, e.record = number ∨ e ∈ lane.splices
  posts : ∀ k ∈ o.posts, k = .defectDropped ∨ k = .laneHold

namespace LaneOffer.EntersFrom

variable {number : Nat} {lane : LaneRecord}

theorem offerDefect {e : DefectEntry} (he : e.record = number) : (lane.offerDefect e).EntersFrom number lane := by
  have hplaced (l : List DefectEntry) (hl : l ⊆ lane.defects) : ∀ x ∈ placeDefect e l, x.record = number ∨ x ∈ lane.defects :=
    fun x hx => (mem_placeDefect.1 hx).imp (fun h => by rw [h, he]) fun h => hl h
  unfold LaneRecord.offerDefect
  split
  · exact ⟨hplaced _ fun _ => id, fun _ => .inr, by simp⟩
  · dsimp only
    split
    · split
      · exact ⟨hplaced _ (List.eraseIdx_sublist _ _).subset, fun _ => .inr, by simp⟩
      · exact ⟨fun _ => .inr, fun _ => .inr, by simp⟩
    · exact ⟨fun _ => .inr, fun _ => .inr, by simp⟩

theorem offerSplice {e : SpliceEntry} (he : e.record = number) : (lane.offerSplice e).EntersFrom number lane := by
  unfold LaneRecord.offerSplice
  split
  · exact ⟨fun _ => .inr, fun x hx => (mem_placeSplice.1 hx).imp (fun h => by rw [h, he]) id, by simp⟩
  · exact ⟨fun _ => .inr, fun _ => .inr, by simp⟩

theorem holdIf {o : LaneOffer} (h : o.EntersFrom number lane) (c : Bool) (cause : HoldCause) :
    (o.holdIf c cause).EntersFrom number lane := by
  unfold LaneOffer.holdIf
  split
  · refine ⟨h.defects, h.splices, fun k hk => ?_⟩
    rcases List.mem_append.1 hk with hk | hk
    · exact h.posts k hk
    · exact .inr (List.mem_singleton.1 hk)
  · exact h

theorem offerToLane (w : Int) (job : JobParams) (set : SetRecord) (it : RegisterItem) (lane : LaneRecord) :
    (offerToLane w job set it lane).EntersFrom it.body.number lane := by
  unfold Machine.offerToLane
  split
  · exact (offerDefect rfl).holdIf _ _
  · exact (offerSplice rfl).holdIf _ _
  · exact (offerSplice rfl).holdIf _ _

end LaneOffer.EntersFrom

/-! ## A delivery (R81, R85, R86) -/

/-- What a delivery so far has made of a set's record and a register: but for the record's own entries and item every entry and
item was there, an item that is left is the one a search found before, and the events are those of R86 and R88. -/
structure Delivery.Enters (d : Delivery) (it : RegisterItem) (set : SetRecord) (register : List RegisterItem) : Prop where
  keeps : d.set = { set with lanes := d.set.lanes, unplacedTally := d.set.unplacedTally }
  defects : ∀ lane' ∈ d.set.lanes, ∀ e ∈ lane'.defects, e.record = it.body.number ∨ ∃ lane ∈ set.lanes, e ∈ lane.defects
  splices : ∀ lane' ∈ d.set.lanes, ∀ e ∈ lane'.splices, e.record = it.body.number ∨ ∃ lane ∈ set.lanes, e ∈ lane.splices
  items : (∀ x ∈ d.register, x ∈ register ∨ x = it) ∧
    ∀ n ≠ it.body.number, ∀ x, d.register.find? (fun x => decide (x.body.number = n)) = some x →
      register.find? (fun x => decide (x.body.number = n)) = some x
  posts : ∀ k ∈ d.posts, k = .defectDropped ∨ k = .laneHold

/-- An item with a number is found in a register without those of another number, if at all, where it was. -/
theorem find?_filter_number {register : List RegisterItem} {n v : Nat} {x : RegisterItem}
    (h : (register.filter (fun x => decide (x.body.number ≠ v))).find? (fun x => decide (x.body.number = n)) = some x) :
    register.find? (fun x => decide (x.body.number = n)) = some x := by
  have hx : x.body.number = n := by simpa using List.find?_some h
  have hne : x.body.number ≠ v := by simpa using (List.mem_filter.1 (List.mem_of_find?_eq_some h)).2
  rw [List.find?_filter] at h
  rw [← h]
  refine congrArg (fun p : RegisterItem → Bool => register.find? p) (funext fun y => ?_)
  simp only [decide_eq_true_eq, decide_eq_decide]
  exact ⟨fun hy => ⟨fun hv => hne (hx.trans (hy.symm.trans hv)), hy⟩, And.right⟩

namespace Delivery.Enters

variable {it : RegisterItem} {set : SetRecord} {register : List RegisterItem}

theorem start : ({ set := set, register := register, posts := [] } : Delivery).Enters it set register where
  keeps := rfl
  defects := fun lane hl e he => .inr ⟨lane, hl, he⟩
  splices := fun lane hl e he => .inr ⟨lane, hl, he⟩
  items := ⟨fun _ => .inl, fun _ _ _ => id⟩
  posts := by simp

variable {d : Delivery}

/-- The register with the item of an evicted record dropped and the record's own added. -/
theorem register_next (h : d.Enters it set register) {kept : List RegisterItem} {c : Bool}
    (hkept : kept = d.register ∨ ∃ v, kept = d.register.filter (fun x => decide (x.body.number ≠ v))) :
    (∀ x ∈ (if c then kept ++ [it] else kept), x ∈ register ∨ x = it) ∧
    ∀ n ≠ it.body.number, ∀ x, (if c then kept ++ [it] else kept).find? (fun x => decide (x.body.number = n)) = some x →
      register.find? (fun x => decide (x.body.number = n)) = some x := by
  have hsub : kept ⊆ d.register := by
    rcases hkept with rfl | ⟨v, rfl⟩
    · exact fun _ => id
    · exact List.filter_subset_self _
  have hfound (n : Nat) (x : RegisterItem) (hx : kept.find? (fun x => decide (x.body.number = n)) = some x) :
      d.register.find? (fun x => decide (x.body.number = n)) = some x := by
    rcases hkept with rfl | ⟨v, rfl⟩
    · exact hx
    · exact find?_filter_number hx
  cases c
  · exact ⟨fun x hx => h.items.1 x (hsub hx), fun n hn x hx => h.items.2 n hn x (hfound n x hx)⟩
  · refine ⟨fun x hx => ?_, fun n hn x hx => h.items.2 n hn x (hfound n x ?_)⟩
    · rcases List.mem_append.1 hx with hx | hx
      · exact h.items.1 x (hsub hx)
      · exact .inr (List.mem_singleton.1 hx)
    · rw [if_pos rfl, List.find?_append, List.find?_singleton, if_neg (by simpa using hn.symm), Option.or_none] at hx
      exact hx

theorem enterLane (h : d.Enters it set register) (w : Int) (job : JobParams) (n : Nat) :
    (enterLane w job it d n).Enters it set register := by
  unfold Machine.enterLane
  split
  · exact ⟨by rw [h.keeps], h.defects, h.splices, h.items, h.posts⟩
  next lane hlane =>
    have hfrom := LaneOffer.EntersFrom.offerToLane w job d.set it lane
    have hmem : lane ∈ d.set.lanes := List.mem_of_getElem? hlane
    dsimp only
    refine ⟨by rw [h.keeps], fun lane' hl e he => ?_, fun lane' hl e he => ?_, h.register_next ?_,
      fun k hk => ?_⟩
    · rcases List.mem_or_eq_of_mem_set hl with hl | rfl
      · exact h.defects lane' hl e he
      · exact (hfrom.defects e he).elim .inl (h.defects lane hmem e)
    · rcases List.mem_or_eq_of_mem_set hl with hl | rfl
      · exact h.splices lane' hl e he
      · exact (hfrom.splices e he).elim .inl (h.splices lane hmem e)
    · split
      · exact .inl rfl
      · split
        · exact .inl rfl
        · exact .inr ⟨_, rfl⟩
    · exact (List.mem_append.1 hk).elim (h.posts k) (hfrom.posts k)

end Delivery.Enters

theorem delivery_enters (it : RegisterItem) (set : SetRecord) (s : State) :
    (it.delivery set s).Enters it set s.roll.register := by
  unfold RegisterItem.delivery
  exact List.foldlRecOn (motive := fun d : Delivery => d.Enters it set s.roll.register) _ _ .start fun d hd n _ => hd.enterLane _ _ n

/-! ## A pass over the queue -/

/-- Between two states, but for records of the given numbers, the entries of the winding set and the items found in the register
are those that were there. -/
def EntriesFrom (but : List Nat) (s t : State) : Prop :=
  ∀ set' ∈ t.roll.windingSet, ∃ set ∈ s.roll.windingSet,
    (∀ lane' ∈ set'.lanes,
      (∀ e ∈ lane'.defects, e.record ∉ but → ∃ lane ∈ set.lanes, e ∈ lane.defects) ∧
      (∀ e ∈ lane'.splices, e.record ∉ but → ∃ lane ∈ set.lanes, e ∈ lane.splices)) ∧
    ∀ n ∉ but, ∀ x, t.roll.register.find? (fun x => decide (x.body.number = n)) = some x →
      s.roll.register.find? (fun x => decide (x.body.number = n)) = some x

namespace EntriesFrom

variable {but : List Nat} {s t u : State}

theorem refl (but : List Nat) (s : State) : EntriesFrom but s s := fun set hset =>
  ⟨set, hset, fun lane hl => ⟨fun _ he _ => ⟨lane, hl, he⟩, fun _ he _ => ⟨lane, hl, he⟩⟩, fun _ _ _ => id⟩

theorem trans (h : EntriesFrom but s t) (g : EntriesFrom but t u) : EntriesFrom but s u := by
  intro set'' hset''
  obtain ⟨set', hset', hlanes', hfound'⟩ := g set'' hset''
  obtain ⟨set, hset, hlanes, hfound⟩ := h set' hset'
  refine ⟨set, hset, fun lane'' hl => ⟨fun e he hn => ?_, fun e he hn => ?_⟩, fun n hn x hx => hfound n hn x (hfound' n hn x hx)⟩
  · obtain ⟨lane', hl', he'⟩ := (hlanes' lane'' hl).1 e he hn
    exact (hlanes lane' hl').1 e he' hn
  · obtain ⟨lane', hl', he'⟩ := (hlanes' lane'' hl).2 e he hn
    exact (hlanes lane' hl').2 e he' hn

theorem of_roll (h : EntriesFrom but s t) (hr : u.roll = t.roll) : EntriesFrom but s u := by
  unfold EntriesFrom at h ⊢
  rwa [hr]

theorem handed (s : State) {r : PathRecord} (hr : r.body.number ∈ but) : EntriesFrom but s (s.handed r) := by
  unfold State.handed
  split
  next lanes set _ hset =>
    have henters := delivery_enters { body := r.body, lanes := lanes } set s
    intro set' hset'
    rw [deliverToRoll_windingSet, hset, Option.map_some] at hset'
    obtain rfl := Option.some.inj hset'
    refine ⟨set, hset, fun lane' hl => ⟨fun e he hn => ?_, fun e he hn => ?_⟩, fun n hn x hx => henters.items.2 n ?_ x ?_⟩
    · exact (henters.defects lane' hl e he).resolve_left fun h => hn (h ▸ hr)
    · exact (henters.splices lane' hl e he).resolve_left fun h => hn (h ▸ hr)
    · exact fun h => hn (h ▸ hr)
    · rwa [deliverToRoll_eq] at hx
  next => exact refl _ _

theorem deliverRecord (s : State) {r : PathRecord} (hslit : r.slit.isSome = true) (hr : r.body.number ∈ but) :
    EntriesFrom but s (deliverRecord r s) :=
  (handed s hr).of_roll (by rw [deliverRecord_eq hslit])

theorem deliverDue {s : State} (h : ∀ r ∈ s.queue.records, r.body.number ∈ but) : EntriesFrom but s (deliverDue s) :=
  deliverDue_induction (C := EntriesFrom but s) (refl _ _) fun u r hu hr hdue =>
    hu.trans (deliverRecord u (dueAtNip_slit hdue) (h r hr))

/-- Entries tested stay tested. -/
theorem entriesTested (h : EntriesFrom but s t) (hs : EntriesTested but s) (hg : t.geometry = s.geometry)
    (hl : t.length = s.length) : EntriesTested but t := by
  intro set' hset' lane' hl'
  obtain ⟨set, hset, hlanes, hfound⟩ := h set' hset'
  rw [hg, hl]
  refine ⟨fun e he hn it hit => ?_, fun e he hn it hit => ?_⟩
  · obtain ⟨lane, hlane, he'⟩ := (hlanes lane' hl').1 e he hn
    exact (hs set hset lane hlane).1 e he' hn it (hfound _ hn it hit)
  · obtain ⟨lane, hlane, he'⟩ := (hlanes lane' hl').2 e he hn
    exact (hs set hset lane hlane).2 e he' hn it (hfound _ hn it hit)

end EntriesFrom

/-- What a pass leaves of the winding set's record but for its lanes and its unplaced tally. -/
theorem deliverDue_windingSet_map {α : Type} (f : SetRecord → α)
    (hf : ∀ (r : SetRecord) (lanes : List LaneRecord) (n : Nat), f { r with lanes := lanes, unplacedTally := n } = f r) (s : State) :
    (deliverDue s).roll.windingSet.map f = s.roll.windingSet.map f := by
  refine deliverDue_induction (C := fun u => u.roll.windingSet.map f = s.roll.windingSet.map f) rfl ?_
  intro u r hu _ hdue
  rw [deliverRecord_eq (dueAtNip_slit hdue), ← hu, State.handed]
  dsimp only
  split
  next lanes set _ hset =>
    rw [deliverToRoll_windingSet, hset, Option.map_some, Option.map_some, (delivery_enters _ set u).keeps, hf,
      Option.map_some]
  next => rfl

/-- A pass leaves the register with items that were there, and with those of records that were due (R81). -/
theorem deliverDue_register {s : State} {it : RegisterItem} (h : it ∈ (deliverDue s).roll.register) :
    it ∈ s.roll.register ∨ ∃ r ∈ s.queue.records, r.body = it.body ∧ r.slit = some it.lanes ∧
      it.body.web + s.geometry.w ≤ s.length.p := by
  revert h
  refine deliverDue_induction (s := s) (C := fun u => it ∈ u.roll.register → it ∈ s.roll.register ∨
    ∃ r ∈ s.queue.records, r.body = it.body ∧ r.slit = some it.lanes ∧ it.body.web + s.geometry.w ≤ s.length.p) .inl ?_
  intro u r hu hr hdue hit
  obtain ⟨hslit, hweb⟩ := dueAtNip_iff.1 hdue
  rw [deliverRecord_eq hslit, State.handed] at hit
  dsimp only at hit
  split at hit
  next lanes set hlanes _ =>
    rw [deliverToRoll_eq] at hit
    rcases (delivery_enters _ set u).items.1 it hit with hold | rfl
    · exact hu hold
    · exact .inr ⟨r, hr, rfl, hlanes, hweb⟩
  next => exact hu hit

theorem deliverDue_of_none_due {s : State} (h : ∀ r ∈ s.queue.records, s.dueAtNip r = false) : deliverDue s = s := by
  have hnone : s.queue.records.find? s.dueAtNip = none := List.find?_eq_none.2 fun r hr => by rw [h r hr]; exact Bool.false_ne_true
  have hpasses (fuel : Nat) : deliverPasses fuel s = s := by
    cases fuel with
    | zero => rfl
    | succ n => unfold deliverPasses; rw [hnone]
  unfold deliverDue
  rw [hpasses, ite_self]

/-! ## The winding test (R91) -/

theorem windingTest_windingSet (s : State) : (windingTest s).roll.windingSet = s.roll.windingSet.map (fun r =>
    { r with lanes := r.lanes.map (LaneRecord.windingTest s.roll.register s.geometry.w s.length.p) }) :=
  RollMap.windingSet_mapWinding _ _

theorem flagNow_of_found {register : List RegisterItem} {w : Int} {p n : Nat} {old : Bool} {it : RegisterItem}
    (h : register.find? (fun x => decide (x.body.number = n)) = some it) :
    flagNow register w p n old = true ↔ it.body.web + w ≤ p := by
  rw [flagNow, h]
  exact decide_eq_true_iff

/-- After the test every entry with a register item is WOUND exactly while W + w ≤ P (R91, R92). -/
theorem windingTest_entriesTested (but : List Nat) (s : State) : EntriesTested but (windingTest s) := by
  intro set' hset' lane' hlane'
  rw [windingTest_windingSet] at hset'
  obtain ⟨set, _, rfl⟩ := Option.map_eq_some_iff.1 hset'
  obtain ⟨lane, _, rfl⟩ := List.mem_map.1 hlane'
  refine ⟨fun e he _ it hit => ?_, fun e he _ it hit => ?_⟩
  · obtain ⟨e0, _, rfl⟩ := List.mem_map.1 he
    exact flagNow_of_found hit
  · obtain ⟨e0, _, rfl⟩ := List.mem_map.1 he
    exact flagNow_of_found hit

theorem windingTest_register (s : State) : (windingTest s).roll.register = s.roll.register := rfl

theorem RollAlike.windingTest {u v : State} (h : RollAlike u v) (hp : v.length.p = u.length.p) :
    RollAlike (windingTest u) (windingTest v) := by
  have hp' : v.p = u.p := hp
  refine ⟨?_, h.alerts, h.geometry, h.params⟩
  rw [Machine.windingTest, Machine.windingTest, State.mapWinding, State.mapWinding, h.roll, h.geometry, hp']

/-! ## The planner's part -/

theorem handed_posts (r : PathRecord) (s : State) :
    ∃ ks : List EventKind, (∀ k ∈ ks, k = .defectDropped ∨ k = .laneHold) ∧ (s.handed r).alerts = (s.postAll ks).alerts := by
  unfold State.handed
  split
  · rw [deliverToRoll_eq]
    exact ⟨_, (delivery_enters _ _ s).posts, rfl⟩
  · exact ⟨[], by simp, rfl⟩

/-- A delivery is nothing to the planner (R68). -/
theorem PlannerSim.deliverDue {u v : State} (h : PlannerSim u v) : PlannerSim u (deliverDue v) := by
  refine deliverDue_induction (C := PlannerSim u) h fun w r hw hr hdue => ?_
  rw [deliverRecord_eq (dueAtNip_slit hdue), handed_eq]
  obtain ⟨ks, hks, halerts⟩ := handed_posts r w
  have hother : ∀ k ∈ stopPosts, k ∉ ks := fun k hk hmem => by
    rcases hks k hmem with rfl | rfl <;> exact absurd hk (by decide)
  exact
    { stops := hw.stops
      motion := hw.motion
      p := hw.p
      cut := hw.cut
      records := fun x hx => hw.records x (List.mem_filter.1 hx).1
      posts := fun k hk => (State.PendsAs.of_posts_without halerts (hother k hk)).trans (hw.posts k hk)
      alerts := ⟨(hw.alerts.1.postAll ks).congr halerts, hw.alerts.2⟩ }

end Sys2Proof.Machine
end

