-- ==== Sys2Proof/Proofs/CutEnds.lean ====
section
/-! PROOFS. The end of a cut (R69, R92, R116, R117): the winding test, the delivery of the held records and the evaluation. -/

namespace Sys2Proof.Machine

/-! ## What an evaluation makes of the list -/

/-- Two parts with the same stop list, monitor, P and cut state. -/
structure StopsSim (u v : State) : Prop where
  stops : v.stops = u.stops
  motion : v.motion = u.motion
  p : v.length.p = u.length.p
  cut : v.job.state.isCutOpen = u.job.state.isCutOpen

namespace StopsSim

variable {u v : State}

/-- A step that gives both parts one list and leaves what the planner reads. -/
theorem step (h : StopsSim u v) {u' v' : State} (hstops : v'.stops = u'.stops)
    (hu : u' = { u with stops := u'.stops, queue := u'.queue, alerts := u'.alerts })
    (hv : v' = { v with stops := v'.stops, queue := v'.queue, alerts := v'.alerts }) : StopsSim u' v' := by
  refine ⟨hstops, ?_, ?_, ?_⟩
  · rw [hu, hv]; exact h.motion
  · rw [hu, hv]; exact h.p
  · rw [hu, hv]; exact h.cut

theorem remaining_eq (h : StopsSim u v) (e : StopEntry) : v.remaining e = u.remaining e :=
  congrArg (fun p : Nat => e.target - (p : Int)) h.p

theorem activated_eq (h : StopsSim u v) (e : StopEntry) : v.activated e = u.activated e := by
  rw [State.activated, State.activated, h.motion, h.remaining_eq]

theorem activateStop (h : StopsSim u v) (e : StopEntry) : StopsSim (activateStop e u) (activateStop e v) := by
  refine h.step ?_ (by rw [activateStop_eq]) (by rw [activateStop_eq])
  rw [activateStop_eq, activateStop_eq, h.activated_eq, h.stops]

theorem overrunTest (h : StopsSim u v) (e : StopEntry) : StopsSim (overrunTest e u) (overrunTest e v) := by
  have hp : v.p = u.p := h.p
  unfold Machine.overrunTest
  rw [h.motion, hp]
  split
  · refine h.step ?_ rfl rfl
    exact congrArg (fun pl : StopPlanner => StopPlanner.changed
      { pl with entries := replaceStop { e with overrun := true } pl.entries } 1) h.stops
  · exact h

theorem completeStop (h : StopsSim u v) (e : StopEntry) (late : Bool) (shortfall : Nat) :
    StopsSim (completeStop e late shortfall u) (completeStop e late shortfall v) := by
  have hp : v.p = u.p := h.p
  refine h.step ?_ (by rw [completeStop_eq]) (by rw [completeStop_eq])
  rw [completeStop_eq, completeStop_eq, State.stopRecord, State.stopRecord, h.motion, hp, h.stops]

theorem sweepStops (fuel : Nat) (h : StopsSim u v) : StopsSim (sweepStops fuel u) (sweepStops fuel v) := by
  have hreach {u v : State} (h : StopsSim u v) : v.inReach = u.inReach := by
    have hp : v.p = u.p := h.p
    funext e
    rw [State.inReach, State.inReach, h.motion, hp]
  induction fuel generalizing u v with
  | zero => exact h
  | succ n ih =>
    unfold Machine.sweepStops
    rw [h.stops, hreach h]
    split
    · exact h
    next e _ => exact ih (h.completeStop e false 0)

theorem completeAndSweep (h : StopsSim u v) (e : StopEntry) : StopsSim (completeAndSweep e u) (completeAndSweep e v) := by
  unfold Machine.completeAndSweep
  rw [h.stops]
  exact (h.completeStop e e.late e.shortfall).sweepStops _

theorem evaluatePasses (fuel : Nat) (h : StopsSim u v) : StopsSim (evaluatePasses fuel u) (evaluatePasses fuel v) := by
  have hactivates {u v : State} (h : StopsSim u v) (e : StopEntry) : v.activates e = u.activates e := by
    rw [State.activates, State.activates, h.motion, h.remaining_eq]
  induction fuel generalizing u v with
  | zero => exact h
  | succ n ih =>
    unfold Machine.evaluatePasses
    rw [h.stops, h.motion]
    split
    next e _ =>
      split
      · exact ih (h.completeAndSweep e)
      · exact h.overrunTest e
    next =>
      split
      next => exact h
      next e _ =>
        rw [hactivates h, h.activated_eq]
        split
        · split
          · exact ih ((h.activateStop e).completeAndSweep _)
          · exact h.activateStop e
        · exact h

theorem evaluate (h : StopsSim u v) : StopsSim (evaluate u) (evaluate v) := by
  unfold Machine.evaluate
  rw [h.cut, h.stops]
  split
  · exact h
  · exact h.evaluatePasses _

end StopsSim

/-! ## The part as the cut leaves it -/

/-- The part with the cut over and the set winding again. -/
def State.cutOver (s : State) : State := { s with job := { s.job with state := .winding } }

theorem endCut_eq (s : State) : endCut s = evaluate (deliverDue (windingTest s.cutOver)) := rfl

theorem cutOver_isCutOpen (s : State) : s.cutOver.job.state.isCutOpen = false := rfl

/-- The part after the winding test and the deliveries, before the evaluation. -/
def State.cutDelivered (s : State) : State := deliverDue (windingTest s.cutOver)

theorem endCut_evaluated (s : State) : Evaluated s.cutDelivered (endCut s) := evaluate_evaluated _

theorem cutDelivered_frame (s : State) : s.cutDelivered = { s with
    job := { s.job with state := .winding }, queue := s.cutDelivered.queue, roll := s.cutDelivered.roll,
    alerts := s.cutDelivered.alerts } := by
  rw [State.cutDelivered, deliverDue_keeps]
  rfl

theorem cutDelivered_stops (s : State) : s.cutDelivered.stops = s.stops := by rw [cutDelivered_frame]

theorem endCut_eq_with (s : State) : endCut s = { s with
    job := { s.job with state := .winding }, queue := (endCut s).queue, roll := s.cutDelivered.roll,
    stops := (endCut s).stops, alerts := (endCut s).alerts } := by
  rw [(endCut_evaluated s).frame, cutDelivered_frame]

/-- The planner's part of the end of a cut is the evaluation of the part with the cut over (R116). -/
theorem endCut_stops (s : State) : (endCut s).stops = (evaluate s.cutOver).stops := by
  have hsim : StopsSim s.cutOver s.cutDelivered := by
    rw [cutDelivered_frame]
    exact ⟨rfl, rfl, rfl, rfl⟩
  exact hsim.evaluate.stops

theorem endCut_plannerSim {s : State} (hq : s.QueueSound) (ha : s.AlertsSound) :
    PlannerSim (evaluate s.cutOver) (endCut s) := by
  have hsim : PlannerSim s.cutOver (windingTest s.cutOver) :=
    (PlannerSim.refl (s := s.cutOver) hq.2.2.1 ha).congr_right rfl rfl rfl rfl rfl rfl
  exact hsim.deliverDue.evaluate

/-- What the end of a cut leaves of the winding set's record but for its lanes and its unplaced tally. -/
theorem endCut_windingSet_map {α : Type} (f : SetRecord → α)
    (hf : ∀ (r : SetRecord) (lanes : List LaneRecord) (n : Nat), f { r with lanes := lanes, unplacedTally := n } = f r) (s : State) :
    (endCut s).roll.windingSet.map f = s.roll.windingSet.map f := by
  rw [endCut_eq_with]
  change s.cutDelivered.roll.windingSet.map f = _
  rw [State.cutDelivered, deliverDue_windingSet_map f hf, windingTest_windingSet, Option.map_map]
  exact congrArg (fun g => Option.map g s.roll.windingSet) (funext fun r => hf r _ r.unplacedTally)

theorem cutOver_due (s : State) : (windingTest s.cutOver).dueAtNip = s.dueAtNip := dueAtNip_congr rfl rfl

/-- No record that is due is left, and each one left was there, but for its stop entry id (R68). -/
theorem endCut_record {s : State} {r : PathRecord} (hr : r ∈ (endCut s).queue.records) :
    s.dueAtNip r = false ∧ ∃ r' ∈ s.queue.records, r'.bare = r.bare := by
  obtain ⟨r', hr', hbare⟩ := (PlannerOnly.evaluate s.cutDelivered).mem_of hr
  have hnot : s.dueAtNip r' = false := by
    rw [← cutOver_due]
    exact deliverDue_none_due (s := windingTest s.cutOver) rfl r' hr'
  obtain ⟨hbody, hslit, -⟩ := bare_eq_iff.1 hbare
  refine ⟨?_, r', (deliverDue_sublist (windingTest s.cutOver)).subset hr', hbare⟩
  rwa [State.dueAtNip, ← hbody, ← hslit]

theorem dueAtNip_false_iff {s : State} {r : PathRecord} :
    s.dueAtNip r = false ↔ (r.slit.isSome = true → (s.length.p : Int) < r.body.web + s.geometry.w) := by
  rw [← Bool.not_eq_true, dueAtNip_iff, not_and, not_le]

/-- Every record that is not due stays, but for its stop entry id (R116). -/
theorem endCut_keeps_record {s : State} (hq : s.QueueSound) {r : PathRecord} (hr : r ∈ s.queue.records)
    (hdue : s.dueAtNip r = false) : ∃ r' ∈ (endCut s).queue.records, r'.bare = r.bare := by
  refine (PlannerOnly.evaluate s.cutDelivered).mem ?_
  rw [State.cutDelivered, deliverDue_records (s := windingTest s.cutOver) hq.2.2.1 rfl, cutOver_due]
  exact List.mem_filter.2 ⟨hr, by rw [hdue]; rfl⟩

theorem heldRecords_eq (s : State) : s.heldRecords = s.queue.records.filter s.dueAtNip := by
  refine List.filter_congr fun r _ => ?_
  rw [Bool.eq_iff_iff, decide_eq_true_iff, dueAtNip_iff]

/-- The winding test comes first, then the held records are delivered in queue order (R116). -/
theorem endCut_follows {s : State} (hq : s.QueueSound) : CutEndFollows s (endCut s) := by
  have hdelivered := deliverDue_eq (s := windingTest s.cutOver) hq.2.2.1 rfl
  have halike : RollAlike ((windingTest s).deliverAll s.heldRecords) ((windingTest s.cutOver).deliverAll s.heldRecords) :=
    ((RollAlike.mk rfl rfl rfl rfl : RollAlike s s.cutOver).windingTest rfl).deliverAll _
  have hheld : (windingTest s.cutOver).queue.records.filter (windingTest s.cutOver).dueAtNip = s.heldRecords := by
    rw [cutOver_due, heldRecords_eq]
    rfl
  have hwinding : (windingTest s.cutOver).roll.windingSet.isSome = s.roll.windingSet.isSome := by
    rw [windingTest_windingSet, Option.isSome_map]
    rfl
  rw [hheld, hwinding] at hdelivered
  have hqueue : (endCut s).queue.flow = (s.queue.handOverAll s.roll.windingSet.isSome s.heldRecords).flow := by
    rw [(endCut_evaluated s).queue, State.cutDelivered, hdelivered]
    rfl
  obtain ⟨hflow1, hflow2⟩ := handOverAll_flow s.roll.windingSet.isSome s.heldRecords s.queue
  refine ⟨?_, fun k hk => ?_, ?_, ?_⟩
  · rw [endCut_eq_with, State.cutDelivered, hdelivered]
    exact halike.roll
  · have hpost : k ∉ evaluationPosts := by
      simp only [List.mem_cons, List.not_mem_nil, or_false] at hk
      rcases hk with rfl | rfl <;> decide
    refine (evaluate_pendsAs hpost s.cutDelivered).trans (State.PendsAs.of_alerts ?_ k)
    rw [State.cutDelivered, hdelivered]
    exact halike.alerts
  · rw [hqueue, hflow1]
    cases s.roll.windingSet <;> rfl
  · rw [hqueue, hflow2]
    cases s.roll.windingSet <;> rfl

/-- The entries of the set are tested, but for those of the records delivered after the test (R92). -/
theorem endCut_entriesTested (s : State) : EntriesTested (s.queue.records.map (·.body.number)) (endCut s) := by
  have hfrom : EntriesFrom (s.queue.records.map (·.body.number)) (windingTest s.cutOver) s.cutDelivered :=
    .deliverDue fun r hr => List.mem_map_of_mem (f := fun r : PathRecord => r.body.number) hr
  have htested := hfrom.entriesTested (windingTest_entriesTested _ s.cutOver) (by rw [cutDelivered_frame]; rfl)
    (by rw [cutDelivered_frame]; rfl)
  rw [endCut_eq_with]
  rw [cutDelivered_frame] at htested
  exact htested

/-! ## CUT-CANCEL (R117) -/

theorem takeCutCancel_open {s : State} (h : s.job.state.isCutOpen = true) : takeCutCancel s = (endCut s, .done []) := by
  unfold takeCutCancel
  cases hj : s.job.state with
  | cutOpen popen => rfl
  | _ => rw [hj] at h; exact absurd h Bool.false_ne_true

theorem takeCutCancel_closed {s : State} (h : s.job.state.isCutOpen = false) : takeCutCancel s = s.refuse .wrongState := by
  unfold takeCutCancel
  cases hj : s.job.state with
  | cutOpen popen => rw [hj] at h; exact absurd h.symm Bool.false_ne_true
  | _ => rfl

/-- With no SLIT record at the nip nothing joins the register (R117). -/
theorem endCut_register_of_none {s : State}
    (h : ∀ r ∈ s.queue.records, r.slit = none ∨ (s.length.p : Int) < r.body.web + s.geometry.w) :
    (endCut s).roll.register = s.roll.register := by
  have hnone : ∀ r ∈ (windingTest s.cutOver).queue.records, (windingTest s.cutOver).dueAtNip r = false := by
    intro r hr
    rw [cutOver_due, dueAtNip_false_iff]
    intro hslit
    exact (h r hr).resolve_left (Option.isSome_iff_ne_none.1 hslit)
  rw [endCut_eq_with, State.cutDelivered, deliverDue_of_none_due hnone]
  rfl

theorem endCut_register {s : State} {it : RegisterItem} (h : it ∈ (endCut s).roll.register) :
    it ∈ s.roll.register ∨ ∃ r ∈ s.queue.records, r.body = it.body ∧ r.slit = some it.lanes ∧
      it.body.web + s.geometry.w ≤ s.length.p := by
  rw [endCut_eq_with] at h
  exact deliverDue_register (s := windingTest s.cutOver) h

/-- Settles O30: the end of the cut through its four steps, with what each leaves unchanged. -/
theorem cutCancelEndsTheCut : Obligations.CutCancelEndsTheCut := by
  intro p s ht
  refine ⟨fun hclosed => exec_eq_replied rfl rfl ht (takeCutCancel_closed hclosed), fun hopen => ?_⟩
  have hqueue : (endCut s).queue = { (windingTest s.cutOver).queue with
      records := (endCut s).queue.records, changes := (endCut s).queue.changes, flow := { s.queue.flow with
        delivered := s.cutDelivered.queue.flow.delivered, unmapped := s.cutDelivered.queue.flow.unmapped } } := by
    rw [(endCut_evaluated s).queue, State.cutDelivered, deliverDue_queue_keeps (windingTest s.cutOver)]
    rfl
  refine ⟨_, exec_eq_replied rfl rfl ht (takeCutCancel_open hopen), ?_, ?_, ⟨rfl, endCut_stops s, fun hq ha => ?_⟩,
    ?_, ?_, ?_, ?_, ?_, ?_, fun it hit => endCut_register hit, endCut_entriesTested s, fun hq => endCut_follows hq,
    endCut_register_of_none, ?_, ?_, ?_⟩
  · exact State.replied_port (by rw [endCut_eq_with]) p _ _ _
  · change (endCut s).job = _
    rw [endCut_eq_with]
  · exact ((endCut_plannerSim hq ha).congr_right rfl rfl rfl rfl rfl rfl).plannerAs
  · exact endCut_windingSet_map (·.start) (fun _ _ _ => rfl) s
  · change (endCut s).queue.highMark = _
    rw [hqueue]
    rfl
  · change (endCut s).queue.flow.taken = _ ∧ (endCut s).queue.flow.returned = _ ∧ (endCut s).queue.flow.trimmed = _ ∧
      (endCut s).queue.flow.removed = _
    rw [hqueue]
    exact ⟨rfl, rfl, rfl, rfl⟩
  · exact fun r hr => dueAtNip_false_iff.1 (endCut_record hr).1
  · intro r hr
    obtain ⟨-, r', hr', hbare⟩ := endCut_record hr
    obtain ⟨hbody, hslit, -⟩ := bare_eq_iff.1 hbare
    exact ⟨r', hr', hbody.symm, hslit.symm⟩
  · intro hq r hr hahead
    obtain ⟨r', hr', hbare⟩ := endCut_keeps_record hq hr (dueAtNip_false_iff.2 fun hslit =>
      hahead.resolve_left (Option.isSome_iff_ne_none.1 hslit))
    obtain ⟨hbody, hslit, hjoined⟩ := bare_eq_iff.1 hbare
    exact ⟨r', hr', hjoined, hbody, hslit⟩
  · exact endCut_windingSet_map (·.removedTally) (fun _ _ _ => rfl) s
  · intro e' he'
    obtain ⟨e, he, hid, -, -, -, hweb, -, htarget, hins⟩ := (endCut_evaluated s).entries e' he'
    rw [cutDelivered_stops] at he
    exact ⟨e, he, hid, hins, hweb, htarget⟩
  · have hframe := endCut_eq_with s
    generalize endCut s = t at hframe ⊢
    rw [hframe]
    exact ⟨rfl, rfl, rfl, rfl, rfl, rfl, rfl, rfl, rfl, rfl, fun q hq => State.replied_port_other rfl hq _ _ _⟩

end Sys2Proof.Machine
end

