-- ==== Sys2Proof/Proofs/Resolutions.lean ====
section
/-! SUPPORT. The resolution of records at the knife line (R50, R67): what one resolution makes of the queue and of the roll map, and
what a pass over the queue makes of both. -/

namespace Sys2Proof.Machine

/-! ## One record resolved -/

theorem PlannerOnly.cancelRecordStop (r : PathRecord) (s : State) : PlannerOnly s (cancelRecordStop r s) := by
  unfold Machine.cancelRecordStop
  split
  · exact .refl s
  · unfold Machine.cancelStopId
    split
    · exact .refl s
    next e _ =>
      rw [removeStop_eq]
      exact (PlannerOnly.stopRemoved e s).trans (.evaluate _)

/-- A cancellation posts what its evaluation posts (R142). -/
theorem cancelRecordStop_posts (r : PathRecord) (s : State) :
    ∃ ks : List EventKind, (∀ k ∈ ks, k ∈ evaluationPosts) ∧ (cancelRecordStop r s).alerts = (s.postAll ks).alerts := by
  have hnone : ∃ ks : List EventKind, (∀ k ∈ ks, k ∈ evaluationPosts) ∧ s.alerts = (s.postAll ks).alerts := ⟨[], by simp, rfl⟩
  unfold cancelRecordStop
  split
  · exact hnone
  · unfold cancelStopId
    split
    · exact hnone
    next e _ =>
      rw [removeStop_eq]
      obtain ⟨ks, hks, halerts⟩ := (evaluate_evaluated (s.stopRemoved e)).posts
      exact ⟨ks, hks, halerts.trans (State.postAll_alerts_congr (s := s.stopRemoved e) (t := s) rfl ks)⟩

theorem cancelRecordStop_of_none {r : PathRecord} (h : r.stopId = none) (s : State) : cancelRecordStop r s = s := by
  rw [cancelRecordStop, h]

/-- The part with a record in trim taken out and counted, before its stop entry is cancelled (R50). -/
def State.trimmedOut (r : PathRecord) (s : State) : State :=
  { s with queue := { s.queue.leave r with flow := s.queue.flow.addTrimmed 1 }
           roll := s.roll.mapWinding (fun x => { x with trimTally := min (x.trimTally + 1) 65535 }) }

theorem trimRecord_eq (r : PathRecord) (s : State) : trimRecord r s = cancelRecordStop r (s.trimmedOut r) := rfl

theorem slitRecord_eq (r : PathRecord) (range : LaneRange) (s : State) : slitRecord r range s = { s with
    queue := PathQueue.changed { s.queue with records := s.queue.records.map (fun x =>
      if x.joined = r.joined then { x with slit := some range } else x) } 1 } := rfl

theorem resolveRecord_of_trim {r : PathRecord} {s : State} (h : lookupLanes s.plans.active r.body.xs r.body.xe = .trim) :
    resolveRecord r s = cancelRecordStop r (s.trimmedOut r) := by
  rw [resolveRecord, h]
  rfl

theorem resolveRecord_of_lanes {r : PathRecord} {s : State} {range : LaneRange}
    (h : lookupLanes s.plans.active r.body.xs r.body.xe = .lanes range) : resolveRecord r s = slitRecord r range s := by
  rw [resolveRecord, h]

theorem trimRecord_bare (r : PathRecord) (s : State) : (trimRecord r s).queue.records.map PathRecord.bare =
    (s.queue.records.filter (fun x => decide (x.joined ≠ r.joined))).map PathRecord.bare := by
  rw [trimRecord_eq]
  exact (PlannerOnly.cancelRecordStop r (s.trimmedOut r)).records

/-! ## A pass over the queue (R67) -/

theorem dueAtKnives_congr {s t : State} (hg : t.geometry = s.geometry) (hl : t.length = s.length) :
    t.dueAtKnives = s.dueAtKnives := by
  funext r
  rw [State.dueAtKnives, State.dueAtKnives, State.p, State.p, hg, hl]

theorem resolveRecord_dueAtKnives (r : PathRecord) (s : State) : (resolveRecord r s).dueAtKnives = s.dueAtKnives :=
  dueAtKnives_congr (by simp) (by simp)

theorem filter_map_bare {p : PathRecord → Bool} (hp : ∀ r, p r.bare = p r) (l : List PathRecord) :
    (l.map PathRecord.bare).filter p = (l.filter p).map PathRecord.bare := by
  rw [List.filter_map]
  exact congrArg (fun q => (List.filter q l).map PathRecord.bare) (funext hp)

/-- Of the due records one resolution leaves the others. -/
theorem resolveRecord_due_length (r : PathRecord) (s : State) :
    ((resolveRecord r s).queue.records.filter s.dueAtKnives).length =
      ((s.queue.records.filter s.dueAtKnives).filter (fun x => decide (x.joined ≠ r.joined))).length := by
  have hbare (l l' : List PathRecord) (h : l.map PathRecord.bare = l'.map PathRecord.bare) :
      (l.filter s.dueAtKnives).length = (l'.filter s.dueAtKnives).length := by
    have := congrArg (fun x => (x.filter s.dueAtKnives).length) h
    simpa only [filter_map_bare (p := s.dueAtKnives) (fun _ => rfl), List.length_map] using this
  cases h : lookupLanes s.plans.active r.body.xs r.body.xe with
  | trim =>
    rw [resolveRecord_of_trim h, ← trimRecord_eq, hbare _ _ (trimRecord_bare r s), List.filter_filter, List.filter_filter]
    exact congrArg (fun q => (List.filter q s.queue.records).length) (funext fun x => Bool.and_comm _ _)
  | lanes range =>
    rw [resolveRecord_of_lanes h, slitRecord_eq, List.filter_filter]
    change ((s.queue.records.map _).filter _).length = _
    rw [List.filter_map, List.length_map]
    refine congrArg List.length (List.filter_congr fun x _ => ?_)
    rw [Function.comp_apply]
    by_cases hx : x.joined = r.joined <;> simp [hx, State.dueAtKnives]

/-- What every resolution of a pass keeps, the pass keeps; each record resolved was there, but for its stop entry id, and
due. -/
theorem resolveDue_induction {C : State → Prop} {s : State} (h0 : C s)
    (hstep : ∀ u r, C u → r ∈ u.queue.records → s.dueAtKnives r = true → u.plans = s.plans → C (resolveRecord r u)) :
    C (resolveDue s) := by
  have hpasses (fuel : Nat) (u : State) (hu : C u) (hdue : u.dueAtKnives = s.dueAtKnives) (hplans : u.plans = s.plans) :
      C (resolvePasses fuel u) := by
    induction fuel generalizing u with
    | zero => exact hu
    | succ n ih =>
      unfold resolvePasses
      split
      · exact hu
      next r hr =>
        exact ih _ (hstep u r hu (List.mem_of_find?_eq_some hr) (hdue ▸ List.find?_some hr) hplans)
          ((resolveRecord_dueAtKnives r u).trans hdue) ((resolveRecord_frame r u).2.2.2.2.2.2.1.trans hplans)
  exact hpasses _ _ h0 rfl rfl

theorem resolvePasses_none_due (fuel : Nat) {u : State} (h : (u.queue.records.filter u.dueAtKnives).length ≤ fuel) :
    ∀ r ∈ (resolvePasses fuel u).queue.records, u.dueAtKnives r = false := by
  induction fuel generalizing u with
  | zero =>
    intro r hr
    simpa using List.filter_eq_nil_iff.1 (List.length_eq_zero_iff.1 (Nat.le_zero.1 h)) r hr
  | succ n ih =>
    unfold resolvePasses
    split
    next hnone => exact fun r hr => by simpa using List.find?_eq_none.1 hnone r hr
    next x hx =>
      rw [← resolveRecord_dueAtKnives x]
      refine ih ?_
      have hmem : x ∈ u.queue.records.filter u.dueAtKnives :=
        List.mem_filter.2 ⟨List.mem_of_find?_eq_some hx, List.find?_some hx⟩
      have hlt : ((u.queue.records.filter u.dueAtKnives).filter (fun y => decide (y.joined ≠ x.joined))).length <
          (u.queue.records.filter u.dueAtKnives).length :=
        List.length_filter_lt_length_iff_exists.2 ⟨x, hmem, by simp⟩
      rw [resolveRecord_dueAtKnives, resolveRecord_due_length]
      omega

/-- No UPSTREAM record at or past the knife line stays (R67). -/
theorem resolveDue_none_due (s : State) : ∀ r ∈ (resolveDue s).queue.records, s.dueAtKnives r = false :=
  resolvePasses_none_due _ (List.length_filter_le _ _)

theorem resolveDue_of_none_due {s : State} (h : ∀ r ∈ s.queue.records, s.dueAtKnives r = false) : resolveDue s = s := by
  have hnone : s.queue.records.find? s.dueAtKnives = none :=
    List.find?_eq_none.2 fun r hr => by rw [h r hr]; exact Bool.false_ne_true
  unfold resolveDue
  cases s.queue.records.length with
  | zero => rfl
  | succ n => unfold resolvePasses; rw [hnone]

/-- With one record due the pass is its resolution. -/
theorem resolveDue_of_one_due {s : State} {r : PathRecord} (hr : s.queue.records.find? s.dueAtKnives = some r)
    (hnone : ∀ x ∈ (resolveRecord r s).queue.records, s.dueAtKnives x = false) : resolveDue s = resolveRecord r s := by
  have hlength : 0 < s.queue.records.length := List.length_pos_of_mem (List.mem_of_find?_eq_some hr)
  obtain ⟨n, hn⟩ := Nat.exists_eq_succ_of_ne_zero hlength.ne'
  have hnone' : (resolveRecord r s).queue.records.find? (resolveRecord r s).dueAtKnives = none := by
    rw [resolveRecord_dueAtKnives]
    exact List.find?_eq_none.2 fun x hx => by rw [hnone x hx]; exact Bool.false_ne_true
  unfold resolveDue
  rw [hn]
  unfold resolvePasses
  rw [hr]
  cases n with
  | zero => rfl
  | succ n => change resolvePasses (n + 1) (resolveRecord r s) = _; unfold resolvePasses; rw [hnone']

/-! ## What a pass leaves -/

/-- The queue with the due records resolved: those in trim gone, the others with their lanes (R50, R67). -/
def State.resolvedRecords (s : State) (l : List PathRecord) : List PathRecord :=
  (l.filter (fun r => !s.trimmedAt s.length.p r)).map (fun r => { r with slit := s.lanesAt s.length.p r })

theorem resolvedRecords_congr {s t : State} (hg : t.geometry = s.geometry) (hl : t.length = s.length) (hp : t.plans = s.plans)
    (l : List PathRecord) : t.resolvedRecords l = s.resolvedRecords l := by
  have htrim : t.trimmedAt s.length.p = s.trimmedAt s.length.p := by
    funext r
    rw [State.trimmedAt, State.trimmedAt, hg, hp]
  have hlanes : t.lanesAt s.length.p = s.lanesAt s.length.p := by
    funext r
    rw [State.lanesAt, State.lanesAt, hg, hp]
  rw [State.resolvedRecords, State.resolvedRecords, hl, htrim, hlanes]

theorem trimmedAt_iff {s : State} {r : PathRecord} : s.trimmedAt s.length.p r = true ↔
    s.dueAtKnives r = true ∧ lookupLanes s.plans.active r.body.xs r.body.xe = .trim := by
  rw [State.trimmedAt, Bool.and_eq_true, decide_eq_true_iff]
  rfl

theorem lanesAt_of_not_due {s : State} {r : PathRecord} (h : s.dueAtKnives r = false) : s.lanesAt s.length.p r = r.slit := by
  rw [State.lanesAt, if_neg]
  rw [← dueAtKnives_iff, h]
  exact Bool.false_ne_true

theorem lanesAt_of_due {s : State} {r : PathRecord} {range : LaneRange} (h : s.dueAtKnives r = true)
    (hl : lookupLanes s.plans.active r.body.xs r.body.xe = .lanes range) : s.lanesAt s.length.p r = some range := by
  rw [State.lanesAt, if_pos (dueAtKnives_iff.1 h), hl]

theorem resolvedRecords_of_none_due {s : State} {l : List PathRecord} (h : ∀ r ∈ l, s.dueAtKnives r = false) :
    s.resolvedRecords l = l := by
  have hnot : ∀ r ∈ l, (!s.trimmedAt s.length.p r) = true := fun r hr => by
    rw [Bool.not_eq_true', ← Bool.not_eq_true, trimmedAt_iff, h r hr]
    exact fun h => Bool.false_ne_true h.1
  rw [State.resolvedRecords, List.filter_eq_self.2 hnot]
  conv_rhs => rw [← List.map_id l]
  refine List.map_congr_left fun r hr => ?_
  rw [lanesAt_of_not_due (h r hr)]
  rfl

theorem resolvedRecords_bare (s : State) (l : List PathRecord) :
    s.resolvedRecords (l.map PathRecord.bare) = (s.resolvedRecords l).map PathRecord.bare := by
  rw [State.resolvedRecords, State.resolvedRecords, filter_map_bare fun _ => rfl, List.map_map, List.map_map]
  rfl

/-- A resolution does not change what the pass comes to. -/
theorem resolvedRecords_resolveRecord {s : State} (hn : (s.queue.records.map (·.joined)).Nodup) {r : PathRecord}
    (hr : r ∈ s.queue.records) (hdue : s.dueAtKnives r = true) :
    (s.resolvedRecords (resolveRecord r s).queue.records).map PathRecord.bare =
      (s.resolvedRecords s.queue.records).map PathRecord.bare := by
  cases h : lookupLanes s.plans.active r.body.xs r.body.xe with
  | trim =>
    rw [resolveRecord_of_trim h, ← trimRecord_eq, ← resolvedRecords_bare, trimRecord_bare, resolvedRecords_bare,
      State.resolvedRecords, List.filter_filter]
    refine congrArg (fun l => (List.map _ l).map _) (List.filter_congr fun x hx => ?_)
    by_cases hj : x.joined = r.joined
    · rw [List.inj_on_of_nodup_map hn hx hr hj, trimmedAt_iff.2 ⟨hdue, h⟩]
      rfl
    · simp [hj]
  | lanes range =>
    rw [resolveRecord_of_lanes h, slitRecord_eq]
    change (s.resolvedRecords (s.queue.records.map _)).map _ = _
    have hgone : s.trimmedAt s.length.p r = false := by
      rw [← Bool.not_eq_true, trimmedAt_iff, h]
      exact fun h => nomatch h.2
    rw [State.resolvedRecords, State.resolvedRecords, List.filter_map, List.map_map, List.map_map, List.map_map]
    have hfilter : s.queue.records.filter ((fun x => !s.trimmedAt s.length.p x) ∘ fun x =>
          if x.joined = r.joined then { x with slit := some range } else x) =
        s.queue.records.filter (fun x => !s.trimmedAt s.length.p x) := by
      refine List.filter_congr fun x hx => ?_
      rw [Function.comp_apply]
      by_cases hj : x.joined = r.joined
      · rw [if_pos hj, List.inj_on_of_nodup_map hn hx hr hj, hgone]
        simp [State.trimmedAt]
      · rw [if_neg hj]
    rw [hfilter]
    refine List.map_congr_left fun x hx => ?_
    simp only [Function.comp_apply]
    by_cases hj : x.joined = r.joined
    · rw [if_pos hj, List.inj_on_of_nodup_map hn (List.mem_filter.1 hx).1 hr hj, lanesAt_of_due hdue h, State.lanesAt,
        if_neg (fun h => nomatch h.1)]
    · rw [if_neg hj]

theorem resolveRecord_nodup {s : State} (hn : (s.queue.records.map (·.joined)).Nodup) (r : PathRecord) :
    ((resolveRecord r s).queue.records.map (·.joined)).Nodup := by
  have hbare (l : List PathRecord) : l.map (·.joined) = (l.map PathRecord.bare).map (·.joined) := by
    rw [List.map_map]
    rfl
  cases h : lookupLanes s.plans.active r.body.xs r.body.xe with
  | trim =>
    rw [resolveRecord_of_trim h, ← trimRecord_eq, hbare, trimRecord_bare, ← hbare]
    exact hn.sublist (List.filter_sublist.map _)
  | lanes range =>
    rw [resolveRecord_of_lanes h, slitRecord_eq]
    change ((s.queue.records.map _).map _).Nodup
    rw [List.map_map]
    refine (congrArg List.Nodup (List.map_congr_left fun x _ => ?_)).mp hn
    rw [Function.comp_apply]
    split <;> rfl

/-- A pass leaves the records resolved, but for the stop entry ids that its cancellations take (R50, R67). -/
theorem resolveDue_records {s : State} (hn : (s.queue.records.map (·.joined)).Nodup) :
    (resolveDue s).queue.records.map PathRecord.bare = (s.resolvedRecords s.queue.records).map PathRecord.bare := by
  have hpasses (fuel : Nat) (u : State) (hu : (u.queue.records.map (·.joined)).Nodup)
      (hfuel : (u.queue.records.filter u.dueAtKnives).length ≤ fuel) :
      (u.resolvedRecords (resolvePasses fuel u).queue.records).map PathRecord.bare =
        (u.resolvedRecords u.queue.records).map PathRecord.bare := by
    induction fuel generalizing u with
    | zero => rfl
    | succ n ih =>
      unfold resolvePasses
      split
      · rfl
      next r hr =>
        have hmem := List.mem_of_find?_eq_some hr
        have hstep := resolvedRecords_resolveRecord hu hmem (List.find?_some hr)
        have hlt : ((u.queue.records.filter u.dueAtKnives).filter (fun y => decide (y.joined ≠ r.joined))).length <
            (u.queue.records.filter u.dueAtKnives).length :=
          List.length_filter_lt_length_iff_exists.2 ⟨r, List.mem_filter.2 ⟨hmem, List.find?_some hr⟩, by simp⟩
        have hrest := ih (resolveRecord r u) (resolveRecord_nodup hu r)
          (by rw [resolveRecord_dueAtKnives, resolveRecord_due_length]; omega)
        obtain ⟨-, -, hg, hl, -, -, hp, -⟩ := resolveRecord_frame r u
        rw [resolvedRecords_congr hg hl hp, resolvedRecords_congr hg hl hp] at hrest
        exact hrest.trans hstep
  have hdone := hpasses s.queue.records.length s hn (List.length_filter_le _ _)
  have hnone : s.resolvedRecords (resolvePasses s.queue.records.length s).queue.records = (resolveDue s).queue.records :=
    resolvedRecords_of_none_due (resolveDue_none_due s)
  rwa [hnone] at hdone

end Sys2Proof.Machine
end

