-- ==== Sys2Proof/Proofs/DefectIntake.lean ====
section
/-! PROOFS. A DEFECT request (R56, R58 to R63): its checks, the record, its resolution and delivery where they are due at once, and the
stop decision. -/

namespace Sys2Proof.Machine

/-! ## Numbers, tags and ranges -/

theorem holdsNumber_iff_mem_usedNumbers (s : State) (n : Nat) : s.HoldsNumber n ↔ n ∈ s.usedNumbers := by
  rw [State.usedNumbers, List.mem_append, List.mem_map]
  refine or_congr_right ?_
  cases s.roll.windingSet with
  | none => simp
  | some set => simp [SetRecord.entryNumbers]

theorem freshNumber_firstFree {s : State} (h : 1 ≤ s.queue.nextNumber ∧ s.queue.nextNumber ≤ 65535)
    (hl : s.usedNumbers.length < 65535) : FirstFree 65535 s.queue.nextNumber s.HoldsNumber s.freshNumber :=
  nextFree_firstFree h.1 h.2 hl (holdsNumber_iff_mem_usedNumbers s)

theorem hasTag_iff (tag : Nat) (k : RecordKind) : k.hasTag tag = true ↔ ∃ x ∈ k.defectFields, x.1 = tag := by
  cases k <;> simp [RecordKind.hasTag, RecordKind.defectFields]

theorem tagLive_iff (s : State) (tag : Nat) : s.tagLive tag = true ↔ s.HoldsTag tag := by
  rw [State.tagLive, Bool.or_eq_true, List.any_eq_true]
  simp only [hasTag_iff]
  refine or_congr_right ?_
  cases s.roll.windingSet <;> simp

theorem defectInRange_iff (d : DefectFields) : defectInRange d = true ↔ (1 ≤ d.tag ∧ d.tag ≤ 65535) ∧
    (1 ≤ d.cls ∧ d.cls ≤ 15) ∧ d.xs ≤ 30000 ∧ d.xe ≤ 30000 ∧ d.xs ≤ d.xe ∧ (1 ≤ d.length ∧ d.length ≤ 65535) := by
  simp only [defectInRange, Bool.and_eq_true, decide_eq_true_eq]
  tauto

theorem stopsOn_iff (j : JobParams) (cls : Nat) (sev : Severity) : j.stopsOn cls sev = true ↔
    j.stopOnDefect = true ∧ j.classes.testBit cls = true ∧ j.stopSeverity.rank ≤ sev.rank := by
  rw [JobParams.stopsOn, Bool.and_eq_true, Bool.and_eq_true, decide_eq_true_iff, and_assoc]

/-! ## The stop decision (R63) -/

/-- The part after the stop decision for a record, and the id that an offer gave. -/
def State.decided (u : State) (stops : Bool) (o : StopOffer) : State × Option Nat :=
  if stops then offerStop o u else (u, none)

section Decided
variable (u : State) (stops : Bool) (o : StopOffer)

theorem decided_plannerOnly : PlannerOnly u (u.decided stops o).1 := by
  cases stops
  · exact .refl u
  · exact .offerStop o u

theorem decided_stopDecided (hs : u.stops.Sound) :
    StopDecided (stops = true) o u (u.decided stops o).1 (u.decided stops o).2 := by
  cases stops
  · exact ⟨fun _ => ⟨rfl, rfl⟩, fun h => absurd h Bool.false_ne_true⟩
  · exact ⟨fun h => absurd rfl h, fun _ => offerStop_taken o hs⟩

theorem decided_of_not {stops : Bool} (h : ¬ stops = true) : u.decided stops o = (u, none) := if_neg h

theorem decided_with_room {stops : Bool} (h : stops = true) (hl : u.stops.entries.length < 16) :
    u.decided stops o = (evaluate (u.stopPlaced o), some u.stops.freshId) :=
  (if_pos h).trans (offerStop_with_room o hl)

/-- In motion and in a cut the entry of an offer with room is in the list. -/
theorem decided_entry {stops : Bool} (h : stops = true) (hl : u.stops.entries.length < 16)
    (hq : u.motion.standstill = false ∨ u.job.state.isCutOpen = true) :
    ∃ e ∈ (u.decided stops o).1.stops.entries, e.SameAs (o.entry u.stops.freshId u.stops.insertions) := by
  rw [decided_with_room u o h hl]
  exact evaluate_stopPlaced_entry o (by omega) hq

/-- The record an offer is made for stays in the queue, with the id of an offer with room. -/
theorem decided_record {r : PathRecord} (hr : r ∈ u.queue.records) (hid : r.stopId = none)
    (ho : o.ref = .record r.body.number) : ∃ r' ∈ (u.decided stops o).1.queue.records, r'.bare = r.bare ∧
      (¬ stops = true → r'.stopId = none) ∧
      (stops = true → u.stops.entries.length < 16 → u.motion.standstill = false ∨ u.job.state.isCutOpen = true →
        r'.stopId = some u.stops.freshId) := by
  by_cases hstops : stops = true
  · by_cases hcase : u.stops.entries.length < 16 ∧ (u.motion.standstill = false ∨ u.job.state.isCutOpen = true)
    · obtain ⟨hl, hq⟩ := hcase
      rw [decided_with_room u o hstops hl]
      change ∃ r' ∈ (evaluate (u.stopPlaced o)).queue.records, _
      rw [evaluate_stopPlaced_queue o hq]
      refine ⟨_, List.mem_map_of_mem hr, ?_⟩
      rw [if_pos (decide_eq_true ho)]
      exact ⟨rfl, fun h => absurd hstops h, fun _ _ _ => rfl⟩
    · obtain ⟨r', hr', hbare⟩ := (decided_plannerOnly u stops o).mem hr
      exact ⟨r', hr', hbare, fun h => absurd hstops h, fun _ hl hq => absurd ⟨hl, hq⟩ hcase⟩
  · rw [decided_of_not u o hstops]
    exact ⟨r, hr, rfl, fun _ => hid, fun h => absurd h hstops⟩

end Decided

/-! ## What an intake touches -/

/-- Nothing but the queue, the roll map, the stop list and the station records has changed, and of the queue not the count of
records taken. -/
structure IntakeOnly (s t : State) : Prop where
  frame : t = { s with queue := t.queue, roll := t.roll, stops := t.stops, alerts := t.alerts }
  taken : t.queue.flow.taken = s.queue.flow.taken

namespace IntakeOnly

theorem refl (s : State) : IntakeOnly s s := ⟨rfl, rfl⟩

theorem trans {s t u : State} (h : IntakeOnly s t) (g : IntakeOnly t u) : IntakeOnly s u :=
  ⟨by rw [g.frame, h.frame], g.taken.trans h.taken⟩

theorem plannerOnly {s t : State} (h : PlannerOnly s t) : IntakeOnly s t :=
  ⟨by rw [h.frame], by rw [h.queue]⟩

theorem deliverDue (s : State) : IntakeOnly s (deliverDue s) :=
  ⟨by rw [deliverDue_keeps s], by rw [deliverDue_queue_keeps s]⟩

theorem resolveRecord (r : PathRecord) (s : State) : IntakeOnly s (resolveRecord r s) := by
  cases h : lookupLanes s.plans.active r.body.xs r.body.xe with
  | trim =>
    rw [resolveRecord_of_trim h]
    exact (IntakeOnly.mk rfl rfl : IntakeOnly s (s.trimmedOut r)).trans (.plannerOnly (.cancelRecordStop r _))
  | lanes range =>
    rw [resolveRecord_of_lanes h]
    exact ⟨rfl, rfl⟩

theorem resolveDue (s : State) : IntakeOnly s (resolveDue s) :=
  resolveDue_induction (C := IntakeOnly s) (refl s) fun u r hu _ _ _ => hu.trans (resolveRecord r u)

end IntakeOnly

/-! ## The record entered -/

section Intake
variable (d : DefectFields) (sev : Severity) (s : State)

/-- The body of a defect's record (R61, R62). -/
def defectBody : RecordBody := s.nextBody (.defect d.tag d.cls sev) d.xs d.xe d.length (defectWeb s d.age)

/-- The part with a defect's record entered. -/
def defectEntered : State := s.recordJoined (defectBody d sev s) none

theorem defectResolved_eq : defectResolved d sev s =
    if defectWeb s d.age + s.geometry.k ≤ s.length.p then resolveDue (defectEntered d sev s) else defectEntered d sev s := rfl

theorem defectPlaced_eq : defectPlaced d sev s =
    (defectResolved d sev s).decided (s.job.params.stopsOn d.cls sev) (s.defectStop (defectBody d sev s)) := rfl

theorem defectEntered_intakeOnly : defectEntered d sev s = { s with queue := (defectEntered d sev s).queue } ∧
    (defectEntered d sev s).queue.flow.taken = (s.queue.flow.taken + 1) % 4294967296 := ⟨rfl, rfl⟩

theorem defectResolved_intakeOnly : IntakeOnly (defectEntered d sev s) (defectResolved d sev s) := by
  rw [defectResolved_eq]
  split
  · exact .resolveDue _
  · exact .refl _

theorem defectPlaced_intakeOnly : IntakeOnly (defectEntered d sev s) (defectPlaced d sev s).1 := by
  rw [defectPlaced_eq]
  exact (defectResolved_intakeOnly d sev s).trans (.plannerOnly (decided_plannerOnly _ _ _))

/-- The part at the end of an intake, and the id of its reply. -/
def defectTaken : State × Nat :=
  if (defectResolved d sev s).queue.records.any (fun r => decide (r.body.number = s.freshNumber)) then
    (if defectWeb s d.age + s.geometry.w ≤ s.length.p then deliverDue (defectPlaced d sev s).1 else (defectPlaced d sev s).1,
      (defectPlaced d sev s).2.getD 0)
  else (defectResolved d sev s, 0)

theorem intakeDefect_taken : intakeDefect d sev s = ((defectTaken d sev s).1,
    .done (fieldU 2 s.freshNumber ++ fieldU 1 (defectTaken d sev s).2)) := by
  rw [intakeDefect_eq, defectTaken, idOrZero_eq]
  split <;> rfl

theorem defectTaken_intakeOnly : IntakeOnly (defectEntered d sev s) (defectTaken d sev s).1 := by
  unfold defectTaken
  split
  · dsimp only
    split
    · exact (defectPlaced_intakeOnly d sev s).trans (.deliverDue _)
    · exact defectPlaced_intakeOnly d sev s
  · exact defectResolved_intakeOnly d sev s

theorem defectTaken_of_not_stops (h : ¬ s.job.params.stopsOn d.cls sev = true) : (defectTaken d sev s).2 = 0 := by
  unfold defectTaken
  split
  · rw [defectPlaced_eq, decided_of_not _ _ h]
    rfl
  · rfl

/-- A point past the knife line leaves no UPSTREAM record there (R62, R67). -/
theorem defectTaken_none_due (hk : defectWeb s d.age + s.geometry.k ≤ s.length.p) {r : PathRecord}
    (hr : r ∈ (defectTaken d sev s).1.queue.records) (hw : r.body.web + s.geometry.k ≤ s.length.p) : r.slit.isSome = true := by
  have hresolved : ∀ x ∈ (defectResolved d sev s).queue.records, s.dueAtKnives x = false := by
    rw [defectResolved_eq, if_pos hk]
    exact resolveDue_none_due (defectEntered d sev s)
  have hplaced : ∀ x ∈ (defectPlaced d sev s).1.queue.records, s.dueAtKnives x = false := by
    intro x hx
    obtain ⟨x', hx', hbare⟩ := (decided_plannerOnly _ _ _).mem_of (defectPlaced_eq d sev s ▸ hx)
    have := hresolved x' hx'
    obtain ⟨hbody, hslit, -⟩ := bare_eq_iff.1 hbare
    rwa [State.dueAtKnives, hbody, hslit] at this
  have hnot : s.dueAtKnives r = false := by
    unfold defectTaken at hr
    split at hr
    · dsimp only at hr
      split at hr
      · exact hplaced r ((deliverDue_sublist _).subset hr)
      · exact hplaced r hr
    · exact hresolved r hr
  by_contra hslit
  have hdue : s.dueAtKnives r = true := dueAtKnives_iff.2 ⟨by simpa using hslit, hw⟩
  exact Bool.false_ne_true (hnot.symm.trans hdue)

theorem defectEntered_mem : s.joining (defectBody d sev s) none ∈ (defectEntered d sev s).queue.records :=
  recordJoined_mem _ _ s

theorem defectEntered_nodup {s : State} (hq : s.QueueSound) : ((defectEntered d sev s).queue.records.map (·.joined)).Nodup := by
  have hperm := (placeRecord_perm (s.joining (defectBody d sev s) none) s.queue.records).map (·.joined)
  refine hperm.nodup_iff.2 (List.nodup_cons.2 ⟨fun h => ?_, hq.2.2.1⟩)
  obtain ⟨r, hr, hj⟩ := List.mem_map.1 h
  exact (hq.2.2.2.1 r hr).ne hj

end Intake

theorem PlannerOnly.map_joined {s t : State} (h : PlannerOnly s t) :
    t.queue.records.map (·.joined) = s.queue.records.map (·.joined) := by
  have := congrArg (List.map (·.joined)) h.records
  rwa [List.map_map, List.map_map] at this

/-! ## A point ahead of the knife line -/

section Ahead
variable {d : DefectFields} {sev : Severity} {s : State} (hk : (s.length.p : Int) < defectWeb s d.age + s.geometry.k)
include hk

theorem defectResolved_ahead : defectResolved d sev s = defectEntered d sev s := by
  rw [defectResolved_eq, if_neg (not_le.2 hk)]

theorem defectTaken_ahead : defectTaken d sev s =
    (if defectWeb s d.age + s.geometry.w ≤ s.length.p then deliverDue (defectPlaced d sev s).1 else (defectPlaced d sev s).1,
      (defectPlaced d sev s).2.getD 0) := by
  have hany : (defectResolved d sev s).queue.records.any (fun r => decide (r.body.number = s.freshNumber)) = true := by
    rw [defectResolved_ahead hk]
    exact List.any_eq_true.2 ⟨_, defectEntered_mem d sev s, decide_eq_true rfl⟩
  rw [defectTaken, if_pos hany]

theorem defectPlaced_ahead : defectPlaced d sev s =
    (defectEntered d sev s).decided (s.job.params.stopsOn d.cls sev) (s.defectStop (defectBody d sev s)) := by
  rw [defectPlaced_eq, defectResolved_ahead hk]

theorem defectTaken_ahead_stops : (defectTaken d sev s).1.stops = (defectPlaced d sev s).1.stops := by
  rw [defectTaken_ahead hk]
  dsimp only
  split
  · exact (deliverDue_frame _).2.2.2.2.2.2.2.2.1
  · rfl

/-- The record stays UPSTREAM in the queue, with its stop decision made. -/
theorem defectTaken_ahead_record (hq : s.QueueSound) : ∃ r ∈ (defectTaken d sev s).1.queue.records,
    r.bare = s.joining (defectBody d sev s) none ∧ (¬ s.job.params.stopsOn d.cls sev = true → r.stopId = none) ∧
      (s.job.params.stopsOn d.cls sev = true → s.stops.entries.length < 16 →
        s.motion.standstill = false ∨ s.job.state.isCutOpen = true → r.stopId = some (defectTaken d sev s).2) := by
  obtain ⟨r, hr, hbare, hnone, hroom⟩ := decided_record (defectEntered d sev s) (s.job.params.stopsOn d.cls sev)
    (s.defectStop (defectBody d sev s)) (defectEntered_mem d sev s) rfl rfl
  rw [defectTaken_ahead hk, defectPlaced_ahead hk]
  have hstays : r ∈ (if defectWeb s d.age + s.geometry.w ≤ s.length.p then
      deliverDue ((defectEntered d sev s).decided (s.job.params.stopsOn d.cls sev) (s.defectStop (defectBody d sev s))).1
      else ((defectEntered d sev s).decided (s.job.params.stopsOn d.cls sev)
        (s.defectStop (defectBody d sev s))).1).queue.records := by
    split
    · cases hcut : s.job.state.isCutOpen with
      | true =>
        have honly := decided_plannerOnly (defectEntered d sev s) (s.job.params.stopsOn d.cls sev)
          (s.defectStop (defectBody d sev s))
        rw [deliverDue, if_pos]
        · exact hr
        · rw [honly.frame]
          exact hcut
      | false =>
        have honly := decided_plannerOnly (defectEntered d sev s) (s.job.params.stopsOn d.cls sev)
          (s.defectStop (defectBody d sev s))
        rw [deliverDue_records (by rw [honly.map_joined]; exact defectEntered_nodup d sev hq) (by rw [honly.frame]; exact hcut)]
        refine List.mem_filter.2 ⟨hr, ?_⟩
        rw [State.dueAtNip, (bare_eq_iff.1 hbare).2.1]
        rfl
    · exact hr
  refine ⟨r, hstays, hbare, hnone, fun hstops hl hquiet => ?_⟩
  rw [hroom hstops hl hquiet, decided_with_room (defectEntered d sev s) _ hstops hl]
  rfl

end Ahead

/-! ## A point past the knife line -/

/-- The record that joins leaves the others as they were when it goes. -/
theorem placeRecord_filter_joined {r : PathRecord} {l : List PathRecord} (h : ∀ x ∈ l, x.joined < r.joined) :
    (placeRecord r l).filter (fun x => decide (x.joined ≠ r.joined)) = l := by
  have hstay (part : List PathRecord) (hpart : part ⊆ l) : part.filter (fun x => decide (x.joined ≠ r.joined)) = part :=
    List.filter_eq_self.2 fun x hx => decide_eq_true (h x (hpart hx)).ne
  rw [placeRecord_eq h, List.filter_append, List.filter_cons_of_neg (by simp), hstay _ (List.takeWhile_subset _),
    hstay _ (List.dropWhile_subset _), List.takeWhile_append_dropWhile]

/-- The part with a record entered that has taken its lanes (R62, R67). -/
def State.enteredSlit (s : State) (body : RecordBody) (range : LaneRange) : State :=
  { s.recordEntered body (some range) with
    queue := { (s.recordEntered body (some range)).queue with changes := (s.queue.changes + 2) % 65536 } }

theorem slitRecord_joined {s : State} (hq : s.QueueSound) (body : RecordBody) (range : LaneRange) :
    slitRecord (s.joining body none) range (s.recordJoined body none) = s.enteredSlit body range := by
  have hkeep (part : List PathRecord) (hpart : part ⊆ s.queue.records) : part.map (fun x =>
      if x.joined = s.queue.nextJoin then { x with slit := some range } else x) = part := by
    conv_rhs => rw [← List.map_id part]
    exact List.map_congr_left fun x hx => if_neg (hq.2.2.2.1 x (hpart hx)).ne
  have hrecords : (s.recordJoined body none).queue.records.map (fun x =>
      if x.joined = s.queue.nextJoin then { x with slit := some range } else x) =
      (s.recordEntered body (some range)).queue.records := by
    rw [recordJoined_eq hq]
    change (List.map _ (s.queue.records.takeWhile _ ++ _ :: s.queue.records.dropWhile _)) = _
    rw [List.map_append, List.map_cons, hkeep _ (List.takeWhile_subset _), hkeep _ (List.dropWhile_subset _), if_pos rfl]
    rfl
  have hchanges : wrap16 (wrap16 s.queue.changes 1) 1 = (s.queue.changes + 2) % 65536 := by
    rw [wrap16, wrap16]
    omega
  rw [slitRecord_eq]
  change ({ s.recordJoined body none with queue := { (s.recordJoined body none).queue with
    records := (s.recordJoined body none).queue.records.map (fun x =>
      if x.joined = s.queue.nextJoin then { x with slit := some range } else x)
    changes := wrap16 (wrap16 s.queue.changes 1) 1 } } : State) = _
  rw [hrecords, hchanges]
  rfl

section Late
variable {d : DefectFields} {sev : Severity} {s : State} (hq : s.QueueSound) (ha : s.AheadOfLines)
  (hk : defectWeb s d.age + s.geometry.k ≤ s.length.p)
include ha

theorem ahead_not_due {r : PathRecord} (hr : r ∈ s.queue.records) : s.dueAtKnives r = false := by
  rw [← Bool.not_eq_true, dueAtKnives_iff]
  exact fun h => absurd h.2 (not_le.2 ((ha r hr).1 h.1))

theorem ahead_not_due_nip (hcut : s.job.state.isCutOpen = false) {r : PathRecord} (hr : r ∈ s.queue.records) :
    s.dueAtNip r = false := dueAtNip_false_iff.2 fun hslit => (ha r hr).2 hslit hcut

include hk

theorem defectEntered_due : (defectEntered d sev s).queue.records.find? (defectEntered d sev s).dueAtKnives =
    some (s.joining (defectBody d sev s) none) := by
  have hdue : s.dueAtKnives (s.joining (defectBody d sev s) none) = true := dueAtKnives_iff.2 ⟨rfl, hk⟩
  obtain ⟨x, hx⟩ := Option.isSome_iff_exists.1 (List.find?_isSome.2 ⟨_, defectEntered_mem d sev s, hdue⟩)
  have hxdue : s.dueAtKnives x = true := List.find?_some (p := s.dueAtKnives) hx
  rcases mem_placeRecord.1 (List.mem_of_find?_eq_some hx) with rfl | hold
  · exact hx
  · rw [ahead_not_due ha hold] at hxdue
    exact absurd hxdue Bool.false_ne_true

include hq

/-- In trim the record is discarded (R50, R62). -/
theorem defectResolved_trim
    (hl : lookupLanes s.plans.active (defectBody d sev s).xs (defectBody d sev s).xe = .trim) :
    defectResolved d sev s = (defectEntered d sev s).trimmedOut (s.joining (defectBody d sev s) none) ∧
      (defectResolved d sev s).queue.records = s.queue.records := by
  have hresolve : resolveRecord (s.joining (defectBody d sev s) none) (defectEntered d sev s) =
      (defectEntered d sev s).trimmedOut (s.joining (defectBody d sev s) none) := by
    rw [resolveRecord_of_trim hl, cancelRecordStop_of_none rfl]
  have hrecords : ((defectEntered d sev s).trimmedOut (s.joining (defectBody d sev s) none)).queue.records = s.queue.records :=
    placeRecord_filter_joined (r := s.joining (defectBody d sev s) none) hq.2.2.2.1
  have hone : defectResolved d sev s = (defectEntered d sev s).trimmedOut (s.joining (defectBody d sev s) none) := by
    rw [defectResolved_eq, if_pos hk, resolveDue_of_one_due (defectEntered_due ha hk), hresolve]
    rw [hresolve, hrecords]
    exact fun x hx => ahead_not_due ha hx
  exact ⟨hone, by rw [hone, hrecords]⟩

variable {range : LaneRange}
  (hl : lookupLanes s.plans.active (defectBody d sev s).xs (defectBody d sev s).xe = .lanes range)
include hl

/-- Otherwise it takes its lanes (R51, R62). -/
theorem defectResolved_lanes : defectResolved d sev s = s.enteredSlit (defectBody d sev s) range := by
  have hresolve : resolveRecord (s.joining (defectBody d sev s) none) (defectEntered d sev s) =
      s.enteredSlit (defectBody d sev s) range := by
    rw [resolveRecord_of_lanes hl]
    exact slitRecord_joined hq _ range
  rw [defectResolved_eq, if_pos hk, resolveDue_of_one_due (defectEntered_due ha hk), hresolve]
  rw [hresolve]
  intro x hx
  have hx' : x ∈ s.queue.records.takeWhile (fun r => decide (r.body.web ≤ (defectBody d sev s).web)) ++
      s.joining (defectBody d sev s) (some range) ::
        s.queue.records.dropWhile (fun r => decide (r.body.web ≤ (defectBody d sev s).web)) := hx
  rcases List.mem_append.1 hx' with hx' | hx'
  · exact ahead_not_due ha (List.takeWhile_subset _ hx')
  · rcases List.mem_cons.1 hx' with rfl | hx'
    · rfl
    · exact ahead_not_due ha (List.dropWhile_subset _ hx')

end Late

/-- The record with its lanes. -/
theorem enteredSlit_records (s : State) (body : RecordBody) (range : LaneRange) (hq : s.QueueSound) :
    (s.enteredSlit body range).queue.records = placeRecord (s.joining body (some range)) s.queue.records :=
  (placeRecord_eq (r := s.joining body (some range)) hq.2.2.2.1).symm

theorem enteredSlit_mem (s : State) (body : RecordBody) (range : LaneRange) :
    s.joining body (some range) ∈ (s.enteredSlit body range).queue.records :=
  List.mem_append_right _ (List.mem_cons_self ..)

/-! ## The delivery of a late defect (R62, R68) -/

section Delivered
variable {s m : State} {body : RecordBody} {range : LaneRange} (hq : s.QueueSound) (ha : s.AheadOfLines)
  (hcut : s.job.state.isCutOpen = false) (hw : body.web + s.geometry.w ≤ s.length.p)
  (hm : PlannerOnly (s.enteredSlit body range) m)

include hm in
theorem plannerOnly_mem_bare {x : PathRecord} (hx : x ∈ m.queue.records) :
    ∃ y ∈ (s.enteredSlit body range).queue.records, y.body = x.body ∧ y.slit = x.slit ∧ y.joined = x.joined := by
  obtain ⟨y, hy, hbare⟩ := hm.mem_of hx
  exact ⟨y, hy, bare_eq_iff.1 hbare⟩

include hq ha hcut hw hm

/-- Past the nip outside a cut the record is the one that is due. -/
theorem late_due_iff {x : PathRecord} (hx : x ∈ m.queue.records) :
    m.dueAtNip x = true ↔ x.joined = s.queue.nextJoin := by
  have hmdue : m.dueAtNip = s.dueAtNip := dueAtNip_congr (by rw [hm.frame]; rfl) (by rw [hm.frame]; rfl)
  obtain ⟨y, hy, hbody, hslit, hjoined⟩ := plannerOnly_mem_bare hm hx
  have hsame : s.dueAtNip x = s.dueAtNip y := by rw [State.dueAtNip, State.dueAtNip, hbody, hslit]
  rw [hmdue, hsame, ← hjoined]
  rw [enteredSlit_records s body range hq] at hy
  rcases mem_placeRecord.1 hy with rfl | hold
  · exact ⟨fun _ => rfl, fun _ => dueAtNip_iff.2 ⟨rfl, hw⟩⟩
  · rw [ahead_not_due_nip ha hcut hold]
    exact ⟨fun h => absurd h Bool.false_ne_true, fun h => absurd h (hq.2.2.2.1 y hold).ne⟩

omit ha hw in
theorem late_nodup : (m.queue.records.map (·.joined)).Nodup ∧ m.job.state.isCutOpen = false := by
  refine ⟨?_, by rw [hm.frame]; exact hcut⟩
  rw [hm.map_joined, enteredSlit_records s body range hq]
  refine ((placeRecord_perm _ _).map (·.joined)).nodup_iff.2 (List.nodup_cons.2 ⟨fun h => ?_, hq.2.2.1⟩)
  obtain ⟨r, hr, hj⟩ := List.mem_map.1 h
  exact (hq.2.2.2.1 r hr).ne hj

/-- It leaves the queue and the others stay. -/
theorem late_delivered_records : (deliverDue m).queue.records =
    m.queue.records.filter (fun r => decide (r.joined ≠ s.queue.nextJoin)) := by
  obtain ⟨hn, hc⟩ := late_nodup hq hcut hm
  rw [deliverDue_records hn hc]
  refine List.filter_congr fun x hx => ?_
  rw [Bool.eq_iff_iff, Bool.not_eq_true', ← Bool.not_eq_true, decide_eq_true_iff, late_due_iff hq ha hcut hw hm hx]

theorem late_delivered_bare : (deliverDue m).queue.records.map PathRecord.bare = s.queue.records.map PathRecord.bare := by
  have hmap := filter_map_bare (p := fun r => decide (r.joined ≠ s.queue.nextJoin)) (fun _ => rfl)
  rw [late_delivered_records hq ha hcut hw hm, ← hmap, hm.records, hmap, enteredSlit_records s body range hq]
  exact congrArg (List.map PathRecord.bare) (placeRecord_filter_joined (r := s.joining body (some range)) hq.2.2.2.1)

/-- The one record that is due. -/
theorem late_due : ∃ r, m.queue.records.filter m.dueAtNip = [r] ∧ r.body = body ∧ r.slit = some range := by
  have hmap := filter_map_bare (p := fun r => decide (r.joined = s.queue.nextJoin)) (fun _ => rfl)
  have hnone (part : List PathRecord) (hpart : part ⊆ s.queue.records) :
      part.filter (fun r => decide (r.joined = s.queue.nextJoin)) = [] :=
    List.filter_eq_nil_iff.2 fun x hx => by simpa using (hq.2.2.2.1 x (hpart hx)).ne
  have hnew : (s.enteredSlit body range).queue.records.filter (fun r => decide (r.joined = s.queue.nextJoin)) =
      [s.joining body (some range)] := by
    rw [enteredSlit_records s body range hq, placeRecord_eq (r := s.joining body (some range)) hq.2.2.2.1,
      List.filter_append, List.filter_cons_of_pos (by simp [State.joining]), hnone _ (List.takeWhile_subset _),
      hnone _ (List.dropWhile_subset _)]
    rfl
  have hbare : (m.queue.records.filter (fun r => decide (r.joined = s.queue.nextJoin))).map PathRecord.bare =
      [(s.joining body (some range)).bare] := by
    rw [← hmap, hm.records, hmap, hnew]
    rfl
  obtain ⟨r, hr, hrbare⟩ := List.map_eq_singleton_iff.1 hbare
  refine ⟨r, ?_, (bare_eq_iff.1 hrbare).1, (bare_eq_iff.1 hrbare).2.1⟩
  rw [← hr]
  refine List.filter_congr fun x hx => ?_
  rw [Bool.eq_iff_iff, decide_eq_true_iff, late_due_iff hq ha hcut hw hm hx]

/-- What the delivery makes of the roll map and of the counters. -/
theorem late_delivered : ∃ r : PathRecord, r.body = body ∧ r.slit = some range ∧ (deliverDue m).roll = (s.handed r).roll ∧
    (deliverDue m).queue.flow = (m.queue.handOver s.roll.windingSet.isSome r).flow := by
  obtain ⟨hn, hc⟩ := late_nodup hq hcut hm
  obtain ⟨r, hdue, hbody, hslit⟩ := late_due hq ha hcut hw hm
  have halike : m.roll = s.roll ∧ m.geometry = s.geometry ∧ m.job = s.job := by
    rw [hm.frame]
    exact ⟨rfl, rfl, rfl⟩
  obtain ⟨hroll, hgeometry, hjob⟩ := halike
  refine ⟨r, hbody, hslit, ?_, ?_⟩
  · rw [deliverDue_eq hn hc, hdue]
    exact handed_roll_congr hroll hgeometry (by rw [hjob]) r
  · rw [deliverDue_eq hn hc, hdue, hroll]
    rfl

end Delivered

/-! ## What R62 makes of a late defect -/

section LateFollows
variable {d : DefectFields} {sev : Severity} {s : State} (hq : s.QueueSound) (ha : s.AheadOfLines)
  (hk : defectWeb s d.age + s.geometry.k ≤ s.length.p) (hn : ∀ r ∈ s.queue.records, r.body.number ≠ s.freshNumber)
include hq ha hk

include hn in
theorem defectTaken_trim (hl : lookupLanes s.plans.active (defectBody d sev s).xs (defectBody d sev s).xe = .trim) :
    defectTaken d sev s = (defectResolved d sev s, 0) := by
  rw [defectTaken, if_neg]
  rw [(defectResolved_trim hq ha hk hl).2, List.any_eq_true]
  rintro ⟨r, hr, hnumber⟩
  exact hn r hr (of_decide_eq_true hnumber)

variable {range : LaneRange}
  (hl : lookupLanes s.plans.active (defectBody d sev s).xs (defectBody d sev s).xe = .lanes range)
include hl

theorem defectTaken_lanes : defectTaken d sev s =
    (if defectWeb s d.age + s.geometry.w ≤ s.length.p then deliverDue (defectPlaced d sev s).1 else (defectPlaced d sev s).1,
      (defectPlaced d sev s).2.getD 0) := by
  have hany : (defectResolved d sev s).queue.records.any (fun r => decide (r.body.number = s.freshNumber)) = true := by
    rw [defectResolved_lanes hq ha hk hl]
    exact List.any_eq_true.2 ⟨_, enteredSlit_mem s _ range, decide_eq_true rfl⟩
  rw [defectTaken, if_pos hany]

theorem defectPlaced_lanes : defectPlaced d sev s = (s.enteredSlit (defectBody d sev s) range).decided
    (s.job.params.stopsOn d.cls sev) (s.defectStop (defectBody d sev s)) := by
  rw [defectPlaced_eq, defectResolved_lanes hq ha hk hl]

theorem defectPlaced_late_only : PlannerOnly (s.enteredSlit (defectBody d sev s) range) (defectPlaced d sev s).1 := by
  rw [defectPlaced_lanes hq ha hk hl]
  exact decided_plannerOnly _ _ _

/-- Ahead of the nip, and in a cut, nothing is delivered. -/
theorem defectTaken_stays (h : s.job.state.isCutOpen = true ∨ (s.length.p : Int) < (defectBody d sev s).web + s.geometry.w) :
    (defectTaken d sev s).1 = (defectPlaced d sev s).1 := by
  have hcut : (defectPlaced d sev s).1.job.state.isCutOpen = s.job.state.isCutOpen := by
    rw [(defectPlaced_late_only hq ha hk hl).frame]
    rfl
  rw [defectTaken_lanes hq ha hk hl]
  dsimp only
  split
  next hw =>
    have hopen := h.resolve_right (not_lt.2 hw)
    rw [deliverDue, if_pos (hcut.trans hopen)]
  next => rfl

theorem defectTaken_delivered (hw : (defectBody d sev s).web + s.geometry.w ≤ s.length.p) :
    (defectTaken d sev s).1 = deliverDue (defectPlaced d sev s).1 := by
  rw [defectTaken_lanes hq ha hk hl]
  exact if_pos hw

theorem defectTaken_late_stops : (defectTaken d sev s).1.stops = (defectPlaced d sev s).1.stops := by
  rw [defectTaken_lanes hq ha hk hl]
  dsimp only
  split
  · exact (deliverDue_frame _).2.2.2.2.2.2.2.2.1
  · rfl

end LateFollows

theorem deliverDue_pendsAs {k : EventKind} (hd : k ≠ .defectDropped) (hh : k ≠ .laneHold) (s : State) :
    (deliverDue s).PendsAs k s := by
  refine deliverDue_induction (C := fun u => u.PendsAs k s) (.refl s k) fun u r hu _ hdue => ?_
  obtain ⟨ks, hks, halerts⟩ := handed_posts r u
  refine (State.PendsAs.of_posts_without (ks := ks) ?_ fun hmem => ?_).trans hu
  · rw [deliverRecord_eq (dueAtNip_slit hdue)]
    exact halerts
  · exact (hks k hmem).elim hd hh

/-- The part at the end of a late intake is what R62 makes of it, whatever its ports. -/
theorem defectTaken_late {d : DefectFields} {sev : Severity} {s : State} (hq : s.QueueSound) (ha : s.AheadOfLines)
    (hk : defectWeb s d.age + s.geometry.k ≤ s.length.p) (hn : ∀ r ∈ s.queue.records, r.body.number ≠ s.freshNumber)
    (ports : ByPort PortRegs) :
    LateDefectFollows (defectBody d sev s) (s.job.params.stopsOn d.cls sev = true) (defectTaken d sev s).2 s
      { (defectTaken d sev s).1 with ports := ports } := by
  unfold LateDefectFollows
  intro taken places
  refine ⟨fun hl => ?_, fun range hl => ?_⟩
  · rw [defectTaken_trim hq ha hk hn hl]
    refine ⟨rfl, (defectResolved_trim hq ha hk hl).2, ?_⟩
    rw [(defectResolved_trim hq ha hk hl).1]
    exact ⟨rfl, rfl, rfl⟩
  · have hplaced := defectPlaced_lanes hq ha hk hl
    have honly := defectPlaced_late_only hq ha hk hl
    have hstops := defectTaken_late_stops hq ha hk hl
    have hid : (defectTaken d sev s).2 = (defectPlaced d sev s).2.getD 0 := by rw [defectTaken_lanes hq ha hk hl]
    refine ⟨fun hs => ?_, fun hon hlen => ⟨?_, fun hquiet => ?_⟩, fun hstays => ?_, fun hcut hw => ?_⟩
    · intro u
      refine ⟨(defectPlaced d sev s).1, (defectPlaced d sev s).2, ?_, hid, fun hstays => ?_, fun hcut hw => ?_⟩
      · rw [hplaced]
        exact decided_stopDecided (s.enteredSlit (defectBody d sev s) range) _ _ hs
      · rw [defectTaken_stays hq ha hk hl hstays]
      · refine ⟨hstops, ?_, fun _ k hkind => ?_⟩
        · rw [defectTaken_delivered hq ha hk hl hw]
          exact late_delivered_records hq ha hcut hw honly
        · rw [defectTaken_delivered hq ha hk hl hw]
          exact deliverDue_pendsAs (ne_of_mem_of_not_mem hkind (by decide)) (ne_of_mem_of_not_mem hkind (by decide)) _
    · rw [hid, hplaced, decided_with_room (s.enteredSlit (defectBody d sev s) range) _ hon hlen]
      rfl
    · change ∃ e ∈ (defectTaken d sev s).1.stops.entries, _
      rw [hid, hstops, hplaced]
      obtain ⟨e, he, heid, hkind, horigin, href, hweb, hstation, htarget, -⟩ :=
        decided_entry (s.enteredSlit (defectBody d sev s) range) (s.defectStop (defectBody d sev s)) hon hlen hquiet
      refine ⟨e, he, ?_, hkind, horigin, href, hweb, hstation, htarget⟩
      rw [heid, decided_with_room (s.enteredSlit (defectBody d sev s) range) _ hon hlen]
      rfl
    · rw [defectTaken_stays hq ha hk hl hstays, hid]
      refine ⟨by rw [honly.frame]; rfl, ?_, ?_⟩
      · change (defectPlaced d sev s).1.queue.flow = _
        rw [honly.queue]
        rfl
      · obtain ⟨r, hr, hbare, hnone, hroom⟩ := decided_record (s.enteredSlit (defectBody d sev s) range)
          (s.job.params.stopsOn d.cls sev) (s.defectStop (defectBody d sev s)) (enteredSlit_mem s _ range) rfl rfl
        obtain ⟨hbody, hslit, -⟩ := bare_eq_iff.1 hbare
        refine ⟨r, hplaced ▸ hr, hbody, hslit, hnone, fun hon hlen hquiet => ?_⟩
        rw [hroom hon hlen hquiet, hplaced, decided_with_room (s.enteredSlit (defectBody d sev s) range) _ hon hlen]
        rfl
    · have hbare := late_delivered_bare hq ha hcut hw honly
      obtain ⟨r, hbody, hslit, hroll, hflow⟩ := late_delivered hq ha hcut hw honly
      refine ⟨?_, ?_⟩
      · have := congrArg (List.map (fun r : PathRecord => (r.body, r.slit, r.joined))) hbare
        rw [List.map_map, List.map_map, ← defectTaken_delivered hq ha hk hl hw] at this
        exact this.symm
      rw [defectTaken_delivered hq ha hk hl hw]
      refine ⟨fun set hset => ?_, fun hset => ?_⟩
      · rw [hset, honly.queue] at hflow
        rw [handed_of_winding hslit hset, hbody] at hroll
        exact ⟨hroll, hflow⟩
      · rw [hset, honly.queue] at hflow
        rw [handed_of_none hset] at hroll
        exact ⟨hroll, hflow⟩

/-! ## The request (R58, R60) -/

section Request
variable {d : DefectFields} {s : State}

/-- The checks of R58 in terms of the fields. -/
theorem takeDefect_outOfRange (hj : s.job.state ≠ .noJob)
    (h : ¬ ((1 ≤ d.severity ∧ d.severity ≤ 3) ∧ defectInRange d = true)) : takeDefect d s = s.refuse .outOfRange := by
  rw [takeDefect, if_neg hj]
  cases hsev : severity? d.severity with
  | none => rfl
  | some sev =>
    have hrange : defectInRange d = false := by
      rw [← Bool.not_eq_true]
      exact fun hr => h ⟨exists_severity.1 ⟨sev, hsev⟩, hr⟩
    exact if_pos hrange

variable {sev : Severity} (hj : s.job.state ≠ .noJob) (hsev : severity? d.severity = some sev) (hr : defectInRange d = true)
include hj hsev hr

theorem takeDefect_inRange : takeDefect d s =
    if s.tagLive d.tag then s.refuse .duplicate
    else if s.queue.full then (queueFull s, .refused .listFull) else intakeDefect d sev s := by
  rw [takeDefect, if_neg hj, hsev]
  exact if_neg (by rw [hr]; exact Bool.false_ne_true.symm)

theorem takeDefect_duplicate (ht : s.HoldsTag d.tag) : takeDefect d s = s.refuse .duplicate := by
  rw [takeDefect_inRange hj hsev hr, if_pos ((tagLive_iff s d.tag).2 ht)]

theorem takeDefect_full (ht : ¬ s.HoldsTag d.tag) (hf : 64 ≤ s.queue.records.length) :
    takeDefect d s = (queueFull s, .refused .listFull) := by
  rw [takeDefect_inRange hj hsev hr, if_neg fun h => ht ((tagLive_iff s d.tag).1 h), if_pos (PathQueue.full_iff.2 hf)]

theorem takeDefect_taken (ht : ¬ s.HoldsTag d.tag) (hf : s.queue.records.length < 64) :
    takeDefect d s = ((defectTaken d sev s).1, .done (fieldU 2 s.freshNumber ++ fieldU 1 (defectTaken d sev s).2)) := by
  rw [takeDefect_inRange hj hsev hr, if_neg fun h => ht ((tagLive_iff s d.tag).1 h),
    if_neg fun h => absurd (PathQueue.full_iff.1 h) (not_le.2 hf), intakeDefect_taken]

end Request

/-- Settles O24: the checks in order, then the intake by the place of the point. -/
theorem defectIsCheckedAndTaken : Obligations.DefectIsCheckedAndTaken := by
  intro p d s ht ok p0 web stops
  have hok : ok ↔ (1 ≤ d.severity ∧ d.severity ≤ 3) ∧ defectInRange d = true := by
    rw [defectInRange_iff]
    simp only [ok]
    tauto
  have hstops (sev : Severity) (hsev : sev.rank = d.severity) : stops = (s.job.params.stopsOn d.cls sev = true) := by
    rw [propext (stopsOn_iff s.job.params d.cls sev), hsev]
  refine ⟨fun hj => ?_, fun hj h => ?_, fun hj h htag => ?_, fun hj h htag hf => ?_, freshNumber_firstFree,
    fun sev hj h htag hf hsev hq hs hk hw => ?_, fun hj h htag hf => ?_⟩
  · exact exec_eq_replied rfl rfl ht (if_pos hj)
  · exact exec_eq_replied rfl rfl ht (takeDefect_outOfRange hj fun hr => h (hok.2 hr))
  · obtain ⟨hcode, hr⟩ := hok.1 h
    obtain ⟨sev, hsev⟩ := exists_severity.2 hcode
    exact exec_eq_replied rfl rfl ht (takeDefect_duplicate hj hsev hr htag)
  · obtain ⟨hcode, hr⟩ := hok.1 h
    obtain ⟨sev, hsev⟩ := exists_severity.2 hcode
    exact exec_eq_replied rfl rfl ht (takeDefect_full hj hsev hr htag hf)
  · intro body
    have htaken := takeDefect_taken hj (severity?_eq_some_iff.2 hsev) (hok.1 h).2 htag hf
    rw [defectTaken_ahead hk, if_neg (c := defectWeb s d.age + s.geometry.w ≤ s.length.p) (not_le.2 hw),
      defectPlaced_ahead hk] at htaken
    refine ⟨((defectEntered d sev s).decided (s.job.params.stopsOn d.cls sev) (s.defectStop (defectBody d sev s))).1,
      ((defectEntered d sev s).decided (s.job.params.stopsOn d.cls sev) (s.defectStop (defectBody d sev s))).2, ?_,
      exec_eq_replied rfl rfl ht htaken⟩
    rw [← recordJoined_eq hq, hstops sev hsev]
    exact decided_stopDecided (defectEntered d sev s) _ _ hs
  · obtain ⟨hcode, hr⟩ := hok.1 h
    obtain ⟨sev, hsev⟩ := exists_severity.2 hcode
    have hrank := severity?_eq_some_iff.1 hsev
    have hintake := defectTaken_intakeOnly d sev s
    have hframe : (defectTaken d sev s).1 = { s with
        queue := (defectTaken d sev s).1.queue, roll := (defectTaken d sev s).1.roll,
        stops := (defectTaken d sev s).1.stops, alerts := (defectTaken d sev s).1.alerts } := by
      rw [hintake.frame]
      rfl
    rw [hstops sev hrank]
    refine ⟨_, (defectTaken d sev s).2, exec_eq_replied rfl rfl ht (takeDefect_taken hj hsev hr htag hf), ?_, hintake.taken,
      defectTaken_of_not_stops d sev s, fun hq hk => ?_, fun sev' hsev' hq ha hk hn => ?_,
      fun hk r hr hw => defectTaken_none_due d sev s hk hr hw, fun hon hk hlen => ⟨?_, fun hmoving => ?_⟩, ?_⟩
    · exact State.replied_port (by rw [hframe]) p _ _ _
    · obtain ⟨r, hrec, hbare, hnone, hroom⟩ := defectTaken_ahead_record hk hq
      obtain ⟨hbody, hslit, -⟩ := (bare_eq_iff (b := s.joining (defectBody d sev s) none)).1 hbare
      exact ⟨r, hrec, sev, hrank, hslit, hbody, hnone, hroom⟩
    · obtain rfl := Severity.rank_injective (hsev'.trans hrank.symm)
      exact defectTaken_late hq ha hk hn _
    · rw [defectTaken_ahead hk, defectPlaced_ahead hk, decided_with_room (defectEntered d sev s) _ hon hlen]
      rfl
    · change ∃ e ∈ (defectTaken d sev s).1.stops.entries, _
      rw [defectTaken_ahead_stops hk, defectTaken_ahead hk, defectPlaced_ahead hk]
      obtain ⟨e, he, heid, hkind, -, href, hweb, hstation, htarget, -⟩ :=
        decided_entry (defectEntered d sev s) (s.defectStop (defectBody d sev s)) hon hlen (.inl hmoving)
      refine ⟨e, he, ?_, hkind, href, hweb, hstation, htarget⟩
      rw [heid, decided_with_room (defectEntered d sev s) _ hon hlen]
      rfl
    · generalize (defectTaken d sev s).1 = t at hframe ⊢
      rw [hframe]
      exact ⟨rfl, rfl, rfl, rfl, rfl, rfl, rfl, rfl, rfl, rfl, rfl, fun q hq => State.replied_port_other rfl hq _ _ _⟩

end Sys2Proof.Machine
end

