-- ==== Sys2Proof/Proofs/PlannerSteps.lean ====
section
/-! SUPPORT. What the stop planner does depends on its list, the queue, the monitor, P and the cut state alone: two parts that agree in
these take the same step (R137 to R151). -/

namespace Sys2Proof.Machine

/-- Two parts agree in what the planner reads. -/
structure SameView (u v : State) : Prop where
  stops : v.stops = u.stops
  queue : v.queue = u.queue
  motion : v.motion = u.motion
  p : v.length.p = u.length.p
  cut : v.job.state.isCutOpen = u.job.state.isCutOpen

/-- A part after a step of the planner: a list, a queue and events. -/
def State.planned (u : State) (pl : StopPlanner) (q : PathQueue) (ks : List EventKind) : State :=
  { u with stops := pl, queue := q, alerts := (u.postAll ks).alerts }

theorem State.planned_planned (u : State) (pl pl' : StopPlanner) (q q' : PathQueue) (ks ks' : List EventKind) :
    (u.planned pl q ks).planned pl' q' ks' = u.planned pl' q' (ks ++ ks') := by
  have halerts := State.postAll_alerts_congr (s := u.planned pl q ks) (t := u.postAll ks) rfl ks'
  rw [← State.postAll_append] at halerts
  rw [State.planned, halerts]
  rfl

/-- Both parts have taken the same step: one list, one queue, the same events. -/
def SameStep (u v u' v' : State) : Prop :=
  ∃ (pl : StopPlanner) (q : PathQueue) (ks : List EventKind), u' = u.planned pl q ks ∧ v' = v.planned pl q ks

namespace SameStep

variable {u v u' v' : State}

theorem sameView (h : SameStep u v u' v') (hv : SameView u v) : SameView u' v' := by
  obtain ⟨pl, q, ks, rfl, rfl⟩ := h
  exact ⟨rfl, rfl, hv.motion, hv.p, hv.cut⟩

theorem trans (h : SameStep u v u' v') {u'' v'' : State} (g : SameStep u' v' u'' v'') : SameStep u v u'' v'' := by
  obtain ⟨pl, q, ks, rfl, rfl⟩ := h
  obtain ⟨pl', q', ks', rfl, rfl⟩ := g
  exact ⟨pl', q', ks ++ ks', u.planned_planned .., v.planned_planned ..⟩

theorem of_both {pl : StopPlanner} {q : PathQueue} {ks : List EventKind}
    (hu : u' = { u with stops := pl, queue := q, alerts := (u.postAll ks).alerts })
    (hv : v' = { v with stops := pl, queue := q, alerts := (v.postAll ks).alerts }) : SameStep u v u' v' := ⟨pl, q, ks, hu, hv⟩

/-- The planner's events are alike after a step from parts in which they were. -/
theorem pendsAs (h : SameStep u v u' v') {k : EventKind} (hk : v.PendsAs k u) (hu : u.AlertsSound) (hv : v.AlertsSound) :
    v'.PendsAs k u' := by
  obtain ⟨pl, q, ks, rfl, rfl⟩ := h
  exact hk.postAll hv hu ks

theorem alertsSound (h : SameStep u v u' v') (hu : u.AlertsSound) (hv : v.AlertsSound) : u'.AlertsSound ∧ v'.AlertsSound := by
  obtain ⟨pl, q, ks, rfl, rfl⟩ := h
  exact ⟨(hu.postAll ks).congr rfl, (hv.postAll ks).congr rfl⟩

end SameStep

namespace SameView

variable {u v : State} (h : SameView u v)
include h

theorem same : SameStep u v u v :=
  ⟨u.stops, u.queue, [], rfl, by rw [← h.stops, ← h.queue]; rfl⟩

theorem post (k : EventKind) : SameStep u v (u.post k) (v.post k) :=
  ⟨u.stops, u.queue, [k], rfl, by rw [← h.stops, ← h.queue]; rfl⟩

theorem postIf (c : Bool) (k : EventKind) : SameStep u v (u.postIf c k) (v.postIf c k) := by
  cases c
  · exact h.same
  · exact h.post k

theorem remaining_eq (e : StopEntry) : v.remaining e = u.remaining e :=
  congrArg (fun p : Nat => e.target - (p : Int)) h.p

theorem activated_eq (e : StopEntry) : v.activated e = u.activated e := by
  rw [State.activated, State.activated, h.motion, h.remaining_eq]

theorem stopRemoved (e : StopEntry) : SameStep u v (u.stopRemoved e) (v.stopRemoved e) :=
  ⟨(u.stopRemoved e).stops, (u.stopRemoved e).queue, [], rfl, by
    rw [State.stopRemoved, State.stopRemoved, h.stops, h.queue]
    rfl⟩

theorem stopPlaced (o : StopOffer) : SameStep u v (u.stopPlaced o) (v.stopPlaced o) :=
  ⟨(u.stopPlaced o).stops, (u.stopPlaced o).queue, [], rfl, by
    rw [State.stopPlaced, State.stopPlaced, h.stops, h.queue]
    rfl⟩

theorem activateStop (e : StopEntry) : SameStep u v (activateStop e u) (activateStop e v) := by
  have hposts : v.activationPosts e = u.activationPosts e := by
    rw [State.activationPosts, State.activationPosts, h.motion, h.remaining_eq]
  refine .of_both (q := u.queue) (activateStop_eq e u) ?_
  rw [activateStop_eq, h.activated_eq, hposts, h.stops, ← h.queue]

theorem overrunTest (e : StopEntry) : SameStep u v (overrunTest e u) (overrunTest e v) := by
  have hp : v.p = u.p := h.p
  unfold Machine.overrunTest
  rw [h.motion, hp]
  split
  · refine ⟨StopPlanner.changed { u.stops with entries := replaceStop { e with overrun := true } u.stops.entries } 1, u.queue,
      [.stopOverrun], rfl, ?_⟩
    rw [h.stops, ← h.queue]
    rfl
  · exact h.same

theorem completeStop (e : StopEntry) (late : Bool) (shortfall : Nat) :
    SameStep u v (completeStop e late shortfall u) (completeStop e late shortfall v) := by
  have hp : v.p = u.p := h.p
  refine .of_both (ks := [.stopReached]) (completeStop_eq e late shortfall u) ?_
  rw [completeStop_eq, State.stopRecord, State.stopRecord, h.motion, hp, h.stops, h.queue]
  rfl

theorem inReach_eq : v.inReach = u.inReach := by
  have hp : v.p = u.p := h.p
  funext e
  rw [State.inReach, State.inReach, h.motion, hp]

theorem activates_eq (e : StopEntry) : v.activates e = u.activates e := by
  rw [State.activates, State.activates, h.motion, h.remaining_eq]

theorem sweepStops (fuel : Nat) : SameStep u v (sweepStops fuel u) (sweepStops fuel v) := by
  induction fuel generalizing u v with
  | zero => exact h.same
  | succ n ih =>
    unfold Machine.sweepStops
    rw [h.stops, h.inReach_eq]
    split
    · exact h.same
    next e _ =>
      have hone := h.completeStop e false 0
      exact hone.trans (ih (hone.sameView h))

theorem completeAndSweep (e : StopEntry) : SameStep u v (completeAndSweep e u) (completeAndSweep e v) := by
  have hone := h.completeStop e e.late e.shortfall
  unfold Machine.completeAndSweep
  rw [h.stops]
  exact hone.trans ((hone.sameView h).sweepStops _)

theorem evaluatePasses (fuel : Nat) : SameStep u v (evaluatePasses fuel u) (evaluatePasses fuel v) := by
  induction fuel generalizing u v with
  | zero => exact h.same
  | succ n ih =>
    unfold Machine.evaluatePasses
    rw [h.stops, h.motion]
    split
    next e _ =>
      split
      · exact (h.completeAndSweep e).trans (ih ((h.completeAndSweep e).sameView h))
      · exact h.overrunTest e
    next =>
      split
      next => exact h.same
      next e _ =>
        rw [h.activates_eq, h.activated_eq]
        have hone := h.activateStop e
        have htwo := hone.trans ((hone.sameView h).completeAndSweep (u.activated e))
        split
        · split
          · exact htwo.trans (ih (htwo.sameView h))
          · exact hone
        · exact h.same

theorem evaluate : SameStep u v (evaluate u) (evaluate v) := by
  unfold Machine.evaluate
  rw [h.cut, h.stops]
  split
  · exact h.same
  · exact h.evaluatePasses _

theorem insertStop (o : StopOffer) : SameStep u v (insertStop o u).1 (insertStop o v).1 := by
  rw [insertStop_placed, insertStop_placed]
  exact (h.stopPlaced o).trans ((h.stopPlaced o).sameView h).evaluate

theorem offerStop (o : StopOffer) : SameStep u v (offerStop o u).1 (offerStop o v).1 ∧
    (Machine.offerStop o v).2 = (Machine.offerStop o u).2 := by
  unfold Machine.offerStop
  rw [h.stops]
  split
  · refine ⟨h.insertStop o, ?_⟩
    rw [insertStop_placed, insertStop_placed, h.stops]
  · split
    next e _ =>
      have hgone := (h.stopRemoved e).trans (((h.stopRemoved e).sameView h).post .stopDropped)
      have hevicted := hgone.trans (hgone.sameView h).evaluate
      rw [removeStop_eq, removeStop_eq]
      refine ⟨hevicted.trans ((hevicted.sameView h).insertStop o), ?_⟩
      rw [insertStop_placed, insertStop_placed, (hevicted.sameView h).stops]
    next => exact ⟨h.postIf _ _, rfl⟩

theorem cancelStopId (id : Nat) : SameStep u v (cancelStopId id u) (cancelStopId id v) := by
  unfold Machine.cancelStopId
  rw [h.stops]
  split
  · exact h.same
  next e _ =>
    rw [removeStop_eq, removeStop_eq]
    exact (h.stopRemoved e).trans ((h.stopRemoved e).sameView h).evaluate

theorem cancelRecordStop (r : PathRecord) : SameStep u v (cancelRecordStop r u) (cancelRecordStop r v) := by
  unfold Machine.cancelRecordStop
  split
  · exact h.same
  · exact h.cancelStopId _

end SameView

/-! ## The events of an offer (R140, R141) -/

section Offer
variable (o : StopOffer) (s : State)

theorem insertStop_pendsAs {k : EventKind} (hk : k ∉ evaluationPosts) : (insertStop o s).1.PendsAs k s := by
  rw [insertStop_placed]
  exact (evaluate_pendsAs hk _).trans (.of_alerts rfl k)

theorem evaluationPosts_subset : evaluationPosts ⊆ stopPosts := by decide

/-- An offer posts nothing but the planner's events. -/
theorem offerStop_pendsAs {k : EventKind} (hk : k ∉ stopPosts) : (offerStop o s).1.PendsAs k s := by
  have hev : k ∉ evaluationPosts := fun h => hk (evaluationPosts_subset h)
  have hne : k ≠ .stopDropped := fun h => hk (h ▸ by decide)
  unfold offerStop
  split
  · exact insertStop_pendsAs o s hev
  · split
    next v _ =>
      rw [removeStop_eq]
      exact ((insertStop_pendsAs o _ hev).trans (evaluate_pendsAs hev _)).trans
        ((State.pendsAs_post_other hne.symm _).trans (.of_alerts rfl k))
    next =>
      unfold State.postIf
      split
      · exact State.pendsAs_post_other hne.symm s
      · exact .refl s k

/-- An offer of the machine's own to a full list posts STOP-DROPPED once, evicting or refused (R141). -/
theorem offerStop_pendsAs_dropped (ho : o.origin = .internal) : (offerStop o s).1.PendsAs .stopDropped
    (s.postTimes (if 16 ≤ s.stops.entries.length then 1 else 0) .stopDropped) := by
  have hev : EventKind.stopDropped ∉ evaluationPosts := by decide
  unfold offerStop
  split
  next hroom =>
    rw [if_neg (not_le.2 hroom)]
    exact insertStop_pendsAs o s hev
  next hfull =>
    rw [if_pos (not_lt.1 hfull)]
    split
    next v _ =>
      rw [removeStop_eq]
      exact ((insertStop_pendsAs o _ hev).trans (evaluate_pendsAs hev _)).trans (.of_alerts rfl _)
    next =>
      rw [State.postIf, if_pos (decide_eq_true ho)]
      exact .refl _ _

end Offer

/-! ## At standstill -/

/-- An entry beyond the reach of P. -/
def State.beyondReach (s : State) (e : StopEntry) : Prop :=
  e.active = false ∧ (s.length.p : Int) + s.motion.settings.tolerance < e.target

theorem StopPlanner.HoldsOnce.filter {pl pl' : StopPlanner} {x : StopEntry} (hx : pl.HoldsOnce x) {p : StopEntry → Bool}
    (hp : p x = true) (h : pl'.entries = pl.entries.filter p) : pl'.HoldsOnce x := by
  refine ⟨by rw [h]; exact List.mem_filter.2 ⟨hx.1, hp⟩, fun y hy => hx.2 y ?_⟩
  rw [h] at hy
  exact (List.mem_filter.1 hy).1

section Beyond
variable {s : State} {x : StopEntry} (hx : s.stops.HoldsOnce x)
include hx

theorem completeStop_holdsOnce {e : StopEntry} (he : e.id ≠ x.id) (late : Bool) (shortfall : Nat) :
    (completeStop e late shortfall s).stops.HoldsOnce x := by
  rw [completeStop_eq]
  exact hx.filter (p := fun y => decide (y.id ≠ e.id)) (decide_eq_true he.symm) rfl

theorem sweepStops_holdsOnce (hb : s.beyondReach x) (fuel : Nat) : (sweepStops fuel s).stops.HoldsOnce x := by
  induction fuel generalizing s with
  | zero => exact hx
  | succ n ih =>
    unfold sweepStops
    split
    · exact hx
    next e he =>
      have hreach := List.find?_some he
      have hid : e.id ≠ x.id := fun hid => by
        rw [hx.2 e (List.mem_of_find?_eq_some he) hid, State.inReach, Bool.and_eq_true, decide_eq_true_iff] at hreach
        exact absurd hreach.2 (not_le.2 hb.2)
      refine ih (completeStop_holdsOnce hx hid false 0) ?_
      rw [completeStop_eq]
      exact hb

theorem completeAndSweep_holdsOnce (hb : s.beyondReach x) {e : StopEntry} (he : e.id ≠ x.id) :
    (completeAndSweep e s).stops.HoldsOnce x := by
  refine sweepStops_holdsOnce (completeStop_holdsOnce hx he _ _) ?_ _
  rw [completeStop_eq]
  exact hb

theorem activateStop_holdsOnce {e : StopEntry} (he : e.id ≠ x.id) : (activateStop e s).stops.HoldsOnce x := by
  rw [activateStop_eq]
  refine ⟨List.mem_map.2 ⟨x, hx.1, if_neg (Ne.symm he)⟩, fun y hy hid => ?_⟩
  obtain ⟨z, hz, rfl⟩ := List.mem_map.1 hy
  by_cases hze : z.id = (s.activated e).id
  · rw [if_pos hze] at hid
    exact absurd hid he
  · rw [if_neg hze] at hid ⊢
    exact hx.2 z hz hid

/-- At standstill with no braking distance an evaluation leaves an entry beyond reach WAITING in the list. -/
theorem evaluate_beyondReach (hb : s.beyondReach x) (hstill : s.motion.standstill = true) (hbraking : s.motion.braking = 0) :
    (evaluate s).stops.HoldsOnce x := by
  have hpasses (fuel : Nat) {u : State} (hu : u.stops.HoldsOnce x) (hbu : u.beyondReach x) (hm : u.motion = s.motion) :
      (evaluatePasses fuel u).stops.HoldsOnce x := by
    induction fuel generalizing u with
    | zero => exact hu
    | succ n ih =>
      unfold evaluatePasses
      split
      next e he =>
        have hid : e.id ≠ x.id := fun hid => by
          have hactive : e.active = true := by simpa using List.find?_some he
          rw [hu.2 e (List.mem_of_find?_eq_some he) hid, hbu.1] at hactive
          exact Bool.false_ne_true hactive
        obtain ⟨-, -, -, hl, -, hmot, -⟩ := completeAndSweep_frame e u
        rw [if_pos (by rw [hm]; exact hstill)]
        exact ih (completeAndSweep_holdsOnce hu hbu hid) (by rw [State.beyondReach, hl, hmot]; exact hbu) (hmot.trans hm)
      next =>
        split
        · exact hu
        next e he =>
          split
          next hact =>
            have hid : e.id ≠ x.id := fun hid => by
              rw [hu.2 e (List.mem_of_head? he) hid, State.activates, decide_eq_true_iff, State.remaining, hm, hbraking] at hact
              have := hbu.2
              simp only [State.p] at hact
              omega
            have hactivated := activateStop_holdsOnce hu hid
            have hbact : (activateStop e u).beyondReach x := by
              rw [activateStop_eq]
              exact hbu
            have hmact : (activateStop e u).motion = s.motion := by
              rw [activateStop_eq]
              exact hm
            obtain ⟨-, -, -, hl, -, hmot, -⟩ := completeAndSweep_frame (u.activated e) (activateStop e u)
            rw [if_pos (by rw [hm]; exact hstill)]
            exact ih (completeAndSweep_holdsOnce hactivated hbact (e := u.activated e) hid)
              (by rw [State.beyondReach, hl, hmot]; exact hbact) (hmot.trans hmact)
          next => exact hu
  unfold evaluate
  split
  · exact hx
  · exact hpasses _ hx hb rfl

end Beyond

end Sys2Proof.Machine
end

