-- ==== Sys2Proof/Proofs/SetStarts.lean ====
section
/-! PROOFS. SET-START (R46, R82, R83, R138, R164, R165): the slot of a new set, its record, the SET-END entry and the events. -/

namespace Sys2Proof.Machine

/-! ## The slot of a new set (R82) -/

/-- The slot holds a released set. -/
def Slot.isReleased : Slot → Bool
  | .released _ => true
  | _ => false

theorem chooseSlot_eq (m : RollMap) : m.chooseSlot =
    match m.slots.toList.findIdx? (fun x => decide (x = .empty)) with
    | some i => (i + 1, false)
    | none =>
      match m.closeList.find? (fun n => (m.slot n).isReleased) with
      | some n => (n, false)
      | none => (m.closeList.headD 1, true) := rfl

theorem slots_getElem? (m : RollMap) {n : Nat} (hn : n ∈ [1, 2, 3, 4]) : m.slots.toList[n - 1]? = some (m.slot n) := by
  rw [m.slots_toList]
  simp only [List.mem_cons, List.not_mem_nil, or_false] at hn
  rcases hn with rfl | rfl | rfl | rfl <;> rfl

theorem mem_slots {m : RollMap} {x : Slot} (h : x ∈ m.slots.toList) : ∃ n ∈ [1, 2, 3, 4], m.slot n = x := by
  rw [m.slots_toList] at h
  simp only [List.mem_cons, List.not_mem_nil, or_false] at h
  rcases h with rfl | rfl | rfl | rfl
  · exact ⟨1, by simp, rfl⟩
  · exact ⟨2, by simp, rfl⟩
  · exact ⟨3, by simp, rfl⟩
  · exact ⟨4, by simp, rfl⟩

theorem slot_mem_slots (m : RollMap) {n : Nat} (hn : n ∈ [1, 2, 3, 4]) : m.slot n ∈ m.slots.toList :=
  List.mem_of_getElem? (slots_getElem? m hn)

/-- The lowest-numbered slot without a record is chosen, if there is one. -/
theorem chooseSlot_of_empty {m : RollMap} {n : Nat} (hn : n ∈ [1, 2, 3, 4]) (he : m.slot n = .empty)
    (hfirst : ∀ i ∈ [1, 2, 3, 4], i < n → m.slot i ≠ .empty) : m.chooseSlot = (n, false) := by
  have hrange : 1 ≤ n ∧ n ≤ 4 := by
    simp only [List.mem_cons, List.not_mem_nil, or_false] at hn
    omega
  have hat (k : Nat) (hk : k < m.slots.toList.length) : m.slots.toList[k] = m.slot (k + 1) := by
    have hk4 : k < 4 := by simpa using hk
    refine Option.some.inj ((List.getElem?_eq_getElem hk).symm.trans (slots_getElem? m (n := k + 1) ?_))
    simp only [List.mem_cons, List.not_mem_nil, or_false]
    omega
  have hidx : m.slots.toList.findIdx? (fun x => decide (x = .empty)) = some (n - 1) := by
    refine List.findIdx?_eq_some_iff_getElem.2 ⟨by simp; omega, ?_, fun j hj => ?_⟩
    · rw [hat, show n - 1 + 1 = n by omega, he]
      rfl
    · rw [hat, decide_eq_true_iff]
      refine hfirst (j + 1) ?_ (by omega)
      simp only [List.mem_cons, List.not_mem_nil, or_false]
      omega
  rw [chooseSlot_eq, hidx]
  simp only [Prod.mk.injEq, and_true]
  omega

theorem findIdx?_of_no_empty {m : RollMap} (h : ∀ n ∈ [1, 2, 3, 4], m.slot n ≠ .empty) :
    m.slots.toList.findIdx? (fun x => decide (x = .empty)) = none := by
  rw [List.findIdx?_eq_none_iff]
  intro x hx
  obtain ⟨n, hn, rfl⟩ := mem_slots hx
  exact decide_eq_false (h n hn)

/-- Else the released set closed longest ago gives up its slot. -/
theorem chooseSlot_of_released {m : RollMap} (h : ∀ n ∈ [1, 2, 3, 4], m.slot n ≠ .empty) {n : Nat}
    (hn : m.closeList.find? (fun n => (m.slot n).isReleased) = some n) : m.chooseSlot = (n, false) := by
  rw [chooseSlot_eq, findIdx?_of_no_empty h, hn]

/-- Else the oldest CLOSED set, whose map is lost. -/
theorem chooseSlot_of_closed {m : RollMap} (h : ∀ n ∈ [1, 2, 3, 4], m.slot n ≠ .empty)
    (hn : m.closeList.find? (fun n => (m.slot n).isReleased) = none) : m.chooseSlot = (m.closeList.headD 1, true) := by
  rw [chooseSlot_eq, findIdx?_of_no_empty h, hn]

theorem exists_first_empty {m : RollMap} (h : ∃ n ∈ [1, 2, 3, 4], m.slot n = .empty) :
    ∃ n ∈ [1, 2, 3, 4], m.slot n = .empty ∧ ∀ i ∈ [1, 2, 3, 4], i < n → m.slot i ≠ .empty := by
  obtain ⟨n, ⟨hn, he⟩, hleast⟩ := WellFounded.has_min Nat.lt_wfRel.wf {n | n ∈ [1, 2, 3, 4] ∧ m.slot n = .empty}
    (by obtain ⟨n, hn, he⟩ := h; exact ⟨n, hn, he⟩)
  exact ⟨n, hn, he, fun i hi hlt hie => hleast i ⟨hi, hie⟩ hlt⟩

/-- A takeover is of a slot that lost no choice: every slot holds a CLOSED set. -/
theorem chooseSlot_takes_closed {m : RollMap} (hm : m.Agrees false) :
    m.chooseSlot.2 = true ↔ ∀ n ∈ [1, 2, 3, 4], ∃ r, m.slot n = .closed r := by
  obtain ⟨hcount, -, hrange, hclosed⟩ := hm
  have hrange' {n : Nat} (hn : n ∈ m.closeList) : n ∈ [1, 2, 3, 4] := by
    have := hrange n hn
    simp only [List.mem_cons, List.not_mem_nil, or_false]
    omega
  constructor
  · intro htakes n hn
    have hfull : ∀ k ∈ [1, 2, 3, 4], m.slot k ≠ .empty := fun k hk he => by
      obtain ⟨k', hk', he', hfirst⟩ := exists_first_empty ⟨k, hk, he⟩
      rw [chooseSlot_of_empty hk' he' hfirst] at htakes
      exact Bool.false_ne_true htakes
    have hnone : m.closeList.find? (fun n => (m.slot n).isReleased) = none := by
      cases hfind : m.closeList.find? (fun n => (m.slot n).isReleased) with
      | none => rfl
      | some k =>
        rw [chooseSlot_of_released hfull hfind] at htakes
        exact absurd htakes Bool.false_ne_true
    cases hslot : m.slot n with
    | empty => exact absurd hslot (hfull n hn)
    | winding r =>
      have hzero := List.countP_eq_zero.1 hcount _ (slot_mem_slots m hn)
      rw [hslot] at hzero
      exact absurd rfl hzero
    | closed r => exact ⟨r, rfl⟩
    | released r =>
      have hmem := (hclosed n hn).2 (by rw [hslot]; rfl)
      have hnot := List.find?_eq_none.1 hnone n hmem
      rw [hslot] at hnot
      exact absurd rfl hnot
  · intro hall
    have hfull : ∀ k ∈ [1, 2, 3, 4], m.slot k ≠ .empty := fun k hk he => by
      obtain ⟨r, hr⟩ := hall k hk
      rw [hr] at he
      exact nomatch he
    have hnone : m.closeList.find? (fun n => (m.slot n).isReleased) = none := by
      refine List.find?_eq_none.2 fun k hk => ?_
      obtain ⟨r, hr⟩ := hall k (hrange' hk)
      rw [hr]
      exact Bool.false_ne_true
    rw [chooseSlot_of_closed hfull hnone]

theorem chooseSlot_oldest {m : RollMap} (hm : m.Agrees false) (h : m.chooseSlot.2 = true) :
    m.closeList.head? = some m.chooseSlot.1 := by
  have hall := (chooseSlot_takes_closed hm).1 h
  obtain ⟨-, -, hrange, hclosed⟩ := hm
  have hfull : ∀ k ∈ [1, 2, 3, 4], m.slot k ≠ .empty := fun k hk he => by
    obtain ⟨r, hr⟩ := hall k hk
    rw [hr] at he
    exact nomatch he
  obtain ⟨r, hr⟩ := hall 1 (by simp)
  have hmem : 1 ∈ m.closeList := (hclosed 1 (by simp)).2 (by rw [hr]; rfl)
  cases hfind : m.closeList.find? (fun n => (m.slot n).isReleased) with
  | some k =>
    rw [chooseSlot_of_released hfull hfind] at h
    exact absurd h Bool.false_ne_true
  | none =>
    rw [chooseSlot_of_closed hfull hfind]
    cases hlist : m.closeList with
    | nil => rw [hlist] at hmem; exact absurd hmem List.not_mem_nil
    | cons n rest => rfl

/-! ## The record of a new set (R46, R47, R83) -/

theorem swap_eq {t : PlanTable} {plan : Plan} (h : t.staged.or t.active = some plan) :
    t.swap = { active := some plan, staged := none } := by
  obtain ⟨active, staged⟩ := t
  cases staged with
  | none =>
    have hactive : active = some plan := h
    rw [hactive]
    rfl
  | some x =>
    have hstaged : some x = some plan := h
    rw [hstaged]
    rfl

theorem freshLanes_spec (knives : List Nat) : (freshLanes knives).length = knives.length - 1 ∧
    (∀ lane ∈ freshLanes knives, lane.defects = [] ∧ lane.splices = [] ∧ lane.defectOverflow = 0 ∧
      lane.spliceOverflow = 0 ∧ lane.status = .good ∧ lane.edits = 0) ∧
    ∀ i < (freshLanes knives).length, ∀ lane ∈ (freshLanes knives)[i]?, lane.number = i + 1 ∧
      lane.width = knives.getD (i + 1) 0 - knives.getD i 0 := by
  refine ⟨by simp [freshLanes, laneCount], fun lane hl => ?_, fun i hi lane hl => ?_⟩
  · obtain ⟨i, -, rfl⟩ := List.mem_map.1 hl
    exact ⟨rfl, rfl, rfl, rfl, rfl, rfl⟩
  · rw [freshLanes, Option.mem_def, List.getElem?_map, Option.map_eq_some_iff] at hl
    obtain ⟨j, hj, rfl⟩ := hl
    obtain ⟨-, rfl⟩ := List.getElem?_eq_some_iff.1 hj
    rw [List.getElem_range]
    exact ⟨rfl, rfl⟩

theorem mixedPlan_length {g : Geometry} {before after : Option Plan} {n : Nat} (h : mixedPlan g before after = some n)
    (hw : g.k ≤ g.w) : (n : Int) = g.w - g.k := by
  unfold mixedPlan at h
  split at h
  · split at h
    · exact nomatch h
    · rw [← Option.some.inj h]
      omega
  · exact nomatch h

theorem mixedPlan_eq_none_iff (g : Geometry) (before : Option Plan) (plan : Plan) :
    mixedPlan g before (some plan) = none ↔ ∀ a, before = some a → a.id = plan.id := by
  cases before with
  | none => simp [mixedPlan]
  | some a =>
    by_cases h : a.id = plan.id <;> simp [mixedPlan, h]

/-! ## The SET-END entry (R132, R138) -/

theorem setOpened_sameView (s : State) : SameView s (setOpened s) := by
  rw [setOpened_eq]
  exact ⟨rfl, rfl, rfl, rfl, rfl⟩

theorem setEndOffer_opened (n start length : Nat) (s : State) :
    setEndOffer (setOpened s) n start length = setEndOffer s n start length := by
  rw [setOpened_eq]
  rfl

theorem placeSetEnd_of_none {s : State} (h : s.job.params.target = none) (n start : Nat) :
    placeSetEnd n start (setOpened s) = (setOpened s, none) := by
  have hopened : (setOpened s).job.params.target = none := by
    rw [setOpened_eq]
    exact h
  rw [placeSetEnd, hopened]

theorem placeSetEnd_of_some {s : State} {length : Nat} (h : s.job.params.target = some length) (n start : Nat) :
    placeSetEnd n start (setOpened s) = offerStop (setEndOffer s n start length) (setOpened s) := by
  have hopened : (setOpened s).job.params.target = some length := by
    rw [setOpened_eq]
    exact h
  rw [placeSetEnd, hopened, ← setEndOffer_opened]

theorem openEvents_subset (s : State) : ∀ k ∈ openEvents s, k = .planActivated ∨ k = .mapLost := by
  unfold openEvents
  intro k hk
  rcases List.mem_append.1 hk with hk | hk
  · split at hk
    · exact .inl (List.mem_singleton.1 hk)
    · exact absurd hk List.not_mem_nil
  · split at hk
    · exact .inr (List.mem_singleton.1 hk)
    · exact absurd hk List.not_mem_nil

theorem openEvents_count (s : State) : (openEvents s).count .planActivated = (if s.plans.staged.isSome then 1 else 0) ∧
    (openEvents s).count .mapLost = if s.roll.chooseSlot.2 then 1 else 0 := by
  unfold openEvents
  rw [List.count_append, List.count_append]
  constructor <;> split <;> split <;> rfl

theorem setOpened_alerts (s : State) : (setOpened s).alerts = (State.postAll (openEvents s) s).alerts := by
  rw [setOpened_eq]

/-- The part with the SET-END entry of a new set placed, where the job has a target length. -/
def setPlaced (s : State) : State := (placeSetEnd (nextInCycle 9999 s.job.setCounter) s.length.p (setOpened s)).1

/-- The id of the SET-END entry, if one is placed. -/
def setEndId (s : State) : Option Nat := (placeSetEnd (nextInCycle 9999 s.job.setCounter) s.length.p (setOpened s)).2

/-- The part after a set start. -/
def setStarted (s : State) : State := ((setPlaced s).toJobState .winding).post .setStarted

section Started
variable {s : State}

theorem setStarted_eq (s : State) : setStarted s = { s with
    plans := s.plans.swap
    job := { s.job with state := .winding, setCounter := nextInCycle 9999 s.job.setCounter }
    roll := s.roll.opened (newSetRecord (nextInCycle 9999 s.job.setCounter) s.plans.active { s with plans := s.plans.swap })
    stops := (setStarted s).stops
    queue := (setStarted s).queue
    alerts := (setStarted s).alerts } := by
  have honly : PlannerOnly (setOpened s) (setPlaced s) := by
    unfold setPlaced
    cases h : s.job.params.target with
    | none => rw [placeSetEnd_of_none h]; exact .refl _
    | some length => rw [placeSetEnd_of_some h]; exact .offerStop _ _
  unfold setStarted
  rw [honly.frame, setOpened_eq]
  rfl

theorem takeSetStart_ready (hj : s.job.state = .ready) (hm : s.motion.standstill = true) :
    takeSetStart s = (setStarted s, .done (fieldU 2 s.job.params.number ++ fieldU 2 (nextInCycle 9999 s.job.setCounter) ++
      fieldU 1 s.roll.chooseSlot.1 ++ fieldU 2 (planId s.plans.swap.active) ++ fieldU 1 ((setEndId s).getD 0))) := by
  have hslot : (takeSlot (swapPlans s)).2 = s.roll.chooseSlot.1 := by
    rw [takeSlot_eq, swapPlans_eq]
  rw [takeSetStart, if_neg (not_not.2 hj), if_neg (by rw [hm]; exact Bool.false_ne_true.symm), startSet_eq, hslot, idOrZero_eq]
  rfl

theorem setOpened_pendsAs {k : EventKind} (h1 : k ≠ .planActivated) (h2 : k ≠ .mapLost) : (setOpened s).PendsAs k s :=
  .of_posts_without (setOpened_alerts s) fun hmem => (openEvents_subset s k hmem).elim h1 h2

theorem setPlaced_pendsAs {k : EventKind} (hk : k ∉ stopPosts) : (setPlaced s).PendsAs k (setOpened s) := by
  unfold setPlaced
  cases h : s.job.params.target with
  | none => rw [placeSetEnd_of_none h]; exact .refl _ k
  | some length => rw [placeSetEnd_of_some h]; exact offerStop_pendsAs _ _ hk

theorem setOpened_alertsSound (hs : s.AlertsSound) : (setOpened s).AlertsSound := (hs.postAll _).congr (setOpened_alerts s)

theorem setPlaced_alertsSound (hs : s.AlertsSound) : (setPlaced s).AlertsSound := by
  unfold setPlaced
  cases h : s.job.params.target with
  | none => rw [placeSetEnd_of_none h]; exact setOpened_alertsSound hs
  | some length =>
    rw [placeSetEnd_of_some h]
    exact (((setOpened_sameView s).offerStop _).1.alertsSound hs (setOpened_alertsSound hs)).2

theorem setStarted_pendsAs {k : EventKind} (hne : k ≠ .setStarted) : (setStarted s).PendsAs k (setPlaced s) :=
  (State.pendsAs_post_other hne.symm _).trans (.of_alerts rfl k)

/-- The events of a set start, by kind (R46, R82, R165). -/
theorem setStarted_opens (hs : s.AlertsSound) :
    (setStarted s).PendsAs .planActivated (s.postTimes (if s.plans.staged.isSome then 1 else 0) .planActivated) ∧
    (setStarted s).PendsAs .mapLost (s.postTimes (if s.roll.chooseSlot.2 then 1 else 0) .mapLost) ∧
    (setStarted s).PendsAs .setStarted (s.postTimes 1 .setStarted) := by
  have hbefore {k : EventKind} (hk : k ∉ stopPosts) (hne : k ≠ .setStarted) : (setStarted s).PendsAs k (setOpened s) :=
    (setStarted_pendsAs hne).trans (setPlaced_pendsAs hk)
  refine ⟨(hbefore (by decide) (by decide)).trans (.of_posts hs (setOpened_alerts s) (openEvents_count s).1),
    (hbefore (by decide) (by decide)).trans (.of_posts hs (setOpened_alerts s) (openEvents_count s).2), ?_⟩
  have hplaced : ((setPlaced s).toJobState .winding).PendsAs .setStarted s :=
    (setPlaced_pendsAs (by decide)).trans (setOpened_pendsAs (by decide) (by decide))
  exact hplaced.post ((setPlaced_alertsSound hs).congr rfl) hs .setStarted

/-- STOP-DROPPED is posted once where the list is full (R141). -/
theorem setStarted_drops (hs : s.AlertsSound) : (setStarted s).PendsAs .stopDropped
    (s.postTimes (if s.job.params.target.isSome ∧ 16 ≤ s.stops.entries.length then 1 else 0) .stopDropped) := by
  have hopened : (setOpened s).PendsAs .stopDropped s := setOpened_pendsAs (by decide) (by decide)
  refine (setStarted_pendsAs (by decide)).trans ?_
  unfold setPlaced
  cases h : s.job.params.target with
  | none =>
    rw [placeSetEnd_of_none h, if_neg (fun h => Bool.false_ne_true h.1)]
    exact hopened
  | some length =>
    have hdropped := offerStop_pendsAs_dropped
      (setEndOffer s (nextInCycle 9999 s.job.setCounter) s.length.p length) (setOpened s) rfl
    rw [(setOpened_sameView s).stops] at hdropped
    rw [placeSetEnd_of_some h]
    simp only [Option.isSome_some, true_and]
    exact hdropped.trans (hopened.postAll (setOpened_alertsSound hs) hs _)

end Started

/-! ## The SET-END entry of a set start -/

theorem setStarted_offer {s : State} {length : Nat} (ht : s.job.params.target = some length) :
    setPlaced s = (offerStop (setEndOffer s (nextInCycle 9999 s.job.setCounter) s.length.p length) (setOpened s)).1 ∧
    setEndId s = (offerStop (setEndOffer s (nextInCycle 9999 s.job.setCounter) s.length.p length) (setOpened s)).2 := by
  rw [setPlaced, setEndId, placeSetEnd_of_some ht]
  exact ⟨rfl, rfl⟩

theorem setStarted_stops (s : State) : (setStarted s).stops = (setPlaced s).stops ∧
    (setStarted s).queue = (setPlaced s).queue := ⟨rfl, rfl⟩

section Entry
variable {s : State} {length : Nat} (ht : s.job.params.target = some length)
include ht

/-- What an offer makes of the part before the set start, the set start makes of the planner's part. -/
theorem setStarted_sameStep : SameStep s (setOpened s)
    (offerStop (setEndOffer s (nextInCycle 9999 s.job.setCounter) s.length.p length) s).1 (setPlaced s) ∧
    setEndId s = (offerStop (setEndOffer s (nextInCycle 9999 s.job.setCounter) s.length.p length) s).2 := by
  rw [(setStarted_offer ht).1, (setStarted_offer ht).2]
  exact (setOpened_sameView s).offerStop _

/-- With room the entry takes the first free id and the insertion counter rises. -/
theorem setStarted_with_room (hl : s.stops.entries.length < 16) :
    setEndId s = some s.stops.freshId ∧ (setStarted s).stops.insertions = s.stops.insertions + 1 := by
  have hstops := (setOpened_sameView s).stops
  have hlen : (setOpened s).stops.entries.length < 16 := by rw [hstops]; exact hl
  obtain ⟨hstarted, hid⟩ := setStarted_offer ht
  rw [(setStarted_stops s).1, hstarted, hid, offerStop_with_room _ hlen, ← hstops]
  exact ⟨rfl, (evaluate_evaluated _).numbers.2⟩

/-- At standstill an entry out of reach waits (R143, R144). -/
theorem setStarted_entry (hl : s.stops.entries.length < 16) (hm : s.motion.standstill = true) (hb : s.motion.braking = 0)
    (hreach : (s.length.p : Int) + s.motion.settings.tolerance < setEndWeb s s.length.p length + s.geometry.w) :
    (setEndOffer s (nextInCycle 9999 s.job.setCounter) s.length.p length).entry s.stops.freshId s.stops.insertions ∈
      (setStarted s).stops.entries := by
  have hview := setOpened_sameView s
  have hlen : (setOpened s).stops.entries.length < 16 := by rw [hview.stops]; exact hl
  have honce := stopPlaced_holdsOnce (s := setOpened s)
    (setEndOffer s (nextInCycle 9999 s.job.setCounter) s.length.p length) (by omega)
  rw [(setStarted_stops s).1, (setStarted_offer ht).1, offerStop_with_room _ hlen]
  rw [hview.stops] at honce
  refine (evaluate_beyondReach honce ⟨rfl, ?_⟩ ?_ ?_).1
  · change ((setOpened s).length.p : Int) + (setOpened s).motion.settings.tolerance < _
    rw [hview.p, hview.motion]
    exact hreach
  · change (setOpened s).motion.standstill = true
    rw [hview.motion]
    exact hm
  · change (setOpened s).motion.braking = 0
    rw [hview.motion]
    exact hb

/-- A full list without a candidate refuses the entry (R141). -/
theorem setStarted_refused (hl : 16 ≤ s.stops.entries.length)
    (hno : ∀ e ∈ s.stops.entries, e.active = false → 3 ≤ e.kind.priority) :
    setEndId s = none ∧ (setStarted s).stops = s.stops := by
  have hstops := (setOpened_sameView s).stops
  obtain ⟨hstarted, hid⟩ := setStarted_offer ht
  rw [(setStarted_stops s).1, hstarted, hid, offerStop_without_victim _ (by rw [hstops]; exact hl) (by rw [hstops]; exact hno)]
  exact ⟨rfl, hstops⟩

end Entry

/-- A takeover in the terms of the slots. -/
theorem all_closed_iff {m : RollMap} (hm : m.Agrees false) :
    [1, 2, 3, 4].all (fun n => match m.slot n with | .closed _ => true | _ => false) = m.chooseSlot.2 := by
  rw [Bool.eq_iff_iff, chooseSlot_takes_closed hm, List.all_eq_true]
  refine forall₂_congr fun n _ => ?_
  cases m.slot n <;> simp

/-- With a target length the SET-END entry is offered (R132, R138, R140, R141). -/
theorem setStarted_target {s : State} {length : Nat} (ht : s.job.params.target = some length) (hs : s.stops.Sound)
    (ha : s.AlertsSound) : ∃ (web : Int) (m : State) (placed : Option Nat),
      s.IsSetEndWeb s.length.p length web ∧
      OfferTaken ⟨.setEnd, .internal, .set (nextInCycle 9999 s.job.setCounter), web, s.geometry.w, web + s.geometry.w⟩ s m placed ∧
      (setEndId s).getD 0 = placed.getD 0 ∧ (setStarted s).stops = m.stops ∧ (setStarted s).queue = m.queue ∧
      ∀ k ∈ stopPosts, (setStarted s).PendsAs k m := by
  obtain ⟨hstep, hid⟩ := setStarted_sameStep ht
  have hview := hstep.sameView (setOpened_sameView s)
  refine ⟨setEndWeb s s.length.p length, _, _, setEndWeb_isSetEndWeb s s.length.p length, offerStop_taken _ hs,
    congrArg (fun x : Option Nat => x.getD 0) hid, hview.stops, hview.queue, fun k hk => ?_⟩
  refine (setStarted_pendsAs (ne_of_mem_of_not_mem hk (by decide))).trans (hstep.pendsAs ?_ ha (setOpened_alertsSound ha))
  exact setOpened_pendsAs (ne_of_mem_of_not_mem hk (by decide)) (ne_of_mem_of_not_mem hk (by decide))

/-- Settles O39: the branches of the taking, then the parts of the set start. -/
theorem setStartOpensASet : Obligations.SetStartOpensASet := by
  intro p s ht out active number
  refine ⟨fun hj => exec_eq_replied rfl rfl ht (if_pos hj), fun hj hm => ?_, fun plan hj hm hs hplan => ?_⟩
  · exact exec_eq_replied rfl rfl ht ((if_neg (not_not.2 hj)).trans (if_pos hm))
  · have hagrees : s.roll.Agrees false := by
      rw [State.slotsSound_iff, hj] at hs
      exact hs
    have hn := RollMap.chooseSlot_range hagrees.2.2.1
    have hswap := swap_eq hplan
    have hframe := setStarted_eq s
    have htaken := takeSetStart_ready hj hm
    rw [hswap] at hframe htaken
    have hrange : 1 ≤ s.roll.chooseSlot.1 ∧ s.roll.chooseSlot.1 ≤ 4 := by
      simp only [List.mem_cons, List.not_mem_nil, or_false] at hn
      omega
    have hroll : (setStarted s).roll = s.roll.opened
        (newSetRecord number s.plans.active { s with plans := { active := some plan, staged := none } }) := by
      rw [hframe]
      rfl
    have hlost : (setStarted s).roll.mapsLost =
        if s.roll.chooseSlot.2 then min (s.roll.mapsLost + 1) 65535 else s.roll.mapsLost := by
      rw [hroll]
      rfl
    obtain ⟨hlanes, hfresh, hwidths⟩ := freshLanes_spec plan.knives
    refine ⟨_, s.roll.chooseSlot.1, (setEndId s).getD 0,
      newSetRecord number s.plans.active { s with plans := { active := some plan, staged := none } },
      exec_eq_replied rfl rfl ht htaken, State.replied_port (by rw [hframe]) p _ _ _, ⟨hrange.1, hrange.2, ?_⟩,
      fun he => ?_, fun m hm he hfirst => ?_, fun hfull pre m post r hclose hpre hr => ?_, fun m hm hne => ?_, ?_,
      fun hall => ⟨?_, ?_⟩, fun hnot => ?_,
      ⟨rfl, rfl, rfl, rfl, rfl, rfl, rfl, rfl, decide_eq_true_iff, ⟨rfl, rfl, rfl, rfl, rfl⟩, hlanes, hfresh, hwidths⟩,
      fun m hm hw => mixedPlan_length hm hw, fun ha => ⟨(setStarted_opens ha).1, ?_, setStarted_drops ha, (setStarted_opens ha).2.2⟩,
      mixedPlan_eq_none_iff _ _ _, ?_, ?_, fun hnone => ?_, fun length hlength => ⟨setStarted_target hlength, fun hl hno => ?_,
        fun hl => ?_⟩, ?_⟩
    · change (setStarted s).roll.slot _ = _
      rw [hroll]
      exact RollMap.slot_setSlot_self hn _
    · obtain ⟨m, hm, hme, hfirst⟩ := exists_first_empty he
      rw [chooseSlot_of_empty hm hme hfirst]
      exact hme
    · rw [chooseSlot_of_empty hm he hfirst]
    · have hfind : s.roll.closeList.find? (fun n => (s.roll.slot n).isReleased) = some m := by
        have hnone : pre.find? (fun n => (s.roll.slot n).isReleased) = none := List.find?_eq_none.2 fun x hx h => by
          cases hslot : s.roll.slot x with
          | released r' => exact hpre x hx r' hslot
          | _ => rw [hslot] at h; exact Bool.false_ne_true h
        rw [hclose, List.find?_append, hnone, Option.none_or, List.find?_cons_of_pos (by rw [hr]; rfl)]
      rw [chooseSlot_of_released hfull hfind]
    · change (setStarted s).roll.slot m = _
      rw [hroll]
      exact RollMap.slot_setSlot_other hn hm hne _
    · change (setStarted s).roll.closeList = _
      rw [hroll]
      rfl
    · exact chooseSlot_oldest hagrees ((chooseSlot_takes_closed hagrees).2 hall)
    · exact hlost.trans (if_pos ((chooseSlot_takes_closed hagrees).2 hall))
    · refine hlost.trans (if_neg fun htakes => ?_)
      obtain ⟨m, hm, hnot⟩ := hnot
      obtain ⟨r, hr⟩ := (chooseSlot_takes_closed hagrees).1 htakes m hm
      exact hnot r hr
    · refine (congrArg (fun b : Bool => (setStarted s).PendsAs .mapLost (s.postTimes (if b then 1 else 0) .mapLost))
        (all_closed_iff hagrees)).mpr ?_
      exact (setStarted_opens ha).2.1
    · change (setStarted s).plans = _
      rw [hframe]
    · change (setStarted s).job = _
      rw [hframe]
      rfl
    · have hplaced : setEndId s = none ∧ setPlaced s = setOpened s := by
        rw [setEndId, setPlaced, placeSetEnd_of_none hnone]
        exact ⟨rfl, rfl⟩
      refine ⟨by rw [hplaced.1]; rfl, ?_, ?_⟩
      · exact ((setStarted_stops s).1.trans (congrArg State.stops hplaced.2)).trans (setOpened_sameView s).stops
      · exact ((setStarted_stops s).2.trans (congrArg State.queue hplaced.2)).trans (setOpened_sameView s).queue
    · obtain ⟨hid, hstops⟩ := setStarted_refused hlength hl hno
      exact ⟨by rw [hid]; rfl, hstops⟩
    · obtain ⟨hid, hinsertions⟩ := setStarted_with_room hlength hl
      refine ⟨by rw [hid]; rfl, hinsertions, _, setEndWeb_isSetEndWeb s s.length.p length, fun hreach hb => ?_⟩
      exact ⟨_, setStarted_entry hlength hl hm hb hreach, by rw [hid]; rfl, rfl, rfl, rfl, rfl, rfl, rfl, rfl, rfl⟩
    · generalize setStarted s = t at hframe ⊢
      rw [hframe]
      exact ⟨rfl, rfl, rfl, rfl, rfl, rfl, rfl, rfl, rfl, rfl, fun q hq => State.replied_port_other rfl hq _ _ _⟩

end Sys2Proof.Machine
end

