-- ==== Sys2Proof/Proofs/SetCloses.lean ====
section
/-! PROOFS. SET-CLOSE (R70, R96 to R98, R155, R167): the record of the closed set, the records handed back, and the cancellations. -/

namespace Sys2Proof.Machine

/-! ## The record of a closed set (R96) -/

theorem without_unwound (lane : LaneRecord) : lane.without (fun e => !e.wound) (fun e => !e.wound) = { lane with
    defects := lane.defects.filter (·.wound)
    splices := lane.splices.filter (·.wound)
    edits := (lane.edits + lane.defects.countP (fun e => !e.wound) + lane.splices.countP (fun e => !e.wound)) % 65536 } := by
  simp only [LaneRecord.without, LaneRecord.edited, wrap16, Bool.not_not, Nat.add_assoc]

theorem close_eq (p : Nat) (set : SetRecord) : set.close p = { set with
    closedLength := some (p - set.start)
    lanes := set.lanes.map (fun x => { x with
      defects := x.defects.filter (·.wound)
      splices := x.splices.filter (·.wound)
      edits := (x.edits + x.defects.countP (fun e => !e.wound) + x.splices.countP (fun e => !e.wound)) % 65536 }) } := by
  rw [SetRecord.close, funext without_unwound, rollLength]

theorem close_unwoundCount (p : Nat) (set : SetRecord) : (set.close p).unwoundCount = 0 := by
  rw [close_eq, SetRecord.unwoundCount, List.map_map, List.sum_eq_zero_iff]
  intro x hx
  obtain ⟨lane, -, rfl⟩ := List.mem_map.1 hx
  rw [Function.comp_apply, Nat.add_eq_zero_iff, List.countP_eq_zero, List.countP_eq_zero]
  refine ⟨fun e he => ?_, fun e he => ?_⟩ <;> simp [(List.mem_filter.1 he).2]

/-! ## The order of return (R97) -/

theorem placeItem_perm (it : RegisterItem) (l : List RegisterItem) : (placeItem it l).Perm (it :: l) := by
  induction l with
  | nil => exact .refl _
  | cons x rest ih =>
    unfold placeItem
    split
    · exact .refl _
    · exact (ih.cons x).trans (.swap it x rest)

theorem placeItem_sorted {it : RegisterItem} {l : List RegisterItem} (h : l.Pairwise (fun a b => a.body.web ≤ b.body.web)) :
    (placeItem it l).Pairwise (fun a b => a.body.web ≤ b.body.web) := by
  induction l with
  | nil => exact List.pairwise_singleton _ _
  | cons x rest ih =>
    obtain ⟨hx, hrest⟩ := List.pairwise_cons.1 h
    unfold placeItem
    split
    next hlt =>
      refine List.pairwise_cons.2 ⟨fun y hy => ?_, h⟩
      rcases List.mem_cons.1 hy with rfl | hy
      · exact hlt.le
      · exact hlt.le.trans (hx y hy)
    next hle =>
      refine List.pairwise_cons.2 ⟨fun y hy => ?_, ih hrest⟩
      rcases List.mem_cons.1 ((placeItem_perm it rest).mem_iff.1 hy) with rfl | hy
      · exact not_lt.1 hle
      · exact hx y hy

theorem foldl_placeItem (l acc : List RegisterItem) (h : acc.Pairwise (fun a b => a.body.web ≤ b.body.web)) :
    (l.foldl (fun acc x => placeItem x acc) acc).Perm (l ++ acc) ∧
      (l.foldl (fun acc x => placeItem x acc) acc).Pairwise (fun a b => a.body.web ≤ b.body.web) := by
  induction l generalizing acc with
  | nil => exact ⟨.refl _, h⟩
  | cons x rest ih =>
    obtain ⟨hperm, hsorted⟩ := ih (placeItem x acc) (placeItem_sorted h)
    exact ⟨hperm.trans (((placeItem_perm x acc).append_left rest).trans List.perm_middle), hsorted⟩

/-- The items handed back are those of UNWOUND records, the nearest to the nip first (R97). -/
theorem returnOrder_spec (register : List RegisterItem) (set : SetRecord) :
    (returnOrder register set).Perm (register.filter (fun x => set.isUnwound x.body.number)) ∧
      (returnOrder register set).Pairwise (fun a b => a.body.web ≤ b.body.web) := by
  have h := foldl_placeItem (register.filter (fun x => set.isUnwound x.body.number)) [] List.Pairwise.nil
  rwa [List.append_nil] at h

/-! ## The records handed back (R70) -/

/-- The queue with records handed back, one after the other. -/
def PathQueue.takeBack (q : PathQueue) (l : List RegisterItem) : PathQueue :=
  l.foldl (fun q it => q.join it.body (some it.lanes)) q

theorem takeBack_length (q : PathQueue) (l : List RegisterItem) :
    (q.takeBack l).records.length = q.records.length + l.length := by
  unfold PathQueue.takeBack
  induction l generalizing q with
  | nil => rfl
  | cons it rest ih =>
    rw [List.foldl_cons, ih, List.length_cons]
    change (placeRecord _ q.records).length + rest.length = _
    rw [length_placeRecord]
    omega

theorem takeBack_with_flow (q : PathQueue) (f : Flow) (l : List RegisterItem) :
    (PathQueue.takeBack { q with flow := f } l).records = (q.takeBack l).records := by
  unfold PathQueue.takeBack
  induction l generalizing q with
  | nil => rfl
  | cons it rest ih => exact ih (q.join it.body (some it.lanes))

/-- The record that an item becomes, with its joining number. -/
def RegisterItem.record (it : RegisterItem) (joined : Nat) : PathRecord :=
  { body := it.body, slit := some it.lanes, stopId := none, joined := joined }

/-- What was there stays, and each item becomes a record with a joining number of its own. -/
theorem takeBack_mem {q : PathQueue} {l : List RegisterItem} {x : PathRecord} : x ∈ (q.takeBack l).records ↔
    x ∈ q.records ∨ ∃ (i : Nat) (it : RegisterItem), l[i]? = some it ∧ x = it.record (q.nextJoin + i) := by
  unfold PathQueue.takeBack
  induction l generalizing q with
  | nil => simp
  | cons it rest ih =>
    rw [List.foldl_cons, ih]
    change x ∈ placeRecord (it.record q.nextJoin) q.records ∨ (∃ (i : Nat) (a : RegisterItem), rest[i]? = some a ∧ x = a.record (q.nextJoin + 1 + i)) ↔ _
    rw [mem_placeRecord, or_comm (a := x = _), or_assoc]
    refine or_congr_right ⟨?_, ?_⟩
    · rintro (rfl | ⟨i, a, ha, rfl⟩)
      · exact ⟨0, it, rfl, rfl⟩
      · exact ⟨i + 1, a, ha, by rw [show q.nextJoin + 1 + i = q.nextJoin + (i + 1) by omega]⟩
    · rintro ⟨i, a, ha, rfl⟩
      cases i with
      | zero => exact .inl (by rw [← Option.some.inj ha]; rfl)
      | succ i => exact .inr ⟨i, a, ha, by rw [show q.nextJoin + 1 + i = q.nextJoin + (i + 1) by omega]⟩

/-- The items that find room, and the number of those that do not. -/
def PathQueue.room (q : PathQueue) : Nat := 64 - q.records.length

/-- What a fold of returns has made of a part: the first items have joined while there was room, the others are discarded with
QUEUE-FULL; every one is counted (R70, R73). -/
structure Returned (l : List RegisterItem) (s t : State) : Prop where
  frame : t = { s with queue := t.queue, alerts := t.alerts }
  records : t.queue.records = (s.queue.takeBack (l.take s.queue.room)).records
  returned : t.queue.flow.returned % 4294967296 = (s.queue.flow.returned + l.length) % 4294967296
  unmapped : t.queue.flow.unmapped % 4294967296 = (s.queue.flow.unmapped + (l.length - s.queue.room)) % 4294967296
  alerts : t.alerts = (s.postAll (List.replicate (l.length - s.queue.room) .queueFull)).alerts

theorem returnRecord_of_room {s : State} (h : 0 < s.queue.room) (it : RegisterItem) :
    returnRecord s it = { s with queue := { s.queue.join it.body (some it.lanes) with flow := s.queue.flow.addReturned 1 } } := by
  have hroom : ¬ 64 ≤ s.queue.records.length := by
    unfold PathQueue.room at h
    omega
  have hfull : (s.countFlow (Flow.addReturned 1)).queue.full = false := decide_eq_false hroom
  unfold returnRecord
  dsimp only
  rw [hfull]
  rfl

theorem returnRecord_of_full {s : State} (h : s.queue.room = 0) (it : RegisterItem) :
    returnRecord s it = { s with queue := { s.queue with flow := (s.queue.flow.addReturned 1).addUnmapped 1 },
                                 alerts := (s.post .queueFull).alerts } := by
  have hroom : 64 ≤ s.queue.records.length := by
    unfold PathQueue.room at h
    omega
  have hfull : (s.countFlow (Flow.addReturned 1)).queue.full = true := decide_eq_true hroom
  unfold returnRecord
  dsimp only
  rw [hfull]
  rfl

theorem returnRecord_room (s : State) (it : RegisterItem) : (returnRecord s it).queue.room = s.queue.room - 1 := by
  by_cases h : 0 < s.queue.room
  · rw [returnRecord_of_room h, PathQueue.room, PathQueue.room]
    change 64 - (placeRecord _ s.queue.records).length = _
    rw [length_placeRecord]
    omega
  · rw [returnRecord_of_full (by omega)]
    change s.queue.room = _
    omega

theorem Returned.cons {it : RegisterItem} {rest : List RegisterItem} {s t : State} (h : Returned rest (returnRecord s it) t) :
    Returned (it :: rest) s t := by
  obtain ⟨hframe, hrecords, hreturned, hunmapped, halerts⟩ := h
  rw [returnRecord_room] at hrecords hunmapped halerts
  by_cases hzero : s.queue.room = 0
  · have hstep := returnRecord_of_full hzero it
    have hlost : (it :: rest).length - s.queue.room = (rest.length - (s.queue.room - 1)) + 1 := by
      rw [List.length_cons]
      omega
    refine ⟨by rw [hframe, hstep], ?_, ?_, ?_, ?_⟩
    · rw [hrecords, hzero, List.take_zero, List.take_zero, hstep]
      rfl
    · rw [hreturned, hstep, List.length_cons]
      simp [Flow.addUnmapped, Flow.addReturned, wrap32]
      omega
    · rw [hunmapped, hlost, hstep]
      simp [Flow.addUnmapped, Flow.addReturned, wrap32]
      omega
    · rw [halerts, hlost, List.replicate_succ]
      exact State.postAll_alerts_congr (s := returnRecord s it) (t := s.post .queueFull) (by rw [hstep]) _
  · have hstep := returnRecord_of_room (Nat.pos_of_ne_zero hzero) it
    have hlost : (it :: rest).length - s.queue.room = rest.length - (s.queue.room - 1) := by
      rw [List.length_cons]
      omega
    obtain ⟨n, hn⟩ := Nat.exists_eq_succ_of_ne_zero hzero
    refine ⟨by rw [hframe, hstep], ?_, ?_, ?_, ?_⟩
    · rw [hrecords, hn, List.take_succ_cons, hstep]
      exact takeBack_with_flow (s.queue.join it.body (some it.lanes)) _ _
    · rw [hreturned, hstep, List.length_cons]
      simp [Flow.addReturned, wrap32]
      omega
    · rw [hunmapped, hlost, hstep]
      rfl
    · rw [halerts, hlost]
      exact State.postAll_alerts_congr (s := returnRecord s it) (t := s) (by rw [hstep]) _

theorem foldl_returnCounted (l : List RegisterItem) (acc : State × (Nat × Nat)) :
    Returned l acc.1 (l.foldl returnCounted acc).1 := by
  induction l generalizing acc with
  | nil => exact ⟨rfl, by rw [List.take_nil]; rfl, rfl, by simp, by simp; rfl⟩
  | cons it rest ih => exact (ih (returnCounted acc it)).cons

/-- The figures of the reply: every item, and those that found no room (log entry 22). -/
theorem foldl_returnCounted_counts (l : List RegisterItem) (acc : State × (Nat × Nat)) :
    (l.foldl returnCounted acc).2 = (acc.2.1 + l.length, acc.2.2 + (l.length - acc.1.queue.room)) := by
  induction l generalizing acc with
  | nil => simp
  | cons it rest ih =>
    have hroom : (returnCounted acc it).1.queue.room = acc.1.queue.room - 1 := returnRecord_room acc.1 it
    have hfull : acc.1.queue.full = true ↔ acc.1.queue.room = 0 := by
      rw [PathQueue.full_iff, PathQueue.room]
      omega
    rw [List.foldl_cons, ih, hroom, List.length_cons]
    refine Prod.ext (by simp only [returnCounted]; omega) ?_
    simp only [returnCounted]
    split
    next h => rw [hfull] at h; omega
    next h => rw [hfull] at h; omega

/-! ## What a set close leaves in the queue -/

section Back
variable {set : SetRecord} {s : State}

/-- The part with the records handed back (steps 1 to 3 of R167). -/
theorem setReturned_returned (set : SetRecord) (s : State) : Returned (returnOrder s.roll.register set)
    (s.mapWinding (SetRecord.close s.length.p)) (setReturned set s).1 :=
  foldl_returnCounted (returnOrder s.roll.register set) (s.mapWinding (SetRecord.close s.length.p), (0, 0))

theorem setReturned_counts (set : SetRecord) (s : State) : (setReturned set s).2 =
    ((s.roll.register.filter (fun it => set.isUnwound it.body.number)).length,
      (s.roll.register.filter (fun it => set.isUnwound it.body.number)).length - s.queue.room) := by
  have hcounts := foldl_returnCounted_counts (returnOrder s.roll.register set) (s.mapWinding (SetRecord.close s.p), (0, 0))
  rw [(returnOrder_spec s.roll.register set).1.length_eq, Nat.zero_add, Nat.zero_add] at hcounts
  exact hcounts

/-- The planner's steps after it leave every record, but for its stop entry id. -/
theorem recordsReturned_of_returned {u t : State} (hq : s.QueueSound)
    (hu : u.queue.records = (s.queue.takeBack ((returnOrder s.roll.register set).take s.queue.room)).records)
    (ht : PlannerOnly u t) (hnone : ∀ r' ∈ t.queue.records, (∀ r ∈ u.queue.records, r.joined = r'.joined → r.stopId = none) →
      r'.stopId = none) : RecordsReturned set s t := by
  obtain ⟨hperm, hsorted⟩ := returnOrder_spec s.roll.register set
  have hunwound (it : RegisterItem) : it ∈ returnOrder s.roll.register set ↔
      it ∈ s.roll.register.filter (fun it => set.isUnwound it.body.number) := hperm.mem_iff
  -- a record of the queue was there, or is that of an item that found room
  have hcase {r : PathRecord} (hr : r ∈ t.queue.records) : (∃ r' ∈ s.queue.records, r'.bare = r.bare) ∨
      ∃ (i : Nat) (it : RegisterItem), i < s.queue.room ∧ (returnOrder s.roll.register set)[i]? = some it ∧
        (it.record (s.queue.nextJoin + i)).bare = r.bare := by
    obtain ⟨r', hr', hbare⟩ := ht.mem_of hr
    rw [hu] at hr'
    rcases takeBack_mem.1 hr' with hold | ⟨i, it, hi, rfl⟩
    · exact .inl ⟨r', hold, hbare⟩
    · rw [List.getElem?_take] at hi
      split at hi
      next hlt => exact .inr ⟨i, it, hlt, hi, hbare⟩
      next => exact nomatch hi
  -- and each item that found room has one
  have hback {i : Nat} {it : RegisterItem} (hi : i < s.queue.room) (hit : (returnOrder s.roll.register set)[i]? = some it) :
      ∃ r ∈ t.queue.records, s.queue.nextJoin ≤ r.joined ∧ r.body = it.body ∧ r.slit = some it.lanes := by
    have hmem : it.record (s.queue.nextJoin + i) ∈ u.queue.records := by
      rw [hu]
      exact takeBack_mem.2 (.inr ⟨i, it, by rw [List.getElem?_take, if_pos hi, hit], rfl⟩)
    obtain ⟨r, hr, hbare⟩ := ht.mem hmem
    obtain ⟨hbody, hslit, hjoined⟩ := bare_eq_iff.1 hbare
    exact ⟨r, hr, by rw [hjoined]; exact Nat.le_add_right _ _, hbody, hslit⟩
  have hbody (i : Nat) {it : RegisterItem} {r : PathRecord} (h : (it.record (s.queue.nextJoin + i)).bare = r.bare) :
      r.body = it.body ∧ r.slit = some it.lanes ∧ r.joined = s.queue.nextJoin + i := by
    obtain ⟨hb, hs, hj⟩ := bare_eq_iff.1 h
    exact ⟨hb.symm, hs.symm, hj.symm⟩
  unfold RecordsReturned
  intro unwound
  refine ⟨fun r hr => ?_, fun r hr => ?_, fun hroom it hit => ?_, fun r hr hnew it hit hweb => ?_⟩
  · obtain ⟨r', hr', hbare⟩ := ht.mem (s := u) (r := r) (by rw [hu]; exact takeBack_mem.2 (.inl hr))
    obtain ⟨hb, hs, hj⟩ := bare_eq_iff.1 hbare
    exact ⟨r', hr', hj, hb, hs⟩
  · rcases hcase hr with ⟨r', hr', hbare⟩ | ⟨i, it, hi, hit, hbare⟩
    · exact .inl ⟨r', hr', (bare_eq_iff.1 hbare).2.2⟩
    · obtain ⟨hb, hs, hj⟩ := hbody i hbare
      refine .inr ⟨by omega, hnone r hr fun x hx hxj => ?_, it, (hunwound it).1 (List.mem_of_getElem? hit), hb, hs⟩
      rw [hu] at hx
      rcases takeBack_mem.1 hx with hold | ⟨i', it', -, rfl⟩
      · have := hq.2.2.2.1 x hold
        omega
      · rfl
  · obtain ⟨i, hi⟩ := List.getElem?_of_mem ((hunwound it).2 hit)
    obtain ⟨hlt, -⟩ := List.getElem?_eq_some_iff.1 hi
    have hlength : (returnOrder s.roll.register set).length = unwound.length := hperm.length_eq
    exact hback (by unfold PathQueue.room; omega) hi
  · rcases hcase hr with ⟨r', hr', hbare⟩ | ⟨i, it', hi, hit', hbare⟩
    · have hold := hq.2.2.2.1 r' hr'
      rw [(bare_eq_iff.1 hbare).2.2] at hold
      omega
    · obtain ⟨hb, -, -⟩ := hbody i hbare
      obtain ⟨j, hj⟩ := List.getElem?_of_mem ((hunwound it).2 hit)
      obtain ⟨hjlt, hjit⟩ := List.getElem?_eq_some_iff.1 hj
      obtain ⟨hilt, hiit⟩ := List.getElem?_eq_some_iff.1 hit'
      have hbefore : j < i := by
        by_contra hle
        rcases Nat.lt_or_eq_of_le (not_lt.1 hle) with hlt | heq
        · have hsorted := List.pairwise_iff_getElem.1 hsorted i j hilt hjlt hlt
          rw [hiit, hjit, ← hb] at hsorted
          omega
        · subst heq
          rw [hiit] at hjit
          rw [hb, hjit] at hweb
          omega
      exact hback (by omega) hj

end Back

/-! ## The cancellations (R155) -/

/-- The entries that refer to a set. -/
def StopPlanner.ofSet (pl : StopPlanner) (number : Nat) : List StopEntry :=
  pl.entries.filter (fun e => decide (e.ref = .set number))

theorem cancelSetStops_eq (number : Nat) (s : State) :
    cancelSetStops number s = evaluate (s.stopsRemoved (s.stops.ofSet number)) := by
  unfold cancelSetStops State.stopsRemoved StopPlanner.ofSet
  refine congrArg (fun f => evaluate (List.foldl f s _)) (funext fun u => funext fun e => removeStop_eq e u)

/-- An entry of a set gone is nothing to the queue. -/
theorem stopRemoved_of_set {e : StopEntry} {n : Nat} (he : e.ref = .set n) (s : State) :
    s.stopRemoved e = { s with stops := (s.stopRemoved e).stops } := by
  have hqueue : (s.stopRemoved e).queue = s.queue :=
    withStopId_none none (by
      rw [List.any_eq_false]
      intro r _
      rw [decide_eq_true_iff, he]
      exact fun h => nomatch h.1)
  conv_rhs => rw [← hqueue]
  rfl

theorem stopsRemoved_of_set {l : List StopEntry} {n : Nat} (hl : ∀ e ∈ l, e.ref = .set n) (s : State) :
    s.stopsRemoved l = { s with stops := (s.stopsRemoved l).stops } := by
  induction l generalizing s with
  | nil => rfl
  | cons e rest ih =>
    have hrest := ih (fun x hx => hl x (List.mem_cons_of_mem _ hx)) (s.stopRemoved e)
    rw [stopRemoved_of_set (hl e (List.mem_cons_self ..)) s] at hrest
    rw [State.stopsRemoved, List.foldl_cons, ← State.stopsRemoved, stopRemoved_of_set (hl e (List.mem_cons_self ..)) s]
    exact hrest

/-- The list after the removal of the entries of a set. -/
theorem stopsRemoved_changes_lt {l : List StopEntry} (hl : l ≠ []) (s : State) :
    (s.stopsRemoved l).stops.changes = (s.stops.changes + l.length) % 65536 := by
  have hlt : (s.stopsRemoved l).stops.changes < 65536 := by
    induction l generalizing s with
    | nil => exact absurd rfl hl
    | cons e rest ih =>
      rw [State.stopsRemoved, List.foldl_cons, ← State.stopsRemoved]
      cases rest with
      | nil => exact Nat.mod_lt _ (by decide)
      | cons e' rest => exact ih (List.cons_ne_nil _ _) (s.stopRemoved e)
  rw [← Nat.mod_eq_of_lt hlt, (stopsRemoved_stops l s).2]

theorem ofSet_removed {s : State} (hs : s.stops.Sound) (n : Nat) : (s.stopsRemoved (s.stops.ofSet n)).stops =
    { s.stops with
      entries := s.stops.entries.filter (fun e => decide (e.ref ≠ .set n))
      changes := if s.stops.entries.filter (fun e => decide (e.ref ≠ .set n)) = s.stops.entries then s.stops.changes
        else (s.stops.changes + (s.stops.entries.length -
          (s.stops.entries.filter (fun e => decide (e.ref ≠ .set n))).length)) % 65536 } := by
  have hentries : (s.stopsRemoved (s.stops.ofSet n)).stops.entries =
      s.stops.entries.filter (fun e => decide (e.ref ≠ .set n)) := by
    rw [stopsRemoved_entries]
    refine List.filter_congr fun e he => ?_
    rw [decide_eq_decide, List.mem_map, not_iff_not]
    refine ⟨?_, fun href => ⟨e, List.mem_filter.2 ⟨he, decide_eq_true href⟩, rfl⟩⟩
    rintro ⟨x, hx, hid⟩
    obtain ⟨hx, href⟩ := List.mem_filter.1 hx
    rw [← hs.id_unique hx he hid]
    exact of_decide_eq_true href
  have hcount : (s.stops.ofSet n).length =
      s.stops.entries.length - (s.stops.entries.filter (fun e => decide (e.ref ≠ .set n))).length := by
    have hsplit := List.length_eq_length_filter_add (l := s.stops.entries) (fun e => decide (e.ref = .set n))
    have hnot : (fun e : StopEntry => !decide (e.ref = .set n)) = fun e => decide (e.ref ≠ .set n) := by
      funext e
      rw [decide_not]
    rw [hnot] at hsplit
    unfold StopPlanner.ofSet
    omega
  have hchanges : (s.stopsRemoved (s.stops.ofSet n)).stops.changes =
      if s.stops.entries.filter (fun e => decide (e.ref ≠ .set n)) = s.stops.entries then s.stops.changes
        else (s.stops.changes + (s.stops.entries.length -
          (s.stops.entries.filter (fun e => decide (e.ref ≠ .set n))).length)) % 65536 := by
    split
    next hall =>
      have hnil : s.stops.ofSet n = [] := List.length_eq_zero_iff.1 (by rw [hcount, hall]; omega)
      rw [hnil]
      rfl
    next hsome =>
      rw [← hcount]
      refine stopsRemoved_changes_lt (fun hnil => hsome ?_) s
      rw [List.filter_eq_self]
      intro e he
      rw [decide_eq_true_iff]
      intro href
      have hmem : e ∈ s.stops.ofSet n := List.mem_filter.2 ⟨he, decide_eq_true href⟩
      rw [hnil] at hmem
      exact absurd hmem List.not_mem_nil
  rw [(stopsRemoved_stops (s.stops.ofSet n) s).1, hentries, hchanges]

/-! ## The set closed (R96, R98, R167) -/

section Closed
variable {set : SetRecord} {s : State} {n : Nat}

theorem slotClosed_eq (n : Nat) (set : SetRecord) (s : State) : slotClosed n set s = { s with
    roll := (s.roll.mapWinding (SetRecord.close s.length.p)).closeSlot n (set.close s.length.p)
    queue := (setReturned set s).1.queue
    alerts := (setReturned set s).1.alerts } := by
  rw [slotClosed, (setReturned_returned set s).frame]
  rfl

/-- The part after a set close. -/
def setClosed (n : Nat) (set : SetRecord) (s : State) : State :=
  ((cancelSetStops set.number (slotClosed n set s)).toJobState .ready).post .setClosed

/-- The part before the planner's evaluation (R155). -/
def setCancelled (n : Nat) (set : SetRecord) (s : State) : State :=
  (slotClosed n set s).stopsRemoved (s.stops.ofSet set.number)

theorem slotClosed_stops (n : Nat) (set : SetRecord) (s : State) : (slotClosed n set s).stops = s.stops := by
  rw [slotClosed_eq]

theorem setClosed_eq (n : Nat) (set : SetRecord) (s : State) :
    setClosed n set s = ((evaluate (setCancelled n set s)).toJobState .ready).post .setClosed := by
  rw [setClosed, cancelSetStops_eq, slotClosed_stops]
  rfl

theorem setCancelled_eq (n : Nat) (set : SetRecord) (s : State) : setCancelled n set s =
    { slotClosed n set s with stops := (setCancelled n set s).stops } :=
  stopsRemoved_of_set (fun _ he => of_decide_eq_true (List.mem_filter.1 he).2) _

theorem setClosed_frame (n : Nat) (set : SetRecord) (s : State) : setClosed n set s = { s with
    roll := (s.roll.mapWinding (SetRecord.close s.length.p)).closeSlot n (set.close s.length.p)
    job := { s.job with state := .ready }
    queue := (setClosed n set s).queue
    stops := (setClosed n set s).stops
    alerts := (setClosed n set s).alerts } := by
  rw [setClosed_eq, (evaluate_evaluated _).frame, setCancelled_eq, slotClosed_eq]
  rfl

theorem setClosed_plannerOnly (n : Nat) (set : SetRecord) (s : State) :
    PlannerOnly (setCancelled n set s) (evaluate (setCancelled n set s)) := .evaluate _

theorem setCancelled_records (n : Nat) (set : SetRecord) (s : State) : (setCancelled n set s).queue.records =
    (s.queue.takeBack ((returnOrder s.roll.register set).take s.queue.room)).records := by
  rw [setCancelled_eq, slotClosed_eq]
  exact (setReturned_returned set s).records

theorem setClosed_flow (n : Nat) (set : SetRecord) (s : State) : (setClosed n set s).queue.flow = (setReturned set s).1.queue.flow := by
  rw [setClosed_eq]
  change (evaluate (setCancelled n set s)).queue.flow = _
  rw [(evaluate_evaluated _).queue, setCancelled_eq, slotClosed_eq]

theorem setClosed_lengths (n : Nat) (set : SetRecord) (s : State) :
    (setClosed n set s).queue.records.length + ((returnOrder s.roll.register set).length - s.queue.room) =
      s.queue.records.length + (returnOrder s.roll.register set).length := by
  rw [setClosed_eq]
  change (evaluate (setCancelled n set s)).queue.records.length + _ = _
  rw [(setClosed_plannerOnly n set s).length, setCancelled_records, takeBack_length, List.length_take]
  unfold PathQueue.room
  omega

theorem setClosed_returned (hq : s.QueueSound) : RecordsReturned set s (setClosed n set s) := by
  have h := recordsReturned_of_returned (t := evaluate (setCancelled n set s)) hq (setCancelled_records n set s)
    (setClosed_plannerOnly n set s) fun r' hr' hall => by
      obtain ⟨f, hf, hmap⟩ := (evaluate_evaluated (setCancelled n set s)).records
      rw [hmap] at hr'
      obtain ⟨r, hr, rfl⟩ := List.mem_map.1 hr'
      rcases hf r with heq | heq
      · rw [heq] at hall ⊢
        exact hall r hr rfl
      · rw [heq]
  rw [setClosed_eq]
  exact h

/-- No entry refers to the set any more (R155). -/
theorem setClosed_refs {e : StopEntry} (he : e ∈ (setClosed n set s).stops.entries) : e.ref ≠ .set set.number := by
  rw [setClosed_eq] at he
  obtain ⟨x, hx, -, -, -, href, -⟩ := (evaluate_evaluated (setCancelled n set s)).entries e he
  rw [setCancelled, stopsRemoved_entries, slotClosed_stops] at hx
  obtain ⟨hx, hgone⟩ := List.mem_filter.1 hx
  rw [href]
  intro hset
  exact of_decide_eq_true hgone (List.mem_map_of_mem (List.mem_filter.2 ⟨hx, decide_eq_true hset⟩))

/-- The planner's part is that of the list without the entries of the set (R155). -/
theorem setClosed_planner (hj : s.job.state = .winding) (hq : s.QueueSound) (ha : s.AlertsSound) :
    PlannerSim (evaluate { s with stops := (s.stopsRemoved (s.stops.ofSet set.number)).stops }) (setClosed n set s) := by
  have hreturned := setReturned_returned set s
  have hsame : (setCancelled n set s).stops = (s.stopsRemoved (s.stops.ofSet set.number)).stops := by
    have hstops {u v : State} (l : List StopEntry) (h : v.stops = u.stops) : (v.stopsRemoved l).stops = (u.stopsRemoved l).stops := by
      unfold State.stopsRemoved
      induction l generalizing u v with
      | nil => exact h
      | cons e rest ih =>
        refine ih (u := u.stopRemoved e) (v := v.stopRemoved e) ?_
        rw [State.stopRemoved, State.stopRemoved, h]
    exact hstops _ (slotClosed_stops n set s)
  have halerts : (setCancelled n set s).alerts = (setReturned set s).1.alerts := by
    rw [setCancelled_eq, slotClosed_eq]
  have hposts : (setCancelled n set s).alerts =
      (s.postAll (List.replicate ((returnOrder s.roll.register set).length - s.queue.room) .queueFull)).alerts :=
    halerts.trans (hreturned.alerts.trans
      (State.postAll_alerts_congr (s := s.mapWinding (SetRecord.close s.length.p)) (t := s) rfl _))
  have hsim : PlannerSim { s with stops := (s.stopsRemoved (s.stops.ofSet set.number)).stops } (setCancelled n set s) := by
    refine ⟨hsame, ?_, ?_, ?_, fun r hr r' hr' hjoined => ?_, fun k hk => ?_, (ha.postAll _).congr hposts, ha⟩
    · rw [setCancelled_eq, slotClosed_eq]
    · rw [setCancelled_eq, slotClosed_eq]
    · rw [setCancelled_eq, slotClosed_eq]
    · rw [setCancelled_records] at hr
      rcases takeBack_mem.1 hr with hold | ⟨i, it, -, rfl⟩
      · rw [List.inj_on_of_nodup_map hq.2.2.1 hold hr' hjoined.symm]
        exact ⟨rfl, rfl⟩
      · have := hq.2.2.2.1 r' hr'
        rw [hjoined] at this
        exact absurd this (not_lt.2 (Nat.le_add_right _ _))
    · refine (State.PendsAs.of_posts_without hposts fun hmem => ?_).trans (.of_alerts rfl k)
      rw [List.eq_of_mem_replicate hmem] at hk
      exact absurd hk (by decide)
  have hcut : (evaluate (setCancelled n set s)).job.state.isCutOpen = false := by
    rw [(evaluate_evaluated _).frame, setCancelled_eq, slotClosed_eq]
    change s.job.state.isCutOpen = false
    rw [hj]
    rfl
  rw [setClosed_eq]
  exact (hsim.evaluate.congr_right (w := (evaluate (setCancelled n set s)).toJobState .ready) rfl rfl rfl hcut.symm rfl rfl).post_right
    (by decide)

/-- SET-CLOSED is posted once, and QUEUE-FULL for each record discarded (R97, R167). -/
theorem setClosed_posts (ha : s.AlertsSound) : (setClosed n set s).PendsAs .setClosed (s.postTimes 1 .setClosed) ∧
    (setClosed n set s).PendsAs .queueFull (s.postTimes ((returnOrder s.roll.register set).length - s.queue.room) .queueFull) := by
  have hposts : (setCancelled n set s).alerts =
      (s.postAll (List.replicate ((returnOrder s.roll.register set).length - s.queue.room) .queueFull)).alerts := by
    rw [setCancelled_eq, slotClosed_eq]
    exact (setReturned_returned set s).alerts.trans
      (State.postAll_alerts_congr (s := s.mapWinding (SetRecord.close s.length.p)) (t := s) rfl _)
  have hsound : (setCancelled n set s).AlertsSound := (ha.postAll _).congr hposts
  obtain ⟨ks, hks, heval⟩ := (evaluate_evaluated (setCancelled n set s)).posts
  have hready : ((evaluate (setCancelled n set s)).toJobState .ready).AlertsSound := (hsound.postAll ks).congr heval
  have hbefore : ((evaluate (setCancelled n set s)).toJobState .ready).PendsAs .setClosed s := by
    refine State.PendsAs.trans (s := setCancelled n set s) (evaluate_pendsAs (by decide) _) (.of_posts_without hposts fun hmem => ?_)
    exact absurd (List.eq_of_mem_replicate hmem) (by decide)
  rw [setClosed_eq]
  refine ⟨hbefore.post hready ha .setClosed, ?_⟩
  refine (State.pendsAs_post_other (by decide) _).trans (State.PendsAs.trans (s := setCancelled n set s)
    (evaluate_pendsAs (by decide) _) (.of_posts ha hposts ?_))
  rw [List.count_replicate_self]

theorem takeSetClose_winding (hj : s.job.state = .winding) (hm : s.motion.standstill = true)
    (hn : s.roll.windingNumber = some n) (hset : s.roll.windingSet = some set) : takeSetClose s = (setClosed n set s,
      .done (fieldU 2 set.job ++ fieldU 2 set.number ++ fieldU 1 n ++ fieldU 4 (s.length.p - set.start) ++
        fieldU 2 (setReturned set s).2.1 ++ fieldU 2 (setReturned set s).2.2)) := by
  rw [takeSetClose, if_neg (not_not.2 hj), if_neg (by rw [hm]; exact Bool.false_ne_true.symm), hn, hset]
  rfl

end Closed

/-- Settles O40: the branches of the taking, then the parts of the set close. -/
theorem setCloseClosesTheSet : Obligations.SetCloseClosesTheSet := by
  intro p s ht out
  refine ⟨fun hj => exec_eq_replied rfl rfl ht (if_pos hj), fun hj hm => ?_, fun n set hj hm hn hset => ?_⟩
  · exact exec_eq_replied rfl rfl ht ((if_neg (not_not.2 hj)).trans (if_pos hm))
  · obtain ⟨hmem, r, hr, hrset⟩ := RollMap.windingNumber_spec hn
    have hframe := setClosed_frame n set s
    have hcounts := setReturned_counts set s
    have hlength := (returnOrder_spec s.roll.register set).1.length_eq
    have hlengths := setClosed_lengths n set s
    have hposts := fun ha => setClosed_posts (n := n) (set := set) (s := s) ha
    have hflow := setClosed_flow n set s
    obtain ⟨-, -, hreturned, hunmapped, -⟩ := setReturned_returned set s
    rw [hlength] at hlengths hposts hreturned hunmapped
    have htaken := takeSetClose_winding hj hm hn hset
    rw [hcounts] at htaken
    have hroll : (setClosed n set s).roll =
        (s.roll.mapWinding (SetRecord.close s.length.p)).closeSlot n (set.close s.length.p) := by
      rw [hframe]
    refine ⟨_, (s.roll.register.filter (fun it => set.isUnwound it.body.number)).length,
      (s.roll.register.filter (fun it => set.isUnwound it.body.number)).length - s.queue.room, set.close s.length.p,
      exec_eq_replied rfl rfl ht htaken, State.replied_port (by rw [hframe]) p _ _ _, ?_, rfl, close_unwoundCount _ _, ?_,
      close_eq _ _, ?_, ?_, ?_, fun hs m hm hne => ?_, ⟨rfl, hlengths, ?_, ?_⟩, setClosed_returned, hposts,
      fun e he => setClosed_refs he, fun hq ha hs => ?_, ?_, ?_⟩
    · change (setClosed n set s).roll.slot n = _
      rw [hroll]
      exact RollMap.slot_setSlot_self hmem _
    · refine ⟨rfl, rfl, rfl, rfl, rfl, rfl, rfl, rfl, rfl, ?_⟩
      rw [close_eq, List.map_map]
      rfl
    · change (setClosed n set s).roll.closeList = _
      rw [hroll]
      rfl
    · change (setClosed n set s).roll.register = _
      rw [hroll]
      rfl
    · change (setClosed n set s).roll.mapsLost = _
      rw [hroll]
      rfl
    · have hnot : (s.roll.slot m).isWinding = false := by
        by_contra hw
        refine hne (RollMap.winding_unique ?_ hm hmem (by simpa using hw) (by rw [hr]; rfl))
        rw [hs.1]
        split <;> decide
      change (setClosed n set s).roll.slot m = _
      rw [hroll]
      refine (RollMap.slot_setSlot_other hmem hm hne _).trans ?_
      rw [RollMap.slot_mapWinding, Slot.mapWinding_of_not hnot]
    · change (setClosed n set s).queue.flow.returned % _ = _
      rw [hflow]
      exact hreturned
    · change (setClosed n set s).queue.flow.unmapped % _ = _
      rw [hflow]
      exact hunmapped
    · intro kept changes
      have hsim := setClosed_planner (n := n) (set := set) hj hq ha
      rw [ofSet_removed hs] at hsim
      exact (hsim.congr_right rfl rfl rfl rfl rfl rfl).plannerAs
    · change (setClosed n set s).job = _
      rw [hframe]
    · generalize setClosed n set s = t at hframe ⊢
      rw [hframe]
      exact ⟨rfl, rfl, rfl, rfl, rfl, rfl, rfl, rfl, rfl, rfl, fun q hq => State.replied_port_other rfl hq _ _ _⟩

end Sys2Proof.Machine
end

