-- ==== Sys2Proof/Proofs/CutRemovals.lean ====
section
/-! PROOFS. The removals of a SPLICE-MADE (R113, R114): records taken out of the queue and items taken out of the roll, one after
the other, while the cut is open. -/

namespace Sys2Proof.Machine

/-! ## The roll after removals (R80, R113) -/

/-- A lane without the entries of the numbered records, taken out one number after the other. -/
def LaneRecord.cutOut (ns : List Nat) (lane : LaneRecord) : LaneRecord :=
  ns.foldr (fun n x => x.without (fun e => decide (e.record = n)) (fun e => decide (e.record = n))) lane

/-- The winding set's record after `k` removals, of which those of the numbered records touched the lanes. -/
def SetRecord.cutOut (k : Nat) (ns : List Nat) (set : SetRecord) : SetRecord :=
  { set with lanes := set.lanes.map (LaneRecord.cutOut ns), removedTally := tallied set.removedTally k }

/-- The roll map after `k` removals, of which those of the numbered records touched the lanes and the register. -/
def RollMap.cutOut (k : Nat) (ns : List Nat) (m : RollMap) : RollMap :=
  { (m.mapWinding (SetRecord.cutOut k ns)) with
    register := m.register.filter (fun it => decide (it.body.number ∉ ns)) }

theorem tallied_succ (x k : Nat) : tallied x (k + 1) = holdAt 65535 (tallied x k + 1) := by
  unfold tallied holdAt
  split
  · omega
  · split <;> omega

theorem filter_not_mem_cons {α : Type} (f : α → Nat) (n : Nat) (ns : List Nat) (l : List α) :
    (l.filter (fun e => decide (f e ∉ ns))).filter (fun e => decide (f e ≠ n)) =
      l.filter (fun e => decide (f e ∉ n :: ns)) := by
  rw [List.filter_filter]
  refine List.filter_congr fun e _ => ?_
  rw [← Bool.decide_and, decide_eq_decide, List.mem_cons, not_or]

theorem countP_mem_cons {α : Type} (f : α → Nat) (n : Nat) (ns : List Nat) (l : List α) :
    l.countP (fun e => decide (f e ∈ n :: ns)) =
      l.countP (fun e => decide (f e ∈ ns)) + (l.filter (fun e => decide (f e ∉ ns))).countP (fun e => decide (f e = n)) := by
  induction l with
  | nil => rfl
  | cons e l ih =>
    rw [List.countP_cons, List.countP_cons, ih, List.filter_cons]
    by_cases hmem : f e ∈ ns
    · simp only [hmem, List.mem_cons, or_true, not_true_eq_false, decide_true, decide_false, if_true, Bool.false_eq_true, if_false]
      omega
    · simp only [hmem, List.mem_cons, or_false, not_false_eq_true, decide_true, decide_false, if_true, Bool.false_eq_true,
        if_false, List.countP_cons]
      omega

namespace LaneRecord

variable (ns : List Nat) (lane : LaneRecord)

/-- Only the entries and the edit count of a lane follow the removals. -/
theorem cutOut_eq : lane.cutOut ns = { lane with
    defects := lane.defects.filter (fun e => decide (e.record ∉ ns))
    splices := lane.splices.filter (fun e => decide (e.record ∉ ns))
    edits := (lane.cutOut ns).edits } := by
  induction ns with
  | nil => simp [cutOut]
  | cons n ns ih =>
    rw [← filter_not_mem_cons (fun e : DefectEntry => e.record), ← filter_not_mem_cons (fun e : SpliceEntry => e.record)]
    rw [cutOut, List.foldr_cons, ← cutOut]
    generalize lane.cutOut ns = x at ih ⊢
    rw [ih]
    simp [LaneRecord.without, LaneRecord.edited]

theorem cutOut_defects : (lane.cutOut ns).defects = lane.defects.filter (fun e => decide (e.record ∉ ns)) := by
  rw [cutOut_eq]

theorem cutOut_splices : (lane.cutOut ns).splices = lane.splices.filter (fun e => decide (e.record ∉ ns)) := by
  rw [cutOut_eq]

/-- Each entry taken out is an edit (R80). -/
theorem cutOut_edits : (lane.cutOut ns).edits % 65536 = (lane.edits + lane.defects.countP (fun e => decide (e.record ∈ ns)) +
    lane.splices.countP (fun e => decide (e.record ∈ ns))) % 65536 := by
  induction ns with
  | nil => simp [cutOut]
  | cons n ns ih =>
    have hstep : (lane.cutOut (n :: ns)).edits = wrap16 (lane.cutOut ns).edits
        ((lane.cutOut ns).defects.countP (fun e => decide (e.record = n)) +
          (lane.cutOut ns).splices.countP (fun e => decide (e.record = n))) := rfl
    rw [hstep, wrap16, cutOut_defects, cutOut_splices, countP_mem_cons (fun e : DefectEntry => e.record),
      countP_mem_cons (fun e : SpliceEntry => e.record)]
    omega

end LaneRecord

theorem cutOut_isUnwound (k : Nat) (ns : List Nat) (set : SetRecord) (n : Nat) :
    (set.cutOut k ns).isUnwound n = (decide (n ∉ ns) && set.isUnwound n) := by
  simp only [SetRecord.isUnwound, SetRecord.cutOut, List.any_map, Function.comp_def, LaneRecord.cutOut_defects,
    LaneRecord.cutOut_splices, List.any_filter]
  by_cases hn : n ∈ ns
  · simp only [hn, not_true_eq_false, decide_false, Bool.false_and]
    rw [List.any_eq_false]
    intro lane _
    simp only [Bool.or_eq_true, List.any_eq_true, Bool.and_eq_true, decide_eq_true_eq, not_or, not_exists, not_and]
    exact ⟨fun e _ hm he => absurd (he ▸ hn) hm, fun e _ hm he => absurd (he ▸ hn) hm⟩
  · simp only [hn, not_false_eq_true, decide_true, Bool.true_and]
    congr 1
    funext lane
    congr 2 <;> funext e <;> by_cases he : e.record = n <;> simp [he, hn]

theorem RollMap.cutOut_windingSet (k : Nat) (ns : List Nat) (m : RollMap) :
    (m.cutOut k ns).windingSet = m.windingSet.map (SetRecord.cutOut k ns) :=
  RollMap.windingSet_mapWinding _ m

theorem RollMap.cutOut_nil (m : RollMap) : m.cutOut 0 [] = m := by
  have hset : SetRecord.cutOut 0 [] = id := by
    funext set
    rw [SetRecord.cutOut, show LaneRecord.cutOut [] = id from rfl, List.map_id]
    rfl
  have hslot : Slot.mapWinding id = id := by
    funext x
    cases x <;> rfl
  have hslots : (m.mapWinding id).slots = m.slots := by rw [RollMap.mapWinding_slots, hslot, Vector.map_id]
  have hregister : m.register.filter (fun it => decide (it.body.number ∉ ([] : List Nat))) = m.register := by simp
  rw [RollMap.cutOut, hset, hregister]
  change { m with slots := (m.mapWinding id).slots } = m
  rw [hslots]

/-! ## Removals one after the other -/

/-- The part after records have been removed from the queue, with the given joining numbers, and items from the roll, with the given
record numbers, the latest first. -/
inductive Removed (s : State) : State → List Nat → List Nat → Prop
  | start : Removed s s [] []
  | fromQueue {u : State} {js ns : List Nat} {r : PathRecord} (h : Removed s u js ns) (hr : r ∈ u.queue.records) :
      Removed s (removeRecord r u) (r.joined :: js) ns
  | fromRoll {u : State} {js ns : List Nat} {n : Nat} (h : Removed s u js ns) (hn : u.unwoundItem n = true) :
      Removed s (removeFromRoll n u) js (n :: ns)

/-- What stands of the queue around a removal is what the planner does not touch. -/
theorem removeRecord_only (r : PathRecord) (u : State) :
    PlannerOnly (State.countFlow (Flow.addRemoved 1) (u.withQueue (u.queue.leave r)))
      { removeRecord r u with roll := u.roll } := by
  have h := PlannerOnly.cancelRecordStop r (State.countFlow (Flow.addRemoved 1) (u.withQueue (u.queue.leave r)))
  refine ⟨?_, h.queue, h.records⟩
  rw [removeRecord, countRemoved, State.mapWinding]
  rw [h.frame]
  rfl

/-- A record removed is counted; the records left are the others, but for the stop entry ids they hold. -/
theorem removeRecord_queue (r : PathRecord) (u : State) :
    (removeRecord r u).queue = { u.queue with records := (removeRecord r u).queue.records,
                                              changes := (removeRecord r u).queue.changes,
                                              flow := Flow.addRemoved 1 u.queue.flow } ∧
      (removeRecord r u).queue.records.map PathRecord.bare =
        (u.queue.records.filter (fun x => decide (x.joined ≠ r.joined))).map PathRecord.bare :=
  ⟨(removeRecord_only r u).queue, (removeRecord_only r u).records⟩

theorem removeRecord_roll (r : PathRecord) (u : State) : (removeRecord r u).roll = (countRemoved u).roll := by
  rw [removeRecord, countRemoved, countRemoved, State.mapWinding, State.mapWinding]
  simp [State.countFlow, State.withQueue]

theorem countRemoved_cutOut (k : Nat) (ns : List Nat) {s u : State} (h : u.roll = s.roll.cutOut k ns) :
    (countRemoved u).roll = s.roll.cutOut (k + 1) ns := by
  rw [countRemoved, State.mapWinding_roll, h]
  have hmap := RollMap.mapWinding_mapWinding (SetRecord.cutOut k ns)
    (fun r => { r with removedTally := holdAt 65535 (r.removedTally + 1) }) s.roll
  refine Eq.trans (b := { ((s.roll.mapWinding (SetRecord.cutOut k ns)).mapWinding
    (fun r => { r with removedTally := holdAt 65535 (r.removedTally + 1) })) with
      register := s.roll.register.filter (fun it => decide (it.body.number ∉ ns)) }) rfl ?_
  have hfun : (fun r : SetRecord => { r with removedTally := holdAt 65535 (r.removedTally + 1) }) ∘ SetRecord.cutOut k ns =
      SetRecord.cutOut (k + 1) ns := by
    funext set
    simp only [Function.comp_apply, SetRecord.cutOut, tallied_succ]
  rw [hmap, hfun]
  rfl

theorem removeFromRoll_cutOut (k n : Nat) (ns : List Nat) {s u : State} (h : u.roll = s.roll.cutOut k ns) :
    (removeFromRoll n u).roll = s.roll.cutOut (k + 1) (n :: ns) := by
  refine countRemoved_cutOut k (n :: ns) (s := s) ?_
  have hmap := RollMap.mapWinding_mapWinding (SetRecord.cutOut k ns) (fun r => { r with lanes := r.lanes.map (LaneRecord.without
    (fun e => decide (e.record = n)) (fun e => decide (e.record = n))) }) s.roll
  have hfun : (fun r : SetRecord => { r with lanes := r.lanes.map (LaneRecord.without
      (fun e => decide (e.record = n)) (fun e => decide (e.record = n))) }) ∘ SetRecord.cutOut k ns =
      SetRecord.cutOut k (n :: ns) := by
    funext set
    simp only [Function.comp_apply, SetRecord.cutOut, List.map_map]
    rfl
  rw [hfun] at hmap
  dsimp only
  rw [h]
  refine Eq.trans (b := { ((s.roll.mapWinding (SetRecord.cutOut k ns)).mapWinding
    (fun r => { r with lanes := r.lanes.map (LaneRecord.without
      (fun e => decide (e.record = n)) (fun e => decide (e.record = n))) })) with
      register := (s.roll.register.filter (fun it => decide (it.body.number ∉ ns))).filter
        (fun it => decide (it.body.number ≠ n)) }) rfl ?_
  rw [hmap, filter_not_mem_cons (fun it : RegisterItem => it.body.number)]
  rfl

namespace Removed

variable {s u : State} {js ns : List Nat}

theorem roll (h : Removed s u js ns) : u.roll = s.roll.cutOut (js.length + ns.length) ns := by
  induction h with
  | start => exact (RollMap.cutOut_nil s.roll).symm
  | fromQueue h hr ih =>
    rw [removeRecord_roll, countRemoved_cutOut _ _ ih, List.length_cons]
    congr 1
    omega
  | fromRoll h hn ih =>
    rw [removeFromRoll_cutOut _ _ _ ih, List.length_cons]
    rfl

/-- Nothing else of the part follows the removals. -/
theorem frame (h : Removed s u js ns) :
    u = { s with queue := u.queue, roll := u.roll, stops := u.stops, alerts := u.alerts } := by
  induction h with
  | start => rfl
  | @fromQueue u js ns r h hr ih =>
    have honly := congrArg (fun v : State => { v with roll := (removeRecord r u).roll }) (removeRecord_only r u).frame
    refine Eq.trans (b := { removeRecord r u with roll := (removeRecord r u).roll }) rfl (honly.trans ?_)
    rw [ih]
    rfl
  | @fromRoll u js ns n h hn ih =>
    rw [ih]
    rfl

/-- Each record removed is counted (R73). -/
theorem queue (h : Removed s u js ns) :
    u.queue = { s.queue with records := u.queue.records, changes := u.queue.changes,
                             flow := { s.queue.flow with removed := u.queue.flow.removed } } ∧
      u.queue.flow.removed % 4294967296 = (s.queue.flow.removed + js.length) % 4294967296 := by
  induction h with
  | start => exact ⟨rfl, rfl⟩
  | @fromQueue u js ns r h hr ih =>
    have hqueue := (removeRecord_queue r u).1
    generalize (removeRecord r u).queue = q at hqueue ⊢
    have hflow : q.flow = Flow.addRemoved 1 u.queue.flow := by rw [hqueue]
    refine ⟨?_, ?_⟩
    · rw [hqueue, ih.1]
      rfl
    · rw [hflow, List.length_cons]
      change (u.queue.flow.removed + 1) % 4294967296 % 4294967296 = _
      omega
  | fromRoll h hn ih => exact ih

/-- The records left are those with another joining number, but for the stop entry ids they hold. -/
theorem records (h : Removed s u js ns) : u.queue.records.map PathRecord.bare =
    (s.queue.records.filter (fun r => decide (r.joined ∉ js))).map PathRecord.bare := by
  have hbare (l : List Nat) (q : List PathRecord) :
      (q.map PathRecord.bare).filter (fun r => decide (r.joined ∉ l)) = (q.filter (fun r => decide (r.joined ∉ l))).map PathRecord.bare :=
    filter_map_bare (p := fun r => decide (r.joined ∉ l)) (fun _ => rfl) q
  induction h with
  | start => simp
  | @fromQueue u js ns r h hr ih =>
    have hone : (u.queue.records.filter (fun x => decide (x.joined ≠ r.joined))).map PathRecord.bare =
        (u.queue.records.map PathRecord.bare).filter (fun x => decide (x.joined ≠ r.joined)) :=
      (filter_map_bare (p := fun x => decide (x.joined ≠ r.joined)) (fun _ => rfl) _).symm
    refine (removeRecord_queue r u).2.trans (hone.trans ?_)
    rw [ih, ← hbare, filter_not_mem_cons (fun r : PathRecord => r.joined), hbare]
  | fromRoll h hn ih => exact ih

theorem mem_of (h : Removed s u js ns) {r : PathRecord} (hr : r ∈ u.queue.records) :
    r.joined ∉ js ∧ ∃ r' ∈ s.queue.records, r'.bare = r.bare := by
  have hmem : r.bare ∈ u.queue.records.map PathRecord.bare := List.mem_map_of_mem hr
  rw [h.records] at hmem
  obtain ⟨r', hr', hbare⟩ := List.mem_map.1 hmem
  obtain ⟨hin, hnot⟩ := List.mem_filter.1 hr'
  refine ⟨?_, r', hin, hbare⟩
  rw [← (bare_eq_iff.1 hbare).2.2]
  exact of_decide_eq_true hnot

theorem mem (h : Removed s u js ns) {r : PathRecord} (hr : r ∈ s.queue.records) (hj : r.joined ∉ js) :
    ∃ r' ∈ u.queue.records, r'.bare = r.bare := by
  have hmem : r.bare ∈ (s.queue.records.filter (fun r => decide (r.joined ∉ js))).map PathRecord.bare :=
    List.mem_map_of_mem (List.mem_filter.2 ⟨hr, decide_eq_true hj⟩)
  rw [← h.records] at hmem
  exact List.mem_map.1 hmem

theorem joined_mem (h : Removed s u js ns) : ∀ j ∈ js, ∃ r ∈ s.queue.records, r.joined = j := by
  induction h with
  | start => exact fun j hj => absurd hj List.not_mem_nil
  | fromQueue h hr ih =>
    obtain ⟨-, r', hr', hbare⟩ := h.mem_of hr
    exact List.forall_mem_cons.2 ⟨⟨r', hr', (bare_eq_iff.1 hbare).2.2⟩, ih⟩
  | fromRoll h hn ih => exact ih

theorem joined_nodup (h : Removed s u js ns) : js.Nodup := by
  induction h with
  | start => exact List.nodup_nil
  | fromQueue h hr ih => exact List.nodup_cons.2 ⟨(h.mem_of hr).1, ih⟩
  | fromRoll h hn ih => exact ih

/-- An item is UNWOUND after removals exactly when it was and has not been removed. -/
theorem unwoundItem_iff (h : Removed s u js ns) {n : Nat} :
    u.unwoundItem n = true ↔ n ∉ ns ∧ s.unwoundItem n = true := by
  have hany : (s.roll.register.filter (fun it => decide (it.body.number ∉ ns))).any (fun it => decide (it.body.number = n)) =
      (decide (n ∉ ns) && s.roll.register.any (fun it => decide (it.body.number = n))) := by
    rw [List.any_filter, Bool.eq_iff_iff]
    simp only [List.any_eq_true, Bool.and_eq_true, decide_eq_true_eq]
    exact ⟨fun ⟨it, hit, hnot, heq⟩ => ⟨heq ▸ hnot, it, hit, heq⟩, fun ⟨hnot, it, hit, heq⟩ => ⟨it, hit, heq ▸ hnot, heq⟩⟩
  unfold State.unwoundItem
  rw [h.roll, RollMap.cutOut_windingSet]
  cases hset : s.roll.windingSet with
  | none => simp
  | some set =>
    change (_ && (set.cutOut _ ns).isUnwound n) = true ↔ _
    rw [cutOut_isUnwound]
    change ((s.roll.register.filter _).any _ && _) = true ↔ _
    rw [hany]
    simp only [Bool.and_eq_true, decide_eq_true_eq]
    tauto

theorem numbers_nodup (h : Removed s u js ns) : ns.Nodup := by
  induction h with
  | start => exact List.nodup_nil
  | fromQueue h hr ih => exact ih
  | fromRoll h hn ih => exact List.nodup_cons.2 ⟨(h.unwoundItem_iff.1 hn).1, ih⟩

theorem numbers_unwound (h : Removed s u js ns) : ∀ n ∈ ns, s.unwoundItem n = true := by
  induction h with
  | start => exact fun n hn => absurd hn List.not_mem_nil
  | fromQueue h hr ih => exact ih
  | fromRoll h hn ih => exact List.forall_mem_cons.2 ⟨(h.unwoundItem_iff.1 hn).2, ih⟩

end Removed

/-! ## The stop entries of the records removed (R71, R72) -/

/-- A record that a test picks holds the stop entry id. -/
def State.idCut (s : State) (out : PathRecord → Bool) (id : Nat) : Bool :=
  s.queue.records.any (fun x => out x && decide (x.stopId = some id))

/-- A record after the entries with the ids that a test picks have left the list (R72). -/
def PathRecord.clearedBy (l : List StopEntry) (gone : Nat → Bool) (r : PathRecord) : PathRecord :=
  { r with stopId := if l.any (fun e => decide (e.ref = .record r.body.number ∧ r.stopId = some e.id) && gone e.id) then none
                     else r.stopId }

theorem clearedBy_congr {l : List StopEntry} {f g : Nat → Bool} (h : ∀ e ∈ l, f e.id = g e.id) (r : PathRecord) :
    r.clearedBy l f = r.clearedBy l g := by
  have hany : l.any (fun e => decide (e.ref = .record r.body.number ∧ r.stopId = some e.id) && f e.id) =
      l.any (fun e => decide (e.ref = .record r.body.number ∧ r.stopId = some e.id) && g e.id) := by
    rw [Bool.eq_iff_iff, List.any_eq_true, List.any_eq_true]
    exact exists_congr fun e => and_congr_right fun he => by rw [h e he]
  rw [PathRecord.clearedBy, PathRecord.clearedBy, hany]

theorem clearedBy_stopId {l : List StopEntry} {gone : Nat → Bool} {r : PathRecord} {id : Nat} :
    (r.clearedBy l gone).stopId = some id ↔ r.stopId = some id ∧
      ∀ e ∈ l, e.ref = .record r.body.number → e.id = id → gone e.id = false := by
  unfold PathRecord.clearedBy
  by_cases hid : r.stopId = some id
  · simp only [hid, Option.some.injEq, true_and]
    rw [ite_eq_iff]
    simp only [reduceCtorEq, and_false, false_or, and_true, List.any_eq_true, Bool.and_eq_true, decide_eq_true_eq, not_exists, not_and]
    exact forall₂_congr fun e _ => ⟨fun h hr hi => Bool.eq_false_iff.2 (h ⟨hr, hi.symm⟩), fun h hr => Bool.eq_false_iff.1 (h hr.1 hr.2.symm)⟩
  · simp only [hid, false_and, iff_false]
    split
    · exact nofun
    · exact hid

theorem cancelRecordStop_of_not_held {r : PathRecord} {u : State} (h : ∀ e ∈ u.stops.entries, r.stopId ≠ some e.id) :
    cancelRecordStop r u = u := by
  unfold cancelRecordStop
  split
  · rfl
  next id hid =>
    unfold cancelStopId
    rw [List.find?_eq_none.2 fun e he => by simpa using fun heq : e.id = id => h e he (heq ▸ hid)]

theorem cancelRecordStop_open {r : PathRecord} {e : StopEntry} {u : State} (hc : u.job.state.isCutOpen = true)
    (hn : (u.stops.entries.map (·.id)).Nodup) (he : e ∈ u.stops.entries) (hid : r.stopId = some e.id) :
    cancelRecordStop r u = u.stopRemoved e := by
  have hfind : u.stops.entries.find? (fun x => decide (x.id = e.id)) = some e := by
    obtain ⟨x, hx⟩ := Option.isSome_iff_exists.1 (List.find?_isSome (p := fun x : StopEntry => decide (x.id = e.id)) |>.2
      ⟨e, he, decide_eq_true rfl⟩)
    rw [hx, List.inj_on_of_nodup_map hn (List.mem_of_find?_eq_some hx) he (by simpa using List.find?_some hx)]
  have hopen : evaluate (u.stopRemoved e) = u.stopRemoved e := evaluate_of_cutOpen hc
  unfold cancelRecordStop
  rw [hid]
  exact (cancelStopId_eq hfind).trans hopen

theorem idCut_cons {s : State} {r : PathRecord} {js : List Nat} (hn : (s.queue.records.map (·.joined)).Nodup)
    (hr : r ∈ s.queue.records) (id : Nat) : s.idCut (fun x => decide (x.joined ∈ r.joined :: js)) id =
      (s.idCut (fun x => decide (x.joined ∈ js)) id || decide (r.stopId = some id)) := by
  unfold State.idCut
  rw [Bool.eq_iff_iff]
  simp only [Bool.or_eq_true, List.any_eq_true, Bool.and_eq_true, decide_eq_true_eq, List.mem_cons]
  constructor
  · rintro ⟨x, hx, hj | hj, hid⟩
    · exact .inr (List.inj_on_of_nodup_map hn hx hr hj ▸ hid)
    · exact .inl ⟨x, hx, hj, hid⟩
  · rintro (⟨x, hx, hj, hid⟩ | hid)
    · exact ⟨x, hx, .inr hj, hid⟩
    · exact ⟨r, hr, .inl rfl, hid⟩

theorem countP_id_eq_one {l : List StopEntry} (hn : (l.map (·.id)).Nodup) {e : StopEntry} (he : e ∈ l) :
    l.countP (fun x => decide (x.id = e.id)) = 1 := by
  have hcount := List.count_eq_one_of_mem hn (List.mem_map_of_mem (f := fun x : StopEntry => x.id) he)
  rwa [List.count, List.countP_map] at hcount

/-- The planner's part and the records of the queue after removals with the cut open. -/
structure Removed.PlannerPart (s u : State) (js : List Nat) : Prop where
  alerts : u.alerts = s.alerts
  entries : u.stops.entries = s.stops.entries.filter (fun e => !s.idCut (fun x => decide (x.joined ∈ js)) e.id)
  stops : u.stops = { s.stops with entries := u.stops.entries, changes := u.stops.changes }
  changes : (u.stops.changes + u.stops.entries.length) % 65536 = (s.stops.changes + s.stops.entries.length) % 65536
  records : u.queue.records = (s.queue.records.filter (fun r => decide (r.joined ∉ js))).map
    (PathRecord.clearedBy s.stops.entries (s.idCut (fun x => decide (x.joined ∈ js))))

theorem clearedFrom_clearedBy {l : List StopEntry} (hn : (l.map (·.id)).Nodup) {e : StopEntry} (he : e ∈ l) (gone : Nat → Bool)
    (r : PathRecord) : e.clearedFrom (r.clearedBy l gone) = r.clearedBy l (fun id => gone id || decide (e.id = id)) := by
  have hbody : (e.clearedFrom (r.clearedBy l gone)).bare = (r.clearedBy l (fun id => gone id || decide (e.id = id))).bare := by
    unfold StopEntry.clearedFrom
    split <;> rfl
  have hid : (e.clearedFrom (r.clearedBy l gone)).stopId = (r.clearedBy l (fun id => gone id || decide (e.id = id))).stopId := by
    refine Option.ext fun id => ?_
    simp only [clearedFrom_stopId, clearedBy_stopId, Bool.or_eq_false_iff, decide_eq_false_iff_not]
    constructor
    · rintro ⟨⟨hid, hall⟩, hnot⟩
      exact ⟨hid, fun x hx hr hi => ⟨hall x hx hr hi, fun heq => hnot
        ⟨List.inj_on_of_nodup_map hn hx he heq.symm ▸ hr, heq.trans hi⟩⟩⟩
    · rintro ⟨hid, hall⟩
      exact ⟨⟨hid, fun x hx hr hi => (hall x hx hr hi).1⟩, fun ⟨hr, hi⟩ => (hall e he hr hi).2 rfl⟩
  obtain ⟨h1, h2, h3⟩ := bare_eq_iff.1 hbody
  generalize e.clearedFrom (r.clearedBy l gone) = a at h1 h2 h3 hid
  generalize r.clearedBy l (fun id => gone id || decide (e.id = id)) = b at h1 h2 h3 hid
  cases a
  cases b
  simp only [PathRecord.mk.injEq]
  exact ⟨h1, h2, hid, h3⟩

theorem Removed.plannerPart {s u : State} {js ns : List Nat} (h : Removed s u js ns) (hc : s.job.state.isCutOpen = true)
    (hids : (s.stops.entries.map (·.id)).Nodup) (hn : (s.queue.records.map (·.joined)).Nodup) : PlannerPart s u js := by
  induction h with
  | start =>
    have hnone : s.idCut (fun x => decide (x.joined ∈ ([] : List Nat))) = fun _ => false := by
      funext id
      simp [State.idCut]
    refine ⟨rfl, ?_, rfl, rfl, ?_⟩
    · rw [hnone]
      simp
    · have hclear : PathRecord.clearedBy s.stops.entries (fun _ => false) = id := by
        funext r
        simp [PathRecord.clearedBy]
      rw [hnone, hclear]
      simp
  | fromRoll h hn' ih => exact ⟨ih.alerts, ih.entries, ih.stops, ih.changes, ih.records⟩
  | @fromQueue u js ns r h hr ih =>
    have hopen : u.job.state.isCutOpen = true := by rw [h.frame]; exact hc
    obtain ⟨r₀, hr₀, rfl⟩ : ∃ r₀ ∈ s.queue.records, r₀.clearedBy s.stops.entries (s.idCut (fun x => decide (x.joined ∈ js))) = r := by
      rw [ih.records] at hr
      obtain ⟨r₀, hr₀, heq⟩ := List.mem_map.1 hr
      exact ⟨r₀, List.mem_of_mem_filter hr₀, heq⟩
    have hfilter : u.queue.records.filter (fun x => decide (x.joined ≠ r₀.joined)) =
        (s.queue.records.filter (fun r => decide (r.joined ∉ r₀.joined :: js))).map
          (PathRecord.clearedBy s.stops.entries (s.idCut (fun x => decide (x.joined ∈ js)))) := by
      rw [ih.records, List.filter_map, ← filter_not_mem_cons (fun r : PathRecord => r.joined)]
      rfl
    have hsub : ∀ e ∈ u.stops.entries, e ∈ s.stops.entries ∧ s.idCut (fun x => decide (x.joined ∈ js)) e.id = false := by
      intro e he
      rw [ih.entries] at he
      obtain ⟨hin, hnot⟩ := List.mem_filter.1 he
      exact ⟨hin, by simpa using hnot⟩
    have hidsu : (u.stops.entries.map (·.id)).Nodup := by
      rw [ih.entries]
      exact hids.sublist (List.filter_sublist.map _)
    by_cases hheld : ∃ e ∈ u.stops.entries, (r₀.clearedBy s.stops.entries (s.idCut (fun x => decide (x.joined ∈ js)))).stopId = some e.id
    · obtain ⟨e, he, hid⟩ := hheld
      have hgone : s.idCut (fun x => decide (x.joined ∈ r₀.joined :: js)) =
          fun id => s.idCut (fun x => decide (x.joined ∈ js)) id || decide (e.id = id) := by
        funext id
        rw [idCut_cons hn hr₀, (clearedBy_stopId.1 hid).1]
        simp only [Option.some.injEq]
      have hrecords := congrArg (List.map e.clearedFrom) hfilter
      have hclears : e.clearedFrom ∘ PathRecord.clearedBy s.stops.entries (s.idCut (fun x => decide (x.joined ∈ js))) =
          PathRecord.clearedBy s.stops.entries (s.idCut (fun x => decide (x.joined ∈ r₀.joined :: js))) := by
        funext r
        rw [hgone]
        exact clearedFrom_clearedBy hids (hsub e he).1 _ r
      rw [List.map_map, hclears] at hrecords
      have hentries : u.stops.entries.filter (fun x => decide (x.id ≠ e.id)) =
          s.stops.entries.filter (fun x => !s.idCut (fun x => decide (x.joined ∈ r₀.joined :: js)) x.id) := by
        rw [ih.entries, List.filter_filter, hgone]
        refine List.filter_congr fun x _ => ?_
        rw [Bool.not_or, Bool.and_comm, ← decide_not]
        exact congrArg _ (decide_eq_decide.2 ne_comm)
      have hlength : (u.stops.entries.filter (fun x => decide (x.id ≠ e.id))).length + 1 = u.stops.entries.length := by
        have := countP_id_eq_one hidsu he
        rw [List.length_eq_countP_add_countP (fun x : StopEntry => decide (x.id = e.id)) (l := u.stops.entries), this,
          List.countP_eq_length_filter, add_comm]
        simp only [decide_eq_true_eq]
      unfold removeRecord
      rw [cancelRecordStop_open (e := e)
        (u := State.countFlow (Flow.addRemoved 1) (u.withQueue (u.queue.leave (r₀.clearedBy _ _)))) hopen hidsu he hid]
      refine ⟨ih.alerts, hentries, ?_, ?_, ?_⟩
      · exact congrArg (fun pl : StopPlanner => { pl with
          entries := u.stops.entries.filter (fun x => decide (x.id ≠ e.id)), changes := (u.stops.changes + 1) % 65536 }) ih.stops
      · change ((u.stops.changes + 1) % 65536 + (u.stops.entries.filter (fun x => decide (x.id ≠ e.id))).length) % 65536 = _
        rw [← ih.changes, ← hlength]
        omega
      · exact (stopRemoved_records e _).trans hrecords
    · have hgone : ∀ e ∈ s.stops.entries, s.idCut (fun x => decide (x.joined ∈ js)) e.id =
          s.idCut (fun x => decide (x.joined ∈ r₀.joined :: js)) e.id := by
        intro e he
        rw [idCut_cons hn hr₀]
        cases hcut : s.idCut (fun x => decide (x.joined ∈ js)) e.id with
        | true => rfl
        | false =>
          refine (decide_eq_false fun hid => hheld ⟨e, ?_, clearedBy_stopId.2 ⟨hid, fun x hx _ hxe => hxe ▸ hcut⟩⟩).symm
          rw [ih.entries]
          exact List.mem_filter.2 ⟨he, by rw [hcut]; rfl⟩
      unfold removeRecord
      rw [cancelRecordStop_of_not_held (u := State.countFlow (Flow.addRemoved 1) (u.withQueue (u.queue.leave (r₀.clearedBy _ _))))
        fun e he hid => hheld ⟨e, he, hid⟩]
      refine ⟨ih.alerts, ?_, ih.stops, ih.changes, ?_⟩
      · exact ih.entries.trans (List.filter_congr fun e he => congrArg (!·) (hgone e he))
      · exact hfilter.trans (List.map_congr_left fun r _ => clearedBy_congr hgone r)

/-- Where each id in the queue is that of an entry made for its holder, no other record gives up an id, and each removal is one
change of the queue (R72, R181). -/
theorem Removed.changes {s u : State} {js ns : List Nat} (h : Removed s u js ns) (hc : s.job.state.isCutOpen = true)
    (hids : (s.stops.entries.map (·.id)).Nodup) (hn : (s.queue.records.map (·.joined)).Nodup)
    (hnumbers : (s.queue.records.map (·.body.number)).Nodup) (hm : s.StopIdsMatch) :
    u.queue.changes % 65536 = (s.queue.changes + js.length) % 65536 := by
  induction h with
  | start => rfl
  | fromRoll h hn' ih => exact ih
  | @fromQueue u js ns r h hr ih =>
    have hpart := h.plannerPart hc hids hn
    have hopen : u.job.state.isCutOpen = true := by rw [h.frame]; exact hc
    suffices hqueue : (removeRecord r u).queue.changes = (u.queue.changes + 1) % 65536 by
      rw [hqueue, List.length_cons]
      omega
    by_cases hheld : ∃ e ∈ u.stops.entries, r.stopId = some e.id
    · obtain ⟨e, he, hid⟩ := hheld
      have hidsu : (u.stops.entries.map (·.id)).Nodup := by
        rw [hpart.entries]
        exact hids.sublist (List.filter_sublist.map _)
      have hes : e ∈ s.stops.entries := by
        rw [hpart.entries] at he
        exact List.mem_of_mem_filter he
      have hback : ∀ y ∈ u.queue.records, ∃ y₀ ∈ s.queue.records, y₀.bare = y.bare ∧ (y.stopId = some e.id → y₀.stopId = some e.id) := by
        intro y hy
        rw [hpart.records] at hy
        obtain ⟨y₀, hy₀, rfl⟩ := List.mem_map.1 hy
        exact ⟨y₀, List.mem_of_mem_filter hy₀, rfl, fun hy => (clearedBy_stopId.1 hy).1⟩
      obtain ⟨r₀, hr₀, hbare, hback₀⟩ := hback r hr
      obtain ⟨e', he', hid', href⟩ := hm r₀ hr₀ e.id (hback₀ hid)
      obtain rfl := List.inj_on_of_nodup_map hids he' hes hid'
      have hnone : ∀ y ∈ (u.queue.leave r).records, ¬ (e'.ref = .record y.body.number ∧ y.stopId = some e'.id) := by
        rintro y hy ⟨hy', -⟩
        obtain ⟨hy, hne⟩ := List.mem_filter.1 hy
        obtain ⟨y₀, hy₀, hybare, -⟩ := hback y hy
        have hnumber : y₀.body.number = r₀.body.number := by
          rw [href] at hy'
          rw [(bare_eq_iff.1 hybare).1]
          exact (StopRef.record.inj hy').symm
        obtain rfl := List.inj_on_of_nodup_map hnumbers hy₀ hr₀ hnumber
        exact of_decide_eq_true hne ((bare_eq_iff.1 hybare).2.2.symm.trans (bare_eq_iff.1 hbare).2.2)
      unfold removeRecord
      rw [cancelRecordStop_open (e := e') (u := State.countFlow (Flow.addRemoved 1) (u.withQueue (u.queue.leave r))) hopen hidsu he hid]
      have hstands := withStopId_none (q := (State.countFlow (Flow.addRemoved 1) (u.withQueue (u.queue.leave r))).queue)
        (which := fun y => decide (e'.ref = .record y.body.number ∧ y.stopId = some e'.id)) none
        (List.any_eq_false.2 fun y hy => by rw [decide_eq_true_iff]; exact hnone y hy)
      exact congrArg PathQueue.changes hstands
    · unfold removeRecord
      rw [cancelRecordStop_of_not_held (u := State.countFlow (Flow.addRemoved 1) (u.withQueue (u.queue.leave r)))
        fun e he hid => hheld ⟨e, he, hid⟩]
      rfl

/-! ### Whatever the stop list holds -/

/-- With a cut open a cancellation takes out entries with the id the record holds, and nothing more than the id from records. -/
theorem cancelRecordStop_open_cases {r : PathRecord} {u : State} (hc : u.job.state.isCutOpen = true) :
    cancelRecordStop r u = u ∨ ∃ e : StopEntry, r.stopId = some e.id ∧ cancelRecordStop r u = u.stopRemoved e := by
  unfold cancelRecordStop
  split
  · exact .inl rfl
  next id hid =>
    cases hfind : u.stops.entries.find? (fun e => decide (e.id = id)) with
    | none =>
      left
      unfold cancelStopId
      rw [hfind]
    | some e =>
      have heq : e.id = id := by simpa using List.find?_some hfind
      have hopen : evaluate (u.stopRemoved e) = u.stopRemoved e := evaluate_of_cutOpen hc
      exact .inr ⟨e, heq ▸ hid, (cancelStopId_eq hfind).trans hopen⟩

/-- With a cut open removals post nothing, no entry is new, an id that no record held stays, and no record takes an id. -/
structure Removed.Quietly (s u : State) : Prop where
  alerts : u.alerts = s.alerts
  entries : u.stops.entries ⊆ s.stops.entries
  keeps : ∀ e ∈ s.stops.entries, (∀ r ∈ s.queue.records, r.stopId ≠ some e.id) → e ∈ u.stops.entries
  ids : ∀ r ∈ u.queue.records, ∀ id ∈ r.stopId, ∃ r₀ ∈ s.queue.records, r₀.stopId = some id

theorem Removed.quietly {s u : State} {js ns : List Nat} (h : Removed s u js ns) (hc : s.job.state.isCutOpen = true) :
    Quietly s u := by
  induction h with
  | start => exact ⟨rfl, fun _ => id, fun _ he _ => he, fun r hr id hid => ⟨r, hr, hid⟩⟩
  | fromRoll h hn ih => exact ⟨ih.alerts, ih.entries, ih.keeps, ih.ids⟩
  | @fromQueue u js ns r h hr ih =>
    have hopen : u.job.state.isCutOpen = true := by rw [h.frame]; exact hc
    have hleft : ∀ x ∈ (u.queue.leave r).records, x ∈ u.queue.records := fun x hx => List.mem_of_mem_filter hx
    unfold removeRecord
    rcases cancelRecordStop_open_cases (r := r) (u := State.countFlow (Flow.addRemoved 1) (u.withQueue (u.queue.leave r))) hopen
      with heq | ⟨e, hid, heq⟩
    · rw [heq]
      exact ⟨ih.alerts, ih.entries, ih.keeps, fun x hx => ih.ids x (hleft x hx)⟩
    · rw [heq]
      refine ⟨ih.alerts, fun x hx => ih.entries (List.mem_of_mem_filter hx), fun x hx hno => ?_, fun x hx id hx' => ?_⟩
      · refine List.mem_filter.2 ⟨ih.keeps x hx hno, decide_eq_true fun heq => ?_⟩
        obtain ⟨r₀, hr₀, hid₀⟩ := ih.ids r hr e.id hid
        exact hno r₀ hr₀ (heq ▸ hid₀)
      · obtain ⟨y, hy, rfl⟩ : ∃ y ∈ (u.queue.leave r).records, e.clearedFrom y = x := by
          have hmap := stopRemoved_records e (State.countFlow (Flow.addRemoved 1) (u.withQueue (u.queue.leave r)))
          change x ∈ (State.stopRemoved e _).queue.records at hx
          rw [hmap] at hx
          exact List.mem_map.1 hx
        exact ih.ids y (hleft y hy) id ((clearedFrom_stopId e y).1 hx').1

theorem Removed.eq_of_nothing {s u : State} (h : Removed s u [] []) : u = s := by
  cases h
  rfl

end Sys2Proof.Machine
end

