-- ==== Sys2Proof/Proofs/CutPhases.lean ====
section
/-! PROOFS. Which records and items a SPLICE-MADE removes (R113, R114): the named ones first, then those pulled through. -/

namespace Sys2Proof.Machine

/-! ## Counting what has been removed -/

/-- As many keys as elements with one of them, where no two elements have the same key. -/
theorem length_eq_countP_key {α : Type} (f : α → Nat) {l : List α} (hl : (l.map f).Nodup) {ks : List Nat} (hk : ks.Nodup)
    (hsub : ∀ k ∈ ks, ∃ x ∈ l, f x = k) : ks.length = l.countP (fun x => decide (f x ∈ ks)) := by
  have hperm : ks.Perm ((l.map f).filter (fun k => decide (k ∈ ks))) := by
    rw [List.perm_ext_iff_of_nodup hk (hl.filter _)]
    intro k
    rw [List.mem_filter, decide_eq_true_iff]
    exact ⟨fun h => ⟨List.mem_map.2 (hsub k h), h⟩, And.right⟩
  rw [hperm.length_eq, List.filter_map, List.length_map, List.countP_eq_length_filter]
  rfl

/-- An element of a part is an element of the whole: what is counted beyond the part. -/
theorem countP_beyond {α : Type} {p q : α → Bool} (l : List α) (h : ∀ x ∈ l, p x = true → q x = true) :
    l.countP q = l.countP p + l.countP (fun x => !p x && q x) := by
  induction l with
  | nil => rfl
  | cons x l ih =>
    obtain ⟨hx, hl⟩ := List.forall_mem_cons.1 h
    rw [List.countP_cons, List.countP_cons, List.countP_cons, ih hl]
    cases hp : p x with
    | true => simp [hx hp]; omega
    | false => cases q x <;> simp; omega

theorem Removed.joined_length {s u : State} {js ns : List Nat} (h : Removed s u js ns)
    (hn : (s.queue.records.map (·.joined)).Nodup) : js.length = s.queue.records.countP (fun r => decide (r.joined ∈ js)) :=
  length_eq_countP_key (fun r : PathRecord => r.joined) hn h.joined_nodup h.joined_mem

theorem State.unwoundItem_iff {s : State} {set : SetRecord} (hset : s.roll.windingSet = some set) {n : Nat} :
    s.unwoundItem n = true ↔ (∃ it ∈ s.roll.register, it.body.number = n) ∧ set.isUnwound n = true := by
  unfold State.unwoundItem
  rw [hset]
  simp only [Bool.and_eq_true, List.any_eq_true, decide_eq_true_eq]

theorem Removed.numbers_length {s u : State} {js ns : List Nat} (h : Removed s u js ns) {set : SetRecord}
    (hset : s.roll.windingSet = some set) (hn : (s.roll.register.map (·.body.number)).Nodup) :
    ns.length = s.roll.register.countP (fun it => decide (it.body.number ∈ ns)) :=
  length_eq_countP_key (fun it : RegisterItem => it.body.number) hn h.numbers_nodup
    fun n hn => ((s.unwoundItem_iff hset).1 (h.numbers_unwound n hn)).1

/-! ## The named records (R113) -/

/-- What the removal of named records adds to what has been removed: each record and item has one of the names; a record whose name
is its alone is among them, and an UNWOUND item whose name no record has. -/
structure NamedCut (s : State) (xs js ns js' ns' : List Nat) : Prop where
  joined_grow : js ⊆ js'
  numbers_grow : ns ⊆ ns'
  joined : ∀ j ∈ js', j ∈ js ∨ ∃ r ∈ s.queue.records, r.joined = j ∧ r.body.number ∈ xs
  numbers : ∀ n ∈ ns', n ∈ ns ∨ n ∈ xs
  found : ∀ r ∈ s.queue.records, r.body.number ∈ xs →
    (∀ r₂ ∈ s.queue.records, r₂.body.number = r.body.number → r₂ = r) → r.joined ∈ js'
  unwound : ∀ n ∈ xs, s.unwoundItem n = true → (∀ r ∈ s.queue.records, r.body.number ≠ n) → n ∈ ns'

theorem NamedCut.nil (s : State) (js ns : List Nat) : NamedCut s [] js ns js ns :=
  ⟨fun _ => id, fun _ => id, fun _ => .inl, fun _ => .inl, fun _ _ h => absurd h List.not_mem_nil,
    fun _ h => absurd h List.not_mem_nil⟩

theorem NamedCut.cons {s : State} {x : Nat} {xs js ns js' ns' js'' ns'' : List Nat} (h : NamedCut s [x] js ns js' ns')
    (g : NamedCut s xs js' ns' js'' ns'') : NamedCut s (x :: xs) js ns js'' ns'' where
  joined_grow := List.Subset.trans h.joined_grow g.joined_grow
  numbers_grow := List.Subset.trans h.numbers_grow g.numbers_grow
  joined j hj := by
    rcases g.joined j hj with hj | ⟨r, hr, hj, hx⟩
    · rcases h.joined j hj with hj | ⟨r, hr, hj, hx⟩
      · exact .inl hj
      · exact .inr ⟨r, hr, hj, List.mem_cons.2 (.inl (List.mem_singleton.1 hx))⟩
    · exact .inr ⟨r, hr, hj, List.mem_cons_of_mem _ hx⟩
  numbers n hn := by
    rcases g.numbers n hn with hn | hn
    · exact (h.numbers n hn).imp_right fun hx => List.mem_cons.2 (.inl (List.mem_singleton.1 hx))
    · exact .inr (List.mem_cons_of_mem _ hn)
  found r hr hx hone := by
    rcases List.mem_cons.1 hx with hx | hx
    · exact g.joined_grow (h.found r hr (List.mem_singleton.2 hx) hone)
    · exact g.found r hr hx hone
  unwound n hx hun hno := by
    rcases List.mem_cons.1 hx with hx | hx
    · exact g.numbers_grow (h.unwound n (List.mem_singleton.2 hx) hun hno)
    · exact g.unwound n hx hun hno

/-- Removals and their count, from a count that started when `k` removals had been made. -/
structure Cutting (s : State) (k : Nat) (acc : State × Nat) (js ns : List Nat) : Prop where
  removed : Removed s acc.1 js ns
  count : acc.2 + k = js.length + ns.length

theorem removeNamed_cutting {s : State} {k : Nat} {acc : State × Nat} {js ns : List Nat} (h : Cutting s k acc js ns) (x : Nat) :
    (removeNamed acc x).2 ≤ acc.2 + 1 ∧ ∃ js' ns', Cutting s k (removeNamed acc x) js' ns' ∧ NamedCut s [x] js ns js' ns' := by
  have hcount := h.count
  unfold removeNamed
  split
  next r hfind =>
    have hr := List.mem_of_find?_eq_some hfind
    have hx : r.body.number = x := by simpa using List.find?_some hfind
    obtain ⟨-, r₀, hr₀, hbare⟩ := h.removed.mem_of hr
    obtain ⟨hbody, -, hjoined⟩ := bare_eq_iff.1 hbare
    refine ⟨le_rfl, r.joined :: js, ns, ⟨h.removed.fromQueue hr, ?_⟩, List.subset_cons_self _ _, fun _ => id, ?_, fun _ => .inl, ?_, ?_⟩
    · rw [List.length_cons]
      omega
    · refine List.forall_mem_cons.2 ⟨.inr ⟨r₀, hr₀, hjoined, ?_⟩, fun _ => .inl⟩
      rw [hbody, hx]
      exact List.mem_singleton_self x
    · intro r₁ hr₁ hx₁ hone
      obtain rfl := hone r₀ hr₀ (by rw [hbody, hx, List.mem_singleton.1 hx₁])
      exact List.mem_cons.2 (.inl hjoined)
    · intro n hn _ hno
      exact absurd (by rw [hbody, hx, List.mem_singleton.1 hn]) (hno r₀ hr₀)
  next hfind =>
    have hgone : ∀ r ∈ s.queue.records, r.body.number = x → r.joined ∈ js := by
      intro r hr hx
      by_contra hj
      obtain ⟨r', hr', hbare⟩ := h.removed.mem hr hj
      refine List.find?_eq_none.1 hfind r' hr' ?_
      rw [(bare_eq_iff.1 hbare).1, hx]
      exact decide_eq_true rfl
    split
    next hun =>
      refine ⟨le_rfl, js, x :: ns, ⟨h.removed.fromRoll hun, ?_⟩, fun _ => id, List.subset_cons_self _ _, fun _ => .inl, ?_, ?_, ?_⟩
      · rw [List.length_cons]
        omega
      · exact List.forall_mem_cons.2 ⟨.inr (List.mem_singleton_self x), fun _ => .inl⟩
      · exact fun r hr hx _ => hgone r hr (List.mem_singleton.1 hx)
      · exact fun n hn _ _ => List.mem_cons.2 (.inl (List.mem_singleton.1 hn))
    next hun =>
      refine ⟨Nat.le_succ _, js, ns, h, fun _ => id, fun _ => id, fun _ => .inl, fun _ => .inl, ?_, ?_⟩
      · exact fun r hr hx _ => hgone r hr (List.mem_singleton.1 hx)
      · intro n hn hunwound _
        obtain rfl := List.mem_singleton.1 hn
        by_contra hnot
        exact hun (h.removed.unwoundItem_iff.2 ⟨hnot, hunwound⟩)

theorem removeNamed_foldl_cutting {s : State} {k : Nat} (xs : List Nat) {acc : State × Nat} {js ns : List Nat}
    (h : Cutting s k acc js ns) : (xs.foldl removeNamed acc).2 ≤ acc.2 + xs.length ∧
      ∃ js' ns', Cutting s k (xs.foldl removeNamed acc) js' ns' ∧ NamedCut s xs js ns js' ns' := by
  induction xs generalizing acc js ns with
  | nil => exact ⟨le_rfl, js, ns, h, .nil s js ns⟩
  | cons x xs ih =>
    obtain ⟨hle, js', ns', hcut, hnamed⟩ := removeNamed_cutting h x
    obtain ⟨hle', js'', ns'', hcut', hnamed'⟩ := ih hcut
    refine ⟨?_, js'', ns'', hcut', hnamed.cons hnamed'⟩
    rw [List.foldl_cons, List.length_cons]
    omega

/-! ## The records pulled through (R114) -/

/-- What the removal of records pulled through adds: each has one of the joining numbers sought, each item one of the record numbers,
and all the records and all the UNWOUND items sought are among them. -/
structure PulledCut (s : State) (pj pn js ns js' ns' : List Nat) : Prop where
  joined_grow : js ⊆ js'
  numbers_grow : ns ⊆ ns'
  joined : ∀ j ∈ js', j ∈ js ∨ j ∈ pj
  numbers : ∀ n ∈ ns', n ∈ ns ∨ n ∈ pn
  found : ∀ r ∈ s.queue.records, r.joined ∈ pj → r.joined ∈ js'
  unwound : ∀ n ∈ pn, s.unwoundItem n = true → n ∈ ns'

theorem PulledCut.nil (s : State) (js ns : List Nat) : PulledCut s [] [] js ns js ns :=
  ⟨fun _ => id, fun _ => id, fun _ => .inl, fun _ => .inl, fun _ _ h => absurd h List.not_mem_nil,
    fun _ h => absurd h List.not_mem_nil⟩

theorem PulledCut.append {s : State} {pj pn qj qn js ns js' ns' js'' ns'' : List Nat} (h : PulledCut s pj pn js ns js' ns')
    (g : PulledCut s qj qn js' ns' js'' ns'') : PulledCut s (pj ++ qj) (pn ++ qn) js ns js'' ns'' where
  joined_grow := List.Subset.trans h.joined_grow g.joined_grow
  numbers_grow := List.Subset.trans h.numbers_grow g.numbers_grow
  joined j hj := by
    have := h.joined j
    have := g.joined j hj
    simp only [List.mem_append]
    tauto
  numbers n hn := by
    have := h.numbers n
    have := g.numbers n hn
    simp only [List.mem_append]
    tauto
  found r hr hj := (List.mem_append.1 hj).elim (fun hj => g.joined_grow (h.found r hr hj)) (g.found r hr)
  unwound n hn hun := (List.mem_append.1 hn).elim (fun hn => g.numbers_grow (h.unwound n hn hun)) fun hn => g.unwound n hn hun

theorem removePulled_cutting {s : State} {k : Nat} {acc : State × Nat} {js ns : List Nat} (h : Cutting s k acc js ns)
    (r : PathRecord) : ∃ js' ns', Cutting s k (removePulled acc r) js' ns' ∧ PulledCut s [r.joined] [] js ns js' ns' := by
  have hcount := h.count
  unfold removePulled
  split
  next x hfind =>
    have hx := List.mem_of_find?_eq_some hfind
    have hj : x.joined = r.joined := by simpa using List.find?_some hfind
    refine ⟨x.joined :: js, ns, ⟨h.removed.fromQueue hx, ?_⟩, List.subset_cons_self _ _, fun _ => id, ?_, fun _ => .inl, ?_, ?_⟩
    · rw [List.length_cons]
      omega
    · exact List.forall_mem_cons.2 ⟨.inr (List.mem_singleton.2 hj), fun _ => .inl⟩
    · exact fun r₁ _ hj₁ => List.mem_cons.2 (.inl ((List.mem_singleton.1 hj₁).trans hj.symm))
    · exact fun n hn => absurd hn List.not_mem_nil
  next hfind =>
    refine ⟨js, ns, h, fun _ => id, fun _ => id, fun _ => .inl, fun _ => .inl, ?_, fun n hn => absurd hn List.not_mem_nil⟩
    intro r₁ hr₁ hj₁
    by_contra hj
    obtain ⟨r', hr', hbare⟩ := h.removed.mem hr₁ hj
    refine List.find?_eq_none.1 hfind r' hr' ?_
    rw [(bare_eq_iff.1 hbare).2.2, List.mem_singleton.1 hj₁]
    exact decide_eq_true rfl

theorem removePulledItem_cutting {s : State} {k : Nat} {acc : State × Nat} {js ns : List Nat} (h : Cutting s k acc js ns)
    (it : RegisterItem) :
    ∃ js' ns', Cutting s k (removePulledItem acc it) js' ns' ∧ PulledCut s [] [it.body.number] js ns js' ns' := by
  have hcount := h.count
  unfold removePulledItem
  split
  next hun =>
    refine ⟨js, it.body.number :: ns, ⟨h.removed.fromRoll hun, ?_⟩, fun _ => id, List.subset_cons_self _ _, fun _ => .inl, ?_, ?_, ?_⟩
    · rw [List.length_cons]
      omega
    · exact List.forall_mem_cons.2 ⟨.inr (List.mem_singleton_self _), fun _ => .inl⟩
    · exact fun r _ hj => absurd hj List.not_mem_nil
    · exact fun n hn _ => List.mem_cons.2 (.inl (List.mem_singleton.1 hn))
  next hun =>
    refine ⟨js, ns, h, fun _ => id, fun _ => id, fun _ => .inl, fun _ => .inl, fun r _ hj => absurd hj List.not_mem_nil, ?_⟩
    intro n hn hunwound
    obtain rfl := List.mem_singleton.1 hn
    by_contra hnot
    exact hun (h.removed.unwoundItem_iff.2 ⟨hnot, hunwound⟩)

theorem removePulled_foldl_cutting {s : State} {k : Nat} (l : List PathRecord) {acc : State × Nat} {js ns : List Nat}
    (h : Cutting s k acc js ns) :
    ∃ js' ns', Cutting s k (l.foldl removePulled acc) js' ns' ∧ PulledCut s (l.map (·.joined)) [] js ns js' ns' := by
  induction l generalizing acc js ns with
  | nil => exact ⟨js, ns, h, .nil s js ns⟩
  | cons r l ih =>
    obtain ⟨js', ns', hcut, hpulled⟩ := removePulled_cutting h r
    obtain ⟨js'', ns'', hcut', hpulled'⟩ := ih hcut
    exact ⟨js'', ns'', hcut', hpulled.append hpulled'⟩

theorem removePulledItem_foldl_cutting {s : State} {k : Nat} (l : List RegisterItem) {acc : State × Nat} {js ns : List Nat}
    (h : Cutting s k acc js ns) :
    ∃ js' ns', Cutting s k (l.foldl removePulledItem acc) js' ns' ∧ PulledCut s [] (l.map (·.body.number)) js ns js' ns' := by
  induction l generalizing acc js ns with
  | nil => exact ⟨js, ns, h, .nil s js ns⟩
  | cons it l ih =>
    obtain ⟨js', ns', hcut, hpulled⟩ := removePulledItem_cutting h it
    obtain ⟨js'', ns'', hcut', hpulled'⟩ := ih hcut
    exact ⟨js'', ns'', hcut', hpulled.append hpulled'⟩

end Sys2Proof.Machine
end

