-- ==== Sys2Proof/Proofs/SpliceMadeSteps.lean ====
section
/-! PROOFS. The steps of a SPLICE-MADE up to the end of the cut (R108 to R115): the cut shift, the removals and the repair splice. -/

namespace Sys2Proof.Machine

/-! ## The cut shift (R110 to R112) -/

/-- A record of the queue after the cut shift (R110). -/
def State.cutRecord (s : State) (popen : Nat) (r : PathRecord) : PathRecord :=
  { r with body := { r.body with web := s.cutWeb popen r.body.web } }

/-- A register item after the cut shift (R111). -/
def State.cutItem (s : State) (popen : Nat) (it : RegisterItem) : RegisterItem :=
  { it with body := { it.body with web := s.cutWeb popen it.body.web } }

/-- The part after the cut shift of a SPLICE-MADE. -/
def State.shifted (s : State) (popen : Nat) : State := cutShift popen (s.length.p - popen) s

section Shift
variable (s : State) (popen : Nat)

theorem shifted_frame : s.shifted popen = { s with
    queue := (s.shifted popen).queue, roll := (s.shifted popen).roll, stops := (s.shifted popen).stops } := rfl

theorem isPulledThrough_eq (web : Int) : isPulledThrough popen s.p s.geometry.s web = s.pulledThrough popen web := by
  rw [isPulledThrough, onHeldSide, State.pulledThrough, ← decide_not, ← Bool.decide_and, decide_eq_decide, not_le]
  rfl

theorem shifted_records : (s.shifted popen).queue.records.Perm (s.queue.records.map (s.cutRecord popen)) := by
  refine (sortRecords_perm _).trans (List.Perm.of_eq (List.map_congr_left fun r _ => ?_))
  unfold State.cutRecord State.cutWeb onHeldSide RecordBody.shift
  by_cases h : r.body.web + s.geometry.s ≤ popen <;> simp [h]

theorem mem_shifted_records {r : PathRecord} :
    r ∈ (s.shifted popen).queue.records ↔ ∃ r₀ ∈ s.queue.records, s.cutRecord popen r₀ = r := by
  rw [(shifted_records s popen).mem_iff, List.mem_map]

theorem shifted_register : (s.shifted popen).roll.register = s.roll.register.map (s.cutItem popen) := by
  refine List.map_congr_left fun it _ => ?_
  unfold State.cutItem State.cutWeb onHeldSide RecordBody.shift
  by_cases h : it.body.web + s.geometry.s ≤ popen <;> simp [h]

theorem shifted_queue : (s.shifted popen).queue = { s.queue with
    records := (s.shifted popen).queue.records, changes := (s.shifted popen).queue.changes } := rfl

theorem shifted_queue_changes : (s.shifted popen).queue.changes % 65536 = (s.queue.changes +
    if popen < s.length.p ∧ ∃ r ∈ s.queue.records, r.body.web + s.geometry.s ≤ popen then 1 else 0) % 65536 := by
  have hcond : (s.length.p - popen ≠ 0 ∧ s.queue.records.any (fun r => onHeldSide popen s.geometry.s r.body.web) = true) ↔
      (popen < s.length.p ∧ ∃ r ∈ s.queue.records, r.body.web + s.geometry.s ≤ popen) := by
    rw [Nat.sub_ne_zero_iff_lt, List.any_eq_true]
    simp only [onHeldSide, decide_eq_true_eq]
  change wrap16 s.queue.changes (if s.length.p - popen ≠ 0 ∧ _ then 1 else 0) % 65536 = _
  rw [if_congr hcond rfl rfl, wrap16, Nat.mod_mod]

theorem reachedByCut_eq (e : StopEntry) :
    e.reachedByCut popen s.geometry.s = (decide (e.web + s.geometry.s ≤ popen) || e.ref.isSet) := by
  unfold StopEntry.reachedByCut StopRef.isSet
  cases e.ref <;> rfl

theorem reachedByCut_iff (e : StopEntry) :
    e.reachedByCut popen s.geometry.s = true ↔ e.web + s.geometry.s ≤ popen ∨ e.ref.isSet = true := by
  rw [reachedByCut_eq, Bool.or_eq_true, decide_eq_true_iff]

theorem shifted_entries : (s.shifted popen).stops.entries.Perm (s.stops.entries.map (s.cutStop popen)) := by
  refine (sortStops_perm _).trans (List.Perm.of_eq (List.map_congr_left fun e _ => ?_))
  exact if_congr (reachedByCut_iff s popen e) rfl rfl

theorem cutStop_id (e : StopEntry) : (s.cutStop popen e).id = e.id := by unfold State.cutStop; split <;> rfl

theorem cutStop_ref (e : StopEntry) : (s.cutStop popen e).ref = e.ref := by unfold State.cutStop; split <;> rfl

theorem cutStop_insertion (e : StopEntry) : (s.cutStop popen e).insertion = e.insertion := by unfold State.cutStop; split <;> rfl

theorem shifted_stops : (s.shifted popen).stops = { s.stops with
    entries := (s.shifted popen).stops.entries, changes := (s.shifted popen).stops.changes } := rfl

theorem shifted_stops_changes : (s.shifted popen).stops.changes % 65536 = (s.stops.changes +
    if popen < s.length.p then
      s.stops.entries.countP (fun e => decide (e.web + s.geometry.s ≤ popen) || e.ref.isSet) else 0) % 65536 := by
  have hcount : (s.stops.entries.filter (StopEntry.reachedByCut popen s.geometry.s)).length =
      s.stops.entries.countP (fun e => decide (e.web + s.geometry.s ≤ popen) || e.ref.isSet) := by
    rw [← List.countP_eq_length_filter]
    exact List.countP_congr fun e _ => by rw [reachedByCut_eq]
  change wrap16 s.stops.changes (if s.length.p - popen = 0 then 0 else _) % 65536 = _
  rw [wrap16, Nat.mod_mod, hcount]
  by_cases h : popen < s.length.p
  · rw [if_neg (Nat.sub_ne_zero_iff_lt.2 h), if_pos h]
  · rw [if_pos (Nat.sub_eq_zero_of_le (not_lt.1 h)), if_neg h]

theorem shifted_windingSet : (s.shifted popen).roll.windingSet =
    s.roll.windingSet.map (fun r => { r with start := min (r.start + (s.length.p - popen)) 4294967295 }) :=
  RollMap.shift_windingSet _ _ _ _

theorem shifted_unwoundItem (n : Nat) : (s.shifted popen).unwoundItem n = s.unwoundItem n := by
  unfold State.unwoundItem
  rw [shifted_register, shifted_windingSet, List.any_map]
  cases s.roll.windingSet <;> rfl

end Shift

/-! ## The removals (R113, R114) -/

/-- What the removals of a SPLICE-MADE take out of the shifted part, leaving `v`: first `a` for the names, then `b` pulled through. -/
structure SpliceCuts (popen : Nat) (named : List Nat) (s v : State) (a b : Nat) (js₁ ns₁ js ns : List Nat) : Prop where
  names : NamedCut (s.shifted popen) named [] [] js₁ ns₁
  through : PulledCut (s.shifted popen) ((s.queue.records.filter (fun r => s.pulledThrough popen r.body.web)).map (·.joined))
    ((s.roll.register.filter (fun it => s.pulledThrough popen it.body.web)).map (·.body.number)) js₁ ns₁ js ns
  removed₁ : ∃ v₁, Removed (s.shifted popen) v₁ js₁ ns₁
  removed : Removed (s.shifted popen) v js ns
  count₁ : a = js₁.length + ns₁.length
  count : a + b = js.length + ns.length
  le : a ≤ named.length

theorem makeSplice_cuts (popen first last : Nat) (named : List Nat) (s : State) :
    ∃ v a b js₁ ns₁ js ns, SpliceCuts popen named s v a b js₁ ns₁ js ns ∧ Matches s v ∧
      (∀ x, named = [x] → a = if (∃ r ∈ s.queue.records, r.body.number = x) ∨ s.unwoundItem x = true then 1 else 0) ∧
      makeSplice popen first last named s = (endCut (enterRepairSplice first last v).1, .done (fieldU 4 (s.length.p - popen) ++
        fieldU 1 a ++ fieldU 1 b ++ fieldU 2 (enterRepairSplice first last v).2)) := by
  have hstart : Cutting (s.shifted popen) 0 (s.shifted popen, 0) [] [] := ⟨.start, rfl⟩
  obtain ⟨hle, js₁, ns₁, hcut₁, hnames⟩ := removeNamed_foldl_cutting named hstart
  have hstart₂ : Cutting (s.shifted popen) (named.foldl removeNamed (s.shifted popen, 0)).2
      ((named.foldl removeNamed (s.shifted popen, 0)).1, 0) js₁ ns₁ :=
    ⟨hcut₁.removed, by have := hcut₁.count; omega⟩
  obtain ⟨js₂, ns₂, hcut₂, hpulled⟩ := removePulled_foldl_cutting
    (s.queue.records.filter (fun r => s.pulledThrough popen r.body.web)) hstart₂
  obtain ⟨js₃, ns₃, hcut₃, hitems⟩ := removePulledItem_foldl_cutting
    (s.roll.register.filter (fun it => s.pulledThrough popen it.body.web)) hcut₂
  have hmatches := ((cutShift_matches popen (s.length.p - popen) s).trans
    (foldl_matches removeNamed removeNamed_matches named (s.shifted popen, 0))).trans ((foldl_matches removePulled removePulled_matches
      (s.queue.records.filter (fun r => s.pulledThrough popen r.body.web))
      ((named.foldl removeNamed (s.shifted popen, 0)).1, 0)).trans
        (foldl_matches removePulledItem removePulledItem_matches
          (s.roll.register.filter (fun it => s.pulledThrough popen it.body.web)) _))
  refine ⟨_, (named.foldl removeNamed (s.shifted popen, 0)).2, ((s.roll.register.filter (fun it =>
      s.pulledThrough popen it.body.web)).foldl removePulledItem ((s.queue.records.filter (fun r =>
        s.pulledThrough popen r.body.web)).foldl removePulled ((named.foldl removeNamed (s.shifted popen, 0)).1, 0))).2,
    js₁, ns₁, js₃, ns₃, ⟨hnames, ?_, ⟨_, hcut₁.removed⟩, hcut₃.removed, ?_, ?_, ?_⟩, hmatches, ?_, ?_⟩
  · simpa using hpulled.append hitems
  · exact hcut₁.count
  · rw [add_comm]
    exact hcut₃.count
  · simpa using hle
  · rintro x rfl
    rw [List.foldl_cons, List.foldl_nil, removeNamed]
    have hfound : ((s.shifted popen).queue.records.find? (fun r => decide (r.body.number = x))).isSome = true ↔
        ∃ r ∈ s.queue.records, r.body.number = x := by
      rw [List.find?_isSome]
      simp only [decide_eq_true_eq, mem_shifted_records]
      exact ⟨fun ⟨_, ⟨r, hr, rfl⟩, hx⟩ => ⟨r, hr, hx⟩, fun ⟨r, hr, hx⟩ => ⟨_, ⟨r, hr, rfl⟩, hx⟩⟩
    split
    next r hr => rw [if_pos (.inl (hfound.1 (by rw [hr]; rfl)))]
    next hnone =>
      have hno : ¬ ∃ r ∈ s.queue.records, r.body.number = x := fun h => by
        have := hfound.2 h
        rw [hnone] at this
        exact absurd this Bool.false_ne_true
      rw [shifted_unwoundItem]
      by_cases hun : s.unwoundItem x = true
      · rw [if_pos hun, if_pos (.inr hun)]
      · rw [if_neg hun, if_neg (not_or.2 ⟨hno, hun⟩)]
  · have hpulls : (fun r : PathRecord => isPulledThrough popen s.p s.geometry.s r.body.web) =
        fun r => s.pulledThrough popen r.body.web := funext fun r => isPulledThrough_eq s popen _
    have hpulls' : (fun it : RegisterItem => isPulledThrough popen s.p s.geometry.s it.body.web) =
        fun it => s.pulledThrough popen it.body.web := funext fun it => isPulledThrough_eq s popen _
    rw [makeSplice]
    simp only [hpulls, hpulls']
    rfl

namespace SpliceCuts

variable {popen : Nat} {named : List Nat} {s v : State} {a b : Nat} {js₁ ns₁ js ns : List Nat}

/-- A record removed by its name has one of the names. -/
theorem joined_named (h : SpliceCuts popen named s v a b js₁ ns₁ js ns) {j : Nat} (hj : j ∈ js₁) :
    ∃ r ∈ s.queue.records, r.joined = j ∧ r.body.number ∈ named := by
  obtain ⟨r', hr', hj, hx⟩ := (h.names.joined j hj).resolve_left List.not_mem_nil
  obtain ⟨r, hr, rfl⟩ := (mem_shifted_records s popen).1 hr'
  exact ⟨r, hr, hj, hx⟩

/-- Each record removed was named or pulled through. -/
theorem joined_cut (h : SpliceCuts popen named s v a b js₁ ns₁ js ns) {j : Nat} (hj : j ∈ js) :
    ∃ r ∈ s.queue.records, r.joined = j ∧ s.cutsRecord popen named r = true := by
  rcases h.through.joined j hj with hj | hj
  · obtain ⟨r, hr, hj, hx⟩ := h.joined_named hj
    exact ⟨r, hr, hj, by simp [State.cutsRecord, hx]⟩
  · obtain ⟨r, hr, hj⟩ := List.mem_map.1 hj
    obtain ⟨hr, hp⟩ := List.mem_filter.1 hr
    exact ⟨r, hr, hj, by simp [State.cutsRecord, hp]⟩

theorem pulled_removed (h : SpliceCuts popen named s v a b js₁ ns₁ js ns) {r : PathRecord} (hr : r ∈ s.queue.records)
    (hp : s.pulledThrough popen r.body.web = true) : r.joined ∈ js := by
  have hmem : r.joined ∈ (s.queue.records.filter (fun r => s.pulledThrough popen r.body.web)).map (·.joined) :=
    List.mem_map_of_mem (List.mem_filter.2 ⟨hr, hp⟩)
  exact h.through.found (s.cutRecord popen r) ((mem_shifted_records s popen).2 ⟨r, hr, rfl⟩) hmem

theorem named_removed (h : SpliceCuts popen named s v a b js₁ ns₁ js ns) {r : PathRecord} (hr : r ∈ s.queue.records)
    (hx : r.body.number ∈ named) (hone : ∀ r₂ ∈ s.queue.records, r₂.body.number = r.body.number → r₂ = r) : r.joined ∈ js₁ := by
  refine h.names.found (s.cutRecord popen r) ((mem_shifted_records s popen).2 ⟨r, hr, rfl⟩) hx fun r' hr' hnumber => ?_
  obtain ⟨r₂, hr₂, rfl⟩ := (mem_shifted_records s popen).1 hr'
  rw [hone r₂ hr₂ hnumber]

/-- Each item removed was UNWOUND, and named or pulled through. -/
theorem number_cut (h : SpliceCuts popen named s v a b js₁ ns₁ js ns) {n : Nat} (hn : n ∈ ns) :
    s.unwoundItem n = true ∧ (n ∈ named ∨ ∃ it ∈ s.roll.register, it.body.number = n ∧ s.pulledThrough popen it.body.web = true) := by
  refine ⟨?_, (h.through.numbers n hn).imp (fun hn => (h.names.numbers n hn).resolve_left List.not_mem_nil) fun hn => ?_⟩
  · rw [← shifted_unwoundItem s popen]
    exact h.removed.numbers_unwound n hn
  · obtain ⟨it, hit, hn⟩ := List.mem_map.1 hn
    obtain ⟨hit, hp⟩ := List.mem_filter.1 hit
    exact ⟨it, hit, hn, hp⟩

theorem number_named (h : SpliceCuts popen named s v a b js₁ ns₁ js ns) {n : Nat} (hn : n ∈ ns₁) :
    s.unwoundItem n = true ∧ n ∈ named := by
  obtain ⟨v₁, hv₁⟩ := h.removed₁
  rw [← shifted_unwoundItem s popen]
  exact ⟨hv₁.numbers_unwound n hn, (h.names.numbers n hn).resolve_left List.not_mem_nil⟩

theorem item_named (h : SpliceCuts popen named s v a b js₁ ns₁ js ns) {n : Nat} (hn : n ∈ named) (hun : s.unwoundItem n = true)
    (hno : ∀ r ∈ s.queue.records, r.body.number ≠ n) : n ∈ ns₁ := by
  refine h.names.unwound n hn (by rwa [shifted_unwoundItem]) fun r' hr' => ?_
  obtain ⟨r, hr, rfl⟩ := (mem_shifted_records s popen).1 hr'
  exact hno r hr

theorem item_pulled (h : SpliceCuts popen named s v a b js₁ ns₁ js ns) {it : RegisterItem} (hit : it ∈ s.roll.register)
    (hp : s.pulledThrough popen it.body.web = true) (hun : s.unwoundItem it.body.number = true) : it.body.number ∈ ns :=
  h.through.unwound _ (List.mem_map_of_mem (List.mem_filter.2 ⟨hit, hp⟩)) (by rwa [shifted_unwoundItem])

/-- An UNWOUND item named or pulled through is removed, unless a record of the queue has its number. -/
theorem item_removed (h : SpliceCuts popen named s v a b js₁ ns₁ js ns) {it : RegisterItem} (hit : it ∈ s.roll.register)
    (hcut : it.body.number ∈ named ∨ s.pulledThrough popen it.body.web = true) (hun : s.unwoundItem it.body.number = true)
    (hno : ∀ r ∈ s.queue.records, r.body.number ≠ it.body.number) : it.body.number ∈ ns :=
  hcut.elim (fun hx => h.through.numbers_grow (h.item_named hx hun hno)) fun hp => h.item_pulled hit hp hun

/-- Where each number is held once, the records removed are the named ones and those pulled through. -/
theorem joined_iff (h : SpliceCuts popen named s v a b js₁ ns₁ js ns) (hn : (s.queue.records.map (·.joined)).Nodup)
    (hnumbers : (s.queue.records.map (·.body.number)).Nodup ∨ named = []) {r : PathRecord} (hr : r ∈ s.queue.records) :
    r.joined ∈ js ↔ s.cutsRecord popen named r = true := by
  constructor
  · intro hj
    obtain ⟨r', hr', hj', hcut⟩ := h.joined_cut hj
    rwa [← List.inj_on_of_nodup_map hn hr' hr hj']
  · intro hcut
    rcases Bool.or_eq_true _ _ ▸ hcut with hx | hp
    · have hx := of_decide_eq_true hx
      rcases hnumbers with hnumbers | rfl
      · exact h.through.joined_grow (h.named_removed hr hx fun r₂ hr₂ heq => List.inj_on_of_nodup_map hnumbers hr₂ hr heq)
      · exact absurd hx List.not_mem_nil
    · exact h.pulled_removed hr hp

theorem joined_named_iff (h : SpliceCuts popen named s v a b js₁ ns₁ js ns) (hn : (s.queue.records.map (·.joined)).Nodup)
    (hnumbers : (s.queue.records.map (·.body.number)).Nodup) {r : PathRecord} (hr : r ∈ s.queue.records) :
    r.joined ∈ js₁ ↔ r.body.number ∈ named := by
  constructor
  · intro hj
    obtain ⟨r', hr', hj', hx⟩ := h.joined_named hj
    rwa [← List.inj_on_of_nodup_map hn hr' hr hj']
  · exact fun hx => h.named_removed hr hx fun r₂ hr₂ heq => List.inj_on_of_nodup_map hnumbers hr₂ hr heq

theorem shifted_countP (p : PathRecord → Bool) (hp : ∀ r, p (s.cutRecord popen r) = p r) :
    (s.shifted popen).queue.records.countP p = s.queue.records.countP p := by
  rw [(shifted_records s popen).countP_eq, List.countP_map]
  exact List.countP_congr fun r _ => by rw [Function.comp_apply, hp]

theorem shifted_joined_nodup (hn : (s.queue.records.map (·.joined)).Nodup) :
    ((s.shifted popen).queue.records.map (·.joined)).Nodup := by
  rw [((shifted_records s popen).map _).nodup_iff, List.map_map]
  exact hn

/-- As many joining numbers as records cut. -/
theorem joined_length (h : SpliceCuts popen named s v a b js₁ ns₁ js ns) (hn : (s.queue.records.map (·.joined)).Nodup)
    (hnumbers : (s.queue.records.map (·.body.number)).Nodup ∨ named = []) :
    js.length = s.queue.records.countP (s.cutsRecord popen named) := by
  rw [h.removed.joined_length (shifted_joined_nodup hn), shifted_countP _ fun _ => rfl]
  exact List.countP_congr fun r hr => by rw [decide_eq_true_iff, h.joined_iff hn hnumbers hr]

theorem joined_named_length (h : SpliceCuts popen named s v a b js₁ ns₁ js ns) (hn : (s.queue.records.map (·.joined)).Nodup)
    (hnumbers : (s.queue.records.map (·.body.number)).Nodup) :
    js₁.length = s.queue.records.countP (fun r => decide (r.body.number ∈ named)) := by
  obtain ⟨v₁, hv₁⟩ := h.removed₁
  rw [hv₁.joined_length (shifted_joined_nodup hn), shifted_countP _ fun _ => rfl]
  exact List.countP_congr fun r hr => by rw [decide_eq_true_iff, h.joined_named_iff hn hnumbers hr, decide_eq_true_iff]

section Items
variable (hd : s.NumbersDiffer)
include hd

theorem register_numbers_nodup : (s.roll.register.map (·.body.number)).Nodup := (List.nodup_append.1 hd).2.1

theorem records_numbers_nodup : (s.queue.records.map (·.body.number)).Nodup := (List.nodup_append.1 hd).1

theorem number_not_in_queue {it : RegisterItem} (hit : it ∈ s.roll.register) :
    ∀ r ∈ s.queue.records, r.body.number ≠ it.body.number := fun _ hr =>
  (List.nodup_append.1 hd).2.2 _ (List.mem_map_of_mem hr) _ (List.mem_map_of_mem hit)

theorem shifted_numbers_nodup : ((s.shifted popen).roll.register.map (·.body.number)).Nodup := by
  rw [shifted_register, List.map_map]
  exact register_numbers_nodup hd

variable {set : SetRecord} (hset : s.roll.windingSet = some set)
include hset

/-- The items removed are the UNWOUND ones that are named or pulled through. -/
theorem number_iff (h : SpliceCuts popen named s v a b js₁ ns₁ js ns) {it : RegisterItem} (hit : it ∈ s.roll.register) :
    it.body.number ∈ ns ↔ s.cutsItem popen named set it = true := by
  rw [State.cutsItem, Bool.and_eq_true, Bool.or_eq_true, decide_eq_true_iff]
  constructor
  · intro hn
    obtain ⟨hun, hcut⟩ := h.number_cut hn
    refine ⟨hcut.imp_right ?_, ((s.unwoundItem_iff hset).1 hun).2⟩
    rintro ⟨it', hit', hnumber, hp⟩
    rwa [← List.inj_on_of_nodup_map (register_numbers_nodup hd) hit' hit hnumber]
  · rintro ⟨hcut, hun⟩
    exact h.item_removed hit hcut ((s.unwoundItem_iff hset).2 ⟨⟨it, hit, rfl⟩, hun⟩) (number_not_in_queue hd hit)

theorem number_named_iff (h : SpliceCuts popen named s v a b js₁ ns₁ js ns) {it : RegisterItem} (hit : it ∈ s.roll.register) :
    it.body.number ∈ ns₁ ↔ it.body.number ∈ named ∧ set.isUnwound it.body.number = true := by
  constructor
  · intro hn
    obtain ⟨hun, hx⟩ := h.number_named hn
    exact ⟨hx, ((s.unwoundItem_iff hset).1 hun).2⟩
  · rintro ⟨hx, hun⟩
    exact h.item_named hx ((s.unwoundItem_iff hset).2 ⟨⟨it, hit, rfl⟩, hun⟩) (number_not_in_queue hd hit)

theorem numbers_length (h : SpliceCuts popen named s v a b js₁ ns₁ js ns) :
    ns.length = s.roll.register.countP (s.cutsItem popen named set) := by
  have hset' := shifted_windingSet s popen
  rw [hset, Option.map_some] at hset'
  rw [h.removed.numbers_length hset' (shifted_numbers_nodup hd), shifted_register, List.countP_map]
  exact List.countP_congr fun it hit => by
    rw [Function.comp_apply, decide_eq_true_iff]
    exact number_iff (it := it) hd hset h hit

theorem numbers_named_length (h : SpliceCuts popen named s v a b js₁ ns₁ js ns) :
    ns₁.length = s.roll.register.countP (fun it => decide (it.body.number ∈ named) && set.isUnwound it.body.number) := by
  have hset' := shifted_windingSet s popen
  rw [hset, Option.map_some] at hset'
  obtain ⟨v₁, hv₁⟩ := h.removed₁
  rw [hv₁.numbers_length hset' (shifted_numbers_nodup hd), shifted_register, List.countP_map]
  exact List.countP_congr fun it hit => by
    rw [Function.comp_apply, decide_eq_true_iff, Bool.and_eq_true, decide_eq_true_iff]
    exact number_named_iff (it := it) hd hset h hit

/-- The named figure counts the named records and the UNWOUND items named (R113). -/
theorem named_eq (h : SpliceCuts popen named s v a b js₁ ns₁ js ns) (hn : (s.queue.records.map (·.joined)).Nodup) :
    a = s.queue.records.countP (fun r => decide (r.body.number ∈ named)) +
      s.roll.register.countP (fun it => decide (it.body.number ∈ named) && set.isUnwound it.body.number) := by
  rw [h.count₁, h.joined_named_length hn (records_numbers_nodup hd), numbers_named_length hd hset h]

/-- The figure of those pulled through counts what was not named (R114). -/
theorem pulled_eq (h : SpliceCuts popen named s v a b js₁ ns₁ js ns) (hn : (s.queue.records.map (·.joined)).Nodup) :
    b = s.queue.records.countP (fun r => decide (r.body.number ∉ named) && s.pulledThrough popen r.body.web) +
      s.roll.register.countP (fun it => decide (it.body.number ∉ named) && s.pulledThrough popen it.body.web &&
        set.isUnwound it.body.number) := by
  have hnamed := named_eq hd hset h hn
  have hcount := h.count
  rw [h.joined_length hn (.inl (records_numbers_nodup hd)), numbers_length hd hset h,
    countP_beyond (p := fun r => decide (r.body.number ∈ named)) s.queue.records fun r _ hx => by
      rw [State.cutsRecord, hx, Bool.true_or],
    countP_beyond (p := fun it => decide (it.body.number ∈ named) && set.isUnwound it.body.number) s.roll.register
      fun it _ hx => by
        obtain ⟨hx, hun⟩ := Bool.and_eq_true _ _ ▸ hx
        rw [State.cutsItem, hx, hun, Bool.true_or, Bool.true_and]] at hcount
  have hrecords : s.queue.records.countP (fun r => !decide (r.body.number ∈ named) && s.cutsRecord popen named r) =
      s.queue.records.countP (fun r => decide (r.body.number ∉ named) && s.pulledThrough popen r.body.web) :=
    List.countP_congr fun r _ => by
      rw [State.cutsRecord]
      by_cases hx : r.body.number ∈ named <;> simp [hx]
  have hitems : s.roll.register.countP (fun it => !(decide (it.body.number ∈ named) && set.isUnwound it.body.number) &&
      s.cutsItem popen named set it) = s.roll.register.countP (fun it => decide (it.body.number ∉ named) &&
        s.pulledThrough popen it.body.web && set.isUnwound it.body.number) :=
    List.countP_congr fun it _ => by
      rw [State.cutsItem]
      by_cases hx : it.body.number ∈ named <;> cases set.isUnwound it.body.number <;> simp [hx]
  omega

end Items

/-! ### With no names -/

theorem unnamed (h : SpliceCuts popen [] s v a b js₁ ns₁ js ns) : a = 0 ∧ js₁ = [] ∧ ns₁ = [] := by
  have ha := h.le
  have hcount := h.count₁
  rw [List.length_nil] at ha
  exact ⟨by omega, List.eq_nil_of_length_eq_zero (by omega), List.eq_nil_of_length_eq_zero (by omega)⟩

/-- With no names each record pulled through counts, and each number of an UNWOUND item pulled through (R114). -/
theorem unnamed_pulled (h : SpliceCuts popen [] s v a b js₁ ns₁ js ns) {set : SetRecord} (hset : s.roll.windingSet = some set)
    (hn : (s.queue.records.map (·.joined)).Nodup) :
    b = s.queue.records.countP (fun r => s.pulledThrough popen r.body.web) +
      (((s.roll.register.filter (fun it => s.pulledThrough popen it.body.web)).map (·.body.number)).dedup.filter
        (fun x => set.isUnwound x)).length := by
  have ha := h.unnamed.1
  have hcount := h.count
  have hrecords : s.queue.records.countP (s.cutsRecord popen []) =
      s.queue.records.countP (fun r => s.pulledThrough popen r.body.web) :=
    List.countP_congr fun r _ => by simp [State.cutsRecord]
  have hitems : ns.Perm (((s.roll.register.filter (fun it => s.pulledThrough popen it.body.web)).map (·.body.number)).dedup.filter
      (fun x => set.isUnwound x)) := by
    rw [List.perm_ext_iff_of_nodup h.removed.numbers_nodup ((List.nodup_dedup _).filter _)]
    intro n
    rw [List.mem_filter, List.mem_dedup, List.mem_map]
    constructor
    · intro hn
      obtain ⟨hun, hcut⟩ := h.number_cut hn
      obtain ⟨it, hit, hnumber, hp⟩ := hcut.resolve_left List.not_mem_nil
      exact ⟨⟨it, List.mem_filter.2 ⟨hit, hp⟩, hnumber⟩, ((s.unwoundItem_iff hset).1 hun).2⟩
    · rintro ⟨⟨it, hit, rfl⟩, hun⟩
      obtain ⟨hit, hp⟩ := List.mem_filter.1 hit
      exact h.item_pulled hit hp ((s.unwoundItem_iff hset).2 ⟨⟨it, hit, rfl⟩, hun⟩)
  rw [h.joined_length hn (.inr rfl), hrecords, hitems.length_eq] at hcount
  omega

/-- With no names and nothing pulled through nothing is removed. -/
theorem nothing (h : SpliceCuts popen [] s v a b js₁ ns₁ js ns) {set : SetRecord} (hset : s.roll.windingSet = some set)
    (hrecords : ∀ r ∈ s.queue.records, s.pulledThrough popen r.body.web = false)
    (hitems : ∀ it ∈ s.roll.register, s.pulledThrough popen it.body.web = true → set.isUnwound it.body.number = false) :
    js = [] ∧ ns = [] := by
  refine ⟨List.eq_nil_iff_forall_not_mem.2 fun j hj => ?_, List.eq_nil_iff_forall_not_mem.2 fun n hn => ?_⟩
  · obtain ⟨r, hr, -, hcut⟩ := h.joined_cut hj
    simp [State.cutsRecord, hrecords r hr] at hcut
  · obtain ⟨hun, hcut⟩ := h.number_cut hn
    obtain ⟨it, hit, rfl, hp⟩ := hcut.resolve_left List.not_mem_nil
    exact Bool.false_ne_true ((hitems it hit hp).symm.trans ((s.unwoundItem_iff hset).1 hun).2)

end SpliceCuts

end Sys2Proof.Machine
end

