-- ==== Sys2Proof/Proofs/SpliceMadeParts.lean ====
section
/-! PROOFS. The part that steps 2 to 4 of a SPLICE-MADE leave (R108 to R115), in one description. -/

namespace Sys2Proof.Machine

/-! ## The repair splice (R115) -/

/-- The body of the repair splice record. -/
def State.repairBody (s : State) (number : Nat) : RecordBody :=
  { number := number, kind := .repairSplice, xs := 0, xe := 30000, length := 0, web := (s.length.p : Int) - s.geometry.s }

/-- The lanes of the repair splice record. -/
def State.repairLanes (s : State) (first last : Nat) : LaneRange :=
  { first := first, last := last, plan := planId s.plans.active }

theorem enterRepairSplice_full {first last : Nat} {s : State} (h : 64 ≤ s.queue.records.length) :
    enterRepairSplice first last s = (queueFull s, 0) := if_pos (decide_eq_true h)

theorem enterRepairSplice_room {first last : Nat} {s : State} (h : s.queue.records.length < 64) :
    enterRepairSplice first last s =
      (s.recordJoined (s.repairBody s.freshNumber) (some (s.repairLanes first last)), s.freshNumber) :=
  if_neg (by simpa [PathQueue.full] using h)

/-! ## The shifted part with what is removed -/

theorem any_eq_of_perm {α : Type} {l l' : List α} (h : l.Perm l') (p : α → Bool) : l.any p = l'.any p := by
  rw [Bool.eq_iff_iff, List.any_eq_true, List.any_eq_true]
  exact exists_congr fun x => and_congr_left fun _ => h.mem_iff

/-- The winding set's record after the shift, `k` removals and, without room, the mark of a full queue. -/
def State.cutSet (s : State) (popen k : Nat) (ns : List Nat) (room : Bool) (set : SetRecord) : SetRecord :=
  { set.cutOut k ns with start := min (set.start + (s.length.p - popen)) 4294967295, mapIncomplete := set.mapIncomplete || !room }

theorem cutOut_shifted_roll (s : State) (popen k : Nat) (ns : List Nat) : (s.shifted popen).roll.cutOut k ns =
    { s.roll.mapWinding (s.cutSet popen k ns true) with
      register := (s.roll.register.map (s.cutItem popen)).filter (fun it => decide (it.body.number ∉ ns)) } := by
  have hmap := RollMap.mapWinding_mapWinding
    (fun r => { r with start := min (r.start + (s.length.p - popen)) 4294967295 }) (SetRecord.cutOut k ns) s.roll
  have hfun : SetRecord.cutOut k ns ∘ (fun r => { r with start := min (r.start + (s.length.p - popen)) 4294967295 }) =
      s.cutSet popen k ns true := by
    funext set
    simp [State.cutSet, SetRecord.cutOut]
  rw [hfun] at hmap
  rw [RollMap.cutOut, shifted_register, ← hmap]
  rfl

namespace SpliceCuts

variable {popen : Nat} {named : List Nat} {s v : State} {a b : Nat} {js₁ ns₁ js ns : List Nat}

theorem frame (h : SpliceCuts popen named s v a b js₁ ns₁ js ns) :
    v = { s with queue := v.queue, roll := v.roll, stops := v.stops, alerts := v.alerts } := by
  have hframe := h.removed.frame
  rw [shifted_frame] at hframe
  exact hframe

theorem roll (h : SpliceCuts popen named s v a b js₁ ns₁ js ns) : v.roll =
    { s.roll.mapWinding (s.cutSet popen (a + b) ns true) with
      register := (s.roll.register.map (s.cutItem popen)).filter (fun it => decide (it.body.number ∉ ns)) } := by
  rw [h.removed.roll, cutOut_shifted_roll, h.count]

theorem queue (h : SpliceCuts popen named s v a b js₁ ns₁ js ns) :
    v.queue = { s.queue with records := v.queue.records, changes := v.queue.changes,
                             flow := { s.queue.flow with removed := v.queue.flow.removed } } ∧
      v.queue.flow.removed % 4294967296 = (s.queue.flow.removed + js.length) % 4294967296 := by
  have hqueue := h.removed.queue
  rw [shifted_queue] at hqueue
  exact hqueue

/-- A record left was there, and its joining number is not one of those removed. -/
theorem mem_of (h : SpliceCuts popen named s v a b js₁ ns₁ js ns) {x : PathRecord} (hx : x ∈ v.queue.records) :
    x.joined ∉ js ∧ ∃ r ∈ s.queue.records, (s.cutRecord popen r).bare = x.bare := by
  obtain ⟨hj, r', hr', hbare⟩ := h.removed.mem_of hx
  obtain ⟨r, hr, rfl⟩ := (mem_shifted_records s popen).1 hr'
  exact ⟨hj, r, hr, hbare⟩

theorem mem (h : SpliceCuts popen named s v a b js₁ ns₁ js ns) {r : PathRecord} (hr : r ∈ s.queue.records) (hj : r.joined ∉ js) :
    ∃ x ∈ v.queue.records, x.bare = (s.cutRecord popen r).bare :=
  h.removed.mem (r := s.cutRecord popen r) ((mem_shifted_records s popen).2 ⟨r, hr, rfl⟩) hj

theorem length_le (h : SpliceCuts popen named s v a b js₁ ns₁ js ns) : v.queue.records.length ≤ s.queue.records.length := by
  have hlength := congrArg List.length h.removed.records
  rw [List.length_map, List.length_map] at hlength
  have hle := List.length_filter_le (fun r : PathRecord => decide (r.joined ∉ js)) (s.shifted popen).queue.records
  have hshift := (shifted_records s popen).length_eq
  rw [List.length_map] at hshift
  omega

theorem plannerPart (h : SpliceCuts popen named s v a b js₁ ns₁ js ns) (hn : (s.queue.records.map (·.joined)).Nodup)
    (hopen : s.job.state.isCutOpen = true) (hids : (s.stops.entries.map (·.id)).Nodup) :
    Removed.PlannerPart (s.shifted popen) v js := by
  refine h.removed.plannerPart hopen ?_ (shifted_joined_nodup hn)
  rw [((shifted_entries s popen).map _).nodup_iff, List.map_map]
  have hid : (fun e : StopEntry => e.id) ∘ s.cutStop popen = fun e => e.id := funext fun e => cutStop_id s popen e
  rwa [hid]

/-- Each shifted entry and each entry removed is a change of the stop list (R182; log entry 20). -/
theorem stops_changes (h : SpliceCuts popen named s v a b js₁ ns₁ js ns) (hn : (s.queue.records.map (·.joined)).Nodup)
    (hopen : s.job.state.isCutOpen = true) (hids : (s.stops.entries.map (·.id)).Nodup) :
    v.stops.changes % 65536 = (s.stops.changes + (s.stops.entries.length - v.stops.entries.length) +
    if popen < s.length.p then
      s.stops.entries.countP (fun e => decide (e.web + s.geometry.s ≤ popen) || e.ref.isSet) else 0) % 65536 := by
  have hpart := h.plannerPart hn hopen hids
  have hchanges := hpart.changes
  have hshift := shifted_stops_changes s popen
  have hlength := (shifted_entries s popen).length_eq
  have hle : v.stops.entries.length ≤ (s.shifted popen).stops.entries.length := by
    rw [hpart.entries]
    exact List.length_filter_le _ _
  rw [List.length_map] at hlength
  generalize (if popen < s.length.p then _ else 0) = k at hshift ⊢
  omega

section Counted
variable (h : SpliceCuts popen named s v a b js₁ ns₁ js ns) (hn : (s.queue.records.map (·.joined)).Nodup)
  (hnumbers : (s.queue.records.map (·.body.number)).Nodup)
include h hn hnumbers

theorem length_eq : v.queue.records.length = (s.queue.records.filter (fun r => !s.cutsRecord popen named r)).length := by
  have hlength := congrArg List.length h.removed.records
  rw [List.length_map, List.length_map, ← List.countP_eq_length_filter, shifted_countP _ fun _ => rfl] at hlength
  rw [hlength, ← List.countP_eq_length_filter]
  exact List.countP_congr fun r hr => by
    rw [decide_eq_true_iff, h.joined_iff hn (.inl hnumbers) hr, Bool.not_eq_true', Bool.not_eq_true]

/-- The ids cut are those that the named records and those pulled through hold. -/
theorem idCut_eq (id : Nat) : (s.shifted popen).idCut (fun x => decide (x.joined ∈ js)) id =
    s.queue.records.any (fun x => s.cutsRecord popen named x && decide (x.stopId = some id)) := by
  rw [State.idCut, any_eq_of_perm (shifted_records s popen), List.any_map, Bool.eq_iff_iff, List.any_eq_true, List.any_eq_true]
  refine exists_congr fun r => and_congr_right fun hr => ?_
  rw [Function.comp_apply, Bool.and_eq_true, Bool.and_eq_true, decide_eq_true_iff]
  exact and_congr_left fun _ => h.joined_iff hn (.inl hnumbers) hr

variable (hopen : s.job.state.isCutOpen = true) (hids : (s.stops.entries.map (·.id)).Nodup)
include hopen hids

/-- The entries left are those of no record removed, with their targets shifted (R112, R113). -/
theorem mem_entries {x : StopEntry} : x ∈ v.stops.entries ↔ ∃ e ∈ s.stops.entries, x = s.cutStop popen e ∧
    ∀ r ∈ s.queue.records, s.cutsRecord popen named r = true → r.stopId ≠ some e.id := by
  rw [(h.plannerPart hn hopen hids).entries, List.mem_filter, (shifted_entries s popen).mem_iff, List.mem_map]
  have hkeeps (e : StopEntry) : (!(s.shifted popen).idCut (fun x => decide (x.joined ∈ js)) e.id) = true ↔
      ∀ r ∈ s.queue.records, s.cutsRecord popen named r = true → r.stopId ≠ some e.id := by
    rw [h.idCut_eq hn hnumbers, Bool.not_eq_true', List.any_eq_false]
    refine forall₂_congr fun r _ => ?_
    rw [Bool.and_eq_true, decide_eq_true_iff, not_and]
  constructor
  · rintro ⟨⟨e, he, rfl⟩, hkeep⟩
    rw [cutStop_id] at hkeep
    exact ⟨e, he, rfl, (hkeeps e).1 hkeep⟩
  · rintro ⟨e, he, rfl, hkeep⟩
    refine ⟨⟨e, he, rfl⟩, ?_⟩
    rw [cutStop_id]
    exact (hkeeps e).2 hkeep

/-- The records left are those not cut, shifted, without the ids of entries that left with a cut record (R72, R113, R114). -/
theorem mem_records {x : PathRecord} : x ∈ v.queue.records ↔ ∃ r ∈ s.queue.records.filter (fun r => !s.cutsRecord popen named r),
    x = { r with
      body := { r.body with web := s.cutWeb popen r.body.web }
      stopId := if s.stops.entries.any (fun e => decide (e.ref = .record r.body.number ∧ r.stopId = some e.id) &&
          s.queue.records.any (fun x => s.cutsRecord popen named x && decide (x.stopId = some e.id))) then none else r.stopId } := by
  have hclear (r : PathRecord) : (s.cutRecord popen r).clearedBy (s.shifted popen).stops.entries
      ((s.shifted popen).idCut (fun x => decide (x.joined ∈ js))) = { r with
      body := { r.body with web := s.cutWeb popen r.body.web }
      stopId := if s.stops.entries.any (fun e => decide (e.ref = .record r.body.number ∧ r.stopId = some e.id) &&
          s.queue.records.any (fun x => s.cutsRecord popen named x && decide (x.stopId = some e.id))) then none else r.stopId } := by
    have hany : (s.shifted popen).stops.entries.any (fun e =>
        decide (e.ref = .record (s.cutRecord popen r).body.number ∧ (s.cutRecord popen r).stopId = some e.id) &&
          (s.shifted popen).idCut (fun x => decide (x.joined ∈ js)) e.id) =
        s.stops.entries.any (fun e => decide (e.ref = .record r.body.number ∧ r.stopId = some e.id) &&
          s.queue.records.any (fun x => s.cutsRecord popen named x && decide (x.stopId = some e.id))) := by
      rw [any_eq_of_perm (shifted_entries s popen), List.any_map]
      refine congrArg s.stops.entries.any (funext fun e => ?_)
      rw [Function.comp_apply, cutStop_id, cutStop_ref, h.idCut_eq hn hnumbers]
      rfl
    rw [PathRecord.clearedBy, hany]
    rfl
  rw [(h.plannerPart hn hopen hids).records, List.mem_map]
  constructor
  · rintro ⟨r', hr', rfl⟩
    obtain ⟨hr', hj⟩ := List.mem_filter.1 hr'
    obtain ⟨r, hr, rfl⟩ := (mem_shifted_records s popen).1 hr'
    refine ⟨r, List.mem_filter.2 ⟨hr, ?_⟩, hclear r⟩
    rw [Bool.not_eq_true', ← Bool.not_eq_true, ← h.joined_iff hn (.inl hnumbers) hr]
    exact of_decide_eq_true hj
  · rintro ⟨r, hr, rfl⟩
    obtain ⟨hr, hcut⟩ := List.mem_filter.1 hr
    refine ⟨s.cutRecord popen r, List.mem_filter.2 ⟨(mem_shifted_records s popen).2 ⟨r, hr, rfl⟩, decide_eq_true fun hj => ?_⟩, hclear r⟩
    rw [(h.joined_iff hn (.inl hnumbers) hr).1 hj] at hcut
    exact Bool.false_ne_true hcut

theorem queue_changes (hst : s.stops.Sound) (hm : s.StopIdsMatch) : v.queue.changes % 65536 = (s.queue.changes +
    (if popen < s.length.p ∧ ∃ r ∈ s.queue.records, r.body.web + s.geometry.s ≤ popen then 1 else 0) +
    s.queue.records.countP (s.cutsRecord popen named)) % 65536 := by
  have hids' : ((s.shifted popen).stops.entries.map (·.id)).Nodup := by
    rw [((shifted_entries s popen).map _).nodup_iff, List.map_map]
    have hid : (fun e : StopEntry => e.id) ∘ s.cutStop popen = fun e => e.id := funext fun e => cutStop_id s popen e
    rwa [hid]
  have hnumbers' : ((s.shifted popen).queue.records.map (·.body.number)).Nodup := by
    rw [((shifted_records s popen).map _).nodup_iff, List.map_map]
    exact hnumbers
  have hchanges := h.removed.changes hopen hids' (shifted_joined_nodup hn) hnumbers'
    ((cutShift_matches popen (s.length.p - popen) s).ids hst hm)
  have hshift := shifted_queue_changes s popen
  rw [h.joined_length hn (.inl hnumbers)] at hchanges
  omega

end Counted

/-! ### The lanes -/

theorem mem_ns_iff (h : SpliceCuts popen named s v a b js₁ ns₁ js ns) (hd : s.NumbersDiffer) {set : SetRecord}
    (hset : s.roll.windingSet = some set) (n : Nat) :
    decide (n ∈ ns) = s.roll.register.any (fun it => it.body.number == n && s.cutsItem popen named set it) := by
  rw [Bool.eq_iff_iff, decide_eq_true_iff, List.any_eq_true]
  constructor
  · intro hn
    obtain ⟨⟨it, hit, rfl⟩, -⟩ := (s.unwoundItem_iff hset).1 (h.number_cut hn).1
    exact ⟨it, hit, by rw [(number_iff hd hset h hit).1 hn, beq_self_eq_true]; rfl⟩
  · rintro ⟨it, hit, hboth⟩
    obtain ⟨hnumber, hcut⟩ := Bool.and_eq_true _ _ ▸ hboth
    rw [← beq_iff_eq.1 hnumber]
    exact (number_iff hd hset h hit).2 hcut

end SpliceCuts

/-- What the lanes keep and count when entries leave by a test on their record numbers (R80, R113). -/
theorem cutOut_lanes {gone : Nat → Bool} {ns : List Nat} (h : ∀ n, decide (n ∈ ns) = gone n) (lanes : List LaneRecord) :
    (lanes.map (LaneRecord.cutOut ns)).map (fun x => { x with edits := 0 }) = lanes.map (fun x =>
      { x with defects := x.defects.filter (fun e => !gone e.record), splices := x.splices.filter (fun e => !gone e.record),
               edits := 0 }) ∧
    (lanes.map (LaneRecord.cutOut ns)).map (fun x => x.edits % 65536) = lanes.map (fun x =>
      (x.edits + x.defects.countP (fun e => gone e.record) + x.splices.countP (fun e => gone e.record)) % 65536) := by
  have hdefects : (fun e : DefectEntry => decide (e.record ∉ ns)) = fun e => !gone e.record := funext fun e => by rw [decide_not, h]
  have hsplices : (fun e : SpliceEntry => decide (e.record ∉ ns)) = fun e => !gone e.record := funext fun e => by rw [decide_not, h]
  have hdefects' : (fun e : DefectEntry => decide (e.record ∈ ns)) = fun e => gone e.record := funext fun e => by rw [h]
  have hsplices' : (fun e : SpliceEntry => decide (e.record ∈ ns)) = fun e => gone e.record := funext fun e => by rw [h]
  rw [List.map_map, List.map_map]
  refine ⟨List.map_congr_left fun lane _ => ?_, List.map_congr_left fun lane _ => ?_⟩
  · rw [Function.comp_apply, LaneRecord.cutOut_eq, hdefects, hsplices]
  · rw [Function.comp_apply, LaneRecord.cutOut_edits, hdefects', hsplices']

/-! ## Steps 2 to 4 -/

theorem cutItem_number (s : State) (popen : Nat) (it : RegisterItem) : (s.cutItem popen it).body.number = it.body.number := rfl

/-- A roll map whose winding set's record changes: the other slots stand (R78). -/
theorem slot_of_roll {m m' : RollMap} {f : SetRecord → SetRecord} {l : List RegisterItem}
    (h : m' = { m.mapWinding f with register := l }) {i : Nat} (hi : (m.slot i).isWinding = false) : m'.slot i = m.slot i := by
  rw [h]
  exact (RollMap.slot_mapWinding f m i).trans (Slot.mapWinding_of_not hi)

theorem windingSet_of_roll {m m' : RollMap} {f : SetRecord → SetRecord} {l : List RegisterItem}
    (h : m' = { m.mapWinding f with register := l }) : m'.windingSet = m.windingSet.map f := by
  rw [h]
  exact RollMap.windingSet_mapWinding f m

section Entered
variable {popen first last : Nat} {named : List Nat} {s v : State} {a b : Nat} {js₁ ns₁ js ns : List Nat}

/-- The repair splice in the queue changes the roll only where the queue is full. -/
theorem enterRepairSplice_roll (h : SpliceCuts popen named s v a b js₁ ns₁ js ns) : (enterRepairSplice first last v).1.roll =
    { s.roll.mapWinding (s.cutSet popen (a + b) ns (decide (v.queue.records.length < 64))) with
      register := (s.roll.register.map (s.cutItem popen)).filter (fun it => decide (it.body.number ∉ ns)) } := by
  by_cases hl : v.queue.records.length < 64
  · rw [enterRepairSplice_room hl, decide_eq_true hl]
    exact h.roll
  · rw [enterRepairSplice_full (not_lt.1 hl), decide_eq_false hl]
    have hmap := RollMap.mapWinding_mapWinding (s.cutSet popen (a + b) ns true) (fun r => { r with mapIncomplete := true }) s.roll
    have hfun : (fun r : SetRecord => { r with mapIncomplete := true }) ∘ s.cutSet popen (a + b) ns true =
        s.cutSet popen (a + b) ns false := by
      funext set
      simp [State.cutSet]
    rw [hfun] at hmap
    change v.roll.mapWinding _ = _
    rw [h.roll, ← hmap]
    rfl

theorem enterRepairSplice_eq (h : SpliceCuts popen named s v a b js₁ ns₁ js ns) : (enterRepairSplice first last v).1 =
    { s with queue := (enterRepairSplice first last v).1.queue, roll := (enterRepairSplice first last v).1.roll,
             stops := (enterRepairSplice first last v).1.stops, alerts := (enterRepairSplice first last v).1.alerts } := by
  have hframe := h.frame
  by_cases hl : v.queue.records.length < 64
  · rw [enterRepairSplice_room hl]
    generalize v.freshNumber = n
    rw [hframe]
    rfl
  · rw [enterRepairSplice_full (not_lt.1 hl), hframe]
    rfl

/-- The record of the repair splice, its web mark at the table (R115). -/
theorem joining_repair (h : SpliceCuts popen named s v a b js₁ ns₁ js ns) (number : Nat) :
    v.joining (v.repairBody number) (some (v.repairLanes first last)) = {
      body := { number := number, kind := .repairSplice, xs := 0, xe := 30000, length := 0,
                web := (s.length.p : Int) - s.geometry.s }
      slit := some { first := first, last := last, plan := planId s.plans.active }, stopId := none, joined := s.queue.nextJoin } := by
  have hlength : v.length = s.length := by rw [h.frame]
  have hgeometry : v.geometry = s.geometry := by rw [h.frame]
  have hplans : v.plans = s.plans := by rw [h.frame]
  have hjoin : v.queue.nextJoin = s.queue.nextJoin := by rw [h.queue.1]
  rw [State.joining, State.repairBody, State.repairLanes, hlength, hgeometry, hplans, hjoin]

variable (h : SpliceCuts popen named s v a b js₁ ns₁ js ns) (hmatches : Matches s v) (hq : s.QueueSound) (hst : s.stops.Sound)
  (hd : s.NumbersDiffer) (hj : s.job.state = .cutOpen popen) {set : SetRecord} (hset : s.roll.windingSet = some set)
include h hmatches hq hst hd hj hset

theorem afterCut : AfterCut popen first last named (enterRepairSplice first last v).2 set s
    (enterRepairSplice first last v).1.cutOver := by
  have hopen : s.job.state.isCutOpen = true := by rw [hj]; rfl
  have hn := hq.2.2.1
  have hids := hst.2.2.1
  have hnumbers := SpliceCuts.records_numbers_nodup hd
  have hpart := h.plannerPart hn hopen hids
  have hlength := h.length_eq hn hnumbers
  have hmoves := (hmatches.trans (enterRepairSplice_matches first last (by rw [h.frame, hj]; exact nofun))).moves
  have horder := hmoves.queue.inOrder ⟨hq.1, hq.2.1, hq.2.2.1, hq.2.2.2.1⟩
  have hroll := enterRepairSplice_roll (first := first) (last := last) h
  have hlanes := cutOut_lanes (h.mem_ns_iff hd hset) set.lanes
  have hwinding := windingSet_of_roll hroll
  rw [hset, Option.map_some] at hwinding
  have heq := enterRepairSplice_eq (first := first) (last := last) h
  have hstops : (enterRepairSplice first last v).1.stops = v.stops := by simp
  unfold AfterCut
  intro kept items gone room cancelled repair
  have hroom : room = decide (v.queue.records.length < 64) := by rw [hlength]
  have hmark : v.queue.highMark = s.queue.highMark := by rw [h.queue.1]
  have hnext : v.queue.nextNumber = s.queue.nextNumber := by rw [h.queue.1]
  have hjoin : v.queue.nextJoin = s.queue.nextJoin := by rw [h.queue.1]
  have hflow : v.queue.flow = { s.queue.flow with removed := v.queue.flow.removed } := by rw [h.queue.1]
  have htaken : v.queue.flow.taken = s.queue.flow.taken := by rw [hflow]
  have hremoved := h.queue.2
  rw [h.joined_length hn (.inl hnumbers)] at hremoved
  refine ⟨?_, ?_, ?_, horder.2.1, fun x => ?_, ?_, ?_, ⟨?_, ?_, ?_⟩, fun hm => ?_, ⟨?_, ?_, ?_, fun x => ?_⟩, ?_, ?_, ?_, ?_, ?_⟩
  · exact (congrArg State.cutOver heq).trans rfl
  · rw [hroom]
    by_cases hl : v.queue.records.length < 64
    · rw [decide_eq_true hl, enterRepairSplice_room hl, if_pos rfl]
      exact hpart.alerts
    · rw [decide_eq_false hl, enterRepairSplice_full (not_lt.1 hl), if_neg Bool.false_ne_true]
      exact congrArg (fun x : ByPort Station => x.map (Station.post .queueFull)) hpart.alerts
  · by_cases hl : v.queue.records.length < 64
    · rw [enterRepairSplice_room hl]
      exact hmark
    · rw [enterRepairSplice_full (not_lt.1 hl)]
      exact hmark
  · have hrecords := h.mem_records hn hnumbers hopen hids (x := x)
    rw [hroom]
    by_cases hl : v.queue.records.length < 64
    · have hrepair : repair = v.joining (v.repairBody v.freshNumber) (some (v.repairLanes first last)) := by
        rw [joining_repair h]
        simp only [repair, enterRepairSplice_room hl]
      rw [decide_eq_true hl, hrepair, enterRepairSplice_room hl]
      refine mem_placeRecord.trans (or_congr ?_ hrecords)
      rw [eq_self_iff_true, true_and]
    · rw [decide_eq_false hl, enterRepairSplice_full (not_lt.1 hl)]
      exact hrecords.trans (by simp only [Bool.false_eq_true, false_and, false_or]; rfl)
  · rw [hroom, ← hlength]
    by_cases hl : v.queue.records.length < 64
    · rw [decide_eq_true hl, enterRepairSplice_room hl]
      exact length_placeRecord _ _
    · rw [decide_eq_false hl, enterRepairSplice_full (not_lt.1 hl)]
      rfl
  · rw [hroom]
    by_cases hl : v.queue.records.length < 64
    · rw [decide_eq_true hl, enterRepairSplice_room hl]
      exact ⟨rfl, congrArg (· + 1) hjoin⟩
    · rw [decide_eq_false hl, enterRepairSplice_full (not_lt.1 hl)]
      exact ⟨hnext, hjoin⟩
  · by_cases hl : v.queue.records.length < 64
    · rw [enterRepairSplice_room hl]
      exact congrArg (fun f : Flow => { f with taken := wrap32 v.queue.flow.taken 1 }) hflow
    · rw [enterRepairSplice_full (not_lt.1 hl)]
      exact congrArg (fun f : Flow => { f with taken := v.queue.flow.taken }) hflow
  · rw [hroom]
    by_cases hl : v.queue.records.length < 64
    · rw [decide_eq_true hl, enterRepairSplice_room hl]
      change wrap32 v.queue.flow.taken 1 % 4294967296 = _
      rw [wrap32, Nat.mod_mod, htaken, if_pos rfl]
    · rw [decide_eq_false hl, enterRepairSplice_full (not_lt.1 hl)]
      exact congrArg (· % 4294967296) htaken
  · refine Eq.trans (congrArg (· % 4294967296) ?_) hremoved
    by_cases hl : v.queue.records.length < 64
    · rw [enterRepairSplice_room hl]
      rfl
    · rw [enterRepairSplice_full (not_lt.1 hl)]
      rfl
  · have hchanges := h.queue_changes hn hnumbers hopen hids hst hm
    rw [hroom]
    by_cases hl : v.queue.records.length < 64
    · rw [decide_eq_true hl, enterRepairSplice_room hl]
      change wrap16 v.queue.changes 1 % 65536 = _
      rw [wrap16, Nat.mod_mod, Nat.add_mod, hchanges, if_pos rfl, ← Nat.add_mod]
    · rw [decide_eq_false hl, enterRepairSplice_full (not_lt.1 hl)]
      exact hchanges
  · change (enterRepairSplice first last v).1.stops = { s.stops with
      entries := (enterRepairSplice first last v).1.stops.entries, changes := (enterRepairSplice first last v).1.stops.changes }
    rw [hstops, hpart.stops, shifted_stops]
  · change (enterRepairSplice first last v).1.stops.changes % 65536 = (s.stops.changes +
      (s.stops.entries.length - (enterRepairSplice first last v).1.stops.entries.length) + _) % 65536
    rw [hstops]
    exact h.stops_changes hn hopen hids
  · exact (hmoves.stops hst).2.1
  · change x ∈ (enterRepairSplice first last v).1.stops.entries ↔ _
    rw [hstops]
    exact h.mem_entries hn hnumbers hopen hids
  · refine (congrArg RollMap.register hroll).trans ?_
    change (s.roll.register.map (s.cutItem popen)).filter _ = _
    rw [List.filter_map]
    refine congrArg (List.map _) (List.filter_congr fun it hit => ?_)
    rw [Function.comp_apply, cutItem_number, decide_not, Bool.not_inj_iff, Bool.eq_iff_iff, decide_eq_true_iff]
    exact SpliceCuts.number_iff hd hset h hit
  · change (enterRepairSplice first last v).1.roll = { s.roll with
      slots := (enterRepairSplice first last v).1.roll.slots, register := (enterRepairSplice first last v).1.roll.register }
    rw [hroll]
    rfl
  · exact fun i _ hi => slot_of_roll hroll hi
  · change (enterRepairSplice first last v).1.roll.windingSet.isSome = true
    rw [hwinding]
    rfl
  · intro set' hset'
    obtain rfl := Option.some.inj (hwinding.symm.trans hset')
    rw [hroom]
    refine ⟨rfl, ?_⟩
    exact hlanes

end Entered

end Sys2Proof.Machine
end

