-- ==== Sys2Proof/Proofs/SpliceMades.lean ====
section
/-! PROOFS. SPLICE-MADE from the shift to the end of the cut (R108 to R116). -/

namespace Sys2Proof.Machine

/-! ## The end of a cut, continued -/

/-- What the end of a cut leaves of the queue (R73, R116). -/
theorem endCut_queue (s : State) : (endCut s).queue = { s.queue with
    records := (endCut s).queue.records, changes := (endCut s).queue.changes, flow := { s.queue.flow with
      delivered := (endCut s).queue.flow.delivered, unmapped := (endCut s).queue.flow.unmapped } } := by
  have hevaluated := (endCut_evaluated s).queue
  have hdelivered := deliverDue_queue_keeps (windingTest s.cutOver)
  change s.cutDelivered.queue = _ at hdelivered
  generalize (endCut s).queue = q at hevaluated ⊢
  generalize s.cutDelivered.queue = q' at hevaluated hdelivered
  rw [hevaluated, hdelivered]
  rfl

theorem EntriesTested.mono {but but' : List Nat} {t : State} (h : EntriesTested but t) (hsub : but ⊆ but') : EntriesTested but' t :=
  fun set hset lane hlane => ⟨fun e he hn => (h set hset lane hlane).1 e he fun hmem => hn (hsub hmem),
    fun e he hn => (h set hset lane hlane).2 e he fun hmem => hn (hsub hmem)⟩

/-- No entry of the winding set has a number that neither a record of the queue nor an entry had (R92, R116). -/
theorem endCut_no_entry {s : State} {n : Nat} (hrecords : ∀ r ∈ s.queue.records, r.body.number ≠ n)
    (hlanes : ∀ set ∈ s.roll.windingSet, ∀ lane ∈ set.lanes,
      (∀ e ∈ lane.defects, e.record ≠ n) ∧ ∀ e ∈ lane.splices, e.record ≠ n) :
    ∀ set ∈ (endCut s).roll.windingSet, ∀ lane ∈ set.lanes,
      (∀ e ∈ lane.defects, e.record ≠ n) ∧ ∀ e ∈ lane.splices, e.record ≠ n := by
  have hfrom : EntriesFrom (s.queue.records.map (·.body.number)) (windingTest s.cutOver) s.cutDelivered :=
    .deliverDue fun r hr => List.mem_map_of_mem (f := fun r : PathRecord => r.body.number) hr
  have hn : n ∉ s.queue.records.map (·.body.number) := fun hmem => by
    obtain ⟨r, hr, heq⟩ := List.mem_map.1 hmem
    exact hrecords r hr heq
  intro set' hset' lane' hlane'
  rw [endCut_eq_with] at hset'
  obtain ⟨set, hset, hall, -⟩ := hfrom set' hset'
  rw [windingTest_windingSet] at hset
  obtain ⟨set₀, hset₀, rfl⟩ := Option.map_eq_some_iff.1 hset
  have htested {register : List RegisterItem} {w : Int} {p : Nat} {lane : LaneRecord}
      (h : lane ∈ set₀.lanes.map (LaneRecord.windingTest register w p)) :
      (∀ e ∈ lane.defects, e.record ≠ n) ∧ ∀ e ∈ lane.splices, e.record ≠ n := by
    obtain ⟨lane₀, hlane₀, rfl⟩ := List.mem_map.1 h
    refine ⟨fun e he => ?_, fun e he => ?_⟩
    · obtain ⟨e₀, he₀, rfl⟩ := List.mem_map.1 he
      exact (hlanes set₀ hset₀ lane₀ hlane₀).1 e₀ he₀
    · obtain ⟨e₀, he₀, rfl⟩ := List.mem_map.1 he
      exact (hlanes set₀ hset₀ lane₀ hlane₀).2 e₀ he₀
  refine ⟨fun e he heq => ?_, fun e he heq => ?_⟩
  · obtain ⟨lane, hlane, he⟩ := (hall lane' hlane').1 e he (heq ▸ hn)
    exact (htested hlane).1 e he heq
  · obtain ⟨lane, hlane, he⟩ := (hall lane' hlane').2 e he (heq ▸ hn)
    exact (htested hlane).2 e he heq

/-- A record that holds no stop entry id and is not due stays with none (R72, R116). -/
theorem endCut_keeps_without_id {s : State} (hq : s.QueueSound) {r : PathRecord} (hr : r ∈ s.queue.records)
    (hdue : s.dueAtNip r = false) (hid : r.stopId = none) : r ∈ (endCut s).queue.records := by
  obtain ⟨f, hf, hrecords⟩ := (endCut_evaluated s).records
  have hmem : r ∈ s.cutDelivered.queue.records := by
    rw [State.cutDelivered, deliverDue_records (s := windingTest s.cutOver) hq.2.2.1 rfl, cutOver_due]
    exact List.mem_filter.2 ⟨hr, by rw [hdue]; rfl⟩
  rw [hrecords]
  refine List.mem_map.2 ⟨r, hmem, (hf r).elim id fun h => h.trans ?_⟩
  rw [← hid]

theorem endCut_pendsAs {k : EventKind} (he : k ∉ evaluationPosts) (hd : k ≠ .defectDropped) (hh : k ≠ .laneHold) (s : State) :
    (endCut s).PendsAs k s :=
  (evaluate_pendsAs he _).trans (deliverDue_pendsAs hd hh _)

/-- The end of a cut leaves the close list and the count of maps lost. -/
theorem endCut_roll (s : State) :
    (endCut s).roll.closeList = s.roll.closeList ∧ (endCut s).roll.mapsLost = s.roll.mapsLost := by
  rw [endCut_eq_with]
  refine deliverDue_induction (s := windingTest s.cutOver)
    (C := fun u => u.roll.closeList = s.roll.closeList ∧ u.roll.mapsLost = s.roll.mapsLost) ⟨rfl, rfl⟩ fun u r hu _ hdue => ?_
  rw [deliverRecord_eq (dueAtNip_slit hdue)]
  change (u.handed r).roll.closeList = _ ∧ (u.handed r).roll.mapsLost = _
  unfold State.handed
  split
  · rw [deliverToRoll_eq]
    exact hu
  · exact hu

/-! ## The repair splice in the queue -/

theorem filter_placeRecord {p : PathRecord → Bool} {r : PathRecord} (h : p r = false) (l : List PathRecord) :
    (placeRecord r l).filter p = l.filter p := by
  induction l with
  | nil => simp [placeRecord, h]
  | cons x l ih =>
    unfold placeRecord
    split
    · rw [List.filter_cons, h, if_neg Bool.false_ne_true]
    · rw [List.filter_cons, List.filter_cons, ih]

/-- A number that is free is the next one (R56). -/
theorem freshNumber_of_free {s : State} (h : s.queue.nextNumber ∉ s.usedNumbers) : s.freshNumber = s.queue.nextNumber := by
  unfold State.freshNumber
  cases s.usedNumbers.length with
  | zero => rfl
  | succ n => exact if_neg h

theorem mem_enterRepairSplice {first last : Nat} {v : State} {x : PathRecord} :
    x ∈ (enterRepairSplice first last v).1.queue.records ↔ (v.queue.records.length < 64 ∧
      x = v.joining (v.repairBody (enterRepairSplice first last v).2) (some (v.repairLanes first last))) ∨ x ∈ v.queue.records := by
  by_cases hl : v.queue.records.length < 64
  · rw [enterRepairSplice_room hl]
    exact mem_placeRecord.trans (or_congr_left (by rw [eq_true hl, true_and]))
  · rw [enterRepairSplice_full (not_lt.1 hl)]
    exact (or_iff_right fun h => hl h.1).symm

namespace SpliceCuts

variable {popen first last : Nat} {named : List Nat} {s v : State} {a b : Nat} {js₁ ns₁ js ns : List Nat}
  (h : SpliceCuts popen named s v a b js₁ ns₁ js ns)
include h

/-- A record before the end of the cut was there, or is the repair splice. -/
theorem entered_of {x : PathRecord} (hx : x ∈ (enterRepairSplice first last v).1.queue.records) :
    x.body = s.repairBody (enterRepairSplice first last v).2 ∨
      x.joined ∉ js ∧ ∃ r ∈ s.queue.records, (s.cutRecord popen r).bare = x.bare := by
  rcases mem_enterRepairSplice.1 hx with ⟨-, rfl⟩ | hx
  · left
    rw [joining_repair h]
    rfl
  · exact .inr (h.mem_of hx)

theorem entered_sound (hmatches : Matches s v) (hj : s.job.state = .cutOpen popen) (hq : s.QueueSound) :
    (enterRepairSplice first last v).1.QueueSound := by
  have hmoves := (hmatches.trans (enterRepairSplice_matches first last (by rw [h.frame, hj]; exact nofun))).moves
  obtain ⟨h1, h2, h3, h4⟩ := hmoves.queue.inOrder ⟨hq.1, hq.2.1, hq.2.2.1, hq.2.2.2.1⟩
  refine ⟨h1, h2, h3, h4, fun hno => ?_⟩
  rw [hmoves.job, hj] at hno
  exact nomatch hno

theorem p_eq : (enterRepairSplice first last v).1.length.p = s.length.p := by
  rw [enterRepairSplice_eq h]

theorem geometry_eq : (enterRepairSplice first last v).1.geometry = s.geometry := by
  rw [enterRepairSplice_eq h]

/-- The repair splice, in the queue or not, leaves the high mark and the removed counter (R73, R115). -/
theorem entered_queue : (enterRepairSplice first last v).1.queue.highMark = s.queue.highMark ∧
    (enterRepairSplice first last v).1.queue.flow.removed = v.queue.flow.removed := by
  have hmark : v.queue.highMark = s.queue.highMark := by rw [h.queue.1]
  by_cases hl : v.queue.records.length < 64
  · rw [enterRepairSplice_room hl]
    exact ⟨hmark, rfl⟩
  · rw [enterRepairSplice_full (not_lt.1 hl)]
    exact ⟨hmark, rfl⟩

theorem used_subset : v.usedNumbers ⊆ s.usedNumbers := by
  intro n hn
  rcases List.mem_append.1 hn with hn | hn
  · obtain ⟨x, hx, rfl⟩ := List.mem_map.1 hn
    obtain ⟨-, r, hr, hbare⟩ := h.mem_of hx
    refine List.mem_append_left _ (List.mem_map.2 ⟨r, hr, ?_⟩)
    rw [← (bare_eq_iff.1 hbare).1]
    rfl
  · refine List.mem_append_right _ ?_
    rw [windingSet_of_roll h.roll] at hn
    cases hset : s.roll.windingSet with
    | none => rw [hset] at hn; exact hn
    | some set =>
      rw [hset] at hn
      obtain ⟨lane', hlane', hn⟩ := List.mem_flatMap.1 hn
      obtain ⟨lane, hlane, rfl⟩ := List.mem_map.1 hlane'
      refine List.mem_flatMap.2 ⟨lane, hlane, ?_⟩
      rw [LaneRecord.cutOut_defects, LaneRecord.cutOut_splices] at hn
      rcases List.mem_append.1 hn with hn | hn
      · obtain ⟨e, he, heq⟩ := List.mem_map.1 hn
        exact List.mem_append_left _ (List.mem_map.2 ⟨e, List.mem_of_mem_filter he, heq⟩)
      · obtain ⟨e, he, heq⟩ := List.mem_map.1 hn
        exact List.mem_append_right _ (List.mem_map.2 ⟨e, List.mem_of_mem_filter he, heq⟩)

/-- No record at the nip is left, and each one left was there or is the repair splice (R68). -/
theorem ended_of {x : PathRecord} (hx : x ∈ (endCut (enterRepairSplice first last v).1).queue.records) :
    (x.slit.isSome = true → (s.length.p : Int) < x.body.web + s.geometry.w) ∧
      (x.body = s.repairBody (enterRepairSplice first last v).2 ∨
        x.joined ∉ js ∧ ∃ r ∈ s.queue.records, (s.cutRecord popen r).bare = x.bare) := by
  obtain ⟨hdue, r', hr', hbare⟩ := endCut_record hx
  rw [dueAtNip_false_iff, h.p_eq, h.geometry_eq] at hdue
  obtain ⟨hbody, -, hjoined⟩ := bare_eq_iff.1 hbare
  refine ⟨hdue, (h.entered_of hr').imp (fun heq => hbody ▸ heq) fun ⟨hj, r, hr, heq⟩ => ⟨hjoined ▸ hj, r, hr, heq.trans hbare⟩⟩

/-- A record removed is not there at the end. -/
theorem ended_joined (hq : s.QueueSound) {x r : PathRecord}
    (hx : x ∈ (endCut (enterRepairSplice first last v).1).queue.records) (hr : r ∈ s.queue.records) (hj : r.joined ∈ js) :
    x.joined ≠ r.joined := by
  intro heq
  obtain ⟨-, x', hx', hbare⟩ := endCut_record hx
  have hjoined := (bare_eq_iff.1 hbare).2.2
  rcases mem_enterRepairSplice.1 hx' with ⟨-, rfl⟩ | hx'
  · rw [joining_repair h] at hjoined
    have := hq.2.2.2.1 r hr
    rw [heq] at hjoined
    exact absurd hjoined.symm this.ne
  · exact (h.mem_of hx').1 (by rwa [hjoined, heq])

/-- A record kept by the removals and ahead of the nip is there at the end, shifted (R110, R116). -/
theorem ended_keeps (hq : (enterRepairSplice first last v).1.QueueSound) {r : PathRecord} (hr : r ∈ s.queue.records)
    (hj : r.joined ∉ js) (hahead : r.slit = none ∨ (s.length.p : Int) < s.cutWeb popen r.body.web + s.geometry.w) :
    ∃ x ∈ (endCut (enterRepairSplice first last v).1).queue.records, x.bare = (s.cutRecord popen r).bare := by
  obtain ⟨x, hx, hbare⟩ := h.mem hr hj
  obtain ⟨hbody, hslit, -⟩ := bare_eq_iff.1 hbare
  obtain ⟨y, hy, hbare'⟩ := endCut_keeps_record hq ((mem_enterRepairSplice (first := first) (last := last)).2 (.inr hx)) (by
    rw [dueAtNip_false_iff, h.p_eq, h.geometry_eq, hbody, hslit]
    exact fun hsome => hahead.resolve_left (Option.isSome_iff_ne_none.1 hsome))
  exact ⟨y, hy, hbare'.trans hbare⟩

/-- The repair splice is at the table, ahead of the nip, and stays with no stop entry id (R115). -/
theorem ended_repair (hq : (enterRepairSplice first last v).1.QueueSound) (hl : v.queue.records.length < 64)
    (hg : s.geometry.s < s.geometry.w) : ∃ r ∈ (endCut (enterRepairSplice first last v).1).queue.records, r.stopId = none ∧
      r.slit = some { first := first, last := last, plan := planId s.plans.active } ∧
      r.body = s.repairBody (enterRepairSplice first last v).2 := by
  have hmem := (mem_enterRepairSplice (first := first) (last := last)).2 (.inl ⟨hl, rfl⟩)
  rw [joining_repair h] at hmem
  refine ⟨_, endCut_keeps_without_id hq hmem ?_ rfl, rfl, rfl, rfl⟩
  rw [dueAtNip_false_iff, h.p_eq, h.geometry_eq]
  exact fun _ => by dsimp only; omega

/-- The items of the register at the end: those that were there, shifted, and records delivered (R111, R116). -/
theorem ended_register {it : RegisterItem} (hit : it ∈ (endCut (enterRepairSplice first last v).1).roll.register) :
    (it.body.number ∉ ns ∧ ∃ it₀ ∈ s.roll.register, s.cutItem popen it₀ = it) ∨
      it.body = s.repairBody (enterRepairSplice first last v).2 ∨
      ∃ r ∈ s.queue.records, r.slit = some it.lanes ∧ it.body = { r.body with web := s.cutWeb popen r.body.web } := by
  rcases endCut_register hit with hit | ⟨x, hx, hbody, hslit, -⟩
  · left
    rw [enterRepairSplice_roll h] at hit
    obtain ⟨hit, hn⟩ := List.mem_filter.1 hit
    exact ⟨of_decide_eq_true hn, List.mem_map.1 hit⟩
  · right
    refine (h.entered_of hx).imp (fun heq => hbody ▸ heq) fun ⟨_, r, hr, hbare⟩ => ⟨r, hr, ?_, ?_⟩
    · exact (bare_eq_iff.1 hbare).2.1.trans hslit
    · exact hbody.symm.trans (bare_eq_iff.1 hbare).1.symm

/-- What is removed from the roll is in no lane and not in the register at the end, where no record has its number (R113, R114). -/
theorem ended_gone {n : Nat} (hn : n ∈ ns) (hno : ∀ r ∈ s.queue.records, r.body.number ≠ n)
    (hnew : n ≠ (enterRepairSplice first last v).2) :
    (∀ it ∈ (endCut (enterRepairSplice first last v).1).roll.register, it.body.number ≠ n) ∧
      ∀ set ∈ (endCut (enterRepairSplice first last v).1).roll.windingSet, ∀ lane ∈ set.lanes,
        (∀ e ∈ lane.defects, e.record ≠ n) ∧ ∀ e ∈ lane.splices, e.record ≠ n := by
  refine ⟨fun it hit heq => ?_, endCut_no_entry (fun x hx heq => ?_) fun set hset lane hlane => ?_⟩
  · rcases h.ended_register hit with ⟨hnot, -⟩ | hbody | ⟨r, hr, -, hbody⟩
    · exact hnot (heq ▸ hn)
    · rw [hbody] at heq
      exact hnew heq.symm
    · rw [hbody] at heq
      exact hno r hr heq
  · rcases h.entered_of hx with hbody | ⟨-, r, hr, hbare⟩
    · rw [hbody] at heq
      exact hnew heq.symm
    · rw [← (bare_eq_iff.1 hbare).1] at heq
      exact hno r hr heq
  · rw [windingSet_of_roll (enterRepairSplice_roll h)] at hset
    obtain ⟨set₀, -, rfl⟩ := Option.map_eq_some_iff.1 hset
    obtain ⟨lane₀, -, rfl⟩ := List.mem_map.1 hlane
    have hout (m : Nat) (hm : decide (m ∉ ns) = true) : m ≠ n := fun heq => of_decide_eq_true hm (heq ▸ hn)
    rw [LaneRecord.cutOut_defects, LaneRecord.cutOut_splices]
    exact ⟨fun e he => hout _ (List.mem_filter.1 he).2, fun e he => hout _ (List.mem_filter.1 he).2⟩

theorem ended_set {α : Type} (f : SetRecord → α)
    (hf : ∀ (r : SetRecord) (lanes : List LaneRecord) (n : Nat), f { r with lanes := lanes, unplacedTally := n } = f r) {set : SetRecord}
    (hset : s.roll.windingSet = some set) : (endCut (enterRepairSplice first last v).1).roll.windingSet.map f =
      some (f (s.cutSet popen (a + b) ns (decide (v.queue.records.length < 64)) set)) := by
  rw [endCut_windingSet_map f hf, windingSet_of_roll (enterRepairSplice_roll h), hset]
  rfl

theorem ended_entries (hopen : s.job.state.isCutOpen = true) {x : StopEntry}
    (hx : x ∈ (endCut (enterRepairSplice first last v).1).stops.entries) :
    ∃ e ∈ s.stops.entries, x.SameAs (s.cutStop popen e) := by
  obtain ⟨y, hy, hsame⟩ := (endCut_evaluated _).entries x hx
  rw [cutDelivered_stops, show (enterRepairSplice first last v).1.stops = v.stops by simp] at hy
  obtain ⟨e, he, rfl⟩ := List.mem_map.1 ((shifted_entries s popen).mem_iff.1 ((h.removed.quietly hopen).entries hy))
  exact ⟨e, he, hsame⟩

/-- In motion an entry whose id no record holds is there at the end. -/
theorem ended_keeps_entry (hopen : s.job.state.isCutOpen = true) (hm : s.motion.standstill = false) {e : StopEntry}
    (he : e ∈ s.stops.entries) (hno : ∀ r ∈ s.queue.records, r.stopId ≠ some e.id) :
    ∃ x ∈ (endCut (enterRepairSplice first last v).1).stops.entries, x.id = e.id := by
  have hmem : s.cutStop popen e ∈ v.stops.entries := by
    refine (h.removed.quietly hopen).keeps _ ((shifted_entries s popen).mem_iff.2 (List.mem_map_of_mem he)) fun r hr => ?_
    obtain ⟨r₀, hr₀, rfl⟩ := (mem_shifted_records s popen).1 hr
    rw [cutStop_id]
    exact hno r₀ hr₀
  have hids := (endCut_evaluated (enterRepairSplice first last v).1).entryIds (.inl (by
    rw [cutDelivered_frame, enterRepairSplice_eq h]
    exact hm))
  rw [cutDelivered_stops, show (enterRepairSplice first last v).1.stops = v.stops by simp] at hids
  have hid : e.id ∈ (endCut (enterRepairSplice first last v).1).stops.entries.map (·.id) := by
    rw [hids, ← cutStop_id s popen e]
    exact List.mem_map_of_mem hmem
  exact List.mem_map.1 hid

end SpliceCuts

/-! ## SPLICE-MADE (R108) -/

theorem spliceMadeInRange_iff {top first last : Nat} {named : List Nat} : spliceMadeInRange top first last named = true ↔
    1 ≤ first ∧ first ≤ last ∧ last ≤ top ∧ named.length ≤ 4 ∧ ∀ x ∈ named, 1 ≤ x ∧ x ≤ 65535 := by
  unfold spliceMadeInRange
  simp only [Bool.and_eq_true, decide_eq_true_eq, List.all_eq_true]
  constructor
  · rintro ⟨⟨⟨h1, -, h2, h3⟩, h4⟩, h5⟩
    exact ⟨h1, h2, h3, h4, h5⟩
  · rintro ⟨h1, h2, h3, h4, h5⟩
    exact ⟨⟨⟨h1, h2.trans h3, h2, h3⟩, h4⟩, h5⟩

theorem takeSpliceMade_closed {first last : Nat} {named : List Nat} {s : State} (h : s.job.state.isCutOpen = false) :
    takeSpliceMade first last named s = s.refuse .wrongState := by
  unfold takeSpliceMade
  cases hj : s.job.state with
  | cutOpen popen => rw [hj] at h; exact absurd h.symm Bool.false_ne_true
  | _ => rfl

theorem takeSpliceMade_open {first last popen : Nat} {named : List Nat} {s : State} {set : SetRecord}
    (hj : s.job.state = .cutOpen popen) (hset : s.roll.windingSet = some set) : takeSpliceMade first last named s =
      if spliceMadeInRange set.lanes.length first last named then makeSplice popen first last named s else s.refuse .outOfRange := by
  unfold takeSpliceMade
  rw [hj]
  dsimp only
  rw [hset]
  rfl

/-- With nothing removed and the repair splice ahead of the nip the end of the cut follows from the cut shift alone (R116). -/
theorem ended_follows {popen first last : Nat} {s : State}
    (hq' : (enterRepairSplice first last (s.shifted popen)).1.QueueSound) (hl : s.queue.records.length < 64)
    (hg : s.geometry.s < s.geometry.w) :
    CutEndFollows (s.shifted popen) (endCut (enterRepairSplice first last (s.shifted popen)).1) := by
  have hlength := (shifted_records s popen).length_eq
  rw [List.length_map] at hlength
  rw [enterRepairSplice_room (hlength ▸ hl)] at hq' ⊢
  have hfollows := endCut_follows hq'
  generalize hw : (s.shifted popen).recordJoined _ _ = w at hfollows
  have hheld : w.heldRecords = (s.shifted popen).heldRecords := by
    subst hw
    refine filter_placeRecord (decide_eq_false fun hnip => ?_) _
    have hnip := hnip.2
    change (s.length.p : Int) - s.geometry.s + s.geometry.w ≤ s.length.p at hnip
    omega
  have halike : RollAlike ((windingTest w).deliverAll w.heldRecords)
      ((windingTest (s.shifted popen)).deliverAll (s.shifted popen).heldRecords) := by
    rw [hheld]
    subst hw
    exact ((RollAlike.mk (u := State.recordJoined _ _ (s.shifted popen)) (v := s.shifted popen) rfl rfl rfl rfl).windingTest
      rfl).deliverAll _
  obtain ⟨hroll, hposts, hdelivered, hunmapped⟩ := hfollows
  rw [hheld] at hdelivered hunmapped
  subst hw
  exact ⟨hroll.trans halike.roll.symm, fun k hk => (hposts k hk).trans (State.PendsAs.of_alerts halike.alerts.symm k),
    hdelivered, hunmapped⟩

/-- Settles O29: the shift, the removals and the repair splice by their description, then the end of the cut. -/
theorem spliceMadeEndsTheCut : Obligations.SpliceMadeEndsTheCut := by
  intro p first last named s ht
  refine ⟨fun hclosed => exec_eq_replied rfl rfl ht (takeSpliceMade_closed hclosed), fun popen set hj hset => ?_⟩
  intro ok
  refine ⟨fun hno => exec_eq_replied rfl rfl ht ((takeSpliceMade_open hj hset).trans
    (if_neg fun h => hno (spliceMadeInRange_iff.1 h))), ?_⟩
  intro cut shifted pulled hok
  obtain ⟨v, a, b, js₁, ns₁, js, ns, h, hmatches, hone, hmake⟩ := makeSplice_cuts popen first last named s
  have hexec := exec_eq_replied (i := .spliceMade p first last named) rfl rfl ht
    (((takeSpliceMade_open hj hset).trans (if_pos (spliceMadeInRange_iff.2 hok))).trans hmake)
  have hopen : s.job.state.isCutOpen = true := by rw [hj]; rfl
  have heq := enterRepairSplice_eq (first := first) (last := last) h
  have hqueue := endCut_queue (enterRepairSplice first last v).1
  have hframe := endCut_eq_with (enterRepairSplice first last v).1
  refine ⟨_, a, b, (enterRepairSplice first last v).2, hexec, ?_, h.le, ?_, ?_, ?_, ?_, ?_, ?_, ?_, ?_, ?_, ?_, ?_, ?_, ?_, ?_,
    ?_, ?_, ?_, ?_, ?_, ?_, ?_, ?_, ?_⟩
  · refine State.replied_port ?_ p _ _ _
    rw [hframe, heq]
  · change (endCut (enterRepairSplice first last v).1).job = _
    rw [endCut_job, heq]
  · exact h.ended_set (·.start) (fun _ _ _ => rfl) hset
  · change (endCut (enterRepairSplice first last v).1).roll.closeList = _
    rw [(endCut_roll _).1, enterRepairSplice_roll h]
    rfl
  · change (endCut (enterRepairSplice first last v).1).roll.mapsLost = _
    rw [(endCut_roll _).2, enterRepairSplice_roll h]
    rfl
  · change (endCut (enterRepairSplice first last v).1).queue.highMark = _
    rw [hqueue]
    exact h.entered_queue.1
  · exact fun r hr => (h.ended_of hr).1
  · intro hq r hr
    have hw := h.entered_sound (first := first) (last := last) hmatches hj hq
    have hgone {x : PathRecord} (hj : r.joined ∈ js)
        (hx : x ∈ (endCut (enterRepairSplice first last v).1).queue.records) : x.joined ≠ r.joined :=
      h.ended_joined hq hx hr hj
    refine ⟨fun hx hp hahead => ?_, fun hp x hx => ?_, fun hx hone x hx' => ?_⟩
    · have hkept : r.joined ∉ js := fun hj => by
        obtain ⟨r', hr', hj', hcut⟩ := h.joined_cut hj
        rw [List.inj_on_of_nodup_map hq.2.2.1 hr' hr hj'] at hcut
        change (decide (r.body.number ∈ named) || pulled r.body.web) = true at hcut
        rw [hp, decide_eq_false hx] at hcut
        exact Bool.false_ne_true hcut
      obtain ⟨x, hx, hbare⟩ := h.ended_keeps hw hr hkept hahead
      obtain ⟨hbody, hslit, hjoined⟩ := bare_eq_iff.1 hbare
      exact ⟨x, hx, hjoined, hslit, hbody⟩
    · exact hgone (h.pulled_removed hr hp) hx
    · exact hgone (h.through.joined_grow (h.named_removed hr hx hone)) hx'
  · intro x hx
    rcases (h.ended_of hx).2 with hbody | ⟨-, r, hr, hbare⟩
    · exact .inr (by rw [hbody]; rfl)
    · exact .inl ⟨r, hr, (bare_eq_iff.1 hbare).2.2.symm⟩
  · intro hq hst hd
    refine ⟨(enterRepairSplice first last v).1.cutOver, afterCut h hmatches hq hst hd hj hset, rfl, ?_, ?_, ?_⟩
    · exact endCut_stops _
    · exact SpliceCuts.named_eq hd hset h hq.2.2.1
    · exact SpliceCuts.pulled_eq hd hset h hq.2.2.1
  · intro hq hnumbers
    change (endCut (enterRepairSplice first last v).1).queue.flow.removed % 4294967296 = _
    have hremoved := h.queue.2
    rw [h.joined_length hq.2.2.1 (.inl hnumbers)] at hremoved
    rw [hqueue]
    exact (congrArg (· % 4294967296) h.entered_queue.2).trans hremoved
  · rintro rfl
    exact h.unnamed.1
  · intro x hx
    have ha := hone x hx
    rw [← State.unwoundItem_iff hset, ha]
    split
    next hcond => exact ⟨le_rfl, iff_of_true rfl hcond⟩
    next hcond => exact ⟨Nat.zero_le 1, iff_of_false nofun hcond⟩
  · rintro hq rfl
    exact h.unnamed_pulled hset hq.2.2.1
  · intro it hit hcut hun hno hnew
    exact h.ended_gone (h.item_removed hit hcut ((s.unwoundItem_iff hset).2 ⟨⟨it, hit, rfl⟩, hun⟩) hno) hno hnew
  · refine EntriesTested.mono (t := endCut (enterRepairSplice first last v).1) (endCut_entriesTested _) fun n hn => ?_
    obtain ⟨x, hx, rfl⟩ := List.mem_map.1 hn
    rcases h.entered_of hx with hbody | ⟨-, r, hr, hbare⟩
    · exact List.mem_cons.2 (.inl (by rw [hbody]; rfl))
    · refine List.mem_cons_of_mem _ (List.mem_map.2 ⟨r, hr, ?_⟩)
      rw [← (bare_eq_iff.1 hbare).1]
      rfl
  · intro it hit
    rcases h.ended_register hit with ⟨-, it₀, hit₀, heq⟩ | hbody | hrecord
    · exact .inr (.inl ⟨it₀, hit₀, heq.symm⟩)
    · exact .inl (by rw [hbody]; rfl)
    · exact .inr (.inr hrecord)
  · rintro hq rfl hrecords hitems hl hg
    obtain ⟨rfl, rfl⟩ := h.nothing hset hrecords hitems
    have hv := h.removed.eq_of_nothing
    have hw := h.entered_sound (first := first) (last := last) hmatches hj hq
    subst hv
    exact ended_follows hw hl hg
  · intro htop set' hset'
    have hmap := h.ended_set (first := first) (last := last) (·.removedTally) (fun _ _ _ => rfl) hset
    rw [show (endCut (enterRepairSplice first last v).1).roll.windingSet = some set' from hset', Option.map_some] at hmap
    rw [Option.some.inj hmap]
    change tallied set.removedTally (a + b) = _
    unfold tallied
    split <;> omega
  · intro hl
    have hv : v.queue.records.length < 64 := h.length_le.trans_lt hl
    have hnext : v.queue.nextNumber = s.queue.nextNumber := by rw [h.queue.1]
    have htaken : v.queue.flow.taken = s.queue.flow.taken := by rw [h.queue.1]
    refine ⟨fun hfree => ?_, ?_, ?_, fun hq hg => ?_⟩
    · rw [enterRepairSplice_room hv]
      refine (freshNumber_of_free ?_).trans hnext
      rw [hnext]
      exact fun hmem => hfree (h.used_subset hmem)
    · change (endCut (enterRepairSplice first last v).1).queue.nextNumber = _
      rw [hqueue, enterRepairSplice_room hv]
      rfl
    · change (endCut (enterRepairSplice first last v).1).queue.flow.taken = _
      rw [hqueue, enterRepairSplice_room hv, ← htaken]
      rfl
    · exact h.ended_repair (h.entered_sound hmatches hj hq) hv hg
  · rintro hl rfl hrecords
    have hjs : js = [] := List.eq_nil_iff_forall_not_mem.2 fun j hj => by
      obtain ⟨r, hr, -, hcut⟩ := h.joined_cut hj
      change (decide (r.body.number ∈ ([] : List Nat)) || pulled r.body.web) = true at hcut
      rw [hrecords r hr] at hcut
      simp at hcut
    have hv : 64 ≤ v.queue.records.length := by
      have hlength := congrArg List.length h.removed.records
      have hshift := (shifted_records s popen).length_eq
      simp only [hjs, List.not_mem_nil, not_false_eq_true, decide_true, List.filter_true, List.length_map] at hlength hshift
      omega
    have htaken : v.queue.flow.taken = s.queue.flow.taken := by rw [h.queue.1]
    refine ⟨by rw [enterRepairSplice_full hv], ?_, fun set' hset' => ?_, fun hs => ?_⟩
    · change (endCut (enterRepairSplice first last v).1).queue.flow.taken = _
      rw [hqueue, enterRepairSplice_full hv]
      exact htaken
    · have hmap := h.ended_set (first := first) (last := last) (·.mapIncomplete) (fun _ _ _ => rfl) hset
      rw [show (endCut (enterRepairSplice first last v).1).roll.windingSet = some set' from hset', Option.map_some] at hmap
      rw [Option.some.inj hmap, decide_eq_false (not_lt.2 hv)]
      exact Bool.or_true _
    · refine (endCut_pendsAs (k := .queueFull) (by decide) nofun nofun _).trans (State.PendsAs.of_alerts ?_ _)
      rw [enterRepairSplice_full hv]
      exact congrArg (fun x : ByPort Station => x.map (Station.post .queueFull)) (h.removed.quietly hopen).alerts
  · intro x hx
    obtain ⟨e, he, hid, -, -, -, hweb, -, htarget, hins⟩ := h.ended_entries hopen hx
    rw [cutStop_id] at hid
    rw [cutStop_insertion] at hins
    refine ⟨e, he, hid, hins, hweb.trans ?_, htarget.trans ?_⟩
    · unfold State.cutStop
      split <;> rfl
    · unfold State.cutStop
      split <;> rfl
  · exact fun hm e he hno => h.ended_keeps_entry hopen hm he hno
  · rw [hframe, heq]
    exact ⟨rfl, rfl, rfl, rfl, rfl, rfl, rfl, rfl, rfl, rfl, fun q hq => State.replied_port_other rfl hq _ _ _⟩

end Sys2Proof.Machine
end

