-- ==== Sys2Proof/Proofs/CountsOfEncoders.lean ====
section
/-! PROOFS. A count of an encoder up to the change of P (R4, R10 to R13, R16 to R21). -/

namespace Sys2Proof.Machine

/-! ## The length counter at a count -/

/-- An encoder that has been heard: ALIVE, with silence distance 0 (R16, R19). -/
def Measure.alive (m : Measure) : Measure := { m with silent := false, silence := 0 }

theorem Measure.forward_alive (m : Measure) : m.alive.forward = (m.forward.1.alive, m.forward.2) := by
  have hn : m.alive.numerator = m.numerator := rfl
  have hd : m.alive.divisor = m.divisor := rfl
  unfold Measure.forward
  rw [hn, hd]
  simp only [Measure.alive]

theorem Measure.reverse_alive (m : Measure) : m.alive.reverse = (m.reverse.1.alive, m.reverse.2) := by
  have hn : m.alive.numerator = m.numerator := rfl
  have hd : m.alive.divisor = m.divisor := rfl
  rcases le_or_gt m.numerator m.remainder with h | h
  · rw [Measure.reverse_of_le (m := m.alive) h, Measure.reverse_of_le h, hn]
    simp only [Measure.alive]
  · rcases le_or_gt (ceilDiv (m.numerator - m.remainder) m.divisor) m.position with hu | hu
    · rw [Measure.reverse_of_units (m := m.alive) h hu, Measure.reverse_of_units h hu, hn, hd]
      simp only [Measure.alive]
    · rw [Measure.reverse_of_hold (m := m.alive) h hu, Measure.reverse_of_hold h hu]
      simp only [Measure.alive]

/-- A count does not look at silence (R11). -/
theorem Measure.step_alive (m : Measure) (d : Direction) : m.alive.step d = ((m.step d).1.alive, (m.step d).2) := by
  cases d with
  | forward => exact m.forward_alive
  | reverse => exact m.reverse_alive

/-- The units of a count (R11). -/
def State.countUnits (s : State) (e : Encoder) (d : Direction) : Nat := ((s.length.measure e).step d).2

theorem LengthCounter.heard_eq (c : LengthCounter) (e : Encoder) : c.heard e = { (c.setMeasure e (c.measure e).alive) with
    span := if (c.measure e).silent then
        (if c.active = .a ∧ (c.measure (otherEncoder e)).silent = false then
          some { pa0 := c.a.position, pb0 := c.b.position } else none)
      else c.span } := by
  have hruns : (c.setMeasure e (c.measure e).alive).slipRuns =
      decide (c.active = .a ∧ (c.measure (otherEncoder e)).silent = false) := by
    have hboth (x : Bool) : (decide (c.active = .a) && !x) = decide (c.active = .a ∧ x = false) := by cases x <;> simp
    cases e with
    | a => exact (congrArg (· && !c.b.silent) (Bool.and_true _)).trans (hboth _)
    | b => exact (Bool.and_true _).trans (hboth _)
  unfold LengthCounter.heard
  dsimp only
  split
  · change (c.setMeasure e (c.measure e).alive).openSpan = _
    rw [LengthCounter.openSpan, hruns]
    simp only [decide_eq_true_eq]
    cases e <;> rfl
  · cases e <;> rfl

/-- An encoder moved with the units of a count (R11, R13, R16). -/
def LengthCounter.movedBy (c : LengthCounter) (e : Encoder) (r : Measure × Nat) (d : Direction) : LengthCounter :=
  LengthCounter.raiseSilence
    { (c.setMeasure e r.1) with p := if c.active = e then movedPosition c.p r.2 d else c.p } (otherEncoder e) r.2

/-- What a count's own part makes of the length counter (R11, R13, R16, R20). -/
theorem counted_length (s : State) (e : Encoder) (d : Direction) : s.length.counted e d =
    { ((s.length.setMeasure e ((s.length.measure e).step d).1.alive).setMeasure (otherEncoder e)
        { s.length.measure (otherEncoder e) with silence := (s.length.measure (otherEncoder e)).silence + s.countUnits e d }) with
      p := if s.length.active = e then movedPosition s.length.p (s.countUnits e d) d else s.length.p
      span := s.spanAtCount e } := by
  have hspan : s.spanAtCount e = if (s.length.measure e).silent then
        (if s.length.active = .a ∧ (s.length.measure (otherEncoder e)).silent = false then
          some { pa0 := s.length.a.position, pb0 := s.length.b.position } else none)
      else s.length.span := rfl
  have hmeasure : (s.length.heard e).measure e = (s.length.measure e).alive := by
    rw [LengthCounter.heard_eq]
    cases e <;> rfl
  change (s.length.heard e).movedBy e (((s.length.heard e).measure e).step d) d = _
  rw [hmeasure, Measure.step_alive, LengthCounter.heard_eq, ← hspan]
  cases e <;> rfl

/-- The other encoder falls silent at the count (R16). -/
theorem counted_fallsSilent (s : State) (e : Encoder) (d : Direction) :
    (s.length.counted e d).fallsSilent (otherEncoder e) (s.countUnits e d) s.motion.settings.silence =
      decide (s.fallsSilentAt e (s.countUnits e d)) := by
  have hmeasure : (s.length.counted e d).measure (otherEncoder e) = { s.length.measure (otherEncoder e) with
      silence := (s.length.measure (otherEncoder e)).silence + s.countUnits e d } := by
    rw [counted_length]
    cases e <;> rfl
  rw [LengthCounter.fallsSilent, hmeasure, Bool.eq_iff_iff]
  simp only [Bool.and_eq_true, decide_eq_true_eq, Bool.not_eq_true', and_assoc]

/-- The events of holds met at the top (R12). -/
def State.limitPosts (s : State) (e : Encoder) (d : Direction) : List EventKind :=
  (if reachedTop (s.length.measure e).position ((s.length.measure e).step d).1.position then [.positionLimit] else []) ++
  (if reachedTop s.length.p (s.length.counted e d).p then [.positionLimit] else [])

/-- The event of an encoder that falls silent (R17, R18). -/
def silentKind : Encoder → EventKind
  | .a => .encoderASilent
  | .b => .encoderBSilent

/-- The event where the other encoder falls silent at a count (R17, R18). -/
def State.silencePosts (s : State) (e : Encoder) (d : Direction) : List EventKind :=
  if s.fallsSilentAt e (s.countUnits e d) then [silentKind (otherEncoder e)] else []

/-- The part after the units of a count, before silence and slip. -/
def State.moved (s : State) (e : Encoder) (d : Direction) : State :=
  { s with length := s.length.counted e d, alerts := (s.postAll (s.limitPosts e d)).alerts }

theorem postIf_postAll (c : Bool) (k : EventKind) (s : State) : s.postIf c k = s.postAll (if c then [k] else []) := by
  cases c <;> rfl

theorem counted_eq (e : Encoder) (d : Direction) (s : State) : counted e d s = slipAtCount e d
    (if s.fallsSilentAt e (s.countUnits e d) then silenceOf (otherEncoder e) (s.moved e d) else s.moved e d) := by
  have hmeasure : (s.length.heard e).measure e = (s.length.measure e).alive := by
    rw [LengthCounter.heard_eq]
    cases e <;> rfl
  have hmoved : ((s.withLength (s.length.counted e d)).postIf (reachedTop (s.length.measure e).position
      ((s.length.measure e).step d).1.position) .positionLimit).postIf (reachedTop s.length.p (s.length.counted e d).p) .positionLimit =
      s.moved e d := by
    rw [postIf_postAll, postIf_postAll, ← State.postAll_append]
    rw [State.postAll_eq]
    have halerts := State.postAll_alerts_congr (s := s.withLength (s.length.counted e d)) (t := s) rfl (s.limitPosts e d)
    exact congrArg (fun a : ByPort Station => { s with length := s.length.counted e d, alerts := a }) halerts
  unfold counted
  dsimp only
  rw [hmeasure, Measure.step_alive]
  change slipAtCount e d (if (s.length.counted e d).fallsSilent (otherEncoder e) (s.countUnits e d) s.motion.settings.silence = true
    then silenceOf (otherEncoder e) (((s.withLength (s.length.counted e d)).postIf (reachedTop (s.length.measure e).position
      ((s.length.measure e).step d).1.position) .positionLimit).postIf (reachedTop s.length.p (s.length.counted e d).p) .positionLimit)
    else ((s.withLength (s.length.counted e d)).postIf (reachedTop (s.length.measure e).position
      ((s.length.measure e).step d).1.position) .positionLimit).postIf (reachedTop s.length.p (s.length.counted e d).p) .positionLimit) = _
  rw [counted_fallsSilent, hmoved]
  simp only [decide_eq_true_eq]

/-! ## Silence (R16 to R19) -/

/-- The part after a count's units and the silence of the other encoder, before the slip check. -/
def State.silenced (s : State) (e : Encoder) (d : Direction) : State :=
  if s.fallsSilentAt e (s.countUnits e d) then silenceOf (otherEncoder e) (s.moved e d) else s.moved e d

theorem counted_eq_slip (e : Encoder) (d : Direction) (s : State) : counted e d s = slipAtCount e d (s.silenced e d) :=
  counted_eq e d s

theorem silenceA_eq (u : State) : silenceA u = { u with
    length := { u.length with a := { u.length.a with silent := true }, active := .b, span := none }
    roll := if u.length.active = .a then u.roll.mapWinding (fun r => { r with lengthFallback := true }) else u.roll
    alerts := (u.post .encoderASilent).alerts } := by
  unfold silenceA
  dsimp only
  split <;> rfl

theorem silenced_of_not {s : State} {e : Encoder} {d : Direction} (h : ¬ s.fallsSilentAt e (s.countUnits e d)) :
    s.silenced e d = s.moved e d := if_neg h

theorem silenced_of_falls {s : State} {e : Encoder} {d : Direction} (h : s.fallsSilentAt e (s.countUnits e d)) :
    s.silenced e d = silenceOf (otherEncoder e) (s.moved e d) := if_pos h

section Silence
variable (s : State) (e : Encoder) (d : Direction)

theorem silenced_eq : s.silenced e d = { s with
    length := (s.silenced e d).length, roll := (s.silenced e d).roll, alerts := (s.silenced e d).alerts } := by
  by_cases h : s.fallsSilentAt e (s.countUnits e d)
  · rw [silenced_of_falls h]
    cases e with
    | a => rfl
    | b =>
      change silenceA (s.moved .b d) = { s with length := (silenceA _).length, roll := (silenceA _).roll, alerts := (silenceA _).alerts }
      rw [silenceA_eq]
      rfl
  · rw [silenced_of_not h]
    rfl

theorem silenced_alerts : (s.silenced e d).alerts = (s.postAll (s.limitPosts e d ++ s.silencePosts e d)).alerts := by
  rw [State.postAll_append]
  by_cases h : s.fallsSilentAt e (s.countUnits e d)
  · rw [silenced_of_falls h, State.silencePosts, if_pos h]
    cases e with
    | a => rfl
    | b =>
      change (silenceA (s.moved .b d)).alerts = _
      rw [silenceA_eq]
      rfl
  · rw [silenced_of_not h, State.silencePosts, if_neg h]
    rfl

theorem silenced_length : (s.silenced e d).length = { ((s.length.counted e d).setMeasure (otherEncoder e)
    { (s.length.counted e d).measure (otherEncoder e) with
      silent := (s.length.measure (otherEncoder e)).silent || decide (s.fallsSilentAt e (s.countUnits e d)) }) with
    active := if s.fallsSilentAt e (s.countUnits e d) ∧ e = .b then .b else s.length.active
    span := if s.fallsSilentAt e (s.countUnits e d) then none else s.spanAtCount e } := by
  by_cases h : s.fallsSilentAt e (s.countUnits e d)
  · rw [silenced_of_falls h, decide_eq_true h, Bool.or_true, if_pos h]
    cases e with
    | a =>
      rw [if_neg fun h' => nomatch h'.2]
      change (silenceB (s.moved .a d)).length = _
      rw [silenceB_length, ← LengthCounter.counted_active s.length .a d]
      rfl
    | b =>
      rw [if_pos ⟨h, rfl⟩]
      change (silenceA (s.moved .b d)).length = _
      rw [silenceA_length]
      rfl
  · rw [silenced_of_not h, decide_eq_false h, Bool.or_false, if_neg h, if_neg fun h' => h h'.1]
    change s.length.counted e d = _
    rw [counted_length]
    cases e <;> rfl

theorem silenced_roll : (s.silenced e d).roll =
    if e = .b ∧ s.length.active = .a ∧ s.fallsSilentAt e (s.countUnits e d) then
      s.roll.mapWinding (fun r => { r with lengthFallback := true }) else s.roll := by
  by_cases h : s.fallsSilentAt e (s.countUnits e d)
  · rw [silenced_of_falls h]
    cases e with
    | a => rw [if_neg fun h' => nomatch h'.1]; rfl
    | b =>
      change (silenceA (s.moved .b d)).roll = _
      rw [silenceA_eq]
      refine if_congr ?_ rfl rfl
      change (s.length.counted .b d).active = .a ↔ _
      rw [LengthCounter.counted_active]
      exact ⟨fun ha => ⟨rfl, ha, h⟩, fun ha => ha.2.1⟩
  · rw [silenced_of_not h, if_neg fun h' => h h'.2.2]
    rfl

end Silence

/-! ## The slip check (R20, R21) -/

theorem slipCheck_of_none {u : State} (h : u.length.span = none) : slipCheck u = u := by
  unfold slipCheck
  dsimp only
  rw [h]

section Span
variable {u : State} {span : SlipSpan} (h : u.length.span = some span)
include h

theorem slipCheck_short (hc : (u.length.a.position : Int) - span.pa0 < u.motion.settings.check) : slipCheck u = u := by
  unfold slipCheck
  dsimp only
  rw [h]
  exact if_neg (not_le.2 hc)

/-- A span that has run its length ends with its deviation (R21). -/
theorem slipCheck_ends (hc : (u.motion.settings.check : Int) ≤ (u.length.a.position : Int) - span.pa0)
    {dev : Int} (hdev : dev = ppmHeld (u.length.a.position - span.pa0) (u.length.b.position - span.pb0)) :
    slipCheck u = { u with
      length := { u.length with
        lastDeviation := dev
        slipCount := if u.motion.settings.slip < dev.natAbs then min (u.length.slipCount + 1) 65535 else u.length.slipCount
        span := if u.length.slipRuns then some { pa0 := u.length.a.position, pb0 := u.length.b.position } else none }
      alerts := (u.postAll (if u.motion.settings.slip < dev.natAbs then [.slip] else [])).alerts } := by
  unfold slipCheck
  dsimp only
  rw [h]
  refine (if_pos hc).trans ?_
  have hdev' : deviation ((u.length.a.position : Int) - span.pa0) ((u.length.b.position : Int) - span.pb0) = dev := hdev.symm
  rw [hdev', postIf_postAll, State.postAll_eq]
  by_cases hs : u.motion.settings.slip < dev.natAbs
  · simp only [hs, decide_true, if_true]
    rfl
  · simp only [hs, decide_false, if_false, Bool.false_eq_true]
    rfl

end Span

/-- The events of the slip check at a count (R21). -/
theorem slipAtCount_posts (e : Encoder) (d : Direction) (u : State) :
    (slipAtCount e d u).alerts = u.alerts ∨ (slipAtCount e d u).alerts = (u.post .slip).alerts := by
  cases e with
  | b => exact .inl rfl
  | a =>
    cases d with
    | reverse => exact .inl rfl
    | forward =>
      change (slipCheck u).alerts = _ ∨ (slipCheck u).alerts = _
      cases hspan : u.length.span with
      | none => exact .inl (by rw [slipCheck_of_none hspan])
      | some span =>
        rcases lt_or_ge ((u.length.a.position : Int) - span.pa0) u.motion.settings.check with hc | hc
        · exact .inl (by rw [slipCheck_short hspan hc])
        · rw [slipCheck_ends hspan hc rfl]
          dsimp only
          split
          · exact .inr rfl
          · exact .inl rfl

theorem slipAtCount_eq (e : Encoder) (d : Direction) (u : State) :
    slipAtCount e d u = { u with length := (slipAtCount e d u).length, alerts := (slipAtCount e d u).alerts } := by
  cases e with
  | b => rfl
  | a =>
    cases d with
    | reverse => rfl
    | forward =>
      change slipCheck u = { u with length := (slipCheck u).length, alerts := (slipCheck u).alerts }
      cases hspan : u.length.span with
      | none => rw [slipCheck_of_none hspan]
      | some span =>
        rcases lt_or_ge ((u.length.a.position : Int) - span.pa0) u.motion.settings.check with hc | hc
        · rw [slipCheck_short hspan hc]
        · rw [slipCheck_ends hspan hc rfl]

/-! ## The count's own part -/

section Own
variable (s : State) (e : Encoder) (d : Direction)

theorem counted_with : counted e d s = { s with
    length := (counted e d s).length, roll := (counted e d s).roll, alerts := (counted e d s).alerts } := by
  rw [counted_eq_slip, slipAtCount_eq, silenced_eq]

theorem counted_roll : (counted e d s).roll = if e = .b ∧ s.length.active = .a ∧ s.fallsSilentAt e (s.countUnits e d) then
    s.roll.mapWinding (fun r => { r with lengthFallback := true }) else s.roll := by
  rw [counted_eq_slip, slipAtCount_eq, ← silenced_roll]

/-- The events of a count before P changes. -/
theorem counted_posts : ∃ ks : List EventKind, (ks = [] ∨ ks = [.slip]) ∧
    (counted e d s).alerts = (s.postAll (s.limitPosts e d ++ s.silencePosts e d ++ ks)).alerts := by
  have hsilenced := silenced_alerts s e d
  rw [counted_eq_slip]
  rcases slipAtCount_posts e d (s.silenced e d) with h | h
  · exact ⟨[], .inl rfl, by rw [h, hsilenced, List.append_nil]⟩
  · refine ⟨[.slip], .inr rfl, ?_⟩
    rw [h, State.postAll_append _ [EventKind.slip]]
    exact congrArg (fun a : ByPort Station => a.map (Station.post .slip)) hsilenced

theorem counted_measure_self : (counted e d s).length.measure e = ((s.length.measure e).step d).1.alive := by
  rw [counted_eq_slip, slipAtCount_length, silenced_length, counted_length]
  cases e <;> rfl

theorem counted_measure_other : (counted e d s).length.measure (otherEncoder e) = { s.length.measure (otherEncoder e) with
    silence := (s.length.measure (otherEncoder e)).silence + s.countUnits e d
    silent := (s.length.measure (otherEncoder e)).silent || decide (s.fallsSilentAt e (s.countUnits e d)) } := by
  rw [counted_eq_slip, slipAtCount_length, silenced_length, counted_length]
  cases e <;> rfl

theorem counted_p_eq : (counted e d s).length.p = (s.length.counted e d).p := by
  rw [counted_eq_slip, slipAtCount_length, silenced_length]
  cases e <;> rfl

theorem counted_p : (counted e d s).length.p =
    if s.length.active = e then movedPosition s.length.p (s.countUnits e d) d else s.length.p := by
  rw [counted_p_eq, counted_length]

theorem counted_active : (counted e d s).length.active =
    if s.fallsSilentAt e (s.countUnits e d) ∧ e = .b then .b else s.length.active := by
  rw [counted_eq_slip, slipAtCount_length, silenced_length]

end Own

end Sys2Proof.Machine
end

