-- ==== Sys2Proof/Proofs/CountFigures.lean ====
section
/-! PROOFS. What a count of an encoder follows before P changes: the figures of the encoder, silence, slip and the holds at the top
(R10 to R13, R16 to R21). -/

namespace Sys2Proof.Machine

/-! ## The units of a count (R11, R12) -/

theorem Measure.step_forward (m : Measure) :
    (m.step .forward).1.position = min (m.position + (m.remainder + m.numerator) / m.divisor) 4294967295 ∧
      (m.step .forward).1.remainder = (m.remainder + m.numerator) % m.divisor := ⟨rfl, rfl⟩

theorem Measure.step_reverse_within {m : Measure} (h : m.numerator ≤ m.remainder) :
    (m.step .reverse).1.position = m.position ∧ (m.step .reverse).1.remainder = m.remainder - m.numerator := by
  change m.reverse.1.position = _ ∧ m.reverse.1.remainder = _
  rw [Measure.reverse_of_le h]
  exact ⟨rfl, rfl⟩

theorem Measure.step_reverse_units {m : Measure} (h : m.remainder < m.numerator)
    (hu : (m.numerator - m.remainder + m.divisor - 1) / m.divisor ≤ m.position) :
    (m.step .reverse).1.position = m.position - (m.numerator - m.remainder + m.divisor - 1) / m.divisor ∧
      (m.step .reverse).1.remainder =
        m.remainder + (m.numerator - m.remainder + m.divisor - 1) / m.divisor * m.divisor - m.numerator := by
  change m.reverse.1.position = _ ∧ m.reverse.1.remainder = _
  rw [Measure.reverse_of_units h hu]
  exact ⟨rfl, rfl⟩

theorem Measure.step_reverse_hold {m : Measure} (h : m.remainder < m.numerator)
    (hu : m.position < (m.numerator - m.remainder + m.divisor - 1) / m.divisor) :
    (m.step .reverse).1.position = 0 ∧ (m.step .reverse).1.remainder = 0 := by
  change m.reverse.1.position = _ ∧ m.reverse.1.remainder = _
  rw [Measure.reverse_of_hold h hu]
  exact ⟨rfl, rfl⟩

/-- The units are what the position rises or falls by (R11). -/
theorem Measure.units_eq {m : Measure} (h : m.position ≤ topOfPosition) (d : Direction) :
    (m.step d).2 = (m.step d).1.position - m.position + (m.position - (m.step d).1.position) ∧
      (d = .forward → m.position ≤ (m.step d).1.position) ∧ (d = .reverse → (m.step d).1.position ≤ m.position) := by
  cases d with
  | forward =>
    obtain ⟨x, hx⟩ : ∃ x, x = (m.step .forward).1.position := ⟨_, rfl⟩
    have hunits : (m.step .forward).2 = (m.step .forward).1.position - m.position := rfl
    have hge : m.position ≤ (m.step .forward).1.position := le_min (Nat.le_add_right _ _) h
    rw [hunits, ← hx]
    rw [← hx] at hge
    exact ⟨by omega, fun _ => hge, nofun⟩
  | reverse =>
    change m.reverse.2 = m.reverse.1.position - m.position + (m.position - m.reverse.1.position) ∧ _ ∧
      (_ → m.reverse.1.position ≤ m.position)
    rcases le_or_gt m.numerator m.remainder with hn | hn
    · rw [Measure.reverse_of_le hn]
      exact ⟨by simp, nofun, fun _ => le_rfl⟩
    · rcases le_or_gt (ceilDiv (m.numerator - m.remainder) m.divisor) m.position with hu | hu
      · rw [Measure.reverse_of_units hn hu]
        generalize ceilDiv (m.numerator - m.remainder) m.divisor = k at hu
        exact ⟨by dsimp only; omega, nofun, fun _ => Nat.sub_le _ _⟩
      · rw [Measure.reverse_of_hold hn hu]
        exact ⟨by simp, nofun, fun _ => Nat.zero_le _⟩

/-! ## The direction of an edge (R4) -/

/-- The direction of an accepted edge. -/
def edgeDirection (x : EncoderInput) : Phase → Direction
  | .one => if x.level1 = x.level2 then .forward else .reverse
  | .two => if x.level1 = x.level2 then .reverse else .forward

theorem edgeDirection_forward_iff (x : EncoderInput) (ph : Phase) : edgeDirection x ph = .forward ↔
    (ph = .one ∧ x.level1 = x.level2) ∨ (ph = .two ∧ x.level1 ≠ x.level2) := by
  cases ph <;> unfold edgeDirection <;> by_cases h : x.level1 = x.level2 <;> simp [h]

theorem stepDirection_edge (x : EncoderInput) (ph : Phase) :
    stepDirection (x.level1, x.level2) ((x.edge ph).level1, (x.edge ph).level2) = some (edgeDirection x ph) := by
  unfold edgeDirection EncoderInput.edge
  cases ph <;> cases h1 : x.level1 <;> cases h2 : x.level2 <;> rfl

/-- The inputs after an accepted edge. -/
def Inputs.edged (i : Inputs) (e : Encoder) (ph : Phase) : Inputs := i.accept e ((i.encoder e).edge ph)

theorem acceptEdge_eq (e : Encoder) (ph : Phase) (s : State) :
    acceptEdge e ph s = applyCount e (edgeDirection (s.inputs.encoder e) ph) (s.withInputs (s.inputs.edged e ph)) := by
  unfold acceptEdge
  dsimp only
  rw [stepDirection_edge]
  rfl

theorem edged_levels (i : Inputs) (e : Encoder) (ph : Phase) :
    ((i.edged e ph).encoder e).level1 = (if ph = .one then !(i.encoder e).level1 else (i.encoder e).level1) ∧
      ((i.edged e ph).encoder e).level2 = (if ph = .two then !(i.encoder e).level2 else (i.encoder e).level2) := by
  cases e <;> cases ph <;> exact ⟨rfl, rfl⟩

/-! ## A count does not look at the inputs -/

theorem silenced_withInputs (s : State) (e : Encoder) (d : Direction) (i : Inputs) :
    (s.withInputs i).silenced e d = (s.silenced e d).withInputs i := by
  have hmoved : (s.withInputs i).moved e d = (s.moved e d).withInputs i := by
    have halerts := State.postAll_alerts_congr (s := s.withInputs i) (t := s) rfl (s.limitPosts e d)
    exact congrArg (fun a : ByPort Station => { s with inputs := i, length := s.length.counted e d, alerts := a }) halerts
  by_cases h : s.fallsSilentAt e (s.countUnits e d)
  · have h' : (s.withInputs i).fallsSilentAt e ((s.withInputs i).countUnits e d) := h
    rw [silenced_of_falls h, silenced_of_falls h', hmoved]
    cases e with
    | a => rfl
    | b =>
      change silenceA _ = (silenceA _).withInputs i
      rw [silenceA_eq, silenceA_eq]
      rfl
  · have h' : ¬ (s.withInputs i).fallsSilentAt e ((s.withInputs i).countUnits e d) := h
    rw [silenced_of_not h, silenced_of_not h', hmoved]

theorem counted_withInputs (s : State) (e : Encoder) (d : Direction) (i : Inputs) :
    counted e d (s.withInputs i) = (counted e d s).withInputs i := by
  rw [counted_eq_slip, counted_eq_slip, silenced_withInputs]
  generalize s.silenced e d = u
  cases e with
  | b => rfl
  | a =>
    cases d with
    | reverse => rfl
    | forward =>
      change slipCheck _ = (slipCheck u).withInputs i
      cases hspan : u.length.span with
      | none => rw [slipCheck_of_none hspan, slipCheck_of_none (u := u.withInputs i) hspan]
      | some span =>
        rcases lt_or_ge ((u.length.a.position : Int) - span.pa0) u.motion.settings.check with hc | hc
        · rw [slipCheck_short hspan hc, slipCheck_short (u := u.withInputs i) hspan hc]
        · rw [slipCheck_ends hspan hc rfl, slipCheck_ends (u := u.withInputs i) hspan hc rfl]
          have halerts (ks : List EventKind) := State.postAll_alerts_congr (s := u.withInputs i) (t := u) rfl ks
          change { u with inputs := i, length := _, alerts := ((u.withInputs i).postAll _).alerts } = _
          rw [halerts]
          rfl

/-! ## Holds, silence and slip -/

/-- The kinds that a count posts before P changes. -/
def countKinds : List EventKind := [.positionLimit, .encoderASilent, .encoderBSilent, .slip]

theorem countUnits_eq {s : State} {e : Encoder} (h : (s.length.measure e).position ≤ topOfPosition) (d : Direction) :
    s.countUnits e d = ((s.length.measure e).step d).1.position - (s.length.measure e).position +
      ((s.length.measure e).position - ((s.length.measure e).step d).1.position) := (Measure.units_eq h d).1

theorem reachedTop_iff {old new : Nat} : reachedTop old new = true ↔ old < 4294967295 ∧ new = 4294967295 := decide_eq_true_iff

theorem silencePosts_count (s : State) (e : Encoder) (d : Direction) (k : EventKind) : (s.silencePosts e d).count k =
    if s.fallsSilentAt e (s.countUnits e d) ∧ silentKind (otherEncoder e) = k then 1 else 0 := by
  by_cases hf : s.fallsSilentAt e (s.countUnits e d)
  · rw [State.silencePosts, if_pos hf, List.count_cons, List.count_nil, Nat.zero_add]
    exact if_congr ⟨fun h => ⟨hf, beq_iff_eq.1 h⟩, fun h => beq_iff_eq.2 h.2⟩ rfl rfl
  · rw [State.silencePosts, if_neg hf, if_neg fun h => hf h.1]
    rfl

section Figures
variable {s t : State} {e : Encoder} {d : Direction} (hs : s.AlertsSound) (hp : ∀ k ∈ countKinds, t.PendsAs k (counted e d s))
include hs hp

/-- A kind pends as often more as the count's own part posts it. -/
theorem counted_pends {k : EventKind} (hk : k ∈ countKinds) (hslip : k ≠ .slip) :
    t.PendsAs k (s.postTimes ((s.limitPosts e d ++ s.silencePosts e d).count k) k) := by
  obtain ⟨ks, hks, halerts⟩ := counted_posts s e d
  refine (hp k hk).trans (State.PendsAs.of_posts hs halerts ?_)
  rcases hks with rfl | rfl
  · rw [List.append_nil]
  · rw [List.count_append, List.count_cons_of_ne hslip.symm]
    rfl

variable (hl : t.length = (counted e d s).length)
include hl

theorem positionLimit_follows : t.PendsAs .positionLimit (s.postTimes
    ((if (s.length.measure e).position < 4294967295 ∧ (t.length.measure e).position = 4294967295 then 1 else 0) +
      (if s.length.p < 4294967295 ∧ t.length.p = 4294967295 then 1 else 0)) .positionLimit) := by
  have hpends := counted_pends hs hp (k := .positionLimit) (by decide) nofun
  have hsilence : (s.silencePosts e d).count .positionLimit = 0 := by
    unfold State.silencePosts
    split
    · cases e <;> rfl
    · rfl
  have hcount : (s.limitPosts e d ++ s.silencePosts e d).count .positionLimit =
      (if (s.length.measure e).position < 4294967295 ∧ (t.length.measure e).position = 4294967295 then 1 else 0) +
        (if s.length.p < 4294967295 ∧ t.length.p = 4294967295 then 1 else 0) := by
    have hone {c : Prop} [Decidable c] {b : Bool} (h : b = true ↔ c) :
        (if b then [EventKind.positionLimit] else []).count .positionLimit = if c then 1 else 0 := by
      cases b with
      | true => rw [if_pos (h.1 rfl)]; rfl
      | false => rw [if_neg fun hc => Bool.false_ne_true (h.2 hc)]; rfl
    rw [List.count_append, hsilence, State.limitPosts, List.count_append, hone reachedTop_iff, hone reachedTop_iff, hl,
      counted_measure_self, counted_p_eq]
    rfl
  rwa [hcount] at hpends

theorem silence_follows (hr : e = .b → s.length.active = .a → t.roll = (counted e d s).roll) :
    SilenceFollows e (s.countUnits e d) s t := by
  have hother := counted_measure_other s e d
  have hactive := counted_active s e d
  have hcount (k : EventKind) (hk : k ≠ .positionLimit) : (s.limitPosts e d ++ s.silencePosts e d).count k =
      (s.silencePosts e d).count k := by
    rw [List.count_append, State.limitPosts, List.count_append]
    have hnone (c : Bool) : (if c then [EventKind.positionLimit] else []).count k = 0 := by
      cases c with
      | true => rw [if_pos rfl, List.count_cons_of_ne hk.symm]; rfl
      | false => rfl
    rw [hnone, hnone, Nat.zero_add]
  have ha := counted_pends hs hp (k := .encoderASilent) (by decide) nofun
  have hb := counted_pends hs hp (k := .encoderBSilent) (by decide) nofun
  rw [hcount _ (by decide)] at ha hb
  refine ⟨?_, ?_, fun hf he => ?_, fun hf => ?_, fun he hact => ?_, ?_, ?_⟩
  · rw [hl, hother]
  · rw [hl, hother, Bool.or_eq_true, decide_eq_true_iff]
  · rw [hl, hactive, if_pos ⟨hf, he⟩]
  · rw [hl, hactive, if_neg]
    rintro ⟨hf', rfl⟩
    exact hf.elim (fun h => h hf') nofun
  · rw [hr he hact, counted_roll]
    exact if_congr ⟨fun h => h.2.2, fun h => ⟨he, hact, h⟩⟩ rfl rfl
  · rw [silencePosts_count] at ha
    have hcond : (s.fallsSilentAt e (s.countUnits e d) ∧ silentKind (otherEncoder e) = .encoderASilent) ↔
        (e = .b ∧ s.fallsSilentAt e (s.countUnits e d)) := by cases e <;> simp [silentKind, otherEncoder]
    rwa [if_congr hcond rfl rfl] at ha
  · rw [silencePosts_count] at hb
    have hcond : (s.fallsSilentAt e (s.countUnits e d) ∧ silentKind (otherEncoder e) = .encoderBSilent) ↔
        (e = .a ∧ s.fallsSilentAt e (s.countUnits e d)) := by cases e <;> simp [silentKind, otherEncoder]
    rwa [if_congr hcond rfl rfl] at hb

end Figures

/-- Neither a hold nor a silence posts SLIP. -/
theorem slip_not_posted (s : State) (e : Encoder) (d : Direction) : EventKind.slip ∉ s.limitPosts e d ++ s.silencePosts e d := by
  unfold State.limitPosts State.silencePosts
  intro hmem
  rcases List.mem_append.1 hmem with hmem | hmem
  · rcases List.mem_append.1 hmem with hmem | hmem <;> · split at hmem <;> simp at hmem
  · split at hmem
    · cases e <;> simp [silentKind, otherEncoder] at hmem
    · simp at hmem

theorem silenced_span (s : State) (e : Encoder) (d : Direction) : (s.silenced e d).length.span =
    if s.fallsSilentAt e (s.countUnits e d) then none else s.spanAtCount e := by
  rw [silenced_length]

theorem silenced_slip (s : State) (e : Encoder) (d : Direction) :
    (s.silenced e d).length.lastDeviation = s.length.lastDeviation ∧ (s.silenced e d).length.slipCount = s.length.slipCount := by
  rw [silenced_length, counted_length]
  cases e <;> exact ⟨rfl, rfl⟩

theorem silenced_measures (s : State) (d : Direction) :
    (s.silenced .a d).length.a = ((s.length.a).step d).1.alive ∧
      (s.silenced .a d).length.b.silent = (s.length.b.silent || decide (s.fallsSilentAt .a (s.countUnits .a d))) ∧
      (s.silenced .a d).length.active = s.length.active := by
  rw [silenced_length, counted_length]
  exact ⟨rfl, rfl, if_neg fun h => nomatch h.2⟩

/-- The slip span opened at the end of a count of A (R20). -/
theorem silenced_opens (s : State) (d : Direction) (pa pb : Nat) :
    (if (s.silenced .a d).length.slipRuns then some { pa0 := pa, pb0 := pb } else none) =
      if s.fallsSilentAt .a (s.countUnits .a d) then none else s.spanFrom .a pa pb := by
  obtain ⟨ha, hb, hactive⟩ := silenced_measures s d
  have halive : ((s.length.a).step d).1.alive.silent = false := rfl
  unfold LengthCounter.slipRuns State.spanFrom
  rw [ha, hb, hactive, halive]
  by_cases hf : s.fallsSilentAt .a (s.countUnits .a d)
  · rw [if_pos hf, decide_eq_true hf]
    simp
  · rw [if_neg hf, decide_eq_false hf]
    refine if_congr ?_ rfl rfl
    simp [otherEncoder, LengthCounter.measure]

section Slip
variable {s t : State} {e : Encoder} {d : Direction} (hp : t.PendsAs .slip (counted e d s)) (hl : t.length = (counted e d s).length)
include hp hl

/-- Where the slip check at a count leaves its figures and posts nothing (R21). -/
theorem slip_stands (ha : (counted e d s).alerts = (s.silenced e d).alerts)
    (hv : (counted e d s).length.lastDeviation = (s.silenced e d).length.lastDeviation)
    (hc : (counted e d s).length.slipCount = (s.silenced e d).length.slipCount) : SlipStands s t := by
  obtain ⟨hv', hc'⟩ := silenced_slip s e d
  refine ⟨by rw [hl, hv, hv'], by rw [hl, hc, hc'], ?_⟩
  exact hp.trans (State.PendsAs.of_posts_without (ha.trans (silenced_alerts s e d)) (slip_not_posted s e d))

omit hp hl in
theorem slipAtCount_measures (e : Encoder) (d : Direction) (u : State) :
    (slipAtCount e d u).length.a = u.length.a ∧ (slipAtCount e d u).length.b = u.length.b := by
  rw [slipAtCount_length]
  exact ⟨rfl, rfl⟩

omit hp hl in
/-- A forward count of A ends a span that has run its length (R21). -/
theorem slip_ends {u : State} {span : SlipSpan} {ks : List EventKind} (hs : s.AlertsSound) (hp : t.PendsAs .slip (counted .a .forward s))
    (hl : t.length = (counted .a .forward s).length)
    (heq : counted .a .forward s = slipCheck u) (hspan : u.length.span = some span)
    (hpos : t.length.a.position = u.length.a.position ∧ t.length.b.position = u.length.b.position) (hmotion : u.motion = s.motion)
    (hopens : ∀ pa pb, (if u.length.slipRuns then some { pa0 := pa, pb0 := pb } else none) = s.spanFrom .a pa pb)
    (hcount : u.length.slipCount = s.length.slipCount) (halerts : u.alerts = (s.postAll ks).alerts) (hks : EventKind.slip ∉ ks)
    (hc : (s.motion.settings.check : Int) ≤ (t.length.a.position : Int) - span.pa0) :
    t.length.lastDeviation = ppmHeld (t.length.a.position - span.pa0) (t.length.b.position - span.pb0) ∧
      t.length.slipCount = (if s.motion.settings.slip < t.length.lastDeviation.natAbs then min (s.length.slipCount + 1) 65535
        else s.length.slipCount) ∧
      t.PendsAs .slip (s.postTimes (if s.motion.settings.slip < t.length.lastDeviation.natAbs then 1 else 0) .slip) ∧
      t.length.span = s.spanFrom .a t.length.a.position t.length.b.position := by
  obtain ⟨dev, hdev⟩ : ∃ dev, dev = ppmHeld (t.length.a.position - span.pa0) (t.length.b.position - span.pb0) := ⟨_, rfl⟩
  have hends := slipCheck_ends hspan (dev := dev) (by rw [← hpos.1, hmotion]; exact hc) (by rw [← hpos.1, ← hpos.2, hdev])
  rw [hmotion, ← heq] at hends
  rw [hends] at hl hp
  have hd : t.length.lastDeviation = dev := congrArg LengthCounter.lastDeviation hl
  refine ⟨hd.trans hdev, ?_, ?_, ?_⟩
  · rw [hd, hl, hcount]
  · rw [hd]
    have hposts : (u.postAll (if s.motion.settings.slip < dev.natAbs then [.slip] else [])).alerts =
        (s.postAll (ks ++ (if s.motion.settings.slip < dev.natAbs then [.slip] else []))).alerts := by
      rw [State.postAll_append]
      exact State.postAll_alerts_congr halerts _
    refine hp.trans (State.PendsAs.of_posts hs hposts ?_)
    rw [List.count_append, List.count_eq_zero_of_not_mem hks, Nat.zero_add]
    split <;> rfl
  · rw [hl, ← hopens]

/-- The slip check at a count, by the encoder and the direction (R20, R21). -/
theorem slip_follows (hs : s.AlertsSound) : SlipFollows e (decide (d = .forward)) (s.countUnits e d) s t := by
  have heq := counted_eq_slip e d s
  cases e with
  | b =>
    change counted .b d s = s.silenced .b d at heq
    have hstands := slip_stands hp hl (by rw [heq]) (by rw [heq]) (by rw [heq])
    refine ⟨fun hf => ⟨?_, hstands⟩, fun hf _ => ⟨?_, hstands⟩, nofun, nofun, nofun⟩
    · rw [hl, heq, silenced_span, if_pos hf]
    · rw [hl, heq, silenced_span, if_neg hf]
  | a =>
    cases d with
    | reverse =>
      change counted .a .reverse s = (s.silenced .a .reverse).withLength (s.silenced .a .reverse).length.openSpan at heq
      have hstands := slip_stands hp hl (by rw [heq]; rfl) (by rw [heq]; rfl) (by rw [heq]; rfl)
      have hspan : t.length.span = if s.fallsSilentAt .a (s.countUnits .a .reverse) then none
          else s.spanFrom .a t.length.a.position t.length.b.position := by
        rw [hl, heq]
        exact silenced_opens s .reverse _ _
      refine ⟨fun hf => ⟨?_, hstands⟩, nofun, fun hf _ _ => ⟨?_, hstands⟩, nofun, nofun⟩
      · rw [hspan, if_pos hf]
      · rw [hspan, if_neg hf]
    | forward =>
      change counted .a .forward s = slipCheck (s.silenced .a .forward) at heq
      have hspan := silenced_span s .a .forward
      have hstands (h : slipCheck (s.silenced .a .forward) = s.silenced .a .forward) : SlipStands s t := by
        rw [h] at heq
        exact slip_stands hp hl (by rw [heq]) (by rw [heq]) (by rw [heq])
      have hpos : t.length.a.position = (s.silenced .a .forward).length.a.position ∧
          t.length.b.position = (s.silenced .a .forward).length.b.position := by
        rw [hl, counted_eq_slip, (slipAtCount_measures .a .forward _).1, (slipAtCount_measures .a .forward _).2]
        exact ⟨Eq.refl _, Eq.refl _⟩
      have hmotion : (s.silenced .a .forward).motion = s.motion := by rw [silenced_eq]
      refine ⟨fun hf => ?_, nofun, nofun, fun hf _ _ hnone => ?_, fun hf _ _ span hsome => ⟨fun hc => ?_, fun hc => ?_⟩⟩
      · rw [if_pos hf] at hspan
        have hcheck := slipCheck_of_none hspan
        exact ⟨by rw [hl, heq, hcheck, hspan], hstands hcheck⟩
      · rw [if_neg hf, hnone] at hspan
        have hcheck := slipCheck_of_none hspan
        exact ⟨by rw [hl, heq, hcheck, hspan], hstands hcheck⟩
      · rw [if_neg hf, hsome] at hspan
        have hcheck := slipCheck_short hspan (by rw [← hpos.1, hmotion]; exact hc)
        exact ⟨by rw [hl, heq, hcheck, hspan], hstands hcheck⟩
      · rw [if_neg hf, hsome] at hspan
        have hopens (pa pb : Nat) := (silenced_opens s .forward pa pb).trans (if_neg hf)
        have hcount := (silenced_slip s .a .forward).2
        have halerts := silenced_alerts s .a .forward
        exact slip_ends hs hp hl heq hspan hpos hmotion hopens hcount halerts (slip_not_posted s .a .forward) hc

end Slip

end Sys2Proof.Machine
end

