-- ==== Sys2Proof/Proofs/LaneOffers.lean ====
section
/-! PROOFS. What a lane makes of an entry offered to it (R80, R85 to R89): its place, an overflow and its victim, the hold and the
events. -/

namespace Sys2Proof.Machine

/-! ## The place of an entry (R80) -/

theorem PlacedIn.here {α : Type} {position : α → Int} {e : α} {l : List α} (h : ∀ x ∈ l.head?, position e < position x) :
    PlacedIn position e l (e :: l) :=
  ⟨0, Nat.zero_le _, rfl, fun _ hx => absurd hx List.not_mem_nil, h⟩

theorem PlacedIn.behind {α : Type} {position : α → Int} {e x : α} {l l' : List α} (hx : position x ≤ position e)
    (h : PlacedIn position e l l') : PlacedIn position e (x :: l) (x :: l') := by
  obtain ⟨n, hn, rfl, hbefore, hafter⟩ := h
  refine ⟨n + 1, Nat.succ_le_succ hn, rfl, fun y hy => ?_, hafter⟩
  rcases List.mem_cons.1 hy with rfl | hy
  · exact hx
  · exact hbefore y hy

theorem placeDefect_placed (e : DefectEntry) (l : List DefectEntry) : PlacedIn (·.position) e l (placeDefect e l) := by
  induction l with
  | nil => exact .here (by simp)
  | cons x rest ih =>
    unfold placeDefect
    split
    next hlt => exact .here (by simpa using hlt)
    next hle => exact ih.behind (not_lt.1 hle)

theorem placeSplice_placed (e : SpliceEntry) (l : List SpliceEntry) : PlacedIn (·.position) e l (placeSplice e l) := by
  induction l with
  | nil => exact .here (by simp)
  | cons x rest ih =>
    unfold placeSplice
    split
    next hlt => exact .here (by simpa using hlt)
    next hle => exact ih.behind (not_lt.1 hle)

/-! ## The victim of an overflow (R86) -/

theorem Severity.rank_le (x : Severity) : x.rank ≤ 4 := by cases x <;> decide

theorem leastSeverity_eq (l : List DefectEntry) : leastSeverity l = (l.map (·.severity.rank)).foldl min 4 := by
  rw [leastSeverity, List.foldl_map]

theorem foldl_min_le (l : List Nat) (m : Nat) : l.foldl min m ≤ m ∧ ∀ x ∈ l, l.foldl min m ≤ x := by
  induction l generalizing m with
  | nil => simp
  | cons x rest ih =>
    obtain ⟨hm, hrest⟩ := ih (min m x)
    refine ⟨hm.trans (min_le_left _ _), fun y hy => ?_⟩
    rcases List.mem_cons.1 hy with rfl | hy
    · exact hm.trans (min_le_right _ _)
    · exact hrest y hy

theorem leastSeverity_le {l : List DefectEntry} {x : DefectEntry} (h : x ∈ l) : leastSeverity l ≤ x.severity.rank := by
  rw [leastSeverity_eq]
  exact (foldl_min_le _ _).2 _ (List.mem_map_of_mem h)

theorem foldl_min_mem (l : List Nat) (m : Nat) : l.foldl min m = m ∨ l.foldl min m ∈ l := by
  induction l generalizing m with
  | nil => exact .inl rfl
  | cons x rest ih =>
    rw [List.foldl_cons, List.mem_cons]
    rcases ih (min m x) with h | h
    · rw [h]
      exact (min_choice m x).imp id .inl
    · exact .inr (.inr h)

theorem exists_leastSeverity {l : List DefectEntry} (h : l ≠ []) : ∃ x ∈ l, x.severity.rank = leastSeverity l := by
  obtain ⟨y, hy⟩ := List.exists_mem_of_ne_nil l h
  rcases foldl_min_mem (l.map (·.severity.rank)) 4 with hm | hm
  · rw [← leastSeverity_eq] at hm
    exact ⟨y, hy, le_antisymm (hm ▸ y.severity.rank_le) (leastSeverity_le hy)⟩
  · rw [← leastSeverity_eq] at hm
    exact List.mem_map.1 hm

/-- In a list, the entry of a severity with the greatest position, the last of equal ones (R86). -/
structure LastGreatest (rank n : Nat) (v : DefectEntry) (l : List DefectEntry) : Prop where
  found : l[n]? = some v
  ranked : v.severity.rank = rank
  before : ∀ x ∈ l.take n, x.severity.rank = rank → x.position ≤ v.position
  after : ∀ x ∈ l.drop (n + 1), x.severity.rank = rank → x.position < v.position

/-- The victim so far against a further entry of the severity, at index `n` (R86). -/
def furtherVictim (n : Nat) (x : DefectEntry) : Option (Nat × DefectEntry) → Option (Nat × DefectEntry)
  | none => some (n, x)
  | some b => if b.2.position ≤ x.position then some (n, x) else some b

theorem overflowVictim_append (rank : Nat) (l : List DefectEntry) (x : DefectEntry) :
    overflowVictim rank (l ++ [x]) =
      if x.severity.rank = rank then furtherVictim l.length x (overflowVictim rank l) else overflowVictim rank l := by
  unfold overflowVictim
  rw [List.zipIdx_append, List.filter_append, List.foldl_append]
  by_cases hx : x.severity.rank = rank
  · rw [if_pos hx]
    simp [hx]
    rfl
  · rw [if_neg hx]
    simp [hx]

namespace LastGreatest

variable {rank n : Nat} {v x : DefectEntry} {l : List DefectEntry}

theorem lt_length (h : LastGreatest rank n v l) : n < l.length := (List.getElem?_eq_some_iff.1 h.found).1

/-- The last entry of a list, where none of the severity before it has a greater position. -/
theorem last (hx : x.severity.rank = rank) (h : ∀ y ∈ l, y.severity.rank = rank → y.position ≤ x.position) :
    LastGreatest rank l.length x (l ++ [x]) where
  found := List.getElem?_concat_length
  ranked := hx
  before := by rwa [List.take_left]
  after := by simp

/-- A further entry of another severity, or with a lower position. -/
theorem concat (h : LastGreatest rank n v l) (hx : x.severity.rank = rank → x.position < v.position) :
    LastGreatest rank n v (l ++ [x]) where
  found := by rw [List.getElem?_append_left h.lt_length, h.found]
  ranked := h.ranked
  before := by
    rw [List.take_append_of_le_length h.lt_length.le]
    exact h.before
  after := by
    rw [List.drop_append_of_le_length h.lt_length]
    intro y hy
    rcases List.mem_append.1 hy with hy | hy
    · exact h.after y hy
    · rwa [List.mem_singleton.1 hy]

/-- No entry of the severity stands above it. -/
theorem le (h : LastGreatest rank n v l) : ∀ y ∈ l, y.severity.rank = rank → y.position ≤ v.position := by
  intro y hy hrank
  rw [← List.take_append_drop n l, List.drop_eq_getElem_cons h.lt_length] at hy
  rcases List.mem_append.1 hy with hy | hy
  · exact h.before y hy hrank
  · rcases List.mem_cons.1 hy with rfl | hy
    · rw [(List.getElem?_eq_some_iff.1 h.found).2]
    · exact (h.after y hy hrank).le

/-- Of the least severity it is the victim (R86). -/
theorem victim (h : LastGreatest (leastSeverity l) n v l) : IsOverflowVictim n v l := by
  have hleast (y : DefectEntry) (hy : y ∈ l) : v.severity.rank < y.severity.rank ∨ v.severity.rank = y.severity.rank :=
    (h.ranked ▸ leastSeverity_le hy : v.severity.rank ≤ y.severity.rank).lt_or_eq
  refine ⟨h.found, fun y hy => ?_, fun y hy => ?_⟩
  · exact (hleast y (List.mem_of_mem_take hy)).imp id fun heq => ⟨heq, h.before y hy (heq ▸ h.ranked)⟩
  · exact (hleast y (List.mem_of_mem_drop hy)).imp id fun heq => ⟨heq, h.after y hy (heq ▸ h.ranked)⟩

end LastGreatest

theorem overflowVictim_spec (rank : Nat) (l : List DefectEntry) :
    match overflowVictim rank l with
    | none => ∀ x ∈ l, x.severity.rank ≠ rank
    | some b => LastGreatest rank b.1 b.2 l := by
  induction l using List.reverseRecOn with
  | nil => exact fun _ h => absurd h List.not_mem_nil
  | append_singleton l x ih =>
    rw [overflowVictim_append]
    cases hv : overflowVictim rank l with
    | none =>
      rw [hv] at ih
      by_cases hx : x.severity.rank = rank
      · rw [if_pos hx]
        exact .last hx fun y hy hrank => absurd hrank (ih y hy)
      · rw [if_neg hx]
        intro y hy
        rcases List.mem_append.1 hy with hy | hy
        · exact ih y hy
        · rwa [List.mem_singleton.1 hy]
    | some b =>
      rw [hv] at ih
      by_cases hx : x.severity.rank = rank
      · rw [if_pos hx]
        by_cases hle : b.2.position ≤ x.position
        · rw [furtherVictim, if_pos hle]
          exact .last hx fun y hy hrank => (ih.le y hy hrank).trans hle
        · rw [furtherVictim, if_neg hle]
          exact ih.concat fun _ => not_le.1 hle
      · rw [if_neg hx]
        exact ih.concat fun hrank => absurd hrank hx

/-- A list that is not empty has a victim (R86). -/
theorem exists_overflowVictim {l : List DefectEntry} (h : l ≠ []) :
    ∃ v, overflowVictim (leastSeverity l) l = some v ∧ v.1 < l.length ∧ v.2 ∈ l ∧ IsOverflowVictim v.1 v.2 l := by
  have hspec := overflowVictim_spec (leastSeverity l) l
  cases hv : overflowVictim (leastSeverity l) l with
  | none =>
    rw [hv] at hspec
    obtain ⟨x, hx, hrank⟩ := exists_leastSeverity h
    exact absurd hrank (hspec x hx)
  | some v =>
    rw [hv] at hspec
    exact ⟨v, rfl, hspec.lt_length, List.mem_of_getElem? hspec.found, hspec.victim⟩

/-! ## An entry offered to its list (R85 to R87) -/

section Offers
variable (lane : LaneRecord)

theorem offerDefect_of_room {lane : LaneRecord} (e : DefectEntry) (h : lane.defects.length < 32) : lane.offerDefect e =
    { lane := LaneRecord.edited { lane with defects := placeDefect e lane.defects } 1, inserted := true,
      evicted := none, posts := [] } := if_pos h

theorem offerDefect_takes (e : DefectEntry) : TakesDefect e lane (lane.offerDefect e).lane := by
  by_cases hroom : lane.defects.length < 32
  · rw [offerDefect_of_room e hroom]
    exact ⟨⟨rfl, rfl, rfl, rfl⟩, fun _ => ⟨placeDefect_placed e _, rfl, rfl⟩, fun h => absurd hroom (not_lt.2 h)⟩
  · have hfull : lane.defects ≠ [] := fun h => hroom (by rw [h]; decide)
    obtain ⟨v, hv, hlt, hmem, hvictim⟩ := exists_overflowVictim hfull
    obtain ⟨y, hy, hleast⟩ := exists_leastSeverity hfull
    unfold LaneRecord.offerDefect
    rw [if_neg hroom]
    dsimp only
    rw [hv]
    dsimp only
    by_cases hrank : leastSeverity lane.defects < e.severity.rank
    · rw [if_pos hrank]
      exact ⟨⟨rfl, rfl, rfl, rfl⟩, fun h => absurd h hroom, fun _ => ⟨rfl,
        fun hall => absurd (hall y hy) (by omega),
        fun _ => ⟨⟨v.1, hlt, v.2, hmem, hvictim, placeDefect_placed e _⟩, rfl⟩⟩⟩
    · rw [if_neg hrank]
      refine ⟨⟨rfl, rfl, rfl, rfl⟩, fun h => absurd h hroom, fun _ => ⟨rfl, fun _ => ⟨rfl, rfl⟩, ?_⟩⟩
      rintro ⟨x, hx, hlt⟩
      have := leastSeverity_le hx
      omega

theorem offerDefect_status (e : DefectEntry) : (lane.offerDefect e).lane.status = lane.status := by
  unfold LaneRecord.offerDefect
  split
  · rfl
  · dsimp only
    split
    · split <;> rfl
    · rfl

theorem offerDefect_posts (e : DefectEntry) :
    (lane.offerDefect e).posts = if 32 ≤ lane.defects.length then [.defectDropped] else [] := by
  unfold LaneRecord.offerDefect
  split
  next h => rw [if_neg (not_le.2 h)]
  next h =>
    rw [if_pos (not_lt.1 h)]
    dsimp only
    split
    · split <;> rfl
    · rfl

theorem offerSplice_of_room {lane : LaneRecord} (e : SpliceEntry) (h : lane.splices.length < 8) : lane.offerSplice e =
    { lane := LaneRecord.edited { lane with splices := placeSplice e lane.splices } 1, inserted := true,
      evicted := none, posts := [] } := if_pos h

theorem offerSplice_takes (e : SpliceEntry) : TakesSplice e lane (lane.offerSplice e).lane := by
  unfold LaneRecord.offerSplice
  split
  next h => exact ⟨⟨rfl, rfl, rfl, rfl⟩, fun _ => ⟨placeSplice_placed e _, rfl, rfl⟩, fun h' => absurd h (not_lt.2 h')⟩
  next h => exact ⟨⟨rfl, rfl, rfl, rfl⟩, fun h' => absurd h' h, fun _ => ⟨rfl, rfl, rfl⟩⟩

theorem offerSplice_status (e : SpliceEntry) : (lane.offerSplice e).lane.status = lane.status := by
  unfold LaneRecord.offerSplice
  split <;> rfl

theorem offerSplice_posts (e : SpliceEntry) : (lane.offerSplice e).posts = [] := by
  unfold LaneRecord.offerSplice
  split <;> rfl

end Offers

/-! ## The hold (R88, R89) -/

section Hold
variable (o : LaneOffer) (c : Bool) (cause : HoldCause)

theorem holdIf_lane : (o.holdIf c cause).lane = { o.lane with
    status := if c = true ∧ o.lane.status = .good then .hold (some cause) else o.lane.status } := by
  unfold LaneOffer.holdIf
  simp only [Bool.and_eq_true, decide_eq_true_eq]
  split <;> rfl

theorem holdIf_posts : (o.holdIf c cause).posts =
    o.posts ++ if c = true ∧ o.lane.status = .good then [.laneHold] else [] := by
  unfold LaneOffer.holdIf
  simp only [Bool.and_eq_true, decide_eq_true_eq]
  split
  · rfl
  · exact (List.append_nil _).symm

theorem holdIf_inserted : (o.holdIf c cause).inserted = o.inserted ∧ (o.holdIf c cause).evicted = o.evicted := by
  unfold LaneOffer.holdIf
  split <;> exact ⟨rfl, rfl⟩

end Hold

/-! ## A record's entry offered to a lane (R85 to R89) -/

section Lane
variable (it : RegisterItem) (set : SetRecord) (s : State) (lane : LaneRecord)

/-- What a lane of the set makes of a record. -/
def RegisterItem.offered : LaneOffer := offerToLane s.geometry.w s.job.params set it lane

theorem offered_of_defect {tag cls : Nat} {sev : Severity} (h : it.body.kind = .defect tag cls sev) :
    it.offered set s lane = (lane.offerDefect (defectEntryOf s.geometry.w set it lane.number tag cls sev)).holdIf
      (s.job.params.holdOnCritical && decide (sev = .critical)) .critical := by
  rw [RegisterItem.offered, offerToLane, h]

/-- The offer of a splice record's entry. -/
def RegisterItem.spliceOffer (kind : SpliceKind) : LaneOffer :=
  lane.offerSplice (spliceEntryOf s.geometry.w set it kind)

theorem offered_of_splice {kind : SpliceKind} (h : it.body.kind.spliceKind = some kind) : it.offered set s lane =
    (it.spliceOffer set s lane kind).holdIf
      (decide (s.job.params.spliceLimit < (it.spliceOffer set s lane kind).lane.spliceCount)) .spliceLimit := by
  rw [RegisterItem.offered, offerToLane]
  cases hk : it.body.kind with
  | defect tag cls sev => rw [hk] at h; exact nomatch h
  | sensedSplice =>
    rw [hk] at h
    obtain rfl := Option.some.inj h
    rfl
  | repairSplice =>
    rw [hk] at h
    obtain rfl := Option.some.inj h
    rfl

theorem spliceKind_or_defect (k : RecordKind) : (∃ kind, k.spliceKind = some kind) ∨ ∃ tag cls sev, k = .defect tag cls sev := by
  cases k with
  | defect tag cls sev => exact .inr ⟨tag, cls, sev, rfl⟩
  | sensedSplice => exact .inl ⟨_, rfl⟩
  | repairSplice => exact .inl ⟨_, rfl⟩

theorem defectFields_of_spliceKind {k : RecordKind} {kind : SpliceKind} (h : k.spliceKind = some kind) : k.defectFields = none := by
  cases k with
  | defect tag cls sev => exact nomatch h
  | sensedSplice => rfl
  | repairSplice => rfl

theorem offered_takes : LaneTakes it set s lane (it.offered set s lane).lane := by
  rcases spliceKind_or_defect it.body.kind with ⟨kind, hk⟩ | ⟨tag, cls, sev, hk⟩
  · rw [offered_of_splice it set s lane hk, holdIf_lane]
    refine ⟨fun x hx => ?_, fun kind' hkind => ?_⟩
    · rw [defectFields_of_spliceKind hk] at hx
      exact nomatch hx
    · obtain rfl : kind = kind' := Option.some.inj (hk.symm.trans hkind)
      refine ⟨offerSplice_takes lane _, ?_⟩
      have hstatus : (it.spliceOffer set s lane kind).lane.status = lane.status := offerSplice_status lane _
      rw [hstatus]
      exact if_congr ⟨fun h => ⟨h.2, of_decide_eq_true h.1⟩, fun h => ⟨decide_eq_true h.2, h.1⟩⟩ rfl rfl
  · rw [offered_of_defect it set s lane hk, holdIf_lane]
    refine ⟨fun x hx => ?_, fun kind hkind => ?_⟩
    · rw [hk] at hx
      obtain rfl := Option.some.inj hx
      refine ⟨offerDefect_takes lane _, ?_⟩
      rw [offerDefect_status]
      refine if_congr ?_ rfl rfl
      rw [Bool.and_eq_true, decide_eq_true_iff, and_comm]
    · rw [hk] at hkind
      exact nomatch hkind

theorem count_hold (c : Prop) [Decidable c] (ks : List EventKind) (h : EventKind.laneHold ∉ ks) :
    (ks ++ if c then [EventKind.laneHold] else []).count .laneHold = if c then 1 else 0 := by
  rw [List.count_append, List.count_eq_zero.2 h]
  split <;> rfl

/-- DEFECT-DROPPED is posted for a defect and a full list (R86). -/
theorem offered_defectDropped : (it.offered set s lane).posts.count .defectDropped =
    if it.body.kind.defectFields.isSome = true ∧ 32 ≤ lane.defects.length then 1 else 0 := by
  have hnone (c : Prop) [Decidable c] : (if c then [EventKind.laneHold] else []).count .defectDropped = 0 := by
    split <;> rfl
  rcases spliceKind_or_defect it.body.kind with ⟨kind, hk⟩ | ⟨tag, cls, sev, hk⟩
  · rw [offered_of_splice it set s lane hk, holdIf_posts, List.count_append, hnone, RegisterItem.spliceOffer,
      offerSplice_posts, defectFields_of_spliceKind hk]
    rfl
  · rw [offered_of_defect it set s lane hk, holdIf_posts, List.count_append, hnone, offerDefect_posts, hk]
    simp only [RecordKind.defectFields, Option.isSome_some, true_and]
    split <;> rfl

/-- LANE-HOLD is posted where the lane was GOOD and is no more (R88, R89). -/
theorem offered_laneHold : (it.offered set s lane).posts.count .laneHold =
    if lane.status = .good ∧ (it.offered set s lane).lane.status ≠ .good then 1 else 0 := by
  have hheld (o : LaneOffer) (c : Bool) (cause : HoldCause) (hstatus : o.lane.status = lane.status)
      (hposts : EventKind.laneHold ∉ o.posts) : (o.holdIf c cause).posts.count .laneHold =
        if lane.status = .good ∧ (o.holdIf c cause).lane.status ≠ .good then 1 else 0 := by
    rw [holdIf_posts, count_hold _ _ hposts, holdIf_lane]
    dsimp only
    rw [hstatus]
    refine if_congr ⟨fun h => ⟨h.2, ?_⟩, fun h => ⟨?_, h.1⟩⟩ rfl rfl
    · rw [if_pos h]
      exact LaneStatus.noConfusion
    · by_contra hc
      rw [if_neg fun h' => hc h'.1] at h
      exact h.2 h.1
  rcases spliceKind_or_defect it.body.kind with ⟨kind, hk⟩ | ⟨tag, cls, sev, hk⟩
  · rw [offered_of_splice it set s lane hk]
    exact hheld _ _ _ (offerSplice_status lane _) (by rw [RegisterItem.spliceOffer, offerSplice_posts]; exact List.not_mem_nil)
  · rw [offered_of_defect it set s lane hk]
    refine hheld _ _ _ (offerDefect_status lane _) ?_
    rw [offerDefect_posts]
    split
    · decide
    · exact List.not_mem_nil

/-- A lane with room takes the entry and loses none (R85). -/
theorem offered_of_room (hd : lane.defects.length < 32) (hs : lane.splices.length < 8) :
    (it.offered set s lane).inserted = true ∧ (it.offered set s lane).evicted = none := by
  rcases spliceKind_or_defect it.body.kind with ⟨kind, hk⟩ | ⟨tag, cls, sev, hk⟩
  · rw [offered_of_splice it set s lane hk, (holdIf_inserted _ _ _).1, (holdIf_inserted _ _ _).2, RegisterItem.spliceOffer,
      offerSplice_of_room _ hs]
    exact ⟨rfl, rfl⟩
  · rw [offered_of_defect it set s lane hk, (holdIf_inserted _ _ _).1, (holdIf_inserted _ _ _).2, offerDefect_of_room _ hd]
    exact ⟨rfl, rfl⟩

end Lane

end Sys2Proof.Machine
end

