-- ==== Sys2Proof/Proofs/DeliveriesFollow.lean ====
section
/-! PROOFS. What a record handed to the roll map makes of the winding set, the register and the station records (R53, R81, R85 to
R89). -/

namespace Sys2Proof.Machine

section Delivery
variable (it : RegisterItem) (set : SetRecord) (s : State)

/-- The lanes that the first `k` numbers of a record's range name. -/
def RegisterItem.named (k : Nat) : List LaneRecord := (set.lanes.drop (it.lanes.first - 1)).take k

/-- The lanes of a set after the first `k` lane numbers of a record's range. -/
def RegisterItem.enteredLanes (k : Nat) : List LaneRecord :=
  set.lanes.take (it.lanes.first - 1) ++ (it.named set k).map (fun lane => (it.offered set s lane).lane) ++
    set.lanes.drop (it.lanes.first - 1 + k)

/-- What the first `k` lane numbers of a record's range have made of a delivery (R53, R85). -/
structure Delivery.Upto (k : Nat) (d : Delivery) : Prop where
  keeps : d.set = { set with lanes := d.set.lanes, unplacedTally := d.set.unplacedTally }
  lanes : d.set.lanes = it.enteredLanes set s k
  unplaced : set.unplacedTally ≤ 65535 → d.set.unplacedTally =
    min (set.unplacedTally + (it.lanes.first - 1 + k - max (it.lanes.first - 1) set.lanes.length)) 65535
  posts : d.posts = (it.named set k).flatMap (fun lane => (it.offered set s lane).posts)
  register : (∀ x ∈ s.roll.register, x.body.number ≠ it.body.number) → it.lanes.first - 1 < set.lanes.length →
    (∀ lane ∈ set.lanes, lane.defects.length < 32 ∧ lane.splices.length < 8) →
    d.register = s.roll.register ++ if k = 0 then [] else [it]

/-- An offer looks at the set's start, knives and plan alone (R52, R54). -/
theorem offerToLane_of_keeps {d : SetRecord} (h : d = { set with lanes := d.lanes, unplacedTally := d.unplacedTally })
    (lane : LaneRecord) : offerToLane s.geometry.w s.job.params d it lane = it.offered set s lane := by
  rw [h, RegisterItem.offered, offerToLane, offerToLane]
  split <;> rfl

theorem enteredLanes_length {k : Nat} (h : it.lanes.first - 1 + k ≤ set.lanes.length) :
    (set.lanes.take (it.lanes.first - 1) ++ (it.named set k).map (fun lane => (it.offered set s lane).lane)).length =
      it.lanes.first - 1 + k := by
  simp [RegisterItem.named]
  omega

theorem named_succ (k : Nat) :
    it.named set (k + 1) = it.named set k ++ set.lanes[it.lanes.first - 1 + k]?.toList := by
  rw [RegisterItem.named, List.take_add_one, List.getElem?_drop]
  rfl

/-- The lane that the next number names stands as it was. -/
theorem enteredLanes_next (k : Nat) :
    (it.enteredLanes set s k)[it.lanes.first - 1 + k]? = set.lanes[it.lanes.first - 1 + k]? := by
  rcases le_or_gt (it.lanes.first - 1 + k) set.lanes.length with h | h
  · rw [RegisterItem.enteredLanes, List.getElem?_append_right (enteredLanes_length it set s h).le, enteredLanes_length it set s h,
      Nat.sub_self, List.getElem?_drop, Nat.add_zero]
  · rw [List.getElem?_eq_none h.le, List.getElem?_eq_none]
    simp [RegisterItem.enteredLanes, RegisterItem.named]
    omega

theorem enteredLanes_succ_of_some {k : Nat} {lane : LaneRecord} (h : set.lanes[it.lanes.first - 1 + k]? = some lane) :
    (it.enteredLanes set s k).set (it.lanes.first - 1 + k) (it.offered set s lane).lane = it.enteredLanes set s (k + 1) := by
  obtain ⟨hlt, hlane⟩ := List.getElem?_eq_some_iff.1 h
  have hlength := enteredLanes_length it set s hlt.le
  rw [RegisterItem.enteredLanes, List.set_append_right _ _ hlength.le, hlength, Nat.sub_self, List.drop_eq_getElem_cons hlt,
    List.set_cons_zero, RegisterItem.enteredLanes, named_succ, h]
  simp [Nat.add_assoc]

theorem enteredLanes_succ_of_none {k : Nat} (h : set.lanes[it.lanes.first - 1 + k]? = none) :
    it.enteredLanes set s (k + 1) = it.enteredLanes set s k := by
  have hle := List.getElem?_eq_none_iff.1 h
  have hle' : set.lanes.length ≤ it.lanes.first - 1 + (k + 1) := hle.trans (Nat.le_succ _)
  rw [RegisterItem.enteredLanes, named_succ, h, List.drop_eq_nil_of_le hle',
    Option.toList_none, List.append_nil, List.append_nil, RegisterItem.enteredLanes, List.drop_eq_nil_of_le hle, List.append_nil]

namespace Delivery.Upto

theorem start : Delivery.Upto it set s 0 { set := set, register := s.roll.register, posts := [] } where
  keeps := rfl
  lanes := by simp [RegisterItem.enteredLanes, RegisterItem.named]
  unplaced h := by simp; omega
  posts := rfl
  register _ _ _ := (List.append_nil _).symm

variable {it set s} {k : Nat} {d : Delivery}

theorem next (h : d.Upto it set s k) (hfirst : 1 ≤ it.lanes.first) :
    (enterLane s.geometry.w s.job.params it d (k + it.lanes.first)).Upto it set s (k + 1) := by
  have hindex : k + it.lanes.first - 1 = it.lanes.first - 1 + k := by omega
  have hlane : d.set.lanes[it.lanes.first - 1 + k]? = set.lanes[it.lanes.first - 1 + k]? := by
    rw [h.lanes, enteredLanes_next]
  unfold enterLane
  rw [hindex, hlane]
  cases hl : set.lanes[it.lanes.first - 1 + k]? with
  | none =>
    have hle := List.getElem?_eq_none_iff.1 hl
    refine ⟨by dsimp only; rw [h.keeps], ?_, fun ht => ?_, ?_, fun hfree hlt hroom => ?_⟩
    · rw [enteredLanes_succ_of_none it set s hl, ← h.lanes]
    · dsimp only
      rw [h.unplaced ht, holdAt]
      omega
    · rw [named_succ, hl, Option.toList_none, List.append_nil, ← h.posts]
    · have hk : k ≠ 0 := fun hk => by omega
      rw [if_neg (Nat.succ_ne_zero k), ← if_neg (t := []) (e := [it]) hk]
      exact h.register hfree hlt hroom
  | some lane =>
    obtain ⟨hlt, -⟩ := List.getElem?_eq_some_iff.1 hl
    dsimp only
    rw [offerToLane_of_keeps it set s h.keeps]
    refine ⟨by dsimp only; rw [h.keeps], ?_, fun ht => ?_, ?_, fun hfree hlt hroom => ?_⟩
    · dsimp only
      rw [h.lanes, enteredLanes_succ_of_some it set s hl]
    · dsimp only
      rw [h.unplaced ht]
      omega
    · dsimp only
      rw [named_succ, hl, List.flatMap_append, ← h.posts, Option.toList_some, List.flatMap_singleton]
    · have hlast := hroom lane (List.mem_of_getElem? hl)
      obtain ⟨hinserted, hevicted⟩ := offered_of_room it set s lane hlast.1 hlast.2
      dsimp only
      rw [hinserted, hevicted, Bool.true_and, if_neg (Nat.succ_ne_zero k), h.register hfree hlt hroom]
      by_cases hk : k = 0
      · rw [if_pos hk, List.append_nil, if_pos]
        simpa using hfree
      · rw [if_neg hk, if_neg]
        simp

end Delivery.Upto

theorem delivery_upto (hfirst : 1 ≤ it.lanes.first) :
    (it.delivery set s).Upto it set s (it.lanes.last + 1 - it.lanes.first) := by
  rw [RegisterItem.delivery, LaneRange.numbers]
  induction it.lanes.last + 1 - it.lanes.first with
  | zero => exact .start it set s
  | succ k ih =>
    rw [List.range_succ, List.map_append, List.foldl_append]
    exact ih.next hfirst

/-! ## Lanes and events by number -/

theorem lanes_split (k : Nat) : set.lanes =
    set.lanes.take (it.lanes.first - 1) ++ it.named set k ++ set.lanes.drop (it.lanes.first - 1 + k) := by
  rw [RegisterItem.named, List.append_assoc, ← List.drop_drop, List.take_append_drop, List.take_append_drop]

theorem enteredLanes_length_eq (k : Nat) : (it.enteredLanes set s k).length = set.lanes.length := by
  conv_rhs => rw [lanes_split it set k]
  simp [RegisterItem.enteredLanes]

theorem count_flatMap {α : Type} {k : EventKind} {f : α → List EventKind} {q : α → Bool}
    (h : ∀ x, (f x).count k = if q x then 1 else 0) (l : List α) : (l.flatMap f).count k = l.countP q := by
  induction l with
  | nil => rfl
  | cons x rest ih => rw [List.flatMap_cons, List.count_append, ih, h, List.countP_cons, Nat.add_comm]

theorem countP_zipIdx {α : Type} (q : α → Bool) (l : List α) (i : Nat) : (l.zipIdx i).countP (fun x => q x.1) = l.countP q := by
  conv_rhs => rw [← List.zipIdx_map_fst i l, List.countP_map]
  rfl

/-- Among the numbered lanes of a set, those whose numbers lie in the range are the ones that its numbers name. -/
theorem countP_contains (q : LaneRecord → Bool) (hfirst : 1 ≤ it.lanes.first) :
    (set.lanes.zipIdx 1).countP (fun x => it.lanes.contains x.2 && q x.1) =
      (it.named set (it.lanes.last + 1 - it.lanes.first)).countP q := by
  have hbefore : ((set.lanes.take (it.lanes.first - 1)).zipIdx 1).countP (fun x => it.lanes.contains x.2 && q x.1) = 0 := by
    refine List.countP_eq_zero.2 fun x hx => ?_
    have hlt := (List.mem_zipIdx hx).2.1
    rw [List.length_take] at hlt
    simp [LaneRange.contains]
    omega
  have hafter (i : Nat) (hi : set.lanes.length ≤ it.lanes.first - 1 + (it.lanes.last + 1 - it.lanes.first) ∨
      1 + (it.lanes.first - 1 + (it.lanes.last + 1 - it.lanes.first)) ≤ i) :
      ((set.lanes.drop (it.lanes.first - 1 + (it.lanes.last + 1 - it.lanes.first))).zipIdx i).countP
        (fun x => it.lanes.contains x.2 && q x.1) = 0 := by
    refine List.countP_eq_zero.2 fun x hx => ?_
    obtain ⟨hle, hlt, -⟩ := List.mem_zipIdx hx
    rw [List.length_drop] at hlt
    simp [LaneRange.contains]
    omega
  have hnamed : (it.named set (it.lanes.last + 1 - it.lanes.first)).length =
      min (it.lanes.last + 1 - it.lanes.first) (set.lanes.length - (it.lanes.first - 1)) := by
    simp [RegisterItem.named]
  conv_lhs => rw [lanes_split it set (it.lanes.last + 1 - it.lanes.first)]
  rw [List.zipIdx_append, List.zipIdx_append, List.countP_append, List.countP_append, hbefore, hafter, Nat.zero_add, Nat.add_zero]
  · rw [← countP_zipIdx q]
    refine List.countP_congr fun x hx => ?_
    obtain ⟨hle, hlt, -⟩ := List.mem_zipIdx hx
    rw [hnamed, List.length_take] at hlt
    rw [List.length_take] at hle
    have hcontains : it.lanes.contains x.2 = true := decide_eq_true (by omega)
    rw [hcontains, Bool.true_and]
  · rw [List.length_append, hnamed, List.length_take]
    omega

/-- The list with a function applied to `k` elements from index `a` on, read at an index. -/
theorem getElem?_mapRange {α : Type} (l : List α) (f : α → α) (a k n : Nat) :
    (l.take a ++ ((l.drop a).take k).map f ++ l.drop (a + k))[n]? =
      l[n]?.map (fun x => if a ≤ n ∧ n < a + k then f x else x) := by
  rcases Nat.lt_or_ge n l.length with hlt | hle
  · rw [List.getElem?_eq_getElem hlt, Option.map_some]
    rcases Nat.lt_or_ge n a with h | h
    · rw [if_neg (by omega), List.append_assoc, List.getElem?_append_left (by simp; omega), List.getElem?_take_of_lt h,
        List.getElem?_eq_getElem hlt]
    · have ha : (l.take a).length = a := by simp; omega
      rw [List.append_assoc, List.getElem?_append_right (ha.le.trans h), ha]
      rcases Nat.lt_or_ge n (a + k) with h' | h'
      · rw [if_pos ⟨h, h'⟩, List.getElem?_append_left (by simp; omega), List.getElem?_map, List.getElem?_take_of_lt (by omega),
          List.getElem?_drop, Nat.add_sub_cancel' h, List.getElem?_eq_getElem hlt, Option.map_some]
      · have hk : (((l.drop a).take k).map f).length = k := by simp; omega
        rw [if_neg (by omega), List.getElem?_append_right (by omega), hk, List.getElem?_drop,
          show a + k + (n - a - k) = n by omega, List.getElem?_eq_getElem hlt]
  · rw [List.getElem?_eq_none hle, List.getElem?_eq_none (by simp; omega), Option.map_none]

/-- The lane with a number, after a delivery. -/
theorem enteredLanes_getElem? (hfirst : 1 ≤ it.lanes.first) (n : Nat) :
    (it.enteredLanes set s (it.lanes.last + 1 - it.lanes.first))[n]? =
      set.lanes[n]?.map (fun lane => if it.lanes.contains (n + 1) then (it.offered set s lane).lane else lane) := by
  have hcontains : it.lanes.contains (n + 1) = true ↔
      it.lanes.first - 1 ≤ n ∧ n < it.lanes.first - 1 + (it.lanes.last + 1 - it.lanes.first) := by
    rw [LaneRange.contains, decide_eq_true_iff]
    omega
  simp only [hcontains]
  exact getElem?_mapRange _ _ _ _ _

/-- The lanes of a set before and after a delivery, pair by pair. -/
theorem countP_zip_entered (q : LaneRecord → LaneRecord → Bool) (hq : ∀ x, q x x = false) (k : Nat) :
    (set.lanes.zip (it.enteredLanes set s k)).countP (fun x => q x.1 x.2) =
      (it.named set k).countP (fun lane => q lane (it.offered set s lane).lane) := by
  have hsame (l : List LaneRecord) : (l.zip l).countP (fun x => q x.1 x.2) = 0 := by
    induction l with
    | nil => rfl
    | cons x rest ih => rw [List.zip_cons_cons, List.countP_cons, ih, if_neg (by rw [hq]; exact Bool.false_ne_true)]
  have hnamed (l : List LaneRecord) : (l.zip (l.map fun lane => (it.offered set s lane).lane)).countP (fun x => q x.1 x.2) =
      l.countP (fun lane => q lane (it.offered set s lane).lane) := by
    induction l with
    | nil => rfl
    | cons x rest ih => rw [List.map_cons, List.zip_cons_cons, List.countP_cons, ih, List.countP_cons]
  conv_lhs => rw [lanes_split it set k]
  rw [RegisterItem.enteredLanes, List.zip_append (by simp), List.zip_append rfl, List.countP_append, List.countP_append, hsame, hsame,
    hnamed, Nat.zero_add, Nat.add_zero]

end Delivery

/-- A record handed to the roll map enters the winding set as R53 and R85 to R89 say. -/
theorem deliverToRoll_follows {it : RegisterItem} {set : SetRecord} {s : State} (hset : s.roll.windingSet = some set)
    (hfirst : 1 ≤ it.lanes.first) (hs : s.AlertsSound) : DeliveryFollows it set s (deliverToRoll it set s) := by
  have hd := delivery_upto it set s hfirst
  have henters := delivery_enters it set s
  have hposts (k : EventKind) := State.PendsAs.of_posts (t := deliverToRoll it set s) hs
    (by rw [deliverToRoll_eq] : (deliverToRoll it set s).alerts = (s.postAll (it.delivery set s).posts).alerts) (k := k) rfl
  refine ⟨by rw [deliverToRoll_windingSet, hset]; rfl, fun set' hset' => ?_⟩
  rw [deliverToRoll_windingSet, hset, Option.map_some] at hset'
  obtain rfl := Option.some.inj hset'
  have hlanes (n : Nat) : (it.delivery set s).set.lanes[n]? =
      set.lanes[n]?.map (fun lane => if it.lanes.contains (n + 1) then (it.offered set s lane).lane else lane) := by
    rw [hd.lanes, enteredLanes_getElem? it set s hfirst]
  refine ⟨hd.keeps, ?_, fun ht => ?_, fun n _ lane hlane lane' hlane' => ?_, ?_, ?_, ?_, ?_, ?_⟩
  · rw [hd.lanes, enteredLanes_length_eq]
  · rw [hd.unplaced ht]
    congr 2
    omega
  · rw [hlanes, Option.mem_def.1 hlane, Option.map_some] at hlane'
    obtain rfl := Option.some.inj hlane'
    split
    · exact offered_takes it set s lane
    · rfl
  · have hcount := countP_contains it set
      (fun lane => it.body.kind.defectFields.isSome && decide (32 ≤ lane.defects.length)) hfirst
    rw [← count_flatMap (k := .defectDropped) (fun lane => (offered_defectDropped it set s lane).trans
      (if_congr (by rw [Bool.and_eq_true, decide_eq_true_iff]) rfl rfl)), ← hd.posts] at hcount
    have horder : (fun x : LaneRecord × Nat => it.body.kind.defectFields.isSome && it.lanes.contains x.2 &&
        decide (32 ≤ x.1.defects.length)) = fun x => it.lanes.contains x.2 &&
          (it.body.kind.defectFields.isSome && decide (32 ≤ x.1.defects.length)) :=
      funext fun x => by rw [Bool.and_assoc, Bool.and_left_comm]
    rw [horder, hcount]
    exact hposts .defectDropped
  · have hcount := countP_zip_entered it set s (fun x y => decide (x.status = .good ∧ y.status ≠ .good))
      (fun x => decide_eq_false fun h => h.2 h.1) (it.lanes.last + 1 - it.lanes.first)
    rw [← count_flatMap (k := .laneHold) (fun lane => (offered_laneHold it set s lane).trans
      (if_congr decide_eq_true_iff.symm rfl rfl)), ← hd.posts, ← hd.lanes] at hcount
    rw [hcount]
    exact hposts .laneHold
  · rw [deliverToRoll_eq]
    exact henters.items.1
  · intro hfree hle hlen hroom
    rw [deliverToRoll_eq]
    exact (hd.register hfree (by omega) hroom).trans (by rw [if_neg (by omega)])
  · rw [deliverToRoll_eq]
    rfl

end Sys2Proof.Machine
end

