-- ==== Sys2Proof/Proofs/PostLists.lean ====
section
/-! SUPPORT. Lists of posts: a kind's pending count follows how often a list names the kind, in any station records (R186), and the
station records after a step are those before it and the posts of given kinds. -/

namespace Sys2Proof.Machine

/-! ## A kind's entries in any list -/

/-- The entries of a kind before the first entry of a kind with a higher code, and those behind it. -/
def kindParts (k : EventKind) (l : List (EventKind × Nat)) : List (EventKind × Nat) × List (EventKind × Nat) :=
  ((l.takeWhile (fun e => decide (e.1.code ≤ k.code))).filter (fun e => decide (e.1 = k)),
   (l.dropWhile (fun e => decide (e.1.code ≤ k.code))).filter (fun e => decide (e.1 = k)))

theorem kindParts_cons_of_le {k : EventKind} {e : EventKind × Nat} (h : e.1.code ≤ k.code) (l : List (EventKind × Nat)) :
    kindParts k (e :: l) = ((if e.1 = k then [e] else []) ++ (kindParts k l).1, (kindParts k l).2) := by
  by_cases hk : e.1 = k <;> simp [kindParts, hk, h]

theorem kindParts_cons_of_lt {k : EventKind} {e : EventKind × Nat} (h : k.code < e.1.code) (l : List (EventKind × Nat)) :
    kindParts k (e :: l) = ([], (e :: l).filter (fun e => decide (e.1 = k))) := by
  simp [kindParts, not_le.2 h]

theorem filter_eq_kindParts (k : EventKind) (l : List (EventKind × Nat)) :
    l.filter (fun e => decide (e.1 = k)) = (kindParts k l).1 ++ (kindParts k l).2 := by
  rw [kindParts, ← List.filter_append, List.takeWhile_append_dropWhile]

theorem kindParts_bumpPending_other {k j : EventKind} (h : j ≠ k) (l : List (EventKind × Nat)) :
    kindParts k (bumpPending j l) = kindParts k l := by
  induction l with
  | nil =>
    rcases le_or_gt j.code k.code with hle | hlt
    · rw [bumpPending, kindParts_cons_of_le hle, if_neg h]
      rfl
    · rw [bumpPending, kindParts_cons_of_lt hlt, List.filter_cons_of_neg (by simpa using h)]
      rfl
  | cons e rest ih =>
    obtain ⟨i, n⟩ := e
    have hother := filter_bumpPending_other h ((i, n) :: rest)
    unfold bumpPending at hother ⊢
    by_cases hi : i = j
    · rw [if_pos hi] at hother ⊢
      rcases le_or_gt i.code k.code with hle | hlt
      · rw [kindParts_cons_of_le hle, kindParts_cons_of_le hle, if_neg (hi ▸ h), if_neg (hi ▸ h)]
      · rw [kindParts_cons_of_lt hlt, kindParts_cons_of_lt hlt, hother]
    rw [if_neg hi] at hother ⊢
    by_cases hji : j.code < i.code
    · rw [if_pos hji] at hother ⊢
      rcases le_or_gt j.code k.code with hle | hlt
      · rw [kindParts_cons_of_le hle, if_neg h, List.nil_append]
      · rw [kindParts_cons_of_lt hlt, kindParts_cons_of_lt (hlt.trans hji), hother]
    · rw [if_neg hji] at hother ⊢
      rcases le_or_gt i.code k.code with hle | hlt
      · rw [kindParts_cons_of_le hle, kindParts_cons_of_le hle, ih]
      · rw [kindParts_cons_of_lt hlt, kindParts_cons_of_lt hlt, hother]

theorem kindParts_bumpPending_self (k : EventKind) (l : List (EventKind × Nat)) :
    kindParts k (bumpPending k l) = (bumpedEntry k (kindParts k l).1, (kindParts k l).2) := by
  induction l with
  | nil => simp [kindParts, bumpPending, bumpedEntry]
  | cons e rest ih =>
    obtain ⟨i, n⟩ := e
    unfold bumpPending
    by_cases hi : i = k
    · subst hi
      rw [if_pos rfl, kindParts_cons_of_le (e := (i, holdAt 255 (n + 1))) le_rfl, kindParts_cons_of_le (e := (i, n)) le_rfl,
        if_pos rfl, if_pos rfl]
      rfl
    rw [if_neg hi]
    rcases le_or_gt i.code k.code with hle | hlt
    · rw [if_neg (not_lt.2 hle), kindParts_cons_of_le (e := (i, n)) hle, kindParts_cons_of_le (e := (i, n)) hle, ih, if_neg hi,
        List.nil_append, List.nil_append]
    · rw [if_pos hlt, kindParts_cons_of_le (e := (k, 1)) le_rfl, if_pos rfl, kindParts_cons_of_lt (e := (i, n)) hlt]
      rfl

/-! ## Posts in any station records (R186) -/

/-- A kind's entries stand alike at each station, with those of higher kinds. -/
def State.KindAlike (t : State) (k : EventKind) (s : State) : Prop :=
  ∀ p, kindParts k (t.alerts.get p).pending = kindParts k (s.alerts.get p).pending

namespace State.KindAlike

variable {t s : State} {k : EventKind}

theorem pendsAs (h : t.KindAlike k s) : t.PendsAs k s := fun p _ => by
  rw [filter_eq_kindParts, filter_eq_kindParts, h p]

theorem post_left (h : t.KindAlike k s) {j : EventKind} (hj : j ≠ k) : (t.post j).KindAlike k s := fun p => by
  rw [State.post_alerts, ByPort.get_map, Station.post_pending, kindParts_bumpPending_other hj]
  exact h p

theorem post (h : t.KindAlike k s) : (t.post k).KindAlike k (s.post k) := fun p => by
  rw [State.post_alerts, State.post_alerts, ByPort.get_map, ByPort.get_map, Station.post_pending, Station.post_pending,
    kindParts_bumpPending_self, kindParts_bumpPending_self, h p]

theorem postAll (h : t.KindAlike k s) (ks : List EventKind) : (t.postAll ks).KindAlike k (s.postTimes (ks.count k) k) := by
  induction ks generalizing t s with
  | nil => exact h
  | cons j ks ih =>
    by_cases hj : j = k
    · subst hj
      rw [List.count_cons_self]
      exact ih h.post
    · rw [List.count_cons_of_ne hj]
      exact ih (h.post_left hj)

end State.KindAlike

/-- In any station records a kind's pending count follows how often the posts name the kind. -/
theorem State.PendsAs.of_posts_any {s t : State} {ks : List EventKind} (h : t.alerts = (s.postAll ks).alerts) {k : EventKind} {n : Nat}
    (hn : ks.count k = n) : t.PendsAs k (s.postTimes n k) := by
  subst hn
  exact (State.PendsAs.of_alerts h k).trans (State.KindAlike.postAll (fun _ => rfl) ks).pendsAs

/-! ## Posts of given kinds -/

/-- The station records of `t` are those of `s` after posts of the given kinds. -/
def PostsWithin (kinds : List EventKind) (s t : State) : Prop :=
  ∃ ks : List EventKind, (∀ k ∈ ks, k ∈ kinds) ∧ t.alerts = (s.postAll ks).alerts

namespace PostsWithin

variable {kinds : List EventKind} {s t u : State}

theorem of_alerts (h : t.alerts = s.alerts) : PostsWithin kinds s t := ⟨[], by simp, h⟩

theorem trans (h : PostsWithin kinds s t) (g : PostsWithin kinds t u) : PostsWithin kinds s u := by
  obtain ⟨ks, hks, hk⟩ := h
  obtain ⟨ls, hls, hl⟩ := g
  refine ⟨ks ++ ls, fun k hm => (List.mem_append.1 hm).elim (hks k) (hls k), ?_⟩
  rw [hl, State.postAll_append, State.postAll_alerts_congr hk]

theorem mono {kinds' : List EventKind} (h : PostsWithin kinds s t) (hk : kinds ⊆ kinds') : PostsWithin kinds' s t := by
  obtain ⟨ks, hks, halerts⟩ := h
  exact ⟨ks, fun k hm => hk (hks k hm), halerts⟩

theorem pendsAs (h : PostsWithin kinds s t) {k : EventKind} (hk : k ∉ kinds) : t.PendsAs k s := by
  obtain ⟨ks, hks, halerts⟩ := h
  exact .of_posts_without halerts fun hm => hk (hks k hm)

theorem alertsSound (h : PostsWithin kinds s t) (hs : s.AlertsSound) : t.AlertsSound := by
  obtain ⟨ks, -, halerts⟩ := h
  exact (hs.postAll ks).congr halerts

theorem post {k : EventKind} (hk : k ∈ kinds) (s : State) : PostsWithin kinds s (s.post k) := ⟨[k], by simpa using hk, rfl⟩

theorem evaluate (s : State) : PostsWithin evaluationPosts s (evaluate s) := (evaluate_evaluated s).posts

theorem cancelRecordStop (r : PathRecord) (s : State) : PostsWithin evaluationPosts s (cancelRecordStop r s) := cancelRecordStop_posts r s

theorem insertStop (o : StopOffer) (s : State) : PostsWithin evaluationPosts s (insertStop o s).1 := by
  rw [insertStop_placed]
  exact (PostsWithin.of_alerts (s := s) (t := s.stopPlaced o) rfl).trans (.evaluate _)

/-- An offer posts the planner's events alone. -/
theorem offerStop (o : StopOffer) (s : State) : PostsWithin stopPosts s (offerStop o s).1 := by
  unfold Machine.offerStop
  split
  · exact (PostsWithin.insertStop o s).mono evaluationPosts_subset
  · split
    next v _ =>
      rw [removeStop_eq]
      have hevicted : PostsWithin stopPosts s ((s.stopRemoved v).post .stopDropped) :=
        (PostsWithin.of_alerts (s := s) (t := s.stopRemoved v) rfl).trans (.post (by decide) _)
      exact (hevicted.trans ((PostsWithin.evaluate _).mono evaluationPosts_subset)).trans
        ((PostsWithin.insertStop o _).mono evaluationPosts_subset)
    next =>
      unfold State.postIf
      split
      · exact .post (by decide) s
      · exact .of_alerts rfl

/-- The resolutions of a pass post what their cancellations do (R50). -/
theorem resolveDue (s : State) : PostsWithin evaluationPosts s (resolveDue s) := by
  refine resolveDue_induction (C := PostsWithin evaluationPosts s) (.of_alerts rfl) fun u r hu _ _ _ => hu.trans ?_
  cases h : lookupLanes u.plans.active r.body.xs r.body.xe with
  | trim =>
    rw [resolveRecord_of_trim h]
    exact (PostsWithin.of_alerts (s := u) (t := u.trimmedOut r) rfl).trans (.cancelRecordStop r _)
  | lanes range =>
    rw [resolveRecord_of_lanes h]
    exact .of_alerts rfl

end PostsWithin

end Sys2Proof.Machine
end

