-- ==== Sys2Proof/Proofs/MissedMarks.lean ====
section
/-! PROOFS. What a change of P makes of the mark tracker (R120, R124, R125): the missed marks it declares, and the loss. -/

namespace Sys2Proof.Machine

/-! ## Tallies (R79, R127) -/

theorem tallied_add (x a b : Nat) : tallied (tallied x a) b = tallied x (a + b) := by
  unfold tallied
  split_ifs <;> omega

theorem tallied_of_le {x : Nat} (h : x ≤ 65535) (k : Nat) : tallied x k = min (x + k) 65535 := by
  unfold tallied
  split_ifs <;> omega

/-- The record of a set after `j` missed marks (R127). -/
def SetRecord.missedTallied (j : Nat) (r : SetRecord) : SetRecord :=
  { r with repeatTally := tallied r.repeatTally j, markFaultTally := tallied r.markFaultTally j }

theorem missedTallied_comp (a b : Nat) : SetRecord.missedTallied b ∘ SetRecord.missedTallied a = SetRecord.missedTallied (a + b) := by
  funext r
  simp only [Function.comp_apply, SetRecord.missedTallied, tallied_add]

theorem RollMap.mapWinding_id (m : RollMap) : m.mapWinding (fun r => r) = m := by
  have hslot : Slot.mapWinding (fun r => r) = id := by
    funext x
    cases x <;> rfl
  have hslots : (m.mapWinding (fun r => r)).slots = m.slots := by
    rw [RollMap.mapWinding_slots, hslot, Vector.map_id]
  rw [RollMap.mapWinding] at hslots ⊢
  exact congrArg (fun x => { m with slots := x }) hslots

theorem mapWinding_missedTallied_zero (m : RollMap) : m.mapWinding (SetRecord.missedTallied 0) = m := m.mapWinding_id

/-! ## Missed marks (R124) -/

theorem afterMissed_zero (l : MarkLock) (r : Nat) : l.afterMissed r 0 = l := by
  simp [MarkLock.afterMissed]

theorem afterMissed_add (l : MarkLock) (r a b : Nat) : (l.afterMissed r a).afterMissed r b = l.afterMissed r (a + b) := by
  simp only [MarkLock.afterMissed, Nat.cast_add]
  congr 1
  · ring
  · omega

/-- The events of missed marks and of a loss (R124, R125). -/
def missedPosts (j : Nat) (lost : Bool) : List EventKind :=
  List.replicate j .markFault ++ if lost then [.markLost] else []

/-- A part whose tracker is LOCKED after `j` missed marks, the last of them the loss where `lost` says so, before the stop that a
loss may ask for (R124, R125). -/
def State.missedBy (l : MarkLock) (j : Nat) (lost : Bool) (s : State) : State :=
  { s with
    tracker := { s.tracker with
      state := if lost then .lost (l.afterMissed s.tracker.settings.expected j)
        else .locked (l.afterMissed s.tracker.settings.expected j)
      missed := tallied s.tracker.missed j
      losses := if lost then min (s.tracker.losses + 1) 65535 else s.tracker.losses }
    roll := s.roll.mapWinding (SetRecord.missedTallied j)
    alerts := (s.postAll (missedPosts j lost)).alerts }

theorem missedBy_zero {l : MarkLock} {s : State} (h : s.tracker.state = .locked l) : s.missedBy l 0 false = s := by
  rw [State.missedBy, afterMissed_zero, mapWinding_missedTallied_zero, ← h]
  rfl

theorem missedBy_missedBy (l : MarkLock) (a b : Nat) (lost : Bool) (s : State) :
    (s.missedBy l a false).missedBy (l.afterMissed s.tracker.settings.expected a) b lost = s.missedBy l (a + b) lost := by
  have hposts : missedPosts (a + b) lost = missedPosts a false ++ missedPosts b lost := by
    rw [missedPosts, List.replicate_add, List.append_assoc, missedPosts, missedPosts, if_neg Bool.false_ne_true, List.append_nil]
  have halerts : ((s.missedBy l a false).postAll (missedPosts b lost)).alerts = (s.postAll (missedPosts (a + b) lost)).alerts := by
    rw [hposts, State.postAll_append]
    exact State.postAll_alerts_congr (s := s.missedBy l a false) (t := s.postAll (missedPosts a false)) rfl _
  rw [State.missedBy, halerts]
  simp only [State.missedBy, afterMissed_add, tallied_add, RollMap.mapWinding_mapWinding, missedTallied_comp,
    Bool.false_eq_true, if_false]

/-- The stop that a loss may ask for (R125). -/
def State.lossOffered (lost : Bool) (m : State) : State :=
  if lost = true ∧ m.tracker.settings.stopOnLoss = 1 then (offerStop m.lossStop m).1 else m

theorem loseTrack_missedBy (l : MarkLock) (s : State) : loseTrack l s = (s.missedBy l 0 true).lossOffered true := by
  have hm : (s.withTracker { s.tracker with state := .lost l, losses := holdAt 65535 (s.tracker.losses + 1) }).post .markLost =
      s.missedBy l 0 true := by
    rw [State.missedBy, afterMissed_zero, mapWinding_missedTallied_zero]
    rfl
  unfold loseTrack
  rw [hm]
  by_cases hstop : s.tracker.settings.stopOnLoss = 1
  · rw [if_pos hstop]
    exact (if_pos ⟨rfl, hstop⟩).symm
  · rw [if_neg hstop]
    exact (if_neg fun h => hstop h.2).symm

theorem missMark_missedBy (l : MarkLock) (s : State) : missMark l s =
    if l.missed + 1 = s.tracker.settings.lossCount then (s.missedBy l 1 true).lossOffered true else s.missedBy l 1 false := by
  have hl : ({ l with wlast := l.wlast + s.tracker.settings.expected, missed := l.missed + 1 } : MarkLock) =
      l.afterMissed s.tracker.settings.expected 1 := by
    simp [MarkLock.afterMissed]
  have hm : (countMarkFault (countRepeat (s.withTracker { s.tracker with
      state := .locked (l.afterMissed s.tracker.settings.expected 1), missed := holdAt 65535 (s.tracker.missed + 1) }))).post .markFault =
      s.missedBy l 1 false := by
    rw [countMarkFault, countRepeat, State.mapWinding, State.mapWinding]
    dsimp only
    rw [RollMap.mapWinding_mapWinding]
    rfl
  unfold missMark
  dsimp only
  simp only [hl]
  rw [hm, loseTrack_missedBy, missedBy_missedBy]

theorem missedMarks_of_not_locked {s : State} (h : ∀ l, s.tracker.state ≠ .locked l) (fuel : Nat) : missedMarks fuel s = s := by
  cases fuel with
  | zero => rfl
  | succ n =>
    unfold missedMarks
    split
    next l hl => exact absurd hl (h l)
    next => rfl

theorem lossOffered_tracker (lost : Bool) (m : State) : (m.lossOffered lost).tracker = m.tracker := by
  unfold State.lossOffered
  split
  · simp
  · rfl

/-- The missed marks of a rise of P: one for each window end passed, until the loss count is met (R124, R125). -/
theorem missedMarks_missedBy (fuel : Nat) {l : MarkLock} {s : State} (h : s.tracker.state = .locked l) :
    ∃ j ≤ fuel, ∃ lost : Bool, missedMarks fuel s = (s.missedBy l j lost).lossOffered lost ∧
      (∀ i < j, s.windowEndPassed l s.length.p i) ∧
      (∀ i, 0 < i → i ≤ j → (l.missed + i = s.tracker.settings.lossCount ↔ lost = true ∧ i = j)) ∧ (lost = true → 0 < j) ∧
      (lost = false → j < fuel → ¬ s.windowEndPassed l s.length.p j) := by
  have hnone : s = (s.missedBy l 0 false).lossOffered false := by
    rw [missedBy_zero h]
    exact (if_neg fun h => Bool.false_ne_true h.1).symm
  induction fuel generalizing l s with
  | zero => exact ⟨0, le_rfl, false, hnone, by simp, by omega, nofun, by simp⟩
  | succ n ih =>
    have hpassed : windowPassed l s = true ↔ s.windowEndPassed l s.length.p 0 := by
      rw [windowPassed, decide_eq_true_iff, State.windowEndPassed, Nat.cast_zero, zero_mul, add_zero]
      rfl
    unfold missedMarks
    rw [h]
    dsimp only
    by_cases hw : s.windowEndPassed l s.length.p 0
    · rw [if_pos (hpassed.2 hw), missMark_missedBy]
      by_cases hloss : l.missed + 1 = s.tracker.settings.lossCount
      · rw [if_pos hloss, missedMarks_of_not_locked]
        · refine ⟨1, by omega, true, rfl, fun i hi => ?_, fun i hi hij => ?_, fun _ => Nat.one_pos, nofun⟩
          · rwa [Nat.lt_one_iff.1 hi]
          · obtain rfl : i = 1 := by omega
            simpa using hloss
        · rw [lossOffered_tracker]
          exact fun l' => TrackerState.noConfusion
      · rw [if_neg hloss]
        have hlocked : (s.missedBy l 1 false).tracker.state = .locked (l.afterMissed s.tracker.settings.expected 1) := rfl
        obtain ⟨j, hj, lost, heq, hpass, hcount, hpos, hnot⟩ := ih hlocked (by
          rw [missedBy_zero hlocked]
          exact (if_neg fun h => Bool.false_ne_true h.1).symm)
        have hnext (i : Nat) : (s.missedBy l 1 false).windowEndPassed (l.afterMissed s.tracker.settings.expected 1) s.length.p i ↔
            s.windowEndPassed l s.length.p (i + 1) := by
          have hwlast : (l.afterMissed s.tracker.settings.expected 1).wlast + (i : Int) * s.tracker.settings.expected =
              l.wlast + ((i + 1 : Nat) : Int) * s.tracker.settings.expected := by
            rw [MarkLock.afterMissed]
            push_cast
            ring
          change (l.afterMissed s.tracker.settings.expected 1).wlast + (i : Int) * s.tracker.settings.expected +
            s.tracker.settings.expected + s.tracker.settings.window ≤ (s.length.p : Int) - s.geometry.m ↔ _
          rw [hwlast]
        refine ⟨j + 1, by omega, lost, ?_, fun i hi => ?_, fun i hi hij => ?_, fun _ => Nat.succ_pos j, fun hl hlt => ?_⟩
        · rw [heq, missedBy_missedBy, Nat.add_comm 1 j]
        · cases i with
          | zero => exact hw
          | succ i => exact (hnext i).1 (hpass i (by omega))
        · cases i with
          | zero => exact absurd hi (lt_irrefl 0)
          | succ i =>
            rcases Nat.eq_zero_or_pos i with rfl | hipos
            · refine ⟨fun heq => absurd heq hloss, fun ⟨hl, h1⟩ => ?_⟩
              have := hpos hl
              omega
            · have := hcount i hipos (by omega)
              rw [show l.missed + (i + 1) = (l.afterMissed s.tracker.settings.expected 1).missed + i by
                simp only [MarkLock.afterMissed]; omega, Nat.succ_inj]
              exact this
        · exact fun hend => hnot hl (by omega) ((hnext j).2 hend)
    · rw [if_neg fun h => hw (hpassed.1 h)]
      exact ⟨0, Nat.zero_le _, false, hnone, by simp, by omega, nofun, fun _ _ => hw⟩

/-! ## The tracker at a change of P (R120, R124) -/

/-- A part with the travel sense of a change of P (R120). -/
def State.sensed (old : Nat) (s : State) : State :=
  s.withTracker { s.tracker with sense := if old < s.length.p then .forward else .reverse }

theorem trackChange_eq (old : Nat) (s : State) :
    trackChange old s = if old < s.length.p then missedMarks 15 (s.sensed old) else s.sensed old := by
  unfold State.sensed
  by_cases hp : old < s.length.p
  · rw [if_pos hp, if_pos hp]
    exact if_pos hp
  · rw [if_neg hp, if_neg hp]
    exact if_neg hp

theorem trackChange_of_still {old : Nat} {s : State} (h : s.length.p ≤ old ∨ ∀ l, s.tracker.state ≠ .locked l) :
    trackChange old s = s.sensed old := by
  rw [trackChange_eq]
  split
  next hp => exact missedMarks_of_not_locked (s := s.sensed old) (h.resolve_left (not_le.2 hp)) 15
  next => rfl

/-- What a change of P makes of the part at the tracker: a part with missed marks counted, and the stop of a loss (R124, R125). -/
theorem trackChange_of_locked {old : Nat} {s : State} {l : MarkLock} (hp : old < s.length.p) (h : s.tracker.state = .locked l) :
    ∃ j < 16, ∃ lost : Bool, trackChange old s = ((s.sensed old).missedBy l j lost).lossOffered lost ∧
      (∀ i < j, s.windowEndPassed l s.length.p i) ∧
      (∀ i, 0 < i → i ≤ j → (l.missed + i = s.tracker.settings.lossCount ↔ lost = true ∧ i = j)) ∧ (lost = true → 0 < j) ∧
      (lost = false → j < 15 → ¬ s.windowEndPassed l s.length.p j) := by
  have htrack : trackChange old s = missedMarks 15 (s.sensed old) := by
    rw [trackChange_eq, if_pos hp]
  obtain ⟨j, hj, lost, heq, hrest⟩ := missedMarks_missedBy 15 (s := s.sensed old) h
  exact ⟨j, Nat.lt_succ_of_le hj, lost, htrack.trans heq, hrest⟩

end Sys2Proof.Machine
end

