-- ==== Sys2Proof/Proofs/IdsGivenUp.lean ====
section
/-! PROOFS. The change count of the path queue at a change of P (R181): one change for each stop entry id given up, beside those of the
records that reach the knife line and the nip. -/

namespace Sys2Proof.Machine

/-! ## Changes and ids -/

/-- From one queue to the next the change count rises by `n` and by 1 for each id given up, which are all the ids that are gone where
`exact` holds (R72, R181). -/
def IdsCounted (exact : Prop) (n : Nat) (q q' : PathQueue) : Prop :=
  ∃ cleared : Nat, cleared + q'.idsHeld ≤ q.idsHeld ∧ (exact → cleared + q'.idsHeld = q.idsHeld) ∧
    q'.changes % 65536 = (q.changes + n + cleared) % 65536

/-- The record numbers of a queue. -/
def PathQueue.numbers (q : PathQueue) : List Nat := q.records.map (·.body.number)

namespace IdsCounted

variable {exact : Prop} {n k : Nat} {q q' q'' : PathQueue}

theorem refl (exact : Prop) (q : PathQueue) : IdsCounted exact 0 q q := ⟨0, by omega, fun _ => by omega, rfl⟩

theorem trans (h : IdsCounted exact n q q') (g : IdsCounted exact k q' q'') : IdsCounted exact (n + k) q q'' := by
  obtain ⟨c, hle, heq, hc⟩ := h
  obtain ⟨c', hle', heq', hc'⟩ := g
  exact ⟨c + c', by omega, fun he => by have := heq he; have := heq' he; omega, by omega⟩

theorem mono {exact' : Prop} (h : IdsCounted exact n q q') (he : exact' → exact) : IdsCounted exact' n q q' := by
  obtain ⟨c, hle, heq, hc⟩ := h
  exact ⟨c, hle, fun h => heq (he h), hc⟩

/-- Changes with no id given up on the way. -/
theorem of_changes (hids : q'.idsHeld ≤ q.idsHeld) (he : exact → q'.idsHeld = q.idsHeld)
    (hc : q'.changes % 65536 = (q.changes + n) % 65536) : IdsCounted exact n q q' :=
  ⟨0, by omega, fun h => by rw [he h, Nat.zero_add], hc⟩

end IdsCounted

/-! ## Steps of the planner -/

theorem countP_of_nodup_number {l : List PathRecord} (h : (l.map (·.body.number)).Nodup) {p : PathRecord → Bool} {n : Nat}
    (hp : ∀ r, p r = true → r.body.number = n) : l.countP p ≤ 1 := by
  have hle : l.countP p ≤ (l.map (·.body.number)).count n := by
    rw [List.count, List.countP_map]
    exact List.countP_mono_left fun r _ hr => by simpa using hp r hr
  exact hle.trans (List.nodup_iff_count_le_one.1 h n)

theorem countP_clearedFrom (e : StopEntry) (l : List PathRecord) :
    (l.map e.clearedFrom).countP (fun r => r.stopId.isSome) +
      l.countP (fun r => decide (e.ref = .record r.body.number ∧ r.stopId = some e.id)) = l.countP (fun r => r.stopId.isSome) := by
  induction l with
  | nil => rfl
  | cons r rest ih =>
    rw [List.map_cons, List.countP_cons, List.countP_cons, List.countP_cons]
    by_cases h : e.ref = .record r.body.number ∧ r.stopId = some e.id
    · simp only [StopEntry.clearedFrom, h, and_self, if_true, Option.isSome_none, Option.isSome_some, decide_true,
        Bool.false_eq_true, if_false] at ih ⊢
      omega
    · simp only [StopEntry.clearedFrom, h, if_false, decide_false, Bool.false_eq_true] at ih ⊢
      omega

theorem IdsCounted.stopRemoved (e : StopEntry) (s : State) :
    IdsCounted s.queue.numbers.Nodup 0 s.queue (s.stopRemoved e).queue := by
  have hcount := countP_clearedFrom e s.queue.records
  have hheld : e.heldIn s.queue = true ↔
      0 < s.queue.records.countP (fun r => decide (e.ref = .record r.body.number ∧ r.stopId = some e.id)) := by
    rw [StopEntry.heldIn, List.any_eq_true, List.countP_pos_iff]
  have hids : (s.stopRemoved e).queue.idsHeld = (s.queue.records.map e.clearedFrom).countP (fun r => r.stopId.isSome) := by
    rw [PathQueue.idsHeld, stopRemoved_records]
  have hchanges : (s.stopRemoved e).queue.changes =
      if e.heldIn s.queue then (s.queue.changes + 1) % 65536 else s.queue.changes := rfl
  rw [IdsCounted, hids, hchanges, PathQueue.idsHeld]
  by_cases h : e.heldIn s.queue = true
  · have hpos := hheld.1 h
    refine ⟨1, by omega, fun hn => ?_, by rw [if_pos h]; omega⟩
    obtain ⟨r, -, hr⟩ := List.countP_pos_iff.1 hpos
    have hone := countP_of_nodup_number hn (p := fun r => decide (e.ref = .record r.body.number ∧ r.stopId = some e.id))
      (n := r.body.number) fun x hx => by
        have := (of_decide_eq_true hr).1.symm.trans (of_decide_eq_true hx).1
        exact (StopRef.record.inj this).symm
    omega
  · have hzero := Nat.eq_zero_of_not_pos fun hpos => h (hheld.2 hpos)
    exact ⟨0, by omega, fun _ => by omega, by rw [if_neg h]; omega⟩

/-- What the planner's steps do to the queue: ids given up, each counted, and no record's number changed. -/
def IdsGivenUp (s t : State) : Prop :=
  t.queue.numbers = s.queue.numbers ∧ IdsCounted s.queue.numbers.Nodup 0 s.queue t.queue

namespace IdsGivenUp

variable {s t u : State}

theorem of_queue (h : t.queue = s.queue) : IdsGivenUp s t := by
  rw [IdsGivenUp, h]
  exact ⟨rfl, .refl _ _⟩

theorem trans (h : IdsGivenUp s t) (g : IdsGivenUp t u) : IdsGivenUp s u :=
  ⟨g.1.trans h.1, h.2.trans (g.2.mono fun hn => h.1 ▸ hn)⟩

theorem stopRemoved (e : StopEntry) (s : State) : IdsGivenUp s (s.stopRemoved e) := by
  refine ⟨?_, .stopRemoved e s⟩
  rw [PathQueue.numbers, stopRemoved_records, List.map_map]
  exact List.map_congr_left fun r _ => by rw [Function.comp_apply, clearedFrom_body]

theorem evalStep (h : EvalStep s t) : IdsGivenUp s t := by
  cases h with
  | activate => exact .of_queue (by rw [activateStop_eq])
  | overrun => exact .of_queue (by simp)
  | complete =>
    rw [completeStop_eq_withLastStop]
    exact (stopRemoved _ s).trans (.of_queue rfl)

theorem evaluate (s : State) : IdsGivenUp s (evaluate s) := by
  have hsteps (t : State) (h : EvalSteps s t) : IdsGivenUp s t := by
    induction h with
    | refl => exact .of_queue rfl
    | tail _ hstep ih => exact ih.trans (.evalStep hstep)
  exact hsteps _ (evaluate_evalSteps s)

theorem cancelRecordStop (r : PathRecord) (s : State) : IdsGivenUp s (cancelRecordStop r s) := by
  unfold Machine.cancelRecordStop
  split
  · exact .of_queue rfl
  · unfold Machine.cancelStopId
    split
    · exact .of_queue rfl
    next e _ =>
      rw [removeStop_eq]
      exact (stopRemoved e s).trans (.evaluate _)

/-- An offer with no reference gives no record an id. -/
theorem insertStop {o : StopOffer} (ho : o.ref = .nothing) (s : State) : IdsGivenUp s (insertStop o s).1 := by
  rw [insertStop_placed]
  refine IdsGivenUp.trans (of_queue (t := s.stopPlaced o) ?_) (.evaluate _)
  exact withStopId_none _ (by simp [ho])

theorem offerStop {o : StopOffer} (ho : o.ref = .nothing) (s : State) : IdsGivenUp s (offerStop o s).1 := by
  unfold Machine.offerStop
  split
  · exact .insertStop ho s
  · split
    next v _ =>
      rw [removeStop_eq]
      exact (((stopRemoved v s).trans (of_queue (t := (s.stopRemoved v).post .stopDropped) rfl)).trans (.evaluate _)).trans
        (.insertStop ho _)
    next =>
      unfold State.postIf
      split
      · exact .of_queue rfl
      · exact .of_queue rfl

end IdsGivenUp

/-! ## The tracker (R124, R125) -/

theorem lossOffered_idsGivenUp (lost : Bool) (m : State) : IdsGivenUp m (m.lossOffered lost) := by
  unfold State.lossOffered
  split
  · exact .offerStop rfl m
  · exact .of_queue rfl

theorem trackChange_idsGivenUp (old : Nat) (s : State) : IdsGivenUp s (trackChange old s) := by
  rcases le_or_gt s.length.p old with hp | hp
  · rw [trackChange_of_still (.inl hp)]
    exact .of_queue rfl
  · by_cases h : ∃ l, s.tracker.state = .locked l
    · obtain ⟨l, hl⟩ := h
      obtain ⟨j, -, lost, heq, -⟩ := trackChange_of_locked hp hl
      rw [heq]
      exact (IdsGivenUp.of_queue (t := (s.sensed old).missedBy l j lost) rfl).trans (lossOffered_idsGivenUp _ _)
    · rw [trackChange_of_still (.inr (not_exists.1 h))]
      exact .of_queue rfl

/-! ## The knife line (R50, R67) -/

theorem length_leave {l : List PathRecord} (hn : (l.map (·.joined)).Nodup) {r : PathRecord} (hr : r ∈ l) :
    (l.filter (fun x => decide (x.joined ≠ r.joined))).length + 1 = l.length := by
  have hmap : (l.filter (fun x => decide (x.joined ≠ r.joined))).map (·.joined) = (l.map (·.joined)).erase r.joined := by
    rw [hn.erase_eq_filter, List.filter_map]
    congr 2
    funext x
    simp [bne, beq_eq_decide]
  have hlength := congrArg List.length hmap
  rw [List.length_map, List.length_erase_of_mem (List.mem_map_of_mem hr), List.length_map] at hlength
  have := List.length_pos_of_mem hr
  omega

theorem idsHeld_leave_le (q : PathQueue) (r : PathRecord) : (q.leave r).idsHeld ≤ q.idsHeld :=
  List.filter_sublist.countP_le

theorem resolveRecord_idsCounted (r : PathRecord) (s : State) : IdsCounted
    (lookupLanes s.plans.active r.body.xs r.body.xe ≠ .trim) 1 s.queue (resolveRecord r s).queue := by
  cases h : lookupLanes s.plans.active r.body.xs r.body.xe with
  | trim =>
    rw [resolveRecord_of_trim h]
    have hleave : IdsCounted (Lookup.trim ≠ .trim) 1 s.queue (s.trimmedOut r).queue :=
      .of_changes (idsHeld_leave_le s.queue r) (fun h => absurd rfl h) (by
        rw [show (s.trimmedOut r).queue.changes = (s.queue.changes + 1) % 65536 from rfl, Nat.mod_mod])
    exact hleave.trans ((IdsGivenUp.cancelRecordStop r (s.trimmedOut r)).2.mono fun h => absurd rfl h)
  | lanes range =>
    rw [resolveRecord_of_lanes h, slitRecord_eq]
    have hids : (s.queue.records.map (fun x => if x.joined = r.joined then { x with slit := some range } else x)).countP
        (fun x => x.stopId.isSome) = s.queue.idsHeld := by
      rw [List.countP_map, PathQueue.idsHeld]
      refine List.countP_congr fun x _ => ?_
      rw [Function.comp_apply]
      split <;> rfl
    exact .of_changes hids.le (fun _ => hids) (by
      rw [PathQueue.changed_changes, wrap16, Nat.mod_mod])

theorem trimmedAt_false_resolveRecord {b s : State} {r : PathRecord} (hr : lookupLanes s.plans.active r.body.xs r.body.xe ≠ .trim)
    {p : Nat} (h : ∀ x ∈ s.queue.records, b.trimmedAt p x = false) :
    ∀ x ∈ (resolveRecord r s).queue.records, b.trimmedAt p x = false := by
  cases hl : lookupLanes s.plans.active r.body.xs r.body.xe with
  | trim => exact absurd hl hr
  | lanes range =>
    rw [resolveRecord_of_lanes hl, slitRecord_eq]
    intro x hx
    obtain ⟨y, hy, rfl⟩ := List.mem_map.1 hx
    split
    · rfl
    · exact h y hy

/-- The pass at the knife line: a change for each record due, and one for each id given up (R67, R181). -/
theorem resolveDue_idsCounted {s : State} (hn : (s.queue.records.map (·.joined)).Nodup) :
    IdsCounted (∀ r ∈ s.queue.records, s.trimmedAt s.length.p r = false) (s.queue.records.countP s.dueAtKnives) s.queue
      (resolveDue s).queue := by
  have hpass : ∃ k, k + ((resolveDue s).queue.records.filter s.dueAtKnives).length = (s.queue.records.filter s.dueAtKnives).length ∧
      IdsCounted (∀ r ∈ s.queue.records, s.trimmedAt s.length.p r = false) k s.queue (resolveDue s).queue := by
    refine (resolveDue_induction (s := s) (C := fun u => (u.queue.records.map (·.joined)).Nodup ∧ u.dueAtKnives = s.dueAtKnives ∧
      ((∀ r ∈ s.queue.records, s.trimmedAt s.length.p r = false) → ∀ r ∈ u.queue.records, s.trimmedAt s.length.p r = false) ∧
      ∃ k, k + (u.queue.records.filter s.dueAtKnives).length = (s.queue.records.filter s.dueAtKnives).length ∧
        IdsCounted (∀ r ∈ s.queue.records, s.trimmedAt s.length.p r = false) k s.queue u.queue)
      ⟨hn, rfl, id, 0, Nat.zero_add _, .refl _ _⟩ ?_).2.2.2
    rintro u r ⟨hnu, heq, hnone, k, hk, hcounted⟩ hr hdue hplans
    have hnot (h : ∀ x ∈ s.queue.records, s.trimmedAt s.length.p x = false) :
        lookupLanes u.plans.active r.body.xs r.body.xe ≠ .trim := fun htrim => by
      rw [hplans] at htrim
      exact absurd (trimmedAt_iff.2 ⟨hdue, htrim⟩) (by rw [hnone h r hr]; exact Bool.false_ne_true)
    have hleft := length_leave (l := u.queue.records.filter s.dueAtKnives) (hnu.sublist (List.filter_sublist.map _))
      (List.mem_filter.2 ⟨hr, hdue⟩)
    have hone := resolveRecord_due_length r u
    rw [heq] at hone
    refine ⟨resolveRecord_nodup hnu r, (resolveRecord_dueAtKnives r u).trans heq, fun h => trimmedAt_false_resolveRecord (hnot h) (hnone h), k + 1, ?_,
      hcounted.trans ((resolveRecord_idsCounted r u).mono hnot)⟩
    omega
  obtain ⟨k, hk, hcounted⟩ := hpass
  rw [List.filter_eq_nil_iff.2 fun r hr => by rw [resolveDue_none_due s r hr]; exact Bool.false_ne_true, List.length_nil,
    Nat.add_zero] at hk
  rw [List.countP_eq_length_filter, ← hk]
  exact hcounted

/-! ## The nip (R68, R69) -/

/-- The records that a pass at the nip takes out: the due ones, none while a cut is open (R68, R69). -/
def State.dueNow (s : State) : List PathRecord := if s.job.state.isCutOpen then [] else s.queue.records.filter s.dueAtNip

/-- A pass at the nip, in a cut and outside one. -/
theorem deliverDue_dueNow {s : State} (hn : (s.queue.records.map (·.joined)).Nodup) : deliverDue s =
    { s.deliverAll s.dueNow with queue := s.queue.handOverAll s.roll.windingSet.isSome s.dueNow } := by
  cases hcut : s.job.state.isCutOpen with
  | true => rw [State.dueNow, deliverDue, hcut]; rfl
  | false => rw [State.dueNow, deliverDue_eq hn hcut, hcut]; rfl

theorem deliverDue_idsCounted {s : State} (hn : (s.queue.records.map (·.joined)).Nodup) :
    IdsCounted (s.dueNow = []) s.dueNow.length s.queue (deliverDue s).queue := by
  rw [deliverDue_dueNow hn]
  refine .of_changes ?_ (fun h => ?_) (handOverAll_changes _ _ _)
  · rw [PathQueue.idsHeld, handOverAll_records]
    exact List.filter_sublist.countP_le
  · rw [h]
    rfl

end Sys2Proof.Machine
end

