-- ==== Sys2Proof/Proofs/ChangesOfP.lean ====
section
/-! PROOFS. A change of P through the blocks (R14; log entry 13): what the tracker, the knife line and the nip make of the queue and of
its flow counters (R50, R67, R68, R73). -/

namespace Sys2Proof.Machine

/-! ## The tracker's part -/

/-- A part after the tracker's turn at a change of P, before the stop that a loss may ask for (R124, R125, R127). -/
structure Tracked (s m : State) (lost : Bool) : Prop where
  frame : m = { s with
    tracker := m.tracker
    roll := s.roll.mapWinding (SetRecord.missedTallied (m.tracker.state.missed - s.tracker.state.missed))
    alerts := m.alerts }
  posts : PostsWithin [.markFault, .markLost] s m
  lost_iff : lost = true ↔ m.tracker.state.isLost = true ∧ s.tracker.state.isLost = false
  settings : m.tracker.settings = s.tracker.settings

theorem sensed_tracked (old : Nat) (s : State) : Tracked s (s.sensed old) false where
  frame := by
    have hmissed : (s.sensed old).tracker.state.missed - s.tracker.state.missed = 0 := Nat.sub_self _
    rw [hmissed, mapWinding_missedTallied_zero]
    rfl
  posts := .of_alerts rfl
  lost_iff := by
    change false = true ↔ s.tracker.state.isLost = true ∧ _
    simp
  settings := rfl

theorem missedBy_tracked {s : State} {l : MarkLock} (h : s.tracker.state = .locked l) (old j : Nat) (lost : Bool) :
    Tracked s ((s.sensed old).missedBy l j lost) lost where
  frame := by
    have hmissed : ((s.sensed old).missedBy l j lost).tracker.state.missed - s.tracker.state.missed = j := by
      have hafter : ((s.sensed old).missedBy l j lost).tracker.state.missed = l.missed + j := by
        cases lost <;> rfl
      rw [hafter, h]
      exact Nat.add_sub_cancel_left _ _
    rw [hmissed]
    rfl
  posts := by
    refine ⟨missedPosts j lost, fun k hk => ?_, State.postAll_alerts_congr (s := s.sensed old) (t := s) rfl _⟩
    rcases List.mem_append.1 hk with hk | hk
    · rw [List.eq_of_mem_replicate hk]
      decide
    · cases lost
      · exact absurd hk List.not_mem_nil
      · rw [List.mem_singleton.1 hk]
        decide
  lost_iff := by
    rw [h]
    cases lost
    · exact ⟨nofun, fun h => nomatch h.1⟩
    · exact ⟨fun _ => ⟨rfl, rfl⟩, fun _ => rfl⟩
  settings := rfl

theorem trackChange_tracked (old : Nat) (s : State) : ∃ (m : State) (lost : Bool),
    trackChange old s = m.lossOffered lost ∧ Tracked s m lost := by
  have hstill (h : s.length.p ≤ old ∨ ∀ l, s.tracker.state ≠ .locked l) : ∃ (m : State) (lost : Bool),
      trackChange old s = m.lossOffered lost ∧ Tracked s m lost :=
    ⟨s.sensed old, false, (trackChange_of_still h).trans (if_neg fun h => Bool.false_ne_true h.1).symm, sensed_tracked old s⟩
  rcases le_or_gt s.length.p old with hp | hp
  · exact hstill (.inl hp)
  · by_cases h : ∃ l, s.tracker.state = .locked l
    · obtain ⟨l, hl⟩ := h
      obtain ⟨j, -, lost, heq, -⟩ := trackChange_of_locked hp hl
      exact ⟨_, lost, heq, missedBy_tracked hl old j lost⟩
    · exact hstill (.inr (not_exists.1 h))

theorem lossOffered_plannerOnly (lost : Bool) (m : State) : PlannerOnly m (m.lossOffered lost) := by
  unfold State.lossOffered
  split
  · exact .offerStop _ m
  · exact .refl m

namespace Tracked

variable {s m : State} {lost : Bool} (h : Tracked s m lost)
include h

theorem queue : m.queue = s.queue := by rw [h.frame]

theorem lossOffered_frame : (m.lossOffered lost).tracker = m.tracker ∧ (m.lossOffered lost).roll = m.roll ∧
    (m.lossOffered lost).geometry = s.geometry ∧ (m.lossOffered lost).length = s.length ∧
    (m.lossOffered lost).plans = s.plans ∧ (m.lossOffered lost).job = s.job ∧ (m.lossOffered lost).motion = s.motion := by
  rw [(lossOffered_plannerOnly lost m).frame]
  refine ⟨rfl, rfl, ?_⟩
  rw [h.frame]
  exact ⟨rfl, rfl, rfl, rfl, rfl⟩

theorem lossOffered_queue : (m.lossOffered lost).queue.records.map PathRecord.bare = s.queue.records.map PathRecord.bare ∧
    (m.lossOffered lost).queue.flow = s.queue.flow := by
  have honly := lossOffered_plannerOnly lost m
  refine ⟨?_, ?_⟩
  · rw [honly.records, h.queue]
  · rw [honly.queue, h.queue]

theorem lossOffered_posts : PostsWithin (.markFault :: .markLost :: stopPosts) s (m.lossOffered lost) := by
  refine (h.posts.mono (by decide)).trans ?_
  unfold State.lossOffered
  split
  · exact (PostsWithin.offerStop _ m).mono (by decide)
  · exact .of_alerts rfl

end Tracked

/-! ## Records but for their stop entry ids -/

theorem map_of_bare {α : Type} {f : PathRecord → α} (hf : ∀ r, f r.bare = f r) {l l' : List PathRecord}
    (h : l.map PathRecord.bare = l'.map PathRecord.bare) : l.map f = l'.map f := by
  have := congrArg (List.map f) h
  rwa [List.map_map, List.map_map, show f ∘ PathRecord.bare = f from funext hf] at this

theorem countP_of_bare {p : PathRecord → Bool} (hp : ∀ r, p r.bare = p r) {l l' : List PathRecord}
    (h : l.map PathRecord.bare = l'.map PathRecord.bare) : l.countP p = l'.countP p := by
  have := congrArg (List.countP id) (map_of_bare hp h)
  rwa [List.countP_map, List.countP_map] at this

/-! ## The knife line (R50, R67) -/

/-- The record of a set after `k` records in trim (R50). -/
def SetRecord.trimTallied (k : Nat) (r : SetRecord) : SetRecord := { r with trimTally := tallied r.trimTally k }

theorem trimTallied_comp (a b : Nat) : SetRecord.trimTallied b ∘ SetRecord.trimTallied a = SetRecord.trimTallied (a + b) := by
  funext r
  simp only [Function.comp_apply, SetRecord.trimTallied, tallied_add]

/-- `k` records in trim have left a part: each lowers the queue by one record, and is counted and tallied (R50, R73). -/
structure TrimmedOff (k : Nat) (s t : State) : Prop where
  left : t.queue.records.length + k = s.queue.records.length
  roll : t.roll = s.roll.mapWinding (SetRecord.trimTallied k)
  flow : t.queue.flow = { s.queue.flow with trimmed := t.queue.flow.trimmed }
  trimmed : t.queue.flow.trimmed % 4294967296 = (s.queue.flow.trimmed + k) % 4294967296

theorem TrimmedOff.refl (s : State) : TrimmedOff 0 s s where
  left := rfl
  roll := s.roll.mapWinding_id.symm
  flow := rfl
  trimmed := rfl

theorem TrimmedOff.resolveRecord {s u : State} {k : Nat} (h : TrimmedOff k s u) (hn : (u.queue.records.map (·.joined)).Nodup)
    {r : PathRecord} (hr : r ∈ u.queue.records) : ∃ k', TrimmedOff k' s (resolveRecord r u) := by
  obtain ⟨hleft, hroll, hflow, htrimmed⟩ := h
  cases hl : lookupLanes u.plans.active r.body.xs r.body.xe with
  | lanes range =>
    rw [resolveRecord_of_lanes hl, slitRecord_eq]
    exact ⟨k, (congrArg (· + k) (List.length_map _)).trans hleft, hroll, hflow, htrimmed⟩
  | trim =>
    rw [resolveRecord_of_trim hl]
    have honly := PlannerOnly.cancelRecordStop r (u.trimmedOut r)
    have hone := length_leave hn hr
    have hq : (cancelRecordStop r (u.trimmedOut r)).queue.flow = u.queue.flow.addTrimmed 1 := by
      rw [honly.queue]
      rfl
    refine ⟨k + 1, ?_, ?_, ?_, ?_⟩
    · have hlength : (cancelRecordStop r (u.trimmedOut r)).queue.records.length =
          (u.queue.records.filter (fun x => decide (x.joined ≠ r.joined))).length := honly.length
      omega
    · have hone : (cancelRecordStop r (u.trimmedOut r)).roll = u.roll.mapWinding (SetRecord.trimTallied 1) := by
        rw [honly.frame]
        rfl
      rw [hone, hroll, RollMap.mapWinding_mapWinding, trimTallied_comp]
    · rw [hq, hflow]
      rfl
    · rw [hq, show (u.queue.flow.addTrimmed 1).trimmed = (u.queue.flow.trimmed + 1) % 4294967296 from rfl]
      omega

/-- The pass at the knife line: each record in trim leaves, counted and tallied (R50, R67, R73). -/
theorem resolveDue_trimmedOff {s : State} (hn : (s.queue.records.map (·.joined)).Nodup) :
    TrimmedOff (s.queue.records.countP (s.trimmedAt s.length.p)) s (resolveDue s) := by
  obtain ⟨k, hk⟩ := (resolveDue_induction (s := s) (C := fun u => (u.queue.records.map (·.joined)).Nodup ∧ ∃ k, TrimmedOff k s u)
    ⟨hn, 0, .refl s⟩ fun u r ⟨hnu, k, hk⟩ hr _ _ => ⟨resolveRecord_nodup hnu r, hk.resolveRecord hnu hr⟩).2
  have hlength := congrArg List.length (resolveDue_records hn)
  rw [List.length_map, List.length_map, State.resolvedRecords, List.length_map, ← List.countP_eq_length_filter] at hlength
  have hsplit := List.length_eq_countP_add_countP (s.trimmedAt s.length.p) (l := s.queue.records)
  have hnot : s.queue.records.countP (fun r => decide ¬ s.trimmedAt s.length.p r = true) =
      s.queue.records.countP (fun r => !s.trimmedAt s.length.p r) :=
    List.countP_congr fun r _ => by simp
  have hleft := hk.left
  obtain rfl : k = s.queue.records.countP (s.trimmedAt s.length.p) := by omega
  exact hk

/-! ## The nip (R68, R69) -/

theorem lanesAt_of_trimmed {s : State} {p : Nat} {r : PathRecord} (h : s.trimmedAt p r = true) : s.lanesAt p r = none := by
  rw [State.trimmedAt, Bool.and_eq_true, Bool.and_eq_true, decide_eq_true_iff, decide_eq_true_iff, Option.isNone_iff_eq_none] at h
  obtain ⟨⟨hslit, hweb⟩, htrim⟩ := h
  rw [State.lanesAt, if_pos ⟨hslit, hweb⟩, htrim]

theorem takenOutAt_eq (s : State) (r : PathRecord) : s.takenOutAt s.length.p r =
    (!s.job.state.isCutOpen && s.dueAtNip { r with slit := s.lanesAt s.length.p r }) := by
  rw [State.takenOutAt, Bool.and_assoc]
  rfl

theorem not_trimmedAt_of_takenOutAt {s : State} {p : Nat} {r : PathRecord} (h : s.takenOutAt p r = true) :
    s.trimmedAt p r = false := by
  by_contra htrim
  rw [State.takenOutAt, lanesAt_of_trimmed (by simpa using htrim)] at h
  simp at h

/-- The records that a change of P takes out at the nip, with their lanes (R68). -/
def State.dueAtChange (s : State) : List PathRecord :=
  (s.queue.records.filter (s.takenOutAt s.length.p)).map (fun r => { r with slit := s.lanesAt s.length.p r })

theorem dueAtChange_length (s : State) : s.dueAtChange.length = s.queue.records.countP (s.takenOutAt s.length.p) := by
  rw [State.dueAtChange, List.length_map, List.countP_eq_length_filter]

/-- What resolution leaves, parted at the nip. -/
theorem resolvedRecords_filter (s : State) (l : List PathRecord) :
    (s.resolvedRecords l).filter (fun r => !s.job.state.isCutOpen && s.dueAtNip r) =
      (l.filter (s.takenOutAt s.length.p)).map (fun r => { r with slit := s.lanesAt s.length.p r }) ∧
    (s.resolvedRecords l).filter (fun r => !(!s.job.state.isCutOpen && s.dueAtNip r)) =
      (l.filter (fun r => !s.trimmedAt s.length.p r && !s.takenOutAt s.length.p r)).map
        (fun r => { r with slit := s.lanesAt s.length.p r }) := by
  rw [State.resolvedRecords, List.filter_map, List.filter_map, List.filter_filter, List.filter_filter]
  refine ⟨congrArg _ (List.filter_congr fun r _ => ?_), congrArg _ (List.filter_congr fun r _ => ?_)⟩
  · rw [Function.comp_apply, ← takenOutAt_eq]
    cases hout : s.takenOutAt s.length.p r
    · rfl
    · rw [not_trimmedAt_of_takenOutAt hout]
      rfl
  · rw [Function.comp_apply, ← takenOutAt_eq, Bool.and_comm]

/-- A part at the nip whose queue is that of `s` resolved. -/
structure Resolved (s b : State) : Prop where
  records : b.queue.records.map PathRecord.bare = (s.resolvedRecords s.queue.records).map PathRecord.bare
  geometry : b.geometry = s.geometry
  length : b.length = s.length
  job : b.job = s.job

namespace Resolved

variable {s b : State} (h : Resolved s b)
include h

theorem joined_nodup (hn : (s.queue.records.map (·.joined)).Nodup) : (b.queue.records.map (·.joined)).Nodup := by
  rw [map_of_bare (f := fun r => r.joined) (fun _ => rfl) h.records, State.resolvedRecords, List.map_map]
  exact hn.sublist (List.filter_sublist.map _)

theorem dueNow_eq : b.dueNow = b.queue.records.filter (fun r => !s.job.state.isCutOpen && s.dueAtNip r) := by
  rw [State.dueNow, dueAtNip_congr h.geometry h.length, h.job]
  cases s.job.state.isCutOpen
  · rfl
  · simp

theorem filter_bare {q : PathRecord → Bool} (hq : ∀ r, q r.bare = q r) :
    (b.queue.records.filter q).map PathRecord.bare = ((s.resolvedRecords s.queue.records).filter q).map PathRecord.bare := by
  rw [← filter_map_bare hq, ← filter_map_bare hq, h.records]

/-- The records handed over are those of the change, but for their stop entry ids. -/
theorem dueNow_bare : b.dueNow.map PathRecord.bare = s.dueAtChange.map PathRecord.bare := by
  rw [h.dueNow_eq, h.filter_bare fun _ => rfl, (resolvedRecords_filter s _).1]
  rfl

theorem dueNow_length : b.dueNow.length = s.queue.records.countP (s.takenOutAt s.length.p) := by
  have := congrArg List.length h.dueNow_bare
  rwa [List.length_map, List.length_map, dueAtChange_length] at this

/-- The records that stay. -/
theorem deliverDue_bare (hn : (s.queue.records.map (·.joined)).Nodup) : (deliverDue b).queue.records.map PathRecord.bare =
    ((s.queue.records.filter (fun r => !s.trimmedAt s.length.p r && !s.takenOutAt s.length.p r)).map
      (fun r => { r with slit := s.lanesAt s.length.p r })).map PathRecord.bare := by
  have hrecords : (deliverDue b).queue.records =
      b.queue.records.filter (fun r => !(!s.job.state.isCutOpen && s.dueAtNip r)) := by
    cases hcut : s.job.state.isCutOpen with
    | true => rw [deliverDue, h.job, hcut, if_pos rfl]; simp
    | false =>
      rw [deliverDue_records (h.joined_nodup hn) (by rw [h.job, hcut]), dueAtNip_congr h.geometry h.length]
      rfl
  rw [hrecords, h.filter_bare fun _ => rfl, (resolvedRecords_filter s _).2]

end Resolved

/-! ## The stages of a change of P -/

/-- A change of P up to the knife line. -/
def State.atKnives (old : Nat) (s : State) : State := resolveDue (trackChange old s)

/-- A change of P up to the nip. -/
def State.atNip (old : Nat) (s : State) : State := deliverDue (s.atKnives old)

/-- A change of P up to the winding test (R91). -/
def State.atWinding (old : Nat) (s : State) : State :=
  if (s.atNip old).job.state = .winding then windingTest (s.atNip old) else s.atNip old

theorem changeOfP_stages (old : Nat) (s : State) : changeOfP old s = (evaluate (s.atWinding old)).withStrobe
    ((evaluate (s.atWinding old)).strobe.addUnits ((evaluate (s.atWinding old)).length.p - old)) := rfl

section Stages
variable (old : Nat) (s : State)

theorem atWinding_queue : (s.atWinding old).queue = (s.atNip old).queue ∧ (s.atWinding old).stops = (s.atNip old).stops ∧
    (s.atWinding old).alerts = (s.atNip old).alerts := by
  unfold State.atWinding
  split <;> exact ⟨rfl, rfl, rfl⟩

theorem trackChange_same_joined : (trackChange old s).queue.records.map PathRecord.bare = s.queue.records.map PathRecord.bare ∧
    (trackChange old s).queue.flow = s.queue.flow := by
  obtain ⟨m, lost, heq, hm⟩ := trackChange_tracked old s
  rw [heq]
  exact hm.lossOffered_queue

theorem trimmed_count : (trackChange old s).queue.records.countP ((trackChange old s).trimmedAt (trackChange old s).length.p) =
    s.queue.records.countP (s.trimmedAt s.length.p) := by
  have htrim : (trackChange old s).trimmedAt (trackChange old s).length.p = s.trimmedAt s.length.p := by
    funext r
    rw [State.trimmedAt, State.trimmedAt]
    simp
  rw [htrim]
  exact countP_of_bare (fun _ => rfl) (trackChange_same_joined old s).1

variable {s} (hn : (s.queue.records.map (·.joined)).Nodup)
include hn

theorem trackChange_nodup : ((trackChange old s).queue.records.map (·.joined)).Nodup := by
  rwa [map_of_bare (f := fun r => r.joined) (fun _ => rfl) (trackChange_same_joined old s).1]

theorem atKnives_resolved : Resolved s (s.atKnives old) where
  records := by
    rw [State.atKnives, resolveDue_records (trackChange_nodup old hn), resolvedRecords_congr (s := s) (by simp) (by simp) (by simp),
      ← resolvedRecords_bare, (trackChange_same_joined old s).1, resolvedRecords_bare]
  geometry := by simp [State.atKnives]
  length := by simp [State.atKnives]
  job := by simp [State.atKnives]

end Stages

end Sys2Proof.Machine
end

