-- ==== Sys2Proof/Proofs/RecordsOfChanges.lean ====
section
/-! PROOFS. What a change of P makes of the path queue, its change count and its flow counters (R50, R67, R68, R73, R181). -/

namespace Sys2Proof.Machine

section Records
variable (old : Nat) {s : State} (hn : (s.queue.records.map (·.joined)).Nodup)

theorem changeOfP_queue (s : State) : (changeOfP old s).queue = (evaluate (s.atWinding old)).queue := rfl

include hn

theorem changeOfP_bare : (changeOfP old s).queue.records.map PathRecord.bare =
    ((s.queue.records.filter (fun r => !s.trimmedAt s.length.p r && !s.takenOutAt s.length.p r)).map
      (fun r => { r with slit := s.lanesAt s.length.p r })).map PathRecord.bare := by
  rw [changeOfP_queue, (PlannerOnly.evaluate _).records, (atWinding_queue old s).1]
  exact (atKnives_resolved old hn).deliverDue_bare hn

theorem changeOfP_triples : (changeOfP old s).queue.records.map (fun r => (r.body, r.slit, r.joined)) =
    (s.queue.records.filter (fun r => !s.trimmedAt s.length.p r && !s.takenOutAt s.length.p r)).map
      (fun r => (r.body, s.lanesAt s.length.p r, r.joined)) := by
  rw [map_of_bare (f := fun r => (r.body, r.slit, r.joined)) (fun _ => rfl) (changeOfP_bare old hn), List.map_map]
  rfl

/-- The change count, and the ids given up (R181). -/
theorem changeOfP_idsCounted : IdsCounted (s.queue.records.countP (s.trimmedAt s.length.p) = 0 ∧
      s.queue.records.countP (s.takenOutAt s.length.p) = 0 ∧ s.queue.numbers.Nodup)
    (s.queue.records.countP s.dueAtKnives + s.queue.records.countP (s.takenOutAt s.length.p)) s.queue (changeOfP old s).queue := by
  have hresolved := atKnives_resolved old hn
  have htracked := (trackChange_idsGivenUp old s).2
  have hknives := resolveDue_idsCounted (trackChange_nodup old hn)
  have hnip := deliverDue_idsCounted (hresolved.joined_nodup hn)
  have hplanner := (IdsGivenUp.evaluate (s.atWinding old)).2
  rw [(atWinding_queue old s).1] at hplanner
  have hdue : (trackChange old s).queue.records.countP (trackChange old s).dueAtKnives = s.queue.records.countP s.dueAtKnives := by
    rw [dueAtKnives_congr (s := s) (by simp) (by simp)]
    exact countP_of_bare (fun _ => rfl) (trackChange_same_joined old s).1
  have hnumbers (h : s.queue.numbers.Nodup) : (s.atNip old).queue.numbers.Nodup := by
    rw [State.atNip, PathQueue.numbers, map_of_bare (f := fun r => r.body.number) (fun _ => rfl) (hresolved.deliverDue_bare hn),
      List.map_map]
    exact h.sublist (List.filter_sublist.map _)
  have hall := (((htracked.mono fun h => h.2.2).trans (hknives.mono fun h => ?_)).trans (hnip.mono fun h => ?_)).trans
    (hplanner.mono fun h => hnumbers h.2.2) (exact := s.queue.records.countP (s.trimmedAt s.length.p) = 0 ∧
      s.queue.records.countP (s.takenOutAt s.length.p) = 0 ∧ s.queue.numbers.Nodup)
  · rw [hdue, hresolved.dueNow_length, Nat.zero_add, Nat.add_zero] at hall
    exact hall
  · have hnone := h.1
    rw [← trimmed_count old s, List.countP_eq_zero] at hnone
    exact fun r hr => by simpa using hnone r hr
  · exact List.length_eq_zero_iff.1 (hresolved.dueNow_length.trans h.2.1)

end Records

/-! ## The roll map and the flow counters -/

theorem changeOfP_tracker (old : Nat) (s : State) : (changeOfP old s).tracker = (trackChange old s).tracker := by
  have hwinding : (s.atWinding old).tracker = (s.atNip old).tracker := by
    unfold State.atWinding
    split
    · simp
    · rfl
  rw [changeOfP_stages, State.withStrobe, (PlannerOnly.evaluate _).frame]
  exact hwinding.trans (by simp [State.atNip, State.atKnives])

/-- The roll map up to the knife line, with its tallies (R50, R127). -/
theorem atKnives_roll (old : Nat) {s : State} (hn : (s.queue.records.map (·.joined)).Nodup) : (s.atKnives old).roll =
    s.roll.mapWinding (SetRecord.trimTallied (s.queue.records.countP (s.trimmedAt s.length.p)) ∘
      SetRecord.missedTallied ((changeOfP old s).tracker.state.missed - s.tracker.state.missed)) := by
  obtain ⟨m, lost, heq, hm⟩ := trackChange_tracked old s
  have hroll := (resolveDue_trimmedOff (trackChange_nodup old hn)).roll
  obtain ⟨htracker, hm_roll, -⟩ := hm.lossOffered_frame
  rw [State.atKnives, hroll, trimmed_count, changeOfP_tracker, heq, hm_roll, htracker, hm.frame]
  exact RollMap.mapWinding_mapWinding _ _ _

theorem changeOfP_roll (old : Nat) (s : State) : (changeOfP old s).roll = (s.atWinding old).roll := by
  rw [changeOfP_stages, State.withStrobe, (PlannerOnly.evaluate _).frame]

/-- What the nip and the winding test leave of the winding set's record but for its lanes and its unplaced tally. -/
theorem changeOfP_windingSet_map {α : Type} (f : SetRecord → α)
    (hf : ∀ (r : SetRecord) (lanes : List LaneRecord) (n : Nat), f { r with lanes := lanes, unplacedTally := n } = f r) (old : Nat)
    (s : State) : (changeOfP old s).roll.windingSet.map f = (s.atKnives old).roll.windingSet.map f := by
  rw [changeOfP_roll, ← deliverDue_windingSet_map f hf (s.atKnives old), ← State.atNip, State.atWinding]
  split
  · rw [windingTest_windingSet, Option.map_map]
    exact congrArg (fun g => Option.map g _) (funext fun r => hf r _ r.unplacedTally)
  · rfl

section Flow
variable (old : Nat) {s : State} (hn : (s.queue.records.map (·.joined)).Nodup)
include hn

theorem atKnives_winding : (s.atKnives old).roll.windingSet.isSome = s.roll.windingSet.isSome := by
  rw [atKnives_roll old hn, RollMap.windingSet_mapWinding, Option.isSome_map]

theorem changeOfP_flow : (changeOfP old s).queue.flow =
    ((s.atKnives old).queue.handOverAll s.roll.windingSet.isSome (s.atKnives old).dueNow).flow := by
  have hresolved := atKnives_resolved old hn
  rw [changeOfP_queue, (PlannerOnly.evaluate _).queue, (atWinding_queue old s).1, State.atNip,
    deliverDue_dueNow (hresolved.joined_nodup hn), atKnives_winding old hn]

/-- The records of the queue at a change of P, and their counts (R50, R67, R68, R73). -/
theorem changeOfP_recordsFollow : RecordsFollow s (changeOfP old s) := by
  have hp : (changeOfP old s).length.p = s.length.p := by simp
  have hresolved := atKnives_resolved old hn
  obtain ⟨-, -, hflow, htrimmed⟩ := resolveDue_trimmedOff (trackChange_nodup old hn)
  rw [trimmed_count, (trackChange_same_joined old s).2] at htrimmed
  rw [(trackChange_same_joined old s).2] at hflow
  obtain ⟨hdelivered, hunmapped⟩ :=
    handOverAll_flow s.roll.windingSet.isSome (s.atKnives old).dueNow (s.atKnives old).queue
  have hkeeps := congrArg PathQueue.flow
    (handOverAll_keeps s.roll.windingSet.isSome (s.atKnives old).dueNow (s.atKnives old).queue)
  rw [← changeOfP_flow old hn] at hdelivered hunmapped hkeeps
  rw [hresolved.dueNow_length] at hdelivered hunmapped
  rw [State.atKnives, hflow] at hdelivered hunmapped hkeeps
  dsimp only at hdelivered hunmapped hkeeps
  have hif (a b : Nat) : (if s.roll.windingSet = none then a else b) = if s.roll.windingSet.isSome then b else a := by
    cases s.roll.windingSet <;> rfl
  have hknives : (fun r : PathRecord => decide (r.slit = none ∧ r.body.web + s.geometry.k ≤ (s.length.p : Int))) = s.dueAtKnives :=
    funext fun r => by rw [Bool.eq_iff_iff, decide_eq_true_iff, dueAtKnives_iff]
  unfold RecordsFollow
  dsimp only
  rw [hp]
  refine ⟨?_, changeOfP_triples old hn, ?_, ?_, ?_, ?_, fun set hset hle set' hset' => ?_⟩
  · obtain ⟨cleared, hle, hexact, hchanges⟩ := changeOfP_idsCounted old hn
    refine ⟨cleared, hle, fun h1 h2 h3 => hexact ⟨h1, h2, h3⟩, ?_⟩
    rw [hchanges, hknives, ← Nat.add_assoc s.queue.changes]
  · rw [hkeeps]
    exact ⟨rfl, rfl, rfl⟩
  · rw [hkeeps]
    exact htrimmed
  · rw [hdelivered, hif]
  · rw [hunmapped, hif]
  · have hmap := changeOfP_windingSet_map (fun r => r.trimTally) (fun _ _ _ => rfl) old s
    rw [atKnives_roll old hn, RollMap.windingSet_mapWinding, Option.mem_def.1 hset, Option.mem_def.1 hset'] at hmap
    rw [← tallied_of_le hle]
    exact Option.some.inj hmap

end Flow

end Sys2Proof.Machine
end

