-- ==== Sys2Proof/Proofs/RollOfChanges.lean ====
section
/-! PROOFS. What a change of P makes of the roll map (R50, R68, R85, R91, R127). -/

namespace Sys2Proof.Machine

/-! ## Deliveries into one roll map -/

/-- Two parts agree in what a delivery reads. -/
structure SameRoll (u v : State) : Prop where
  roll : v.roll = u.roll
  geometry : v.geometry = u.geometry
  params : v.job.params = u.job.params

theorem SameRoll.deliveredWith {u v : State} (h : SameRoll u v) (r : PathRecord) : SameRoll (u.handed r) (v.handed r) ∧
    ∃ ks : List EventKind, (u.handed r).alerts = (u.postAll ks).alerts ∧ (v.handed r).alerts = (v.postAll ks).alerts := by
  unfold State.handed
  rw [h.roll]
  split
  next lanes set _ _ =>
    have hdelivery : RegisterItem.delivery { body := r.body, lanes := lanes } set v =
        RegisterItem.delivery { body := r.body, lanes := lanes } set u := by
      rw [RegisterItem.delivery, RegisterItem.delivery, h.geometry, h.params, h.roll]
    rw [deliverToRoll_eq, deliverToRoll_eq, hdelivery, h.roll]
    exact ⟨⟨rfl, h.geometry, h.params⟩, _, rfl, rfl⟩
  next => exact ⟨h, [], rfl, rfl⟩

/-- The deliveries of one list make the same roll map, with the same events. -/
theorem SameRoll.deliverAll {u v : State} (h : SameRoll u v) (l : List PathRecord) : SameRoll (u.deliverAll l) (v.deliverAll l) ∧
    ∃ ks : List EventKind, (u.deliverAll l).alerts = (u.postAll ks).alerts ∧ (v.deliverAll l).alerts = (v.postAll ks).alerts := by
  induction l generalizing u v with
  | nil => exact ⟨h, [], rfl, rfl⟩
  | cons r rest ih =>
    obtain ⟨hone, ks, hu, hv⟩ := h.deliveredWith r
    obtain ⟨hall, ls, hu', hv'⟩ := ih hone
    refine ⟨hall, ks ++ ls, ?_, ?_⟩
    · rw [deliverAll_cons, hu', State.postAll_append, State.postAll_alerts_congr hu]
    · rw [deliverAll_cons, hv', State.postAll_append, State.postAll_alerts_congr hv]

theorem deliverAll_map_bare (l : List PathRecord) (s : State) : s.deliverAll (l.map PathRecord.bare) = s.deliverAll l := by
  induction l generalizing s with
  | nil => rfl
  | cons r rest ih => exact ih (s.handed r)

theorem deliverAll_of_bare {l l' : List PathRecord} (h : l.map PathRecord.bare = l'.map PathRecord.bare) (s : State) :
    s.deliverAll l = s.deliverAll l' := by
  rw [← deliverAll_map_bare, h, deliverAll_map_bare]

/-! ## The roll map at a change of P -/

/-- The part that the deliveries of a change of P find: the new position, and the tallies of the missed marks and of the records in
trim. -/
def State.talliedInto (c : LengthCounter) (trimmed missed : Nat) (s : State) : State :=
  { s with length := c, roll := s.roll.mapWinding (SetRecord.trimTallied trimmed ∘ SetRecord.missedTallied missed) }

theorem talliedInto_frame (c : LengthCounter) (trimmed missed : Nat) (s : State) :
    (s.talliedInto c trimmed missed).alerts = s.alerts ∧ (s.talliedInto c trimmed missed).length = c ∧
      (s.talliedInto c trimmed missed).geometry = s.geometry := ⟨rfl, rfl, rfl⟩

section Roll
variable (old : Nat) {s : State} (hn : (s.queue.records.map (·.joined)).Nodup)
include hn

/-- The deliveries of a change of P are those of its records, in queue order, into the tallied roll map. -/
theorem atNip_delivered {u : State} (hu : SameRoll u (s.atKnives old)) :
    (s.atNip old).roll = (u.deliverAll s.dueAtChange).roll ∧
    ∃ ks : List EventKind, (s.atNip old).alerts = ((s.atKnives old).postAll ks).alerts ∧
      (u.deliverAll s.dueAtChange).alerts = (u.postAll ks).alerts := by
  have hresolved := atKnives_resolved old hn
  obtain ⟨hsame, ks, hu', hv'⟩ := hu.deliverAll s.dueAtChange
  rw [State.atNip, deliverDue_dueNow (hresolved.joined_nodup hn), deliverAll_of_bare hresolved.dueNow_bare]
  exact ⟨hsame.roll, ks, hv', hu'⟩

end Roll

/-- The events of a change of P up to the knife line are not those of a delivery. -/
theorem atKnives_posts (old : Nat) (s : State) : PostsWithin (.markFault :: .markLost :: stopPosts) s (s.atKnives old) := by
  obtain ⟨m, lost, heq, hm⟩ := trackChange_tracked old s
  rw [State.atKnives, heq]
  exact hm.lossOffered_posts.trans ((PostsWithin.resolveDue _).mono (by decide))

theorem windingTest_roll_congr {u v : State} (hroll : v.roll = u.roll) (hg : v.geometry = u.geometry) (hp : v.length.p = u.length.p) :
    (windingTest v).roll = (windingTest u).roll := by
  have hp' : v.p = u.p := hp
  rw [windingTest, windingTest, State.mapWinding, State.mapWinding, hroll, hg, hp']

/-- In WINDING every entry is tested against the new P (R91). -/
theorem changeOfP_windingTested (old : Nat) (s : State) : WindingTested s (changeOfP old s) := by
  intro hwinding set hset lane hlane
  have hjob : (s.atNip old).job.state = .winding := by simpa [State.atNip, State.atKnives] using hwinding
  have hroll : (changeOfP old s).roll = (windingTest (s.atNip old)).roll := by
    rw [changeOfP_roll, State.atWinding, if_pos hjob]
  have htested := windingTest_entriesTested [] (s.atNip old)
  rw [hroll] at hset ⊢
  have hg : (windingTest (s.atNip old)).geometry = s.geometry := by simp [State.atNip, State.atKnives]
  have hl : (changeOfP old s).length = (windingTest (s.atNip old)).length := by simp [State.atNip, State.atKnives]
  obtain ⟨hdefects, hsplices⟩ := htested set hset lane hlane
  rw [hg, ← hl] at hdefects hsplices
  exact ⟨fun e he => hdefects e he List.not_mem_nil, fun e he => hsplices e he List.not_mem_nil⟩

/-! ## After a count -/

/-- The part that a count hands on with its change of P: the length counter, the inputs and the events of the count are new
(R11 to R21). -/
structure CountedInto (s v : State) : Prop where
  frame : v = { s with length := v.length, inputs := v.inputs, alerts := v.alerts }
  posts : PostsWithin countKinds s v

namespace CountedInto

variable {s v : State} (h : CountedInto s v)
include h

theorem queue : v.queue = s.queue := by rw [h.frame]
theorem tracker : v.tracker = s.tracker := by rw [h.frame]
theorem geometry : v.geometry = s.geometry := by rw [h.frame]
theorem job : v.job = s.job := by rw [h.frame]
theorem roll : v.roll = s.roll := by rw [h.frame]
theorem plans : v.plans = s.plans := by rw [h.frame]

theorem trimmedAt : v.trimmedAt = s.trimmedAt := by
  funext p r
  rw [State.trimmedAt, State.trimmedAt, h.geometry, h.plans]

theorem lanesAt : v.lanesAt = s.lanesAt := by
  funext p r
  rw [State.lanesAt, State.lanesAt, h.geometry, h.plans]

theorem takenOutAt : v.takenOutAt = s.takenOutAt := by
  funext p r
  rw [State.takenOutAt, State.takenOutAt, h.lanesAt, h.geometry, h.job]

/-- What the deliveries of the change of P find. -/
theorem sameRoll (old : Nat) (hn : (s.queue.records.map (·.joined)).Nodup) : SameRoll
    (s.talliedInto v.length (s.queue.records.countP (s.trimmedAt v.length.p))
      ((changeOfP old v).tracker.state.missed - s.tracker.state.missed)) (v.atKnives old) where
  roll := by
    rw [atKnives_roll old (by rwa [h.queue]), h.queue, h.trimmedAt, h.tracker, h.roll]
    rfl
  geometry := by
    change _ = s.geometry
    rw [← h.geometry]
    simp [State.atKnives]
  params := by
    change _ = s.job.params
    rw [← h.job]
    simp [State.atKnives]

theorem dueAtChange : v.dueAtChange = (s.queue.records.filter (s.takenOutAt v.length.p)).map
    (fun r => { r with slit := s.lanesAt v.length.p r }) := by
  rw [State.dueAtChange, h.queue, h.takenOutAt, h.lanesAt]

/-- The roll map after a count that moves P (R14, R50, R68, R85, R91, R127). -/
theorem rollFollows (old : Nat) (hn : (s.queue.records.map (·.joined)).Nodup) : RollFollows s (changeOfP old v) := by
  have hlength : (changeOfP old v).length = v.length := by simp
  have hjob : (v.atNip old).job.state = s.job.state := by rw [← h.job]; simp [State.atNip, State.atKnives]
  have hsame := h.sameRoll old hn
  unfold RollFollows
  dsimp only
  rw [hlength, ← h.dueAtChange]
  change (changeOfP old v).roll = (if s.job.state = .winding then windingTest ((s.talliedInto v.length _ _).deliverAll v.dueAtChange)
    else (s.talliedInto v.length _ _).deliverAll v.dueAtChange).roll ∧ ∀ k ∈ [EventKind.defectDropped, .laneHold],
      (changeOfP old v).PendsAs k ((s.talliedInto v.length _ _).deliverAll v.dueAtChange)
  obtain ⟨hualerts, hulength, hugeometry⟩ := talliedInto_frame v.length (s.queue.records.countP (s.trimmedAt v.length.p))
    ((changeOfP old v).tracker.state.missed - s.tracker.state.missed) s
  generalize s.talliedInto v.length (s.queue.records.countP (s.trimmedAt v.length.p))
    ((changeOfP old v).tracker.state.missed - s.tracker.state.missed) = u at hsame hualerts hulength hugeometry ⊢
  obtain ⟨hroll, ks, hks, hus⟩ := atNip_delivered old (by rwa [h.queue]) hsame
  refine ⟨?_, fun k hk => ?_⟩
  · rw [changeOfP_roll, State.atWinding, hjob]
    split
    · refine windingTest_roll_congr hroll ?_ ?_
      · rw [deliverAll_eq, hugeometry, ← h.geometry]
        simp [State.atNip, State.atKnives]
      · rw [deliverAll_eq, hulength]
        simp [State.atNip, State.atKnives]
    · exact hroll
  · obtain ⟨ks1, hks1, h1⟩ := (h.posts.mono (List.subset_append_left _ (.markFault :: .markLost :: stopPosts))).trans
      ((atKnives_posts old v).mono (List.subset_append_right countKinds _))
    obtain ⟨ks2, hks2, h2⟩ := PostsWithin.evaluate (v.atWinding old)
    have hother : k ∉ countKinds ++ .markFault :: .markLost :: stopPosts ∧ k ∉ evaluationPosts := by
      simp only [List.mem_cons, List.not_mem_nil, or_false] at hk
      rcases hk with rfl | rfl <;> decide
    have halerts : (changeOfP old v).alerts = (s.postAll (ks1 ++ ks ++ ks2)).alerts := by
      have hnip : (v.atWinding old).alerts = ((s.postAll ks1).postAll ks).alerts := by
        rw [(atWinding_queue old v).2.2, hks, State.postAll_alerts_congr h1]
      exact h2.trans (by rw [State.postAll_append, State.postAll_append, State.postAll_alerts_congr hnip])
    have hcount : (ks1 ++ ks ++ ks2).count k = ks.count k := by
      rw [List.count_append, List.count_append, List.count_eq_zero.2 fun hm => hother.1 (hks1 k hm),
        List.count_eq_zero.2 fun hm => hother.2 (hks2 k hm), Nat.zero_add, Nat.add_zero]
    have hleft := State.PendsAs.of_posts_any halerts hcount
    exact hleft.trans (State.PendsAs.of_posts_any (hus.trans (State.postAll_alerts_congr hualerts ks)) rfl).symm

end CountedInto

end Sys2Proof.Machine
end

