-- ==== Sys2Proof/Proofs/TrackerOfChanges.lean ====
section
/-! PROOFS. What a change of P makes of the mark tracker, its events and its tallies, and the stop of a loss (R124, R125, R127). -/

namespace Sys2Proof.Machine

/-! ## The events after the tracker's turn -/

theorem PostsWithin.deliverDue (s : State) : PostsWithin [.defectDropped, .laneHold] s (deliverDue s) := by
  refine deliverDue_induction (C := PostsWithin [.defectDropped, .laneHold] s) (.of_alerts rfl) fun u r hu _ hdue => hu.trans ?_
  obtain ⟨ks, hks, halerts⟩ := handed_posts r u
  refine ⟨ks, fun k hk => ?_, by rw [deliverRecord_eq (dueAtNip_slit hdue), ← halerts]⟩
  rcases hks k hk with rfl | rfl <;> decide

/-- The kinds that the blocks behind the tracker post at a change of P. -/
def laterKinds : List EventKind := .defectDropped :: .laneHold :: stopPosts

theorem changeOfP_laterPosts (old : Nat) (s : State) : PostsWithin laterKinds (trackChange old s) (changeOfP old s) := by
  have hknives : PostsWithin laterKinds (trackChange old s) (s.atKnives old) := (PostsWithin.resolveDue _).mono (by decide)
  have hnip : PostsWithin laterKinds (s.atKnives old) (s.atNip old) := (PostsWithin.deliverDue _).mono (by decide)
  have hplanner : PostsWithin laterKinds (s.atWinding old) (changeOfP old s) := (PostsWithin.evaluate _).mono (by decide)
  exact (hknives.trans hnip).trans ((PostsWithin.of_alerts (atWinding_queue old s).2.2).trans hplanner)

theorem lossOffered_posts (lost : Bool) (m : State) : PostsWithin laterKinds m (m.lossOffered lost) := by
  unfold State.lossOffered
  split
  · exact (PostsWithin.offerStop _ m).mono (by decide)
  · exact .of_alerts rfl

/-! ## Tallies that the knife line does not touch -/

theorem resolveDue_windingSet_map {α : Type} (f : SetRecord → α) (hf : ∀ (r : SetRecord) (n : Nat), f { r with trimTally := n } = f r)
    (s : State) : (resolveDue s).roll.windingSet.map f = s.roll.windingSet.map f := by
  refine resolveDue_induction (C := fun u => u.roll.windingSet.map f = s.roll.windingSet.map f) rfl fun u r hu _ _ _ => ?_
  rw [← hu]
  cases h : lookupLanes u.plans.active r.body.xs r.body.xe with
  | trim =>
    rw [resolveRecord_of_trim h, (PlannerOnly.cancelRecordStop r _).frame]
    change (u.roll.mapWinding _).windingSet.map f = _
    rw [RollMap.windingSet_mapWinding, Option.map_map]
    exact congrArg (fun g => Option.map g _) (funext fun r => hf r _)
  | lanes range => rw [resolveRecord_of_lanes h]; rfl

/-! ## The stop of a loss (R125) -/

/-- In motion the entry stands in the list, and no record holds its id. -/
structure Stands (x0 : StopEntry) (u : State) : Prop where
  entry : ∃ x, u.stops.HoldsOnce x ∧ x.SameAs x0
  unheld : ∀ r ∈ u.queue.records, r.stopId ≠ some x0.id
  moving : u.motion.standstill = false

namespace Stands

variable {x0 : StopEntry} {u v : State}

theorem evaluate (h : Stands x0 u) : Stands x0 (evaluate u) := by
  obtain ⟨⟨x, hx, hsame⟩, hunheld, hmoving⟩ := h
  have hev := evaluate_evaluated u
  obtain ⟨y, hy, hyx⟩ := hev.stays (.inl hmoving) x hx
  refine ⟨⟨y, hy, hyx.trans hsame⟩, ?_, ?_⟩
  · rw [hev.queueStays (.inl hmoving)]
    exact hunheld
  · rw [hev.frame]
    exact hmoving

theorem of_records (h : Stands x0 u) (hs : v.stops = u.stops) (hm : v.motion = u.motion)
    (hr : ∀ r ∈ v.queue.records, ∃ r' ∈ u.queue.records, r.stopId = r'.stopId) : Stands x0 v where
  entry := by rw [hs]; exact h.entry
  unheld := fun r hmem => by
    obtain ⟨r', hr', hid⟩ := hr r hmem
    rw [hid]
    exact h.unheld r' hr'
  moving := by rw [hm]; exact h.moving

theorem stopRemoved (h : Stands x0 u) {e : StopEntry} (he : e.id ≠ x0.id) : Stands x0 (u.stopRemoved e) := by
  obtain ⟨⟨x, hx, hsame⟩, hunheld, hmoving⟩ := h
  refine ⟨⟨x, stopRemoved_keeps hx (by rw [hsame.1]; exact he.symm), hsame⟩, fun r hr => ?_, hmoving⟩
  rw [stopRemoved_records] at hr
  obtain ⟨r', hr', rfl⟩ := List.mem_map.1 hr
  exact fun hid => hunheld r' hr' ((clearedFrom_stopId e r').1 hid).1

theorem cancelRecordStop (h : Stands x0 u) {r : PathRecord} (hr : r.stopId ≠ some x0.id) : Stands x0 (cancelRecordStop r u) := by
  unfold Machine.cancelRecordStop
  split
  · exact h
  next id hid =>
    unfold Machine.cancelStopId
    split
    · exact h
    next e he =>
      rw [removeStop_eq]
      have heid : e.id = id := by simpa using List.find?_some he
      exact (h.stopRemoved fun heq => hr (by rw [hid, ← heid, heq])).evaluate

theorem resolveDue (h : Stands x0 u) : Stands x0 (resolveDue u) := by
  refine resolveDue_induction (C := Stands x0) h fun w r hw hr _ _ => ?_
  cases hl : lookupLanes w.plans.active r.body.xs r.body.xe with
  | trim =>
    rw [resolveRecord_of_trim hl]
    have hout : Stands x0 (w.trimmedOut r) := hw.of_records rfl rfl fun x hx => ⟨x, List.mem_of_mem_filter hx, rfl⟩
    exact hout.cancelRecordStop (hw.unheld r hr)
  | lanes range =>
    rw [resolveRecord_of_lanes hl]
    refine hw.of_records rfl rfl fun x hx => ?_
    obtain ⟨y, hy, rfl⟩ := List.mem_map.1 hx
    refine ⟨y, hy, ?_⟩
    split <;> rfl

theorem deliverDue (h : Stands x0 u) : Stands x0 (deliverDue u) :=
  h.of_records (by simp) (by simp) fun r hr => ⟨r, (deliverDue_sublist u).subset hr, rfl⟩

theorem changeOfP {old : Nat} (h : Stands x0 (trackChange old u)) : Stands x0 (changeOfP old u) := by
  have hwinding : Stands x0 (u.atWinding old) := by
    refine h.resolveDue.deliverDue.of_records (atWinding_queue old u).2.1 ?_ fun r hr => ⟨r, ?_, rfl⟩
    · unfold State.atWinding
      split
      · simp [State.atNip, State.atKnives]
      · rfl
    · rwa [(atWinding_queue old u).1] at hr
  exact hwinding.evaluate.of_records rfl rfl fun r hr => ⟨r, hr, rfl⟩

end Stands

/-- A loss with room in the list places its entry at P (R125, R140). -/
theorem lossOffered_stands {m : State} (hstop : m.tracker.settings.stopOnLoss = 1) (hroom : m.stops.entries.length < 16)
    (hfree : ∀ r ∈ m.queue.records, r.stopId ≠ some m.stops.freshId) (hmoving : m.motion.standstill = false) :
    Stands (m.lossStop.entry m.stops.freshId m.stops.insertions) (m.lossOffered true) := by
  rw [State.lossOffered, if_pos ⟨rfl, hstop⟩, offerStop_with_room _ hroom]
  refine Stands.evaluate ⟨⟨_, stopPlaced_holdsOnce _ (by omega), .refl _⟩, fun r hr => ?_, hmoving⟩
  have hqueue : (m.stopPlaced m.lossStop).queue = m.queue := withStopId_none _ (by simp [State.lossStop])
  rw [hqueue] at hr
  exact hfree r hr

/-! ## Missed marks at a count -/

/-- The loss comes with the missed mark that meets the loss count, and with no other. -/
theorem lost_iff_of_count {l : MarkLock} {lossCount j : Nat} {lost : Bool} (hlt : l.missed < lossCount)
    (hcount : ∀ i, 0 < i → i ≤ j → (l.missed + i = lossCount ↔ lost = true ∧ i = j)) (hpos : lost = true → 0 < j) :
    (l.missed + j = lossCount ↔ lost = true) ∧ l.missed + j ≤ lossCount := by
  refine ⟨⟨fun heq => ((hcount j (by omega) le_rfl).1 heq).1, fun hl => (hcount j (hpos hl) le_rfl).2 ⟨hl, rfl⟩⟩, ?_⟩
  by_contra hgt
  have := ((hcount (lossCount - l.missed) (by omega) (by omega)).1 (by omega)).2
  omega

theorem missedPosts_count (j : Nat) (lost : Bool) : (missedPosts j lost).count .markFault = j ∧
    (missedPosts j lost).count .markLost = if lost then 1 else 0 := by
  rw [missedPosts, List.count_append, List.count_append, List.count_replicate_self, List.count_replicate]
  cases lost <;> exact ⟨rfl, rfl⟩

/-- What a count that raises P past the ends of windows makes of a tracker that is LOCKED (R124, R125). -/
theorem CountedInto.missedMarksFollow {s v : State} (h : CountedInto s v) {l : MarkLock} (hl : s.tracker.state = .locked l)
    {old : Nat} (hp : old < v.length.p) (hlt : l.missed < s.tracker.settings.lossCount)
    (hle : s.tracker.settings.lossCount ≤ 15) : MissedMarksFollow l s (changeOfP old v) := by
  obtain ⟨j, hj, lost, heq, hpass, hcount, hpos, hnot⟩ := trackChange_of_locked hp (by rw [h.tracker]; exact hl)
  have htracker : (changeOfP old v).tracker = ((v.sensed old).missedBy l j lost).tracker := by
    rw [changeOfP_tracker, heq, lossOffered_tracker]
  have hlength : (changeOfP old v).length = v.length := by simp
  have hwindow (i : Nat) : v.windowEndPassed l v.length.p i ↔ s.windowEndPassed l v.length.p i := by
    rw [State.windowEndPassed, State.windowEndPassed, h.tracker, h.geometry]
  rw [h.tracker] at hcount
  obtain ⟨hlost, hbound⟩ := lost_iff_of_count hlt hcount hpos
  have hposts : ∃ ks, (∀ k ∈ ks, k ∈ countKinds) ∧
      ((v.sensed old).missedBy l j lost).alerts = (s.postAll (ks ++ missedPosts j lost)).alerts := by
    obtain ⟨ks, hks, halerts⟩ := h.posts
    refine ⟨ks, hks, ?_⟩
    rw [State.postAll_append]
    exact State.postAll_alerts_congr (s := v.sensed old) (t := s.postAll ks) halerts _
  have hlater : PostsWithin laterKinds ((v.sensed old).missedBy l j lost) (changeOfP old v) :=
    (lossOffered_posts lost _).trans (heq ▸ changeOfP_laterPosts old v)
  have hpends {k : EventKind} {n : Nat} (hk : k ∉ countKinds) (hk' : k ∉ laterKinds) (hn : (missedPosts j lost).count k = n) :
      (changeOfP old v).PendsAs k (s.postTimes n k) := by
    obtain ⟨ks, hks, halerts⟩ := hposts
    refine (hlater.pendsAs hk').trans (.of_posts_any halerts ?_)
    rw [List.count_append, List.count_eq_zero.2 fun hm => hk (hks k hm), hn, Nat.zero_add]
  refine ⟨j, hj, hbound, fun i hi => ?_, fun hless => ?_, ?_, hpends (by decide) (by decide) (missedPosts_count j lost).1,
    hpends (by decide) (by decide) ((missedPosts_count j lost).2.trans (if_congr hlost.symm rfl rfl)),
    fun set hset hrepeat hfault set' hset' => ?_, fun hloss hstop hroom hfree hmoving => ?_⟩
  · rw [hlength]
    exact (hwindow i).1 (hpass i hi)
  · rw [hlength, ← hwindow]
    have hnotlost : lost = false := by
      rw [← Bool.not_eq_true, ← hlost]
      omega
    exact hnot hnotlost (by omega)
  · rw [htracker, State.missedBy, State.sensed, if_pos hp, h.tracker]
    simp only [hlost]
    rfl
  · have hmap := changeOfP_windingSet_map (fun r => (r.repeatTally, r.markFaultTally)) (fun _ _ _ => rfl) old v
    have hroll : (trackChange old v).roll = s.roll.mapWinding (SetRecord.missedTallied j) := by
      rw [heq, (lossOffered_plannerOnly lost _).frame, ← h.roll]
      rfl
    rw [State.atKnives, resolveDue_windingSet_map _ (fun _ _ => rfl), hroll, RollMap.windingSet_mapWinding, Option.mem_def.1 hset,
      Option.mem_def.1 hset'] at hmap
    obtain ⟨hrepeats, hfaults⟩ := Prod.mk.inj (Option.some.inj hmap)
    rw [hrepeats, hfaults]
    exact ⟨tallied_of_le hrepeat j, tallied_of_le hfault j⟩
  · obtain rfl := hlost.1 hloss
    have hstops : v.stops = s.stops := by rw [h.frame]
    have hmotion : v.motion = s.motion := by rw [h.frame]
    have hstands := lossOffered_stands (m := (v.sensed old).missedBy l j true) (by rw [← h.tracker] at hstop; exact hstop)
      (by rw [← hstops] at hroom; exact hroom) (by rw [← hstops, ← h.queue] at hfree; exact hfree)
      (by rw [← hmotion] at hmoving; exact hmoving)
    rw [← heq] at hstands
    obtain ⟨x, ⟨hx, -⟩, hid, hkind, horigin, href, hweb, hstation, htarget, -⟩ := hstands.changeOfP.entry
    rw [hlength, ← hstops]
    exact ⟨x, hx, hid, hkind, horigin, href, hweb, hstation, htarget⟩

/-- What any other count makes of the tracker (R120). -/
theorem CountedInto.tracker_of_still {s v : State} (h : CountedInto s v) {old : Nat}
    (hstill : v.length.p ≤ old ∨ ∀ l, s.tracker.state ≠ .locked l) :
    (changeOfP old v).tracker = { s.tracker with sense := if old < v.length.p then .forward else .reverse } := by
  rw [changeOfP_tracker, trackChange_of_still (by rwa [h.tracker]), ← h.tracker]
  rfl

/-- What a count that moves P makes of the path queue. -/
theorem CountedInto.recordsFollow {s v : State} (h : CountedInto s v) (old : Nat) (hn : (s.queue.records.map (·.joined)).Nodup) :
    RecordsFollow s (changeOfP old v) := by
  have hfollow := changeOfP_recordsFollow old (s := v) (by rwa [h.queue])
  unfold RecordsFollow at hfollow ⊢
  dsimp only at hfollow ⊢
  rwa [h.queue, h.trimmedAt, h.takenOutAt, h.lanesAt, h.geometry, h.roll] at hfollow

end Sys2Proof.Machine
end

