-- ==== Sys2Proof/Proofs/PlannerTwins.lean ====
section
/-! PROOFS. Two parts that differ in their inputs and station records alone take one course through the tracker and the knife line,
and the stop planner finds one list and one queue in both (R14, R143). -/

namespace Sys2Proof.Machine

/-- Two parts that differ in their inputs and station records alone, with the planner's events alike. -/
structure Twins (u v : State) : Prop where
  frame : v = { u with inputs := v.inputs, alerts := v.alerts }
  pends : ∀ k ∈ stopPosts, v.PendsAs k u
  sound : u.AlertsSound ∧ v.AlertsSound

namespace Twins

variable {u v : State}

theorem sameView (h : Twins u v) : SameView u v := by
  constructor <;> rw [h.frame]

theorem of_sameStep (h : Twins u v) {u' v' : State} (hstep : SameStep u v u' v') : Twins u' v' := by
  have hsound := hstep.alertsSound h.sound.1 h.sound.2
  refine ⟨?_, fun k hk => hstep.pendsAs (h.pends k hk) h.sound.1 h.sound.2, hsound⟩
  obtain ⟨pl, q, ks, rfl, rfl⟩ := hstep
  rw [State.planned, State.planned, h.frame]

/-- A change of both parts alike, and events alike. -/
theorem of_posts (h : Twins u v) {u' v' : State} {ks : List EventKind} (hframe : v' = { u' with inputs := v'.inputs, alerts := v'.alerts })
    (hu : u'.alerts = (u.postAll ks).alerts) (hv : v'.alerts = (v.postAll ks).alerts) : Twins u' v' := by
  refine ⟨hframe, fun k hk => ?_, (h.sound.1.postAll ks).congr hu, (h.sound.2.postAll ks).congr hv⟩
  exact (State.PendsAs.of_alerts hv k).trans
    (((h.pends k hk).postAll h.sound.2 h.sound.1 ks).trans (State.PendsAs.of_alerts hu k).symm)

theorem sensed (h : Twins u v) (old : Nat) : Twins (u.sensed old) (v.sensed old) := by
  refine h.of_posts (ks := []) ?_ rfl rfl
  rw [State.sensed, State.sensed, h.frame]
  rfl

theorem missedBy (h : Twins u v) (l : MarkLock) (j : Nat) (lost : Bool) : Twins (u.missedBy l j lost) (v.missedBy l j lost) := by
  refine h.of_posts (ks := missedPosts j lost) ?_ rfl rfl
  rw [State.missedBy, State.missedBy, h.frame]

theorem lossOffered (h : Twins u v) (lost : Bool) : Twins (u.lossOffered lost) (v.lossOffered lost) := by
  have htracker : v.tracker = u.tracker := by rw [h.frame]
  have hstop : v.lossStop = u.lossStop := by rw [h.frame]; rfl
  unfold State.lossOffered
  rw [htracker, hstop]
  split
  · exact h.of_sameStep (h.sameView.offerStop _).1
  · exact h

theorem missMark (h : Twins u v) (l : MarkLock) : Twins (missMark l u) (missMark l v) := by
  have htracker : v.tracker = u.tracker := by rw [h.frame]
  rw [missMark_missedBy, missMark_missedBy, htracker]
  split
  · exact (h.missedBy l 1 true).lossOffered true
  · exact h.missedBy l 1 false

theorem missedMarks (h : Twins u v) (fuel : Nat) : Twins (missedMarks fuel u) (missedMarks fuel v) := by
  induction fuel generalizing u v with
  | zero => exact h
  | succ n ih =>
    have htracker : v.tracker = u.tracker := by rw [h.frame]
    unfold Machine.missedMarks
    rw [htracker]
    split
    next l _ =>
      have hpassed : windowPassed l v = windowPassed l u := by rw [h.frame]; rfl
      rw [hpassed]
      split
      · exact ih (h.missMark l)
      · exact h
    next => exact h

theorem trackChange (h : Twins u v) (old : Nat) : Twins (trackChange old u) (trackChange old v) := by
  have hlength : v.length = u.length := by rw [h.frame]
  rw [trackChange_eq, trackChange_eq, hlength]
  split
  · exact (h.sensed old).missedMarks 15
  · exact h.sensed old

theorem resolveRecord (h : Twins u v) (r : PathRecord) : Twins (resolveRecord r u) (resolveRecord r v) := by
  have hplans : v.plans = u.plans := by rw [h.frame]
  cases hl : lookupLanes u.plans.active r.body.xs r.body.xe with
  | trim =>
    rw [resolveRecord_of_trim hl, resolveRecord_of_trim (by rwa [hplans])]
    have hout : Twins (u.trimmedOut r) (v.trimmedOut r) := h.of_posts (ks := [])
      (by rw [State.trimmedOut, State.trimmedOut, h.frame]) rfl rfl
    exact hout.of_sameStep (hout.sameView.cancelRecordStop r)
  | lanes range =>
    rw [resolveRecord_of_lanes hl, resolveRecord_of_lanes (by rwa [hplans])]
    exact h.of_posts (ks := []) (by rw [slitRecord_eq, slitRecord_eq, h.frame]) rfl rfl

theorem resolveDue (h : Twins u v) : Twins (resolveDue u) (resolveDue v) := by
  have hpasses (fuel : Nat) {w x : State} (hw : Twins w x) : Twins (resolvePasses fuel w) (resolvePasses fuel x) := by
    induction fuel generalizing w x with
    | zero => exact hw
    | succ n ih =>
      have hqueue : x.queue = w.queue := by rw [hw.frame]
      unfold resolvePasses
      rw [hqueue, dueAtKnives_congr (s := w) (t := x) (by rw [hw.frame]) (by rw [hw.frame])]
      split
      · exact hw
      next r _ => exact ih (hw.resolveRecord r)
  have hqueue : v.queue = u.queue := by rw [h.frame]
  unfold Machine.resolveDue
  rw [hqueue]
  exact hpasses _ h

/-- Twins are alike to the planner. -/
theorem plannerSim (h : Twins u v) (hn : (u.queue.records.map (·.joined)).Nodup) : PlannerSim u v where
  stops := h.sameView.stops
  motion := h.sameView.motion
  p := h.sameView.p
  cut := h.sameView.cut
  records := fun r hr r' hr' hj => by
    rw [h.sameView.queue] at hr
    rw [List.inj_on_of_nodup_map hn hr' hr hj]
    exact ⟨rfl, rfl⟩
  posts := h.pends
  alerts := h.sound.symm

end Twins

theorem PlannerSim.symm {u v : State} (h : PlannerSim u v) : PlannerSim v u where
  stops := h.stops.symm
  motion := h.motion.symm
  p := h.p.symm
  cut := h.cut.symm
  records := fun r hr r' hr' hj => by
    obtain ⟨hnumber, hid⟩ := h.records r' hr' r hr hj.symm
    exact ⟨hnumber.symm, hid.symm⟩
  posts := fun k hk => (h.posts k hk).symm
  alerts := h.alerts.symm

/-- The winding test and the strobe are nothing to the planner. -/
theorem PlannerSim.changeOfP {w : State} {old : Nat} {v : State} (h : PlannerSim w (v.atNip old)) :
    PlannerSim (Machine.evaluate w) (Machine.changeOfP old v) := by
  have hframe : (v.atWinding old).motion = (v.atNip old).motion ∧ (v.atWinding old).length = (v.atNip old).length ∧
      (v.atWinding old).job = (v.atNip old).job := by
    unfold State.atWinding
    split
    · simp
    · exact ⟨rfl, rfl, rfl⟩
  obtain ⟨hqueue, hstops, halerts⟩ := atWinding_queue old v
  have hwinding : PlannerSim w (v.atWinding old) :=
    h.congr_right hstops hframe.1 (by rw [hframe.2.1]) (by rw [hframe.2.2]) hqueue halerts
  exact hwinding.evaluate.congr_right rfl rfl rfl rfl rfl rfl

end Sys2Proof.Machine
end

