-- ==== Sys2Proof/Proofs/PlannerOfChanges.lean ====
section
/-! PROOFS. What a change of P makes of the stop planner's part (R14, R50, R125, R143; log entry 13). -/

namespace Sys2Proof.Machine

/-! ## With no record in trim -/

theorem not_trim_of_not_trimmedAt {s : State} {r : PathRecord} (h : s.trimmedAt s.length.p r = false)
    (hdue : s.dueAtKnives r = true) : lookupLanes s.plans.active r.body.xs r.body.xe ≠ .trim := fun htrim => by
  rw [trimmedAt_iff.2 ⟨hdue, htrim⟩] at h
  exact Bool.false_ne_true h.symm

/-- Resolutions that take no record to trim are nothing to the planner (R67). -/
theorem PlannerSim.resolveDue {u v : State} (h : PlannerSim u v)
    (hnone : ∀ r ∈ v.queue.records, v.trimmedAt v.length.p r = false) : PlannerSim u (resolveDue v) := by
  refine (resolveDue_induction (s := v) (C := fun w => PlannerSim u w ∧ ∀ r ∈ w.queue.records, v.trimmedAt v.length.p r = false)
    ⟨h, hnone⟩ fun w r ⟨hw, hwnone⟩ hr hdue hplans => ?_).1
  have hlanes := not_trim_of_not_trimmedAt (hwnone r hr) hdue
  rw [← hplans] at hlanes
  refine ⟨?_, trimmedAt_false_resolveRecord hlanes hwnone⟩
  cases hl : lookupLanes w.plans.active r.body.xs r.body.xe with
  | trim => exact absurd hl hlanes
  | lanes range =>
    rw [resolveRecord_of_lanes hl]
    exact
      { stops := hw.stops
        motion := hw.motion
        p := hw.p
        cut := hw.cut
        records := fun x hx x' hx' hj => by
          obtain ⟨y, hy, rfl⟩ := List.mem_map.1 hx
          have hkept (z : PathRecord) : (if y.joined = r.joined then { y with slit := some range } else y).body = y.body ∧
              (if y.joined = r.joined then { y with slit := some range } else y).stopId = y.stopId ∧
              (if y.joined = r.joined then { y with slit := some range } else y).joined = y.joined := by
            split <;> exact ⟨rfl, rfl, rfl⟩
          obtain ⟨hbody, hid, hjoined⟩ := hkept y
          rw [hbody, hid]
          exact hw.records y hy x' hx' (hj.trans hjoined)
        posts := hw.posts
        alerts := hw.alerts }

section Counted
variable {s v : State} (h : CountedInto s v)
include h

/-- The part at the new position, before any block has acted on it. -/
theorem CountedInto.twins (ha : s.AlertsSound) : Twins { s with length := v.length } v where
  frame := h.frame
  pends := fun k hk => (h.posts.pendsAs (by revert k; decide)).trans (.of_alerts rfl k)
  sound := ⟨ha, h.posts.alertsSound ha⟩

/-- The tracker's turn is nothing to the planner but for the stop of a loss. -/
theorem CountedInto.tracked_plannerSim (hn : (s.queue.records.map (·.joined)).Nodup) (ha : s.AlertsSound) {m : State} {lost : Bool} (hm : Tracked v m lost) :
    PlannerSim { s with length := v.length } m := by
  have hsim := (h.twins ha).plannerSim hn
  exact
    { stops := by rw [hm.frame]; exact hsim.stops
      motion := by rw [hm.frame]; exact hsim.motion
      p := by rw [hm.frame]
      cut := by rw [hm.frame]; exact hsim.cut
      records := by rw [hm.queue]; exact hsim.records
      posts := fun k hk => (hm.posts.pendsAs (by revert k; decide)).trans (hsim.posts k hk)
      alerts := ⟨hm.posts.alertsSound hsim.alerts.1, hsim.alerts.2⟩ }

/-- With no record in trim the planner finds, after the nip, what the tracker has left. -/
theorem CountedInto.atNip_plannerSim {old : Nat} {m u : State} (hm : trackChange old v = m) (hsim : PlannerSim u m)
    (hnone : s.queue.records.filter (s.trimmedAt v.length.p) = []) : PlannerSim u (v.atNip old) := by
  refine PlannerSim.deliverDue (PlannerSim.resolveDue (hm ▸ hsim) ?_)
  have hcount := trimmed_count old v
  rw [h.queue, h.trimmedAt, List.countP_eq_length_filter (p := s.trimmedAt _), hnone, List.length_nil, List.countP_eq_zero] at hcount
  exact fun r hr => by simpa using hcount r hr

end Counted

/-! ## The stop entries of records in trim (R50, R72) -/

/-- A record still holds an id, or no stop entry has it. -/
def HeldOrGone (r : PathRecord) (id : Nat) (s : State) : Prop :=
  (∃ r' ∈ s.queue.records, r'.bare = r.bare ∧ r'.stopId = some id) ∨ ∀ e ∈ s.stops.entries, e.id ≠ id

namespace HeldOrGone

variable {r : PathRecord} {id : Nat} {s t : State}

theorem of_same (h : HeldOrGone r id s) (hq : t.queue = s.queue) (hs : ∀ e ∈ t.stops.entries, ∃ e' ∈ s.stops.entries, e.id = e'.id) :
    HeldOrGone r id t := by
  rcases h with h | h
  · exact .inl (by rwa [hq])
  · refine .inr fun e he hid => ?_
    obtain ⟨e', he', heq⟩ := hs e he
    exact h e' he' (heq ▸ hid)

theorem stopRemoved (h : HeldOrGone r id s) (e : StopEntry) : HeldOrGone r id (s.stopRemoved e) := by
  have hgone (hg : ∀ x ∈ s.stops.entries, x.id ≠ id ∨ x.id = e.id) : ∀ x ∈ (s.stopRemoved e).stops.entries, x.id ≠ id := by
    intro x hx
    obtain ⟨hx, hne⟩ := List.mem_filter.1 hx
    exact (hg x hx).resolve_right (of_decide_eq_true hne)
  rcases h with ⟨r', hr', hbare, hid⟩ | h
  · by_cases he : e.id = id
    · exact .inr (hgone fun x _ => by rw [he]; exact (ne_or_eq _ _))
    · refine .inl ⟨r', ?_, hbare, hid⟩
      rw [stopRemoved_records]
      refine List.mem_map.2 ⟨r', hr', clearedFrom_of_stopId_ne ?_⟩
      rw [hid]
      exact fun heq => he (Option.some.inj heq).symm
  · exact .inr (hgone fun x hx => .inl (h x hx))

theorem evalStep (h : HeldOrGone r id s) (hstep : EvalStep s t) : HeldOrGone r id t := by
  cases hstep with
  | activate he hn =>
    refine h.of_same (by rw [activateStop_eq]) fun x hx => ?_
    obtain ⟨y, hy, hsame⟩ := replaceStop_sameAs he (s.activated_sameAs _) x (by rw [activateStop_eq] at hx; exact hx)
    exact ⟨y, hy, hsame.1⟩
  | overrun he =>
    refine h.of_same (by simp) fun x hx => ?_
    obtain ⟨y, hy, hsame⟩ := (overrunTest_evaluated he).entries x hx
    exact ⟨y, hy, hsame.1⟩
  | complete late shortfall =>
    rw [completeStop_eq_withLastStop]
    exact (h.stopRemoved _).of_same rfl fun x hx => ⟨x, hx, rfl⟩

theorem evaluate (h : HeldOrGone r id s) : HeldOrGone r id (evaluate s) := by
  have hsteps (t : State) (hst : EvalSteps s t) : HeldOrGone r id t := by
    induction hst with
    | refl => exact h
    | tail _ hstep ih => exact ih.evalStep hstep
  exact hsteps _ (evaluate_evalSteps s)

theorem cancelRecordStop (h : HeldOrGone r id s) (x : PathRecord) : HeldOrGone r id (cancelRecordStop x s) := by
  unfold Machine.cancelRecordStop
  split
  · exact h
  · unfold Machine.cancelStopId
    split
    · exact h
    next e _ =>
      rw [removeStop_eq]
      exact (h.stopRemoved e).evaluate

/-- Once no entry has the id, none has it after an evaluation. -/
theorem gone_evaluate (h : ∀ e ∈ s.stops.entries, e.id ≠ id) : ∀ e ∈ (Machine.evaluate s).stops.entries, e.id ≠ id := by
  intro e he
  obtain ⟨e', he', hsame⟩ := (evaluate_evaluated s).entries e he
  rw [hsame.1]
  exact h e' he'

/-- The cancellation of a record takes the entry with its id out of the list (R142). -/
theorem cancelRecordStop_gone {x : PathRecord} (hx : x.stopId = some id) : ∀ e ∈ (Machine.cancelRecordStop x s).stops.entries, e.id ≠ id := by
  unfold Machine.cancelRecordStop Machine.cancelStopId
  rw [hx]
  dsimp only
  split
  next hnone => exact fun e he => by simpa using List.find?_eq_none.1 hnone e he
  next e he =>
    have heid : e.id = id := by simpa using List.find?_some he
    rw [removeStop_eq]
    refine gone_evaluate fun y hy => ?_
    rw [← heid]
    exact of_decide_eq_true (List.mem_filter.1 hy).2

theorem resolveRecord (h : HeldOrGone r id s) (hn : (s.queue.records.map (·.joined)).Nodup)
    (htrim : lookupLanes s.plans.active r.body.xs r.body.xe = .trim) {x : PathRecord} (hx : x ∈ s.queue.records) :
    HeldOrGone r id (resolveRecord x s) := by
  cases hl : lookupLanes s.plans.active x.body.xs x.body.xe with
  | trim =>
    rw [resolveRecord_of_trim hl]
    rcases h with ⟨r', hr', hbare, hid⟩ | h
    · by_cases hj : r'.joined = x.joined
      · obtain rfl := List.inj_on_of_nodup_map hn hr' hx hj
        exact .inr (cancelRecordStop_gone hid)
      · have hout : HeldOrGone r id (s.trimmedOut x) := .inl ⟨r', List.mem_filter.2 ⟨hr', decide_eq_true hj⟩, hbare, hid⟩
        exact hout.cancelRecordStop x
    · have hout : HeldOrGone r id (s.trimmedOut x) := .inr h
      exact hout.cancelRecordStop x
  | lanes range =>
    rw [resolveRecord_of_lanes hl]
    rcases h with ⟨r', hr', hbare, hid⟩ | h
    · have hj : r'.joined ≠ x.joined := fun hj => by
        obtain rfl := List.inj_on_of_nodup_map hn hr' hx hj
        rw [(bare_eq_iff.1 hbare).1, htrim] at hl
        exact nomatch hl
      exact .inl ⟨r', List.mem_map.2 ⟨r', hr', if_neg hj⟩, hbare, hid⟩
    · exact .inr h

/-- After the pass at the knife line no entry has the id of a record in trim (R50). -/
theorem resolveDue_gone (h : HeldOrGone r id s) (hn : (s.queue.records.map (·.joined)).Nodup)
    (htrim : s.trimmedAt s.length.p r = true) : ∀ e ∈ (resolveDue s).stops.entries, e.id ≠ id := by
  obtain ⟨hdue, hlookup⟩ := trimmedAt_iff.1 htrim
  have hpass := (resolveDue_induction (s := s) (C := fun u => (u.queue.records.map (·.joined)).Nodup ∧ HeldOrGone r id u) ⟨hn, h⟩
    fun u x ⟨hnu, hu⟩ hx _ hplans => ⟨resolveRecord_nodup hnu x, hu.resolveRecord hnu (by rw [hplans]; exact hlookup) hx⟩).2
  refine hpass.resolve_left fun ⟨r', hr', hbare, _⟩ => ?_
  have hnot := resolveDue_none_due s r' hr'
  have hsame : s.dueAtKnives r'.bare = s.dueAtKnives r.bare := congrArg s.dueAtKnives hbare
  rw [show s.dueAtKnives r' = s.dueAtKnives r from hsame, hdue] at hnot
  exact Bool.false_ne_true hnot.symm

end HeldOrGone

/-- What a count that moves P makes of the planner's part (R14, R50, R125, R143). -/
theorem CountedInto.plannerFollows {s v : State} (h : CountedInto s v) (hn : (s.queue.records.map (·.joined)).Nodup)
    (ha : s.AlertsSound) (hs : s.stops.Sound) (old : Nat) (hold : old = s.length.p) : PlannerFollows s (changeOfP old v) := by
  obtain ⟨m, lost, heq, hm⟩ := trackChange_tracked old v
  have hlength : (changeOfP old v).length = v.length := by simp
  have htracker : (changeOfP old v).tracker = m.tracker := by rw [changeOfP_tracker, heq, lossOffered_tracker]
  have hsim := h.tracked_plannerSim hn ha hm
  have hlost := hm.lost_iff
  rw [h.tracker] at hlost
  unfold PlannerFollows
  dsimp only
  rw [hlength, htracker]
  refine ⟨?_, fun hnone hkeep => ?_, fun hnone hl hstop => ?_, fun hl r hr id hid => ?_⟩
  · have htwins := ((h.twins ha).trackChange s.length.p).resolveDue
    have hknives := htwins.plannerSim ((atKnives_resolved s.length.p (s := { s with length := v.length }) hn).joined_nodup hn)
    subst hold
    exact hknives.symm.deliverDue.symm.deliverDue.changeOfP.plannerAs
  · have hno : ¬ (lost = true ∧ m.tracker.settings.stopOnLoss = 1) := fun hboth => by
      rw [hm.settings, h.tracker] at hboth
      exact hkeep.elim (fun hk => hk (hlost.1 hboth.1)) fun hk => hk hboth.2
    exact (h.atNip_plannerSim (heq.trans (if_neg hno)) hsim hnone).changeOfP.plannerAs
  · have hoffer : trackChange old v = (offerStop m.lossStop m).1 := by
      rw [heq, State.lossOffered, if_pos ⟨hlost.2 hl, by rw [hm.settings, h.tracker]; exact hstop⟩]
    have hloss : (changeOfP old v).lossStop = m.lossStop := by
      rw [State.lossStop, State.lossStop, hlength, hm.frame]
    rw [hloss]
    exact ⟨_, _, offerStop_taken _ hs, (h.atNip_plannerSim hoffer (hsim.offerStop _) hnone).changeOfP.plannerAs⟩
  · have hkeep : trackChange old v = m := by
      rw [heq, State.lossOffered, if_neg fun hboth => hl (hlost.1 hboth.1)]
    obtain ⟨hmem, htrim⟩ := List.mem_filter.1 hr
    have hheld : HeldOrGone r id m := .inl ⟨r, by rw [hm.queue, h.queue]; exact hmem, rfl, hid⟩
    have hgone : ∀ e ∈ (v.atKnives old).stops.entries, e.id ≠ id := by
      rw [State.atKnives, hkeep]
      refine hheld.resolveDue_gone (by rw [hm.queue, h.queue]; exact hn) ?_
      rw [← h.trimmedAt] at htrim
      rw [hm.frame]
      exact htrim
    have hwinding : (v.atWinding old).stops = (v.atKnives old).stops := by
      rw [(atWinding_queue old v).2.1, State.atNip]
      simp
    exact HeldOrGone.gone_evaluate (s := v.atWinding old) (by rw [hwinding]; exact hgone)

end Sys2Proof.Machine
end

