-- ==== Sys2Proof/Proofs/Counts.lean ====
section
/-! PROOFS. A count of an encoder, whole: its own figures, and the change of P where it makes one (O11). -/

namespace Sys2Proof.Machine

/-- The direction of a count (R4). -/
def State.countDirection (s : State) (e : Encoder) (ph : Phase) : Direction := edgeDirection (s.inputs.encoder e) ph

/-- The part that a count hands on: its units, silence and slip taken, before any change of P is acted on. -/
def State.handedOn (e : Encoder) (ph : Phase) (s : State) : State :=
  (counted e (s.countDirection e ph) s).withInputs (s.inputs.edged e ph)

section Outcome
variable (e : Encoder) (ph : Phase) (s : State)

theorem handedOn_length : (s.handedOn e ph).length = (counted e (s.countDirection e ph) s).length := rfl

/-- A count hands its change of P on, if it makes one (R14). -/
theorem acceptEdge_outcome : acceptEdge e ph s = if (s.handedOn e ph).length.p = s.length.p then s.handedOn e ph
    else changeOfP s.length.p (s.handedOn e ph) := by
  rw [acceptEdge_eq, applyCount_eq, counted_withInputs, handedOn_length, counted_p_eq]
  rfl

theorem acceptEdge_length : (acceptEdge e ph s).length = (s.handedOn e ph).length := by
  rw [acceptEdge_outcome]
  split
  · rfl
  · simp

theorem acceptEdge_inputs : (acceptEdge e ph s).inputs = s.inputs.edged e ph := by
  have hinputs : (s.handedOn e ph).inputs = s.inputs.edged e ph := rfl
  rw [acceptEdge_outcome, ← hinputs]
  split
  · rfl
  · simp

theorem acceptEdge_of_unmoved {e : Encoder} {ph : Phase} {s : State} (h : (acceptEdge e ph s).length.p = s.length.p) :
    acceptEdge e ph s = s.handedOn e ph := by
  rw [acceptEdge_length] at h
  rw [acceptEdge_outcome, if_pos h]

theorem acceptEdge_of_moved {e : Encoder} {ph : Phase} {s : State} (h : (acceptEdge e ph s).length.p ≠ s.length.p) :
    acceptEdge e ph s = changeOfP s.length.p (s.handedOn e ph) := by
  rw [acceptEdge_length] at h
  rw [acceptEdge_outcome, if_neg h]

/-- Only the active source moves P (R13). -/
theorem active_of_moved {e : Encoder} {ph : Phase} {s : State} (h : (acceptEdge e ph s).length.p ≠ s.length.p) : s.length.active = e := by
  by_contra hne
  rw [acceptEdge_length, handedOn_length, counted_p, if_neg hne] at h
  exact h rfl

theorem mem_of_mem_ite {c : Prop} [Decidable c] {k j : EventKind} (h : k ∈ if c then [j] else []) : k = j := by
  split at h
  · exact List.mem_singleton.1 h
  · exact absurd h List.not_mem_nil

/-- The events of a count's own part (R12, R17, R18, R21). -/
theorem counted_postsWithin (d : Direction) : PostsWithin countKinds s (counted e d s) := by
  obtain ⟨ks, hks, halerts⟩ := counted_posts s e d
  refine ⟨_, fun k hk => ?_, halerts⟩
  rcases List.mem_append.1 hk with hk | hk
  · rcases List.mem_append.1 hk with hk | hk
    · rcases List.mem_append.1 hk with hk | hk
      · rw [mem_of_mem_ite hk]
        decide
      · rw [mem_of_mem_ite hk]
        decide
    · rw [mem_of_mem_ite hk]
      cases e <;> decide
  · rcases hks with rfl | rfl
    · exact absurd hk List.not_mem_nil
    · rw [List.mem_singleton.1 hk]
      decide

theorem handedOn_countedInto (h : s.length.active = e) : CountedInto s (s.handedOn e ph) where
  frame := by
    have hroll : (counted e (s.countDirection e ph) s).roll = s.roll := by
      rw [counted_roll, if_neg]
      rintro ⟨rfl, ha, -⟩
      rw [h] at ha
      exact nomatch ha
    have hwith := congrArg (fun u : State => u.withInputs (s.inputs.edged e ph)) (counted_with s e (s.countDirection e ph))
    rw [hroll] at hwith
    exact hwith
  posts := counted_postsWithin e s _

/-- A count's own part leaves the queue, the stop list, the tracker and the strobe divider alone. -/
theorem handedOn_keeps : (s.handedOn e ph).queue = s.queue ∧ (s.handedOn e ph).stops = s.stops ∧
    (s.handedOn e ph).tracker = s.tracker ∧ (s.handedOn e ph).strobe = s.strobe := by
  rw [State.handedOn, counted_with]
  exact ⟨rfl, rfl, rfl, rfl⟩

/-- The events of a count's own part are not those of a change of P. -/
theorem acceptEdge_pends {k : EventKind} (hk : k ∈ countKinds) :
    (acceptEdge e ph s).PendsAs k (counted e (s.countDirection e ph) s) := by
  have hhanded : (s.handedOn e ph).PendsAs k (counted e (s.countDirection e ph) s) := .of_alerts rfl k
  rw [acceptEdge_outcome]
  split
  · exact hhanded
  · have htracker : PostsWithin (.markFault :: .markLost :: laterKinds) (s.handedOn e ph) (trackChange s.length.p (s.handedOn e ph)) := by
      obtain ⟨m, lost, heq, hm⟩ := trackChange_tracked s.length.p (s.handedOn e ph)
      rw [heq]
      exact hm.lossOffered_posts.mono (by decide)
    refine ((htracker.trans ((changeOfP_laterPosts _ _).mono (by decide))).pendsAs ?_).trans hhanded
    have hdisjoint : ∀ k ∈ countKinds, k ∉ EventKind.markFault :: .markLost :: laterKinds := by decide
    exact hdisjoint k hk

end Outcome

/-! ## The figures of a count (R10 to R13) -/

section Figures
variable (e : Encoder) (ph : Phase) (s : State)

theorem acceptEdge_measure : (acceptEdge e ph s).length.measure e = ((s.length.measure e).step (s.countDirection e ph)).1.alive := by
  rw [acceptEdge_length]
  exact counted_measure_self s e _

theorem acceptEdge_figures : ((acceptEdge e ph s).length.measure e).position =
      ((s.length.measure e).step (s.countDirection e ph)).1.position ∧
    ((acceptEdge e ph s).length.measure e).remainder = ((s.length.measure e).step (s.countDirection e ph)).1.remainder ∧
    ((acceptEdge e ph s).length.measure e).silent = false ∧ ((acceptEdge e ph s).length.measure e).silence = 0 := by
  rw [acceptEdge_measure]
  exact ⟨rfl, rfl, rfl, rfl⟩

theorem acceptEdge_other : ((acceptEdge e ph s).length.measure (otherEncoder e)).position = (s.length.measure (otherEncoder e)).position ∧
    ((acceptEdge e ph s).length.measure (otherEncoder e)).remainder = (s.length.measure (otherEncoder e)).remainder := by
  rw [acceptEdge_length, handedOn_length, counted_measure_other]
  exact ⟨rfl, rfl⟩

theorem acceptEdge_p : (acceptEdge e ph s).length.p =
    if s.length.active = e then movedPosition s.length.p (s.countUnits e (s.countDirection e ph)) (s.countDirection e ph)
    else s.length.p := by
  rw [acceptEdge_length]
  exact counted_p s e _

variable {e ph s} (h : (s.length.measure e).Sound)
include h

theorem acceptEdge_units : s.countUnits e (s.countDirection e ph) =
    ((acceptEdge e ph s).length.measure e).position - (s.length.measure e).position +
      ((s.length.measure e).position - ((acceptEdge e ph s).length.measure e).position) := by
  rw [(acceptEdge_figures e ph s).1]
  exact countUnits_eq h.2.2.2.2 _

/-- A forward count of the active source raises P by its units, held at the top (R12, R13). -/
theorem acceptEdge_p_forward (ha : s.length.active = e) (hd : s.countDirection e ph = .forward) : (acceptEdge e ph s).length.p =
    min (s.length.p + (((acceptEdge e ph s).length.measure e).position - (s.length.measure e).position)) 4294967295 := by
  have hunits := acceptEdge_units (ph := ph) h
  have hrise := (Measure.units_eq h.2.2.2.2 (s.countDirection e ph)).2.1 hd
  rw [← (acceptEdge_figures e ph s).1] at hrise
  rw [Nat.sub_eq_zero_of_le hrise, Nat.add_zero] at hunits
  rw [acceptEdge_p, if_pos ha, hunits, hd]
  rfl

/-- A reverse count of the active source lowers P by its units, held at 0 (R12, R13). -/
theorem acceptEdge_p_reverse (ha : s.length.active = e) (hd : s.countDirection e ph = .reverse) : (acceptEdge e ph s).length.p =
    s.length.p - ((s.length.measure e).position - ((acceptEdge e ph s).length.measure e).position) := by
  have hunits := acceptEdge_units (ph := ph) h
  have hfall := (Measure.units_eq h.2.2.2.2 (s.countDirection e ph)).2.2 hd
  rw [← (acceptEdge_figures e ph s).1] at hfall
  rw [Nat.sub_eq_zero_of_le hfall, Nat.zero_add] at hunits
  rw [acceptEdge_p, if_pos ha, hunits, hd]
  rfl

end Figures

/-! ## Silence, slip and the limit (R12, R16 to R21) -/

theorem acceptEdge_follows {e : Encoder} {ph : Phase} {s : State} (hs : s.AlertsSound) :
    SilenceFollows e (s.countUnits e (s.countDirection e ph)) s (acceptEdge e ph s) ∧
    SlipFollows e (decide (s.countDirection e ph = .forward)) (s.countUnits e (s.countDirection e ph)) s (acceptEdge e ph s) ∧
    (acceptEdge e ph s).PendsAs .positionLimit (s.postTimes
      ((if (s.length.measure e).position < 4294967295 ∧ ((acceptEdge e ph s).length.measure e).position = 4294967295 then 1 else 0) +
        (if s.length.p < 4294967295 ∧ (acceptEdge e ph s).length.p = 4294967295 then 1 else 0)) .positionLimit) := by
  have hpends (k : EventKind) (hk : k ∈ countKinds) := acceptEdge_pends e ph s hk
  have hlength : (acceptEdge e ph s).length = (counted e (s.countDirection e ph) s).length := acceptEdge_length e ph s
  refine ⟨silence_follows hs hpends hlength fun he ha => ?_, slip_follows (hpends _ (by decide)) hlength hs,
    positionLimit_follows hs hpends hlength⟩
  have hunmoved : (acceptEdge e ph s).length.p = s.length.p := by
    rw [acceptEdge_p, if_neg]
    rw [he, ha]
    exact Encoder.noConfusion
  rw [acceptEdge_of_unmoved hunmoved]
  rfl

/-! ## The whole count -/

theorem CountedInto.windingTested {s v : State} (h : CountedInto s v) (old : Nat) : WindingTested s (changeOfP old v) := by
  have htested := changeOfP_windingTested old v
  unfold WindingTested at htested ⊢
  rwa [h.job, h.geometry] at htested

theorem State.countDirection_iff (s : State) (e : Encoder) (ph : Phase) : s.countDirection e ph = .forward ↔
    (ph = .one ∧ (s.inputs.encoder e).level1 = (s.inputs.encoder e).level2) ∨
      (ph = .two ∧ (s.inputs.encoder e).level1 ≠ (s.inputs.encoder e).level2) := edgeDirection_forward_iff _ _

theorem Direction.eq_reverse_of_ne {d : Direction} (h : d ≠ .forward) : d = .reverse := by
  cases d
  · exact absurd rfl h
  · rfl

theorem acceptEdge_exec {s : State} (h : s.running = true) (e : Encoder) (ph : Phase) :
    exec (.count e ph) s = .next (acceptEdge e ph s) := by
  rw [exec_event (g := fun s => if s.running then acceptEdge e ph s else s) rfl s, if_pos h]

/-- Settles O11: the encoder's own figures by the cases of R11 and R12, and a change of P by its blocks in the order of R14; a record
handed to the roll map lane by lane. -/
theorem countMovesItsEncoderExactly : Obligations.CountMovesItsEncoderExactly := by
  refine ⟨fun e ph s hrun hm => ?_, fun it set s hset hfirst ha => deliverToRoll_follows hset hfirst ha⟩
  intro x fwd m n d lost
  have hforward : fwd ↔ s.countDirection e ph = .forward := (s.countDirection_iff e ph).symm
  have hreverse (h : ¬ fwd) : s.countDirection e ph = .reverse := Direction.eq_reverse_of_ne fun hd => h (hforward.2 hd)
  obtain ⟨hposition, hremainder, hsilent, hsilence⟩ := acceptEdge_figures e ph s
  obtain ⟨hlevel1, hlevel2⟩ := edged_levels s.inputs e ph
  obtain ⟨htime, hgeometry, hmotion, hplans, hjob, hports, hfree, hpending⟩ := acceptEdge_frame e ph s
  refine ⟨acceptEdge e ph s, acceptEdge_exec hrun e ph, ?_, ?_, fun hf => ?_, fun hf hn => ?_,
    fun hf hlt hle => ?_, fun hf hlt hgt => ?_, fun hactive hf => ?_, fun hactive hf => ?_, fun hactive => ?_, ⟨hsilent, hsilence⟩,
    fun hsame => ?_, acceptEdge_other e ph s, ⟨htime, hgeometry, hmotion, hplans, hjob, hports, hfree, hpending⟩,
    fun hs => ?_, fun hmoved => ?_⟩
  · rw [acceptEdge_inputs]
    exact hlevel1
  · rw [acceptEdge_inputs]
    exact hlevel2
  · rw [hposition, hremainder, hforward.1 hf]
    exact Measure.step_forward m
  · rw [hposition, hremainder, hreverse hf]
    exact Measure.step_reverse_within hn
  · rw [hposition, hremainder, hreverse hf]
    exact Measure.step_reverse_units hlt hle
  · rw [hposition, hremainder, hreverse hf]
    exact Measure.step_reverse_hold hlt hgt
  · exact acceptEdge_p_forward hm hactive (hforward.1 hf)
  · exact acceptEdge_p_reverse hm hactive (hreverse hf)
  · rw [acceptEdge_p, if_neg hactive]
  · rw [acceptEdge_of_unmoved hsame]
    exact handedOn_keeps e ph s
  · rw [← acceptEdge_units hm]
    obtain ⟨hsilenceFollows, hslip, hlimit⟩ := acceptEdge_follows (e := e) (ph := ph) hs
    refine ⟨hsilenceFollows, fun hf => ?_, fun hf => ?_, hlimit⟩
    · rwa [decide_eq_true (hforward.1 hf)] at hslip
    · rwa [decide_eq_false fun hd => hf (hforward.2 hd)] at hslip
  · have hinto := handedOn_countedInto e ph s (active_of_moved hmoved)
    have hlength := congrArg LengthCounter.p (acceptEdge_length e ph s)
    rw [hlength, acceptEdge_of_moved hmoved]
    refine ⟨?_, fun hstill => hinto.tracker_of_still (hstill.imp le_of_lt id), fun l hl hp _ hlt hle => hinto.missedMarksFollow hl hp hlt hle,
      fun hq => ?_, hinto.windingTested _, fun hq ha hs => ?_⟩
    · rw [changeOfP_strobe, (handedOn_keeps e ph s).2.2.2]
      rfl
    · obtain ⟨-, -, hnodup, -⟩ := hq
      exact ⟨hinto.recordsFollow _ hnodup, hinto.rollFollows _ hnodup⟩
    · obtain ⟨-, -, hnodup, -⟩ := hq
      exact hinto.plannerFollows hnodup ha hs _ rfl

end Sys2Proof.Machine
end
